-- ==== Sys2Proof/Word.lean ====
section
/-! DEFINITION. The words of the machine and the sparse tables its state is made of. -/
namespace Sys2Proof

abbrev Byte := BitVec 8
abbrev Word := BitVec 32
abbrev DWord := BitVec 64
/-- An instruction word (R34). -/
abbrev InsnWord := BitVec 96
/-- The 64 bytes of a task, event or trace record (R356, R363, R421). -/
abbrev Record := BitVec 512
/-- One bit for each of the 32 lanes. -/
abbrev Mask := BitVec 32
/-- The 32 lanes of a vector register, lane 0 first. -/
abbrev Lanes := List Word
/-- Sparse data by key: keys strictly rising, and no entry equal to what an absent key reads as. -/
abbrev Tab (α : Type) := List (Nat × α)

end Sys2Proof
end

