-- ==== Sys2Proof/Syntax.lean ====
section
/-! DEFINITION. The rows of the table of operations and events: 150 instruction words and 103 events. -/
namespace Sys2Proof

/-- The special registers (R51), indices 0 to 25. -/
inductive Special where
  | lane | fib | berth | core | quay | die | mod | role | grp | amask | ctide | cyc | rtime
  | cwp0 | cwp1 | cwp2 | cwp3 | ocCopy | ocMatrix | ocGath | ocColl | rgn | fp4x | tmask | tpc | fault
  deriving DecidableEq, Repr

/-- An operand code (R36): a vector, scalar or special register. -/
inductive Opnd where
  | v (n : BitVec 8)
  | s (n : BitVec 6)
  | sp (r : Special)
  deriving DecidableEq, Repr

/-- Source B of a word that has an R form and an I form (R35, R50). -/
inductive Src where
  | reg (o : Opnd)
  | imm (i : Word)
  deriving DecidableEq, Repr

/-- The type codes (R40), in code order. -/
inductive Ty where
  | b32 | i32 | n32 | f32 | i16x2 | n16x2 | f16x2 | bf16x2 | i8x4 | n8x4 | t8x4 | t6x5 | fp4x8 | i4x8
  | e8x4 | b8 | b16 | i8 | i16 | b64 | i64 | n64 | b128
  deriving DecidableEq, Repr

/-- The guard field (R42). -/
inductive Guard where
  | always
  | pass (n : BitVec 5)
  | fails (n : BitVec 5)
  deriving DecidableEq, Repr

/-- What every word carries besides its operands: guard (R42), hints (R44) and empty policies (R47). -/
structure Hdr where
  guard : Guard
  sos : Bool
  dist : BitVec 4
  reuse : BitVec 3
  trapA : Bool
  trapB : Bool
  trapC : Bool
  deriving DecidableEq, Repr

/-- Order codes (R45). -/
inductive Order where
  | plain | acq | rel | acqrel | sc
  deriving DecidableEq, Repr

/-- Scope codes (R28). -/
inductive Scope where
  | fib | grp | quay | die | mod | dom | sys
  deriving DecidableEq, Repr

/-- Cache policies (R230). -/
inductive CPol where
  | normal | l1EvictFirst | noL1 | l2EvictFirst | l2Retain
  deriving DecidableEq, Repr

/-- Rounding modes (R48, R67). -/
inductive Rnd where
  | rn | rz | ru | rd
  deriving DecidableEq, Repr

/-- Condition codes 0 to 14 (R49). -/
inductive Cond where
  | eq | ne | lt | le | gt | ge | ord | uno | ueq | ult | ule | ugt | uge | z | nz
  deriving DecidableEq, Repr

/-- Reduction operations of `vred` (R119). -/
inductive RedOp where
  | add | min | max | and | or | xor
  deriving DecidableEq, Repr

/-- Shuffle modes (R123). -/
inductive ShMode where
  | idx | up | down | xor
  deriving DecidableEq, Repr

/-- Vote modes (R121). -/
inductive VoteMode where
  | all | any | uni
  deriving DecidableEq, Repr

/-- Conversion formats (R140), in code order. -/
inductive Fmt where
  | f32 | f16 | bf16 | t8 | t6 | fp4 | e8m0 | e4m3 | e5m2 | i4 | i8 | n8 | i16 | n16 | i32 | n32 | i64 | n64
  deriving DecidableEq, Repr

/-- Result modes of `cvtunpk` (R144). -/
inductive DMode where
  | f32 | f16x2 | bf16x2
  deriving DecidableEq, Repr

/-- Modes of `tlbi` (R213). -/
inductive TlbiMode where
  | va | ctx | all
  deriving DecidableEq, Repr

/-- Outstanding-command classes (R259, R288). -/
inductive OcClass where
  | copy | matrix | gath | coll
  deriving DecidableEq, Repr

/-- Kinds of `coll` (R411). -/
inductive CollKind where
  | ar | ag | bc
  deriving DecidableEq, Repr

/-- Operations of an all-reduce (R411). -/
inductive CollOp where
  | add | min | max
  deriving DecidableEq, Repr

/-- One source (shapes of R94). -/
structure Op1 where
  h : Hdr
  t : Ty
  d : Opnd
  a : Opnd
  deriving DecidableEq, Repr

/-- Two sources, the second a register or an immediate. -/
structure Op2 where
  h : Hdr
  t : Ty
  d : Opnd
  a : Opnd
  b : Src
  deriving DecidableEq, Repr

/-- Three register sources. -/
structure Op3 where
  h : Hdr
  t : Ty
  d : Opnd
  a : Opnd
  b : Opnd
  c : Opnd
  deriving DecidableEq, Repr

/-- A load or store (R236): `r` is the result or the data register. -/
structure MemOp where
  h : Hdr
  t : Ty
  ord : Order
  sc : Scope
  cpol : CPol
  r : Opnd
  base : Opnd
  off : Src
  deriving DecidableEq, Repr

/-- An atomic (R236, R244). -/
structure AtomOp where
  h : Hdr
  t : Ty
  ord : Order
  sc : Scope
  d : Opnd
  base : Opnd
  b : Opnd
  deriving DecidableEq, Repr

/-- A queue instruction (R365); `blk` is the record block, absent where the field holds 0. -/
structure QOp where
  h : Hdr
  ord : Order
  sc : Scope
  d : Opnd
  a : Opnd
  blk : Option Opnd
  deriving DecidableEq, Repr

/-- A fibre context: module-wide core index (R24), berth, context. -/
structure Place where
  core : Nat
  berth : Nat
  fib : Nat
  deriving DecidableEq, Repr

/-- What the resident kernel does with a frozen fibre (R197). -/
inductive ResumeHow where
  | again
  | next (lanes : List (Nat × DWord))
  | killContext
  deriving DecidableEq, Repr

/-- An operation packet that a peer module sends to this module's homes (R232); the issuer's context number is that of its
own module. -/
inductive PeerOp where
  | lease (len : Nat)
  | load (n : Nat)
  | store (bytes : List Byte)
  | atomic (op : BitVec 4) (t : Ty) (lane : Nat) (pc : DWord) (b c : DWord)
  /-- a core's partial of one line: the operation the page declares, and the elements folded, by byte offset -/
  | contribute (core : Nat) (cop : Nat) (elems : List (Nat × DWord))
  | probe
  | prom (core : Nat) (sc : Scope)
  | mbarInit (n : Nat)
  | mbarArr
  | mbarRead
  /-- `sy`: the scope of a push that releases, or of a take that acquires (R361) -/
  | queue (op : BitVec 4) (cid : Nat) (rcd : Record) (sy : Option Scope)
  | depRec (qpa : Nat) (cid : Nat) (rcd : Record) (sy : Option Scope)
  | dep (cid : Nat)
  /-- a `tlbi` of system scope (R213) -/
  | tlbi (mode : TlbiMode) (a b : DWord)
  /-- the context has retired: the queues it owns here close (R354) -/
  | close (cid : Nat)
  deriving DecidableEq, Repr

/-- What a peer module answers to a request of this module (R232); `cls`: 0, MEM_ERROR or QUEUE. -/
structure PeerRep where
  data : List Byte
  wt : Nat
  lt : Nat
  status : DWord
  cls : Nat
  deriving DecidableEq, Repr

/-- Who performs a register access (R371, R433, R439). -/
inductive Agent where
  | controlCore
  | host
  deriving DecidableEq, Repr

/-- A host access through CXL.mem (R409). -/
inductive HostAcc where
  | read (pa : Nat) (n : Nat)
  | write (pa : Nat) (bytes : List Byte)
  deriving DecidableEq, Repr

/-- One participant's call of a collective, as it reaches this module's engine (R410, R412): its
module, whether it matches, its clock at issue, and its source elements. -/
structure CollPart where
  module : Nat
  /-- the number of its call on the communicator -/
  seq : Nat
  agrees : Bool
  /-- the failing address of a participant that has abandoned the collective -/
  fail : Option Nat
  ctide : Nat
  elems : List DWord
  deriving DecidableEq, Repr

/-- Why a word is no instruction (R55): every one of them raises UNDEF. -/
inductive Reject where
  | reservedMajor
  | reservedType
  | reservedOperand
  | reservedOrder
  | reservedScope
  | reservedPolicy
  | reservedSubfield
  | noSuchForm
  | illFormed
  | ignoredFieldNotZero
  | tooFewBytes
  deriving DecidableEq, Repr

/-- The rows of the table. The first 150 are instruction words, the others events. -/
inductive Instr where
  -- row 0x0_ (R165)
  | nop (h : Hdr)
  | br (h : Hdr) (c : Cond) (a : Opnd) (off : Word)
  | brc (h : Hdr) (c : Cond) (a : Opnd) (off : BitVec 27) (tok : BitVec 5)
  | jmp (h : Hdr) (tgt : Src)
  | call (h : Hdr) (off : Word)
  | calli (h : Hdr) (a : Opnd)
  | ret (h : Hdr) (a : Opnd)
  | join (h : Hdr) (tok : BitVec 5)
  | exit (h : Hdr)
  | yield (h : Hdr)
  | spawn (h : Hdr) (d : Opnd) (blk : Opnd) (tgt : Src)
  | fbar (h : Hdr) (m : BitVec 8)
  | wgive (h : Hdr) (slot : BitVec 4)
  | wclaim (h : Hdr) (slot : BitVec 4)
  | park (h : Hdr) (base : Opnd) (off : Src)
  -- row 0x1_ (R204)
  | rgnEnter (h : Hdr) (id : BitVec 16) (idem : Bool)
  | rgnLeave (h : Hdr)
  | trap (h : Hdr) (code : BitVec 16)
  | tret (h : Hdr) (skip : Bool)
  | brk (h : Hdr) (tag : BitVec 16)
  | fltrd (h : Hdr) (d : Opnd) (sel : BitVec 4)
  | fltset (h : Hdr) (t : Ty) (a : Src)
  | ldsys (h : Hdr) (t : Ty) (d : Opnd) (base : Opnd) (off : Src)
  | stsys (h : Hdr) (t : Ty) (base : Opnd) (off : Opnd) (data : Opnd)
  | tlbi (h : Hdr) (sc : Scope) (m : TlbiMode) (a : Opnd) (b : Opnd)
  | ldsp (h : Hdr) (d : Opnd)
  | stsp (h : Hdr) (a : Src)
  | mark (h : Hdr) (value : Word)
  | chk (h : Hdr) (d : Opnd) (a : Opnd)
  | pilot (h : Hdr) (on : Bool)
  -- row 0x2_ (R94)
  | add (x : Op2) (sat : Bool)
  | sub (x : Op2) (sat : Bool)
  | mul (x : Op2) (sat : Bool)
  | mulh (x : Op2)
  | mad (x : Op3) (sat : Bool)
  | div (x : Op2)
  | rem (x : Op2)
  | neg (x : Op1) (sat : Bool)
  | abs (x : Op1) (sat : Bool)
  | min (x : Op2)
  | max (x : Op2)
  | sad (x : Op3) (sat : Bool)
  | addc (x : Op3) (co : Bool)
  | subb (x : Op3) (bo : Bool)
  | lea (x : Op2) (sh : BitVec 2)
  | dot4 (x : Op3) (sat : Bool)
  -- row 0x3_ (R94)
  | and (x : Op2)
  | or (x : Op2)
  | xor (x : Op2)
  | andn (x : Op2)
  | not (x : Op1)
  | shl (x : Op2)
  | shr (x : Op2)
  | sra (x : Op2)
  | rol (x : Op2)
  | bfx (x : Op2)
  | bfi (x : Op3)
  | popc (x : Op1)
  | clz (x : Op1)
  | ctz (x : Op1)
  | brev (x : Op1)
  | prmt (x : Op3)
  -- row 0x4_ (R94)
  | cmp (x : Op2) (c : Cond)
  | sel (x : Op3)
  | mov (h : Hdr) (t : Ty) (d : Opnd) (a : Src)
  | pack (h : Hdr) (t : Ty) (d : Opnd) (a : Opnd) (b : Opnd) (sat : Bool)
  | unpack (x : Op1) (hi : Bool)
  | rdl (x : Op2)
  | bcast (x : Op2)
  | vred (x : Op1) (op : RedOp)
  | ballot (x : Op1)
  | shfl (x : Op2) (m : ShMode)
  | vote (x : Op1) (m : VoteMode)
  | actn (x : Op1)
  -- row 0x5_ (R125)
  | fadd (x : Op2) (r : Rnd)
  | fsub (x : Op2) (r : Rnd)
  | fmul (x : Op2) (r : Rnd)
  | fma (x : Op3) (r : Rnd)
  | fmin (x : Op2) (num : Bool)
  | fmax (x : Op2) (num : Bool)
  | fcmp (x : Op2) (c : Cond)
  | frnd (x : Op1) (r : Rnd)
  | fclass (x : Op1)
  | fdot2 (x : Op3) (r : Rnd)
  | fscl (x : Op2) (r : Rnd)
  | fexpo (x : Op1)
  -- row 0x6_ (R125)
  | rcp (x : Op1) (r : Rnd)
  | rsq (x : Op1) (r : Rnd)
  | sqrt (x : Op1) (r : Rnd)
  | exp2 (x : Op1) (r : Rnd)
  | log2 (x : Op1) (r : Rnd)
  | sinpi (x : Op1) (r : Rnd)
  | cospi (x : Op1) (r : Rnd)
  | tanh (x : Op1) (r : Rnd)
  | fdiv (x : Op2) (r : Rnd)
  -- row 0x7_ (R125)
  | cvt (h : Hdr) (d : Opnd) (a : Opnd) (df : Fmt) (sf : Fmt) (sat : Bool) (r : Rnd)
  | cvtpk (h : Hdr) (d : Opnd) (a : Opnd) (b : Option Opnd) (c : Opnd) (df : Fmt) (p : BitVec 3) (sat : Bool) (r : Rnd)
  | cvtunpk (h : Hdr) (d : Opnd) (a : Opnd) (dm : DMode) (sf : Fmt) (e : BitVec 3) (r : Rnd)
  | mxsc (x : Op1) (f : Fmt)
  -- row 0x8_ (R236)
  | ldG (x : MemOp)
  | stG (x : MemOp)
  | ldX (x : MemOp)
  | stX (x : MemOp)
  | pf (h : Hdr) (cpol : CPol) (base : Opnd) (off : Src)
  | dsc (h : Hdr) (base : Opnd) (off : Src)
  | fence (h : Hdr) (ord : Order) (sc : Scope)
  | prom (h : Hdr) (sc : Scope) (d : Opnd) (a : Opnd)
  | lease (h : Hdr) (base : Opnd) (off : Src) (e : BitVec 4)
  | cadd (h : Hdr) (t : Ty) (data : Opnd) (base : Opnd) (off : Src)
  | cmin (h : Hdr) (t : Ty) (data : Opnd) (base : Opnd) (off : Src)
  | cmax (h : Hdr) (t : Ty) (data : Opnd) (base : Opnd) (off : Src)
  -- row 0x9_ (R236, R245)
  | atomAdd (x : AtomOp)
  | atomSub (x : AtomOp)
  | atomMin (x : AtomOp)
  | atomMax (x : AtomOp)
  | atomAnd (x : AtomOp)
  | atomOr (x : AtomOp)
  | atomXor (x : AtomOp)
  | atomXchg (x : AtomOp)
  | atomCas (x : AtomOp) (c : Opnd)
  | atomInc (x : AtomOp)
  | atomDec (x : AtomOp)
  | atomFadd (x : AtomOp)
  -- row 0xA_ (R288, R411)
  | copy (h : Hdr) (cpol : CPol) (out : Bool) (ch : BitVec 2) (a : Opnd) (b : Opnd) (c : Opnd) (stride : Opnd)
  | gath (h : Hdr) (cpol : CPol) (a : Opnd) (b : Opnd) (c : Opnd)
  | scat (h : Hdr) (cpol : CPol) (a : Opnd) (b : Opnd) (c : Opnd)
  | wait (h : Hdr) (cls : OcClass) (n : Src)
  | waitp (h : Hdr) (ch : BitVec 2) (t : Src)
  | coll (h : Hdr) (t : Ty) (sc : Scope) (kind : CollKind) (op : CollOp) (a : Opnd) (b : Opnd) (c : Opnd)
  -- row 0xB_ (R330)
  | mwld (h : Hdr) (cpol : CPol) (a : Opnd)
  | mpass (h : Hdr) (cpol : CPol) (a : Opnd)
  | mtab (h : Hdr) (cpol : CPol) (a : Opnd)
  | accld (h : Hdr) (d : Opnd) (a : Opnd) (col : BitVec 8) (cnt : BitVec 3)
  | accst (h : Hdr) (d : Opnd) (a : Opnd) (col : BitVec 8) (cnt : BitVec 3)
  | acczero (h : Hdr) (a : Opnd) (cnt : BitVec 3)
  | mstat (h : Hdr) (d : Opnd) (sel : BitVec 2)
  -- row 0xC_ (R300, R365, R349)
  | bar (h : Hdr) (sc : Scope) (b : BitVec 4) (n : BitVec 6)
  | barArr (h : Hdr) (sc : Scope) (d : Opnd) (b : BitVec 4) (n : BitVec 6)
  | barWt (h : Hdr) (sc : Scope) (a : Opnd) (b : BitVec 4)
  | mbarInit (h : Hdr) (sc : Scope) (a : Opnd) (b : Opnd)
  | mbarArr (h : Hdr) (sc : Scope) (d : Opnd) (a : Opnd)
  | mbarWt (h : Hdr) (sc : Scope) (a : Opnd) (b : Opnd)
  | qpush (x : QOp)
  | qpop (x : QOp)
  | dqPush (x : QOp)
  | dqPop (x : QOp)
  | dqSteal (x : QOp)
  | depDec (x : QOp)
  | launch (h : Hdr) (d : Opnd) (a : Opnd) (b : Opnd)
  | graphTrig (h : Hdr) (d : Opnd) (a : Opnd) (b : Opnd) (c : Opnd)
  -- events: fibres, berths and spans
  | instructionFetchReturn (p : Place) (fresh : Bool)
  | resultWriteback (id : Nat)
  | fibreQuantumExpiry (core : Nat) (berth : Nat)
  | starvationOverride (core : Nat) (berth : Nat)
  | dividedHalfRotate (p : Place)
  | spanLengthLimit (p : Place)
  | spanCommitRefused (p : Place)
  | gateOpen (p : Place)
  | residentResume (p : Place) (how : ResumeHow)
  -- events: lines and homes
  | homeLeaseRequest (id : Nat)
  | leaseReply (id : Nat)
  | ownershipRequest (id : Nat)
  | ownershipGrant (id : Nat)
  | recall (id : Nat)
  | recallAnswer (id : Nat)
  | untrackedAccess (id : Nat)
  | spinNudge (p : Place)
  | parkedClockNudge (core : Nat)
  | parkProbe (p : Place)
  | parkProbeReply (id : Nat)
  | peerPacket (src : Nat) (pa : Nat) (clk : DWord) (op : PeerOp)
  | peerReply (id : Nat) (rep : PeerRep)
  | partialArrival (id : Nat)
  | homeAtomic (id : Nat)
  | atomicReply (id : Nat)
  | promVictim (id : Nat)
  | homeMbarOp (id : Nat)
  | homeQueueOp (id : Nat)
  | homeDepDec (id : Nat)
  | depRecordArrival (id : Nat)
  | eventPost (p : Place)
  | spanCompare (p : Place)
  -- events: groups and engines
  | groupPlace (g : Nat)
  | drainTimeout (g : Nat)
  | groupSaveWrite (g : Nat)
  | groupRetire (g : Nat)
  | copyCommandExecute (core : Nat) (ch : BitVec 2)
  | gatherCommandExecute (core : Nat) (moved : Mask)
  | engineCommandComplete (id : Nat)
  | matrixStep (quay : Nat)
  | matrixAgePromote (quay : Nat) (e : Nat)
  | weightPlaneLoad (quay : Nat)
  -- events: tasks, graphs and contexts
  | taskTake (cid : Nat)
  | graphTrigger (slot : Nat) (npatch : BitVec 7)
  | graphRefusedRead (slot : Nat)
  | graphRecordPlace (slot : Nat) (run : Nat)
  | reload (cid : Nat)
  | freeze (cid : Nat)
  | thaw (cid : Nat)
  | kill (cid : Nat)
  | retire (cid : Nat)
  | dump (cid : Nat)
  | sliceExpiry (cid : Nat)
  | gangStartWrite (t : DWord)
  | gangSliceStart (gang : Nat)
  | gangStartPacket (gang : Nat) (src : Nat)
  | gangAbandon (gang : Nat)
  | lighthouseFire (cid : Nat)
  | heartbeatWrite (v : DWord)
  -- events: translation, links and collectives
  | walkComplete (die : Nat) (w : Nat)
  | walkDispatch (die : Nat)
  | linkEnable (n : Nat)
  | linkDisable (n : Nat)
  | linkTrained (n : Nat) (width : Nat) (peer : Nat)
  | linkTrainingTimeout (n : Nat)
  | linkLaneFail (n : Nat) (usable : Nat)
  | flitReceive (n : Nat) (seq : Nat) (crcOk : Bool) (dst : Nat) (pa : Nat)
  | flitAck (n : Nat) (seq : Nat)
  | flitResendTimeout (n : Nat)
  | stopFlit (n : Nat)
  | resumeFlit (n : Nat)
  | linkStatusRead (n : Nat)
  | peerReplyTimeout (id : Nat)
  | timerFlit (n : Nat) (t : DWord)
  | hostMemoryAccess (a : HostAcc)
  | collStart (id : Nat) (parts : List CollPart)
  | collComplete (id : Nat)
  -- events: debug, replay, boot and registers
  | halt (cid : Nat) (p : Place)
  | resume (cid : Nat) (p : Place)
  | step (cid : Nat) (p : Place)
  | haltAtRegionEdge (cid : Nat) (p : Place)
  | haltEveryFibre (cid : Nat)
  | resumeEveryFibre (cid : Nat)
  | sampleTick (cid : Nat)
  | replayDivergence (id : Nat)
  | faultInjectArm (v : BitVec 128)
  | firmwareImageReceive (image : List Byte) (fwver : Word)
  | warmRebootRequest (who : Agent)
  | quoteRequest (nonce : BitVec 256)
  | lifecycleTransition (target : BitVec 2) (sig : List Byte)
  | frequencyStep (die : Nat) (fmul : Nat)
  | pllRelockDone (die : Nat)
  | registerWrite (who : Agent) (pa : Nat) (size : Nat) (v : DWord)
  | portReply (id : Nat) (data : List Byte)
  -- events without arguments
  | alloc
  | load
  | contextResultRead
  | dumpStart
  | dumpWritten
  | heartbeatMiss
  | controlCoreException
  | faultInjectDoneClear
  | coldReset
  deriving DecidableEq, Repr

end Sys2Proof
end

