-- ==== Sys2Proof/Config.lean ====
section
/-! DEFINITION. What an implementation fixes and the spec leaves open: free values, of which nothing can be proved. -/
namespace Sys2Proof

/-- The n-th free value of a run (log entry 8, DESIGN CHOICE): what the spec leaves open where the machine goes on, such as which elements of an
abandoned collective are written (R414). -/
opaque Config.freeValue : Nat → Nat

/-- Which of the two bracketing FP32 results a faithful special function returns under `.rn` (R88, R138): the smallest operand, as
an integer that orders operands, for which it is the upper one. `fn` is the major opcode, `lo` the lower bracket. One threshold
per bracket keeps the results monotone, as R138 asks. -/
opaque Config.faithfulCut : (fn : Nat) → (lo : Int) → Int

/-- The same choice for `sinpi` and `cospi`, which R138 does not ask to be monotone: by the magnitude of the operand. -/
opaque Config.faithfulUp : (fn : Nat) → (x : Nat) → Bool

/-- Whether an ML-DSA-44 signature verifies (R431, R435): key 0 firmware, key 1 transition records. -/
opaque Config.sigOk : (key : Nat) → (msg : List Byte) → (sig : List Byte) → Bool

/-- The 2,420 bytes of an ML-DSA-44 signature made with the device identity key of the given generation (R434). -/
opaque Config.quoteSig : (keyNo : Nat) → (digest : BitVec 256) → Nat

/-- The public half of the device identity key (R434, R437), 1,312 bytes. -/
opaque Config.identityKey : (keyNo : Nat) → BitVec 10496

/-- Where in the register range the capability records lie (R436): an implementation's own choice. -/
opaque Config.capHead : Nat

/-- Bytes of the CXL memory tier attached to another module (R25). -/
opaque Config.peerCxl : (module : Nat) → Nat

/-- The highest frequency, in units of 100 MHz, at which a die keeps the package within a power limit in watts at a time (R438): the
spec gives no power model. -/
opaque Config.powerFreq : (die limit time : Nat) → Nat

/-- The version in the signed header of a firmware image (R432): the spec gives the header no layout. -/
opaque Config.imageVersion : (image : List Byte) → Word

/-- The measured delay of a link, in ticks (R408): how a module measures it the spec does not say. -/
opaque Config.linkDelay : (link : Nat) → Nat

/-- The modules that take part in a gang (R376): what the resident kernels of the domain have agreed. -/
opaque Config.gangMember : (gang : Nat) → (module : Nat) → Bool

end Sys2Proof
end

