-- ==== Sys2Proof/WellFormed.lean ====
section
/-! DEFINITION. Which instructions are well formed: the checks of R36 to R52 and of each encoding row, on the
typed instruction. A word whose instruction fails them raises UNDEF (R55). -/
namespace Sys2Proof

def Opnd.isV : Opnd → Bool
  | .v _ => true
  | _ => false

/-- A position the spec calls scalar: a scalar register, or a special register with one value for the
fibre (R37, R39; a special register is neither a vector nor `%lane`: log entry 15, DEDUCED). -/
def Opnd.isScalar : Opnd → Bool
  | .v _ => false
  | .s _ => true
  | .sp r => r != .lane

/-- A destination (R36, R52): of the special registers only `%fp4x` may be written. -/
def Opnd.isDst : Opnd → Bool
  | .sp r => r == .fp4x
  | _ => true

def Opnd.isScalarDst (o : Opnd) : Bool := o.isScalar && o.isDst

/-- Registers that one value of the type takes in a lane (R38). -/
def Ty.regs : Ty → Nat
  | .b64 | .i64 | .n64 => 2
  | .b128 => 4
  | _ => 1

/-- The register is the required multiple (R38); a b128 scalar value starts at an even register. -/
def Opnd.aligned (regs : Nat) : Opnd → Bool
  | .v n => n.toNat % regs == 0
  | .s n => regs != 4 || n.toNat % 2 == 0
  | .sp _ => true

def Guard.ok : Guard → Bool
  | .always => true
  | .pass n => n != 0
  | .fails n => n != 0

/-- The guard is legal, and only on a word that takes one (R42). -/
def Hdr.ok (h : Hdr) (guarded : Bool) : Bool := h.guard.ok && (guarded || h.guard == .always)

/-- Empty-policy bits stand only where a position holds a register (R47). -/
def Hdr.traps (h : Hdr) (a b c : Bool) : Bool := (!h.trapA || a) && (!h.trapB || b) && (!h.trapC || c)

def Src.isReg : Src → Bool
  | .reg _ => true
  | .imm _ => false

/-- A source of an operation: a vector only in a lane operation (or where the description lists one),
`%lane` only in a lane operation (R37, R39), aligned (R38). -/
def srcOk (lane vec : Bool) (regs : Nat) (o : Opnd) : Bool :=
  (vec || !o.isV) && (lane || o != .sp .lane) && o.aligned regs

def srcBOk (lane vec : Bool) (regs : Nat) : Src → Bool
  | .reg o => srcOk lane vec regs o
  | .imm _ => true

/-- The types a scalar operation of rows 0x2_ to 0x7_ accepts (R37, R93, R124). -/
def Ty.scalarOk : Ty → Bool
  | .b32 | .i32 | .n32 | .f32 | .b64 | .i64 | .n64 | .b128 => true
  | _ => false

def dstOk (regs : Nat) (t : Ty) (d : Opnd) : Bool := d.isDst && d.aligned regs && (d.isV || t.scalarOk)

/-- The immediate of a shift has no bit set that the shift amounts do not take (R55, R107, R108; log entry 41, DEDUCED). -/
def shiftImm (t : Ty) : Src → Bool
  | .reg _ => true
  | .imm i =>
    match t with
    | .i16x2 | .n16x2 => i.toNat % 65536 < 256 && i.toNat / 65536 < 256
    | .i8x4 | .n8x4 => true
    | _ => i.toNat < 256

def intTys : List Ty := [.i32, .n32, .i64, .n64]
def bitTys : List Ty := [.b32, .b64]
def addTys : List Ty := intTys ++ [.i16x2, .n16x2, .i8x4, .n8x4, .i4x8]
def mulTys : List Ty := intTys ++ [.i16x2, .n16x2, .i8x4, .n8x4]
def fpTys : List Ty := [.f32, .f16x2, .bf16x2]
def packTys : List Ty := [.i16x2, .n16x2, .i8x4, .n8x4, .i4x8]
/-- The store types of R236. -/
def storeTys : List Ty :=
  [.b8, .b16, .b32, .i32, .n32, .f32, .i16x2, .n16x2, .f16x2, .bf16x2, .i8x4, .n8x4, .t8x4, .t6x5, .fp4x8,
   .i4x8, .e8x4, .b64, .i64, .n64, .b128]
/-- The load types of R236. -/
def loadTys : List Ty := .i8 :: .i16 :: storeTys

/-- One source; `vec`: a vector source is listed for the scalar operation (R37). Of `vred` and `vote` a scalar source is taken as well,
one value for every lane (R119 to R121; log entry 48, DEDUCED). -/
def Op1.ok (x : Op1) (tys : List Ty) (vec : Bool := false) : Bool :=
  x.h.ok true && x.h.traps true false false && tys.contains x.t && dstOk x.t.regs x.t x.d &&
  srcOk x.d.isV (vec || x.d.isV) x.t.regs x.a

/-- Two sources; `dr`, `br`: registers of the destination and of source B. -/
def Op2.okw (x : Op2) (tys : List Ty) (dr br : Nat) : Bool :=
  x.h.ok true && x.h.traps true x.b.isReg false && tys.contains x.t && dstOk dr x.t x.d &&
  srcOk x.d.isV x.d.isV x.t.regs x.a && srcBOk x.d.isV x.d.isV br x.b

def Op2.ok (x : Op2) (tys : List Ty) : Bool := x.okw tys x.t.regs x.t.regs

/-- Three sources; `cr`: registers of source C. -/
def Op3.okw (x : Op3) (tys : List Ty) (cr : Nat) : Bool :=
  x.h.ok true && x.h.traps true true true && tys.contains x.t && dstOk x.t.regs x.t x.d &&
  srcOk x.d.isV x.d.isV x.t.regs x.a && srcOk x.d.isV x.d.isV x.t.regs x.b && srcOk x.d.isV x.d.isV cr x.c

def Op3.ok (x : Op3) (tys : List Ty) : Bool := x.okw tys x.t.regs

/-- Scope without order only where the description gives scope a use (R46). -/
def scopeOk (o : Order) (s : Scope) : Bool := o != .plain || s == .fib

/-- A base (R237): a scalar or an even vector pair. -/
def baseOk (o : Opnd) : Bool := o.isScalar || (o.isV && o.aligned 2)

/-- An offset: a scalar register or an immediate (R236). -/
def offOk : Src → Bool
  | .reg o => o.isScalar
  | .imm _ => true

/-- A load or store without its type list: `st`, it names data in DEST (R236, R237). -/
def MemOp.ok (x : MemOp) (tys : List Ty) (ords : List Order) (st : Bool) : Bool :=
  x.h.ok true && x.h.traps true x.off.isReg false && tys.contains x.t && ords.contains x.ord && scopeOk x.ord x.sc &&
  (if st then x.r != .sp .lane else x.r.isDst) && x.r.aligned x.t.regs && baseOk x.base &&
  (x.r.isV || !x.base.isV) && offOk x.off

/-- An atomic (R236, R244, R245). -/
def AtomOp.ok (x : AtomOp) (tys : List Ty) (cas : Bool) : Bool :=
  x.h.ok true && x.h.traps true true cas && tys.contains x.t && scopeOk x.ord x.sc && x.d.isDst &&
  x.d.aligned x.t.regs && baseOk x.base && (x.d.isV || !x.base.isV) && srcOk x.d.isV x.d.isV x.t.regs x.b

/-- A contribution (R233, R236). -/
def contribOk (h : Hdr) (tys : List Ty) (t : Ty) (data base : Opnd) (off : Src) : Bool :=
  h.ok true && h.traps true off.isReg false && tys.contains t && data != .sp .lane && data.aligned t.regs &&
  baseOk base && (data.isV || !base.isV) && offOk off

/-- `pf`, `dsc`, `lease`: a memory operand and nothing else (R236). -/
def touchOk (h : Hdr) (base : Opnd) (off : Src) : Bool :=
  h.ok true && h.traps true off.isReg false && baseOk base && offOk off

/-- A record block: s8 to s56 in steps of 8 (R365). -/
def blockOk : Opnd → Bool
  | .s n => n.toNat % 8 == 0 && 8 ≤ n.toNat
  | _ => false

/-- A queue instruction (R365): `push` reads a block, a take may write one. -/
def QOp.ok (x : QOp) (ords : List Order) (push : Bool) : Bool :=
  x.h.ok true && x.h.traps true push false && ords.contains x.ord && scopeOk x.ord x.sc && x.d.isScalarDst && x.a.isScalar &&
  (match x.blk with
   | some b => blockOk b
   | none => !push)

/-- The rounding and saturation a destination format accepts (R141). -/
def cvtOk (df : Fmt) (srcFloat sat : Bool) (r : Rnd) : Bool :=
  match df with
  | .f32 | .f16 | .bf16 | .e5m2 => true
  | .t8 | .t6 | .fp4 | .e8m0 => r == .rn && !sat
  | .e4m3 => !sat
  | _ => if srcFloat then !sat else r == .rn

def Fmt.isFloat : Fmt → Bool
  | .f32 | .f16 | .bf16 | .t8 | .t6 | .fp4 | .e8m0 | .e4m3 | .e5m2 => true
  | _ => false

/-- Registers a format takes in a lane (R140). -/
def Fmt.regs : Fmt → Nat
  | .i64 | .n64 => 2
  | _ => 1

/-- Positions of `cvtpk` by destination format (R143). -/
def Fmt.packPositions : Fmt → Nat
  | .f16 | .bf16 => 1
  | .t8 | .e4m3 | .e5m2 => 2
  | .t6 => 3
  | .fp4 => 4
  | _ => 0

/-- Elements of a packed register by source format (R144); 0 where `cvtunpk` does not accept it. -/
def Fmt.unpackCount : Fmt → Nat
  | .f16 | .bf16 | .i16 | .n16 => 2
  | .t8 | .e4m3 | .e5m2 | .e8m0 | .i8 | .n8 => 4
  | .t6 => 5
  | .fp4 | .i4 => 8
  | _ => 0

def Cond.index : Cond → Nat
  | .eq => 0 | .ne => 1 | .lt => 2 | .le => 3 | .gt => 4 | .ge => 5 | .ord => 6 | .uno => 7 | .ueq => 8 | .ult => 9
  | .ule => 10 | .ugt => 11 | .uge => 12 | .z => 13 | .nz => 14

def isZNz (c : Cond) : Bool := c == .z || c == .nz

/-- A scalar or immediate operand standing in source A of the R form (R165, R204, R288). -/
def scalarOrImm : Src → Bool
  | .reg o => o.isScalar
  | .imm _ => true

def Place.ok (p : Place) : Bool := p.core < 1024 && p.berth < 4 && p.fib < 8

/-- `h` is a header with no guard and no empty policy. -/
def Hdr.bare (h : Hdr) : Bool := h.ok false && h.traps false false false

/-- Well-formed instructions and events. `rdl`, `vred`, `ballot`, `vote` and `mxsc` may take a vector source with `%fp4x` as
their destination, too, and `mxsc` to a scalar may take a scalar source, as one value for every lane (log entry 48, DEDUCED: R37
and R145 name neither form). -/
def Instr.wf : Instr → Bool
  | .nop h => h.bare
  | .br h c a _ => h.ok true && h.traps true false false && isZNz c && a.isScalar
  | .brc h c a _ _ => h.ok true && h.traps true false false && isZNz c && a.isV
  | .jmp h t => h.ok true && h.traps t.isReg false false && scalarOrImm t
  | .call h _ => h.ok true && h.traps false false false
  | .calli h a => h.ok true && h.traps true false false && a.isScalar
  | .ret h a => h.ok true && h.traps true false false && a.isScalar
  | .join h _ => h.bare
  | .exit h => h.ok true && h.traps false false false
  | .yield h => h.bare
  | .spawn h d blk t =>
    h.ok false && h.traps true t.isReg false && d.isScalarDst && blk.isV && blk.aligned 8 && scalarOrImm t
  | .fbar h _ => h.bare
  | .wgive h _ => h.bare
  | .wclaim h _ => h.bare
  | .park h b o => h.ok false && h.traps true o.isReg false && b.isScalar && offOk o
  | .rgnEnter h _ _ => h.bare
  | .rgnLeave h => h.bare
  | .trap h code => h.ok true && h.traps false false false && code.toNat ≤ 0xFFEF
  | .tret h _ => h.bare
  | .brk h _ => h.bare
  | .fltrd h d k =>
    h.ok true && h.traps false false false && d.isDst && d.aligned 2 && (if d.isV then k == 0 else k.toNat ≤ 6)
  | .fltset h t a =>
    h.ok true && h.traps a.isReg false false && bitTys.contains t && srcBOk true true t.regs a
  | .ldsys h t d b o =>
    h.ok false && h.traps true o.isReg false && bitTys.contains t && d.isScalarDst && b.isScalar && offOk o
  | .stsys h t b o c => h.ok false && h.traps true true true && bitTys.contains t && b.isScalar && o.isScalar && c.isScalar
  | .tlbi h sc m a b =>
    h.ok false && h.traps true true false && sc != .fib && sc != .sys && a.isScalar && b.isScalar &&
    (m == .va || a == .s 0) && (m != .all || b == .s 0)
  | .ldsp h d => h.bare && d.isScalarDst
  | .stsp h a =>
    h.ok false && h.traps a.isReg false false &&
    (match a with
     | .reg o => o.isScalar
     | .imm i => 1 ≤ i.toNat && i.toNat ≤ 4096)
  | .mark h _ => h.bare
  | .chk h d a => h.ok false && h.traps true false false && d.isScalarDst && a.isScalar
  | .pilot h _ => h.bare
  | .add x _ => x.ok addTys
  | .sub x _ => x.ok addTys
  | .mul x _ => x.ok mulTys
  | .mulh x => x.ok intTys
  | .mad x _ => x.ok (intTys ++ [.i16x2, .n16x2])
  | .div x => x.ok intTys
  | .rem x => x.ok intTys
  | .neg x _ => x.ok [.i32, .i64, .i16x2, .i8x4, .i4x8]
  | .abs x _ => x.ok [.i32, .i64, .i16x2, .i8x4, .i4x8]
  | .min x => x.ok addTys
  | .max x => x.ok addTys
  | .sad x _ => x.ok [.i32, .n32, .i16x2, .n16x2, .i8x4, .n8x4]
  | .addc x _ => x.ok [.n32, .n64]
  | .subb x _ => x.ok [.n32, .n64]
  | .lea x _ => x.okw [.b64] 2 1
  | .dot4 x _ => x.ok [.i8x4, .n8x4]
  | .and x => x.ok bitTys
  | .or x => x.ok bitTys
  | .xor x => x.ok bitTys
  | .andn x => x.ok bitTys
  | .not x => x.ok bitTys
  | .shl x => x.ok [.b32, .b64, .n16x2, .n8x4] && shiftImm x.t x.b
  | .shr x => x.ok [.b32, .b64, .n16x2, .n8x4] && shiftImm x.t x.b
  | .sra x => x.ok [.i32, .i64, .i16x2, .i8x4] && shiftImm x.t x.b
  | .rol x => x.ok bitTys && shiftImm x.t x.b
  | .bfx x => x.ok intTys && (match x.b with | .imm i => i.toNat < 0x10000 | .reg _ => true)
  | .bfi x => x.ok bitTys
  | .popc x => x.ok bitTys
  | .clz x => x.ok bitTys
  | .ctz x => x.ok bitTys
  | .brev x => x.ok bitTys
  | .prmt x => x.ok [.b32]
  | .cmp x c =>
    x.okw (mulTys ++ bitTys) 1 x.t.regs && (if bitTys.contains x.t then c.index ≤ 1 else c.index ≤ 5)
  | .sel x => x.okw bitTys 1
  | .mov h t d a =>
    h.ok true && h.traps a.isReg false false && [.b32, .i32, .n32, .f32, .b64, .i64, .n64, .b128].contains t &&
    dstOk t.regs t d && srcBOk d.isV d.isV t.regs a && (a.isReg || t != .b128)
  | .pack h t d a b _ =>
    h.ok true && h.traps true true false && packTys.contains t && dstOk 1 t d && srcOk d.isV d.isV 1 a && srcOk d.isV d.isV 1 b
  | .unpack x _ => x.ok packTys
  -- a scalar source A is none of the forms that R117 lists (log entry 48, DEDUCED)
  | .rdl x =>
    x.h.ok true && x.h.traps true x.b.isReg false && bitTys.contains x.t && x.d.isScalarDst && x.a.isV && x.a.aligned x.t.regs &&
    (match x.b with | .reg o => o.isScalar | .imm i => i.toNat < 32)
  -- an immediate lane number has no other bit set (R55, R118; log entry 41, DEDUCED)
  | .bcast x =>
    x.h.ok true && x.h.traps true x.b.isReg false && bitTys.contains x.t && dstOk x.t.regs x.t x.d &&
    srcOk x.d.isV x.d.isV x.t.regs x.a && (match x.b with | .reg o => o.isScalar | .imm i => i.toNat < 32)
  | .vred x op =>
    x.ok (match op with
      | .add | .min | .max => intTys
      | .and | .or | .xor => bitTys) true && x.d.isScalarDst
  | .ballot x => x.ok [.b32] true && x.d.isScalarDst
  | .shfl x m =>
    x.okw bitTys x.t.regs 1 &&
    (match x.b with
     | .imm i => i.toNat < (match m with | .idx | .xor => 32 | .up | .down => 256)
     | .reg _ => true)
  | .vote x _ => x.ok [.b32] true && x.d.isScalarDst
  | .actn x => x.ok [.n32] && x.d.isV
  | .fadd x _ => x.ok fpTys
  | .fsub x _ => x.ok fpTys
  | .fmul x _ => x.ok fpTys
  | .fma x _ => x.ok fpTys
  | .fmin x _ => x.ok fpTys
  | .fmax x _ => x.ok fpTys
  | .fcmp x c => x.ok fpTys && c.index ≤ 12
  | .frnd x _ => x.ok fpTys
  | .fclass x => x.ok fpTys
  | .fdot2 x _ => x.ok [.f16x2, .bf16x2]
  | .fscl x _ => x.ok fpTys
  | .fexpo x => x.ok [.f32]
  | .rcp x _ => x.ok fpTys
  | .rsq x _ => x.ok fpTys
  | .sqrt x _ => x.ok fpTys
  | .exp2 x _ => x.ok fpTys
  | .log2 x _ => x.ok fpTys
  | .sinpi x _ => x.ok fpTys
  | .cospi x _ => x.ok fpTys
  | .tanh x _ => x.ok fpTys
  | .fdiv x _ => x.ok fpTys
  | .cvt h d a df sf sat r =>
    h.ok true && h.traps true false false && d.isDst && d.aligned df.regs && srcOk d.isV d.isV sf.regs a && cvtOk df sf.isFloat sat r
  | .cvtpk h d a b c df p sat r =>
    h.ok true && h.traps true b.isSome true && d.isDst && srcOk d.isV d.isV 1 a && srcOk d.isV d.isV 1 c &&
    p.toNat < df.packPositions && cvtOk df true sat r &&
    (match b with
     | some o => srcOk d.isV d.isV 1 o && !(df == .t6 && p == 2)
     | none => df == .t6 && p == 2)
  | .cvtunpk h d a dm sf e _ =>
    h.ok true && h.traps true false false && d.isDst && srcOk d.isV d.isV 1 a && e.toNat < sf.unpackCount &&
    (dm == .f32 || (e.toNat % 2 == 0 && e.toNat + 1 < sf.unpackCount))
  | .mxsc x f =>
    x.ok [.f32] true && (f == .fp4 || f == .e4m3 || f == .e5m2 || f == .t8 || f == .t6 || f == .i8)
  | .ldG x => x.ok loadTys [.plain, .acq, .sc] false
  | .stG x => x.ok storeTys [.plain, .rel, .sc] true
  | .ldX x => x.ok loadTys [.plain, .acq] false && (x.sc == .fib || x.sc == .grp) && x.cpol == .normal
  | .stX x => x.ok storeTys [.plain, .rel] true && (x.sc == .fib || x.sc == .grp) && x.cpol == .normal
  | .pf h _ b o => touchOk h b o
  | .dsc h b o => touchOk h b o
  | .fence h o _ => h.bare && o != .plain
  | .prom h sc d a => h.ok false && h.traps true false false && sc != .fib && d.isScalarDst && a.isScalar
  | .lease h b o e => touchOk h b o && e.toNat ≤ 8
  | .cadd h t d b o => contribOk h [.f32, .bf16x2, .i32, .i64] t d b o
  | .cmin h t d b o => contribOk h [.i32] t d b o
  | .cmax h t d b o => contribOk h [.i32] t d b o
  | .atomAdd x => x.ok intTys false
  | .atomSub x => x.ok intTys false
  | .atomMin x => x.ok intTys false
  | .atomMax x => x.ok intTys false
  | .atomAnd x => x.ok bitTys false
  | .atomOr x => x.ok bitTys false
  | .atomXor x => x.ok bitTys false
  | .atomXchg x => x.ok bitTys false
  | .atomCas x c => x.ok bitTys true && srcOk x.d.isV x.d.isV x.t.regs c
  | .atomInc x => x.ok [.n32] false
  | .atomDec x => x.ok [.n32] false
  | .atomFadd x => x.ok [.f32, .bf16x2] false
  | .copy h _ _ _ a b c d => h.ok true && h.traps true true true && a.isScalar && b.isScalar && c.isScalar && d.isScalar
  | .gath h _ a b c => h.ok true && h.traps true true true && a.isScalar && b.isV && b.aligned 2 && c.isScalar
  | .scat h _ a b c => h.ok true && h.traps true true true && a.isScalar && b.isV && b.aligned 2 && c.isScalar
  | .wait h _ n => h.ok false && h.traps n.isReg false false && scalarOrImm n
  | .waitp h _ t => h.ok false && h.traps t.isReg false false && scalarOrImm t
  | .coll h t sc k op a b c =>
    h.ok true && h.traps true true true && (sc == .mod || sc == .dom || sc == .sys) && a.isScalar && b.isScalar && c.isScalar &&
    (match k with
     | .ar => (op == .add && [.f32, .bf16x2].contains t) || intTys.contains t
     | _ => t == .b32 && op == .add)
  | .mwld h _ a => h.ok false && h.traps true false false && a.isScalar
  | .mpass h _ a => h.ok true && h.traps true false false && a.isScalar
  | .mtab h _ a => h.ok true && h.traps true false false && a.isScalar
  | .accld h d a col cnt | .accst h d a col cnt =>
    h.ok true && h.traps true false false && a.isScalar && col.toNat + cnt.toNat + 1 ≤ 256 &&
    (match d with | .v n => n.toNat + cnt.toNat ≤ 255 | _ => false)
  | .acczero h a _ => h.ok true && h.traps true false false && a.isScalar
  | .mstat h d _ => h.bare && d.isScalarDst
  | .bar h _ _ n => h.bare && n.toNat ≤ 32
  | .barArr h _ d _ n => h.bare && d.isScalarDst && n.toNat ≤ 32
  | .barWt h _ a _ => h.ok false && h.traps true false false && a.isScalar
  | .mbarInit h sc a b => h.ok false && h.traps true true false && sc != .fib && a.isScalar && b.isScalar
  | .mbarArr h sc d a => h.ok false && h.traps true false false && sc != .fib && d.isScalarDst && a.isScalar
  | .mbarWt h sc a b => h.ok false && h.traps true true false && sc != .fib && a.isScalar && b.isScalar
  | .qpush x => x.ok [.plain, .rel] true
  | .qpop x => x.ok [.plain, .acq] false
  | .dqPush x => x.ok [.plain, .rel] true
  | .dqPop x => x.ok [.plain, .acq] false
  | .dqSteal x => x.ok [.plain, .acq] false
  | .depDec x => x.ok [.plain, .acq, .rel, .acqrel] false && x.blk.isNone
  | .launch h d a b => h.ok true && h.traps true true false && d.isScalarDst && a.isScalar && b.isScalar
  | .graphTrig h d a b c => h.ok true && h.traps true true true && d.isScalarDst && a.isScalar && b.isScalar && c.isScalar
  | .instructionFetchReturn p _ => p.ok
  | .fibreQuantumExpiry c b => c < 1024 && b < 4
  | .starvationOverride c b => c < 1024 && b < 4
  | .dividedHalfRotate p => p.ok
  | .spanLengthLimit p => p.ok
  | .spanCommitRefused p => p.ok
  | .gateOpen p => p.ok
  | .residentResume p _ => p.ok
  | .spinNudge p => p.ok
  | .parkedClockNudge c => c < 1024
  | .parkProbe p => p.ok
  | .peerPacket src pa _ _ => src < 512 && pa < 2 ^ 47
  | .eventPost p => p.ok
  | .spanCompare p => p.ok
  | .copyCommandExecute c _ => c < 1024
  | .gatherCommandExecute c _ => c < 1024
  | .matrixStep q => q < 256
  | .matrixAgePromote q e => q < 256 && e < 16
  | .weightPlaneLoad q => q < 256
  | .taskTake c => c < 4096
  | .graphTrigger n p => n < 1024 && p.toNat ≤ 127
  | .graphRefusedRead n => n < 1024
  | .graphRecordPlace n _ => n < 1024
  | .reload c | .freeze c | .thaw c | .kill c | .retire c | .dump c => c < 4096
  | .sliceExpiry c => c < 4096
  | .gangStartPacket _ m => m < 512
  | .lighthouseFire c => c < 4096
  | .walkComplete d w => d < 8 && w < 64
  | .walkDispatch d => d < 8
  | .linkEnable n | .linkDisable n | .linkTrainingTimeout n => n < 36
  | .linkTrained n w m => n < 36 && (w == 2 || w == 4 || w == 8) && m < 512
  | .linkLaneFail n u => n < 36 && u < 8
  | .flitReceive n _ _ m pa => n < 36 && m < 512 && pa < 2 ^ 47
  | .flitAck n _ | .flitResendTimeout n | .stopFlit n | .resumeFlit n | .linkStatusRead n => n < 36
  | .timerFlit n _ => n < 36
  | .hostMemoryAccess (.read pa n) => pa + n ≤ 2 ^ 40
  | .hostMemoryAccess (.write pa b) => pa + b.length ≤ 2 ^ 40
  | .halt c p | .resume c p | .step c p | .haltAtRegionEdge c p => c < 4096 && p.ok
  | .haltEveryFibre c | .resumeEveryFibre c | .sampleTick c => c < 4096
  | .frequencyStep d f => d < 8 && 12 ≤ f && f ≤ 33
  | .pllRelockDone d => d < 8
  | .registerWrite _ pa n _ => (n == 4 || n == 8) && pa < 2 ^ 47
  | .resultWriteback _ | .homeLeaseRequest _ | .leaseReply _ | .ownershipRequest _ | .ownershipGrant _ | .recall _
  | .recallAnswer _ | .untrackedAccess _ | .parkProbeReply _ | .peerReply _ _ | .partialArrival _ | .homeAtomic _
  | .atomicReply _ | .promVictim _ | .homeMbarOp _ | .homeQueueOp _ | .homeDepDec _ | .depRecordArrival _ | .groupPlace _
  | .drainTimeout _ | .groupSaveWrite _ | .groupRetire _ | .engineCommandComplete _ | .alloc | .load
  | .contextResultRead | .dumpStart | .dumpWritten | .gangStartWrite _ | .gangSliceStart _ | .gangAbandon _
  | .heartbeatWrite _ | .heartbeatMiss | .controlCoreException | .peerReplyTimeout _ | .collStart _ _ | .collComplete _
  | .replayDivergence _ | .faultInjectArm _ | .faultInjectDoneClear | .coldReset | .firmwareImageReceive _ _
  | .warmRebootRequest _ | .quoteRequest _ | .lifecycleTransition _ _ | .portReply _ _ => true

/-- Is the row an instruction word (R53), as opposed to an event? Its major opcode; 0 for an event. -/
def Instr.major : Instr → Nat
  | .nop .. => 0x01 | .br .. => 0x02 | .brc .. => 0x03 | .jmp .. => 0x04 | .call .. => 0x05 | .calli .. => 0x06
  | .ret .. => 0x07 | .join .. => 0x08 | .exit .. => 0x09 | .yield .. => 0x0A | .spawn .. => 0x0B | .fbar .. => 0x0C
  | .wgive .. => 0x0D | .wclaim .. => 0x0E | .park .. => 0x0F
  | .rgnEnter .. => 0x10 | .rgnLeave .. => 0x11 | .trap .. => 0x12 | .tret .. => 0x13 | .brk .. => 0x14 | .fltrd .. => 0x15
  | .fltset .. => 0x16 | .ldsys .. => 0x17 | .stsys .. => 0x18 | .tlbi .. => 0x19 | .ldsp .. => 0x1A | .stsp .. => 0x1B
  | .mark .. => 0x1C | .chk .. => 0x1D | .pilot .. => 0x1E
  | .add .. => 0x20 | .sub .. => 0x21 | .mul .. => 0x22 | .mulh .. => 0x23 | .mad .. => 0x24 | .div .. => 0x25
  | .rem .. => 0x26 | .neg .. => 0x27 | .abs .. => 0x28 | .min .. => 0x29 | .max .. => 0x2A | .sad .. => 0x2B
  | .addc .. => 0x2C | .subb .. => 0x2D | .lea .. => 0x2E | .dot4 .. => 0x2F
  | .and .. => 0x30 | .or .. => 0x31 | .xor .. => 0x32 | .andn .. => 0x33 | .not .. => 0x34 | .shl .. => 0x35
  | .shr .. => 0x36 | .sra .. => 0x37 | .rol .. => 0x38 | .bfx .. => 0x39 | .bfi .. => 0x3A | .popc .. => 0x3B
  | .clz .. => 0x3C | .ctz .. => 0x3D | .brev .. => 0x3E | .prmt .. => 0x3F
  | .cmp .. => 0x40 | .sel .. => 0x41 | .mov .. => 0x42 | .pack .. => 0x43 | .unpack .. => 0x44 | .rdl .. => 0x45
  | .bcast .. => 0x46 | .vred .. => 0x47 | .ballot .. => 0x48 | .shfl .. => 0x49 | .vote .. => 0x4A | .actn .. => 0x4B
  | .fadd .. => 0x50 | .fsub .. => 0x51 | .fmul .. => 0x52 | .fma .. => 0x53 | .fmin .. => 0x54 | .fmax .. => 0x55
  | .fcmp .. => 0x56 | .frnd .. => 0x57 | .fclass .. => 0x58 | .fdot2 .. => 0x59 | .fscl .. => 0x5A | .fexpo .. => 0x5B
  | .rcp .. => 0x60 | .rsq .. => 0x61 | .sqrt .. => 0x62 | .exp2 .. => 0x63 | .log2 .. => 0x64 | .sinpi .. => 0x65
  | .cospi .. => 0x66 | .tanh .. => 0x67 | .fdiv .. => 0x68
  | .cvt .. => 0x70 | .cvtpk .. => 0x71 | .cvtunpk .. => 0x72 | .mxsc .. => 0x73
  | .ldG .. => 0x80 | .stG .. => 0x81 | .ldX .. => 0x82 | .stX .. => 0x83 | .pf .. => 0x84 | .dsc .. => 0x85
  | .fence .. => 0x86 | .prom .. => 0x87 | .lease .. => 0x88 | .cadd .. => 0x89 | .cmin .. => 0x8A | .cmax .. => 0x8B
  | .atomAdd .. => 0x90 | .atomSub .. => 0x91 | .atomMin .. => 0x92 | .atomMax .. => 0x93 | .atomAnd .. => 0x94
  | .atomOr .. => 0x95 | .atomXor .. => 0x96 | .atomXchg .. => 0x97 | .atomCas .. => 0x98 | .atomInc .. => 0x99
  | .atomDec .. => 0x9A | .atomFadd .. => 0x9B
  | .copy .. => 0xA0 | .gath .. => 0xA1 | .scat .. => 0xA2 | .wait .. => 0xA3 | .waitp .. => 0xA4 | .coll .. => 0xA5
  | .mwld .. => 0xB0 | .mpass .. => 0xB1 | .mtab .. => 0xB2 | .accld .. => 0xB3 | .accst .. => 0xB4 | .acczero .. => 0xB5
  | .mstat .. => 0xB6
  | .bar .. => 0xC0 | .barArr .. => 0xC1 | .barWt .. => 0xC2 | .mbarInit .. => 0xC3 | .mbarArr .. => 0xC4 | .mbarWt .. => 0xC5
  | .qpush .. => 0xC6 | .qpop .. => 0xC7 | .dqPush .. => 0xC8 | .dqPop .. => 0xC9 | .dqSteal .. => 0xCA | .depDec .. => 0xCB
  | .launch .. => 0xCC | .graphTrig .. => 0xCD
  | _ => 0

/-- The row is an instruction word. -/
def Instr.isWord (i : Instr) : Bool := i.major != 0

end Sys2Proof
end

