-- ==== Sys2Proof/Machine/Num.lean ====
section
/-! DEFINITION. Number formats, rounding, NaNs and conversions (R63 to R88, R140, R141). -/
namespace Sys2Proof.Machine

/-! ### Integers (R63, R64) -/

/-- Two's complement reading of the low `w` bits. -/
def sInt (w : Nat) (x : Nat) : Int :=
  let y := x % 2 ^ w
  if y < 2 ^ (w - 1) then (y : Int) else (y : Int) - 2 ^ w

/-- The `w` bits of an exact integer, modulo 2^w. -/
def wrapI (w : Nat) (x : Int) : Nat := (x % (2 ^ w : Int)).toNat

def clampI (lo hi x : Int) : Int := if x < lo then lo else if hi < x then hi else x

/-- Element `j` of width `w`. -/
def elem (w j x : Nat) : Nat := x / 2 ^ (w * j) % 2 ^ w

/-- Pack elements, element 0 lowest. -/
def ofElems (w : Nat) (l : List Nat) : Nat := l.foldr (fun x acc => x % 2 ^ w + 2 ^ w * acc) 0

def popCount (w x : Nat) : Nat := (List.range w).foldl (fun acc i => if x.testBit i then acc + 1 else acc) 0
/-- Bits needed to write x: one more than the place of its highest one. -/
def bitLen (x : Nat) : Nat := if x = 0 then 0 else Nat.log2 x + 1

/-! ### Floating-point values -/

/-- A decoded value (R79): (-1)^neg m 2^e, an infinity, or a quiet NaN by its FP32 code (R73, R74). -/
inductive Val where
  | fin (neg : Bool) (m : Nat) (e : Int)
  | inf (neg : Bool)
  | nan (code : Nat)
  deriving DecidableEq, Repr

/-- A binary format: widths of exponent and fraction (R65, R84). -/
structure FFmt where
  eb : Nat
  fb : Nat
  deriving DecidableEq, Repr

def fp32 : FFmt := { eb := 8, fb := 23 }
def fp16 : FFmt := { eb := 5, fb := 10 }
def bfl16 : FFmt := { eb := 8, fb := 7 }
def fe5m2 : FFmt := { eb := 5, fb := 2 }

def FFmt.bias (f : FFmt) : Int := 2 ^ (f.eb - 1) - 1
def FFmt.expAll (f : FFmt) : Nat := 2 ^ f.eb - 1
/-- The code of +infinity; finite magnitudes are the codes below it. -/
def FFmt.infCode (f : FFmt) : Nat := f.expAll * 2 ^ f.fb
def FFmt.signBit (f : FFmt) : Nat := 2 ^ (f.eb + f.fb)
/-- Exponent of the smallest subnormal. -/
def FFmt.emin (f : FFmt) : Int := 1 - f.bias - f.fb

/-- Decode a code of a binary format; a NaN widens to FP32 with its quiet bit set (R74). -/
def decF (f : FFmt) (x : Nat) : Val :=
  let neg := x / f.signBit % 2 == 1
  let ex := x / 2 ^ f.fb % 2 ^ f.eb
  let fr := x % 2 ^ f.fb
  if ex = f.expAll then
    if fr = 0 then .inf neg
    else .nan ((if neg then 0x80000000 else 0) + 0x7F800000 + ((fr * 2 ^ (23 - f.fb)) ||| 0x400000))
  else if ex = 0 then .fin neg fr f.emin
  else .fin neg (2 ^ f.fb + fr) (f.emin + (ex - 1))

/-- What is done to a magnitude: nearest even, down, up. -/
inductive MagRnd where
  | near | down | up
  deriving DecidableEq, Repr

def magRnd (r : Rnd) (neg : Bool) : MagRnd :=
  match r with
  | .rn => .near
  | .rz => .down
  | .ru => if neg then .down else .up
  | .rd => if neg then .up else .down

/-- `m / 2^k` rounded to an integer. -/
def shiftRound (mr : MagRnd) (m k : Nat) : Nat :=
  let k := min k (bitLen m + 2)
  let q := m / 2 ^ k
  let r := m % 2 ^ k
  match mr with
  | .down => q
  | .up => if r = 0 then q else q + 1
  | .near =>
    if 2 * r < 2 ^ k then q else if 2 ^ k < 2 * r then q + 1 else if k = 0 then q else if q % 2 = 0 then q else q + 1

/-- The code of the magnitude m 2^e rounded once, before overflow (R67). -/
def magCode (f : FFmt) (mr : MagRnd) (m : Nat) (e : Int) : Nat :=
  if m = 0 then 0
  else
    let q := max (e + bitLen m - 1 - f.fb) f.emin
    let n := if q ≤ e then m * 2 ^ (e - q).toNat else shiftRound mr m (q - e).toNat
    if n < 2 ^ f.fb then n else ((q - f.emin).toNat + 1) * 2 ^ f.fb + (n - 2 ^ f.fb)

/-- Round an exact finite value to a format (R67). -/
def roundF (f : FFmt) (r : Rnd) (neg : Bool) (m : Nat) (e : Int) : Nat :=
  let mr := magRnd r neg
  let c := magCode f mr m e
  let c := if c < f.infCode then c else if mr = .down then f.infCode - 1 else f.infCode
  c + (if neg then f.signBit else 0)

/-- Narrow a NaN (R74). -/
def nanF (f : FFmt) (code : Nat) : Nat :=
  (if code / 0x80000000 % 2 = 1 then f.signBit else 0) + f.infCode +
    ((code % 0x800000 / 2 ^ (23 - f.fb)) ||| 2 ^ (f.fb - 1))

def encF (f : FFmt) (r : Rnd) : Val → Nat
  | .fin neg m e => roundF f r neg m e
  | .inf neg => f.infCode + (if neg then f.signBit else 0)
  | .nan c => nanF f c

def Val.isNan : Val → Bool
  | .nan _ => true
  | _ => false
def Val.isZero : Val → Bool
  | .fin _ 0 _ => true
  | _ => false
def Val.neg : Val → Bool
  | .fin s _ _ => s
  | .inf s => s
  | .nan c => c / 0x80000000 % 2 == 1
def Val.negate : Val → Val
  | .fin s m e => .fin (!s) m e
  | .inf s => .inf (!s)
  | .nan c => .nan c

/-- The hash of a program counter (R70). -/
def pcHash (pc : DWord) : Nat :=
  let q := pc.toNat / 4 % 2 ^ 58
  (q % 2 ^ 17) ^^^ (q / 2 ^ 17 % 2 ^ 17) ^^^ (q / 2 ^ 34 % 2 ^ 17) ^^^ (q / 2 ^ 51)

/-- A generated NaN (R69, R71). -/
def genNan (f : FFmt) (lane : Nat) (pc : DWord) : Nat :=
  if f = fp32 then 0x7FC00000 + lane % 32 * 2 ^ 17 + pcHash pc
  else f.infCode + 2 ^ (f.fb - 1) + lane % 32 * 2 ^ (f.fb - 6)

/-- The first NaN among the operands (R73). -/
def firstNan (l : List Val) : Option Val := l.find? Val.isNan

/-- The exact signed integer of a finite value at exponent `e0`, which is not above its own. -/
def scaled (e0 : Int) : Val → Int
  | .fin neg m e => (if neg then -1 else 1) * (m * 2 ^ (e - e0).toNat)
  | _ => 0

def expOf : Val → Int
  | .fin _ 0 _ => 0
  | .fin _ _ e => e
  | _ => 0

/-- The exact sum of finite values; the sign of an exact zero by R68. -/
def sumFin (r : Rnd) (l : List Val) : Val :=
  let e0 := l.foldl (fun a v => if v.isZero then a else min a (expOf v)) 10000
  let t : Int := l.foldl (fun a v => if v.isZero then a else a + scaled e0 v) 0
  if t = 0 then
    (if l.all Val.neg then .fin true 0 0 else if l.any Val.neg && r = .rd then .fin true 0 0 else .fin false 0 0)
  else .fin (t < 0) t.natAbs e0

/-- A sum of values none of which is a NaN; nothing where infinities of both signs meet. -/
def sumVal (r : Rnd) (l : List Val) : Option Val :=
  let p := l.contains (.inf false)
  let n := l.contains (.inf true)
  if p && n then none else if p then some (.inf false) else if n then some (.inf true) else some (sumFin r l)

/-- The exact product of values none of which is a NaN; nothing for 0 × infinity. -/
def mulVal (a b : Val) : Option Val :=
  match a, b with
  | .fin s m e, .fin t n g => some (.fin (s != t) (m * n) (e + g))
  | .inf s, .fin t n _ => if n = 0 then none else some (.inf (s != t))
  | .fin s m _, .inf t => if m = 0 then none else some (.inf (s != t))
  | .inf s, .inf t => some (.inf (s != t))
  | _, _ => none

/-- Result bits of an operation and whether it is invalid (R72, R128). -/
def finish (f : FFmt) (r : Rnd) (lane : Nat) (pc : DWord) (ops : List Val) (x : Option Val) : Nat × Bool :=
  match firstNan ops with
  | some v => (encF f r v, false)
  | none =>
    match x with
    | some v => (encF f r v, false)
    | none => (genNan f lane pc, true)

/-- Compare two finite or infinite values: -1, 0, 1. -/
def cmpVal (a b : Val) : Int :=
  let rank : Val → Int := fun v => match v with
    | .inf true => -1
    | .inf false => 1
    | _ => 0
  if rank a ≠ rank b then (if rank a < rank b then -1 else 1)
  else if rank a ≠ 0 then 0
  else
    let e0 := min (expOf a) (expOf b)
    let x := scaled e0 a
    let y := scaled e0 b
    if x < y then -1 else if x = y then 0 else 1

/-- Condition codes of R49 on floating-point values (R131). -/
def fcond (c : Cond) (a b : Val) : Bool :=
  let un := a.isNan || b.isNan
  let k := cmpVal a b
  match c with
  | .eq => !un && k == 0
  | .ne => un || k != 0
  | .lt => !un && k < 0
  | .le => !un && k ≤ 0
  | .gt => !un && 0 < k
  | .ge => !un && 0 ≤ k
  | .ord => !un
  | .uno => un
  | .ueq => un || k == 0
  | .ult => un || k < 0
  | .ule => un || k ≤ 0
  | .ugt => un || 0 < k
  | .uge => un || 0 ≤ k
  | .z | .nz => false

/-- Signed integer nearest to a value in the rounding mode, unbounded. -/
def toIntR (r : Rnd) (neg : Bool) (m : Nat) (e : Int) : Int :=
  let n := if 0 ≤ e then m * 2 ^ e.toNat else shiftRound (magRnd r neg) m (-e).toNat
  if neg then -(n : Int) else n

/-! ### Tapered formats, FP4, E8M0, FP8 (R75 to R84) -/

/-- Length of the run of bits equal to the bit at `top`, counted downward. -/
def runLen (mag : Nat) (b : Bool) : Nat → Nat
  | 0 => 0
  | t + 1 => if mag.testBit t == b then 1 + runLen mag b t else 0

/-- Decode a tapered code of magnitude width `m` (R75). -/
def decTaper (m code : Nat) : Val :=
  let s := code.testBit m
  let mag := code % 2 ^ m
  if mag = 0 then (if s then .nan 0x7FC00000 else .fin false 0 0)
  else
    let b := mag.testBit (m - 1)
    let k := runLen mag b m
    let regime : Int := if b then (k : Int) - 1 else -(k : Int)
    let n := m - k - 1
    let rest := mag % 2 ^ n
    let e : Int := if n = 0 then 0 else if rest.testBit (n - 1) then 1 else 0
    let w := n - 1
    let f := rest % 2 ^ w
    .fin s (2 ^ w + f) (2 * regime + e - w)

/-- |x - y| as an integer at a common exponent low enough for every code of these formats. -/
def gap (e0 : Int) (x y : Val) : Nat := ((scaled e0 x).natAbs : Int) - (scaled e0 y).natAbs |>.natAbs

/-- The magnitude code nearest to a magnitude among `codes`, a tie to the even code (R78, R81). -/
def nearestCode (dec : Nat → Val) (x : Val) : List Nat → Nat → Nat
  | [], best => best
  | c :: t, best =>
    let e0 := min (expOf x) (-200)
    let g := gap e0 x (dec c)
    let h := gap e0 x (dec best)
    nearestCode dec x t (if g < h then c else if g = h && c % 2 = 0 then c else best)

/-- Encode into T8 or T6 (R78). -/
def encTaper (m : Nat) : Val → Nat
  | .nan _ => 2 ^ m
  | .inf neg => 2 ^ m - 1 + (if neg then 2 ^ m else 0)
  | .fin neg x e =>
    if x = 0 then 0
    else
      -- a magnitude above 2^13 or below 2^-13 gives the largest or the smallest
      let c :=
        if 20 < e + bitLen x then 2 ^ m - 1
        else if e + bitLen x < -40 then 1
        else nearestCode (decTaper m) (.fin false x e) ((List.range (2 ^ m)).drop 2) 1
      c + (if neg then 2 ^ m else 0)

/-- FP4 magnitudes (R80), in halves. -/
def fp4Mag (c : Nat) : Nat := ([0, 1, 2, 3, 4, 6, 8, 12] : List Nat).getD (c % 8) 0

/-- Decode FP4 with its extra value, a BF16 code (R80). -/
def decFp4 (extra : Nat) (c : Nat) : Val :=
  if c % 16 = 8 then decF bfl16 extra else .fin (c.testBit 3) (fp4Mag c) (-1)

/-- Encode into FP4 (R81). -/
def encFp4 : Val → Nat
  | .nan _ => 8
  | .inf neg => if neg then 15 else 7
  | .fin neg x e =>
    let c :=
      if x = 0 then 0
      else if 20 < e + bitLen x then 7
      else if e + bitLen x < -40 then 0
      else nearestCode (fun k => .fin false (fp4Mag k) (-1)) (.fin false x e) [1, 2, 3, 4, 5, 6, 7] 0
    if c = 0 then 0 else c + (if neg then 8 else 0)

/-- Decode E8M0 (R82). -/
def decE8 (c : Nat) : Val := if c % 256 = 255 then .nan 0x7FC00000 else .fin false 1 ((c % 256 : Nat) - 127)

/-- floor(log2 |x|) of a finite non-zero value. -/
def ilog (m : Nat) (e : Int) : Int := e + bitLen m - 1

/-- Encode into E8M0 (R141). -/
def encE8 : Val → Nat
  | .nan _ => 0xFF
  | .inf _ => 0xFE
  | .fin _ m e => if m = 0 then 0 else (clampI 0 254 (ilog m e + 127)).toNat

/-- Decode E4M3 (R84): bias 7, no infinity, NaN where all seven low bits are ones. -/
def decE4 (c : Nat) : Val :=
  let neg := c.testBit 7
  let ex := c / 8 % 16
  let fr := c % 8
  if ex = 15 ∧ fr = 7 then .nan ((if neg then 0x80000000 else 0) + 0x7FF00000)
  else if ex = 0 then .fin neg fr (-9)
  else .fin neg (8 + fr) ((ex : Int) - 10)

/-- Encode into E4M3 (R84). -/
def encE4 (r : Rnd) : Val → Nat
  | .nan c => if c / 0x80000000 % 2 = 1 then 0xFF else 0x7F
  | .inf neg => if neg then 0xFE else 0x7E
  | .fin neg m e =>
    let c := magCode { eb := 4, fb := 3 } (magRnd r neg) m e
    min c 0x7E + (if neg then 0x80 else 0)

/-- Encode into E5M2 (R84). -/
def encE5 (r : Rnd) : Val → Nat
  | .nan c => if c / 0x80000000 % 2 = 1 then 0xFE else 0x7E
  | v => encF fe5m2 r v

/-! ### Conversion formats (R140, R141) -/

/-- Width of a format's value (R140). -/
def fmtWidth : Fmt → Nat
  | .f32 | .i32 | .n32 => 32
  | .f16 | .bf16 | .i16 | .n16 => 16
  | .t8 | .e8m0 | .e4m3 | .e5m2 | .i8 | .n8 => 8
  | .t6 => 6
  | .fp4 | .i4 => 4
  | .i64 | .n64 => 64

def fmtSigned : Fmt → Bool
  | .i4 | .i8 | .i16 | .i32 | .i64 => true
  | _ => false

/-- Decode a value exactly (R79, R141). -/
def decFmt (extra : Nat) (f : Fmt) (x : Nat) : Val :=
  let w := fmtWidth f
  match f with
  | .f32 => decF fp32 (x % 2 ^ 32)
  | .f16 => decF fp16 (x % 2 ^ 16)
  | .bf16 => decF bfl16 (x % 2 ^ 16)
  | .t8 => decTaper 7 (x % 256)
  | .t6 => decTaper 5 (x % 64)
  | .fp4 => decFp4 extra x
  | .e8m0 => decE8 x
  | .e4m3 => decE4 (x % 256)
  | .e5m2 => decF fe5m2 (x % 256)
  | _ => if fmtSigned f then .fin (sInt w x < 0) (sInt w x).natAbs 0 else .fin false (x % 2 ^ w) 0

/-- Limits of an integer format. -/
def intLo (f : Fmt) : Int := if fmtSigned f then -(2 ^ (fmtWidth f - 1)) else 0
def intHi (f : Fmt) : Int := if fmtSigned f then 2 ^ (fmtWidth f - 1) - 1 else 2 ^ fmtWidth f - 1

/-- `.sat` on a binary format: a finite operand never becomes an infinity (R141). -/
def encSat (f : FFmt) (r : Rnd) (sat : Bool) (v : Val) : Nat :=
  match v with
  | .fin neg m e =>
    let c := roundF f r neg m e
    if sat && c % f.signBit = f.infCode then f.infCode - 1 + (if neg then f.signBit else 0) else c
  | .inf neg => f.infCode + (if neg then f.signBit else 0)
  | .nan c => if f = fe5m2 then (if c / 0x80000000 % 2 = 1 then 0xFE else 0x7E) else nanF f c

/-- Encode a decoded value (R141): the `w` bits of the destination format. -/
def encFmt (f : Fmt) (srcFloat sat : Bool) (r : Rnd) (v : Val) : Nat :=
  match f with
  | .f32 => encSat fp32 r sat v
  | .f16 => encSat fp16 r sat v
  | .bf16 => encSat bfl16 r sat v
  | .e5m2 => encSat fe5m2 r sat v
  | .t8 => encTaper 7 v
  | .t6 => encTaper 5 v
  | .fp4 => encFp4 v
  | .e8m0 => encE8 v
  | .e4m3 => encE4 r v
  | _ =>
    let w := fmtWidth f
    match v with
    | .nan _ => 0
    | .inf neg => wrapI w (if neg then intLo f else intHi f)
    | .fin neg m e =>
      let n := toIntR r neg m (max (min e 100) (-400))
      wrapI w (if srcFloat || sat then clampI (intLo f) (intHi f) n else n)

/-- A value of a format quieted, its other bits unchanged: a conversion from a format to itself (R142). -/
def quiet (f : Fmt) (x : Nat) : Nat :=
  let q (g : FFmt) : Nat := if x % g.signBit > g.infCode then x ||| 2 ^ (g.fb - 1) else x
  match f with
  | .f32 => q fp32
  | .f16 => q fp16
  | .bf16 => q bfl16
  | .e5m2 => q fe5m2
  | _ => x

/-- `cvt` of one value (R142): the destination's `w` bits. From a format to itself the value is unchanged by R142, also the FP4
code 0b1000 whose extra value is not a NaN, which R81 says no conversion yields (log entry 53, DEDUCED). -/
def convert (extra : Nat) (df sf : Fmt) (sat : Bool) (r : Rnd) (x : Nat) : Nat :=
  let x := x % 2 ^ fmtWidth sf
  if df = sf then quiet sf x else encFmt df sf.isFloat sat r (decFmt extra sf x)

/-- A value of a format as a lane register or pair holds it (R140): small signed formats extend to 32 bits. -/
def widenFmt (f : Fmt) (x : Nat) : Nat :=
  match f with
  | .i4 | .i8 | .i16 => wrapI 32 (sInt (fmtWidth f) x)
  | _ => x

/-- The same in a scalar register, all 64 bits. -/
def widenFmtS (f : Fmt) (x : Nat) : Nat :=
  match f with
  | .i4 | .i8 | .i16 | .i32 => wrapI 64 (sInt (fmtWidth f) x)
  | _ => x

end Sys2Proof.Machine
end

