-- ==== Sys2Proof/Machine/Elem.lean ====
section
/-! DEFINITION. Division, roots and the special functions (R87, R88, R137 to R139), by fixed-point enclosures of 400 bits. -/
namespace Sys2Proof.Machine

/-- Fraction bits of the fixed-point numbers of this file. -/
def fxK : Nat := 400
def fxOne : Nat := 2 ^ 400
/-- π × 2^400, truncated. -/
def fxPi : Nat := 0x3243f6a8885a308d313198a2e03707344a4093822299f31d0082efa98ec4e6c89452821e638d01377be5466cf34e90c6cc0ac
/-- ln 2 × 2^400, truncated. -/
def fxLn2 : Nat := 0xb17217f7d1cf79abc9e3b39803f2f6af40f343267298b62d8a0d175b8baafa2be7b876206debac98559552fb4afa1b10ed2e

/-- A positive result before rounding: `m 2^e` exactly, or (`exact` false) something strictly between it and `(m + 1) 2^e`. -/
structure Encl where
  exact : Bool
  m : Nat
  e : Int
  deriving DecidableEq, Repr

/-- The enclosure as one exact number that rounds as every number in it does, when `m` has more bits than the format. -/
def Encl.jam (x : Encl) : Nat × Int := (2 * x.m + (if x.exact then 0 else 1), x.e - 1)

/-- floor(√n), bit by bit. -/
def isqrt (n : Nat) : Nat :=
  (List.range (bitLen n / 2 + 1)).reverse.foldl (fun r i => if (r + 2 ^ i) * (r + 2 ^ i) ≤ n then r + 2 ^ i else r) 0

/-- a / b, for a and b not 0. -/
def divEncl (a : Nat) (ea : Int) (b : Nat) (eb : Int) : Encl :=
  let k := bitLen b + 80
  let q := a * 2 ^ k / b
  { exact := q * b == a * 2 ^ k, m := q, e := ea - eb - k }

/-- √(m 2^e), m not 0. -/
def sqrtEncl (m : Nat) (e : Int) : Encl :=
  let odd := e % 2 ≠ 0
  let m1 := if odd then 2 * m else m
  let e1 := if odd then e - 1 else e
  let n := m1 * 2 ^ 200
  let q := isqrt n
  { exact := q * q == n, m := q, e := e1 / 2 - 100 }

/-- 1/√(m 2^e), m not 0. -/
def rsqEncl (m : Nat) (e : Int) : Encl :=
  let odd := e % 2 ≠ 0
  let m1 := if odd then 2 * m else m
  let e1 := if odd then e - 1 else e
  let k := bitLen m1 + 100
  let n := 2 ^ (2 * k) / m1
  let q := isqrt n
  { exact := q * q * m1 == 2 ^ (2 * k), m := q, e := -(e1 / 2) - k }

/-- Σ r^k / k! in fixed point, 0 ≤ r < 1. -/
def fxExp (r : Nat) : Nat :=
  ((List.range 120).foldl (fun (st : Nat × Nat) k => (st.1 + st.2, st.2 * r / fxOne / (k + 1))) (0, fxOne)).1

/-- m 2^e in fixed point, cut to `fxK` fraction bits. -/
def fxOf (m : Nat) (e : Int) : Nat :=
  let s := e + fxK
  if 0 ≤ s then m * 2 ^ s.toNat else m / 2 ^ (min (-s).toNat (bitLen m))

/-- 2^x. -/
def exp2Encl (neg : Bool) (m : Nat) (e : Int) : Encl :=
  let fx := fxOf m e
  let n := fx / fxOne
  let f := fx % fxOne
  if f = 0 then { exact := true, m := 1, e := if neg then -(n : Int) else n }
  else if neg then { exact := false, m := fxExp ((fxOne - f) * fxLn2 / fxOne), e := -(n : Int) - 1 - fxK }
  else { exact := false, m := fxExp (f * fxLn2 / fxOne), e := (n : Int) - fxK }

/-- ln of a fixed-point number in [1, 2). -/
def fxLn (y : Nat) : Nat :=
  let z := (y - fxOne) * fxOne / (y + fxOne)
  let z2 := z * z / fxOne
  2 * ((List.range 140).foldl (fun (st : Nat × Nat) k => (st.1 + st.2 / (2 * k + 1), st.2 * z2 / fxOne)) (0, z)).1

/-- log2 of m 2^e, m not 0: sign and magnitude. Not exact unless m 2^e is a power of 2. -/
def log2Encl (m : Nat) (e : Int) : Bool × Encl :=
  let n := ilog m e
  let y := m * 2 ^ (fxK + 1 - bitLen m)
  if y = fxOne then (n < 0, { exact := true, m := n.natAbs, e := 0 })
  else
    let fr := fxLn y * fxOne / fxLn2
    let t : Int := n * fxOne + fr
    if 0 ≤ t then (false, { exact := false, m := t.natAbs, e := -(fxK : Int) })
    else (true, { exact := false, m := t.natAbs - 1, e := -(fxK : Int) })

/-- sin πt / t and cos πt as fixed point from y = (πt)². -/
def fxSinc (y : Nat) : Nat :=
  let s := (List.range 60).foldl
    (fun (st : Int × Int) (k : Nat) => (st.1 + st.2, -(st.2 * y / fxOne / ((2 * k + 2) * (2 * k + 3))))) ((0 : Int), (fxOne : Int))
  s.1.toNat * fxPi / fxOne
def fxCos (y : Nat) : Nat :=
  let s := (List.range 60).foldl
    (fun (st : Int × Int) (k : Nat) => (st.1 + st.2, -(st.2 * y / fxOne / ((2 * k + 1) * (2 * k + 2))))) ((0 : Int), (fxOne : Int))
  min s.1.toNat (fxOne - 1)

/-- sin πt for 0 < t = m 2^e < 1/2. -/
def sinEncl (m : Nat) (e : Int) : Encl :=
  let sq (m : Nat) (e : Int) : Nat :=
    let t := fxOf m e
    t * t / fxOne * fxPi / fxOne * fxPi / fxOne
  -- t at most 1/4: t × (sin πt / t); else cos π(1/2 - t)
  if e + bitLen m ≤ -2 then { exact := false, m := m * fxSinc (sq m e), e := e - fxK }
  else
    let h := 2 ^ ((-1 - e).toNat) - m
    { exact := false, m := fxCos (sq h e), e := -(fxK : Int) }

/-- The place of |x| within a turn of 2: whole half-steps n = floor(2|x|) mod 4, and the numerator of what is left over 2^-e. -/
def halfTurn (m : Nat) (e : Int) : Nat × Nat :=
  if 0 ≤ e then ((2 * m * 2 ^ (min e.toNat 2)) % 4, 0)
  else
    let k := (-e).toNat
    (2 * m / 2 ^ k % 4, 2 * m % 2 ^ k)

/-- sin or cos of π|x|: sign and magnitude, exact 0 or 1 at half-integers. `q`: 0 for sine, 1 for cosine. -/
def trigEncl (q : Nat) (m : Nat) (e : Int) : Bool × Encl :=
  let t := halfTurn m e
  -- cosine is the sine half a step on
  let n := (t.1 + q) % 4
  let neg := 2 ≤ n
  if t.2 = 0 then (neg, { exact := true, m := n % 2, e := 0 })
  else
    -- what is left is t.2 / 2^(k+1) in (0, 1/2)
    let k := (-e).toNat
    if n % 2 = 0 then (neg, sinEncl t.2 (e - 1)) else (neg, sinEncl (2 ^ k - t.2) (e - 1))

/-- tanh |x|. -/
def tanhEncl (m : Nat) (e : Int) : Encl :=
  if e + bitLen m ≤ -60 then { exact := false, m := m * 2 ^ 100 - 1, e := e - 100 }
  else if 7 ≤ e + bitLen m then { exact := false, m := fxOne - 1, e := -(fxK : Int) }
  else
    let y := fxOf m (e + 1)
    let n := y / fxLn2
    let t := fxExp (fxLn2 - y % fxLn2) / 2 ^ (n + 1)
    { exact := false, m := (fxOne - t) * fxOne / (fxOne + t), e := -(fxK : Int) }

/-- Order codes of a binary format as integers. -/
def ordCode (f : FFmt) (c : Nat) : Int := if c / f.signBit % 2 = 1 then -((c % f.signBit : Nat) : Int) else c

/-- The two codes that bracket a signed enclosure, lower first. -/
def bracket (f : FFmt) (neg : Bool) (x : Encl) : Nat × Nat :=
  let j := x.jam
  (roundF f .rd neg j.1 j.2, roundF f .ru neg j.1 j.2)

/-- Round an enclosure: directed modes and the 16-bit formats correctly; FP32 under `.rn` faithfully (R88, R138), which of the
two brackets being an open choice. `up` says whether it is the upper one. -/
def roundEncl (f : FFmt) (r : Rnd) (faithful : Bool) (neg : Bool) (x : Encl) (up : Int → Bool) : Nat :=
  let j := x.jam
  let n := roundF f r neg j.1 j.2
  if faithful && r = .rn && f = fp32 && !x.exact then
    let b := bracket f neg x
    let big (c : Nat) : Bool := c % f.signBit ≥ f.infCode || c % f.signBit = 0
    -- at overflow and below the smallest subnormal, by R67
    if big b.1 || big b.2 then n else if up (ordCode f b.1) then b.2 else b.1
  else n

/-- The special functions of one source (R137), by major opcode. -/
inductive SFun where
  | rcp | rsq | sqrt | exp2 | log2 | sinpi | cospi | tanh
  deriving DecidableEq, Repr

def SFun.code : SFun → Nat
  | .rcp => 0x60 | .rsq => 0x61 | .sqrt => 0x62 | .exp2 => 0x63 | .log2 => 0x64 | .sinpi => 0x65 | .cospi => 0x66 | .tanh => 0x67

/-- An exact code. -/
def exactly (f : FFmt) (neg : Bool) (m : Nat) : Nat := roundF f .rn neg m 0

/-- One special function of one element (R137 to R139, R87, R88): its bits, nothing where it is invalid. NaN operands are taken
before. -/
def sfun (fn : SFun) (f : FFmt) (r : Rnd) (a : Val) : Option Nat :=
  let inf (neg : Bool) : Nat := f.infCode + (if neg then f.signBit else 0)
  let cut (rev : Bool) (x : Int) : Int → Bool := fun lo => decide (Config.faithfulCut fn.code lo ≤ (if rev then -x else x))
  match a with
  | .nan c => some (nanF f c)
  | .inf neg =>
    match fn with
    | .rcp => some (if neg then f.signBit else 0)
    | .rsq => if neg then none else some 0
    | .sqrt => if neg then none else some (inf false)
    | .exp2 => some (if neg then 0 else inf false)
    | .log2 => if neg then none else some (inf false)
    | .sinpi | .cospi => none
    | .tanh => some (exactly f neg 1)
  | .fin neg m e =>
    let x := ordCode f (roundF f .rn neg m e)
    if m = 0 then
      match fn with
      | .rcp | .rsq => some (inf neg)
      | .sqrt | .sinpi | .tanh => some (if neg then f.signBit else 0)
      | .exp2 | .cospi => some (exactly f false 1)
      | .log2 => some (inf true)
    else
      match fn with
      | .rcp => some (roundEncl f r false neg (divEncl 1 0 m e) (fun _ => false))
      | .rsq => if neg then none else some (roundEncl f r true false (rsqEncl m e) (cut true x))
      | .sqrt => if neg then none else some (roundEncl f r false false (sqrtEncl m e) (fun _ => false))
      | .exp2 =>
        -- far outside every format's range the result is only known to be huge or tiny
        if 12 < e + bitLen m then some (roundF f r false 1 (if neg then -3000 else 3000))
        else some (roundEncl f r true false (exp2Encl neg m e) (cut false x))
      | .log2 => if neg then none else some (roundEncl f r true (log2Encl m e).1 (log2Encl m e).2 (cut false x))
      | .sinpi =>
        let t := trigEncl 0 m e
        -- at an integer: +0 for one at least 0, -0 below
        let s := if t.2.exact && t.2.m = 0 then neg else t.1 != neg
        some (roundEncl f r true s t.2 (fun _ => Config.faithfulUp fn.code (roundF f .rn false m e)))
      | .cospi =>
        let t := trigEncl 1 m e
        let s := if t.2.exact && t.2.m = 0 then false else t.1
        some (roundEncl f r true s t.2 (fun _ => Config.faithfulUp fn.code (roundF f .rn false m e)))
      | .tanh =>
        -- odd: the choice is made on the magnitude
        let up : Int → Bool := fun lo =>
          if neg then !(decide (Config.faithfulCut fn.code (-lo - 1) ≤ -x)) else decide (Config.faithfulCut fn.code lo ≤ x)
        some (roundEncl f r true neg (tanhEncl m e) up)

/-- A special function with the NaN rules: result bits, and whether it is invalid. -/
def sfunOp (fn : SFun) (f : FFmt) (r : Rnd) (lane : Nat) (pc : DWord) (a : Nat) : Nat × Bool :=
  match sfun fn f r (decF f a) with
  | some c => (c, false)
  | none => (genNan f lane pc, true)

/-- `fdiv` (R137, R139). -/
def fdivOp (f : FFmt) (r : Rnd) (lane : Nat) (pc : DWord) (a b : Nat) : Nat × Bool :=
  let x := decF f a
  let y := decF f b
  let s := x.neg != y.neg
  let sg := if s then f.signBit else 0
  match firstNan [x, y] with
  | some v => (encF f r v, false)
  | none =>
    match x, y with
    | .inf _, .inf _ => (genNan f lane pc, true)
    | .inf _, _ => (f.infCode + sg, false)
    | _, .inf _ => (sg, false)
    | .fin _ m e, .fin _ n g =>
      if n = 0 then (if m = 0 then (genNan f lane pc, true) else (f.infCode + sg, false))
      else if m = 0 then (sg, false)
      else (roundEncl f r false s (divEncl m e n g) (fun _ => false), false)
    | _, _ => (genNan f lane pc, true)

end Sys2Proof.Machine
end

