-- ==== Sys2Proof/Machine/Flags.lean ====
section
/-! DEFINITION. The machine keeps no flags (R66): what other machines hold in flags is written to registers. Comparisons (R49,
R112), carry and borrow (R103), and the invalid-division case (R100). -/
namespace Sys2Proof.Machine

/-- Condition codes 0 to 5 on exact integers (R49, R112). -/
def icond (c : Cond) (a b : Int) : Bool :=
  match c with
  | .eq => a == b
  | .ne => a != b
  | .lt => a < b
  | .le => a ≤ b
  | .gt => b < a
  | .ge => b ≤ a
  | _ => false

/-- Codes 13 and 14, of `br` and `brc` (R49). -/
def zcond (c : Cond) (x : Nat) : Bool :=
  match c with
  | .z => x == 0
  | .nz => x != 0
  | _ => false

/-- Carry out of a + b + c[0] at width w (R103). -/
def carryOut (w a b c : Nat) : Nat := if a + b + c % 2 < 2 ^ w then 0 else 1
/-- Borrow out of a - b - c[0] (R103). -/
def borrowOut (a b c : Nat) : Nat := if a < b + c % 2 then 1 else 0

end Sys2Proof.Machine
end

