-- ==== Sys2Proof/Machine/Info.lean ====
section
/-! DEFINITION. Which registers an instruction reads and writes, and what kind of instruction it is (R151, R179, R182). -/
namespace Sys2Proof

/-- Signed types (R40). -/
def Ty.signed : Ty → Bool
  | .i32 | .i16x2 | .i8x4 | .i4x8 | .i8 | .i16 | .i64 => true
  | _ => false


/-- Sources with their number of 32-bit registers and their trap policy (R47); the destination; commit point (R179). -/
structure Info where
  h : Hdr
  srcs : List (Opnd × Nat × Bool)
  dst : Option (Opnd × Nat)
  deriving DecidableEq, Repr

def srcReg (b : Src) (n : Nat) (tr : Bool) : List (Opnd × Nat × Bool) :=
  match b with
  | .reg o => [(o, n, tr)]
  | .imm _ => []

def Op1.info (x : Op1) (n dn : Nat) : Info := { h := x.h, srcs := [(x.a, n, x.h.trapA)], dst := some (x.d, dn) }
def Op2.infow (x : Op2) (an bn dn : Nat) : Info :=
  { h := x.h, srcs := (x.a, an, x.h.trapA) :: srcReg x.b bn x.h.trapB, dst := some (x.d, dn) }
def Op2.info (x : Op2) : Info := x.infow x.t.regs x.t.regs x.t.regs
def Op3.infow (x : Op3) (cn : Nat) : Info :=
  { h := x.h, srcs := [(x.a, x.t.regs, x.h.trapA), (x.b, x.t.regs, x.h.trapB), (x.c, cn, x.h.trapC)], dst := some (x.d, x.t.regs) }
def Op3.info (x : Op3) : Info := x.infow x.t.regs
def MemOp.infoLd (x : MemOp) : Info :=
  { h := x.h, srcs := (x.base, 2, x.h.trapA) :: srcReg x.off 2 x.h.trapB, dst := some (x.r, x.t.regs) }
def MemOp.infoSt (x : MemOp) : Info :=
  { h := x.h, srcs := (x.base, 2, x.h.trapA) :: (x.r, x.t.regs, false) :: srcReg x.off 2 x.h.trapB, dst := none }
def AtomOp.info (x : AtomOp) (c : Option Opnd) : Info :=
  { h := x.h,
    srcs := [(x.base, 2, x.h.trapA), (x.b, x.t.regs, x.h.trapB)] ++
      (match c with
       | some o => [(o, x.t.regs, x.h.trapC)]
       | none => []),
    dst := some (x.d, x.t.regs) }
def touchInfo (h : Hdr) (base : Opnd) (off : Src) : Info :=
  { h, srcs := (base, 2, h.trapA) :: srcReg off 2 h.trapB, dst := none }
def QOp.infoPush (x : QOp) : Info :=
  { h := x.h,
    srcs := (x.a, 2, x.h.trapA) ::
      (match x.blk with
       | some b => [(b, 16, x.h.trapB)]
       | none => []),
    dst := some (x.d, 2) }
def QOp.infoTake (x : QOp) : Info := { h := x.h, srcs := [(x.a, 2, x.h.trapA)], dst := some (x.d, 2) }
def plain (h : Hdr) (srcs : List (Opnd × Nat × Bool) := []) (dst : Option (Opnd × Nat) := none) : Info := { h, srcs, dst }

/-- Registers read and written by each word; none for an event. -/
def Instr.info : Instr → Option Info
  | .nop h | .join h _ | .exit h | .yield h | .fbar h _ | .rgnEnter h _ _ | .rgnLeave h | .trap h _ | .tret h _ | .brk h _
  | .mark h _ | .pilot h _ | .fence h _ _ | .call h _ => some (plain h)
  | .wgive h _ | .wclaim h _ => some (plain h)
  | .bar h _ _ _ => some (plain h)
  | .br h _ a _ => some (plain h [(a, 2, h.trapA)])
  | .brc h _ a _ _ => some (plain h [(a, 1, h.trapA)])
  | .jmp h t => some (plain h (srcReg t 2 h.trapA))
  | .calli h a | .ret h a => some (plain h [(a, 2, h.trapA)])
  | .spawn h d b t => some (plain h ((b, 8, h.trapA) :: srcReg t 2 h.trapB) (some (d, 2)))
  | .park h b o => some (plain h ((b, 2, h.trapA) :: srcReg o 2 h.trapB))
  | .fltrd h d _ => some (plain h [] (some (d, 2)))
  | .fltset h t a => some (plain h (srcReg a t.regs h.trapA))
  | .ldsys h _ d b o => some (plain h ((b, 2, h.trapA) :: srcReg o 2 h.trapB) (some (d, 2)))
  | .stsys h _ b o c => some (plain h [(b, 2, h.trapA), (o, 2, h.trapB), (c, 2, h.trapC)])
  | .tlbi h _ _ a b => some (plain h [(a, 2, h.trapA), (b, 2, h.trapB)])
  | .ldsp h d => some (plain h [] (some (d, 2)))
  | .stsp h a => some (plain h (srcReg a 2 h.trapA))
  | .chk h d a => some (plain h [(a, 2, h.trapA)] (some (d, 2)))
  | .add x _ | .sub x _ | .mul x _ => some x.info
  | .mulh x | .div x | .rem x | .min x | .max x | .and x | .or x | .xor x | .andn x | .shl x | .shr x | .sra x | .rol x
  | .bfx x => some x.info
  | .mad x _ | .sad x _ | .addc x _ | .subb x _ | .dot4 x _ => some x.info
  | .neg x _ | .abs x _ => some (x.info x.t.regs x.t.regs)
  | .lea x _ => some (x.infow 2 1 2)
  | .not x | .popc x | .clz x | .ctz x | .brev x => some (x.info x.t.regs x.t.regs)
  | .bfi x | .prmt x => some x.info
  | .cmp x _ => some (x.infow x.t.regs x.t.regs 1)
  | .sel x => some (x.infow 1)
  | .mov h t d a => some (plain h (srcReg a t.regs h.trapA) (some (d, t.regs)))
  | .pack h _ d a b _ => some (plain h [(a, 1, h.trapA), (b, 1, h.trapB)] (some (d, 1)))
  | .unpack x _ => some (x.info 1 1)
  | .rdl x => some (x.infow x.t.regs 1 x.t.regs)
  | .bcast x => some (x.infow x.t.regs 1 x.t.regs)
  | .vred x _ => some (x.info x.t.regs x.t.regs)
  | .ballot x | .vote x _ | .actn x => some (x.info 1 1)
  | .shfl x _ => some (x.infow x.t.regs 1 x.t.regs)
  | .fadd x _ | .fsub x _ | .fmul x _ | .fscl x _ | .fdiv x _ => some x.info
  | .fmin x _ | .fmax x _ => some x.info
  | .fcmp x _ => some (x.infow 1 1 1)
  | .fma x _ | .fdot2 x _ => some x.info
  | .frnd x _ | .rcp x _ | .rsq x _ | .sqrt x _ | .exp2 x _ | .log2 x _ | .sinpi x _ | .cospi x _ | .tanh x _ => some (x.info 1 1)
  | .fclass x | .fexpo x => some (x.info 1 1)
  | .cvt h d a df sf _ _ => some (plain h [(a, sf.regs, h.trapA)] (some (d, df.regs)))
  | .cvtpk h d a b c _ _ _ _ =>
    some (plain h
      ((a, 1, h.trapA) ::
        ((match b with
          | some o => [(o, 1, h.trapB)]
          | none => []) ++ [(c, 1, h.trapC)])) (some (d, 1)))
  | .cvtunpk h d a _ _ _ _ => some (plain h [(a, 1, h.trapA)] (some (d, 1)))
  | .mxsc x _ => some (x.info 1 1)
  | .ldG x | .ldX x => some x.infoLd
  | .stG x | .stX x => some x.infoSt
  | .pf h _ b o => some (touchInfo h b o)
  | .dsc h b o => some (touchInfo h b o)
  | .lease h b o _ => some (touchInfo h b o)
  | .prom h _ d a => some (plain h [(a, 2, h.trapA)] (some (d, 2)))
  | .cadd h t r b o | .cmin h t r b o | .cmax h t r b o =>
    some (plain h ((b, 2, h.trapA) :: (r, t.regs, false) :: srcReg o 2 h.trapB))
  | .atomAdd x | .atomSub x | .atomMin x | .atomMax x | .atomAnd x | .atomOr x | .atomXor x | .atomXchg x | .atomInc x
  | .atomDec x | .atomFadd x => some (x.info none)
  | .atomCas x c => some (x.info (some c))
  | .copy h _ _ _ a b c d => some (plain h [(a, 2, h.trapA), (b, 2, h.trapB), (c, 2, h.trapC), (d, 2, false)])
  | .gath h _ a b c | .scat h _ a b c => some (plain h [(a, 2, h.trapA), (b, 2, h.trapB), (c, 2, h.trapC)])
  | .wait h _ n => some (plain h (srcReg n 2 h.trapA))
  | .waitp h _ t => some (plain h (srcReg t 2 h.trapA))
  | .coll h _ _ _ _ a b c => some (plain h [(a, 2, h.trapA), (b, 2, h.trapB), (c, 2, h.trapC)])
  | .mwld h _ a | .mpass h _ a | .mtab h _ a => some (plain h [(a, 2, h.trapA)])
  | .accld h d a _ cnt => some (plain h [(a, 2, h.trapA)] (some (d, cnt.toNat + 1)))
  | .accst h d a _ cnt => some (plain h [(a, 2, h.trapA), (d, cnt.toNat + 1, false)])
  | .acczero h a _ => some (plain h [(a, 2, h.trapA)])
  | .mstat h d _ => some (plain h [] (some (d, 2)))
  | .barArr h _ d _ _ => some (plain h [] (some (d, 2)))
  | .barWt h _ a _ => some (plain h [(a, 2, h.trapA)])
  | .mbarInit h _ a b | .mbarWt h _ a b => some (plain h [(a, 2, h.trapA), (b, 2, h.trapB)])
  | .mbarArr h _ d a => some (plain h [(a, 2, h.trapA)] (some (d, 2)))
  | .qpush x | .dqPush x => some x.infoPush
  | .qpop x | .dqPop x | .dqSteal x => some x.infoTake
  | .depDec x => some x.infoTake
  | .launch h d a b => some (plain h [(a, 2, h.trapA), (b, 2, h.trapB)] (some (d, 2)))
  | .graphTrig h d a b c => some (plain h [(a, 2, h.trapA), (b, 2, h.trapB), (c, 2, h.trapC)] (some (d, 2)))
  | _ => none

/-- An order of scope `grp` or wider (R179). -/
def wide (sc : Scope) : Bool := sc != .fib

/-- Commit-point instructions (R179). -/
def Instr.isCommit : Instr → Bool
  | .rgnEnter .. | .rgnLeave .. | .atomAdd .. | .atomSub .. | .atomMin .. | .atomMax .. | .atomAnd .. | .atomOr .. | .atomXor ..
  | .atomXchg .. | .atomCas .. | .atomInc .. | .atomDec .. | .atomFadd .. | .cadd .. | .cmin .. | .cmax .. | .prom ..
  | .qpush .. | .qpop .. | .dqPush .. | .dqPop .. | .dqSteal .. | .depDec .. | .launch .. | .graphTrig .. | .park .. | .fbar ..
  | .bar .. | .barArr .. | .barWt .. | .mbarInit .. | .mbarArr .. | .mbarWt .. | .copy .. | .gath .. | .scat .. | .coll ..
  | .mwld .. | .mpass .. | .mtab .. | .trap .. | .spawn .. | .exit .. => true
  | .fence _ _ sc => wide sc
  | .ldG x | .stG x => x.ord == .sc && wide x.sc
  | _ => false

/-- Instructions that take a hold entry (R182). -/
def Instr.holdsEntry : Instr → Bool
  | .stG x => !(x.ord == .sc && wide x.sc)
  | .stX .. | .stsys .. | .tlbi .. | .dsc .. | .mark .. | .accst .. | .acczero .. => true
  | _ => false

/-- Instructions that read memory or accumulator rows inside a span: an outstanding acquire holds them back (R241, R337). -/
def Instr.isLoad : Instr → Bool
  | .ldG .. | .ldX .. | .accld .. | .pf .. | .lease .. => true
  | _ => false

/-- Long-latency producers (R151). -/
def Instr.isLong : Instr → Bool
  | .ldG .. | .ldX .. | .ldsys .. | .rcp .. | .rsq .. | .sqrt .. | .exp2 .. | .log2 .. | .sinpi .. | .cospi .. | .tanh ..
  | .fdiv .. | .rdl .. | .vred .. | .accld .. | .chk .. => true
  | _ => false

/-- Commands that each copy of a redundant pair performs on its own engine (R329). -/
def Instr.eachCopy : Instr → Bool
  | .mwld .. | .mpass .. | .mtab .. => true
  | _ => false

/-- A commit-point instruction that forms a span of its own in a redundant pair (R200). -/
def Instr.ownSpan : Instr → Bool
  | .atomAdd .. | .atomSub .. | .atomMin .. | .atomMax .. | .atomAnd .. | .atomOr .. | .atomXor .. | .atomXchg .. | .atomCas ..
  | .atomInc .. | .atomDec .. | .atomFadd .. | .cadd .. | .cmin .. | .cmax .. | .prom .. | .qpush .. | .qpop .. | .dqPush ..
  | .dqPop .. | .dqSteal .. | .depDec .. | .launch .. | .graphTrig .. | .mbarInit .. | .mbarArr .. | .mbarWt .. | .copy ..
  | .gath .. | .scat .. | .coll .. | .mwld .. | .mpass .. | .mtab .. => true
  | .stG x => x.ord == .sc && wide x.sc
  | _ => false

end Sys2Proof
end

