-- ==== Sys2Proof/Machine/Alu.lean ====
section
/-! DEFINITION. What the instructions of rows 0x2_ to 0x7_ compute in one lane, on raw bits (R97 to R123, R129 to R145). -/
namespace Sys2Proof.Machine

/-- Width and number of the elements of a type (R40). -/
def tyElems (t : Ty) : Nat × Nat :=
  match t with
  | .b32 | .i32 | .n32 | .f32 => (32, 1)
  | .i16x2 | .n16x2 | .f16x2 | .bf16x2 => (16, 2)
  | .i8x4 | .n8x4 | .t8x4 | .e8x4 => (8, 4)
  | .t6x5 => (6, 5)
  | .fp4x8 | .i4x8 => (4, 8)
  | .b8 | .i8 => (8, 1)
  | .b16 | .i16 => (16, 1)
  | .b64 | .i64 | .n64 => (64, 1)
  | .b128 => (128, 1)

def tyW (t : Ty) : Nat := (tyElems t).1

/-- An element read as the type says: two's complement under i types (R63). -/
def elemI (t : Ty) (j x : Nat) : Int := if t.signed then sInt (tyW t) (elem (tyW t) j x) else (elem (tyW t) j x : Int)

def tyLo (t : Ty) : Int := if t.signed then -(2 ^ (tyW t - 1)) else 0
def tyHi (t : Ty) : Int := if t.signed then 2 ^ (tyW t - 1) - 1 else 2 ^ tyW t - 1

/-- An exact result at the width of the type: wrapped, or with `.sat` clamped (R63). -/
def fit (t : Ty) (sat : Bool) (x : Int) : Nat := wrapI (tyW t) (if sat then clampI (tyLo t) (tyHi t) x else x)

/-- An operation on each element of two packed operands (R64). -/
def map2 (t : Ty) (g : Nat → Nat) : Nat := ofElems (tyW t) ((List.range (tyElems t).2).map g)

/-- `add`, `sub`, `mul`, `min`, `max` and `mad` (R97, R99): exact, then wrapped or clamped. -/
def arith2 (t : Ty) (sat : Bool) (g : Int → Int → Int) (a b : Nat) : Nat :=
  map2 t fun j => fit t sat (g (elemI t j a) (elemI t j b))
def arith3 (t : Ty) (sat : Bool) (g : Int → Int → Int → Int) (a b c : Nat) : Nat :=
  map2 t fun j => fit t sat (g (elemI t j a) (elemI t j b) (elemI t j c))
def arith1 (t : Ty) (sat : Bool) (g : Int → Int) (a : Nat) : Nat := map2 t fun j => fit t sat (g (elemI t j a))

/-- `mulh` (R98). -/
def mulhF (t : Ty) (a b : Nat) : Nat := wrapI (tyW t) (elemI t 0 a * elemI t 0 b / (2 ^ tyW t : Int))

/-- Quotient and remainder (R100), toward zero; the divisor 0 has results of its own, and -2^(w-1) / -1 wraps. -/
def divF (t : Ty) (a b : Nat) : Nat :=
  if elemI t 0 b = 0 then 2 ^ tyW t - 1 else wrapI (tyW t) ((elemI t 0 a).tdiv (elemI t 0 b))
def remF (t : Ty) (a b : Nat) : Nat :=
  if elemI t 0 b = 0 then a % 2 ^ tyW t else wrapI (tyW t) ((elemI t 0 a).tmod (elemI t 0 b))

/-- `sad` (R102); C and D are n32. -/
def sadF (t : Ty) (sat : Bool) (a b c : Nat) : Nat :=
  let s := (List.range (tyElems t).2).foldl (fun acc j => acc + (elemI t j a - elemI t j b).natAbs) (c % 2 ^ 32)
  if sat then min s (2 ^ 32 - 1) else s % 2 ^ 32

/-- `dot4` (R105): C and D are i32 under i8x4 and n32 under n8x4. -/
def dot4F (t : Ty) (sat : Bool) (a b c : Nat) : Nat :=
  let ty := if t.signed then Ty.i32 else Ty.n32
  fit ty sat ((List.range 4).foldl (fun acc j => acc + elemI t j a * elemI t j b) (elemI ty 0 c))

/-- `addc` and `subb` (R103). -/
def addcF (t : Ty) (co : Bool) (a b c : Nat) : Nat :=
  if co then carryOut (tyW t) a b c else (a + b + c % 2) % 2 ^ tyW t
def subbF (t : Ty) (bo : Bool) (a b c : Nat) : Nat :=
  if bo then borrowOut a b c else wrapI (tyW t) ((a : Int) - b - (c % 2 : Nat))

/-- `lea` (R104). -/
def leaF (sh a b : Nat) : Nat := wrapI 64 ((a : Int) + sInt 32 b * 2 ^ sh)

/-- `andn` and `not` (R106). -/
def notW (w x : Nat) : Nat := 2 ^ w - 1 - x % 2 ^ w
def andnF (t : Ty) (a b : Nat) : Nat := a &&& notW (tyW t) b

/-- Shift amount of element j: bits [7:0] of element j of B (R107). -/
def shAmt (t : Ty) (j b : Nat) : Nat := elem (tyW t) j b % 256

/-- Shifts (R107). -/
def shlF (t : Ty) (a b : Nat) : Nat :=
  map2 t fun j => if tyW t ≤ shAmt t j b then 0 else elem (tyW t) j a * 2 ^ shAmt t j b % 2 ^ tyW t
def shrF (t : Ty) (a b : Nat) : Nat :=
  map2 t fun j => if tyW t ≤ shAmt t j b then 0 else elem (tyW t) j a / 2 ^ shAmt t j b
def sraF (t : Ty) (a b : Nat) : Nat :=
  map2 t fun j => wrapI (tyW t) (elemI t j a / (2 ^ min (shAmt t j b) (tyW t) : Int))
/-- `rol` (R108). -/
def rolF (t : Ty) (a b : Nat) : Nat :=
  let w := tyW t
  let n := b % 256 % w
  a * 2 ^ n % 2 ^ w + a / 2 ^ (w - n)

/-- `bfx` and `bfi` (R109). -/
def bfxF (t : Ty) (a b : Nat) : Nat :=
  let w := tyW t
  let p := b % 256
  let n := b / 256 % 256
  if n = 0 ∨ w ≤ p then 0
  else
    let n := min n (w - p)
    let f := a / 2 ^ p % 2 ^ n
    if t.signed then wrapI w (sInt n f) else f
def bfiF (t : Ty) (a b c : Nat) : Nat :=
  let w := tyW t
  let p := b % 256
  let n := b / 256 % 256
  if n = 0 ∨ w ≤ p then c
  else
    let n := min n (w - p)
    c % 2 ^ p + a % 2 ^ n * 2 ^ p + c / 2 ^ (p + n) * 2 ^ (p + n)

/-- Counts (R110). -/
def clzF (t : Ty) (a : Nat) : Nat := tyW t - bitLen a
def ctzF (t : Ty) (a : Nat) : Nat := ((List.range (tyW t)).takeWhile fun i => !a.testBit i).length
def brevF (t : Ty) (a : Nat) : Nat := ofElems 1 ((List.range (tyW t)).map fun i => elem 1 (tyW t - 1 - i) a)

/-- `prmt` (R111). -/
def prmtF (a b c : Nat) : Nat :=
  ofElems 8 ((List.range 4).map fun j =>
    let s := elem 4 j c
    let x := elem 8 (s % 8) (a % 2 ^ 32 + b * 2 ^ 32)
    if s < 8 then x else if 128 ≤ x then 0xFF else 0)

/-- `cmp` (R112). -/
def cmpF (t : Ty) (c : Cond) (a b : Nat) : Nat :=
  map2 t fun j => if icond c (elemI t j a) (elemI t j b) then 1 else 0

/-- The wide type whose elements `pack` narrows and `unpack` makes (R115). -/
def wideOf (t : Ty) : Ty :=
  match t with
  | .i16x2 => .i32
  | .n16x2 => .n32
  | .i8x4 => .i16x2
  | .n8x4 => .n16x2
  | _ => .i8x4
def packF (t : Ty) (sat : Bool) (a b : Nat) : Nat :=
  let u := wideOf t
  let n := (tyElems u).2
  map2 t fun j => fit t sat (if j < n then elemI u j a else elemI u (j - n) b)
def unpackF (t : Ty) (hi : Bool) (a : Nat) : Nat :=
  let u := wideOf t
  let n := (tyElems u).2
  map2 u fun j => wrapI (tyW u) (elemI t (if hi then j + n else j) a)

/-- One combining step of `vred` (R119). -/
def vredF (op : RedOp) (t : Ty) (a b : Nat) : Nat :=
  match op with
  | .add => fit t false (elemI t 0 a + elemI t 0 b)
  | .min => if elemI t 0 b < elemI t 0 a then b else a
  | .max => if elemI t 0 a < elemI t 0 b then b else a
  | .and => a &&& b
  | .or => a ||| b
  | .xor => a ^^^ b

/-- Source lane of `shfl` (R123); nothing below 0 or above 31. -/
def shflLane (m : ShMode) (lane b : Nat) : Option Nat :=
  match m with
  | .idx => some (b % 32)
  | .up => if b % 256 ≤ lane then some (lane - b % 256) else none
  | .down => if lane + b % 256 ≤ 31 then some (lane + b % 256) else none
  | .xor => some (lane ^^^ (b % 32))

/-! ### Floating point -/

/-- The format of the elements of f32, f16x2 and bf16x2. -/
def tyF (t : Ty) : FFmt :=
  match t with
  | .f16x2 => fp16
  | .bf16x2 => bfl16
  | _ => fp32

/-- Apply to every element; a lane is marked when any element is invalid (R128). -/
def fmap (t : Ty) (g : Nat → Nat × Bool) : Nat × Bool :=
  let rs := (List.range (tyElems t).2).map g
  (ofElems (tyW t) (rs.map Prod.fst), rs.any Prod.snd)

/-- `fadd` and `fsub` (R129). -/
def faddF (t : Ty) (sub : Bool) (r : Rnd) (lane : Nat) (pc : DWord) (a b : Nat) : Nat × Bool :=
  fmap t fun j =>
    let x := decF (tyF t) (elem (tyW t) j a)
    let y := decF (tyF t) (elem (tyW t) j b)
    finish (tyF t) r lane pc [x, y] (sumVal r [x, if sub then y.negate else y])
def fmulF (t : Ty) (r : Rnd) (lane : Nat) (pc : DWord) (a b : Nat) : Nat × Bool :=
  fmap t fun j =>
    let x := decF (tyF t) (elem (tyW t) j a)
    let y := decF (tyF t) (elem (tyW t) j b)
    finish (tyF t) r lane pc [x, y] (mulVal x y)
def fmaF (t : Ty) (r : Rnd) (lane : Nat) (pc : DWord) (a b c : Nat) : Nat × Bool :=
  fmap t fun j =>
    let x := decF (tyF t) (elem (tyW t) j a)
    let y := decF (tyF t) (elem (tyW t) j b)
    let z := decF (tyF t) (elem (tyW t) j c)
    finish (tyF t) r lane pc [x, y, z] ((mulVal x y).bind fun p => sumVal r [p, z])

/-- `fmin` and `fmax` (R130): -0 is less than +0. -/
def fminF (t : Ty) (mx num : Bool) (a b : Nat) : Nat :=
  map2 t fun j =>
    let f := tyF t
    let ca := elem (tyW t) j a
    let cb := elem (tyW t) j b
    let x := decF f ca
    let y := decF f cb
    match firstNan [x, y] with
    | some v =>
      if num && !(x.isNan && y.isNan) then (if x.isNan then cb else ca) else encF f .rn v
    | none =>
      let k := cmpVal x y
      let less := k < 0 || (k == 0 && x.neg && !y.neg)
      if less != mx then ca else cb

/-- `fcmp` (R131). -/
def fcmpF (t : Ty) (c : Cond) (a b : Nat) : Nat :=
  map2 t fun j => if fcond c (decF (tyF t) (elem (tyW t) j a)) (decF (tyF t) (elem (tyW t) j b)) then 1 else 0

/-- `frnd` (R132). -/
def frndF (t : Ty) (r : Rnd) (a : Nat) : Nat :=
  map2 t fun j =>
    let c := elem (tyW t) j a
    match decF (tyF t) c with
    | .fin neg m e =>
      let n := (toIntR r neg m e).natAbs
      roundF (tyF t) .rn neg n 0
    | v => encF (tyF t) r v

/-- `fclass` (R133). -/
def fclassF (t : Ty) (a : Nat) : Nat :=
  map2 t fun j =>
    let f := tyF t
    let c := elem (tyW t) j a
    let neg := c / f.signBit % 2 == 1
    let m := c % f.signBit
    let bit :=
      if f.infCode < m then (if m / 2 ^ (f.fb - 1) % 2 = 1 then 1 else 0)
      else if m = f.infCode then (if neg then 2 else 9)
      else if m = 0 then (if neg then 5 else 6)
      else if m < 2 ^ f.fb then (if neg then 4 else 7)
      else if neg then 3 else 8
    2 ^ bit

/-- `fdot2` (R134). -/
def fdot2F (t : Ty) (r : Rnd) (lane : Nat) (pc : DWord) (a b c : Nat) : Nat × Bool :=
  let g (x j : Nat) : Val := decF (tyF t) (elem 16 j x)
  let z := decF fp32 c
  finish fp32 r lane pc [g a 0, g a 1, g b 0, g b 1, z]
    ((mulVal (g a 0) (g b 0)).bind fun p => (mulVal (g a 1) (g b 1)).bind fun q => sumVal r [p, q, z])

/-- `fscl` (R135). -/
def fsclF (t : Ty) (r : Rnd) (a b : Nat) : Nat :=
  map2 t fun j =>
    match decF (tyF t) (elem (tyW t) j a) with
    | .fin neg m e => roundF (tyF t) r neg m (e + sInt 32 b)
    | v => encF (tyF t) r v

/-- `fexpo` (R136). -/
def fexpoF (a : Nat) : Nat :=
  match decF fp32 a with
  | .fin _ m e => if m = 0 then 0x80000000 else wrapI 32 (ilog m e)
  | _ => 0x7FFFFFFF

def sfunF (fn : SFun) (t : Ty) (r : Rnd) (lane : Nat) (pc : DWord) (a : Nat) : Nat × Bool :=
  fmap t fun j => sfunOp fn (tyF t) r lane pc (elem (tyW t) j a)
def fdivF (t : Ty) (r : Rnd) (lane : Nat) (pc : DWord) (a b : Nat) : Nat × Bool :=
  fmap t fun j => fdivOp (tyF t) r lane pc (elem (tyW t) j a) (elem (tyW t) j b)

/-- `cvtpk` (R143): the packed register after elements 2P and 2P + 1 are replaced. -/
def cvtpkF (extra : Nat) (df : Fmt) (p : Nat) (sat : Bool) (r : Rnd) (a b c : Nat) : Nat :=
  let w := fmtWidth df
  let n := 32 / w
  ofElems w ((List.range n).map fun j =>
    if j = 2 * p then convert extra df .f32 sat r a else if j = 2 * p + 1 then convert extra df .f32 sat r b else elem w j c)

/-- `cvtunpk` (R144). -/
def cvtunpkF (extra : Nat) (dm : DMode) (sf : Fmt) (e : Nat) (r : Rnd) (a : Nat) : Nat :=
  let w := fmtWidth sf
  match dm with
  | .f32 => convert extra .f32 sf false r (elem w e a)
  | .f16x2 => convert extra .f16 sf false r (elem w e a) + 2 ^ 16 * convert extra .f16 sf false r (elem w (e + 1) a)
  | .bf16x2 => convert extra .bf16 sf false r (elem w e a) + 2 ^ 16 * convert extra .bf16 sf false r (elem w (e + 1) a)

/-- emax of a block format (R145). -/
def mxEmax (f : Fmt) : Int :=
  match f with
  | .fp4 => 2
  | .e4m3 | .t6 => 8
  | .e5m2 => 15
  | .t8 => 12
  | _ => 0

/-- The block scale of a set of FP32 values (R145). -/
def mxscF (f : Fmt) (xs : List Nat) : Nat :=
  let vs := xs.map (decF fp32)
  if vs.any fun v => match v with
      | .fin .. => false
      | _ => true
    then 0xFF
  else
    let amax := vs.foldl (fun (acc : Val) v => if cmpVal acc (if v.neg then v.negate else v) < 0 then (if v.neg then v.negate else v) else acc)
      (.fin false 0 0)
    match amax with
    | .fin _ m e => if m = 0 then 0 else (clampI 0 254 (ilog m e - mxEmax f + 127)).toNat
    | _ => 0

end Sys2Proof.Machine
end

