-- ==== Sys2Proof/Decode.lean ====
section
/-! DEFINITION. The 96-bit word (R34, R35, R48, R50): its fields, the decoder and the encoder. -/
namespace Sys2Proof

/-! The fields of a word (R35). `low` is bits [36:0], which the two forms divide differently. -/

abbrev fMajor (w : InsnWord) : BitVec 8 := w.extractLsb' 88 8
abbrev fForm (w : InsnWord) : BitVec 1 := w.extractLsb' 87 1
abbrev fType (w : InsnWord) : BitVec 5 := w.extractLsb' 82 5
abbrev fGuard (w : InsnWord) : BitVec 6 := w.extractLsb' 76 6
abbrev fSos (w : InsnWord) : BitVec 1 := w.extractLsb' 75 1
abbrev fDist (w : InsnWord) : BitVec 4 := w.extractLsb' 71 4
abbrev fReuse (w : InsnWord) : BitVec 3 := w.extractLsb' 68 3
abbrev fCpol (w : InsnWord) : BitVec 3 := w.extractLsb' 65 3
abbrev fOrder (w : InsnWord) : BitVec 3 := w.extractLsb' 61 3
abbrev fScope (w : InsnWord) : BitVec 3 := w.extractLsb' 58 3
abbrev fEpol (w : InsnWord) : BitVec 3 := w.extractLsb' 55 3
abbrev fDest (w : InsnWord) : BitVec 9 := w.extractLsb' 46 9
abbrev fA (w : InsnWord) : BitVec 9 := w.extractLsb' 37 9
abbrev fB (w : InsnWord) : BitVec 9 := w.extractLsb' 28 9
abbrev fC (w : InsnWord) : BitVec 9 := w.extractLsb' 19 9
abbrev fExt (w : InsnWord) : BitVec 19 := w.extractLsb' 0 19
abbrev fExt5 (w : InsnWord) : BitVec 5 := w.extractLsb' 32 5
abbrev fImm (w : InsnWord) : Word := w.extractLsb' 0 32

/-- The word with the given fields (R35). -/
def packWord (major : BitVec 8) (form : BitVec 1) (ty : BitVec 5) (guard : BitVec 6) (sos : BitVec 1) (dist : BitVec 4)
    (reuse cpol order scope epol : BitVec 3) (dest a : BitVec 9) (low : BitVec 37) : InsnWord :=
  (((((((((((((major ++ form) ++ ty) ++ guard) ++ sos) ++ dist) ++ reuse) ++ cpol) ++ 0#1) ++ order) ++ scope) ++ epol) ++
    dest) ++ a) ++ low

def bitOf (b : Bool) : BitVec 1 := if b then 1#1 else 0#1

/-! Codes. -/

def Special.index : Special → Nat
  | .lane => 0 | .fib => 1 | .berth => 2 | .core => 3 | .quay => 4 | .die => 5 | .mod => 6 | .role => 7 | .grp => 8
  | .amask => 9 | .ctide => 10 | .cyc => 11 | .rtime => 12 | .cwp0 => 13 | .cwp1 => 14 | .cwp2 => 15 | .cwp3 => 16
  | .ocCopy => 17 | .ocMatrix => 18 | .ocGath => 19 | .ocColl => 20 | .rgn => 21 | .fp4x => 22 | .tmask => 23 | .tpc => 24
  | .fault => 25

def Special.ofIndex : Nat → Except Reject Special
  | 0 => .ok .lane | 1 => .ok .fib | 2 => .ok .berth | 3 => .ok .core | 4 => .ok .quay | 5 => .ok .die | 6 => .ok .mod
  | 7 => .ok .role | 8 => .ok .grp | 9 => .ok .amask | 10 => .ok .ctide | 11 => .ok .cyc | 12 => .ok .rtime
  | 13 => .ok .cwp0 | 14 => .ok .cwp1 | 15 => .ok .cwp2 | 16 => .ok .cwp3 | 17 => .ok .ocCopy | 18 => .ok .ocMatrix
  | 19 => .ok .ocGath | 20 => .ok .ocColl | 21 => .ok .rgn | 22 => .ok .fp4x | 23 => .ok .tmask | 24 => .ok .tpc
  | 25 => .ok .fault | _ => .error .reservedOperand

/-- Operand codes (R36). -/
def Opnd.code : Opnd → BitVec 9
  | .v n => BitVec.ofNat 9 n.toNat
  | .s n => BitVec.ofNat 9 (256 + n.toNat)
  | .sp r => BitVec.ofNat 9 (320 + r.index)

def Opnd.ofCode (c : BitVec 9) : Except Reject Opnd :=
  if c.toNat < 256 then .ok (.v (BitVec.ofNat 8 c.toNat))
  else if c.toNat < 320 then .ok (.s (BitVec.ofNat 6 (c.toNat - 256)))
  else if c.toNat < 384 then (Special.ofIndex (c.toNat - 320)).map .sp
  else .error .reservedOperand

/-- Type codes (R40). -/
def Ty.code : Ty → BitVec 5
  | .b32 => 0x00 | .i32 => 0x01 | .n32 => 0x02 | .f32 => 0x03 | .i16x2 => 0x04 | .n16x2 => 0x05 | .f16x2 => 0x06
  | .bf16x2 => 0x07 | .i8x4 => 0x08 | .n8x4 => 0x09 | .t8x4 => 0x0A | .t6x5 => 0x0B | .fp4x8 => 0x0C | .i4x8 => 0x0D
  | .e8x4 => 0x0E | .b8 => 0x0F | .b16 => 0x10 | .i8 => 0x11 | .i16 => 0x12 | .b64 => 0x13 | .i64 => 0x14 | .n64 => 0x15
  | .b128 => 0x16

def Ty.ofCode (c : BitVec 5) : Except Reject Ty :=
  match c.toNat with
  | 0x00 => .ok .b32 | 0x01 => .ok .i32 | 0x02 => .ok .n32 | 0x03 => .ok .f32 | 0x04 => .ok .i16x2 | 0x05 => .ok .n16x2
  | 0x06 => .ok .f16x2 | 0x07 => .ok .bf16x2 | 0x08 => .ok .i8x4 | 0x09 => .ok .n8x4 | 0x0A => .ok .t8x4
  | 0x0B => .ok .t6x5 | 0x0C => .ok .fp4x8 | 0x0D => .ok .i4x8 | 0x0E => .ok .e8x4 | 0x0F => .ok .b8 | 0x10 => .ok .b16
  | 0x11 => .ok .i8 | 0x12 => .ok .i16 | 0x13 => .ok .b64 | 0x14 => .ok .i64 | 0x15 => .ok .n64 | 0x16 => .ok .b128
  | _ => .error .reservedType

/-- Guard codes (R42). -/
def Guard.code : Guard → BitVec 6
  | .always => 0
  | .pass n => 0#1 ++ n
  | .fails n => 1#1 ++ n

def Guard.ofCode (g : BitVec 6) : Guard :=
  if g = 0 then .always
  else if g.extractLsb' 5 1 = 1#1 then .fails (g.extractLsb' 0 5)
  else .pass (g.extractLsb' 0 5)

/-- Order codes (R45). -/
def Order.code : Order → BitVec 3
  | .plain => 0 | .acq => 1 | .rel => 2 | .acqrel => 3 | .sc => 4

def Order.ofCode (c : BitVec 3) : Except Reject Order :=
  match c.toNat with
  | 0 => .ok .plain | 1 => .ok .acq | 2 => .ok .rel | 3 => .ok .acqrel | 4 => .ok .sc
  | _ => .error .reservedOrder

/-- Scope codes (R28, R46). -/
def Scope.code : Scope → BitVec 3
  | .fib => 0 | .grp => 1 | .quay => 2 | .die => 3 | .mod => 4 | .dom => 5 | .sys => 6

def Scope.ofCode (c : BitVec 3) : Except Reject Scope :=
  match c.toNat with
  | 0 => .ok .fib | 1 => .ok .grp | 2 => .ok .quay | 3 => .ok .die | 4 => .ok .mod | 5 => .ok .dom | 6 => .ok .sys
  | _ => .error .reservedScope

/-- Cache policies (R230). -/
def CPol.code : CPol → BitVec 3
  | .normal => 0 | .l1EvictFirst => 1 | .noL1 => 2 | .l2EvictFirst => 3 | .l2Retain => 4

def CPol.ofCode (c : BitVec 3) : Except Reject CPol :=
  match c.toNat with
  | 0 => .ok .normal | 1 => .ok .l1EvictFirst | 2 => .ok .noL1 | 3 => .ok .l2EvictFirst | 4 => .ok .l2Retain
  | _ => .error .reservedPolicy

/-- Rounding codes (R48). -/
def Rnd.code : Rnd → BitVec 2
  | .rn => 0 | .rz => 1 | .ru => 2 | .rd => 3

def Rnd.ofCode (c : BitVec 2) : Rnd :=
  match c.toNat with
  | 0 => .rn | 1 => .rz | 2 => .ru | _ => .rd

/-- Condition codes (R49). -/
def Cond.code (c : Cond) : BitVec 5 :=
  match c with
  | .z => 13
  | .nz => 14
  | .eq => 0 | .ne => 1 | .lt => 2 | .le => 3 | .gt => 4 | .ge => 5 | .ord => 6 | .uno => 7 | .ueq => 8 | .ult => 9
  | .ule => 10 | .ugt => 11 | .uge => 12

def Cond.ofCode (c : BitVec 5) : Except Reject Cond :=
  match c.toNat with
  | 0 => .ok .eq | 1 => .ok .ne | 2 => .ok .lt | 3 => .ok .le | 4 => .ok .gt | 5 => .ok .ge | 6 => .ok .ord | 7 => .ok .uno
  | 8 => .ok .ueq | 9 => .ok .ult | 10 => .ok .ule | 11 => .ok .ugt | 12 => .ok .uge | 13 => .ok .z | 14 => .ok .nz
  | _ => .error .reservedSubfield

/-- Operations of `vred` (R119). -/
def RedOp.code : RedOp → BitVec 3
  | .add => 0 | .min => 1 | .max => 2 | .and => 3 | .or => 4 | .xor => 5

def RedOp.ofCode (c : BitVec 3) : Except Reject RedOp :=
  match c.toNat with
  | 0 => .ok .add | 1 => .ok .min | 2 => .ok .max | 3 => .ok .and | 4 => .ok .or | 5 => .ok .xor
  | _ => .error .reservedSubfield

/-- Shuffle modes (R123). -/
def ShMode.code : ShMode → BitVec 2
  | .idx => 0 | .up => 1 | .down => 2 | .xor => 3

def ShMode.ofCode (c : BitVec 2) : ShMode :=
  match c.toNat with
  | 0 => .idx | 1 => .up | 2 => .down | _ => .xor

/-- Vote modes (R121). -/
def VoteMode.code : VoteMode → BitVec 2
  | .all => 0 | .any => 1 | .uni => 2

def VoteMode.ofCode (c : BitVec 2) : Except Reject VoteMode :=
  match c.toNat with
  | 0 => .ok .all | 1 => .ok .any | 2 => .ok .uni
  | _ => .error .reservedSubfield

/-- Conversion formats (R140). -/
def Fmt.code : Fmt → BitVec 5
  | .f32 => 0 | .f16 => 1 | .bf16 => 2 | .t8 => 3 | .t6 => 4 | .fp4 => 5 | .e8m0 => 6 | .e4m3 => 7 | .e5m2 => 8 | .i4 => 9
  | .i8 => 10 | .n8 => 11 | .i16 => 12 | .n16 => 13 | .i32 => 14 | .n32 => 15 | .i64 => 16 | .n64 => 17

def Fmt.ofCode (c : BitVec 5) : Except Reject Fmt :=
  match c.toNat with
  | 0 => .ok .f32 | 1 => .ok .f16 | 2 => .ok .bf16 | 3 => .ok .t8 | 4 => .ok .t6 | 5 => .ok .fp4 | 6 => .ok .e8m0
  | 7 => .ok .e4m3 | 8 => .ok .e5m2 | 9 => .ok .i4 | 10 => .ok .i8 | 11 => .ok .n8 | 12 => .ok .i16 | 13 => .ok .n16
  | 14 => .ok .i32 | 15 => .ok .n32 | 16 => .ok .i64 | 17 => .ok .n64
  | _ => .error .reservedSubfield

/-- Result modes of `cvtunpk` (R144). -/
def DMode.code : DMode → BitVec 2
  | .f32 => 0 | .f16x2 => 1 | .bf16x2 => 2

def DMode.ofCode (c : BitVec 2) : Except Reject DMode :=
  match c.toNat with
  | 0 => .ok .f32 | 1 => .ok .f16x2 | 2 => .ok .bf16x2
  | _ => .error .reservedSubfield

/-- Modes of `tlbi` (R213). -/
def TlbiMode.code : TlbiMode → BitVec 2
  | .va => 0 | .ctx => 1 | .all => 2

def TlbiMode.ofCode (c : BitVec 2) : Except Reject TlbiMode :=
  match c.toNat with
  | 0 => .ok .va | 1 => .ok .ctx | 2 => .ok .all
  | _ => .error .reservedSubfield

/-- Command classes (R288). -/
def OcClass.code : OcClass → BitVec 2
  | .copy => 0 | .matrix => 1 | .gath => 2 | .coll => 3

def OcClass.ofCode (c : BitVec 2) : OcClass :=
  match c.toNat with
  | 0 => .copy | 1 => .matrix | 2 => .gath | _ => .coll

/-- Kinds and operations of `coll` (R411). -/
def CollKind.code : CollKind → BitVec 2
  | .ar => 0 | .ag => 1 | .bc => 2

def CollKind.ofCode (c : BitVec 2) : Except Reject CollKind :=
  match c.toNat with
  | 0 => .ok .ar | 1 => .ok .ag | 2 => .ok .bc
  | _ => .error .reservedSubfield

def CollOp.code : CollOp → BitVec 3
  | .add => 0 | .min => 1 | .max => 2

def CollOp.ofCode (c : BitVec 3) : Except Reject CollOp :=
  match c.toNat with
  | 0 => .ok .add | 1 => .ok .min | 2 => .ok .max
  | _ => .error .reservedSubfield

/-! Reading the fields of a word. -/

def dHdr (w : InsnWord) : Hdr :=
  { guard := Guard.ofCode (fGuard w), sos := fSos w == 1#1, dist := fDist w, reuse := fReuse w,
    trapA := (fEpol w).getLsbD 0, trapB := (fEpol w).getLsbD 1, trapC := (fEpol w).getLsbD 2 }

def isI (w : InsnWord) : Bool := fForm w == 1#1

/-- The description has the R form only. -/
def rOnly (w : InsnWord) : Except Reject Unit := if isI w then .error .noSuchForm else .ok ()

/-- The description has the I form only. -/
def iOnly (w : InsnWord) : Except Reject Unit := if isI w then .ok () else .error .noSuchForm

/-- Source B: a register, or in the I form the immediate (R50). -/
def dSrcB (w : InsnWord) : Except Reject Src := if isI w then .ok (.imm (fImm w)) else (Opnd.ofCode (fB w)).map .reg

/-- An operand that stands in source A in the R form and in the immediate in the I form. -/
def dSrcA (w : InsnWord) : Except Reject Src := if isI w then .ok (.imm (fImm w)) else (Opnd.ofCode (fA w)).map .reg

def dSat (w : InsnWord) : Bool := if isI w then w.getLsbD 34 else w.getLsbD 2
def dRnd (w : InsnWord) : Rnd := Rnd.ofCode (if isI w then w.extractLsb' 32 2 else w.extractLsb' 0 2)
def dCond (w : InsnWord) : Except Reject Cond := Cond.ofCode (if isI w then fExt5 w else w.extractLsb' 3 5)

/-- A two-bit mode at R [9:8], I [36:35] (`lea`, `shfl`, `wait`, `waitp`). -/
def dMode2 (w : InsnWord) : BitVec 2 := if isI w then w.extractLsb' 35 2 else w.extractLsb' 8 2

def dOp1 (w : InsnWord) : Except Reject Op1 := do
  rOnly w
  let t ← Ty.ofCode (fType w)
  let d ← Opnd.ofCode (fDest w)
  let a ← Opnd.ofCode (fA w)
  return { h := dHdr w, t, d, a }

def dOp2 (w : InsnWord) : Except Reject Op2 := do
  let t ← Ty.ofCode (fType w)
  let d ← Opnd.ofCode (fDest w)
  let a ← Opnd.ofCode (fA w)
  let b ← dSrcB w
  return { h := dHdr w, t, d, a, b }

def dOp3 (w : InsnWord) : Except Reject Op3 := do
  rOnly w
  let t ← Ty.ofCode (fType w)
  let d ← Opnd.ofCode (fDest w)
  let a ← Opnd.ofCode (fA w)
  let b ← Opnd.ofCode (fB w)
  let c ← Opnd.ofCode (fC w)
  return { h := dHdr w, t, d, a, b, c }

def dMem (w : InsnWord) : Except Reject MemOp := do
  let t ← Ty.ofCode (fType w)
  let ord ← Order.ofCode (fOrder w)
  let sc ← Scope.ofCode (fScope w)
  let cpol ← CPol.ofCode (fCpol w)
  let r ← Opnd.ofCode (fDest w)
  let base ← Opnd.ofCode (fA w)
  let off ← dSrcB w
  return { h := dHdr w, t, ord, sc, cpol, r, base, off }

def dAtom (w : InsnWord) : Except Reject AtomOp := do
  rOnly w
  let t ← Ty.ofCode (fType w)
  let ord ← Order.ofCode (fOrder w)
  let sc ← Scope.ofCode (fScope w)
  let d ← Opnd.ofCode (fDest w)
  let base ← Opnd.ofCode (fA w)
  let b ← Opnd.ofCode (fB w)
  return { h := dHdr w, t, ord, sc, d, base, b }

/-- A queue word: source B is a record block, or 0 where it names none (R365). -/
def dQ (w : InsnWord) : Except Reject QOp := do
  rOnly w
  let ord ← Order.ofCode (fOrder w)
  let sc ← Scope.ofCode (fScope w)
  let d ← Opnd.ofCode (fDest w)
  let a ← Opnd.ofCode (fA w)
  let blk ← if fB w = 0 then .ok none else (Opnd.ofCode (fB w)).map some
  return { h := dHdr w, ord, sc, d, a, blk }

def dContrib (w : InsnWord) (k : Hdr → Ty → Opnd → Opnd → Src → Instr) : Except Reject Instr := do
  let t ← Ty.ofCode (fType w)
  let r ← Opnd.ofCode (fDest w)
  let base ← Opnd.ofCode (fA w)
  let off ← dSrcB w
  return k (dHdr w) t r base off

/-- The operand fields, in the order of the word. -/
def dDest (w : InsnWord) : Except Reject Opnd := Opnd.ofCode (fDest w)
def dA (w : InsnWord) : Except Reject Opnd := Opnd.ofCode (fA w)
def dB (w : InsnWord) : Except Reject Opnd := Opnd.ofCode (fB w)
def dC (w : InsnWord) : Except Reject Opnd := Opnd.ofCode (fC w)

/-- Row 0x0_ (R165). -/
def buildFibre (w : InsnWord) : Except Reject Instr :=
  let h := dHdr w
  match (fMajor w).toNat with
  | 0x01 => do rOnly w; return .nop h
  | 0x02 => do iOnly w; return .br h (← dCond w) (← dA w) (fImm w)
  | 0x03 => do iOnly w; return .brc h (← dCond w) (← dA w) (w.extractLsb' 5 27) (w.extractLsb' 0 5)
  | 0x04 => do return .jmp h (← dSrcA w)
  | 0x05 => do iOnly w; return .call h (fImm w)
  | 0x06 => do rOnly w; return .calli h (← dA w)
  | 0x07 => do rOnly w; return .ret h (← dA w)
  | 0x08 => do rOnly w; return .join h (w.extractLsb' 8 5)
  | 0x09 => do rOnly w; return .exit h
  | 0x0A => do rOnly w; return .yield h
  | 0x0B => do return .spawn h (← dDest w) (← dA w) (← dSrcB w)
  | 0x0C => do iOnly w; return .fbar h (w.extractLsb' 0 8)
  | 0x0D | 0x0E => do
    rOnly w
    match ← dA w with
    | .v n =>
      if n.extractLsb' 0 4 = 0 then
        return if (fMajor w).toNat = 0x0D then .wgive h (n.extractLsb' 4 4) else .wclaim h (n.extractLsb' 4 4)
      else .error .illFormed
    | _ => .error .illFormed
  | 0x0F => do return .park h (← dA w) (← dSrcB w)
  | _ => .error .reservedMajor

/-- Row 0x1_ (R204). -/
def buildRegion (w : InsnWord) : Except Reject Instr :=
  let h := dHdr w
  match (fMajor w).toNat with
  | 0x10 => do iOnly w; return .rgnEnter h (w.extractLsb' 0 16) (w.getLsbD 16)
  | 0x11 => do rOnly w; return .rgnLeave h
  | 0x12 => do iOnly w; return .trap h (w.extractLsb' 0 16)
  | 0x13 => do rOnly w; return .tret h (w.getLsbD 8)
  | 0x14 => do iOnly w; return .brk h (w.extractLsb' 0 16)
  | 0x15 => do iOnly w; return .fltrd h (← dDest w) (w.extractLsb' 0 4)
  | 0x16 => do return .fltset h (← Ty.ofCode (fType w)) (← dSrcA w)
  | 0x17 => do return .ldsys h (← Ty.ofCode (fType w)) (← dDest w) (← dA w) (← dSrcB w)
  | 0x18 => do rOnly w; return .stsys h (← Ty.ofCode (fType w)) (← dA w) (← dB w) (← dC w)
  | 0x19 => do rOnly w; return .tlbi h (← Scope.ofCode (fScope w)) (← TlbiMode.ofCode (w.extractLsb' 8 2)) (← dA w) (← dB w)
  | 0x1A => do rOnly w; return .ldsp h (← dDest w)
  | 0x1B => do return .stsp h (← dSrcA w)
  | 0x1C => do iOnly w; return .mark h (fImm w)
  | 0x1D => do rOnly w; return .chk h (← dDest w) (← dA w)
  | 0x1E => do iOnly w; return .pilot h (w.getLsbD 0)
  | _ => .error .reservedMajor

/-- Rows 0x2_ to 0x4_ (R94). -/
def buildInt (w : InsnWord) : Except Reject Instr :=
  match (fMajor w).toNat with
  | 0x20 => do return .add (← dOp2 w) (dSat w)
  | 0x21 => do return .sub (← dOp2 w) (dSat w)
  | 0x22 => do return .mul (← dOp2 w) (dSat w)
  | 0x23 => do return .mulh (← dOp2 w)
  | 0x24 => do return .mad (← dOp3 w) (dSat w)
  | 0x25 => do return .div (← dOp2 w)
  | 0x26 => do return .rem (← dOp2 w)
  | 0x27 => do return .neg (← dOp1 w) (dSat w)
  | 0x28 => do return .abs (← dOp1 w) (dSat w)
  | 0x29 => do return .min (← dOp2 w)
  | 0x2A => do return .max (← dOp2 w)
  | 0x2B => do return .sad (← dOp3 w) (dSat w)
  | 0x2C => do return .addc (← dOp3 w) (w.getLsbD 8)
  | 0x2D => do return .subb (← dOp3 w) (w.getLsbD 8)
  | 0x2E => do return .lea (← dOp2 w) (dMode2 w)
  | 0x2F => do return .dot4 (← dOp3 w) (dSat w)
  | 0x30 => do return .and (← dOp2 w)
  | 0x31 => do return .or (← dOp2 w)
  | 0x32 => do return .xor (← dOp2 w)
  | 0x33 => do return .andn (← dOp2 w)
  | 0x34 => do return .not (← dOp1 w)
  | 0x35 => do return .shl (← dOp2 w)
  | 0x36 => do return .shr (← dOp2 w)
  | 0x37 => do return .sra (← dOp2 w)
  | 0x38 => do return .rol (← dOp2 w)
  | 0x39 => do return .bfx (← dOp2 w)
  | 0x3A => do return .bfi (← dOp3 w)
  | 0x3B => do return .popc (← dOp1 w)
  | 0x3C => do return .clz (← dOp1 w)
  | 0x3D => do return .ctz (← dOp1 w)
  | 0x3E => do return .brev (← dOp1 w)
  | 0x3F => do return .prmt (← dOp3 w)
  | 0x40 => do return .cmp (← dOp2 w) (← dCond w)
  | 0x41 => do return .sel (← dOp3 w)
  | 0x42 => do return .mov (dHdr w) (← Ty.ofCode (fType w)) (← dDest w) (← dSrcA w)
  | 0x43 => do rOnly w; return .pack (dHdr w) (← Ty.ofCode (fType w)) (← dDest w) (← dA w) (← dB w) (dSat w)
  | 0x44 => do return .unpack (← dOp1 w) (w.getLsbD 8)
  | 0x45 => do return .rdl (← dOp2 w)
  | 0x46 => do return .bcast (← dOp2 w)
  | 0x47 => do return .vred (← dOp1 w) (← RedOp.ofCode (w.extractLsb' 8 3))
  | 0x48 => do return .ballot (← dOp1 w)
  | 0x49 => do return .shfl (← dOp2 w) (ShMode.ofCode (dMode2 w))
  | 0x4A => do return .vote (← dOp1 w) (← VoteMode.ofCode (w.extractLsb' 8 2))
  | 0x4B => do return .actn (← dOp1 w)
  | _ => .error .reservedMajor

/-- Rows 0x5_ to 0x7_ (R125). -/
def buildFloat (w : InsnWord) : Except Reject Instr :=
  let num := if isI w then w.getLsbD 35 else w.getLsbD 8
  match (fMajor w).toNat with
  | 0x50 => do return .fadd (← dOp2 w) (dRnd w)
  | 0x51 => do return .fsub (← dOp2 w) (dRnd w)
  | 0x52 => do return .fmul (← dOp2 w) (dRnd w)
  | 0x53 => do return .fma (← dOp3 w) (dRnd w)
  | 0x54 => do return .fmin (← dOp2 w) num
  | 0x55 => do return .fmax (← dOp2 w) num
  | 0x56 => do return .fcmp (← dOp2 w) (← dCond w)
  | 0x57 => do return .frnd (← dOp1 w) (dRnd w)
  | 0x58 => do return .fclass (← dOp1 w)
  | 0x59 => do return .fdot2 (← dOp3 w) (dRnd w)
  | 0x5A => do return .fscl (← dOp2 w) (dRnd w)
  | 0x5B => do return .fexpo (← dOp1 w)
  | 0x60 => do return .rcp (← dOp1 w) (dRnd w)
  | 0x61 => do return .rsq (← dOp1 w) (dRnd w)
  | 0x62 => do return .sqrt (← dOp1 w) (dRnd w)
  | 0x63 => do return .exp2 (← dOp1 w) (dRnd w)
  | 0x64 => do return .log2 (← dOp1 w) (dRnd w)
  | 0x65 => do return .sinpi (← dOp1 w) (dRnd w)
  | 0x66 => do return .cospi (← dOp1 w) (dRnd w)
  | 0x67 => do return .tanh (← dOp1 w) (dRnd w)
  | 0x68 => do return .fdiv (← dOp2 w) (dRnd w)
  | 0x70 => do
    rOnly w
    return .cvt (dHdr w) (← dDest w) (← dA w) (← Fmt.ofCode (w.extractLsb' 14 5)) (← Fmt.ofCode (w.extractLsb' 9 5)) (dSat w) (dRnd w)
  | 0x71 => do
    rOnly w
    let df ← Fmt.ofCode (w.extractLsb' 14 5)
    let p : BitVec 3 := w.extractLsb' 11 3
    let b ← if df = .t6 ∧ p = 2 then .ok none else (dB w).map some
    return .cvtpk (dHdr w) (← dDest w) (← dA w) b (← dC w) df p (dSat w) (dRnd w)
  | 0x72 => do
    rOnly w
    return .cvtunpk (dHdr w) (← dDest w) (← dA w) (← DMode.ofCode (w.extractLsb' 17 2)) (← Fmt.ofCode (w.extractLsb' 12 5))
      (w.extractLsb' 9 3) (dRnd w)
  | 0x73 => do return .mxsc (← dOp1 w) (← Fmt.ofCode (w.extractLsb' 8 5))
  | _ => .error .reservedMajor

/-- Rows 0x8_ and 0x9_ (R236). -/
def buildMem (w : InsnWord) : Except Reject Instr :=
  let h := dHdr w
  match (fMajor w).toNat with
  | 0x80 => do return .ldG (← dMem w)
  | 0x81 => do return .stG (← dMem w)
  | 0x82 => do return .ldX (← dMem w)
  | 0x83 => do return .stX (← dMem w)
  | 0x84 => do return .pf h (← CPol.ofCode (fCpol w)) (← dA w) (← dSrcB w)
  | 0x85 => do return .dsc h (← dA w) (← dSrcB w)
  | 0x86 => do rOnly w; return .fence h (← Order.ofCode (fOrder w)) (← Scope.ofCode (fScope w))
  | 0x87 => do rOnly w; return .prom h (← Scope.ofCode (fScope w)) (← dDest w) (← dA w)
  | 0x88 => do return .lease h (← dA w) (← dSrcB w) (if isI w then w.extractLsb' 32 4 else w.extractLsb' 8 4)
  | 0x89 => dContrib w .cadd
  | 0x8A => dContrib w .cmin
  | 0x8B => dContrib w .cmax
  | 0x90 => do return .atomAdd (← dAtom w)
  | 0x91 => do return .atomSub (← dAtom w)
  | 0x92 => do return .atomMin (← dAtom w)
  | 0x93 => do return .atomMax (← dAtom w)
  | 0x94 => do return .atomAnd (← dAtom w)
  | 0x95 => do return .atomOr (← dAtom w)
  | 0x96 => do return .atomXor (← dAtom w)
  | 0x97 => do return .atomXchg (← dAtom w)
  | 0x98 => do return .atomCas (← dAtom w) (← dC w)
  | 0x99 => do return .atomInc (← dAtom w)
  | 0x9A => do return .atomDec (← dAtom w)
  | 0x9B => do return .atomFadd (← dAtom w)
  | _ => .error .reservedMajor

/-- Rows 0xA_ and 0xB_ (R288, R411, R330). -/
def buildEngine (w : InsnWord) : Except Reject Instr :=
  let h := dHdr w
  match (fMajor w).toNat with
  | 0xA0 => do
    rOnly w
    return .copy h (← CPol.ofCode (fCpol w)) (w.getLsbD 10) (w.extractLsb' 8 2) (← dA w) (← dB w) (← dC w) (← dDest w)
  | 0xA1 => do rOnly w; return .gath h (← CPol.ofCode (fCpol w)) (← dA w) (← dB w) (← dC w)
  | 0xA2 => do rOnly w; return .scat h (← CPol.ofCode (fCpol w)) (← dA w) (← dB w) (← dC w)
  | 0xA3 => do return .wait h (OcClass.ofCode (dMode2 w)) (← dSrcA w)
  | 0xA4 => do return .waitp h (dMode2 w) (← dSrcA w)
  | 0xA5 => do
    rOnly w
    return .coll h (← Ty.ofCode (fType w)) (← Scope.ofCode (fScope w)) (← CollKind.ofCode (w.extractLsb' 8 2))
      (← CollOp.ofCode (w.extractLsb' 10 3)) (← dA w) (← dB w) (← dC w)
  | 0xB0 => do rOnly w; return .mwld h (← CPol.ofCode (fCpol w)) (← dA w)
  | 0xB1 => do rOnly w; return .mpass h (← CPol.ofCode (fCpol w)) (← dA w)
  | 0xB2 => do rOnly w; return .mtab h (← CPol.ofCode (fCpol w)) (← dA w)
  | 0xB3 => do rOnly w; return .accld h (← dDest w) (← dA w) (w.extractLsb' 11 8) (w.extractLsb' 8 3)
  | 0xB4 => do rOnly w; return .accst h (← dDest w) (← dA w) (w.extractLsb' 11 8) (w.extractLsb' 8 3)
  | 0xB5 => do rOnly w; return .acczero h (← dA w) (w.extractLsb' 8 3)
  | 0xB6 => do iOnly w; return .mstat h (← dDest w) (w.extractLsb' 0 2)
  | _ => .error .reservedMajor

/-- Row 0xC_ (R300, R365, R349). -/
def buildSync (w : InsnWord) : Except Reject Instr :=
  let h := dHdr w
  match (fMajor w).toNat with
  | 0xC0 => do iOnly w; return .bar h (← Scope.ofCode (fScope w)) (w.extractLsb' 0 4) (w.extractLsb' 8 6)
  | 0xC1 => do iOnly w; return .barArr h (← Scope.ofCode (fScope w)) (← dDest w) (w.extractLsb' 0 4) (w.extractLsb' 8 6)
  | 0xC2 => do iOnly w; return .barWt h (← Scope.ofCode (fScope w)) (← dA w) (w.extractLsb' 0 4)
  | 0xC3 => do rOnly w; return .mbarInit h (← Scope.ofCode (fScope w)) (← dA w) (← dB w)
  | 0xC4 => do rOnly w; return .mbarArr h (← Scope.ofCode (fScope w)) (← dDest w) (← dA w)
  | 0xC5 => do rOnly w; return .mbarWt h (← Scope.ofCode (fScope w)) (← dA w) (← dB w)
  | 0xC6 => do return .qpush (← dQ w)
  | 0xC7 => do return .qpop (← dQ w)
  | 0xC8 => do return .dqPush (← dQ w)
  | 0xC9 => do return .dqPop (← dQ w)
  | 0xCA => do return .dqSteal (← dQ w)
  | 0xCB => do return .depDec (← dQ w)
  | 0xCC => do rOnly w; return .launch h (← dDest w) (← dA w) (← dB w)
  | 0xCD => do rOnly w; return .graphTrig h (← dDest w) (← dA w) (← dB w) (← dC w)
  | _ => .error .reservedMajor

/-- The instruction that the fields of a word name (R53), before the checks of R55. -/
def build (w : InsnWord) : Except Reject Instr :=
  match (w.extractLsb' 92 4).toNat with
  | 0x0 => buildFibre w
  | 0x1 => buildRegion w
  | 0x2 | 0x3 | 0x4 => buildInt w
  | 0x5 | 0x6 | 0x7 => buildFloat w
  | 0x8 | 0x9 => buildMem w
  | 0xA | 0xB => buildEngine w
  | 0xC => buildSync w
  | _ => .error .reservedMajor

/-! The encoder, from the same tables. -/

/-- Bits [36:0] of the R form and of the I form (R35). -/
def lowR (b c : BitVec 9) (ext : BitVec 19) : BitVec 37 := (b ++ c) ++ ext
def lowI (e5 : BitVec 5) (imm : Word) : BitVec 37 := e5 ++ imm

/-- The extension field (R48). -/
def extOf (hi : BitVec 11) (cond : BitVec 5) (sat : Bool) (r : BitVec 2) : BitVec 19 := ((hi ++ cond) ++ bitOf sat) ++ r

def extS (sat : Bool) : BitVec 19 := extOf 0 0 sat 0
def extR (r : Rnd) : BitVec 19 := extOf 0 0 false r.code
def extC (c : Cond) : BitVec 19 := extOf 0 c.code false 0
def extH (hi : BitVec 11) : BitVec 19 := extOf hi 0 false 0

/-- The short extension (R50): [36:35] mode, [34] SAT, [33:32] RND. -/
def e5Of (mode : BitVec 2) (sat : Bool) (r : BitVec 2) : BitVec 5 := (mode ++ bitOf sat) ++ r

def epolOf (h : Hdr) : BitVec 3 := (bitOf h.trapC ++ bitOf h.trapB) ++ bitOf h.trapA

/-- A word of the given header and fields. -/
def wordOf (h : Hdr) (major : BitVec 8) (form : BitVec 1) (ty : BitVec 5) (cpol order scope : BitVec 3) (dest a : BitVec 9)
    (low : BitVec 37) : InsnWord :=
  packWord major form ty h.guard.code (bitOf h.sos) h.dist h.reuse cpol order scope (epolOf h) dest a low

def Op1.word (x : Op1) (major : BitVec 8) (ext : BitVec 19) : InsnWord :=
  wordOf x.h major 0 x.t.code 0 0 0 x.d.code x.a.code (lowR 0 0 ext)

def Op2.word (x : Op2) (major : BitVec 8) (ext : BitVec 19) (e5 : BitVec 5) : InsnWord :=
  match x.b with
  | .reg b => wordOf x.h major 0 x.t.code 0 0 0 x.d.code x.a.code (lowR b.code 0 ext)
  | .imm i => wordOf x.h major 1 x.t.code 0 0 0 x.d.code x.a.code (lowI e5 i)

def Op3.word (x : Op3) (major : BitVec 8) (ext : BitVec 19) : InsnWord :=
  wordOf x.h major 0 x.t.code 0 0 0 x.d.code x.a.code (lowR x.b.code x.c.code ext)

/-- Operand A in the R form, the immediate in the I form, where source B is not used. -/
def srcAWord (h : Hdr) (major : BitVec 8) (ty : BitVec 5) (dest : BitVec 9) (t : Src) (ext : BitVec 19) (e5 : BitVec 5) : InsnWord :=
  match t with
  | .reg a => wordOf h major 0 ty 0 0 0 dest a.code (lowR 0 0 ext)
  | .imm i => wordOf h major 1 ty 0 0 0 dest 0 (lowI e5 i)

/-- A memory operand: a base, and an offset in source B or in the immediate. -/
def memWord (h : Hdr) (major : BitVec 8) (ty : BitVec 5) (cpol order scope : BitVec 3) (r : BitVec 9) (base : Opnd) (off : Src)
    (ext : BitVec 19) (e5 : BitVec 5) : InsnWord :=
  match off with
  | .reg b => wordOf h major 0 ty cpol order scope r base.code (lowR b.code 0 ext)
  | .imm i => wordOf h major 1 ty cpol order scope r base.code (lowI e5 i)

def MemOp.word (x : MemOp) (major : BitVec 8) : InsnWord :=
  memWord x.h major x.t.code x.cpol.code x.ord.code x.sc.code x.r.code x.base x.off 0 0

def AtomOp.word (x : AtomOp) (major : BitVec 8) (c : BitVec 9) : InsnWord :=
  wordOf x.h major 0 x.t.code 0 x.ord.code x.sc.code x.d.code x.base.code (lowR x.b.code c 0)

def QOp.word (x : QOp) (major : BitVec 8) : InsnWord :=
  wordOf x.h major 0 Ty.b64.code 0 x.ord.code x.sc.code x.d.code x.a.code
    (lowR (match x.blk with
      | some b => b.code
      | none => 0) 0 0)

/-- The `v16k` operand that names slot k (R173). -/
def slotCode (k : BitVec 4) : BitVec 9 := (0#1 ++ k) ++ 0#4

/-- An R-form word without type. -/
def rWord (h : Hdr) (major : BitVec 8) (dest a b c : BitVec 9) (ext : BitVec 19) : InsnWord :=
  wordOf h major 0 0 0 0 0 dest a (lowR b c ext)

/-- An I-form word without type. -/
def iWord (h : Hdr) (major : BitVec 8) (dest a : BitVec 9) (e5 : BitVec 5) (imm : Word) : InsnWord :=
  wordOf h major 1 0 0 0 0 dest a (lowI e5 imm)

/-- The word of an instruction; an event has none and encodes as 0. -/
def encode (i : Instr) : InsnWord :=
  let m := BitVec.ofNat 8 i.major
  match i with
  | .nop h => rWord h m 0 0 0 0 0
  | .br h c a off => iWord h m 0 a.code c.code off
  | .brc h c a off tok => iWord h m 0 a.code c.code (off ++ tok)
  | .jmp h t => srcAWord h m 0 0 t 0 0
  | .call h off => iWord h m 0 0 0 off
  | .calli h a => rWord h m 0 a.code 0 0 0
  | .ret h a => rWord h m 0 a.code 0 0 0
  | .join h tok => rWord h m 0 0 0 0 (extH (0#6 ++ tok))
  | .exit h => rWord h m 0 0 0 0 0
  | .yield h => rWord h m 0 0 0 0 0
  | .spawn h d blk t => memWord h m 0 0 0 0 d.code blk t 0 0
  | .fbar h k => iWord h m 0 0 0 (0#24 ++ k)
  | .wgive h k => rWord h m 0 (slotCode k) 0 0 0
  | .wclaim h k => rWord h m 0 (slotCode k) 0 0 0
  | .park h b o => memWord h m 0 0 0 0 0 b o 0 0
  | .rgnEnter h id idem => iWord h m 0 0 0 ((0#15 ++ bitOf idem) ++ id)
  | .rgnLeave h => rWord h m 0 0 0 0 0
  | .trap h code => iWord h m 0 0 0 (0#16 ++ code)
  | .tret h skip => rWord h m 0 0 0 0 (extH (0#10 ++ bitOf skip))
  | .brk h tag => iWord h m 0 0 0 (0#16 ++ tag)
  | .fltrd h d k => wordOf h m 1 Ty.b64.code 0 0 0 d.code 0 (lowI 0 (0#28 ++ k))
  | .fltset h t a => srcAWord h m t.code 0 a 0 0
  | .ldsys h t d b o => memWord h m t.code 0 0 0 d.code b o 0 0
  | .stsys h t b o c => wordOf h m 0 t.code 0 0 0 0 b.code (lowR o.code c.code 0)
  | .tlbi h sc k a b => wordOf h m 0 0 0 0 sc.code 0 a.code (lowR b.code 0 (extH (0#9 ++ k.code)))
  | .ldsp h d => wordOf h m 0 Ty.b64.code 0 0 0 d.code 0 (lowR 0 0 0)
  | .stsp h a => srcAWord h m 0 0 a 0 0
  | .mark h v => iWord h m 0 0 0 v
  | .chk h d a => wordOf h m 0 Ty.b64.code 0 0 0 d.code a.code (lowR 0 0 0)
  | .pilot h on => iWord h m 0 0 0 (0#31 ++ bitOf on)
  | .add x s => x.word m (extS s) (e5Of 0 s 0)
  | .sub x s => x.word m (extS s) (e5Of 0 s 0)
  | .mul x s => x.word m (extS s) (e5Of 0 s 0)
  | .mulh x => x.word m 0 0
  | .mad x s => x.word m (extS s)
  | .div x => x.word m 0 0
  | .rem x => x.word m 0 0
  | .neg x s => x.word m (extS s)
  | .abs x s => x.word m (extS s)
  | .min x => x.word m 0 0
  | .max x => x.word m 0 0
  | .sad x s => x.word m (extS s)
  | .addc x co => x.word m (extH (0#10 ++ bitOf co))
  | .subb x bo => x.word m (extH (0#10 ++ bitOf bo))
  | .lea x sh => x.word m (extH (0#9 ++ sh)) (e5Of sh false 0)
  | .dot4 x s => x.word m (extS s)
  | .and x => x.word m 0 0
  | .or x => x.word m 0 0
  | .xor x => x.word m 0 0
  | .andn x => x.word m 0 0
  | .not x => x.word m 0
  | .shl x => x.word m 0 0
  | .shr x => x.word m 0 0
  | .sra x => x.word m 0 0
  | .rol x => x.word m 0 0
  | .bfx x => x.word m 0 0
  | .bfi x => x.word m 0
  | .popc x => x.word m 0
  | .clz x => x.word m 0
  | .ctz x => x.word m 0
  | .brev x => x.word m 0
  | .prmt x => x.word m 0
  | .cmp x c => x.word m (extC c) c.code
  | .sel x => x.word m 0
  | .mov h t d a => srcAWord h m t.code d.code a 0 0
  | .pack h t d a b s => wordOf h m 0 t.code 0 0 0 d.code a.code (lowR b.code 0 (extS s))
  | .unpack x hi => x.word m (extH (0#10 ++ bitOf hi))
  | .rdl x => x.word m 0 0
  | .bcast x => x.word m 0 0
  | .vred x op => x.word m (extH (0#8 ++ op.code))
  | .ballot x => x.word m 0
  | .shfl x k => x.word m (extH (0#9 ++ k.code)) (e5Of k.code false 0)
  | .vote x k => x.word m (extH (0#9 ++ k.code))
  | .actn x => x.word m 0
  | .fadd x r => x.word m (extR r) (e5Of 0 false r.code)
  | .fsub x r => x.word m (extR r) (e5Of 0 false r.code)
  | .fmul x r => x.word m (extR r) (e5Of 0 false r.code)
  | .fma x r => x.word m (extR r)
  | .fmin x n => x.word m (extH (0#10 ++ bitOf n)) (e5Of (0#1 ++ bitOf n) false 0)
  | .fmax x n => x.word m (extH (0#10 ++ bitOf n)) (e5Of (0#1 ++ bitOf n) false 0)
  | .fcmp x c => x.word m (extC c) c.code
  | .frnd x r => x.word m (extR r)
  | .fclass x => x.word m 0
  | .fdot2 x r => x.word m (extR r)
  | .fscl x r => x.word m (extR r) (e5Of 0 false r.code)
  | .fexpo x => x.word m 0
  | .rcp x r => x.word m (extR r)
  | .rsq x r => x.word m (extR r)
  | .sqrt x r => x.word m (extR r)
  | .exp2 x r => x.word m (extR r)
  | .log2 x r => x.word m (extR r)
  | .sinpi x r => x.word m (extR r)
  | .cospi x r => x.word m (extR r)
  | .tanh x r => x.word m (extR r)
  | .fdiv x r => x.word m (extR r) (e5Of 0 false r.code)
  | .cvt h d a df sf s r => rWord h m d.code a.code 0 0 (extOf ((df.code ++ sf.code) ++ 0#1) 0 s r.code)
  | .cvtpk h d a b c df p s r =>
    rWord h m d.code a.code
      (match b with
       | some o => o.code
       | none => 0) c.code (extOf ((df.code ++ p) ++ 0#3) 0 s r.code)
  | .cvtunpk h d a dm sf e r => rWord h m d.code a.code 0 0 (extOf (((dm.code ++ sf.code) ++ e) ++ 0#1) 0 false r.code)
  | .mxsc x f => x.word m (extH (0#6 ++ f.code))
  | .ldG x => x.word m
  | .stG x => x.word m
  | .ldX x => x.word m
  | .stX x => x.word m
  | .pf h p b o => memWord h m 0 p.code 0 0 0 b o 0 0
  | .dsc h b o => memWord h m 0 0 0 0 0 b o 0 0
  | .fence h o sc => wordOf h m 0 0 0 o.code sc.code 0 0 (lowR 0 0 0)
  | .prom h sc d a => wordOf h m 0 Ty.b64.code 0 0 sc.code d.code a.code (lowR 0 0 0)
  | .lease h b o e => memWord h m 0 0 0 0 0 b o (extH (0#7 ++ e)) (0#1 ++ e)
  | .cadd h t r b o => memWord h m t.code 0 0 0 r.code b o 0 0
  | .cmin h t r b o => memWord h m t.code 0 0 0 r.code b o 0 0
  | .cmax h t r b o => memWord h m t.code 0 0 0 r.code b o 0 0
  | .atomAdd x => x.word m 0
  | .atomSub x => x.word m 0
  | .atomMin x => x.word m 0
  | .atomMax x => x.word m 0
  | .atomAnd x => x.word m 0
  | .atomOr x => x.word m 0
  | .atomXor x => x.word m 0
  | .atomXchg x => x.word m 0
  | .atomCas x c => x.word m c.code
  | .atomInc x => x.word m 0
  | .atomDec x => x.word m 0
  | .atomFadd x => x.word m 0
  | .copy h p out ch a b c s =>
    wordOf h m 0 0 p.code 0 0 s.code a.code (lowR b.code c.code (extH ((0#8 ++ bitOf out) ++ ch)))
  | .gath h p a b c => wordOf h m 0 0 p.code 0 0 0 a.code (lowR b.code c.code 0)
  | .scat h p a b c => wordOf h m 0 0 p.code 0 0 0 a.code (lowR b.code c.code 0)
  | .wait h k n => srcAWord h m 0 0 n (extH (0#9 ++ k.code)) (e5Of k.code false 0)
  | .waitp h ch t => srcAWord h m 0 0 t (extH (0#9 ++ ch)) (e5Of ch false 0)
  | .coll h t sc k op a b c =>
    wordOf h m 0 t.code 0 0 sc.code 0 a.code (lowR b.code c.code (extH ((0#6 ++ op.code) ++ k.code)))
  | .mwld h p a => wordOf h m 0 0 p.code 0 0 0 a.code (lowR 0 0 0)
  | .mpass h p a => wordOf h m 0 0 p.code 0 0 0 a.code (lowR 0 0 0)
  | .mtab h p a => wordOf h m 0 0 p.code 0 0 0 a.code (lowR 0 0 0)
  | .accld h d a col cnt => rWord h m d.code a.code 0 0 (extH (col ++ cnt))
  | .accst h d a col cnt => rWord h m d.code a.code 0 0 (extH (col ++ cnt))
  | .acczero h a cnt => rWord h m 0 a.code 0 0 (extH (0#8 ++ cnt))
  | .mstat h d k => wordOf h m 1 Ty.b64.code 0 0 0 d.code 0 (lowI 0 (0#30 ++ k))
  | .bar h sc b n => wordOf h m 1 0 0 0 sc.code 0 0 (lowI 0 (((0#18 ++ n) ++ 0#4) ++ b))
  | .barArr h sc d b n => wordOf h m 1 0 0 0 sc.code d.code 0 (lowI 0 (((0#18 ++ n) ++ 0#4) ++ b))
  | .barWt h sc a b => wordOf h m 1 0 0 0 sc.code 0 a.code (lowI 0 (0#28 ++ b))
  | .mbarInit h sc a b => wordOf h m 0 0 0 0 sc.code 0 a.code (lowR b.code 0 0)
  | .mbarArr h sc d a => wordOf h m 0 0 0 0 sc.code d.code a.code (lowR 0 0 0)
  | .mbarWt h sc a b => wordOf h m 0 0 0 0 sc.code 0 a.code (lowR b.code 0 0)
  | .qpush x => x.word m
  | .qpop x => x.word m
  | .dqPush x => x.word m
  | .dqPop x => x.word m
  | .dqSteal x => x.word m
  | .depDec x => x.word m
  | .launch h d a b => rWord h m d.code a.code b.code 0 0
  | .graphTrig h d a b c => rWord h m d.code a.code b.code c.code 0
  | _ => 0

/-- The decoder (R53 to R55), total on words. A word is an instruction when its fields name one, the instruction is
well formed, and every field it does not use is 0, which is to say that it is the very word the instruction encodes to. -/
def decodeWord (w : InsnWord) : Except Reject Instr :=
  match build w with
  | .error e => .error e
  | .ok i => if i.wf then (if encode i = w then .ok i else .error .ignoredFieldNotZero) else .error .illFormed

/-- Twelve bytes, the lowest address first, are bits [7:0], [15:8] and so on (R3, R34). -/
def wordOfBytes (bs : List Byte) : InsnWord := BitVec.ofNat 96 (bs.foldr (fun b acc => b.toNat + 256 * acc) 0)

/-- The bytes of a word, the lowest address first. -/
def bytesOfWord (w : InsnWord) : List Byte := (List.range 12).map fun i => w.extractLsb' (8 * i) 8

/-- The decoder on any bytes: the instruction and the bytes after it. -/
def decode (bs : List Byte) : Except Reject (Instr × List Byte) :=
  if bs.length < 12 then .error .tooFewBytes
  else (decodeWord (wordOfBytes (bs.take 12))).map fun i => (i, bs.drop 12)

/-- What the decoder reads from a word of the table's numbering; the bits above `nbits` are 0. -/
def decodeTableWord (nbits w : Nat) : Option Instr :=
  match decode (bytesOfWord (BitVec.ofNat 96 (w % 2 ^ nbits))) with
  | .ok (i, _) => some i
  | .error _ => none

end Sys2Proof
end

