-- ==== Sys2Proof/Machine/State.lean ====
section
/-! DEFINITION. What the machine holds, as plain data, and the machine right after a cold reset. -/
namespace Sys2Proof.Machine

/-- The 128 bytes of a line, byte 0 in bits [7:0] (R219). -/
abbrev Line := BitVec 1024
/-- Memory by local or global physical byte address; an unlisted byte reads 0 (R431 step 1; log entry 3, DESIGN CHOICE). -/
abbrev Memory := List Host.Cell

/-! ### Fibres, spans and faults -/

/-- A register as a thing that can be written: a vector register of some block, a scalar of a context, `%fp4x` of a context. -/
inductive RegRef where
  | vec (key : Nat)
  | sca (fib : Nat) (n : Nat)
  | fp4 (fib : Nat)
  deriving DecidableEq, Repr

/-- An undo entry (R184): the old value, in the lanes it still covers (R162). -/
structure UndoEnt where
  ref : RegRef
  oldV : Lanes
  oldS : DWord
  mask : Mask
  deriving DecidableEq, Repr

/-- What a hold entry does when it is released (R182). -/
inductive HoldKind where
  | stG
  | stX
  | accst (col : Nat) (cnt : Nat)
  | acczero (cnt : Nat)
  | dsc
  | tlbi (mode : TlbiMode) (sc : Scope) (a : DWord) (b : DWord)
  | mark (v : Word) (rgn : DWord)
  | sys
  /-- the VANISH record of a re-run span of a redundant pair: it stands after the span's entries, takes no place among the
  span's 48, and is posted when they are released (R272) -/
  | vanish (cls : Nat) (rgn : DWord) (start : DWord)
  deriving DecidableEq, Repr

/-- One lane of a hold entry: its address, its translation with the attributes of R393, and its data. -/
structure HoldLane where
  lane : Nat
  va : Nat
  pa : Nat
  trk : Bool
  pol : CPol
  comm : Option Nat
  bytes : List Byte
  deriving DecidableEq, Repr

/-- A hold entry; `lanes` are those not yet released; `remap`: translate again at release (R400); `since`: of an entry
that is being released, its number: requests numbered below it are older (R213), and its bytes are of this store (R61); 0 before. -/
structure HoldEnt where
  kind : HoldKind
  pc : DWord
  mask : Mask
  lanes : List HoldLane
  ord : Order
  sc : Scope
  remap : Bool
  since : Nat := 0
  /-- accumulator elements of the first lane that are released already (R324, R334) -/
  pos : Nat := 0
  deriving DecidableEq, Repr

/-- An open split (R158); `parent` is the context of the piece that was the parent, 8 once that piece is gone (R161); `committed`: the piece that holds this copy
has passed a commit point since the split (R162). -/
structure Split where
  id : Nat
  tok : BitVec 5
  lanes : Mask
  parent : Nat
  committed : Bool
  deriving DecidableEq, Repr

/-- A region stack entry (R175). -/
structure Region where
  id : BitVec 16
  idem : Bool
  entry : DWord
  deriving DecidableEq, Repr

/-- What a fibre, or a half of one, waits for (R147). -/
inductive Wait where
  | none
  | join (split : Nat) (pc : DWord)
  | fbar (m : BitVec 8) (pc : DWord)
  | park (pa : Nat) (va : Nat) (wt : Option Nat) (next : DWord)
  | wclaim (slot : Nat)
  | wait (cls : OcClass) (n : DWord)
  | waitp (ch : Nat) (t : DWord)
  | bar (b : Nat) (gen : Nat)
  | barAgain (b : Nat)
  /-- a piece that has executed the barrier instruction at `pc`, which its family has not all executed (R295); `dst`: of
  `bar.arr` -/
  | barJoin (b : Nat) (n : Nat) (dst : Option Opnd) (pc : DWord)
  | barWt (b : Nat) (tok : Nat)
  | mbarWt (pa : Nat) (wt : Option Nat)
  deriving DecidableEq, Repr

/-- A half of a fibre divided in place (R163). -/
structure Half where
  mask : Mask
  pc : DWord
  splits : List Split
  wait : Wait
  deriving DecidableEq, Repr

/-- A precise fault before it is delivered (R188, R193, R440). -/
structure FaultInfo where
  cls : Nat
  pc : DWord
  /-- position of the instruction in its span (SPOS) -/
  pos : Nat
  mask : Mask
  addrs : List (Nat × Nat)
  acc : Nat
  decode : Bool
  retry : Bool
  /-- destination, with its number of 32-bit registers -/
  dst : Option (Opnd × Nat)
  code : BitVec 16
  /-- class whose handler entry failed (R381), else 0 -/
  replaced : Nat
  deriving DecidableEq, Repr

/-- What a handled fault keeps (R193, R194, R209). -/
structure Handling where
  s60 : DWord
  s61 : DWord
  s62 : DWord
  s63 : DWord
  amask : Mask
  resume : DWord
  tmask : Mask
  tpc : DWord
  word : DWord
  addrs : List (Nat × Nat)
  dst : Option (Opnd × Nat)
  code : BitVec 16
  atSpeed : Nat
  spanStart : DWord
  deriving DecidableEq, Repr

/-- Why a fibre is frozen (R147), besides a debugger halt. -/
inductive Frozen where
  | no
  /-- refused commit, before and at the gate (R187); the line's write tide when the gate word last read 0 -/
  | gated (wt : Option Nat)
  /-- a precise fault with the resident kernel (R197) -/
  | resident (f : FaultInfo) (nest : Bool)
  deriving DecidableEq, Repr

/-- The open span of a fibre (R179). -/
structure Span where
  start : DWord
  count : Nat
  limit : Nat
  nextLimit : Nat
  rgn : DWord
  /-- the halves at the span's start, the running one first (R187, R190) -/
  entry : List Half
  hold : List HoldEnt
  undo : List UndoEnt
  /-- at-speed class once a span fault is latched (R185) -/
  faulted : Option Nat
  /-- forced pilot gear at the span's start (R218) -/
  forced0 : Option Nat
  /-- `brk` mark (R208): address, tag, position -/
  brk : Option (DWord × BitVec 16 × Nat)
  /-- loads of commit-point instructions that stand between the span before it and this one (R417) -/
  load0 : Nat
  /-- the handler in which the span started, and `s60` to `s63` as they were then (R190, R194) -/
  hnd0 : Option Handling
  s6x : List DWord
  /-- register-block slots that the span's instructions gave up (`false`) or took (`true`), newest first (R190) -/
  blk : List (Nat × Bool)
  deriving DecidableEq, Repr

/-- Pilot gear (R188, R218); `cls`, `start`, `rgn`: of the faulted span it re-runs, for VANISH (R189). -/
structure Pilot where
  on : Bool
  forced : Option Nat
  cls : Nat
  /-- a fault has been met, so no VANISH follows -/
  met : Bool
  deriving DecidableEq, Repr

/-- A translation delivered to a waiting access (R395, R396): the leaf entry, or the class of the failure. -/
structure Xlat where
  vpn : Nat
  cls : Nat
  level : Nat
  pte : DWord
  deriving DecidableEq, Repr

/-- One lane of an operation that completes in parts: a load, a home operation. -/
structure OpLane where
  lane : Nat
  va : Nat
  pa : Nat
  trk : Bool
  pol : CPol
  comm : Option Nat
  /-- bytes taken from held stores, by byte of the access (R182) -/
  fwd : List (Option Byte)
  b : Nat
  c : Nat
  deriving DecidableEq, Repr

/-- A commit-point operation in progress (R180): lanes still to perform, results so far, and its step. -/
structure OpRun where
  pc : DWord
  stage : Nat
  lanes : List OpLane
  got : List (Nat × Nat)
  /-- lanes whose access failed, with the class -/
  bad : List (Nat × Nat)
  aux : Nat
  rcd : Record
  /-- the address the operation acts on, kept from its translation (R305, R366), and its virtual address -/
  pa : Option Nat := none
  va : Nat := 0
  /-- a `tlbi` that has not completed has dropped a translation that it uses (R400) -/
  old : Bool := false
  /-- the number of a store (R61) -/
  stamp : Nat := 0
  deriving DecidableEq, Repr

/-- A long-latency result not yet written (R151). Its destination registers are empty. -/
structure Pend where
  id : Nat
  core : Nat
  berth : Nat
  fib : Nat
  root : Nat
  pc : DWord
  pos : Nat
  dst : Opnd
  refs : List RegRef
  mask : Mask
  scalar : Bool
  ty : Ty
  /-- bytes of each access -/
  size : Nat
  /-- lanes not yet performed (R186) -/
  lanes : List OpLane
  /-- lines for which a request is out -/
  asked : List Nat
  /-- issued in pilot gear (R188) -/
  pilot : Bool
  /-- `ld.x`: its lanes name scratch bytes (R30) -/
  scratch : Bool
  /-- `accld`: its lanes name elements, row in `va`, column in `pa`, place in the result in `b` (R324, R333) -/
  acc : Bool := false
  /-- raw values obtained, by lane -/
  vals : List (Nat × Nat)
  /-- lanes whose access failed, with the class and the address -/
  bad : List (Nat × Nat × Nat)
  acq : Bool
  /-- lanes in which a watch fires once the value is written (R424) -/
  wat : List (Nat × Nat)
  /-- a class raised once the value is written (R188), with its lanes -/
  post : Option (Nat × Mask)
  /-- a global load: 1 + its index in its span (R417); else 0 -/
  seq : Nat
  deriving DecidableEq, Repr

/-- Matrix status (R335). -/
structure MStat where
  word : DWord
  addr : DWord
  fail : DWord
  steps : DWord
  deriving DecidableEq, Repr

/-- A failed engine command that awaits its report (R281, R327, R414): its number in its class within the fibre, its failing
address; `late`: to be reported whatever count a `wait` names. -/
structure EngFail where
  cls : OcClass
  num : Nat
  va : Nat
  late : Bool
  st : MStat
  deriving DecidableEq, Repr

/-- An ended span of a redundant pair that has not been compared (R201); `own`: a commit-point instruction that
forms a span of its own, not yet performed. -/
structure Uncompared where
  no : Nat
  sig : Word
  own : Bool
  span : Span
  regions : List Region
  /-- it was run in pilot gear -/
  pilot : Bool
  /-- the class of the fault of the span that this one re-ran without a fault, for VANISH (R189, R272); else 0 -/
  vcls : Nat
  deriving DecidableEq, Repr

/-- A copy of a redundant pair (R199 to R203, R416 to R418). -/
structure Dual where
  lead : Bool
  core : Nat
  berth : Nat
  fib : Nat
  mism : Nat
  unc : List Uncompared
  /-- load values of the leader by span number and index (R417) -/
  loads : List (Nat × Nat × List (Nat × Nat))
  nload : Nat
  /-- own spans compared equal and not yet performed; results forwarded by the leader, by span number -/
  cleared : List Nat
  results : List (Nat × List (Nat × Nat) × Nat)
  /-- spans that the other copy found faulted before this copy has reached them, with the class: this copy takes them as
  faulted too (R202) -/
  pil : List (Nat × Nat)
  deriving DecidableEq, Repr

/-- Debugger state of a fibre (R422, R423). -/
structure Dbg where
  halted : Bool
  /-- 0 none, 1 halt pending, 3 at a region edge -/
  want : Nat
  step : Bool
  /-- a precise fault whose handler entry waits for the resume (R377) -/
  fault : Option FaultInfo
  /-- the instruction of a step has issued, and its result is still outstanding (R423) -/
  ended : Bool := false
  deriving DecidableEq, Repr

/-- A scalar held store of the piece that a fragment was detached from, which the fragment's loads see while that piece holds it
(R162, R182): the piece's context and span, which of its scalar entries, and how many entries of the fragment came before it. -/
structure Elder where
  fib : Nat
  no : Nat
  idx : Nat
  pos : Nat
  deriving DecidableEq, Repr

/-- A fibre context that holds a fibre (R146, R147). -/
structure Fibre where
  grp : Nat
  root : Nat
  pc : DWord
  amask : Mask
  splits : List Split
  halves : List Half
  halfCount : Nat
  scal : Tab DWord
  fp4x : BitVec 16
  regions : List Region
  span : Span
  /-- number of the open span (R416) -/
  spanNo : Nat
  /-- a commit is releasing its entries (R181) -/
  committing : Bool
  /-- held entries being released in order (R183) -/
  relq : List HoldEnt
  /-- the entry at the head has a request out -/
  relWait : Bool
  pilot : Pilot
  hnd : Option Handling
  fetched : Option (DWord × InsnWord)
  /-- the fetched instruction reads a register that is empty under a trap bit: it raises EMPTY once older results are written
  (R48, R56) -/
  emptyAt : Bool
  xlat : List Xlat
  op : Option OpRun
  wait : Wait
  froz : Frozen
  /-- the save of its group found it waiting or frozen: it stays so whatever happens (R284) -/
  stop : Bool
  dbg : Dbg
  /-- event records that wait for room (R364) -/
  events : List Record
  oc : List Nat
  /-- commands issued, by class -/
  issued : List Nat
  fails : List EngFail
  mstat : MStat
  readySince : Nat
  /-- line, consecutive hits and cycle of the first (R227) -/
  spin : Nat × Nat × Nat
  scf : Bool
  dual : Option Dual
  elders : List Elder
  /-- cycle of the last probe of a line that it waits on (R228) -/
  probed : Nat
  deriving DecidableEq, Repr

/-- A berth (R148, R149). -/
structure Berth where
  cur : Nat
  run : Nat
  /-- fibre barriers: mask, and the contexts that have arrived (R171) -/
  fbars : List (BitVec 8 × List Nat)
  /-- holder (root context) of the shared block of each slot, 8 when free (R156) -/
  holder : List Nat
  /-- addresses of the `exit` of ended contexts (R147) -/
  exits : Tab DWord
  /-- the last instruction issued: its cycle, its address and its context, 8 for none -/
  lastIssue : Nat × DWord
  lastFib : Nat
  /-- logged operations of the fibres, by root context (R427) -/
  ords : Tab Nat
  deriving DecidableEq, Repr

/-! ### Memory -/

/-- An L1 copy (R219). -/
structure Copy where
  owned : Bool
  data : Line
  wt : Nat
  lt : Nat
  dirty : BitVec 4
  deriving DecidableEq, Repr

/-- One element of an exact partial (R234). -/
structure PElem where
  sum : Int
  pinf : Bool
  ninf : Bool
  nan : Bool
  negz : Bool
  deriving DecidableEq, Repr

/-- Partials of one line by byte offset, for one commutative operation. -/
structure Part where
  cop : Nat
  elems : Tab PElem
  deriving DecidableEq, Repr

/-- A home's record of a line (R220); `owner`: core and grant tide; `slots` by module x 1024 + core. -/
structure Home where
  wt : Nat
  hl : Nat
  owner : Option (Nat × Nat)
  slots : Tab Part
  /-- a recall or a port read is outstanding for the line -/
  busy : Bool
  deriving DecidableEq, Repr

/-- A cached translation (R396): level of the leaf, first virtual page number VA[59:16], entry. -/
structure TlbEnt where
  cid : Nat
  vpn : Nat
  level : Nat
  pte : DWord
  deriving DecidableEq, Repr

/-- A walk or a queued miss (R397), with the places that wait on it. -/
structure Walk where
  cid : Nat
  vpn : Nat
  misses : List Place
  deriving DecidableEq, Repr

/-- A copy channel (R279, R280). -/
structure Chan where
  count : Nat
  queue : List Nat
  deriving DecidableEq, Repr

/-- A core (R23, R221). -/
structure Core where
  ctide : Nat
  lastClock : Nat
  base : Nat
  l1 : Tab Copy
  parts : Tab Part
  tlb : List TlbEnt
  chans : List Chan
  gathq : List Nat
  deriving DecidableEq, Repr

/-- An entry of a frequency log (R32). -/
structure FLog where
  fmul : Nat
  cyc0 : Nat
  time0 : Nat
  deriving DecidableEq, Repr

/-- A compute die (R31, R32, R396). -/
structure Die where
  running : Bool
  /-- new frequency and first cycle, while the PLL relocks -/
  relock : Option (Nat × Nat)
  log : List FLog
  logCount : Nat
  cache : List TlbEnt
  walks : List Walk
  missq : List Walk
  deriving DecidableEq, Repr

/-- What a request asks of a home (R27). -/
inductive HomeOp where
  | lease (wt : Option Nat) (len : Nat)
  | own
  | load (n : Nat)
  | store (bytes : List Byte)
  | atomic (major : Nat) (t : Ty) (lane : Nat) (pc : DWord) (b : Nat) (c : Nat)
  | part (src : Nat) (p : Part)
  | probe
  | mbarInit (n : Nat)
  | mbarArr
  | mbarRead
  | queue (major : Nat) (rcd : Record)
  | dep
  | depRec (qpa : Nat) (rcd : Record) (run : Option Nat)
  | prom (victim : Nat) (sc : Scope)
  | tlbi (mode : TlbiMode) (a b : DWord)
  deriving DecidableEq, Repr

/-- For whom a request was made. -/
inductive Cont where
  | drop
  | pend (id : Nat)
  | fill (core : Nat)
  | hold (p : Place)
  | op (p : Place)
  | park (p : Place)
  | gate (p : Place)
  | far (owner : Nat)
  /-- a write of an engine command, at a virtual address (R281, R407) -/
  | eng (id : Nat) (va : Nat)
  /-- the increment of an instance's completion word (R342) -/
  | done (cid : Nat) (inst : Nat) (addr : Nat)
  /-- a write of a group's save area, at a virtual address (R287) -/
  | save (g : Nat) (va : Nat)
  /-- the write of a trace record of a context (R420) -/
  | trace (cid : Nat)
  deriving DecidableEq, Repr

/-- What a home answered. -/
structure Answer where
  data : List Byte
  wt : Nat
  lt : Nat
  status : Nat
  /-- fault class, 0 for none -/
  cls : Nat
  deriving DecidableEq, Repr

/-- A request on its way to a home, or being served there. -/
structure Req where
  id : Nat
  core : Nat
  cid : Nat
  pa : Nat
  clk : Nat
  op : HomeOp
  cont : Cont
  sent : Nat
  /-- the memory behind the port has been read for it -/
  port : Bool
  /-- who issued it, for the replay log (R427): instance, linear group index, berth, root, ordinal -/
  tag : Nat × Nat × Nat × Nat × Nat
  held : Nat
  /-- the store that it is part of, by number (R61) -/
  stamp : Nat := 0
  /-- of a queue operation: the scope of a push that releases, or of a take that acquires (R361) -/
  sy : Option Scope := none
  deriving DecidableEq, Repr

/-- An answer on its way back. -/
structure Reply where
  id : Nat
  req : Req
  ans : Answer
  deriving DecidableEq, Repr

/-- A recall on its way to an L1, or its answer on the way back (R224). -/
structure Recall where
  id : Nat
  core : Nat
  line : Nat
  grant : Nat
  answered : Bool
  data : Option (Line × BitVec 4)
  /-- the ownership has ended otherwise: the answer changes nothing at the home -/
  ended : Bool := false
  deriving DecidableEq, Repr

/-- A line of a peer or port range gathered for a step that needs it whole (R26, R232). -/
structure Far where
  owner : Nat
  line : Nat
  data : Option Line
  cls : Nat
  /-- the tides of a lease (R310) -/
  wt : Nat := 0
  lt : Nat := 0
  deriving DecidableEq, Repr

/-- A slice (R225, R427). -/
structure Slice where
  base : Nat
  logged : Tab Nat
  /-- contexts served in arrival order after a divergence or the end of the log (R428) -/
  free : List Nat
  deriving DecidableEq, Repr

/-! ### Queues -/

/-- A record in a wharf: held on a counter or ready; the graph run it belongs to; the clock of the core that pushed it (R344); of a
push that releases, the core and the scope, which an acquiring take observes where the pair is inclusive (R246, R361). -/
structure QRec where
  rcd : Record
  held : Option Nat
  run : Option Nat
  clk : Nat
  sy : Option (Nat × Scope) := none
  deriving DecidableEq, Repr

/-- An open queue (R352 to R355); `resv`: places at each slice taken from
the context's reservation. -/
structure Queue where
  cid : Nat
  kind : Nat
  lcap : Nat
  cursor : Nat
  resv : Tab Nat
  wharves : Tab (List QRec)
  deriving DecidableEq, Repr

/-! ### Groups, instances, engines -/

/-- A group barrier (R294): generation, expected count, arrivals (berth x 8 + root), folds. -/
structure GBar where
  gen : Nat
  expect : Option Nat
  arrived : List Nat
  folds : List (Nat × DWord)
  deriving DecidableEq, Repr

inductive GState where
  | waiting | placed | draining | saving | flushing | saved | retired
  deriving DecidableEq, Repr

/-- A group (R276). `kept` and `regs` hold its fibres and registers while it is saved. -/
structure Group where
  inst : Nat
  index : Nat
  core : Nat
  berths : List Nat
  st : GState
  since : Nat
  scratch : Memory
  acc : Tab Word
  bars : List GBar
  cbase : List Int
  partner : Option Nat
  lead : Bool
  kept : List (Nat × Nat × Fibre)
  keptBerths : List Berth
  regs : Tab Lanes
  slot : Option Nat
  /-- class and address of a write of its save that failed after it was sent (R287) -/
  saveErr : Option (Nat × Nat)
  /-- positions and contexts of the kept fibres that are marked for restart (R285, R287) -/
  marked : List (Nat × Nat)
  /-- registers that are empty, while it is saved -/
  emptied : List RegRef
  /-- a pre-emption that waits for the debugger (R378) -/
  deferred : Bool
  deriving DecidableEq, Repr

inductive IState where
  | queued | placing | placed | killed
  deriving DecidableEq, Repr

/-- A kernel instance that has not retired nor been refused (R341). `daddr`: address of its descriptor. `code` is memory as it stood at the launch (R61); `clk` is the clock its fibres start with, `endClk` the
largest clock at which one of its groups has ended (R342, R344). -/
structure Inst where
  cid : Nat
  daddr : Nat
  desc : BitVec 1024
  st : IState
  next : Nat
  run : Option Nat
  seq : Nat
  iord : Nat
  code : Memory
  clk : Nat
  endClk : Nat
  deriving DecidableEq, Repr

/-- A copy, gather, scatter or collective command (R279, R291, R410). -/
structure Cmd where
  id : Nat
  cls : OcClass
  core : Nat
  berth : Nat
  fib : Nat
  grp : Nat
  cid : Nat
  pol : CPol
  out : Bool
  ch : Nat
  xa : Nat
  ga : Nat
  nb : Nat
  rows : Nat
  stride : Nat
  lanes : List (Nat × Nat)
  /-- a collective: type, scope, kind, operation, communicator, root, its number on the communicator, clock at issue -/
  ty : Ty
  kind : CollKind
  cop : CollOp
  comm : Nat
  root : Nat
  seq : Nat
  clk : Nat
  res : List Nat
  /-- 4-byte units moved -/
  pos : Nat
  /-- its number in its class within the fibre -/
  num : Nat
  /-- in a trailing copy: the leader's command, which this one follows (R201) -/
  of : Option Nat
  begun : Bool
  done : Bool
  counted : Bool
  /-- failing global address of an abandoned command -/
  fail : Option Nat
  deriving DecidableEq, Repr

/-- A tile parsed (R311, R312): its format, whether it carries scales, its scales, and the blocks (mask and packed bits) by k. -/
structure Tile where
  fmt : Nat
  mx : Bool
  scales : List Byte
  blocks : List (Nat × Nat)
  deriving DecidableEq, Repr

/-- A matrix step under way (R316): its tile, the rows of its mask with the activations and scales that were read, the K-groups that
are added, the failure beyond them (class, address, operand), and the elements accumulated so far. -/
structure MStep where
  tile : Tile
  rows : List (Nat × List Byte × List Byte)
  gmax : Nat
  fail : Option (Nat × Nat × Nat)
  pos : Nat
  deriving DecidableEq, Repr

/-- A reservation table entry (R321). -/
structure MEnt where
  id : Nat
  kind : Nat
  core : Nat
  berth : Nat
  fib : Nat
  grp : Nat
  cid : Nat
  prio : Nat
  pol : CPol
  card : BitVec 1024
  addr : Nat
  mask : Mask
  fill : Nat
  lastRun : Nat
  aged : Bool
  pos : Nat
  kgrp : Nat
  num : Nat
  begun : Bool
  part : Option MStep
  done : Bool
  fail : Option (Nat × Nat × Nat)
  deriving DecidableEq, Repr

/-- A weight plane (R309): tile address, context, lowest lease tide, largest write tide, tile bytes. -/
structure Plane where
  va : Nat
  cid : Nat
  lt : Nat
  wt : Nat
  tile : List Byte
  deriving DecidableEq, Repr

/-- A line of the weight buffer (R310). -/
structure WLine where
  cid : Nat
  tile : Nat
  va : Nat
  lt : Nat
  wt : Nat
  data : Line
  /-- of a peer: no policy changes how it is read (R230) -/
  far : Bool := false
  deriving DecidableEq, Repr

/-- A quay's matrix engine (R309, R321, R322). -/
structure Quay where
  ents : Tab MEnt
  run : Option Nat
  steps : Nat
  planes : List Plane
  buf : List WLine
  deriving DecidableEq, Repr

/-- A graph slot (R345). -/
structure Slot where
  cid : Option Nat
  recs : List Record
  refused : Nat
  deriving DecidableEq, Repr

/-- A graph run (R347): the records still to be placed, and those not yet ended. -/
structure Run where
  id : Nat
  slot : Nat
  cid : Nat
  todo : List Record
  live : Nat
  clk : Nat
  deriving DecidableEq, Repr

/-! ### Contexts -/

/-- A context (R368 to R386); states coded as R385, 7 while its last groups retire. -/
structure Ctx where
  st : Nat
  prev : Nat
  froot : Nat
  cbaddr : Nat
  /-- physical addresses of the open task and event queues' headers -/
  tq : Option Nat
  eq : Option Nat
  block : BitVec 2048
  /-- the stored CRC field of the registry entry, exclusive or the CRC of its bits: 0 while they match (R385) -/
  crcErr : Word
  handlers : List (DWord × DWord)
  silence : Nat
  fired : Bool
  sliceStart : Nat
  slots : List Nat
  iord : Nat
  lost : Nat
  trLost : Nat
  sampleAt : Nat
  lastSample : Nat
  noPreempt : List Nat
  /-- contexts of equal priority that waited when its slice ended, and have had no group placed since (R375) -/
  after : List Nat
  /-- trace records whose writes to a peer's ring are not yet acknowledged, the first one's under way (R420) -/
  trq : List Record
  deriving DecidableEq, Repr

/-- A gang slice (R376); `first`: the gang waits for its slice to start, as at first it does. -/
structure Gang where
  start : Option Nat
  placed : Bool
  onTime : Bool
  packets : List Nat
  first : Bool
  deriving DecidableEq, Repr

/-- Dumps (R382, R383). -/
structure Dumps where
  queue : List Nat
  cur : Option Nat
  seq : Nat
  started : Nat
  second : Tab (List Record)
  deriving DecidableEq, Repr

/-! ### Links, boot -/

/-- A flit in a replay buffer (R402). -/
structure Flit where
  seq : Nat
  dst : Nat
  pa : Nat
  resends : Nat
  deriving DecidableEq, Repr

/-- A Willon link (R402 to R405). -/
structure Link where
  st : Nat
  width : Nat
  peer : Nat
  resent : Nat
  txSeq : Nat
  replay : List Flit
  rxSeq : Nat
  /-- destination and line address of the flits in the receive buffer, and of the packets that wait to be sent -/
  rxq : List (Nat × Nat)
  txq : List (Nat × Nat)
  stopSent : Bool
  stopped : Bool
  since : Nat
  deriving DecidableEq, Repr

/-- Boot, life cycle, heartbeat (R384, R431 to R435). -/
structure Boot where
  stage : Nat
  bfail : Bool
  fwver : Word
  wcount : Nat
  wreq : Bool
  meas : BitVec 256
  lcs : BitVec 2
  keyNo : Nat
  crashed : Bool
  /-- when the resident kernel started -/
  kstart : Nat
  lastBeat : Option Nat
  warm : Bool
  lastQuote : List Byte
  /-- a change of life-cycle state has not finished its boot -/
  lcBusy : Bool
  /-- the image that the boot ROM finds in flash, and one written since that the next cold reset takes up (R431) -/
  flash : Option (List Byte)
  update : Option (List Byte)
  deriving DecidableEq, Repr

/-! ### The schedule -/

/-- A choice of the world outside the model about what moves next (log entry 1, DESIGN CHOICE). -/
inductive Action where
  | issue (core : Nat) (berth : Nat)
  | event (i : Instr)
  /-- an L1 gives a copy up (R224) -/
  | evict (core : Nat) (line : Nat)
  /-- a core's partials are sent (R234) -/
  | sendParts (core : Nat) (line : Nat)
  /-- the spill area of a slice is full: it collects a line (R234, R235) -/
  | spillFull (line : Nat)
  /-- a translation is replaced (R396) -/
  | dropTlb (core : Nat)
  /-- an uncorrectable memory error appears in a line, or is gone (log entry 9, DESIGN CHOICE) -/
  | memError (line : Nat) (present : Bool)
  /-- the memory behind the host or CXL port changes (R26) -/
  | outside (pa : Nat) (bytes : List Byte)
  /-- the resident kernel uploads a graph into a free slot (R345) -/
  | upload (slot : Nat) (cid : Nat) (recs : List Record)
  /-- a registry entry or telemetry changes without a step of the table (R386, R438) -/
  | sensor (pa : Nat) (v : DWord)
  /-- the resident kernel writes a firmware update to flash (R431) -/
  | flash (image : List Byte)
  /-- the resident kernel sets the window of the HBM that the host port exposes (R409) -/
  | hostWindow (base size : Nat)
  /-- the resident kernel opens registers to the host, or closes those it has opened (R409) -/
  | openRegs (pa size : Nat)
  | closeRegs
  deriving DecidableEq, Repr

/-- One turn: ticks of the reference timer that pass, then an action. -/
structure Turn where
  dt : Nat
  act : Action
  deriving DecidableEq, Repr

/-- The whole module. -/
structure State where
  mem : Memory
  time : Nat
  /-- no turn has been taken yet in the present tick of the timer (R31) -/
  tickStart : Bool
  /-- compute dies in which the turn under way has acted (R31) -/
  crossed : List Nat
  dies : Tab Die
  cores : Tab Core
  berths : Tab Berth
  fibres : Tab Fibre
  vregs : Tab Lanes
  pends : List Pend
  homes : Tab Home
  slices : Tab Slice
  errLines : List Nat
  /-- by physical address in own memory: the number of the store that last wrote the byte, 0 where none has (R61) -/
  stamps : Tab Nat
  reqs : List Req
  replies : List Reply
  recalls : List Recall
  far : List Far
  unreach : List Nat
  /-- the largest write tide that a host write has been given (R344) -/
  hostTide : Nat
  queues : Tab Queue
  groups : Tab Group
  insts : Tab Inst
  cmds : List Cmd
  quays : Tab Quay
  slotTab : Tab Slot
  /-- triggers not yet taken up: slot, number of patches, and the patch entries as they stood at the trigger (R347) -/
  trigs : List (Nat × Nat × List (Nat × Nat))
  runs : List Run
  ctxs : Tab Ctx
  /-- the context command that has not completed (R371) -/
  cmd : Option Instr
  gangs : Tab Gang
  dumps : Dumps
  links : Tab Link
  /-- addresses of the packets that the links have delivered to this module and that have not been taken up (R402, R406) -/
  inbox : List Nat
  collCount : Tab Nat
  /-- registers that a restored fibre record says are empty (R287, R430) -/
  emptied : List RegRef
  /-- plain read-write registers by address, 8 bytes each (R439) -/
  regs : Tab DWord
  boot : Boot
  /-- the window of the HBM that the host port exposes: base and size; and the registers that BAR 0 maps: address and bytes (R409) -/
  hostWin : Nat × Nat
  hostRegs : List (Nat × Nat)
  modNo : Nat
  cxlSize : Nat
  nextId : Nat
  nextInst : Nat
  nextSeq : Nat
  /-- index of the next free value (log entry 8, DESIGN CHOICE) -/
  freeAt : Nat
  /-- where an instruction word executes -/
  here : Place
  focus : Nat × Nat
  sched : List Turn
  agenda : List Instr
  deriving DecidableEq, Repr

/-- No meaning stops the machine with a fault: every fault of the spec is taken as a next state. -/
inductive Fault : Type
  deriving DecidableEq, Repr

/-- Why a meaning is missing. -/
inductive Refusal where
  /-- raised by an arm of `exec` whose instruction has no meaning yet; safe: nothing can be proved about it -/
  | notModelled (mnemonic : String)
  deriving DecidableEq, Repr

/-! ### After a cold reset -/

def Chan.init : Chan := { count := 0, queue := [] }

/-- A core of which nothing is known (R221, R280, R396; tide and base: log entry 4, DESIGN CHOICE). -/
def Core.init : Core :=
  { ctide := 0, lastClock := 0, base := 0, l1 := [], parts := [], tlb := [], chans := List.replicate 4 Chan.init, gathq := [] }

def Berth.init : Berth :=
  { cur := 0, run := 0, fbars := [], holder := List.replicate 16 8, exits := [], lastIssue := (0, 0), lastFib := 8, ords := [] }

/-- The die's clock has not run (R32, R431 step 7). -/
def Die.init : Die := { running := false, relock := none, log := [], logCount := 0, cache := [], walks := [], missq := [] }

def Slice.init : Slice := { base := 0, logged := [], free := [] }
def Quay.init : Quay := { ents := [], run := none, steps := 0, planes := [], buf := [] }
def Slot.init : Slot := { cid := none, recs := [], refused := 0 }
def Link.init : Link :=
  { st := 0, width := 0, peer := 0, resent := 0, txSeq := 0, replay := [], rxSeq := 0, rxq := [], txq := [], stopSent := false,
    stopped := false, since := 0 }
def Gang.init : Gang := { start := none, placed := false, onTime := false, packets := [], first := true }
def Dumps.init : Dumps := { queue := [], cur := none, seq := 0, started := 0, second := [] }
def Boot.init : Boot :=
  { stage := 0, bfail := false, fwver := 0, wcount := 0, wreq := false, meas := 0, lcs := 0, keyNo := 0, crashed := false,
    kstart := 0, lastBeat := none, warm := false, lastQuote := [], lcBusy := false, flash := none, update := none }

/-- Registers of the power block whose reset value is not 0 (R438): PLIMIT 15,000 and FREQ 33 of every die. -/
def resetRegs : Tab DWord :=
  (0x010000690000, 15000) :: (List.range 8).map fun d => (0x010000690008 + 8 * d, 33)

/-- The graph slots (R346), which BAR 0 maps (R409). -/
def slotRegs : List (Nat × Nat) := [(0x010000100000, 0x400000)]

/-- The module right after a cold reset (R431), before the boot ROM has read anything: memory zero, the compute dies held
in reset, no context, no group, every register at the value of its Reset column (R5). -/
def State.reset : State :=
  { mem := [], time := 0, tickStart := true, crossed := [], dies := [], cores := [], berths := [], fibres := [], vregs := [], pends := [], homes := [], slices := [],
    errLines := [], stamps := [], reqs := [], replies := [], recalls := [], far := [], unreach := [], hostTide := 0, queues := [], groups := [], insts := [],
    cmds := [], quays := [], slotTab := [], trigs := [], runs := [], ctxs := [], cmd := none, gangs := [], dumps := Dumps.init, links := [], inbox := [], collCount := [], emptied := [],
    regs := resetRegs, boot := Boot.init, hostWin := (0, 0), hostRegs := slotRegs, modNo := 0, cxlSize := 0, nextId := 1, nextInst := 1, nextSeq := 1, freeAt := 0,
    here := { core := 0, berth := 0, fib := 0 }, focus := (0, 0), sched := [], agenda := [] }

end Sys2Proof.Machine
end

