-- ==== Sys2Proof/Machine/Tab.lean ====
section
/-! DEFINITION. Sparse tables in canonical form: keys strictly rising, and no entry equal to what an absent key reads as. -/
namespace Sys2Proof.Machine

/-- What key `k` reads as; `d` where the table does not list it. -/
def tget {α : Type} (d : α) : Tab α → Nat → α
  | [], _ => d
  | (a, v) :: t, k => if a = k then v else tget d t k

/-- Write key `k`; writing what an absent key reads as removes the entry. -/
def tset {α : Type} [DecidableEq α] (d : α) : Tab α → Nat → α → Tab α
  | [], k, v => if v = d then [] else [(k, v)]
  | (a, w) :: t, k, v =>
    if k < a then (if v = d then (a, w) :: t else (k, v) :: (a, w) :: t)
    else if k = a then (if v = d then t else (k, v) :: t)
    else (a, w) :: tset d t k v

/-- The object stored at a key, if any. -/
def tfind {α : Type} : Tab α → Nat → Option α
  | [], _ => none
  | (a, v) :: t, k => if a = k then some v else tfind t k

/-- Store an object at a key. -/
def tput {α : Type} : Tab α → Nat → α → Tab α
  | [], k, v => [(k, v)]
  | (a, w) :: t, k, v => if k < a then (k, v) :: (a, w) :: t else if k = a then (k, v) :: t else (a, w) :: tput t k v

/-- Remove the object at a key. -/
def tdel {α : Type} : Tab α → Nat → Tab α
  | [], _ => []
  | (a, w) :: t, k => if a = k then t else (a, w) :: tdel t k

/-- Keys rise strictly and no entry is the default. -/
def tabWf {α : Type} [DecidableEq α] (d : α) : Tab α → Bool
  | [] => true
  | [(_, v)] => v != d
  | (a, v) :: (b, w) :: t => a < b && v != d && tabWf d ((b, w) :: t)

/-- Keys rise strictly. -/
def tabRises {α : Type} : Tab α → Bool
  | [] => true
  | [_] => true
  | (a, _) :: (b, w) :: t => a < b && tabRises ((b, w) :: t)

/-- The first element of a list that meets a test, and the list without it. -/
def pick {α : Type} (p : α → Bool) : List α → Option (α × List α)
  | [] => none
  | x :: t =>
    if p x then some (x, t)
    else match pick p t with
      | some (y, r) => some (y, x :: r)
      | none => none

/-- Replace the first element that meets a test. -/
def swapFirst {α : Type} (p : α → Bool) (y : α) : List α → List α
  | [] => []
  | x :: t => if p x then y :: t else x :: swapFirst p y t

end Sys2Proof.Machine
end

