-- ==== Sys2Proof/Machine/Operands.lean ====
section
/-! DEFINITION. Places, kernel descriptors, registers as operands read them (R36 to R52), and which registers an instruction
reads and writes. -/
namespace Sys2Proof.Machine

/-! ### Places (R24) -/

def bkey (core berth : Nat) : Nat := core * 4 + berth
def pkey (p : Place) : Nat := bkey p.core p.berth * 8 + p.fib
def placeOf (k : Nat) : Place := { core := k / 32, berth := k / 8 % 4, fib := k % 8 }
def dieOf (core : Nat) : Nat := core / 128
def quayOf (core : Nat) : Nat := core / 4

/-- PLACE as records carry it (R363): module, die, core, berth, fibre context. -/
def placeWord (s : State) (p : Place) : Nat :=
  ((((s.modNo * 8 + dieOf p.core) * 128 + p.core % 128) * 4 + p.berth) * 8) + p.fib

/-! ### Fields of the state -/

def getF (s : State) (p : Place) : Option Fibre := tfind s.fibres (pkey p)
def setF (s : State) (p : Place) (f : Fibre) : State := { s with fibres := tput s.fibres (pkey p) f }
def modF (s : State) (p : Place) (g : Fibre → Fibre) : State :=
  match getF s p with
  | some f => setF s p (g f)
  | none => s

def getC (s : State) (c : Nat) : Core := tget Core.init s.cores c
def setC (s : State) (c : Nat) (x : Core) : State := { s with cores := tset Core.init s.cores c x }
def getB (s : State) (c b : Nat) : Berth := tget Berth.init s.berths (bkey c b)
def setB (s : State) (c b : Nat) (x : Berth) : State := { s with berths := tset Berth.init s.berths (bkey c b) x }
def getD (s : State) (d : Nat) : Die := tget Die.init s.dies d
def setD (s : State) (d : Nat) (x : Die) : State := { s with dies := tset Die.init s.dies d x }
def getQy (s : State) (q : Nat) : Quay := tget Quay.init s.quays q
def setQy (s : State) (q : Nat) (x : Quay) : State := { s with quays := tset Quay.init s.quays q x }
def getSl (s : State) (k : Nat) : Slice := tget Slice.init s.slices k
def setSl (s : State) (k : Nat) (x : Slice) : State := { s with slices := tset Slice.init s.slices k x }
def getG (s : State) (g : Nat) : Option Group := tfind s.groups g
def setG (s : State) (g : Nat) (x : Group) : State := { s with groups := tput s.groups g x }
def getI (s : State) (i : Nat) : Option Inst := tfind s.insts i
def setI (s : State) (i : Nat) (x : Inst) : State := { s with insts := tput s.insts i x }
def getX (s : State) (cid : Nat) : Option Ctx := tfind s.ctxs cid
def setX (s : State) (cid : Nat) (x : Ctx) : State := { s with ctxs := tput s.ctxs cid x }
def modX (s : State) (cid : Nat) (g : Ctx → Ctx) : State :=
  match getX s cid with
  | some x => setX s cid (g x)
  | none => s
def getReg (s : State) (a : Nat) : DWord := tget 0 s.regs a
def setReg (s : State) (a : Nat) (v : DWord) : State := { s with regs := tset 0 s.regs a v }

/-- Put an event on the agenda: it is due, and is taken when the schedule names nothing else. -/
def due (s : State) (i : Instr) : State := { s with agenda := s.agenda ++ [i] }

/-- Due, if it is not already. -/
def dueOnce (s : State) (i : Instr) : State := if s.agenda.contains i then s else due s i

/-- A fresh identifier. -/
def fresh (s : State) : Nat × State := (s.nextId, { s with nextId := s.nextId + 1 })

/-- The next free value (log entry 8, DESIGN CHOICE). -/
def freeVal (s : State) : Nat × State := (Config.freeValue s.freeAt, { s with freeAt := s.freeAt + 1 })

/-! ### Time (R30 to R33) -/

/-- `%cyc` of a die: its own cycles, straight through frequency steps; held while the PLL relocks (R31). -/
def dieCyc (d : Die) (t : Nat) : Nat :=
  match d.relock with
  | some (_, c0) => c0 - 1
  | none =>
    match d.log with
    | [] => 0
    | e :: _ => e.cyc0 + (t - e.time0) * e.fmul / 10

/-- The die's clock stands still while the PLL relocks (R31). -/
def dieStands (s : State) (d : Nat) : Bool := (getD s d).relock.isSome

def cycOf (s : State) (core : Nat) : Nat := dieCyc (getD s (dieOf core)) s.time

/-! ### The kernel descriptor (R338) -/

def dsc (d : BitVec 1024) (lo len : Nat) : Nat := d.toNat / 2 ^ lo % 2 ^ len
def descEntry (d : BitVec 1024) : Nat := dsc d 0 64
def descParam (d : BitVec 1024) : Nat := dsc d 64 64
def descGate (d : BitVec 1024) : Nat := dsc d 128 64
def descDone (d : BitVec 1024) : Nat := dsc d 192 64
def descPart (d : BitVec 1024) : Nat := dsc d 256 32
def partReg (d : BitVec 1024) : Nat := dsc d 280 8
def partScr (d : BitVec 1024) : Nat := dsc d 272 8
def partAcc (d : BitVec 1024) : Nat := dsc d 264 8
def descEst (d : BitVec 1024) : Nat := dsc d 288 32
def descGX (d : BitVec 1024) : Nat := dsc d 320 16
def descGY (d : BitVec 1024) : Nat := dsc d 336 16
def descGZ (d : BitVec 1024) : Nat := dsc d 352 16
def descBerths (d : BitVec 1024) : Nat := dsc d 368 3
def descFibres (d : BitVec 1024) : Nat := dsc d 372 4
def descRole (d : BitVec 1024) (f : Nat) : Nat := dsc d (384 + 4 * f) 4
/-- Kind of window slot k: 0 unmapped, 1 private, 2 shared (R156). -/
def descKind (d : BitVec 1024) (k : Nat) : Nat := dsc d (416 + 2 * k) 2
def descHolder (d : BitVec 1024) (k : Nat) : Nat := dsc d (448 + 3 * k) 3
def descDual (d : BitVec 1024) : Bool := dsc d 496 1 == 1
def descIdem (d : BitVec 1024) : Bool := dsc d 497 1 == 1
def descDiv0 (d : BitVec 1024) : Bool := dsc d 498 1 == 1
def descFpInv (d : BitVec 1024) : Bool := dsc d 499 1 == 1
def descGroups (d : BitVec 1024) : Nat := descGX d * descGY d * descGZ d

def groupOf (s : State) (f : Fibre) : Option Group := getG s f.grp
def instOf (s : State) (f : Fibre) : Option Inst := (groupOf s f).bind fun g => getI s g.inst
def descOf (s : State) (f : Fibre) : BitVec 1024 :=
  match instOf s f with
  | some i => i.desc
  | none => 0
def cidOf (s : State) (f : Fibre) : Nat :=
  match instOf s f with
  | some i => i.cid
  | none => 0

/-! ### The control block (R368, R370) -/

def blk (x : Ctx) (lo len : Nat) : Nat := x.block.toNat / 2 ^ lo % 2 ^ len

/-- The parent of a context: the allocated context whose CBADDR its PARENT names. -/
def parentOf (s : State) (x : Ctx) : Option (Nat × Ctx) :=
  let at0 (y : Nat × Ctx) : Bool := y.2.cbaddr == blk x 0 64
  if blk x 0 64 = 0 then none
  else
    -- a context that is on its way out gives its place to a new one
    match s.ctxs.find? fun y => at0 y && y.2.st != 7 with
    | some y => some y
    | none => s.ctxs.find? at0

/-- The field of the context or, where its override bit is 0, of its parent (R370); `fuel` bounds the depth of the tree. -/
def effField (s : State) (bit lo len : Nat) : Nat → Ctx → Nat
  | 0, x => blk x lo len
  | fuel + 1, x =>
    match parentOf s x with
    | none => blk x lo len
    | some (_, y) => if blk x (88 + bit) 1 = 1 then blk x lo len else effField s bit lo len fuel y

def effPrio (s : State) : Nat → Ctx → Nat
  | 0, x => blk x 80 4
  | fuel + 1, x =>
    match parentOf s x with
    | none => blk x 80 4
    | some (_, y) => if blk x 88 1 = 1 then min (blk x 80 4) (effPrio s fuel y) else effPrio s fuel y

/-- The allowed cores (R370): lowest and highest; empty when the first exceeds the second. -/
def effCores (s : State) : Nat → Ctx → Nat × Nat
  | 0, x => (blk x 128 10, blk x 144 10)
  | fuel + 1, x =>
    match parentOf s x with
    | none => (blk x 128 10, blk x 144 10)
    | some (_, y) =>
      let r := effCores s fuel y
      if blk x 89 1 = 1 then (max (blk x 128 10) r.1, min (blk x 144 10) r.2) else r

def effPriv (s : State) : Nat → Ctx → Bool
  | 0, x => blk x 112 1 == 1
  | fuel + 1, x =>
    match parentOf s x with
    | none => blk x 112 1 == 1
    | some (_, y) => blk x 112 1 == 1 && effPriv s fuel y

def prioOf (s : State) (cid : Nat) : Nat :=
  match getX s cid with
  | some x => effPrio s 9 x
  | none => 0
def privOf (s : State) (cid : Nat) : Bool :=
  match getX s cid with
  | some x => effPriv s 9 x
  | none => false
def orDefault (v d : Nat) : Nat := if v = 0 then d else v
/-- Lease length of a context (R222, R368). -/
def leaseOf (s : State) (cid : Nat) : Nat :=
  match getX s cid with
  | some x => orDefault (effField s 2 96 13 9 x) 64
  | none => 64
def sliceOf (s : State) (x : Ctx) : Nat := orDefault (effField s 3 224 32 9 x) 2000000
def windowOf (s : State) (x : Ctx) : Nat := orDefault (effField s 4 256 32 9 x) 100000000
def ptargetOf (s : State) (x : Ctx) : Nat := orDefault (effField s 5 288 32 9 x) 200000
/-- FLAGS of the context's own block: bit number as R368. -/
def flag (x : Ctx) (bit : Nat) : Bool := blk x bit 1 == 1
def ctxFlag (s : State) (cid bit : Nat) : Bool :=
  match getX s cid with
  | some x => flag x bit
  | none => false

/-! ### Registers -/

def zeroLanes : Lanes := List.replicate 32 0

/-- Where register `v n` of the family of context `root` lies: its private block, or the berth's shared one (R156, R160). -/
def vkey (d : BitVec 1024) (core berth root n : Nat) : Nat :=
  (bkey core berth * 16 + (if descKind d (n / 16) = 2 then 8 else root)) * 256 + n

def vget (s : State) (key : Nat) : Lanes := tget zeroLanes s.vregs key
def laneOf (l : Lanes) (i : Nat) : Word := l.getD i 0

/-- The family holds the block of window slot k (R156). -/
def holds (s : State) (f : Fibre) (p : Place) (k : Nat) : Bool :=
  match descKind (descOf s f) k with
  | 1 => true
  | 2 => (getB s p.core p.berth).holder.getD k 8 == f.root
  | _ => false

def sget (f : Fibre) (n : Nat) : DWord := if n = 0 then 0 else tget 0 f.scal n

/-- The registers of an operand: `n` 32-bit registers of a lane, or the scalars that hold as much. -/
def refsOf (s : State) (f : Fibre) (p : Place) (o : Opnd) (n : Nat) : List RegRef :=
  match o with
  | .v k => (List.range n).map fun j => .vec (vkey (descOf s f) p.core p.berth f.root (k.toNat + j))
  | .s k => ((List.range (max 1 (n / 2))).filter fun j => k.toNat + j ≠ 0).map fun j => .sca (pkey p) (k.toNat + j)
  | .sp .fp4x => [.fp4 (pkey p)]
  | .sp _ => []

/-- A long-latency result for the register is outstanding. -/
def owedRef (s : State) (r : RegRef) : Bool := s.pends.any fun q => q.refs.contains r

/-- A register is empty while a long-latency result for it is outstanding (R151), or where a restored record says so (R287);
`%fp4x`, a special register, is always full (R47, R151; log entry 42, DEDUCED). -/
def emptyRef (s : State) (r : RegRef) : Bool :=
  match r with
  | .fp4 _ => false
  | _ => owedRef s r || s.emptied.contains r

/-- Top four region identifiers, innermost lowest (R51, `%rgn`). -/
def rgnWord (rs : List Region) : Nat :=
  (rs.take 4).foldr (fun r acc => r.id.toNat + 65536 * acc) 0

/-- Groups' base is taken off the channel count (R280). -/
def cwp (s : State) (f : Fibre) (p : Place) (ch : Nat) : Nat :=
  match groupOf s f with
  | some g => ((((getC s p.core).chans.getD ch Chan.init).count : Int) - g.cbase.getD ch 0).toNat % 2 ^ 64
  | none => 0

/-- A special register as it reads in a lane (R24, R51); `%tmask`, `%tpc` and `%fault` read 0 outside a handler. -/
def specialVal (s : State) (f : Fibre) (p : Place) (r : Special) (lane : Nat) : Nat :=
  match r with
  | .lane => lane
  | .fib => p.fib
  | .berth => p.berth
  | .core => p.core % 128
  | .quay => p.core % 128 / 4
  | .die => dieOf p.core
  | .mod => s.modNo
  | .role => descRole (descOf s f) f.root
  | .grp =>
    match groupOf s f with
    | some g =>
      let d := descOf s f
      g.index % descGX d + 2 ^ 16 * (g.index / descGX d % descGY d) + 2 ^ 32 * (g.index / (descGX d * descGY d))
    | none => 0
  | .amask => f.amask.toNat
  | .ctide => (getC s p.core).ctide
  | .cyc => cycOf s p.core
  | .rtime => s.time
  | .cwp0 => cwp s f p 0
  | .cwp1 => cwp s f p 1
  | .cwp2 => cwp s f p 2
  | .cwp3 => cwp s f p 3
  | .ocCopy => f.oc.getD 0 0
  | .ocMatrix => f.oc.getD 1 0
  | .ocGath => f.oc.getD 2 0
  | .ocColl => f.oc.getD 3 0
  | .rgn => rgnWord f.regions
  | .fp4x => f.fp4x.toNat
  | .tmask => match f.hnd with
    | some h => h.tmask.toNat
    | none => 0
  | .tpc => match f.hnd with
    | some h => h.tpc.toNat
    | none => 0
  | .fault => match f.hnd with
    | some h => h.word.toNat
    | none => 0

/-- The value of an operand in a lane, as raw bits of `n` 32-bit registers (R38, R39); a special register read as 128 bits reads
zero-extended (log entry 43, DESIGN CHOICE). -/
def opVal (s : State) (f : Fibre) (p : Place) (o : Opnd) (n lane : Nat) : Nat :=
  match o with
  | .v k =>
    (List.range n).foldr
      (fun j acc => (laneOf (vget s (vkey (descOf s f) p.core p.berth f.root (k.toNat + j))) lane).toNat + 2 ^ 32 * acc) 0
  | .s k => if n = 4 then (sget f k.toNat).toNat + 2 ^ 64 * (sget f (k.toNat + 1)).toNat else (sget f k.toNat).toNat % 2 ^ (32 * n)
  | .sp r => specialVal s f p r lane % 2 ^ (32 * n)

def sextTo (w : Nat) (fromBits : Nat) (v : Nat) : Nat :=
  let x := v % 2 ^ fromBits
  if x < 2 ^ (fromBits - 1) then x else x + 2 ^ w - 2 ^ fromBits

/-- An immediate as source B (R50): unchanged, or widened to 64 bits, by sign for b and i types. -/
def immVal (t : Ty) (i : Word) : Nat :=
  match t with
  | .b64 | .i64 => sextTo 64 32 i.toNat
  | _ => i.toNat

/-- Source B (R50). -/
def srcVal (s : State) (f : Fibre) (p : Place) (t : Ty) (n : Nat) (b : Src) (lane : Nat) : Nat :=
  match b with
  | .reg o => opVal s f p o n lane
  | .imm i => immVal t i

/-- A lane passes the guard (R42). -/
def passes (s : State) (f : Fibre) (p : Place) (g : Guard) (lane : Nat) : Bool :=
  match g with
  | .always => true
  | .pass n => opVal s f p (.v (n.setWidth 8)) 1 lane != 0
  | .fails n => opVal s f p (.v (n.setWidth 8)) 1 lane == 0

/-- Active lanes that pass the guard. -/
def passLanes (s : State) (f : Fibre) (p : Place) (g : Guard) : List Nat :=
  (List.range 32).filter fun i => f.amask.getLsbD i && passes s f p g i

def maskOf (ls : List Nat) : Mask := BitVec.ofNat 32 (ls.foldr (fun i acc => acc ||| 2 ^ i) 0)
def lanesIn (m : Mask) : List Nat := (List.range 32).filter fun i => m.getLsbD i

end Sys2Proof.Machine
end

