-- ==== Sys2Proof/Machine/Mem.lean ====
section
/-! DEFINITION. Memory, lines and their tides at the L1 and at the home (R25, R26, R219 to R235), and what a home does for each
request. -/
namespace Sys2Proof.Machine

/-! ### Bytes -/

/-- The `n` bytes of a number, lowest first (R3). -/
def bytesOf (n v : Nat) : List Byte := (List.range n).map fun i => BitVec.ofNat 8 (v / 256 ^ i)
def natOf (l : List Byte) : Nat := l.foldr (fun b acc => b.toNat + 256 * acc) 0

/-- One byte of memory; what is not listed reads 0. -/
def memGet (m : Memory) (a : Nat) : Byte := tget 0 m a
def memSet (m : Memory) (a : Nat) (b : Byte) : Memory := tset 0 m a b
def memRd (m : Memory) (a n : Nat) : List Byte := (List.range n).map fun i => memGet m (a + i)
def memWr : Memory → Nat → List Byte → Memory
  | m, _, [] => m
  | m, a, b :: t => memWr (memSet m a b) (a + 1) t
/-- `n` bytes at a physical address of this module are written by the store of this number, or by what is no store: 0 (R61). -/
def noteWrite (s : State) (pa n : Nat) (w : Nat := 0) : State :=
  { s with stamps := (List.range n).foldl (fun t i => tset 0 t (pa % 2 ^ 47 + i) w) s.stamps }

/-- The canonical form: addresses strictly rising, no entry 0. -/
def Memory.wf (m : Memory) : Bool := tabWf 0 m

def lineRd (d : Line) (off n : Nat) : List Byte := bytesOf n (d.toNat / 256 ^ off)
def lineOfBytes (l : List Byte) : Line := BitVec.ofNat 1024 (natOf l)
def lineWr (d : Line) (off : Nat) (l : List Byte) : Line :=
  let x := d.toNat
  let n := l.length
  BitVec.ofNat 1024 (x % 256 ^ off + natOf l * 256 ^ off + x / 256 ^ (off + n) * 256 ^ (off + n))

/-! ### Addresses (R25, R26) -/

inductive Rng where
  | hbm | area | regs | host | cxl | resv
  deriving DecidableEq, Repr

def localAddr (pa : Nat) : Nat := pa % 2 ^ 47
def isOwn (s : State) (pa : Nat) : Bool := pa / 2 ^ 47 % 512 == s.modNo

/-- The range of a physical address (R25); `area`: the spill and registry areas, which no page maps (R234, R385). -/
def rngOf (s : State) (pa : Nat) : Rng :=
  let a := localAddr pa
  if a < 0x10000000000 then
    (if 0xFF00000000 ≤ a ∧ a < 0xFF80200000 then .area else .hbm)
  else if a < 0x20000000000 then .regs
  else if a < 0x40000000000 then .host
  else if a < 0x400000000000 then .resv
  else if a < 0x600000000000 then
    (if 0x400000000000 + (if isOwn s pa then s.cxlSize else Config.peerCxl (pa / 2 ^ 47 % 512)) ≤ a then .resv else .cxl)
  else .resv

/-- The line's data lies behind the host or CXL port (R26). -/
def isPort (s : State) (pa : Nat) : Bool :=
  match rngOf s pa with
  | .host | .cxl => true
  | _ => false

/-- Module-wide slice number of a line (R26). -/
def sliceOfPa (pa : Nat) : Nat :=
  (pa / 2 ^ 7 % 512) ^^^ (pa / 2 ^ 16 % 512) ^^^ (pa / 2 ^ 25 % 512) ^^^ (pa / 2 ^ 34 % 512) ^^^ (pa / 2 ^ 43 % 16)

/-- A line by its number, PA / 128. -/
def lineNo (pa : Nat) : Nat := pa / 128

/-- The turn under way acts in a compute die: in a core of it, or at a home of its slices (R31). -/
def cross (s : State) (d : Nat) : State := if s.crossed.contains d then s else { s with crossed := s.crossed ++ [d] }
def crossLine (s : State) (line : Nat) : State := cross s (sliceOfPa (line * 128) / 64)

/-! ### Tides (R220, R221, R225, R226) -/

def tideMax : Nat := 2 ^ 64 - 1
def capTide (t : Nat) : Nat := min t tideMax

/-- The home's record of a line, made when first requested with every tide at the slice's base (R220). -/
def getHome (s : State) (line : Nat) : Home :=
  match tfind s.homes line with
  | some h => h
  | none =>
    let b := (getSl s (sliceOfPa (line * 128))).base
    { wt := b, hl := b, owner := none, slots := [], busy := false }
def setHome (s : State) (line : Nat) (h : Home) : State := { s with homes := tput s.homes line h }

/-- Move a slice's base before it stores tide `t` (R225). -/
def rebaseSlice (s : State) (k t : Nat) : State :=
  let sl := getSl s k
  if t < sl.base + 2 ^ 23 then s
  else
    let b := t - 2 ^ 22
    let s := setSl s k { sl with base := b }
    { s with homes := s.homes.map fun e =>
        if sliceOfPa (e.1 * 128) = k then
          (e.1, { e.2 with wt := max e.2.wt b, hl := max e.2.hl b, owner := e.2.owner.map fun o => (o.1, max o.2 b) })
        else e }

/-- Store tides at a home; one below the slice's base is raised to it (R225). -/
def homeTides (s : State) (line wt hl : Nat) : State :=
  let k := sliceOfPa (line * 128)
  let s := rebaseSlice s k (max wt hl)
  let h := getHome s line
  let b := (getSl s k).base
  setHome s line { h with wt := capTide (max wt b), hl := capTide (max hl b) }

/-- Move an L1's base before it stores tide `t` or its core's clock reaches it (R225). -/
def rebaseL1 (s : State) (c t : Nat) : State :=
  let x := getC s c
  if t < x.base + 2 ^ 23 then s
  else
    let b := t - 2 ^ 22
    setC s c { x with
      base := b
      l1 := (x.l1.filter fun e => e.2.owned || b ≤ e.2.lt).map fun e =>
        (e.1, { e.2 with wt := max e.2.wt b, lt := max e.2.lt b }) }

/-- Raise a core's clock (R221); it never falls, and stays at 2^64 - 1 (R226). -/
def raiseClock (s : State) (c t : Nat) : State :=
  let t := capTide t
  if t ≤ (getC s c).ctide then s
  else
    let s := rebaseL1 s c t
    let x := getC s c
    setC s c { x with ctide := t, lastClock := cycOf s c }

def clockOf (s : State) (c : Nat) : Nat := (getC s c).ctide

/-- A core meets a tide, in an answer or at a home: one below its L1's base is raised to it, and the clock follows (R221, R225). -/
def seeTide (s : State) (c t : Nat) : State := raiseClock s c (max t (getC s c).base)

/-- Put a copy into an L1; a tide below the receiver's base is raised to it. -/
def putCopy (s : State) (c line : Nat) (cp : Copy) : State :=
  let s := rebaseL1 s c (max cp.wt cp.lt)
  let x := getC s c
  setC s c { x with l1 := tput x.l1 line { cp with wt := max cp.wt x.base, lt := max cp.lt x.base } }
def getCopy (s : State) (c line : Nat) : Option Copy := tfind (getC s c).l1 line
def dropCopy (s : State) (c line : Nat) : State :=
  let x := getC s c
  setC s c { x with l1 := tdel x.l1 line }

/-- Any pulse of a context's OR tree clears its silence count (R379, R380). -/
def pulse (s : State) (cid : Nat) : State := modX s cid fun x => { x with silence := 0, fired := false }

/-! ### Owners and recalls (R224) -/

/-- Write the dirty sectors of a copy back. -/
def writeBack (m : Memory) (line : Nat) (d : Line) (dirty : BitVec 4) : Memory :=
  (List.range 4).foldl
    (fun m k => if dirty.getLsbD k then memWr m (localAddr (line * 128) + 32 * k) (lineRd d (32 * k) 32) else m) m

/-- The home takes back the line of an owner that gave its copy up. Every later write comes after the loads that the owner made of
it, so HL rises to the owner's clock (R250; log entry 49, DEDUCED). -/
def takeBack (s : State) (core line : Nat) (d : Option (Line × BitVec 4)) : State :=
  let s := match d with
    | some (x, m) =>
      let s := { s with mem := writeBack s.mem line x m }
      homeTides s line (getHome s line).wt (max (getHome s line).hl (clockOf s core))
    | none => s
  setHome s line { getHome s line with owner := none }

/-- The core writes a store into a copy that it owns (R223): its sectors become dirty. -/
def storeOwned (s : State) (core line : Nat) (cp : Copy) (off : Nat) (bytes : List Byte) (w : Nat := 0) : State :=
  let dirty := (List.range 4).foldl
    (fun (m : BitVec 4) k => if off / 32 ≤ k ∧ k ≤ (off + bytes.length - 1) / 32 then m ||| BitVec.ofNat 4 (2 ^ k) else m) cp.dirty
  let s := putCopy s core line { cp with data := lineWr cp.data off bytes, dirty }
  noteWrite (seeTide s core cp.wt) (line * 128 + off) bytes.length w

/-- The store for which ownership of a line was asked, offset, bytes and number: the held lane at the head of a fibre's release, or
that of an `st.g.sc` (R223, R241). -/
def grantStore (s : State) (r : Req) : Option (Nat × List Byte × Nat) :=
  match r.cont with
  | .hold p =>
    (getF s p).bind fun f =>
      if f.relWait then
        f.relq.head?.bind fun e => e.lanes.head?.bind fun l =>
          if lineNo l.pa = lineNo r.pa then some (l.pa % 128, l.bytes, e.since) else none
      else none
  | .op p =>
    (getF s p).bind fun f => f.op.bind fun o => o.lanes.head?.bind fun l =>
      if lineNo l.pa = lineNo r.pa then some (l.pa % 128, l.fwd.filterMap id, o.stamp) else none
  | _ => none

/-- A grant of ownership reaches the core: its copy, with the store it was asked for written into it (R223). -/
def landGrant (s : State) (r : Req) (a : Answer) : State :=
  let cp : Copy := { owned := true, data := lineOfBytes a.data, wt := a.wt, lt := a.wt, dirty := 0 }
  let s := seeTide s r.core a.wt
  match grantStore s r with
  | some (off, b, w) => storeOwned s r.core (lineNo r.pa) cp off b w
  | none => putCopy s r.core (lineNo r.pa) cp

/-- A grant on its way lands, and only the news of it still travels. -/
def landNow (s : State) (x : Reply) : State :=
  { landGrant s x.req x.ans with
    replies := swapFirst (fun y : Reply => y.id == x.id) { x with req := { x.req with op := .store [] } } s.replies }

/-- The ownership that a recall under way asks for has ended: its answer changes nothing at the home any more (R224). -/
def endRecalls (s : State) (line : Nat) : State :=
  { s with recalls := s.recalls.map fun (c : Recall) => if c.line = line then ({ c with ended := true } : Recall) else c }

/-- A recall and its answer in one step, for the engines, the walkers and the harbourmaster (log entry 16, DESIGN CHOICE). What a
recall already answered brings back is taken at once, and a grant still on its way lands before the copy is given up: the
requests of a line are served one at a time (R224). -/
def recallNow (s : State) (line : Nat) : State :=
  match s.recalls.find? fun c => c.line == line && c.answered && !c.ended with
  | some c => endRecalls (takeBack s c.core line c.data) line
  | none =>
    match (getHome s line).owner with
    | none => endRecalls s line
    | some (c, _) =>
      let s := cross s (dieOf c)
      let s := match s.replies.find? fun x => x.req.op == .own && x.req.core == c && lineNo x.req.pa == line with
        | some x => landNow s x
        | none => s
      endRecalls
        (match getCopy s c line with
         | some cp => if cp.owned then takeBack (dropCopy s c line) c line (some (cp.data, cp.dirty)) else takeBack s c line none
         | none => takeBack s c line none) line

/-- An L1 gives a copy up (R224): an owned one writes back its dirty sectors, a leased one is dropped silently. -/
def evictCopy (s : State) (c line : Nat) : State :=
  match getCopy s c line with
  | none => s
  | some cp =>
    let s := dropCopy (cross s (dieOf c)) c line
    if cp.owned then takeBack s c line (some (cp.data, cp.dirty)) else s

/-! ### Commutative partials (R233 to R235) -/

/-- Element size and format of a commutative operation. -/
def copSize (cop : Nat) : Nat := if cop = 1 then 2 else if cop = 3 then 8 else 4
def copF (cop : Nat) : FFmt := if cop = 1 then bfl16 else fp32
def copUnit (cop : Nat) : Int := if cop = 1 then -133 else -149
/-- The element type of a commutative page (R233). -/
def copTy (cop : Nat) : Ty := if cop = 0 then .f32 else if cop = 1 then .bf16x2 else if cop = 3 then .i64 else .i32

/-- A contribution of one element. -/
def contribute (cop : Nat) (x : Nat) : PElem :=
  if cop ≤ 1 then
    match decF (copF cop) x with
    | .fin neg m e =>
      { sum := (if neg then -1 else 1) * (m * 2 ^ (e - copUnit cop).toNat), pinf := false, ninf := false, nan := false,
        negz := neg && m == 0 }
    | .inf neg => { sum := 0, pinf := !neg, ninf := neg, nan := false, negz := false }
    | .nan _ => { sum := 0, pinf := false, ninf := false, nan := true, negz := false }
  else { sum := sInt (8 * copSize cop) x, pinf := false, ninf := false, nan := false, negz := false }

/-- A partial added to another, exactly. -/
def addPart (cop : Nat) (a b : PElem) : PElem :=
  if cop = 4 then { a with sum := min a.sum b.sum }
  else if cop = 5 then { a with sum := max a.sum b.sum }
  else
    { sum := if cop ≤ 1 then a.sum + b.sum else sInt (8 * copSize cop) (wrapI (8 * copSize cop) (a.sum + b.sum)),
      pinf := a.pinf || b.pinf, ninf := a.ninf || b.ninf, nan := a.nan || b.nan, negz := a.negz && b.negz }

def mergeElems (cop : Nat) (a b : Tab PElem) : Tab PElem :=
  b.foldl (fun t e => match tfind t e.1 with
    | some x => tput t e.1 (addPart cop x e.2)
    | none => tput t e.1 e.2) a

/-- The quiet NaN that no lane generates (R90, R235). -/
def plainNan (f : FFmt) : Nat := f.infCode + 2 ^ (f.fb - 1)

/-- Round-to-nearest sum of two codes, NaNs by R73 with `a` as source A, infinities of both signs the plain NaN. -/
def addRn (f : FFmt) (a b : Nat) : Nat :=
  match firstNan [decF f a, decF f b] with
  | some v => encF f .rn v
  | none =>
    match sumVal .rn [decF f a, decF f b] with
    | some v => encF f .rn v
    | none => plainNan f

/-- A slot's rounded value (R235). -/
def slotValue (cop : Nat) (p : PElem) : Nat :=
  let f := copF cop
  if p.nan || (p.pinf && p.ninf) then plainNan f
  else if p.pinf then f.infCode
  else if p.ninf then f.infCode + f.signBit
  else if p.sum = 0 then (if p.negz then f.signBit else 0)
  else roundF f .rn (p.sum < 0) p.sum.natAbs (copUnit cop)

/-- One step of a collection: a slot's element taken into the stored one. -/
def collectElem (cop : Nat) (acc : Nat) (p : PElem) : Nat :=
  let w := 8 * copSize cop
  if cop ≤ 1 then addRn (copF cop) acc (slotValue cop p)
  else if cop = 4 then wrapI w (min (sInt w acc) p.sum)
  else if cop = 5 then wrapI w (max (sInt w acc) p.sum)
  else wrapI w (sInt w acc + p.sum)

/-- A collection (R235): slots in ascending (module, core) order. -/
def collect (s : State) (line : Nat) : State :=
  let h := getHome s line
  match h.slots with
  | [] => s
  | slots =>
    let m := slots.foldl
      (fun m sl => sl.2.elems.foldl
        (fun m e =>
          let a := localAddr (line * 128) + e.1
          let n := copSize sl.2.cop
          memWr m a (bytesOf n (collectElem sl.2.cop (natOf (memRd m a n)) e.2))) m) s.mem
    let s := slots.foldl
      (fun s sl => sl.2.elems.foldl (fun s e => noteWrite s (line * 128 + e.1) (copSize sl.2.cop)) s) { s with mem := m }
    setHome s line { h with slots := [] }

/-! ### What a home does for a request, owners recalled before -/

/-- The tide of a write served at a home (R223, R229). -/
def writeTide (s : State) (line clk : Nat) : Nat :=
  let h := getHome s line
  max clk (max (h.hl + 1) (h.wt + 1))

def isErr (s : State) (line : Nat) : Bool := s.errLines.contains line

/-- The line's bytes as the home holds them. -/
def homeData (s : State) (line : Nat) : List Byte := memRd s.mem (localAddr (line * 128)) 128

/-- A lease (R222). -/
def homeLease (s : State) (line clk len : Nat) : Answer × State :=
  let s := collect (crossLine s line) line
  let h := getHome s line
  let s := homeTides s line h.wt (max h.hl (clk + len))
  let h := getHome s line
  ({ data := homeData s line, wt := h.wt, lt := h.hl, status := 0, cls := if isErr s line then 8 else 0 }, s)

/-- Ownership (R223). -/
def homeOwn (s : State) (line clk core : Nat) : Answer × State :=
  let s := collect (crossLine s line) line
  let w := writeTide s line clk
  let s := homeTides s line w (max (getHome s line).hl w)
  let h := getHome s line
  let s := setHome s line { h with owner := some (core, h.wt) }
  ({ data := homeData s line, wt := h.wt, lt := h.wt, status := 0, cls := 0 }, s)

/-- A read at the home (R229). -/
def homeRead (s : State) (line : Nat) : Answer × State :=
  let s := collect (crossLine s line) line
  let h := getHome s line
  ({ data := homeData s line, wt := h.wt, lt := 0, status := 0, cls := if isErr s line then 8 else 0 }, s)

/-- A write at the home (R229); `stamp`: the number of the store it is part of. -/
def homeWrite (s : State) (pa clk : Nat) (bytes : List Byte) (stamp : Nat := 0) : Answer × State :=
  let line := lineNo pa
  let s := collect (crossLine s line) line
  let w := writeTide s line clk
  let s := noteWrite { s with mem := memWr s.mem (localAddr pa) bytes } pa bytes.length stamp
  let s := homeTides s line w (max (getHome s line).hl w)
  ({ data := [], wt := (getHome s line).wt, lt := 0, status := 0, cls := 0 }, s)

/-- The operation of an atomic (R245): new value, and whether a write occurs. -/
def atomNew (major : Nat) (t : Ty) (lane : Nat) (pc : DWord) (old b c : Nat) : Option Nat :=
  let w := tyW t
  match major with
  | 0x90 => some (wrapI w ((old : Int) + b))
  | 0x91 => some (wrapI w ((old : Int) - b))
  | 0x92 => some (if elemI t 0 b < elemI t 0 old then b else old)
  | 0x93 => some (if elemI t 0 old < elemI t 0 b then b else old)
  | 0x94 => some (old &&& b)
  | 0x95 => some (old ||| b)
  | 0x96 => some (old ^^^ b)
  | 0x97 => some b
  | 0x98 => if old = b then some c else none
  | 0x99 => some (if b ≤ old then 0 else old + 1)
  | 0x9A => some (if old = 0 ∨ b < old then b else old - 1)
  | _ => some (faddF t false .rn lane pc old b).1

/-- An atomic at the home (R244); its old value comes back in the data. -/
def homeAtomicOp (s : State) (pa clk major : Nat) (t : Ty) (lane : Nat) (pc : DWord) (b c : Nat) : Answer × State :=
  let line := lineNo pa
  let s := collect (crossLine s line) line
  let n := 4 * t.regs
  if isErr s line then ({ data := [], wt := (getHome s line).wt, lt := 0, status := 0, cls := 8 }, s)
  else
    let old := memRd s.mem (localAddr pa) n
    match atomNew major t lane pc (natOf old) b c with
    | none => ({ data := old, wt := (getHome s line).wt, lt := 0, status := 0, cls := 0 }, s)
    | some v =>
      let r := homeWrite s pa clk (bytesOf n v)
      ({ r.1 with data := old, status := 1 }, r.2)

/-- A partial arrives in a slot (R234); `src`: module × 1024 + core. -/
def homePart (s : State) (line clk src : Nat) (p : Part) : Answer × State :=
  let s := crossLine s line
  let h := getHome s line
  let elems := match tfind h.slots src with
    | some q => mergeElems p.cop q.elems p.elems
    | none => p.elems
  let s := setHome s line { h with slots := tput h.slots src { cop := p.cop, elems } }
  let w := writeTide s line clk
  let s := homeTides s line w (max h.hl w)
  ({ data := [], wt := (getHome s line).wt, lt := 0, status := 0, cls := 0 }, s)

/-! ### Accesses done whole in one step (log entry 16, DESIGN CHOICE) -/

/-- A link of the module's entry in the routing table is up or degraded (R406). -/
def routeUp (s : State) (m : Nat) : Bool :=
  (List.range 36).any fun n =>
    (getReg s (0x010000640000 + 8 * m)).getLsbD n &&
      ((tget Link.init s.links n).st == 2 || (tget Link.init s.links n).st == 3)

/-- The module of an address can be reached (R407). -/
def isReach (s : State) (pa : Nat) : Bool :=
  isOwn s pa || (routeUp s (pa / 2 ^ 47 % 512) && !s.unreach.contains (pa / 2 ^ 47 % 512))

/-- Read own memory at its home now: recall, collect, read. -/
def readNow (s : State) (pa n : Nat) : Answer × State :=
  let r := homeRead (recallNow s (lineNo pa)) (lineNo pa)
  ({ r.1 with data := memRd r.2.mem (localAddr pa) n }, r.2)

/-- Read a run of own memory, line by line: its bytes and whether every line was free of errors. -/
def readRun : Nat → State → Nat → Nat → List Byte × Bool × State
  | 0, s, _, _ => ([], true, s)
  | fuel + 1, s, pa, n =>
    if n = 0 then ([], true, s)
    else
      let k := min n (128 - pa % 128)
      let r := readNow s pa k
      let q := readRun fuel r.2 (pa + k) (n - k)
      (r.1.data ++ q.1, r.1.cls == 0 && q.2.1, q.2.2)

/-- Write own memory at its home now, as an untracked store by `core` (R229). -/
def writeNow (s : State) (core pa : Nat) (bytes : List Byte) (stamp : Nat := 0) : State :=
  let r := homeWrite (recallNow s (lineNo pa)) pa (clockOf s core) bytes stamp
  seeTide r.2 core r.1.wt

end Sys2Proof.Machine
end

