-- ==== Sys2Proof/Machine/Page.lean ====
section
/-! DEFINITION. Translation, rights and the caches of translations (R389 to R400). -/
namespace Sys2Proof.Machine

/-- The translation root register of a context (R389). -/
def rootAddr (cid : Nat) : Nat := 0x010000610000 + 8 * cid
def rootOf (s : State) (cid : Nat) : Nat := (getReg s (rootAddr cid)).toNat

def bitsAt (x lo len : Nat) : Nat := x / 2 ^ lo % 2 ^ len

/-- Index of a virtual address at a level (R390). -/
def vaIndex (va level : Nat) : Nat :=
  match level with
  | 3 => bitsAt va 55 5
  | 2 => bitsAt va 42 13
  | 1 => bitsAt va 29 13
  | _ => bitsAt va 16 13

/-- Offset bits under a leaf at a level. -/
def leafBits (level : Nat) : Nat := if level = 2 then 42 else if level = 1 then 29 else 16

/-- Fields of an entry (R391). -/
def pteV (e : Nat) : Bool := bitsAt e 0 1 == 1
def pteLeaf (e : Nat) : Bool := bitsAt e 1 1 == 1
def pteR (e : Nat) : Bool := bitsAt e 4 1 == 1
def pteW (e : Nat) : Bool := bitsAt e 5 1 == 1
def pteX (e : Nat) : Bool := bitsAt e 6 1 == 1
def pteTrk (e : Nat) : Bool := bitsAt e 7 1 == 1
def ptePcp (e : Nat) : Nat := bitsAt e 8 2
def pteTier (e : Nat) : Nat := bitsAt e 10 2
def pteFrame (e : Nat) : Nat := bitsAt e 16 40 * 2 ^ 16
def pteComm (e : Nat) : Bool := bitsAt e 56 1 == 1
def pteCop (e : Nat) : Nat := bitsAt e 57 3

/-- A malformed entry (R392). -/
def pteBad (e level : Nat) : Bool :=
  bitsAt e 60 4 != 0 || bitsAt e 12 4 != 0 || bitsAt e 2 2 != 0 ||
  (if pteLeaf e then
    level == 3 || pteFrame e % 2 ^ leafBits level != 0 || pteTier e == 3 ||
      (if pteComm e then !pteTrk e || 6 ≤ pteCop e else pteCop e != 0)
   else level == 0 || bitsAt e 4 12 != 0 || bitsAt e 56 8 != 0)

/-- A node address outside the module's local HBM and CXL ranges is malformed (R392). -/
def nodeBad (s : State) (pa : Nat) : Bool :=
  !isOwn s pa ||
    (match rngOf s pa with
     | .hbm | .area | .cxl => false
     | _ => true)

/-- What a walk gives: the leaf and its level, or the class of its failure. -/
structure WalkRes where
  cls : Nat
  level : Nat
  pte : Nat
  /-- pointer entries passed, for the die's cache: level and entry -/
  path : List (Nat × Nat)
  deriving DecidableEq, Repr

/-- A walk from a node (R390 to R392, R398): each entry read once at its home as an untracked load. -/
def walkFrom : Nat → State → Nat → Nat → List (Nat × Nat) → WalkRes × State
  | level, s, va, node, path =>
    if nodeBad s node then ({ cls := 4, level, pte := 0, path }, s)
    else
      let r := readNow s (node + 8 * vaIndex va level) 8
      if r.1.cls != 0 then ({ cls := 8, level, pte := 0, path }, r.2)
      else
        let e := natOf r.1.data
        if !pteV e || pteBad e level then ({ cls := 4, level, pte := 0, path }, r.2)
        else if pteLeaf e then ({ cls := 0, level, pte := e, path }, r.2)
        else
          match level with
          | 0 => ({ cls := 4, level, pte := 0, path }, r.2)
          | l + 1 => walkFrom l r.2 va (pteFrame e) (path ++ [(l + 1, e)])

/-- The page that a leaf of a level maps holds this 64 KiB page number. -/
def samePage (level a b : Nat) : Bool := a / 2 ^ (leafBits level - 16) == b / 2 ^ (leafBits level - 16)

def tlbFind (l : List TlbEnt) (cid vpn : Nat) : Option TlbEnt :=
  l.find? fun e => e.cid == cid && pteLeaf e.pte.toNat && samePage e.level e.vpn vpn

/-- Put a leaf into a core's TLB of 128 entries, the oldest leaving (R396). -/
def tlbPut (s : State) (core : Nat) (e : TlbEnt) : State :=
  let x := getC s core
  setC s core { x with tlb := (e :: x.tlb.filter (· != e)).take 128 }

/-- Put entries into a die's translation cache of 32,768 entries. -/
def dieCachePut (s : State) (die : Nat) (es : List TlbEnt) : State :=
  let d := getD s die
  setD s die { d with cache := (es ++ d.cache.filter (fun e => !es.contains e)).take 32768 }

/-- The level at which a walk can begin, and the node there, from cached pointer entries (R396): the deepest one. -/
def walkStart (s : State) (die cid vpn : Nat) : Nat × Nat :=
  let ptr (level : Nat) : Option TlbEnt :=
    (getD s die).cache.find? fun e =>
      e.cid == cid && !pteLeaf e.pte.toNat && e.level == level &&
        (vpn * 2 ^ 16) / 2 ^ (if level = 3 then 55 else if level = 2 then 42 else 29) ==
          (e.vpn * 2 ^ 16) / 2 ^ (if level = 3 then 55 else if level = 2 then 42 else 29)
  match ptr 1 with
  | some e => (0, pteFrame e.pte.toNat)
  | none =>
    match ptr 2 with
    | some e => (1, pteFrame e.pte.toNat)
    | none =>
      match ptr 3 with
      | some e => (2, pteFrame e.pte.toNat)
      | none => (3, bitsAt (rootOf s cid) 16 40 * 2 ^ 16)

/-- A walk; when it succeeds its leaf is cached, with the pointer entries it passed: of a failed walk nothing is (R395, R396). -/
def walkNow (s : State) (die cid vpn : Nat) : WalkRes × State :=
  let st := walkStart s die cid vpn
  let r := walkFrom st.1 s (vpn * 2 ^ 16) st.2 []
  let ptrs := r.1.path.map fun q => ({ cid, vpn, level := q.1, pte := BitVec.ofNat 64 q.2 } : TlbEnt)
  let leaf : TlbEnt := { cid, vpn, level := r.1.level, pte := BitVec.ofNat 64 r.1.pte }
  (r.1, if r.1.cls = 0 then dieCachePut r.2 die (leaf :: ptrs) else r.2)

/-- A translation done at once, through the caches (engines, harbourmaster, fetch; log entry 16, DESIGN CHOICE): class, leaf level and entry. -/
def xlatNow (s : State) (core cid va : Nat) : Xlat × State :=
  let vpn := va / 2 ^ 16
  if va / 2 ^ 60 ≠ 0 ∨ rootOf s cid % 2 = 0 then ({ vpn, cls := 4, level := 0, pte := 0 }, s)
  else
    match tlbFind (getC s core).tlb cid vpn with
    | some e => ({ vpn, cls := 0, level := e.level, pte := e.pte }, s)
    | none =>
      match tlbFind (getD s (dieOf core)).cache cid vpn with
      | some e => ({ vpn, cls := 0, level := e.level, pte := e.pte }, tlbPut s core e)
      | none =>
        let r := walkNow s (dieOf core) cid vpn
        if r.1.cls = 0 then
          let e : TlbEnt := { cid, vpn, level := r.1.level, pte := BitVec.ofNat 64 r.1.pte }
          ({ vpn, cls := 0, level := r.1.level, pte := e.pte }, tlbPut r.2 core e)
        else ({ vpn, cls := r.1.cls, level := 0, pte := 0 }, r.2)

/-- Physical address under a leaf (R391). -/
def leafPa (x : Xlat) (va : Nat) : Nat := pteFrame x.pte.toNat / 2 ^ leafBits x.level * 2 ^ leafBits x.level + va % 2 ^ leafBits x.level

/-- What an access asks for: rights, size, and how it may meet registers and commutative pages (R394, R439). -/
structure Ask where
  rd : Bool
  wr : Bool
  ex : Bool
  size : Nat
  /-- an access of `ld.g` or `st.g` type, by a privileged context: it may reach registers -/
  regsOk : Bool
  /-- element type that a commutative page must have for this access, if any -/
  elemTy : Option Ty
  /-- the declared operation that the page must have (`cadd`, `cmin`, `cmax`) -/
  wantCop : Option Nat
  /-- no commutative page -/
  noComm : Bool
  deriving DecidableEq, Repr

def Ask.load (size : Nat) : Ask :=
  { rd := true, wr := false, ex := false, size, regsOk := false, elemTy := none, wantCop := none, noComm := false }
def Ask.store (size : Nat) : Ask := { Ask.load size with rd := false, wr := true }
def Ask.both (size : Nat) : Ask := { Ask.load size with wr := true }
def Ask.fetch : Ask := { Ask.load 4 with rd := false, ex := true }

/-- Rights and range checks of a translated access: PROT, or 0 (R25, R393, R394, R439). -/
def rightsCls (s : State) (q : Ask) (x : Xlat) (va : Nat) : Nat :=
  let e := x.pte.toNat
  let pa := leafPa x va
  let tierOk : Bool := match rngOf s pa with
    | .hbm | .area | .regs => pteTier e == 0
    | .cxl => pteTier e == 1
    | .host => pteTier e == 2
    | .resv => true
  let bad : Bool :=
    (q.rd && !pteR e) || (q.wr && !pteW e) || (q.ex && !pteX e) || !tierOk ||
    (match rngOf s pa with
     | .resv | .area => true
     | .regs => !(q.regsOk && isOwn s pa && (q.size == 4 || q.size == 8))
     | _ => false) ||
    (match q.wantCop with
     | some c => !pteComm e || pteCop e != c
     | none => false) ||
    (match q.elemTy with
     | some t => pteComm e && copTy (pteCop e) != t
     | none => false) ||
    (q.noComm && pteComm e)
  if bad then 5 else 0

/-- Page cache policy as a CPOL (R393). -/
def pcpPol (e : Nat) : CPol :=
  match ptePcp e with
  | 0 => .normal
  | 1 => .l1EvictFirst
  | 2 => .l2EvictFirst
  | _ => .l2Retain
def effPol (c : CPol) (e : Nat) : CPol := if c = .normal then pcpPol e else c

/-- A translation and its checks at once: class and physical address, for the engines and the harbourmaster. -/
def accessNow (s : State) (core cid va : Nat) (q : Ask) : Nat × Nat × State :=
  let r := xlatNow s core cid va
  if r.1.cls ≠ 0 then (r.1.cls, 0, r.2)
  else (rightsCls r.2 q r.1 va, leafPa r.1 va, r.2)

/-- Ask for a walk (R397): join one for the same page with fewer than 256 misses, take a free walker, or queue behind the misses
that wait already. -/
def askWalk (s : State) (core cid vpn : Nat) (p : Place) : State :=
  let die := dieOf core
  let d := getD s die
  let waiting := d.walks.any (fun w => w.cid == cid && w.vpn == vpn && w.misses.contains p) ||
    d.missq.any (fun w => w.cid == cid && w.vpn == vpn && w.misses.contains p)
  if waiting then s
  else
    match pick (fun w : Walk => w.cid == cid && w.vpn == vpn && w.misses.length < 256) d.walks with
    | some (w, _) =>
      setD s die { d with walks := swapFirst (fun x : Walk => x == w) { w with misses := w.misses ++ [p] } d.walks }
    | none =>
      if d.walks.length < 64 ∧ d.missq.isEmpty then
        due (setD s die { d with walks := d.walks ++ [{ cid, vpn, misses := [p] }] }) (.walkComplete die d.walks.length)
      else setD s die { d with missq := d.missq ++ [{ cid, vpn, misses := [p] }] }

/-- Drop translations that a `tlbi` covers (R213, R400). -/
def tlbDrop (mode : TlbiMode) (a b : DWord) (l : List TlbEnt) : List TlbEnt :=
  l.filter fun e =>
    match mode with
    | .va =>
      let w := if pteLeaf e.pte.toNat then leafBits e.level else if e.level = 3 then 55 else if e.level = 2 then 42 else 29
      !(e.cid == b.toNat % 4096 && a.toNat / 2 ^ w == e.vpn * 2 ^ 16 / 2 ^ w)
    | .ctx => !(e.cid == b.toNat % 4096)
    | .all => false

end Sys2Proof.Machine
end

