-- ==== Sys2Proof/Machine/Queue.lean ====
section
/-! DEFINITION. Requests to homes, reads that may reach a peer, queues and their wharves, event and trace records
(R352 to R364, R419 to R421). -/
namespace Sys2Proof.Machine

/-! ### Requests -/

/-- The event row at which a home serves a request. -/
def serveRow (id : Nat) (op : HomeOp) (cont : Cont) : Instr :=
  match op with
  | .lease .. => .homeLeaseRequest id
  | .own => .ownershipRequest id
  | .load _ | .store _ => .untrackedAccess id
  | .atomic .. => .homeAtomic id
  | .part .. => .partialArrival id
  | .probe =>
    match cont with
    | .park p | .gate p | .op p => .parkProbe p
    | _ => .untrackedAccess id
  | .mbarInit _ | .mbarArr | .mbarRead => .homeMbarOp id
  | .queue .. => .homeQueueOp id
  | .dep => .homeDepDec id
  | .depRec .. => .depRecordArrival id
  | .prom .. => .promVictim id
  | .tlbi .. => .untrackedAccess id

/-! ### Packets on the links (R402, R403, R406) -/

def getL (s : State) (n : Nat) : Link := tget Link.init s.links n
def setL (s : State) (n : Nat) (l : Link) : State := { s with links := tset Link.init s.links n l }

/-- Links of the module's entry in the routing table that are up or degraded, in ascending order. -/
def upLinks (s : State) (m : Nat) : List Nat :=
  (List.range 36).filter fun n =>
    (getReg s (0x010000640000 + 8 * m)).getLsbD n && ((getL s n).st == 2 || (getL s n).st == 3)

/-- The link on which a packet for a line of module `m` leaves. -/
def pickLink (s : State) (m pa : Nat) : Option Nat :=
  let l := upLinks s m
  l[pa / 2 ^ 7 % 512 % l.length]?

/-- Packets that wait are sent, with sequence numbers, while the link may send and its replay buffer has room. -/
def pumpTx (l : Link) : Link :=
  if l.stopped then l
  else
    let go := l.txq.take (64 - l.replay.length)
    { l with
      replay := l.replay ++ go.zipIdx.map fun (e : (Nat × Nat) × Nat) => { seq := l.txSeq + e.2, dst := e.1.1, pa := e.1.2, resends := 0 }
      txSeq := l.txSeq + go.length
      txq := l.txq.drop (64 - l.replay.length) }

/-- A packet leaves the module. -/
def sendPacket (s : State) (m pa : Nat) : State :=
  match pickLink s m pa with
  | some n => setL s n (pumpTx { getL s n with txq := (getL s n).txq ++ [(m, pa)] })
  | none => s

/-- A packet to every other module that can be reached. -/
def sendPeers (s : State) : State :=
  ((List.range 512).filter fun m => m != s.modNo && isReach s (m * 2 ^ 47)).foldl (fun s m => sendPacket s m (m * 2 ^ 47)) s

/-- Send a request. A request to a peer leaves the module; its answer is PEER_REPLY. -/
def sendReq (s : State) (core cid pa : Nat) (op : HomeOp) (cont : Cont) (tag : Nat × Nat × Nat × Nat × Nat := (0, 0, 0, 0, 0))
    (stamp : Nat := 0) (sy : Option Scope := none) : State :=
  let id := s.nextId
  let r : Req := { id, core, cid, pa, clk := clockOf s core, op, cont, sent := s.time, port := false, tag, held := 0, stamp, sy }
  let s := { s with nextId := id + 1, reqs := s.reqs ++ [r] }
  if isOwn s pa then due s (serveRow id op cont) else sendPacket s (pa / 2 ^ 47 % 512) pa

def findReq (s : State) (id : Nat) : Option Req := s.reqs.find? fun r => r.id == id
def dropReq (s : State) (id : Nat) : State := { s with reqs := s.reqs.filter fun r => r.id != id }

/-- What a read that may have to reach a peer gives. -/
inductive Got where
  | ok (bytes : List Byte)
  | fail (cls : Nat)
  | wait
  deriving DecidableEq, Repr

/-- A line of a peer, fetched for `owner` and kept until it is done (R232). -/
def farGet (s : State) (owner core cid pa n : Nat) : Got × State :=
  match s.far.find? fun f => f.owner == owner && f.line == lineNo pa with
  | some f =>
    if f.cls ≠ 0 then (.fail f.cls, s)
    else
      match f.data with
      | some d => (.ok (lineRd d (pa % 128) n), s)
      | none => (.wait, s)
  | none =>
    if isReach s pa then
      let s := { s with far := s.far ++ [{ owner, line := lineNo pa, data := none, cls := 0 }] }
      (.wait, sendReq s core cid (pa / 128 * 128) (.load 128) (.far owner))
    else (.fail 0x10, s)
def farDrop (s : State) (owner : Nat) : State := { s with far := s.far.filter fun f => f.owner != owner }

/-- Read within one line, wherever it is homed. -/
def getBytes (s : State) (owner core cid pa n : Nat) : Got × State :=
  if isOwn s pa then
    let r := readNow s pa n
    if r.1.cls ≠ 0 then (.fail 8, r.2) else (.ok r.1.data, r.2)
  else farGet s owner core cid pa n

/-- Read `n` bytes at a virtual address, page by page and line by line, in the translation of a context. -/
def getVirt : Nat → State → Nat → Nat → Nat → Ask → Nat → Nat → Got × Nat × State
  | 0, s, _, _, _, _, va, _ => (.ok [], va, s)
  | fuel + 1, s, owner, core, cid, q, va, n =>
    if n = 0 then (.ok [], va, s)
    else
      let k := min n (128 - va % 128)
      let a := accessNow s core cid va q
      if a.1 ≠ 0 then (.fail a.1, va, a.2.2)
      else
        let g := getBytes a.2.2 owner core cid a.2.1 k
        match g.1 with
        | .ok b =>
          let r := getVirt fuel g.2 owner core cid q (va + k) (n - k)
          match r.1 with
          | .ok t => (.ok (b ++ t), r.2.1, r.2.2)
          | x => (x, r.2.1, r.2.2)
        | x => (x, va, g.2)

/-- Write within one line; a peer's part leaves as a packet, for `cont`. -/
def putBytes (s : State) (core cid pa : Nat) (bytes : List Byte) (cont : Cont := .drop) : State :=
  if isOwn s pa then writeNow s core pa bytes else sendReq s core cid pa (.store bytes) cont

/-- Write at a virtual address; the class and address of a failure, 0 for none. Lines before a failure are written. `cont`: who hears
of a peer's part, by its address. -/
def putVirt (cont : Nat → Cont) : Nat → State → Nat → Nat → Nat → List Byte → Nat × Nat × State
  | 0, s, _, _, va, _ => (0, va, s)
  | fuel + 1, s, core, cid, va, bytes =>
    match bytes with
    | [] => (0, va, s)
    | _ =>
      let k := min bytes.length (128 - va % 128)
      let a := accessNow s core cid va (Ask.store k)
      if a.1 ≠ 0 then (a.1, va, a.2.2)
      else if !isReach a.2.2 a.2.1 then (0x10, va, a.2.2)
      else putVirt cont fuel (putBytes a.2.2 core cid a.2.1 (bytes.take k) (cont va)) core cid (va + k) (bytes.drop k)

/-- A core's partials of one line, sent and taken at the home in one step (releases of the device itself). -/
def flushPart (s : State) (core line : Nat) : State :=
  let x := getC s core
  match tfind x.parts line with
  | none => s
  | some p =>
    let s := setC s core { x with parts := tdel x.parts line }
    if isOwn s (line * 128) then
      let r := homePart (recallNow s line) line (clockOf s core) (s.modNo * 1024 + core) p
      seeTide r.2 core r.1.wt
    else sendReq s core 0 (line * 128) (.part (s.modNo * 1024 + core) p) .drop
def flushParts (s : State) (core : Nat) : State :=
  (getC s core).parts.foldl (fun s e => flushPart s core e.1) s

/-! ### Wharves (R353 to R360) -/

/-- Fields of a header (R352). -/
def hdrKind (h : Nat) : Nat := bitsAt h 64 4
def hdrLcap (h : Nat) : Nat := bitsAt h 72 4
def hdrBad (h : Nat) : Bool :=
  bitsAt h 0 64 != 0 || bitsAt h 68 4 != 0 || bitsAt h 76 20 != 0 || h / 2 ^ 115 != 0 || 3 < hdrKind h || 12 < hdrLcap h

def hasMany (kind : Nat) : Bool := kind ≤ 1
/-- Slices at which a queue holds wharves. -/
def queueSlices (kind hpa : Nat) : List Nat := if hasMany kind then List.range 512 else [sliceOfPa hpa]

/-- The places that a context reserves at every slice while it is loaded (R355): until it is retired or killed. -/
def qresCtx (x : Ctx) : Nat := if 1 ≤ x.st && x.st ≤ 6 then blk x 800 16 else 0
def qresOf (s : State) (cid : Nat) : Nat := ((getX s cid).map qresCtx).getD 0
/-- Places reserved at every slice for loaded contexts. -/
def qresSum (s : State) : Nat := s.ctxs.foldl (fun a e => a + qresCtx e.2) 0

/-- Places a queue holds at a slice, and how many of them came from its context's reservation. -/
def qPlaces (hpa : Nat) (q : Queue) (k : Nat) : Nat :=
  if hasMany q.kind then 2 ^ q.lcap else if sliceOfPa hpa = k then 2 ^ q.lcap else 0
def resvUsed (s : State) (cid k : Nat) : Nat :=
  s.queues.foldl (fun a e => if e.2.cid = cid then a + tget 0 e.2.resv k else a) 0
/-- Places in use at a slice that no reservation covers; those that a `reload` took out of a reservation while they were in use
are among them (R355). -/
def poolUsed (s : State) (k : Nat) : Nat :=
  s.queues.foldl (fun a e => a + (qPlaces e.1 e.2 k - tget 0 e.2.resv k)) 0 +
    s.ctxs.foldl (fun a e => a + (resvUsed s e.1 k - qresOf s e.1)) 0

/-- Open a queue (R354, R355): nothing where a slice lacks the places. -/
def openQueue (s : State) (cid hpa hdr : Nat) : Option State :=
  if hdrBad hdr then none
  else
    let need := 2 ^ hdrLcap hdr
    let ks := queueSlices (hdrKind hdr) hpa
    let q0 := qresOf s cid
    let sum := qresSum s
    let part := ks.map fun k => (k, min need (q0 - resvUsed s cid k))
    if part.all fun e => need - e.2 ≤ 4096 - sum - poolUsed s e.1 then
      let q : Queue :=
        { cid, kind := hdrKind hdr, lcap := hdrLcap hdr, cursor := 0, resv := part.filter fun e => e.2 != 0, wharves := [] }
      some { s with queues := tput s.queues hpa q }
    else none

def wharf (q : Queue) (w : Nat) : List QRec := tget [] q.wharves w
def setWharf (s : State) (hpa : Nat) (q : Queue) (w : Nat) (l : List QRec) : State :=
  { s with queues := tput s.queues hpa ({ q with wharves := tset [] q.wharves w l } : Queue) }

/-- Fields of a task record (R356). -/
def recAt (r : Record) (lo len : Nat) : Nat := r.toNat / 2 ^ lo % 2 ^ len
def recKey (r : Record) : Nat := recAt r 0 32
def recKid (r : Record) : Nat := recAt r 32 16
def recDep (r : Record) : Nat := recAt r 64 64
def recParam (r : Record) : Nat := recAt r 128 64

/-- The wharf of a record with DEP = 0 (R357). -/
def keyWharf (key : Nat) : Nat := (key % 512) ^^^ (key / 2 ^ 9 % 512) ^^^ (key / 2 ^ 18 % 512) ^^^ (key / 2 ^ 27 % 32)

/-- Place a record; nothing where the wharf is full. -/
def placeRec (s : State) (hpa w : Nat) (e : QRec) : Option State :=
  match tfind s.queues hpa with
  | none => none
  | some q => if (wharf q w).length < 2 ^ q.lcap then some (setWharf s hpa q w (wharf q w ++ [e])) else none

def isReady (e : QRec) : Bool := e.held.isNone

/-- The first wharf at or after the cursor, modulo 512, that holds a ready record (R360). -/
def readyWharf (q : Queue) : Option Nat :=
  if hasMany q.kind then
    ((List.range 512).map fun i => (q.cursor + i) % 512).find? fun w => (wharf q w).any isReady
  else if (wharf q 0).any isReady then some 0 else none

/-- Fibres of a context whose records wait for room, and runs whose records do (R347, R364). -/
def roomFreed (s : State) (cid : Nat) : State :=
  let s := s.fibres.foldl
    (fun s e => if !e.2.events.isEmpty && cidOf s e.2 == cid then due s (.eventPost (placeOf e.1)) else s) s
  s.runs.foldl (fun s r => if r.cid == cid && !r.todo.isEmpty then due s (.graphRecordPlace r.slot r.id) else s) s

/-- Take a ready record (R360): of a deque the bottom or the top, else the first one of its wharf. -/
def takeRec (s : State) (hpa : Nat) (bottom : Bool) : Option (QRec × State) :=
  match tfind s.queues hpa with
  | none => none
  | some q =>
    match readyWharf q with
    | none => none
    | some w =>
      let l := wharf q w
      let r := if bottom then (pick isReady l.reverse).map (fun x => (x.1, x.2.reverse)) else pick isReady l
      r.map fun x => (x.1, roomFreed (setWharf s hpa { q with cursor := if hasMany q.kind then (w + 1) % 512 else 0 } w x.2) q.cid)

/-- Make ready every record held on a counter, in any queue, in the order in which they were pushed (R360, R362); one that takes
it observes the decrement too (R358). -/
def releaseHeld (s : State) (pa clk : Nat) : Nat × State :=
  let n := s.queues.foldl (fun a e => a + (e.2.wharves.foldl (fun a w => a + w.2.countP fun r => r.held == some pa) 0)) 0
  (n, { s with queues := s.queues.map fun e =>
        (e.1, { e.2 with wharves := e.2.wharves.map fun w =>
          (w.1, (w.2.filter fun r => r.held != some pa) ++
            (w.2.filter fun r => r.held == some pa).map fun r => { r with held := none, clk := max r.clk clk }) }) })

/-! ### Event records (R363, R364) -/

/-- The fields of an event or trace record. -/
structure RecF where
  time : Nat := 0
  addr : Nat := 0
  pc : Nat := 0
  rgn : Nat := 0
  data : Nat := 0
  inst : Nat := 0
  mask : Nat := 0
  place : Nat := 0
  aux : Nat := 0
  type : Nat := 0
  cls : Nat := 0
  count : Nat := 0
  deriving DecidableEq, Repr

/-- Layout shared by event records (R363) and trace records (R421); a trace record's STATE takes the place of CLASS. -/
def mkRec (f : RecF) : Record :=
  BitVec.ofNat 512
    (f.count % 256 * 2 ^ 32 + f.cls % 256 * 2 ^ 40 + f.type % 256 * 2 ^ 48 + f.aux % 2 ^ 32 * 2 ^ 64 + f.place % 2 ^ 24 * 2 ^ 96 +
      f.mask % 2 ^ 32 * 2 ^ 128 + f.inst % 2 ^ 32 * 2 ^ 160 + f.data % 2 ^ 64 * 2 ^ 192 + f.rgn % 2 ^ 64 * 2 ^ 256 +
      f.pc % 2 ^ 64 * 2 ^ 320 + f.addr % 2 ^ 64 * 2 ^ 384 + f.time % 2 ^ 64 * 2 ^ 448)
def recType (r : Record) : Nat := recAt r 48 8

/-- Fill in LOST. -/
def withLost (r : Record) (n : Nat) : Record := BitVec.ofNat 512 (r.toNat / 2 ^ 32 * 2 ^ 32 + n % 2 ^ 32)

/-- Fill in TIME, at the posting (R363). -/
def withTime (r : Record) (t : Nat) : Record := BitVec.ofNat 512 (r.toNat % 2 ^ 448 + t % 2 ^ 64 * 2 ^ 448)

/-- The event queue has room for a record. -/
def eventRoom (s : State) (cid : Nat) : Bool :=
  match (getX s cid).bind fun x => x.eq.bind fun e => tfind s.queues e with
  | some q => (wharf q 0).length < 2 ^ q.lcap
  | none => false

/-- Post a record for which there is room, with the time and the count of those lost before it. -/
def postNow (s : State) (cid : Nat) (r : Record) (clk : Nat := 0) : State :=
  match getX s cid with
  | none => s
  | some x =>
    match x.eq with
    | none => s
    | some e =>
      match placeRec s e 0 { rcd := withTime (withLost r x.lost) s.time, held := none, run := none, clk } with
      | some s => modX s cid fun x => { x with lost := 0 }
      | none => s

/-- Post a record of a type that is dropped and counted when the wharf is full (types 0x05 to 0x09). -/
def postFree (s : State) (cid : Nat) (r : Record) : State :=
  if eventRoom s cid then postNow s cid r else modX s cid fun x => { x with lost := x.lost + 1 }

/-- Post a record that names a fibre (types 0x01 to 0x04), as a release at `mod` scope; it waits with the fibre when the wharf
is full. -/
def postFibre (s : State) (p : Place) (cid : Nat) (r : Record) : State :=
  let s := flushParts s p.core
  if eventRoom s cid && ((getF s p).map fun f => f.events.isEmpty).getD true then postNow s cid r (clockOf s p.core)
  else modF s p fun f => { f with events := f.events ++ [r] }

/-! ### Trace records (R419 to R421) -/

def dbgAddr (cid : Nat) : Nat := 0x010000800000 + 0x40 * cid

/-- A record that is not written is counted. -/
def traceLost (s : State) (cid : Nat) : State := modX s cid fun x => { x with trLost := x.trLost + 1 }

/-- TRHEAD passes a record that is written in the ring. -/
def traceDone (s : State) (cid : Nat) : State :=
  let a := dbgAddr cid + 8
  setReg (modX s cid fun x => { x with trLost := 0 }) a (BitVec.ofNat 64 ((getReg s a).toNat + 1))

/-- Write a record at TRHEAD as untracked stores, or drop and count it. True where its page is a peer's, whose acknowledgement is to
come. -/
def traceWrite (s : State) (core cid : Nat) (r : Record) : Bool × State :=
  let a := dbgAddr cid
  let base := (getReg s a).toNat / 64 * 64
  let n := 2 ^ min ((getReg s a).toNat % 64) 20
  let head := (getReg s (a + 8)).toNat
  let tail := (getReg s (a + 16)).toNat
  match getX s cid with
  | none => (false, s)
  | some x =>
    if head < tail ∨ n ≤ head - tail then (false, traceLost s cid)
    else
      let va := base + 64 * (head % n)
      let w := putVirt (fun _ => .trace cid) 2 s core cid va (bytesOf 64 (withTime (withLost r x.trLost) s.time).toNat)
      if w.1 ≠ 0 then (false, traceLost w.2.2 cid)
      else if w.2.2.reqs.any (fun q => q.cont == .trace cid) then (true, w.2.2)
      else (false, traceDone w.2.2 cid)

/-- Write the records of a context that wait, up to one that a peer has to acknowledge. -/
def traceGo : Nat → State → Nat → Nat → State
  | 0, s, _, _ => s
  | k + 1, s, core, cid =>
    match (getX s cid).map Ctx.trq with
    | some (r :: rest) =>
      let w := traceWrite s core cid r
      if w.1 then w.2 else traceGo k (modX w.2 cid fun x => { x with trq := rest }) core cid
    | _ => s

/-- A trace record is written to its context's ring, after those that wait for a peer (R420). -/
def trace (s : State) (core cid : Nat) (r : Record) : State :=
  match getX s cid with
  | none => s
  | some x =>
    if x.trq.isEmpty then traceGo 1 (modX s cid fun x => { x with trq := [r] }) core cid
    else modX s cid fun x => { x with trq := x.trq ++ [r] }

/-- A peer has acknowledged the write of the first waiting record, or it has failed (R232, R420). -/
def traceWritten (s : State) (core cid cls : Nat) : State :=
  let n := ((getX s cid).map fun x => x.trq.length).getD 0
  if n = 0 then s
  else
  let s := if cls = 0 then traceDone s cid else traceLost s cid
  traceGo n (modX s cid fun x => { x with trq := x.trq.drop 1 }) core cid

end Sys2Proof.Machine
end

