-- ==== Sys2Proof/Machine/Regs.lean ====
section
/-! DEFINITION. The register range (R25, R439): which addresses hold a register, what it reads as, and what a write does. -/
namespace Sys2Proof.Machine

/-- The 8-byte registers of the range. -/
inductive RegId where
  | fstepCount (die : Nat)
  | fstep (die : Nat) (e : Nat) (k : Nat)
  | lane (a : Nat) (mask : Nat)
  | slotTrig (n : Nat)
  | slotStat (n : Nat)
  | slotPatch (n : Nat) (e : Nat) (hi : Bool)
  | cbaddr | cmd | result | heartbeat | gangStart
  | root (cid : Nat)
  | linkStat (n : Nat)
  | linkCmd (n : Nat)
  | comm (c : Nat) (k : Nat)
  | route (m : Nat)
  | inject (hi : Bool)
  | bootStat | lcs | capHead | warm
  | plimit
  | freq (d : Nat)
  | pwr | temp
  | dbg (cid : Nat) (k : Nat)
  | watch (cid : Nat) (k : Nat)
  | cap (off : Nat)
  deriving DecidableEq, Repr

/-- Bytes of the capability records (R436, R437). -/
def capLen : Nat := 24 * 5 + 1328

/-- The address of the first capability record (R436): the records lie one after the other, on 8-byte boundaries of the register
range and above its other registers (log entry 11, PRESUMED). -/
def capAt : Nat := 0x0100008C0000 + 8 * (Config.capHead % 0x1FFFEE7F00)

/-- The register that holds an address of the range, if any; `a` is a multiple of 8. -/
def regAt (a : Nat) : Option RegId :=
  let o := a - 0x010000000000
  if o < 0x80000 then
    let d := o / 0x10000
    let x := o % 0x10000
    if x = 0x400 then some (.fstepCount d)
    else if 0x800 ≤ x ∧ x < 0x1000 then some (.fstep d ((x - 0x800) / 32) ((x - 0x800) % 32 / 8))
    else if x = 0x1000 then some (.lane a 0x1FFF)
    else if 0x1100 ≤ x ∧ x < 0x1200 then some (.lane a (2 ^ 64 - 1))
    else if 0x2000 ≤ x ∧ x < 0x2000 + 640 then some (.lane a (2 ^ 64 - 1))
    else none
  else if 0x100000 ≤ o ∧ o < 0x500000 then
    let n := (o - 0x100000) / 0x1000
    let x := o % 0x1000
    if x = 0 then some (.slotTrig n)
    else if x = 8 then some (.slotStat n)
    else if 0x400 ≤ x ∧ x < 0x800 then some (.slotPatch n ((x - 0x400) / 16) (x % 16 == 8))
    else none
  else if o = 0x600000 then some .cbaddr
  else if o = 0x600008 then some .cmd
  else if o = 0x600010 then some .result
  else if o = 0x600018 then some .heartbeat
  else if o = 0x600020 then some .gangStart
  else if 0x610000 ≤ o ∧ o < 0x618000 then some (.root ((o - 0x610000) / 8))
  else if 0x620000 ≤ o ∧ o < 0x620000 + 0x40 * 36 then
    (if o % 0x40 = 0 then some (.linkStat ((o - 0x620000) / 0x40))
     else if o % 0x40 = 8 then some (.linkCmd ((o - 0x620000) / 0x40)) else none)
  else if 0x630000 ≤ o ∧ o < 0x638000 then some (.comm ((o - 0x630000) / 0x80) (o % 0x80 / 8))
  else if 0x640000 ≤ o ∧ o < 0x641000 then some (.route ((o - 0x640000) / 8))
  else if o = 0x670000 then some (.inject false)
  else if o = 0x670008 then some (.inject true)
  else if o = 0x680000 then some .bootStat
  else if o = 0x680008 then some .lcs
  else if o = 0x680010 then some .capHead
  else if o = 0x680018 then some .warm
  else if o = 0x690000 then some .plimit
  else if 0x690008 ≤ o ∧ o < 0x690048 then some (.freq ((o - 0x690008) / 8))
  else if o = 0x690048 then some .pwr
  else if o = 0x690050 then some .temp
  else if 0x800000 ≤ o ∧ o < 0x840000 then
    (if o % 0x40 < 0x30 then some (.dbg ((o - 0x800000) / 0x40) (o % 0x40 / 8)) else none)
  else if 0x880000 ≤ o ∧ o < 0x8C0000 then
    (if o % 0x40 < 0x20 then some (.watch ((o - 0x880000) / 0x40) (o % 0x40 / 8)) else none)
  else if capAt ≤ a ∧ a < capAt + capLen then some (.cap (a - capAt))
  else none

/-- The capability records, one after the other (R436, R437): DUAL accepted, b1 and b2 accepted, the six commutative
operations, the CXL size, 36 links and 512 modules, the identity key. -/
def capWord (s : State) (off : Nat) : Nat :=
  let hdr (i len next : Nat) (k : Nat) : Nat := if k = 0 then i + 2 ^ 16 + len * 2 ^ 32 else next
  if off < 120 then
    let i := off / 24
    let k := off % 24 / 8
    let next := capAt + 24 * (i + 1)
    if k < 2 then hdr (i + 1) 24 next k
    else ([1, 3, 0x3F, s.cxlSize, 36 + 512 * 2 ^ 16] : List Nat).getD i 0
  else if off < 136 then hdr 6 1328 0 ((off - 120) / 8)
  else (Config.identityKey s.boot.keyNo).toNat / 2 ^ (8 * (off - 136)) % 2 ^ 64

/-- Runs in flight of a graph slot (R346). -/
def runsOf (s : State) (n : Nat) : Nat := s.runs.countP fun r => r.slot == n

/-- Where the two halves of the fault-injection register are kept. -/
def injAddr : Nat := 0x010000670000
def injOk (s : State) : Bool := s.boot.lcs == 1 || s.boot.lcs == 3

/-- What a register reads as, before anything is cleared. -/
def regVal (s : State) (a : Nat) : Nat :=
  match regAt a with
  | none => 0
  | some r =>
    match r with
    | .fstepCount d => (getD s d).logCount
    | .fstep d e k =>
      let x := getD s d
      -- the log keeps the newest 64 entries, newest first
      let n := x.logCount
      let age := if n = 0 then 64 else (n - 1 + 64 - e) % 64
      match x.log[age]? with
      | some l => if k = 0 then l.time0 else if k = 1 then l.cyc0 else if k = 2 then l.fmul else 0
      | none => 0
    | .slotTrig _ | .cmd | .linkCmd _ => 0
    | .slotStat n => (tget Slot.init s.slotTab n).refused * 2 ^ 32 + min (runsOf s n) 7
    | .linkStat n =>
      let l := tget Link.init s.links n
      l.resent % 2 ^ 16 * 2 ^ 48 + l.peer % 512 * 2 ^ 32 + l.width * 2 ^ 8 + l.st
    | .bootStat => s.boot.fwver.toNat * 2 ^ 32 + (if s.boot.bfail then 2 ^ 8 else 0) + s.boot.stage
    | .lcs => s.boot.lcs.toNat
    | .capHead => capAt
    | .warm => s.boot.wcount % 2 ^ 32 * 2 ^ 32 + (if s.boot.wreq then 1 else 0)
    | .cap off => capWord s off
    | .inject _ => if injOk s then (getReg s a).toNat else 0
    | .dbg _ 4 => 0
    | _ => (getReg s a).toNat

/-- Bits of a register that a write may change (RW fields). -/
def regMask (a : Nat) : Nat :=
  let ones := 2 ^ 64 - 1
  match regAt a with
  | none => 0
  | some r =>
    match r with
    | .lane _ m => m
    | .slotPatch _ _ hi => if hi then ones else 2 ^ 32 - 1
    | .cbaddr | .heartbeat | .gangStart => ones
    | .root _ => 2 ^ 56 - 2 ^ 16 + 1
    | .comm _ k => if k < 8 then ones else if k = 8 then 2 ^ 16 + 0xFFF else 0
    | .route _ => 2 ^ 36 - 1
    | .inject hi => if hi then ones else ones - (2 ^ 49 - 1) + 1
    | .plimit => 0xFFFF
    | .freq _ => 0x3F
    | .dbg _ k => if k = 0 ∨ k = 2 then ones else if k = 3 then 2 ^ 32 - 1 else if k = 5 then ones - 0xFF80 else 0
    | .watch _ k => if k % 2 = 0 then ones else 2 ^ 40 - 2 ^ 8 + 3
    | _ => 0

/-- Clear the RC fields of a register that have a bit among those read (`m`). -/
def regClear (s : State) (a m : Nat) : State :=
  match regAt a with
  | some (.slotStat n) =>
    if m / 2 ^ 32 = 0 then s
    else { s with slotTab := tset Slot.init s.slotTab n { tget Slot.init s.slotTab n with refused := 0 } }
  | some .result => if m % 16 = 0 then s else setReg s a 0
  | some (.linkStat n) =>
    if m / 2 ^ 48 = 0 then s else { s with links := tset Link.init s.links n { tget Link.init s.links n with resent := 0 } }
  | _ => s

/-- Bits of the 8-byte register that an access of 4 or 8 bytes names. -/
def regBits (pa size : Nat) : Nat := (2 ^ (8 * size) - 1) * 2 ^ (8 * (pa % 8))

/-- An address of the range that no register holds (R439). -/
def regHole (pa : Nat) : Bool := (regAt (pa / 8 * 8)).isNone

/-- A read of 4 or 8 bytes (R439). -/
def regRead (s : State) (pa size : Nat) : Nat × State :=
  let a := pa / 8 * 8
  (regVal s a / 2 ^ (8 * (pa % 8)) % 2 ^ (8 * size), regClear s a (regBits pa size))

/-- A patch entry of a slot (R346): offset and value. -/
def slotPatch (s : State) (slot e : Nat) : Nat × Nat :=
  let a := 0x010000100000 + 0x1000 * slot + 0x400 + 16 * e
  ((getReg s a).toNat % 2 ^ 32, (getReg s (a + 8)).toNat)

/-- The entries that a trigger with `np` patches takes, as they stand now (R347). -/
def slotPatches (s : State) (slot np : Nat) : List (Nat × Nat) := (List.range (min np 64)).map fun e => slotPatch s slot e

/-- A write to this address is not accepted yet: a context command has not completed (R371). -/
def cmdBusy (s : State) (pa : Nat) : Bool := pa / 8 * 8 == 0x010000600008 && s.cmd.isSome

/-- Who writes. -/
inductive Writer where
  | priv | controlCore | host
  deriving DecidableEq, Repr

/-- The command rows of the context command register (R371). -/
def cmdRow (v : Nat) : Instr :=
  let cid := v % 4096
  match v / 4096 % 16 with
  | 1 => .alloc
  | 2 => .load
  | 3 => .reload cid
  | 4 => .freeze cid
  | 5 => .thaw cid
  | 6 => .kill cid
  | 7 => .retire cid
  | _ => .dump cid

/-- The debug commands (R419); one that names a fibre of another module has no effect. -/
def hcmdRow (s : State) (cid v : Nat) : Option Instr :=
  let w := v / 2 ^ 16 % 2 ^ 24
  let p : Place := { core := w / 2 ^ 5 % 1024, berth := w / 8 % 4, fib := w % 8 }
  if 1 ≤ v % 16 ∧ v % 16 ≤ 4 ∧ w / 2 ^ 15 ≠ s.modNo then none
  else match v % 16 with
  | 1 => some (.halt cid p)
  | 2 => some (.resume cid p)
  | 3 => some (.step cid p)
  | 4 => some (.haltAtRegionEdge cid p)
  | 5 => some (.haltEveryFibre cid)
  | 6 => some (.resumeEveryFibre cid)
  | _ => none

/-- The replay log of a context begins again at its first entry (log entry 34, DEDUCED): operations that are held look again. -/
def replayRestart (s : State) (cid : Nat) : State :=
  let s := s.slices.foldl
    (fun s e => setSl s e.1 { e.2 with logged := tset 0 e.2.logged cid 0, free := e.2.free.filter (· != cid) }) s
  (s.reqs.filter fun r => r.cid == cid && r.held != 0).foldl (fun s r => due s (serveRow r.id r.op r.cont)) s

/-- A write of 4 or 8 bytes (R439): the written bits change, and a register that acts acts once, by its row. -/
def regWrite (s : State) (who : Writer) (pa size v : Nat) : State :=
  let a := pa / 8 * 8
  let bits := regBits pa size
  let w := v % 2 ^ (8 * size) * 2 ^ (8 * (pa % 8))
  let m := bits &&& regMask a
  let old := (getReg s a).toNat
  let new := (old &&& (2 ^ 64 - 1 - m)) ||| (w &&& m)
  match regAt a with
  | none => s
  | some r =>
    match r with
    | .slotTrig n =>
      -- the trigger takes the patches as they stand (R347)
      let np := w / 2 ^ 32 % 128
      due { s with trigs := s.trigs ++ [(n, np, slotPatches s n np)] } (.graphTrigger n (BitVec.ofNat 7 np))
    | .cmd =>
      if s.cmd.isSome then s
      else if w / 4096 % 16 = 0 ∨ 8 < w / 4096 % 16 then setReg s 0x010000600010 5
      else due { s with cmd := some (cmdRow w) } (cmdRow w)
    | .heartbeat => due (setReg s a (BitVec.ofNat 64 new)) (.heartbeatWrite (BitVec.ofNat 64 new))
    | .gangStart => due (setReg s a (BitVec.ofNat 64 new)) (.gangStartWrite (BitVec.ofNat 64 new))
    | .linkCmd n => if w % 4 = 1 then due s (.linkEnable n) else if w % 4 = 2 then due s (.linkDisable n) else s
    | .warm =>
      if w % 2 = 1 ∧ who = .controlCore then due s (.warmRebootRequest .controlCore) else s
    | .inject hi =>
      -- ARM is written as the other fields are; a 1 written to DONE clears it (R429)
      if who = .host ∨ !injOk s then s
      else setReg s a (BitVec.ofNat 64 (if !hi ∧ w / 2 % 2 = 1 then new - new / 2 % 2 * 2 else new))
    | .dbg cid 4 =>
      match hcmdRow s cid w with
      | some i => due s i
      | none => s
    | .dbg cid 5 => replayRestart (setReg s a (BitVec.ofNat 64 new)) cid
    | _ => setReg s a (BitVec.ofNat 64 new)

end Sys2Proof.Machine
end

