-- ==== Sys2Proof/Machine/Ops.lean ====
section
/-! DEFINITION. Named operations of a fibre: registers and the undo log, waiting and running, faults and their handlers
(R146 to R197). -/
namespace Sys2Proof.Machine

/-! ### Pieces of a fibre -/

/-- The running half as a half. -/
def curHalf (f : Fibre) : Half := { mask := f.amask, pc := f.pc, splits := f.splits, wait := f.wait }
/-- The live lanes of a piece, all its halves together. -/
def liveMask (f : Fibre) : Mask := f.halves.foldl (fun m h => m ||| h.mask) f.amask

/-- Rotate the halves: the running one goes to the end (R163); waiting halves are passed over, and the fibre blocks when every
live half waits. -/
def rotate (f : Fibre) : Fibre :=
  match f.halves with
  | [] => f
  | _ =>
    let all := f.halves ++ [curHalf f]
    -- the first half that can run
    let r := all.findIdx? fun h => h.wait == .none
    match r with
    | none =>
      { f with amask := (all.headD (curHalf f)).mask, pc := (all.headD (curHalf f)).pc, splits := (all.headD (curHalf f)).splits,
               wait := (all.headD (curHalf f)).wait, halves := all.drop 1, halfCount := 0, fetched := none, emptyAt := false, xlat := [] }
    | some k =>
      let h := all.getD k (curHalf f)
      { f with amask := h.mask, pc := h.pc, splits := h.splits, wait := h.wait, halves := all.drop (k + 1) ++ all.take k, halfCount := 0,
               fetched := none, emptyAt := false, xlat := [] }

/-- Change how the halves of a fibre wait, those to which a rollback would return among them. -/
def mapWait (s : State) (p : Place) (g : Wait → Wait) : State :=
  let m (h : Half) : Half := { h with wait := g h.wait }
  modF s p fun f => { f with wait := g f.wait, halves := f.halves.map m, span := { f.span with entry := f.span.entry.map m } }

/-- Halves of a fibre that wait in this way go on. -/
def wakeWait (s : State) (p : Place) (t : Wait → Bool) : State :=
  modF (mapWait s p fun w => if t w then .none else w) p fun f =>
    let f := { f with readySince := cycOf s p.core }
    if f.wait != .none && f.halves.any (fun h => h.wait == .none) then rotate f else f

/-- The ways in which the halves of a fibre wait. -/
def waitsOf (f : Fibre) : List Wait := f.wait :: f.halves.map Half.wait

/-- Contexts of the same berth that are pieces of the family of `root` (R160). -/
def family (s : State) (core berth root : Nat) : List Nat :=
  (List.range 8).filter fun c =>
    match tfind s.fibres (bkey core berth * 8 + c) with
    | some f => f.root == root
    | none => false
def alone (s : State) (p : Place) (f : Fibre) : Bool := (family s p.core p.berth f.root).length ≤ 1

/-- A fresh span that starts at the fibre's pc (R179, R187). -/
def newSpan (f : Fibre) : Span :=
  { start := f.pc, count := 0, limit := f.span.nextLimit, nextLimit := f.span.nextLimit,
    rgn := BitVec.ofNat 64 (rgnWord f.regions), entry := curHalf f :: f.halves, hold := [], undo := [], faulted := none,
    forced0 := f.pilot.forced, brk := none,
    load0 := match f.dual with
      | some d => d.nload
      | none => 0
    hnd0 := f.hnd, s6x := [60, 61, 62, 63].map (sget f), blk := [] }

/-- The span holds no instruction, no entry and no undo. -/
def spanClean (f : Fibre) : Bool := f.span.count == 0 && f.span.hold.isEmpty && f.span.undo.isEmpty

/-- A long-latency result that a piece waits for: a scalar one of its own, or one in its lanes (R160, R181). -/
def ofPiece (p : Place) (f : Fibre) (q : Pend) : Bool :=
  q.core == p.core && q.berth == p.berth &&
    (if q.scalar then q.fib == p.fib else q.root == f.root && q.mask &&& liveMask f != 0)

/-- The fibre has a long-latency result outstanding (R181). -/
def hasPend (s : State) (p : Place) : Bool :=
  match getF s p with
  | some f => s.pends.any (ofPiece p f)
  | none => false

/-- The answers that are out for the commit-point operation of a fibre go nowhere: the operation is given up. -/
def dropOp (s : State) (p : Place) : State :=
  let cut (c : Cont) : Cont := if c == .op p then .drop else c
  { s with
    reqs := s.reqs.map fun r => { r with cont := cut r.cont }
    replies := s.replies.map fun x => { x with req := { x.req with cont := cut x.req.cont } } }

/-- A request of the commit-point operation in progress is still out. -/
def opOut (s : State) (p : Place) : Bool := s.reqs.any (fun r => r.cont == .op p) || s.replies.any (fun r => r.req.cont == .op p)

/-! ### Writing registers -/

/-- A 32-bit value in a scalar register (R38): bits [63:32] copy bit 31 under i32, i8 and i16, else 0. -/
def widenTy (t : Ty) (v : Nat) : Nat :=
  match t with
  | .i32 | .i8 | .i16 => sextTo 64 32 v
  | _ => v

/-- The value of a register now, as an undo entry would hold it. -/
def refNow (s : State) (r : RegRef) : Lanes × DWord :=
  match r with
  | .vec k => (vget s k, 0)
  | .sca fib n => (zeroLanes, match tfind s.fibres fib with
    | some f => sget f n
    | none => 0)
  | .fp4 fib => (zeroLanes, match tfind s.fibres fib with
    | some f => f.fp4x.setWidth 64
    | none => 0)

def setLanes (l : Lanes) (vs : List (Nat × Nat)) (sh : Nat) : Lanes :=
  (List.range 32).map fun i =>
    match vs.find? fun e => e.1 == i with
    | some e => BitVec.ofNat 32 (e.2 / 2 ^ sh)
    | none => laneOf l i

/-- Lanes of `m` from `a`, the others from `b`. -/
def mixLanes (m : Mask) (a b : Lanes) : Lanes := (List.range 32).map fun i => if m.getLsbD i then laneOf a i else laneOf b i

/-- Lanes that an undo entry of a piece covers (R162, R184). -/
def undoMask (s : State) (p : Place) (f : Fibre) : Mask := if alone s p f then BitVec.allOnes 32 else liveMask f

/-- An undo log with an entry added: of a register that it holds already, only lanes that the log does not cover (R184). -/
def addUndo (l : List UndoEnt) (n : UndoEnt) : List UndoEnt :=
  match l.find? fun e => e.ref == n.ref with
  | none => l ++ [n]
  | some e =>
    if n.mask &&& ~~~e.mask = 0 then l
    else swapFirst (fun x : UndoEnt => x.ref == n.ref) { e with oldV := mixLanes e.mask e.oldV n.oldV, mask := e.mask ||| n.mask } l

/-- Log a register before its first write in the span (R184). -/
def logRef (s : State) (p : Place) (r : RegRef) : State :=
  match getF s p with
  | none => s
  | some f =>
    let old := refNow s r
    let m := undoMask s p f
    setF s p { f with span := { f.span with undo := addUndo f.span.undo { ref := r, oldV := old.1, oldS := old.2, mask := m } } }

/-- Undo entries that writing these registers would add. -/
def undoNeed (f : Fibre) (rs : List RegRef) : Nat := rs.countP fun r => !f.span.undo.any fun e => e.ref == r

/-- Fault injection (R429): the value of this write with its one bit inverted, when the armed injection names it. -/
def inject (s : State) (p : Place) (f : Fibre) (o : Opnd) (n : Nat) (vs : List (Nat × Nat)) : List (Nat × Nat) × State :=
  let lo := (getReg s injAddr).toNat
  let hi := (getReg s (injAddr + 8)).toNat
  let reg := lo / 2 ^ 60 + hi % 2 ^ 5 * 16
  let lane := lo / 2 ^ 55 % 32
  let bit := lo / 2 ^ 49 % 64
  let fib := hi / 2 ^ 5 % 8
  let berth := hi / 2 ^ 8 % 4
  let core := hi / 2 ^ 10 % 1024
  let cid := hi / 2 ^ 20 % 4096
  let span := hi / 2 ^ 32
  if lo % 2 = 1 && injOk s && fib == p.fib && berth == p.berth && core == p.core && cid == cidOf s f && span == f.spanNo then
    let done := setReg s injAddr (BitVec.ofNat 64 (lo - 1 ||| 2))
    match o with
    | .v k =>
      -- a pair or group takes the registers from k upward
      if k.toNat ≤ reg ∧ reg < k.toNat + n ∧ reg < 256 ∧ bit < 32 ∧ vs.any (fun e => e.1 == lane) then
        (vs.map fun e => if e.1 = lane then (e.1, e.2 ^^^ 2 ^ (bit + 32 * (reg - k.toNat))) else e, done)
      else (vs, s)
    | .s k =>
      if reg ≠ 256 ∧ 256 + k.toNat ≤ reg ∧ reg < 256 + k.toNat + max 1 (n / 2) then
        (vs.map fun e => (e.1, e.2 ^^^ 2 ^ (bit + 64 * (reg - 256 - k.toNat))), done)
      else (vs, s)
    | .sp _ => (vs, s)
  else (vs, s)

/-- Write a value to one register of an operand; `sh`: its place in the value. -/
def putRef (s : State) (r : RegRef) (vs : List (Nat × Nat)) (sh : Nat) : State :=
  match r with
  | .vec k => { s with vregs := tset zeroLanes s.vregs k (setLanes (vget s k) vs sh) }
  | .sca fib n =>
    match tfind s.fibres fib, vs with
    | some f, e :: _ => { s with fibres := tput s.fibres fib { f with scal := tset 0 f.scal n (BitVec.ofNat 64 (e.2 / 2 ^ sh)) } }
    | _, _ => s
  | .fp4 fib =>
    match tfind s.fibres fib, vs with
    | some f, e :: _ => { s with fibres := tput s.fibres fib { f with fp4x := BitVec.ofNat 16 (e.2 / 2 ^ sh) } }
    | _, _ => s

/-- Place in the value of each register of an operand (R38): 32 bits apart in a lane, 64 in scalars. -/
def refShifts (o : Opnd) (n : Nat) : List Nat :=
  match o with
  | .v _ => (List.range n).map fun j => 32 * j
  | .s k => ((List.range (max 1 (n / 2))).filter fun j => k.toNat + j ≠ 0).map fun j => 64 * j
  | .sp _ => [0]

/-- Put values into registers already named, which are then full; nothing is logged. -/
def putRefs (s : State) (o : Opnd) (n : Nat) (rs : List RegRef) (vs : List (Nat × Nat)) : State :=
  (rs.zip (refShifts o n)).foldl (fun s e => putRef s e.1 vs e.2) { s with emptied := s.emptied.filter fun r => !rs.contains r }

/-- Log the registers of a destination (R184). -/
def logOpnd (s : State) (p : Place) (o : Opnd) (n : Nat) : State :=
  match getF s p with
  | none => s
  | some f => (refsOf s f p o n).foldl (fun s r => logRef s p r) s

/-- Write a destination of `n` 32-bit registers in the lanes listed; a scalar destination takes the first value, whole
(R37, R38, R92). `log`: a span is open. -/
def writeReg (s : State) (p : Place) (o : Opnd) (n : Nat) (vs : List (Nat × Nat)) (log : Bool) : State :=
  match getF s p, vs with
  | some f, _ :: _ =>
    let s := if log then logOpnd s p o n else s
    let w := inject s p f o n vs
    putRefs w.2 o n (refsOf s f p o n) w.1
  | _, _ => s

/-! ### Waiting and running (R147 to R149) -/

/-- The group of the fibre is being stopped for a save or its context is frozen, and the fibre stands where such a stop leaves
it: at a clean commit point, or blocked, frozen or in a handler when the stop began and since (R284, R372). -/
def stopped (s : State) (p : Place) (f : Fibre) : Bool :=
  let stopping : Bool :=
    (match (groupOf s f).map Group.st with
     | some .saving => true
     | _ => false) ||
    (match (getX s (cidOf s f)).map Ctx.st with
     | some st => st == 5 || st == 6
     | none => false)
  let hard : Bool := match (groupOf s f).map Group.st with
    | some .placed | some .draining | some .saving => false
    | _ => true
  hard ||
    (stopping && f.op.isNone && !f.committing && !hasPend s p &&
      (spanClean f || f.hnd.isSome || f.froz != .no || f.wait != .none || f.stop))

/-- Event records of the fibre wait for room, or those of the leader whose trailing copy it is: the pair stays frozen (R364). -/
def recsWait (s : State) (f : Fibre) : Bool :=
  !f.events.isEmpty ||
    (match f.dual with
     | some d => !d.lead && (getF s { core := d.core, berth := d.berth, fib := d.fib }).any fun g => !g.events.isEmpty
     | none => false)

/-- Eligible (R147): not frozen, not halted, not blocked, not stopped. -/
def eligible (s : State) (p : Place) (f : Fibre) : Bool :=
  f.froz == .no && !f.dbg.halted && f.wait == .none && !recsWait s f && !stopped s p f

/-! ### Fetching (R34, R59, R61) -/

/-- For whom a line of a peer that holds code is gathered. -/
def ownerFetch (p : Place) : Nat := 2 ^ 58 + pkey p

/-- What a fetch gives: a word, a failure with its class and lowest failing address, or nothing yet. -/
inductive Fetch where
  | ok (w : InsnWord)
  | fail (cls va : Nat)
  | wait
  deriving DecidableEq, Repr

/-- The numbers of the stores that last wrote the four bytes of code at a virtual address. -/
def stampsAt (s : State) (p : Place) (f : Fibre) (va : Nat) : List Nat :=
  let a := accessNow s p.core (cidOf s f) va Ask.fetch
  if a.1 = 0 ∧ isOwn s a.2.1 then (List.range 4).map fun i => tget 0 s.stamps (localAddr a.2.1 + i) else [0]

/-- The word of the running instance may be fetched as memory stands: one store last wrote all of it (R61). -/
def oneWrite (s : State) (p : Place) (f : Fibre) : Bool :=
  match ([0, 4, 8] : List Nat).flatMap fun o => stampsAt s p f ((f.pc.toNat + o) % 2 ^ 64) with
  | k :: l => k != 0 && l.all (· == k)
  | [] => false

/-- Four bytes of a word: as the instance launched, or as one write left them in memory (R61; log entry 6, DEDUCED). -/
def fetchPart (s : State) (p : Place) (f : Fibre) (fresh : Bool) (va : Nat) : Got × State :=
  let a := accessNow s p.core (cidOf s f) va Ask.fetch
  if a.1 ≠ 0 then (.fail a.1, a.2.2)
  else if !isOwn s a.2.1 then getBytes a.2.2 (ownerFetch p) p.core (cidOf s f) a.2.1 4
  else if isErr s (lineNo a.2.1) then (.fail 8, a.2.2)
  else
    match instOf s f with
    | some i =>
      if fresh then getBytes a.2.2 (ownerFetch p) p.core (cidOf s f) a.2.1 4
      else (.ok (memRd i.code (localAddr a.2.1) 4), a.2.2)
    | none => getBytes a.2.2 (ownerFetch p) p.core (cidOf s f) a.2.1 4

/-- The twelve bytes at the fibre's pc, each page on its own translation. -/
def fetchParts (s : State) (p : Place) (f : Fibre) (fresh : Bool) : Nat → Nat → List Byte → Fetch × State
  | 0, _, acc => (.ok (BitVec.ofNat 96 (natOf acc)), s)
  | n + 1, va, acc =>
    let r := fetchPart s p f fresh va
    match r.1 with
    | .ok b => fetchParts r.2 p f fresh n ((va + 4) % 2 ^ 64) (acc ++ b)
    | .fail c => (.fail c va, r.2)
    | .wait => (.wait, r.2)

/-- A new fetch; a pc that is not a multiple of 4, with which a `spawn` can start a fibre, is misaligned (R172). -/
def fetchNew (s : State) (p : Place) (f : Fibre) (fresh : Bool) : Fetch × State :=
  if f.pc.toNat % 4 ≠ 0 then (.fail 6 f.pc.toNat, s) else fetchParts s p f (fresh && oneWrite s p f) 3 f.pc.toNat []

/-- A fetch: the word already fetched for this pc, or a new one. -/
def fetchWord (s : State) (p : Place) (f : Fibre) (fresh : Bool) : Fetch × State :=
  match f.fetched with
  | some (a, w) => if a = f.pc then (.ok w, s) else fetchNew s p f fresh
  | none => fetchNew s p f fresh

def regsFull (s : State) (f : Fibre) (p : Place) (o : Opnd) (n : Nat) : Bool := (refsOf s f p o n).all fun r => !emptyRef s r

/-- The guard register of a header, as a source. -/
def guardSrc (g : Guard) : List (Opnd × Nat × Bool) :=
  match g with
  | .always => []
  | .pass n | .fails n => [(.v (n.setWidth 8), 1, false)]

/-- A register can be written: it is full, and no older result for `%fp4x` is outstanding, so that results reach it in program
order (R186; log entry 42, DEDUCED). -/
def dstFull (s : State) (f : Fibre) (p : Place) (o : Opnd) (n : Nat) : Bool := (refsOf s f p o n).all fun r => !owedRef s r

/-- Every source and guard register is full or has trap policy, and the destination is full (R147, R151). -/
def operandsReady (s : State) (f : Fibre) (p : Place) (i : Info) : Bool :=
  ((guardSrc i.h.guard ++ i.srcs).all fun e => e.2.2 || regsFull s f p e.1 e.2.1) &&
    (match i.dst with
     | some d => dstFull s f p d.1 d.2
     | none => true)

/-- The substituted values of `fltset` (R210): nothing where the destination does not match. -/
def fltVals (s : State) (p : Place) (f : Fibre) (h : Hdr) (t : Ty) (a : Src) : Option (Opnd × Nat × List (Nat × Nat)) :=
  match f.hnd with
  | none => none
  | some x =>
    match x.dst with
    | none => none
    | some (o, n) =>
      let v (l : Nat) : Nat := srcVal s f p t t.regs a l
      let ls := passLanes s f p h.guard
      match o with
      | .v _ => if n = t.regs then some (o, n, (ls.filter fun l => x.tmask.getLsbD l).map fun l => (l, v l)) else none
      | _ =>
        let vec := match a with
          | .reg r => r.isV
          | .imm _ => false
        if t.regs = 2 ∧ n ≤ 2 ∧ vec = false ∧ ls ≠ [] then some (o, n, [(0, v 0)]) else none

/-- Registers written that the fields of the word do not name: `s63` of a call, the destination that `fltset` fills, where it fills
any lane of it. -/
def extraDst (s : State) (p : Place) (f : Fibre) (i : Instr) : Option (Opnd × Nat) :=
  match i with
  | .call .. | .calli .. => some (.s 63, 2)
  | .fltset h t a => (fltVals s p f h t a).bind fun r => if r.2.2.isEmpty then none else some (r.1, r.2.1)
  | _ => none

def extraFull (s : State) (f : Fibre) (p : Place) (i : Instr) : Bool :=
  match extraDst s p f i with
  | some d => dstFull s f p d.1 d.2
  | none => true

/-- Ready (R147): eligible, and the next instruction can issue. -/
def readyFib (s : State) (p : Place) : Bool :=
  match getF s p with
  | none => false
  | some f =>
    eligible s p f && f.span.faulted.isNone &&
    (if f.committing then !f.relWait
     else if f.op.isSome then !opOut s p
     else match (fetchWord s p f false).1 with
       | .wait => false
       | .fail _ _ => true
       | .ok w =>
         match decodeWord w with
         | .error _ => true
         | .ok i =>
           match i.info with
           | some x => operandsReady s f p x && extraFull s f p i
           | none => true)

/-- Fibres of a berth that have become ready in `t` start their waiting time (R149). -/
def readied (s t : State) (core berth : Nat) : State :=
  (List.range 8).foldl
    (fun u c =>
      let q : Place := { core, berth, fib := c }
      if readyFib t q && !readyFib s q then modF u q fun f => { f with readySince := cycOf t core } else u) t

/-- Pass the berth to the next ready fibre in rotation; with no other ready one the current fibre stays (R149). -/
def passBerth (s : State) (core berth : Nat) : State :=
  let b := getB s core berth
  match ((List.range 7).map fun i => (b.cur + 1 + i) % 8).find? fun c => readyFib s { core, berth, fib := c } with
  | some c => setB s core berth { b with cur := c, run := 0 }
  | none => s

/-- A stall (R148): the berth passes from the fibre only when the instruction carries the prefix. -/
def stall (s : State) (p : Place) (h : Hdr) : State :=
  if h.sos && (getB s p.core p.berth).cur == p.fib then passBerth s p.core p.berth else s

/-- A fibre becomes eligible, or a result reaches it: its waiting time starts (R149). -/
def readyNow (s : State) (p : Place) : State := modF s p fun f => { f with readySince := cycOf s p.core }

/-! ### Faults (R188 to R197, R440) -/

/-- Classes after which the instruction has completed (R188). -/
def completes (cls : Nat) : Bool := cls == 9 || cls == 0x0A || cls == 0x0E

/-- Class, mask and addresses of the fault reported for several lanes (R440): lane, class, address. -/
def pickFault (fs : List (Nat × Nat × Nat)) : Option (Nat × Mask × List (Nat × Nat)) :=
  let stop := fs.filter fun e => !completes e.2.1
  let l := if stop.isEmpty then fs else stop
  let low := l.foldl (fun (b : Option (Nat × Nat × Nat)) e => match b with
    | some x => if e.1 < x.1 then some e else some x
    | none => some e) none
  low.map fun x =>
    let same := l.filter fun e => e.2.1 == x.2.1
    (x.2.1, maskOf (same.map Prod.fst), same.map fun e => (e.1, e.2.2))

/-- Classes that always go to the resident kernel (R194). -/
def kernelClass (c : Nat) : Bool := [4, 5, 8, 0x12, 0x0D, 0x0F, 0x10, 0x11].contains c

/-- PILOT of a fault record (R193): 1 in a span that is run again after a fault at speed, to its end, also behind a `pilot.on`
in it (log entry 32, DEDUCED: R218 and R193 differ there). -/
def pilotBit (f : Fibre) : Bool := f.pilot.on && f.pilot.cls != 0

/-- The record word (R193). -/
def faultWord (f : Fibre) (fi : FaultInfo) (nest : Bool) : DWord :=
  let rgn := match f.regions with
    | r :: _ => r.id.toNat
    | [] => 0
  let d := match fi.dst with
    | some o => 2 ^ 25 + o.1.code.toNat * 2 ^ 16
    | none => 0
  BitVec.ofNat 64
    (fi.pos % 4096 * 2 ^ 48 + rgn * 2 ^ 32 + d + (if nest then 2 ^ 11 else 0) + fi.acc * 2 ^ 8 + (if fi.retry then 2 ^ 7 else 0) +
      (if fi.decode then 2 ^ 6 else 0) + (if pilotBit f then 2 ^ 5 else 0) + fi.cls)

/-- The address at which a fibre goes on after a fault (R194, R381). -/
def resumeAt (fi : FaultInfo) : DWord := if fi.retry then fi.pc else fi.pc + 12

/-- The next instruction of a fibre, wherever it is held: at its gate, at a fault, or between two instructions. -/
def nextPc (f : Fibre) : DWord :=
  match f.froz with
  | .gated _ => f.span.start
  | .resident fi _ => resumeAt fi
  | .no => match f.dbg.fault with
    | some fi => resumeAt fi
    | none => f.pc

/-- The lowest faulting lane's data address, 0 for a class without one. -/
def lowAddr (fi : FaultInfo) : Nat :=
  match fi.addrs with
  | (_, a) :: _ => a
  | [] => 0

/-- The event of a precise fault (R363, type 0x03). -/
def preciseRec (s : State) (p : Place) (f : Fibre) (fi : FaultInfo) (nest : Bool) : Record :=
  mkRec { time := s.time, addr := lowAddr fi, pc := fi.pc.toNat, rgn := rgnWord f.regions, data := (faultWord f fi nest).toNat,
          inst := ((groupOf s f).map Group.inst).getD 0, mask := fi.mask.toNat, place := placeWord s p,
          aux := fi.acc + fi.replaced * 2 ^ 8, type := 3, cls := fi.cls }

/-- A fault raised while the context's dump is written or queued is appended to it (R383). -/
def secondary (s : State) (cid : Nat) (r : Record) : State :=
  if s.dumps.cur == some cid || s.dumps.queue.contains cid then
    { s with dumps := { s.dumps with second := tset [] s.dumps.second cid (tget [] s.dumps.second cid ++ [r]) } }
  else s

/-- A precise fault that goes to the resident kernel (R197): the fibre freezes and the event is posted. A trailer's is the
leader's to report (R202). -/
def toResident (s : State) (p : Place) (f : Fibre) (fi : FaultInfo) (nest : Bool) : State :=
  let r := preciseRec s p f fi nest
  let s := setF s p { f with froz := .resident fi nest }
  let lead : Bool := match f.dual with
    | some d => d.lead
    | none => true
  let s := if lead then postFibre (secondary s (cidOf s f) r) p (cidOf s f) r else s
  passBerth s p.core p.berth

/-- The handler registered for a class: address and argument (R381). -/
def handlerOf (s : State) (f : Fibre) (cls : Nat) : DWord × DWord :=
  let rec go : Nat → Nat → DWord × DWord
    | 0, _ => (0, 0)
    | n + 1, cid =>
      match getX s cid with
      | none => (0, 0)
      | some x =>
        match parentOf s x with
        | some (c, _) => if blk x 94 1 = 1 then x.handlers.getD cls (0, 0) else go n c
        | none => x.handlers.getD cls (0, 0)
  go 9 (cidOf s f)

/-- Handler entry (R194). -/
def enterHandler (s : State) (p : Place) (f : Fibre) (fi : FaultInfo) (addr arg : DWord) : State :=
  let h : Handling :=
    { s60 := sget f 60, s61 := sget f 61, s62 := sget f 62, s63 := sget f 63, amask := f.amask, resume := resumeAt fi,
      tmask := fi.mask, tpc := fi.pc, word := faultWord f fi false, addrs := fi.addrs, dst := fi.dst, code := fi.code,
      atSpeed := if pilotBit f then f.pilot.cls else 0, spanStart := f.span.start }
  let f := { f with hnd := some h, scal := tset 0 f.scal 60 arg, pc := addr, pilot := { f.pilot with on := true } }
  setF s p (if spanClean f then { f with span := newSpan f } else f)

/-- Deliver a precise fault: to the handler, or to the resident kernel (R194, R195, R381). The halves of a divided fibre share
one trap frame: a fault of one while another's handler is open is nested (log entry 32, DEDUCED). -/
def deliverFault (s : State) (p : Place) (f : Fibre) (fi : FaultInfo) : State :=
  let h := handlerOf s f fi.cls
  if f.hnd.isSome then toResident s p f fi true
  else if kernelClass fi.cls || fi.acc == 6 || h.1 == 0 then toResident s p f fi false
  else if h.1.toNat % 4 ≠ 0 then
    toResident s p f { fi with cls := 6, acc := 4, addrs := [((lanesIn fi.mask).headD 0, h.1.toNat)], replaced := fi.cls, code := 0 } true
  else enterHandler s p f fi h.1 h.2

/-- The halt record of a fibre (R421, R422). -/
def haltRec (s : State) (p : Place) (f : Fibre) (state : Nat) (aux data addr : Nat) (pc : DWord) : State :=
  trace s p.core (cidOf s f)
    (mkRec { time := s.time, addr, pc := pc.toNat, rgn := rgnWord f.regions, data, inst := ((groupOf s f).map Group.inst).getD 0,
             mask := f.amask.toNat, place := placeWord s p, aux, type := 0x11, cls := state })

/-- The instruction that the fibre runs is a step of the debugger (R218, R423). -/
def stepping (s : State) (f : Fibre) : Bool :=
  f.dbg.step || f.dbg.ended || (ctxFlag s (cidOf s f) 117 && ctxFlag s (cidOf s f) 118 && f.pilot.on)

/-- TAKING AN EXCEPTION: a precise fault of the fibre at `p` (R188, R191, R194, R197). A debugger halt that is pending takes
effect first, and the handler waits for the resume (R377); so does a step, of which the fault is the end (R423). -/
def raise (s : State) (p : Place) (fi : FaultInfo) : State :=
  match getF s p with
  | none => s
  | some f =>
    let f := { f with fetched := none, emptyAt := false, xlat := [], op := none, pilot := { f.pilot with met := true } }
    if f.dbg.want == 1 || stepping s f then
      let s := haltRec s p f 1 fi.cls (faultWord f fi f.hnd.isSome).toNat (lowAddr fi) (resumeAt fi)
      passBerth (setF s p { f with dbg := { halted := true, want := 0, step := false, fault := some fi } }) p.core p.berth
    else deliverFault s p f fi

/-- Return from a handler (R196): s60 to s63 and the active mask come back, and the fibre goes on in pilot gear. -/
def leaveHandler (f : Fibre) (h : Handling) (skip : Bool) : Fibre :=
  { f with
    hnd := none
    scal := tset 0 (tset 0 (tset 0 (tset 0 f.scal 60 h.s60) 61 h.s61) 62 h.s62) 63 h.s63
    amask := h.amask
    pc := if skip then h.tpc + 12 else h.resume
    fetched := none, emptyAt := false
    pilot := { f.pilot with on := true } }

/-- A fault at speed (R185): the first one latches its class; the fibre issues nothing more in the span. -/
def spanFault (s : State) (p : Place) (cls : Nat) : State :=
  let s := modF s p fun f =>
    if f.span.faulted.isSome then f else { f with span := { f.span with faulted := some cls }, fetched := none, emptyAt := false, xlat := [], op := none }
  dueOnce (dropOp s p) (.spanCommitRefused p)

/-- The word that the fibre executes is a command that each copy of a redundant pair performs. -/
def eachNow (f : Fibre) : Bool :=
  match f.fetched with
  | some (_, w) => (match decodeWord w with
    | .ok i => i.eachCopy
    | .error _ => false)
  | none => false

/-- A precise fault of a commit-point instruction. One that the leader of a redundant pair performs for both copies is taken by
both, and the instruction is compared anew when it runs again (R201, R202). -/
def commitFault (s : State) (p : Place) (f : Fibre) (fi : FaultInfo) : State :=
  match f.dual with
  | none => raise s p fi
  | some d =>
    if d.cleared.contains f.spanNo then
      let q : Place := { core := d.core, berth := d.berth, fib := d.fib }
      let forget (s : State) (r : Place) : State := modF s r fun g => { g with
        dual := g.dual.map fun (e : Dual) => ({ e with cleared := e.cleared.filter (· != f.spanNo) } : Dual) }
      if d.lead && !eachNow f then raise (raise (forget (forget s p) q) p fi) q fi else raise (forget s p) p fi
    else raise s p fi

/-- A fault of an instruction that may be a span fault: latched at speed, raised precisely in pilot gear or on a commit-point
instruction (`x`; R185, R191). -/
def faultAt (s : State) (p : Place) (x : Bool) (fi : FaultInfo) : State :=
  match getF s p with
  | none => s
  | some f => if x then commitFault s p f fi else if f.pilot.on then raise s p fi else spanFault s p fi.cls

/-- What a fault of the instruction at the fibre's pc says before its class is known. -/
def faultInfo (f : Fibre) (dst : Option (Opnd × Nat)) : FaultInfo :=
  { cls := 0, pc := f.pc, pos := f.span.count, mask := f.amask, addrs := [], acc := 0, decode := false, retry := true, dst, code := 0,
    replaced := 0 }

/-- A decode or issue fault (R55 to R57): precise at once; not reported in a span already faulted. `x`: of a commit-point
instruction, whose position is 0 (R193). -/
def issueFault (s : State) (p : Place) (x : Bool) (cls : Nat) (dst : Option (Opnd × Nat)) (addrs : List (Nat × Nat)) : State :=
  match getF s p with
  | none => s
  | some f =>
    if f.span.faulted.isSome then dueOnce s (.spanCommitRefused p)
    else raise s p { faultInfo f dst with cls, decode := true, addrs, pos := if x then 0 else f.span.count }

/-- Restore a span's undo log (R184): the newest write is undone first. -/
def restoreUndo (s : State) (us : List UndoEnt) : State :=
  us.reverse.foldl
    (fun s e =>
      match e.ref with
      | .vec k => { s with vregs := tset zeroLanes s.vregs k (mixLanes e.mask e.oldV (vget s k)) }
      | .sca fib n =>
        match tfind s.fibres fib with
        | some f => { s with fibres := tput s.fibres fib { f with scal := tset 0 f.scal n e.oldS } }
        | none => s
      | .fp4 fib =>
        match tfind s.fibres fib with
        | some f => { s with fibres := tput s.fibres fib { f with fp4x := e.oldS.setWidth 16 } }
        | none => s) s

/-- Discard the results still in flight of a piece's instructions, in its lanes (R160, R184). -/
def dropPends (s : State) (p : Place) : State :=
  match getF s p with
  | none => s
  | some f =>
    let m := ~~~(liveMask f)
    { s with pends := s.pends.filterMap fun q =>
        if !ofPiece p f q then some q
        else if q.scalar || q.mask &&& m = 0 then none
        else
          let inM (l : Nat) : Bool := m.getLsbD l
          some { q with
            mask := q.mask &&& m, lanes := q.lanes.filter fun l => inM l.lane, vals := q.vals.filter fun e => inM e.1
            bad := q.bad.filter fun e => inM e.1, wat := q.wat.filter fun e => inM e.1
            post := q.post.bind fun e => if e.2 &&& m = 0 then none else some (e.1, e.2 &&& m) } }

/-- The load values of the open span and of every younger one are discarded (R417). -/
def dropLoads (f : Fibre) : Option Dual :=
  f.dual.map fun (d : Dual) => ({ d with
    nload := f.span.load0
    loads := d.loads.filter fun e => e.1 < f.spanNo || (e.1 == f.spanNo && e.2.1 ≤ f.span.load0) } : Dual)

/-- Give a free block to the lowest context that waits for it (R157); it is its family's. -/
def grantBlock (s : State) (core berth slot : Nat) : State :=
  let b := getB s core berth
  if b.holder.getD slot 8 ≠ 8 then s
  else
    let wants (c : Nat) : Bool := match getF s { core, berth, fib := c } with
      | some f => f.wait == .wclaim slot
      | none => false
    match (List.range 8).find? wants with
    | some c =>
      let root := ((getF s { core, berth, fib := c }).map Fibre.root).getD c
      wakeWait (setB s core berth { b with holder := b.holder.set slot root }) { core, berth, fib := c } (· == .wclaim slot)
    | none => s

/-- Undo the block hand-overs of a span, the newest first: those taken are free again, and those given up are taken back (R190).
A block that another fibre has taken meanwhile is waited for, and is listed (log entry 47, DESIGN CHOICE). -/
def undoBlocks (s : State) (p : Place) (root : Nat) (l : List (Nat × Bool)) : List Nat × State :=
  l.foldl
    (fun r e =>
      let b := getB r.2 p.core p.berth
      let h := b.holder.getD e.1 8
      if e.2 then
        (r.1.filter (· != e.1),
         if h = root then grantBlock (setB r.2 p.core p.berth { b with holder := b.holder.set e.1 8 }) p.core p.berth e.1 else r.2)
      else if h = 8 then (r.1, setB r.2 p.core p.berth { b with holder := b.holder.set e.1 root })
      else (r.1 ++ [e.1], r.2)) ([], s)

/-- The register lies in a shared block of one of these slots (`vkey`). -/
def inLost (lost : List Nat) (r : RegRef) : Bool :=
  match r with
  | .vec k => k / 256 % 16 == 8 && lost.contains (k % 256 / 16)
  | _ => false

/-- Roll the open span back (R187 step 2, R190): registers, hold, halves, blocks, the pc and the handler as at its start. -/
def rollback (s : State) (p : Place) : State :=
  match getF s p with
  | none => s
  | some f0 =>
    let b := undoBlocks s p f0.root f0.span.blk
    let s := dropOp (dropPends (restoreUndo b.2 (f0.span.undo.filter fun e => !inLost b.1 e.ref)) p) p
    modF s p fun f =>
      let es := f.span.entry.filter fun h => h.mask != 0
      let e := es.headD (curHalf f)
      let f := { f with
        hnd := f.span.hnd0
        scal := (f.span.s6x.zipIdx).foldl (fun (t : Tab DWord) (e : DWord × Nat) => tset 0 t (60 + e.2) e.1) f.scal
        amask := e.mask, pc := e.pc, splits := e.splits, halves := es.drop 1, halfCount := 0
        wait := match b.1 with
          | k :: _ => .wclaim k
          | [] => e.wait
        fetched := none, emptyAt := false, xlat := [], op := none, committing := false, dual := dropLoads f
        -- what a redundant pair still has to release is of older spans (R201)
        relq := if f.dual.isSome then f.relq else []
        relWait := f.dual.isSome && f.relWait }
      let f := { f with pilot := { f.pilot with forced := f.span.forced0 } }
      { f with span := { newSpan f with
          start := f.span.start, rgn := f.span.rgn, limit := f.span.limit, nextLimit := f.span.limit, entry := f.span.entry,
          s6x := f.span.s6x } }

end Sys2Proof.Machine
end

