-- ==== Sys2Proof/Machine/Commit.lean ====
section
/-! DEFINITION. Translating the lanes of an access, releasing held entries, committing a span, and the gate that every instruction
passes before it acts (R56, R151, R179 to R183, R189, R199 to R203, R241). -/
namespace Sys2Proof.Machine

/-! ### Lanes of a global access -/

/-- What the lanes of an access come to before the access itself. -/
structure LaneRes where
  ok : List OpLane
  bad : List (Nat × Nat × Nat)
  /-- pages whose translation is waited for -/
  miss : List Nat
  deriving DecidableEq, Repr

/-- The translation a fibre's access finds: delivered to it, in its core's TLB or in the die's cache (R396). -/
def fibXlat (s : State) (p : Place) (f : Fibre) (cid vpn : Nat) : Option Xlat :=
  match f.xlat.find? fun x => x.vpn == vpn with
  | some x => some x
  | none =>
    match tlbFind (getC s p.core).tlb cid vpn with
    | some e => some { vpn, cls := 0, level := e.level, pte := e.pte }
    | none => (tlbFind (getD s (dieOf p.core)).cache cid vpn).map fun e => { vpn, cls := 0, level := e.level, pte := e.pte }

/-- One lane: alignment, translation and rights, reach (R440 steps 1, 2 and 4). -/
def laneCheck (s : State) (p : Place) (f : Fibre) (cid align : Nat) (q : Ask) (pol : CPol) (r : LaneRes) (l : Nat × Nat) : LaneRes :=
  let va := l.2
  let bad (c : Nat) : LaneRes := { r with bad := r.bad ++ [(l.1, c, va)] }
  if va % align ≠ 0 then bad 6
  else if va / 2 ^ 60 ≠ 0 ∨ rootOf s cid % 2 = 0 then bad 4
  else
    match fibXlat s p f cid (va / 2 ^ 16) with
    | none => { r with miss := if r.miss.contains (va / 2 ^ 16) then r.miss else r.miss ++ [va / 2 ^ 16] }
    | some x =>
      if x.cls ≠ 0 then bad x.cls
      else
        let c := rightsCls s q x va
        let pa := leafPa x va
        if c ≠ 0 then bad c
        else if !isReach s pa then bad 0x10
        else if rngOf s pa = .regs ∧ regHole (localAddr pa) then bad 5
        else
          let e := x.pte.toNat
          { r with ok := r.ok ++ [{ lane := l.1, va, pa, trk := pteTrk e && rngOf s pa != .regs, pol := effPol pol e,
                                    comm := if pteComm e then some (pteCop e) else none, fwd := [], b := 0, c := 0 }] }

def laneChecks (s : State) (p : Place) (f : Fibre) (cid align : Nat) (q : Ask) (pol : CPol) (ls : List (Nat × Nat)) : LaneRes :=
  ls.foldl (laneCheck s p f cid align q pol) { ok := [], bad := [], miss := [] }

/-- Fill the core's TLB with the translations that the lanes used. -/
def fillTlb (s : State) (p : Place) (f : Fibre) (cid : Nat) (ls : List OpLane) : State :=
  (ls.map fun l => l.va / 2 ^ 16).dedup.foldl
    (fun s vpn => match fibXlat s p f cid vpn with
      | some x => if x.cls = 0 then tlbPut s p.core { cid, vpn, level := x.level, pte := x.pte } else s
      | none => s) s

/-- Ask for the walks that an access waits for (R397). -/
def askWalks (s : State) (p : Place) (cid : Nat) (ms : List Nat) : State := ms.foldl (fun s v => askWalk s p.core cid v p) s

/-! ### Scope drains (R241) -/

/-- Send the core's partials to their homes (R234). -/
def sendParts (s : State) (core : Nat) : State :=
  let s := cross s (dieOf core)
  let x := getC s core
  x.parts.foldl (fun s e => sendReq s core 0 (e.1 * 128) (.part (s.modNo * 1024 + core) e.2) .drop) (setC s core { x with parts := [] })

/-- Write back through the port every dirty sector of a host-window or CXL line that the core owns. -/
def drainPort (s : State) (core : Nat) : State :=
  (getC s core).l1.foldl
    (fun s e =>
      if isPort s (e.1 * 128) && e.2.owned && e.2.dirty != 0 then
        let s := { s with mem := writeBack s.mem e.1 e.2.data e.2.dirty }
        let x := getC s core
        let s := setC s core { x with l1 := tput x.l1 e.1 { e.2 with dirty := 0 } }
        portWrite s core (e.1 * 128)
      else s) s
where
  /-- A write sent to the memory behind the port; PORT_REPLY acknowledges it. -/
  portWrite (s : State) (core pa : Nat) : State :=
    let id := s.nextId
    { s with nextId := id + 1
             reqs := s.reqs ++ [{ id, core, cid := 0, pa, clk := 0, op := .store [], cont := .drop, sent := s.time, port := true,
                                  tag := (0, 0, 0, 0, 0), held := 0 }] }

/-- A write of the core that a drain of this scope waits for is still out: partials, packets to peers that write, and writes to
the port ranges. -/
def drainOut (s : State) (core : Nat) (sc : Scope) : Bool :=
  s.reqs.any fun r =>
    r.core == core &&
      (match r.op with
       | .part .. => true
       | .store _ => ((r.port || isPort s r.pa) && sc == .sys) || (!isOwn s r.pa && (sc == .dom || sc == .sys))
       | .atomic .. | .mbarInit _ | .mbarArr | .queue .. | .dep | .depRec .. => !isOwn s r.pa && (sc == .dom || sc == .sys)
       | _ => false)

/-- The drains of a release at a scope have finished. -/
def drained (s : State) (core : Nat) (sc : Scope) : Bool :=
  match sc with
  | .fib | .grp => true
  | _ =>
    (getC s core).parts.isEmpty && !drainOut s core sc &&
      (sc != .sys || (getC s core).l1.all fun e => !(isPort s (e.1 * 128) && e.2.owned && e.2.dirty != 0))

/-- Start the drains of a release at a scope. -/
def startDrains (s : State) (core : Nat) (sc : Scope) : State :=
  match sc with
  | .fib | .grp => s
  | .sys => drainPort (sendParts s core) core
  | _ => sendParts s core

/-! ### Scratchpad and accumulator rows -/

def modG (s : State) (g : Nat) (h : Group → Group) : State :=
  match getG s g with
  | some x => setG s g (h x)
  | none => s

/-- Accumulator element: row and column of a group (R275, R318). -/
def accKey (row col : Nat) : Nat := row * 256 + col
def accGet (g : Group) (row col : Nat) : Word := tget 0 g.acc (accKey row col)
def accPut (g : Group) (row col : Nat) (v : Word) : Group := { g with acc := tset 0 g.acc (accKey row col) v }

/-! ### Releasing held entries (R183) -/

inductive Rel where
  /-- the entry, or one of its lanes, is released -/
  | done (s : State)
  /-- a request or a drain is waited for -/
  | wait (s : State)
  /-- the release stops here with a fault: class, lane and address -/
  | stop (s : State) (cls lane va : Nat)

/-- The identity an operation carries in the replay log (R427). -/
def fibTag (s : State) (p : Place) (f : Fibre) : Nat × Nat × Nat × Nat × Nat :=
  match groupOf s f with
  | some g => (((getI s g.inst).map Inst.iord).getD 0, g.index, p.berth, f.root, tget 0 (getB s p.core p.berth).ords f.root + 1)
  | none => (0, 0, 0, 0, 0)

/-- Release one lane of a held global store (R183, R223, R229, R232). -/
def releaseStore (s : State) (p : Place) (f : Fibre) (e : HoldEnt) (l : HoldLane) : Rel :=
  let cid := cidOf s f
  let core := p.core
  let x := if e.remap then (xlatNow s core cid l.va).1 else { vpn := 0, cls := 0, level := 0, pte := 0 }
  let c := if e.remap then (if x.cls ≠ 0 then x.cls else rightsCls s { Ask.store l.bytes.length with regsOk := privOf s cid } x l.va) else 0
  let l := if e.remap then
      { l with pa := leafPa x l.va, trk := pteTrk x.pte.toNat, comm := if pteComm x.pte.toNat then some (pteCop x.pte.toNat) else none }
    else l
  if c ≠ 0 then .stop s c l.lane l.va
  else if !isReach s l.pa then .stop s 0x10 l.lane l.va
  else if rngOf s l.pa = .regs then
    if regHole (localAddr l.pa) then .stop s 5 l.lane l.va
    else if cmdBusy s (localAddr l.pa) then .wait s
    else .done (regWrite s .priv (localAddr l.pa) l.bytes.length (natOf l.bytes))
  else if l.trk && l.pol != .noL1 && isOwn s l.pa then
    match getCopy s core (lineNo l.pa) with
    | some cp =>
      if cp.owned then .done (storeOwned s core (lineNo l.pa) cp (l.pa % 128) l.bytes e.since)
      else .wait (sendReq s core cid (l.pa / 128 * 128) .own (.hold p) (fibTag s p f))
    | none => .wait (sendReq s core cid (l.pa / 128 * 128) .own (.hold p) (fibTag s p f))
  else .wait (sendReq s core cid l.pa (.store l.bytes) (.hold p) (fibTag s p f) e.since)

/-- Translations that a `tlbi` of this scope reaches (R213): the cores of the module in its scope. -/
def inScope (sc : Scope) (core c : Nat) : Bool :=
  match sc with
  | .fib | .grp => c == core
  | .quay => quayOf c == quayOf core
  | .die => dieOf c == dieOf core
  | _ => true

/-- The page of a virtual address is covered. -/
def covers (mode : TlbiMode) (a b : DWord) (cid va : Nat) (w : Nat) : Bool :=
  match mode with
  | .va => cid == b.toNat % 4096 && a.toNat / 2 ^ w == va / 2 ^ w
  | .ctx => cid == b.toNat % 4096
  | .all => true

/-- The page may lie under a leaf of any size. -/
def mayCover (mode : TlbiMode) (a b : DWord) (cid va : Nat) : Bool := covers mode a b cid va 42

/-- A held entry translated through a page that is covered is translated again at its release (R400). -/
def noteHold (mode : TlbiMode) (a b : DWord) (cid : Nat) (h : HoldEnt) : HoldEnt :=
  if h.lanes.any fun l => mayCover mode a b cid l.va then { h with remap := true } else h

/-- What a `tlbi` marks in a fibre of a context: held entries, translations waiting for their accesses, the operation under way
(R400). -/
def noteFibre (mode : TlbiMode) (a b : DWord) (cid : Nat) (f : Fibre) : Fibre :=
  let note := noteHold mode a b cid
  let noteOp (o : OpRun) : OpRun :=
    if (o.pa.isSome && mayCover mode a b cid o.va) || o.lanes.any fun l => mayCover mode a b cid l.va then { o with old := true } else o
  { f with
    span := { f.span with hold := f.span.hold.map note }
    relq := f.relq.map note
    xlat := f.xlat.filter fun x => !mayCover mode a b cid (x.vpn * 2 ^ 16)
    op := f.op.map noteOp
    dual := f.dual.map fun (d : Dual) => ({ d with unc := d.unc.map fun (u : Uncompared) =>
      ({ u with span := { u.span with hold := u.span.hold.map note } } : Uncompared) } : Dual) }

/-- Halves that wait in `mbar.wt` on a covered page go back to it, where they translate its address again (R305, R400). -/
def wakeMbar (mode : TlbiMode) (b : DWord) (s : State) (p : Place) : State :=
  match getF s p with
  | none => s
  | some f =>
    let hit (w : Wait) : Bool := match w with
      | .mbarWt .. => mode == .all || cidOf s f == b.toNat % 4096
      | _ => false
    if (waitsOf f).any hit then wakeWait s p hit else s

/-- Perform a `tlbi` (R213, R400): send the partials of the cores in scope, drop the translations, mark held entries translated
through them and operations under way, those of saved groups among them, and have weight planes load again. -/
def doTlbi (s : State) (core : Nat) (sc : Scope) (mode : TlbiMode) (a b : DWord) : State :=
  let s := s.cores.foldl (fun s e => if inScope sc core e.1 then sendParts s e.1 else s) s
  let s := { s with cores := (s.cores.map fun (e : Nat × Core) =>
    if inScope sc core e.1 then (e.1, { e.2 with tlb := tlbDrop mode a b e.2.tlb }) else e).filter fun e => e.2 != Core.init }
  let dieIn (d : Nat) : Bool := match sc with
    | .fib | .grp | .quay => d == dieOf core
    | .die => d == dieOf core
    | _ => true
  -- the die's cache is reached whatever core asks through it
  let s := ((s.dies.map Prod.fst).filter dieIn).foldl cross s
  let s := { s with dies := (s.dies.map fun (e : Nat × Die) =>
    if dieIn e.1 then (e.1, { e.2 with cache := tlbDrop mode a b e.2.cache }) else e).filter fun e => e.2 != Die.init }
  let noteF (e : Nat × Fibre) : Nat × Fibre :=
    if inScope sc core (placeOf e.1).core then (e.1, noteFibre mode a b (cidOf s e.2) e.2) else e
  -- a saved group comes back to any core
  let noteG (g : Group) : Group :=
    { g with kept := g.kept.map fun (e : Nat × Nat × Fibre) => (e.1, e.2.1, noteFibre mode a b (((getI s g.inst).map Inst.cid).getD 0) e.2.2) }
  let s := { s with
    fibres := s.fibres.map noteF
    groups := s.groups.map fun (e : Nat × Group) => (e.1, if e.2.kept.isEmpty then e.2 else noteG e.2) }
  let s := ((s.fibres.map fun e => placeOf e.1).filter fun p => inScope sc core p.core).foldl (wakeMbar mode b) s
  { s with quays := (s.quays.map fun (e : Nat × Quay) =>
      if (List.range 4).any fun k => inScope sc core (e.1 * 4 + k) then
        (e.1, { e.2 with
          planes := e.2.planes.filter fun pl => !mayCover mode a b pl.cid pl.va
          buf := e.2.buf.filter fun w => !mayCover mode a b w.cid w.va })
      else e).filter fun e => e.2 != Quay.init }

/-- Accesses under way that a `tlbi` waits for (R400): requests numbered below `since`, loads issued before it and operations
begun before it in the cores of its scope; and the modules of the domain that have not answered. -/
def tlbiBusy (s : State) (core : Nat) (sc : Scope) (mode : TlbiMode) (a b : DWord) (since : Nat) : Bool :=
  let ofCid (cid : Nat) : Bool := mode == .all || cid == b.toNat % 4096
  let old (r : Req) : Bool :=
    r.id < since && inScope sc core r.core && !r.port &&
      (match r.op with
       | .prom .. | .tlbi .. => false
       | .part .. => true
       | _ => ofCid r.cid)
  s.reqs.any (fun r => old r || (sc == .dom && r.core == core && r.op == .tlbi mode a b)) || s.replies.any (fun x => old x.req) ||
    s.pends.any (fun q => q.id < since && !q.scratch && inScope sc core q.core && !q.lanes.isEmpty) ||
    s.fibres.any fun e => inScope sc core (placeOf e.1).core && (e.2.op.map OpRun.old).getD false

/-- The first step of a `tlbi`: what this module drops and marks, and the word to the other modules of its domain (R213). -/
def startTlbi (s : State) (p : Place) (sc : Scope) (mode : TlbiMode) (a b : DWord) : State :=
  let s := doTlbi s p.core sc mode a b
  let n := s.nextId
  let s := modF s p fun f => { f with relq := match f.relq with
    | e :: t => { e with since := n } :: t
    | [] => [] }
  if sc = .dom then
    ((List.range 512).filter fun m => m != s.modNo && isReach s (m * 2 ^ 47)).foldl
      (fun s m => sendReq s p.core 0 (m * 2 ^ 47) (.tlbi mode a b) .drop) s
  else s

/-- Element `j` of the data that a lane of a held `accst` writes. -/
def heldElem (l : HoldLane) (j : Nat) : Word := BitVec.ofNat 32 (natOf ((l.bytes.drop (4 * j)).take 4))

/-- Steps in which one lane of an entry is released: accumulator rows go element by element (R324). -/
def laneSteps (k : HoldKind) : Nat :=
  match k with
  | .accst _ cnt => cnt + 1
  | .acczero cnt => 256 * (cnt + 1)
  | _ => 1

/-- The entry at the head of a fibre's release queue gets its number as its release begins (R61, R213). -/
def numberHead (s : State) (p : Place) (e : HoldEnt) : HoldEnt × State :=
  if e.since ≠ 0 then (e, s)
  else
    let e' : HoldEnt := { e with since := s.nextId }
    (e', modF { s with nextId := s.nextId + 1 } p fun f => { f with relq := match f.relq with
      | _ :: t => e' :: t
      | [] => [] })

/-- Take the entry at the head of a fibre's release queue a step further: one lane at most is released. -/
def releaseHead (s : State) (p : Place) (f : Fibre) (e : HoldEnt) : Rel :=
  let trailer : Bool := match f.dual with
    | some d => !d.lead
    | none => false
  let lane1 := e.lanes.take 1
  match e.kind with
  | .stX =>
    .done (modG s f.grp fun g => { g with scratch := lane1.foldl (fun m l => memWr m l.va l.bytes) g.scratch })
  -- one element at a time: between two the matrix engine may act (R324)
  | .accst col _ => .done (modG s f.grp fun g => lane1.foldl (fun g l => accPut g l.va (col + e.pos) (heldElem l e.pos)) g)
  | .acczero _ => .done (modG s f.grp fun g => lane1.foldl (fun g l => accPut g (l.va + 32 * (e.pos / 256)) (e.pos % 256) 0) g)
  | .stG =>
    if trailer then .done s
    else if (e.ord == .rel || e.ord == .sc) && !drained s p.core e.sc then .wait (startDrains s p.core e.sc)
    else
      match e.lanes with
      | [] => .done s
      | l :: _ => let r := numberHead s p e; releaseStore r.2 p f r.1 l
  | .dsc =>
    if trailer then .done s
    else
      .done (lane1.foldl
        (fun s l =>
          let r := accessNow s p.core (cidOf s f) l.va (Ask.store 1)
          if r.1 ≠ 0 then r.2.2
          else
            let line := lineNo r.2.1
            match getCopy r.2.2 p.core line with
            | some cp => if cp.owned then takeBack (dropCopy r.2.2 p.core line) p.core line (some (cp.data, 0)) else dropCopy r.2.2 p.core line
            | none => r.2.2) s)
  | .tlbi mode sc a b =>
    if trailer then .done s
    else
      let s := if e.since = 0 then startTlbi s p sc mode a b else s
      if tlbiBusy s p.core sc mode a b (if e.since = 0 then s.nextId else e.since) then .wait s else .done s
  | .mark v rgn =>
    if !trailer && ctxFlag s (cidOf s f) 114 then
      .done (trace s p.core (cidOf s f)
        (mkRec { time := s.time, pc := e.pc.toNat, rgn := rgn.toNat, data := v.toNat, inst := ((groupOf s f).map Group.inst).getD 0,
                 mask := e.mask.toNat, place := placeWord s p, type := 0x10 }))
    else .done s
  | .sys =>
    if trailer then .done s
    else if e.lanes.any fun l => cmdBusy s l.pa then .wait s
    else .done (e.lanes.foldl (fun s l => regWrite s .priv l.pa l.bytes.length (natOf l.bytes)) s)
  | .vanish cls rgn start =>
    if trailer then .done s
    else
      .done (postFibre s p (cidOf s f)
        (mkRec { pc := start.toNat, rgn := rgn.toNat, inst := ((groupOf s f).map Group.inst).getD 0, place := placeWord s p,
                 type := 2, cls }))

/-- The entry or lane at the head is released. -/
def popRelease (f : Fibre) : Fibre :=
  match f.relq with
  | [] => f
  | e :: t =>
    let byLane : Bool := match e.kind with
      | .stG | .stX | .accst .. | .acczero _ | .dsc => true
      | _ => false
    if e.pos + 1 < laneSteps e.kind ∧ e.lanes ≠ [] then { f with relq := { e with pos := e.pos + 1 } :: t, relWait := false }
    else
    match byLane, e.lanes with
    | true, _ :: l :: ls => { f with relq := { e with lanes := l :: ls, pos := 0 } :: t, relWait := false }
    | _, _ => { f with relq := t, relWait := false, scf := f.scf || (e.kind == .stG && e.ord == .sc && e.sc == .fib) }

/-- Promotions that ask for a core look again (R242). -/
def wakeProm (s : State) (core : Nat) : State :=
  (s.reqs.filter fun r => match r.op with
    | .prom v _ => v == core && isOwn s r.pa
    | _ => false).foldl (fun s r => due s (serveRow r.id r.op r.cont)) s

/-- Take a fibre's release one lane further (R183): the entries in program order, the lanes of one in ascending order, and
between two of them the rest of the machine may act. -/
def releaseGo (s : State) (p : Place) : State :=
  match getF s p with
  | none => s
  | some f =>
    if f.relWait || f.froz != .no then s
    else
      match f.relq with
      | [] => s
      | e :: _ =>
        match releaseHead s p f e with
        | .done s => wakeProm (modF s p popRelease) p.core
        | .wait s =>
          -- a drain is polled again; a request has its own answer
          if s.reqs.any (fun r => r.cont == .hold p) then modF s p fun f => { f with relWait := true } else s
        | .stop s cls lane va =>
          raise s p { faultInfo f none with cls, mask := maskOf [lane], addrs := [(lane, va)], acc := 2, pos := 0 }

/-! ### Signatures (R200) -/

/-- CRC-32C, reflected. -/
def crc32c (bytes : List Byte) : Word :=
  let step (c : Nat) : Nat := if c % 2 = 1 then (c / 2) ^^^ 0x82F63B78 else c / 2
  let c := bytes.foldl
    (fun c b => let x := c ^^^ b.toNat
      step (step (step (step (step (step (step (step x)))))))) 0xFFFFFFFF
  BitVec.ofNat 32 (c ^^^ 0xFFFFFFFF)

/-- Bytes that a hold entry contributes. -/
def entryBytes (e : HoldEnt) : List Byte :=
  match e.kind with
  | .tlbi _ _ a b => bytesOf 8 a.toNat ++ bytesOf 8 b.toNat
  | .mark v _ => bytesOf 4 v.toNat
  | .dsc => bytesOf 4 e.mask.toNat ++ e.lanes.flatMap fun l => bytesOf 8 l.va
  | _ => bytesOf 4 e.mask.toNat ++ e.lanes.flatMap fun l => bytesOf 8 l.va ++ l.bytes

/-- The signature of a span. -/
def spanSig (h : List HoldEnt) : Word := if h.isEmpty then 0 else crc32c (h.flatMap entryBytes)

/-- The signature of a commit-point instruction that forms a span of its own. -/
def ownSig (s : State) (f : Fibre) (p : Place) (i : Instr) : Word :=
  match i.info with
  | none => 0
  | some x =>
    let ls := passLanes s f p x.h.guard
    -- a lane operation is one with a vector operand
    let lane := x.srcs.any (fun e => e.1.isV) ||
      (match x.dst with
       | some d => d.1.isV
       | none => false)
    let mask := if lane then maskOf ls else if ls.isEmpty then 0 else 1
    let lanes := if lane then ls else if ls.isEmpty then [] else [0]
    let bytes (l : Nat) (e : Opnd × Nat × Bool) : List Byte :=
      let n := match e.1 with
        | .s _ => max 2 e.2.1
        | _ => e.2.1
      match e.1 with
      | .v k => if n = 1 then bytesOf 8 (opVal s f p (.v k) 1 l) else bytesOf (4 * n) (opVal s f p (.v k) n l)
      | .s k =>
        if n ≤ 2 then bytesOf 8 (sget f k.toNat).toNat
        else (List.range (n / 2)).flatMap fun j => bytesOf 8 (sget f (k.toNat + j)).toNat
      | .sp r => bytesOf 8 (specialVal s f p r l)
    crc32c (bytesOf 4 mask.toNat ++ lanes.flatMap fun l => (inOrder i x.srcs).flatMap (bytes l))
where
  /-- field order: DEST when it names a source, A, B, C -/
  inOrder (i : Instr) (l : List (Opnd × Nat × Bool)) : List (Opnd × Nat × Bool) :=
    match i, l with
    | .stG _, a :: d :: t | .cadd .., a :: d :: t | .cmin .., a :: d :: t | .cmax .., a :: d :: t => d :: a :: t
    | .copy .., [a, b, c, d] => [d, a, b, c]
    | _, _ => l

/-! ### Committing (R181, R189) -/

/-- The class of the fault that a re-run span has not met again (R189); else 0. -/
def vanished (f : Fibre) : Nat := if f.pilot.on && !f.pilot.met then f.pilot.cls else 0

/-- A span ended without a fault: VANISH, return to speed, `brk` and halts, and the next span begins (R189, R208, R218, R422).
Whether a debugger is attached is tested here (log entry 21, DEDUCED). -/
def afterCommit (s : State) (p : Place) (edge : Bool) : State :=
  match getF s p with
  | none => s
  | some f =>
    let s := if f.dual.isNone && vanished f != 0 then
        postFibre s p (cidOf s f)
          (mkRec { time := s.time, pc := f.span.start.toNat, rgn := f.span.rgn.toNat, inst := ((groupOf s f).map Group.inst).getD 0,
                   place := placeWord s p, type := 2, cls := f.pilot.cls })
      else s
    let dbgOn := ctxFlag s (cidOf s f) 117
    let brk := if dbgOn then f.span.brk else none
    let halt := dbgOn && (f.dbg.want == 1 || (f.dbg.want == 3 && edge))
    match getF s p with
    | none => s
    | some f =>
      let mkc (l : List Split) : List Split := l.map fun x => { x with committed := true }
      let f1 := { f with
        committing := false
        -- what a redundant pair still has to release is of older spans (R201)
        relq := if f.dual.isSome then f.relq else []
        relWait := f.dual.isSome && f.relWait
        spanNo := if f.span.count = 0 then f.spanNo else f.spanNo + 1
        splits := mkc f.splits
        halves := f.halves.map (fun (h : Half) => ({ h with splits := mkc h.splits } : Half))
        pilot := { on := f.pilot.forced.isSome || f.hnd.isSome, forced := f.pilot.forced, cls := 0, met := false } }
      let f2 := { f1 with span := newSpan f1 }
      if brk.isSome || halt then
        let state := if brk.isSome then 2 else if f.dbg.want = 3 then 3 else 1
        let s := setF s p { f2 with dbg := { f2.dbg with halted := true, want := 0 } }
        -- the BRK record (R208) carries the `brk`'s own address and fault record
        let s := match brk with
          | some b =>
            haltRec s p f2 state (b.2.1.toNat * 2 ^ 16 + 0x0D)
              (faultWord f { faultInfo f none with cls := 0x0D, pos := b.2.2, retry := false } f.hnd.isSome).toNat 0 b.1
          | none => haltRec s p f2 state 0 0 0 f2.pc
        passBerth s p.core p.berth
      else setF s p f2

/-- What the gate lets through. -/
inductive Gate where
  | go (s : State)
  | held (s : State)

/-- In a redundant pair a span is put into the compare buffer instead of being released (R201). -/
def dualEnd (s : State) (p : Place) (f : Fibre) (d : Dual) : State :=
  if f.span.count = 0 then s
  else
    let u : Uncompared :=
      { no := f.spanNo, sig := spanSig f.span.hold, own := false, span := f.span, regions := f.regions, pilot := f.pilot.on,
        vcls := vanished f }
    let d : Dual := { d with unc := d.unc ++ [u], nload := 0 }
    dueOnce (setF s p { f with dual := some d }) (.spanCompare p)

/-- A commit point whose effects reach beyond the fibre's own span waits for every older span's compare (R203). -/
def dualWaits (i : Instr) : Bool :=
  i.ownSpan ||
    (match i with
     | .fbar .. | .bar .. | .barArr .. | .barWt .. | .spawn .. | .trap .. | .exit .. => true
     | _ => false)

/-- The VANISH record of a compared span that a redundant pair has re-run without meeting its fault, as the entry after its own
(R189, R272). -/
def vanishEnts (u : Uncompared) : List HoldEnt :=
  if u.vcls = 0 then []
  else [{ kind := .vanish u.vcls u.span.rgn u.span.start, pc := u.span.start, mask := 0, lanes := [], ord := .plain, sc := .fib, remap := false }]

/-- After the commit before it, a commit-point instruction of a redundant pair waits for its compare (R200, R201, R203). -/
def dualGate (s : State) (p : Place) (i : Instr) : Gate :=
  match getF s p with
  | none => .held s
  | some f =>
    match f.dual with
    | none => .go s
    | some d =>
      if !dualWaits i then .go s
      else if i.ownSpan then
        if d.cleared.contains f.spanNo then
          (if d.lead || i.eachCopy || d.results.any (fun r => r.1 == f.spanNo) then .go s else .held s)
        else if d.unc.any (fun u => u.own) then .held (dueOnce s (.spanCompare p))
        else if d.unc.isEmpty && f.relq.isEmpty then
          let u : Uncompared := { no := f.spanNo, sig := ownSig s f p i, own := true, span := newSpan f, regions := f.regions, pilot := f.pilot.on, vcls := 0 }
          let d : Dual := { d with unc := [u] }
          .held (dueOnce (setF s p { f with dual := some d }) (.spanCompare p))
        else .held (dueOnce s (.spanCompare p))
      else if d.unc.isEmpty && f.relq.isEmpty then .go s else .held (dueOnce s (.spanCompare p))

/-- Begin a commit (R181): the entries are to be released; a commit that releases one pulses (R379). -/
def startCommit (s : State) (p : Place) (f : Fibre) : State :=
  setF (if f.span.hold.isEmpty then s else pulse s (cidOf s f)) p
    { f with committing := true, relq := f.span.hold, relWait := false, scf := false }

/-- Take the commit of the open span a step further; true when the span is over. In a redundant pair the span goes to the compare
buffer, which a leader must not overfill (R201). -/
def commitStep (s : State) (p : Place) (edge : Bool) : Bool × State :=
  match getF s p with
  | none => (true, s)
  | some f =>
    if hasPend s p || f.span.faulted.isSome || f.froz != .no || f.dbg.halted then (false, s)
    else
      match f.dual with
      | some d =>
        if d.lead && 8 ≤ d.unc.length then (false, dueOnce s (.spanCompare p))
        else (true, afterCommit (dualEnd (setF s p { f with scf := false }) p { f with scf := false } d) p edge)
      | none =>
        let s := releaseGo (if f.committing then s else startCommit s p f) p
        match getF s p with
        | some f => if f.committing && f.relq.isEmpty && f.froz == .no && !f.dbg.halted then (true, afterCommit s p edge) else (false, s)
        | none => (true, s)

/-- Commit the span that is open, then pass on to the instruction if nothing stops it. -/
def commitThen (s : State) (p : Place) (i : Instr) : Gate :=
  let edge : Bool := match i with
    | .rgnEnter .. | .rgnLeave .. => true
    | _ => false
  match commitStep s p edge with
  | (false, s) => .held s
  | (true, s) =>
    match getF s p with
    | some f => if eligible s p f then dualGate s p i else .held s
    | none => .held s

/-- The instruction at `here` waits (R148): the berth passes with the prefix, where the fibre stands as it stood. -/
def stallHeld (f : Fibre) (h : Hdr) (s : State) (p : Place) : State :=
  match getF s p with
  | some g => if g.pc = f.pc ∧ g.hnd = f.hnd ∧ eligible s p g = true then stall s p h else s
  | none => s

/-! ### The gate (R56, R57, R147, R151, R179) -/

/-- Operands in a block that the fibre does not hold (R56, R156); a `spawn` needs slot 0 private (R172). -/
def windowBad (s : State) (f : Fibre) (p : Place) (i : Instr) (x : Info) : Bool :=
  let bad (o : Opnd) (n : Nat) : Bool := match o with
    | .v k => !(holds s f p (k.toNat / 16) && holds s f p ((k.toNat + n - 1) / 16 % 16))
    | _ => false
  (guardSrc x.h.guard ++ x.srcs).any (fun e => bad e.1 e.2.1) ||
    (match x.dst with
     | some d => bad d.1 d.2
     | none => false) ||
    (match i with
     | .spawn .. => descKind (descOf s f) 0 != 1
     | _ => false)

/-- The instruction needs the span before it to commit (R179). -/
def needsCommit (s : State) (p : Place) (f : Fibre) (i : Instr) (x : Info) : Bool :=
  let d := (match x.dst with
    | some d => refsOf s f p d.1 d.2
    | none => []) ++
    (match extraDst s p f i with
     | some d => refsOf s f p d.1 d.2
     | none => [])
  -- an instruction that passes no lane writes nothing, and takes an entry only as a release store (R182, R184, R249)
  let acts := !(passLanes s f p x.h.guard).isEmpty
  let relStore : Bool := match i with
    | .stG m | .stX m => m.ord != .plain
    | _ => false
  i.isCommit || f.span.limit ≤ f.span.count || (i.holdsEntry && (acts || relStore) && 48 ≤ f.span.hold.length) ||
    (acts && 64 < f.span.undo.length + undoNeed f d)

/-- A load of this fibre that must complete before any younger one is outstanding (R241). -/
def mustDrain (s : State) (p : Place) (f : Fibre) (i : Instr) : Bool := i.isLoad && s.pends.any fun q => ofPiece p f q && q.acq

/-- The word's decode and issue faults in the order of R56: class, or 0. -/
def issueCls (s : State) (p : Place) (f : Fibre) (i : Instr) (x : Info) : Nat :=
  let priv : Bool := match i with
    | .ldsys .. | .stsys .. | .tlbi .. => !privOf s (cidOf s f)
    | _ => false
  let tretOut : Bool := match i with
    | .tret .. => f.hnd.isNone
    | _ => false
  if !i.wf || tretOut then 1
  else if priv then 0x12
  else if windowBad s f p i x then 3
  else if x.srcs.any (fun e => e.2.2 && !regsFull s f p e.1 e.2.1) then 2
  else 0

/-- The class with which the other copy of a redundant pair has found the open span faulted, before this copy reached it (R202). -/
def twinFault (f : Fibre) : Option Nat := f.dual.bind fun (d : Dual) => (d.pil.find? fun e => e.1 == f.spanNo).map Prod.snd

/-- The span of a copy is faulted, because the other copy's is (R202). -/
def takeTwin (s : State) (p : Place) (cls : Nat) : State :=
  spanFault (modF s p fun f => { f with dual := f.dual.map fun (d : Dual) => ({ d with pil := d.pil.filter fun e => e.1 != f.spanNo } : Dual) })
    p cls

/-- The gate of an instruction word at `here`: it may act now, or something else happens or is waited for. -/
def ready (i : Instr) (s : State) : Gate :=
  let p := s.here
  match getF s p, i.info with
  | some f, some x =>
    if !eligible s p f then .held s
    else if f.span.faulted.isSome then .held (dueOnce s (.spanCommitRefused p))
    else if (twinFault f).isSome then .held (takeTwin s p ((twinFault f).getD 0))
    else if f.op.isSome then .go s
    else if f.committing then
      match commitThen s p i with
      | .go s => .held s
      | .held s => .held (stallHeld f x.h s p)
    else if f.pilot.on && hasPend s p then .held (stall s p x.h)
    else
      -- EMPTY is found while an older result is outstanding, and is raised once it has been written
      let found := issueCls s p f i x
      let c := if found = 0 && f.emptyAt then 2 else found
      if c ≠ 0 then
        -- every older instruction has taken its effect before a decode or issue fault (R56)
        if hasPend s p then .held (stall (modF s p fun f => { f with emptyAt := c == 2 }) p x.h)
        else .held (issueFault s p (i.isCommit && c != 1) c (if c = 1 then none else x.dst) [])
      else if !operandsReady s f p x || !extraFull s f p i || mustDrain s p f i then .held (stall s p x.h)
      else if needsCommit s p f i x then
        match commitThen s p i with
        | .go s => .go s
        | .held s => .held (stallHeld f x.h s p)
      else .go s
  | _, _ => .held s

/-- A meaning's answer. -/
abbrev Out : Type := Host.Outcome State Fault Refusal

/-- An instruction word: past the gate it acts, in the fibre at `here`; otherwise the machine goes on without it. -/
def run (i : Instr) (s : State) (k : State → Fibre → State) : Out :=
  match ready i s with
  | .held s => .next s
  | .go s =>
    match getF s s.here with
    | some f => .next (k s f)
    | none => .next s

/-! ### After an instruction (R163, R422, R423) -/

/-- The record of a step (R421, R423). -/
def stepRec (s : State) (p : Place) (f : Fibre) : State :=
  trace s p.core (cidOf s f)
    (mkRec { time := s.time, pc := (nextPc f).toNat, rgn := rgnWord f.regions, inst := ((groupOf s f).map Group.inst).getD 0,
             mask := f.amask.toNat, place := placeWord s p, type := 0x12 })

/-- A step ends, or a halt that waits for the end of an instruction in pilot gear takes effect, once the instruction's results are
in (R422, R423). -/
def settleHalt (s : State) (p : Place) : State :=
  match getF s p with
  | none => s
  | some f =>
    let halt (s : State) : State := setF s p { f with dbg := { f.dbg with halted := true, want := 0, step := false, ended := false } }
    if f.dbg.halted || hasPend s p || f.span.faulted.isSome || f.op.isSome || f.committing then s
    else if f.dbg.ended then passBerth (stepRec (halt s) p f) p.core p.berth
    else if ctxFlag s (cidOf s f) 117 && f.dbg.want == 1 && (f.pilot.on || f.hnd.isSome) then
      passBerth (haltRec (halt s) p f 1 0 0 0 (nextPc f)) p.core p.berth
    else s

/-- The berth has issued the instruction at `ipc` of the fibre at `p`. -/
def noteIssue (s : State) (p : Place) (ipc : DWord) : State :=
  let b := getB s p.core p.berth
  setB s p.core p.berth { b with run := b.run + 1, lastIssue := (cycOf s p.core, ipc), lastFib := p.fib }

/-- A fibre after an instruction that it has issued: counted, and at `pc`. `x`: a commit-point instruction, after which a new span
begins. A step ends in the gear in which the instruction was issued. -/
def wentOn (s : State) (p : Place) (f : Fibre) (pc : DWord) (x : Bool) : Fibre :=
  let g := { f with
    pc, fetched := none, emptyAt := false, xlat := [], op := none, readySince := cycOf s p.core
    halfCount := if f.halves.isEmpty then 0 else f.halfCount + 1
    span := { f.span with count := if x then 0 else f.span.count + 1 }
    dbg := { f.dbg with ended := ctxFlag s (cidOf s f) 117 && stepping s f } }
  if x && !g.committing then { g with span := newSpan g } else g

/-- Count the issue of the instruction at `ipc`, and go on at `pc`; `rot`: a divided fibre rotates (R163). -/
def retireAt (s : State) (p : Place) (ipc pc : DWord) (x : Bool) (rot : Bool := false) : State :=
  match getF s p with
  | none => s
  | some f =>
    let g := wentOn s p f pc x
    settleHalt (setF (noteIssue s p ipc) p (if rot then rotate g else g)) p

def retire (s : State) (p : Place) (pc : DWord) (x : Bool) : State :=
  match getF s p with
  | some f => retireAt s p f.pc pc x
  | none => s

/-- An ordinary instruction goes on at the next word. -/
def next (s : State) (p : Place) : State :=
  match getF s p with
  | some f => retire s p (f.pc + 12) false
  | none => s

/-- A commit-point instruction goes on at the next word, where a new span starts. -/
def nextX (s : State) (p : Place) : State :=
  match getF s p with
  | some f => retire s p (f.pc + 12) true
  | none => s

/-- A branch is taken; a backward one rotates a divided fibre (R163). -/
def goTo (s : State) (p : Place) (tgt : DWord) : State :=
  match getF s p with
  | some f =>
    retireAt s p f.pc tgt false (rot := tgt.toNat ≤ f.pc.toNat)
  | none => s

end Sys2Proof.Machine
end

