-- ==== Sys2Proof/Machine/Home.lean ====
section
/-! DEFINITION. A home serving its requests one line at a time, and what each answer does at the core (R27, R222 to R235, R242 to
R244, R298, R305, R359 to R362, R427, R428). -/
namespace Sys2Proof.Machine

/-! ### Waiting pieces (R147, R163) -/

/-- The running half of a fibre waits. -/
def setWait (s : State) (p : Place) (w : Wait) : State :=
  modF s p fun f => { f with wait := w, fetched := none, emptyAt := false, xlat := [] }

/-- Where the running half still waits, the next half that can run goes on, or the fibre blocks and the berth passes. -/
def settle (s : State) (p : Place) : State :=
  match getF s p with
  | none => s
  | some f =>
    if f.wait == .none then s
    else if f.halves.any (fun h => h.wait == .none) then setF s p (rotate f) else passBerth s p.core p.berth
def block (s : State) (p : Place) (w : Wait) : State := settle (setWait s p w) p

/-- The running half waits after a commit-point instruction: a rollback of the span that begins there returns it to its wait. -/
def setWaitX (s : State) (p : Place) (w : Wait) : State :=
  modF (setWait s p w) p fun f => if spanClean f then { f with span := { f.span with entry := curHalf f :: f.halves } } else f

/-! ### Queue and barrier operations at the home -/

def status (hi lo : Nat) : Nat := hi * 2 ^ 63 + lo

/-- Task records that become ready are there for the harbourmaster (R358). -/
def tellTasks (s : State) : State :=
  s.queues.foldl (fun s e => if e.2.kind = 0 && (readyWharf e.2).isSome then due s (.taskTake e.2.cid) else s) s

/-- Open state, owner and kind (R354): the queue, or QUEUE, or MEM_ERROR of the header. -/
def queueCheck (s : State) (cid hpa major : Nat) : Nat × State :=
  let ok (k : Nat) : Bool :=
    match major with
    | 0xC6 => k ≤ 1
    | 0xC7 => k == 1 || k == 2
    | _ => k == 3
  let judge (s : State) : Nat × State :=
    match tfind s.queues hpa with
    | some q => if q.cid = cid && ok q.kind then (0, s) else (0x11, s)
    | none => (0x11, s)
  match tfind s.queues hpa with
  | some _ => judge s
  | none =>
    let r := readRun 2 s hpa 128
    if !r.2.1 then (8, r.2.2)
    else
      match openQueue r.2.2 cid hpa (natOf r.1) with
      | none => (0x11, r.2.2)
      | some s => judge s

/-- Reserved bits of a record, or a DEP that the push refuses (R366). -/
def recBad (major : Nat) (r : Record) : Bool :=
  recAt r 48 16 != 0 || recDep r % 4 != 0 || (major == 0xC8 && recDep r != 0)

/-- The cores of a scope, seen from a core (R28): those of other modules lie in `dom` and `sys` alone. -/
def inSet (sc : Scope) (core c : Nat) : Bool :=
  if core < 1000000 ∧ c < 1000000 then inScope sc core c else sc == .dom || sc == .sys

/-- The clock that a take observes (R361): that of a release push, where an acquire take and it form an inclusive pair (R246). -/
def seenClk (e : QRec) (core : Nat) (sy : Option Scope) : Nat :=
  match e.sy, sy with
  | some (c, sc), some tk => if inSet sc c core && inSet tk core c then e.clk else 0
  | _, _ => 0

/-- The queue operations of R366; `major` 0 only opens and checks for a `qpush` with DEP. `sy`: the scope of a push that releases,
or of a take that acquires. -/
def queueOp (s : State) (cid hpa clk major : Nat) (rcd : Record) (core : Nat) (sy : Option Scope) : Answer × State :=
  let ans (st : Nat) (data : List Byte) (wt : Nat) : Answer := { data, wt, lt := 0, status := st, cls := 0 }
  let c := queueCheck s cid hpa (if major = 0 then 0xC6 else major)
  if c.1 ≠ 0 then ({ data := [], wt := 0, lt := 0, status := 0, cls := c.1 }, c.2)
  else
    let s := c.2
    match major with
    | 0 => (ans 0 [] 0, s)
    | 0xC6 | 0xC8 =>
      if recBad major rcd then (ans (status 1 2) [] 0, s)
      else
        match placeRec s hpa (if major = 0xC6 then keyWharf (recKey rcd) else 0) { rcd, held := none, run := none, clk, sy := sy.map fun x => (core, x) } with
        | none => (ans (status 1 1) [] 0, s)
        | some s => (ans 0 [] 0, tellTasks s)
    | _ =>
      match takeRec s hpa (major == 0xC9) with
      | none => (ans 0 [] 0, s)
      | some (e, s) => (ans (status 1 (e.rcd.toNat % 2 ^ 63)) (bytesOf 64 e.rcd.toNat) (seenClk e core sy), s)

/-- A record arrives at its counter's home (R357, R362). -/
def depArrive (s : State) (pa clk qpa : Nat) (rcd : Record) (run : Option Nat) (sy : Option (Nat × Scope) := none) : Answer × State :=
  let c := natOf (memRd s.mem (localAddr pa) 4)
  let ans (st cls : Nat) : Answer := { data := [], wt := 0, lt := 0, status := st, cls }
  if isErr s (lineNo pa) then (ans 0 8, s)
  else
    match placeRec s qpa (sliceOfPa pa) { rcd, held := if c = 0 then none else some pa, run, clk, sy } with
    | none => (ans (status 1 1) 0, s)
    | some s => (ans (if c = 0 then 0 else 1) 0, tellTasks s)

/-- A decrement at the counter's home (R362). -/
def depDecrement (s : State) (pa clk : Nat) : Answer × State :=
  let line := lineNo pa
  let c := natOf (memRd s.mem (localAddr pa) 4)
  if isErr s line then ({ data := [], wt := 0, lt := 0, status := 0, cls := 8 }, s)
  else if c = 0 then ({ data := [], wt := (getHome s line).wt, lt := 0, status := status 1 3, cls := 0 }, s)
  else
    let w := homeWrite s pa clk (bytesOf 4 (c - 1))
    if c = 1 then
      let r := releaseHeld w.2 pa (max clk w.1.wt)
      ({ w.1 with status := 2 ^ 32 + r.1 }, tellTasks r.2)
    else ({ w.1 with status := 0 }, w.2)

/-- A memory barrier operation (R298, R304, R305): the old GEN comes back; a read brings the line's write tide as its data. -/
def mbarOp (s : State) (pa clk : Nat) (op : HomeOp) : Answer × State :=
  let line := lineNo pa
  let rd (o n : Nat) : Nat := natOf (memRd s.mem (localAddr pa + o) n)
  let expect := rd 0 4
  let arrived := rd 4 4
  let gen := rd 8 8
  if isErr s line then ({ data := [], wt := 0, lt := 0, status := 0, cls := 8 }, s)
  else
    let put (a g e : Nat) : Answer × State :=
      let r := homeWrite s pa clk (bytesOf 4 e ++ bytesOf 4 a ++ bytesOf 8 g)
      ({ r.1 with status := gen }, r.2)
    match op with
    | .mbarInit n => put 0 gen (n % 2 ^ 32)
    | .mbarArr =>
      let a := (arrived + 1) % 2 ^ 32
      if expect ≤ a then put 0 ((gen + 1) % 2 ^ 64) expect else put a gen expect
    | _ => ({ data := bytesOf 8 (getHome s line).wt, wt := (getHome s line).wt, lt := 0, status := gen, cls := 0 }, s)

/-! ### Replay (R427, R428) -/

def isLogged (op : HomeOp) : Bool :=
  match op with
  | .atomic .. | .mbarInit _ | .mbarArr | .dep => true
  | .queue m _ => m != 0
  | .depRec _ _ run => run.isNone
  | _ => false

/-- The slice that serves an operation (R359): a push or a take of a queue with wharves at every slice, that of its wharf. -/
def servingSlice (s : State) (r : Req) : Nat :=
  match r.op with
  | .queue 0xC6 rcd => keyWharf (recKey rcd)
  | .queue 0xC7 _ =>
    match tfind s.queues r.pa with
    | some q => if hasMany q.kind then (readyWharf q).getD (sliceOfPa r.pa) else sliceOfPa r.pa
    | none => sliceOfPa r.pa
  | _ => sliceOfPa r.pa

/-- A log entry. -/
def logWord (t : Nat × Nat × Nat × Nat × Nat) : Nat :=
  t.1 % 2 ^ 32 * 2 ^ 96 + t.2.1 % 2 ^ 48 * 2 ^ 48 + t.2.2.1 % 4 * 2 ^ 43 + t.2.2.2.1 % 8 * 2 ^ 40 + t.2.2.2.2 % 2 ^ 32

/-- RPMODE (R419), with FLAGS REPLAY. -/
def replayMode (s : State) (cid : Nat) : Nat :=
  if ctxFlag s cid 116 then (getReg s (dbgAddr cid + 0x28)).toNat / 32 % 4 else 0
/-- For whom a far line is gathered, where it is no command: a context's next task, a gate word, a slice's replay log. -/
def ownerTask : Nat := 2 ^ 60
def ownerGate : Nat := 2 ^ 61
def ownerSlice : Nat := 2 ^ 62
/-- A group that is placed again reads its slot. -/
def ownerRestore : Nat := 2 ^ 90
/-- A `load`, and a `reload` of a context, that reads its handler table. -/
def ownerLoad : Nat := 2 ^ 57
def ownerReload (cid : Nat) : Nat := 2 ^ 57 + 1 + cid

/-- Address of a slice's next log entry, if its part is not used up. -/
def logAddr (s : State) (cid k : Nat) : Option Nat :=
  let r := (getReg s (dbgAddr cid + 0x28)).toNat
  let n := 2 ^ min (r % 32) 20
  let j := tget 0 (getSl s k).logged cid
  if j < n then some (r / 2 ^ 16 * 2 ^ 16 + 16 * (k * n + j)) else none
def countLog (s : State) (cid k : Nat) : State :=
  let sl := getSl s k
  setSl s k { sl with logged := tset 0 sl.logged cid (tget 0 sl.logged cid + 1) }

/-- A device core, not a peer module's. -/
def ownCore (c : Nat) : Bool := c < 1000000

/-- Record an operation served by slice `k`. -/
def logServed (s : State) (r : Req) (k : Nat) : State :=
  if !isLogged r.op || !ownCore r.core || replayMode s r.cid != 1 then s
  else
    match logAddr s r.cid k with
    | none => s
    | some a => countLog (putVirt (fun _ => .drop) 2 s r.core r.cid a (bytesOf 16 (logWord r.tag))).2.2 r.cid k

/-- The fields of a log entry that a replay compares; what is read in its reserved bits is ignored (R6, R427). -/
def logFields (e : Nat) : Nat := e / 2 ^ 48 * 2 ^ 48 + e / 2 ^ 40 % 2 ^ 5 * 2 ^ 40 + e % 2 ^ 32

/-- Under enforcement, whether the slice may serve this operation now. The entry it stands for is used up when it is served
(`countServed`). -/
def mayServe (s : State) (r : Req) : Bool × State :=
  let k := servingSlice s r
  if !isLogged r.op || !ownCore r.core || replayMode s r.cid != 2 || (getSl s k).free.contains r.cid then (true, s)
  else
    match logAddr s r.cid k with
    | none => (true, s)
    | some a =>
      let g := getVirt 2 s (ownerSlice + k) r.core r.cid (Ask.load 16) a 16
      match g.1 with
      | .ok b =>
        let e := natOf b
        if e % 2 ^ 32 = 0 then (true, g.2.2)
        else (logFields e == logWord r.tag, g.2.2)
      | .fail _ => (true, g.2.2)
      | .wait => (false, g.2.2)

/-- Under enforcement, an operation that is served uses up the log entry that names it: the logged order is kept however long a
recall or a port lets the operation wait (R428). -/
def countServed (s : State) (r : Req) : State :=
  let k := servingSlice s r
  if !isLogged r.op || !ownCore r.core || replayMode s r.cid != 2 || (getSl s k).free.contains r.cid then s
  else
    match logAddr s r.cid k with
    | none => s
    | some a =>
      let g := getVirt 2 s (ownerSlice + k) r.core r.cid (Ask.load 16) a 16
      match g.1 with
      | .ok b => if natOf b % 2 ^ 32 ≠ 0 && logFields (natOf b) == logWord r.tag then countLog g.2.2 r.cid k else g.2.2
      | _ => g.2.2

/-! ### Serving -/

/-- What the operation does once the line has no owner and its data is there. -/
def perform (s : State) (r : Req) : Answer × State :=
  let line := lineNo r.pa
  match r.op with
  | .lease _ len =>
    let a := homeLease s line r.clk len
    -- a core that owns the line by now has the newest data itself, or on its way: the home's are not sent
    if ((getHome s line).owner.map Prod.fst) = some r.core then ({ a.1 with data := [] }, a.2) else a
  | .own => homeOwn s line r.clk r.core
  | .load n => let a := homeRead s line; ({ a.1 with data := memRd a.2.mem (localAddr r.pa) n }, a.2)
  | .store b => homeWrite s r.pa r.clk b (if r.stamp = 0 then r.id else r.stamp)
  | .atomic m t l pc b c => homeAtomicOp s r.pa r.clk m t l pc b c
  | .part src q => homePart s line r.clk src q
  | .probe => homeRead s line
  | .mbarInit _ | .mbarArr | .mbarRead => mbarOp (collect s line) r.pa r.clk r.op
  | .queue m rcd => queueOp s r.cid r.pa r.clk m rcd r.core r.sy
  | .dep => depDecrement (collect s line) r.pa r.clk
  | .depRec q rcd run =>
    -- a peer's record comes with no check of its queue before it (R354, R366)
    let c := if ownCore r.core then (0, s) else queueCheck s r.cid q 0xC6
    if c.1 ≠ 0 then ({ data := [], wt := 0, lt := 0, status := 0, cls := c.1 }, c.2)
    else depArrive (collect c.2 line) r.pa r.clk q rcd run (r.sy.map fun x => (r.core, x))
  | .prom _ _ => ({ data := [], wt := 0, lt := 0, status := clockOf s (r.pa % 1024), cls := 0 }, s)
  | .tlbi .. => ({ data := [], wt := 0, lt := 0, status := 0, cls := 0 }, s)

/-- The operation needs the line without an owner: a lease only another core's (R222), the others any (R223, R224, R229, R234,
R244). -/
def needsRecall (r : Req) (owner : Option (Nat × Nat)) : Bool :=
  match owner, r.op with
  | none, _ => false
  | some _, .queue .. => false
  | some _, .prom .. => false
  | some _, .tlbi .. => false
  | some (c, _), .lease .. => c != r.core
  | some _, _ => true

/-- The operation needs the line's data from behind the port (R26). -/
def needsPort (s : State) (r : Req) : Bool :=
  isPort s r.pa && !r.port &&
    (match r.op with
     | .store _ | .part .. | .prom .. | .queue .. | .tlbi .. => false
     | _ => true)

/-- Row of a request that waits at its home. -/
def wake (s : State) (r : Req) : State := due s (serveRow r.id r.op r.cont)
/-- Requests that wait for this line are served next. -/
def wakeLine (s : State) (line : Nat) : State :=
  (s.reqs.filter fun r => lineNo r.pa == line && isOwn s r.pa && !(match r.op with
    | .prom .. => true
    | _ => false)).foldl wake s
/-- Logged operations of a slice look again. -/
def wakeSlice (s : State) (k cid : Nat) : State :=
  (s.reqs.filter fun r => isLogged r.op && r.cid == cid && servingSlice s r == k && isOwn s r.pa).foldl wake s

/-- An earlier partial of the same core for this line is still on its way: it is ahead (R234). -/
def behindPart (s : State) (r : Req) : Bool :=
  s.reqs.any fun q => q.core == r.core && q.id < r.id && lineNo q.pa == lineNo r.pa &&
    (match q.op with
     | .part .. => true
     | _ => false)

/-! ### Answers -/

/-- The bytes a lane takes from a line, held stores first (R182). -/
def laneBytes (l : OpLane) (n : Nat) (d : Line) : Nat :=
  natOf ((lineRd d (l.pa % 128) n).zipIdx.map fun e => ((l.fwd.getD e.2 none).getD e.1))

/-- Put a leased copy into an L1, unless it holds an owned one or one of a later lease: the leases of a line are granted in rising
order (R222). One whose lease lies below the L1's base is not kept (R225). -/
def putLeased (s : State) (core line : Nat) (a : Answer) : State :=
  let cp : Copy := { owned := false, data := lineOfBytes a.data, wt := a.wt, lt := a.lt, dirty := 0 }
  if a.data.isEmpty || a.lt < (getC s core).base then s
  else
    match getCopy s core line with
    | some c => if c.owned || a.lt < c.lt then s else putCopy s core line cp
    | none => putCopy s core line cp

/-- The newest data that a core has of a line when an answer brings some: its owned copy's, or that of a later lease. -/
def newestData (s : State) (core line : Nat) (a : Answer) : Option Line :=
  match getCopy s core line with
  | some c => if c.owned || a.data.isEmpty || a.lt ≤ c.lt then some c.data else some (lineOfBytes a.data)
  | none => if a.data.isEmpty then none else some (lineOfBytes a.data)

/-- A line arrives for the lanes of a load that wait for it. -/
def fillPend (s : State) (r : Req) (a : Answer) (id : Nat) : State :=
  match s.pends.find? fun q => q.id == id with
  | none => s
  | some q =>
    let line := lineNo r.pa
    let s := if a.cls = 0 then seeTide s r.core a.wt else s
    let leased := match r.op with
      | .lease .. => a.cls == 0
      | _ => false
    let s := if leased then putLeased s r.core line a else s
    let asked := q.asked.filter (· != line)
    match if leased then newestData s r.core line a else some (lineOfBytes a.data) with
    -- the answer came without data, and the owned copy it counted on is gone or still to come: the line is asked for again
    | none => due { s with pends := swapFirst (fun x : Pend => x.id == id) { q with asked } s.pends } (.resultWriteback id)
    | some d =>
      let s := if leased then (match getCopy s r.core line with
        | some c => seeTide s r.core c.wt
        | none => s) else s
      let here (l : OpLane) : Bool := lineNo l.pa == line
      -- in pilot gear the lanes are performed in ascending order (R188)
      let mine := if q.pilot then q.lanes.takeWhile here else q.lanes.filter here
      let q' : Pend := { q with
        lanes := if q.pilot then q.lanes.dropWhile here else q.lanes.filter fun l => !here l
        asked
        vals := if a.cls = 0 then q.vals ++ mine.map fun l => (l.lane, laneBytes l q.size d) else q.vals
        bad := if a.cls = 0 then q.bad else q.bad ++ mine.map fun l => (l.lane, a.cls, l.va) }
      due { s with pends := swapFirst (fun x : Pend => x.id == id) q' s.pends } (.resultWriteback id)

/-- A held store is accepted, or its ownership arrives and it is written (R183, R223). -/
def deliverHold (s : State) (r : Req) (a : Answer) (p : Place) : State :=
  match getF s p with
  | none => s
  | some f =>
    let s := if r.op = .own then landGrant s r a else if a.cls = 0 then seeTide s r.core a.wt else s
    if !f.relWait then s
    else if a.cls ≠ 0 then
      let l := match f.relq with
        | e :: _ => e.lanes.head?
        | [] => none
      let ln := (l.map HoldLane.lane).getD 0
      let va := (l.map HoldLane.va).getD 0
      raise (modF s p fun f => { f with relWait := false, readySince := cycOf s p.core }) p
        { faultInfo f none with cls := a.cls, mask := maskOf [ln], addrs := [(ln, va)], acc := 2, pos := 0 }
    else
      -- the fibre is ready again (R149)
      let s := wakeProm (releaseGo (readyNow (modF s p popRelease) p) p) p.core
      if f.dual.isSome then dueOnce s (.spanCompare p) else s

/-- The core meets the tide that an answer brings; one that brings none, or a failure, leaves the clock (R221, R225). -/
def seeAnswer (s : State) (core : Nat) (a : Answer) : State := if a.cls = 0 ∧ a.wt ≠ 0 then seeTide s core a.wt else s

/-- A commit-point operation gets the answer for its next lane (R244). -/
def deliverOp (s : State) (r : Req) (a : Answer) (p : Place) : State :=
  -- a lane that was not performed leaves the clock (R244), and so does a queue operation outside an inclusive pair (R361)
  let s := if a.cls ≠ 0 then s
    else match r.op with
      | .prom .. => raiseClock s r.core a.status
      | .queue .. | .depRec .. => if r.sy.isSome then seeAnswer s r.core a else s
      | _ => seeTide s r.core a.wt
  -- the store of an `st.g.sc` is written into the copy its ownership brings
  let s := match r.op with
    | .own => landGrant s r a
    | .lease .. => if a.cls = 0 then putLeased s r.core (lineNo r.pa) a else s
    | _ => s
  modF s p fun f =>
    match f.op with
    | none => f
    | some o =>
      let lane := (o.lanes.head?.map OpLane.lane).getD 0
      -- a load of a redundant pair still sees the stores of uncompared spans (R182, R203)
      let fwd := (o.lanes.head?.map OpLane.fwd).getD []
      -- the fibre is ready again (R149)
      { f with readySince := cycOf s p.core, op := some { o with
          lanes := o.lanes.drop 1
          got := if a.cls = 0 then o.got ++ [(lane, natOf (a.data.zipIdx.map fun e => (fwd.getD e.2 none).getD e.1))] else o.got
          bad := if a.cls = 0 then o.bad else o.bad ++ [(lane, a.cls)]
          aux := a.status
          rcd := if a.data.length = 64 then BitVec.ofNat 512 (natOf a.data) else o.rcd
          stage := o.stage + 1 } }

/-- A piece waits on this line as `park` waits (R174, R305). -/
def onLine (line : Nat) (w : Wait) : Bool :=
  match w with
  | .park pa _ _ _ => lineNo pa == line
  | .mbarWt pa _ => lineNo pa == line
  | _ => false

/-- A half parked on this line stands before its `park` again. -/
def unparkHalf (line : Nat) (h : Half) : Half :=
  match h.wait with
  | .park pa _ _ next => if lineNo pa = line then { h with wait := .none, pc := next - 12 } else h
  | _ => h

/-- The probe of a parked half has failed (R174, R440): `park` raises the fault at its virtual address. A deferred half is brought
to run for it; where the running half stands inside an operation, the half meets the fault when it executes `park` again. -/
def parkFault (s : State) (p : Place) (f : Fibre) (line cls : Nat) : State :=
  let all := curHalf f :: f.halves
  let parked (h : Half) : Bool := match h.wait with
    | .park .. => onLine line h.wait
    | _ => false
  match all.find? parked with
  | none => wakeWait s p (onLine line)
  | some h =>
    let va := match h.wait with
      | .park _ va _ _ => va
      | _ => 0
    let rest := ((f.halves ++ [curHalf f]).filter fun x => x != h).map (unparkHalf line)
    let h' := unparkHalf line h
    let f := { f with span := { f.span with entry := f.span.entry.map (unparkHalf line) } }
    if f.op.isSome || f.committing then
      setF s p { f with halves := f.halves.map (unparkHalf line), readySince := cycOf s p.core }
    else
      let f := { f with
        amask := h'.mask, pc := h'.pc, splits := h'.splits, wait := .none, halves := if f.halves.isEmpty then [] else rest
        halfCount := 0, fetched := none, emptyAt := false, xlat := [] }
      raise (setF s p f) p { faultInfo f none with cls, addrs := [((lanesIn f.amask).headD 0, va)], acc := 1, pos := 0 }

/-- A parked piece gets the line's write tide (R174, R228, R305): the home's own, which the base of the L1 does not raise, so that
no write goes unseen (log entry 49, DEDUCED). -/
def deliverPark (s : State) (r : Req) (a : Answer) (p : Place) : State :=
  match getF s p with
  | none => s
  | some f =>
    let line := lineNo r.pa
    let moved (w : Wait) : Bool := match w with
      | .park pa _ (some w) _ => lineNo pa == line && w != a.wt
      | .mbarWt pa (some w) => lineNo pa == line && w != a.wt
      | _ => false
    if a.cls ≠ 0 then (if (waitsOf f).any (onLine line) then parkFault s p f line a.cls else s)
    else if (waitsOf f).any moved then wakeWait s p moved
    else
      mapWait (modF s p fun f => { f with probed := cycOf s p.core }) p fun w => match w with
        | .park pa va none n => if lineNo pa = line then .park pa va (some a.wt) n else w
        | _ => w

/-- Commands that have moved everything wait for their writes to be accepted (R259). -/
def wakeCmds (s : State) (core : Nat) : State :=
  s.cmds.foldl (fun s c => if c.core == core && c.done && !c.counted then due s (.engineCommandComplete c.id) else s) s

/-- A step that waits for a line of a peer can go on. -/
def wakeFar (s : State) (o : Nat) : State :=
  if ownerRestore ≤ o then due s (.groupPlace (o - ownerRestore))
  else
  match s.cmds.find? fun c => c.id == o with
  | some c =>
    due s (match c.cls with
      | .copy => .copyCommandExecute c.core (BitVec.ofNat 2 c.ch)
      | _ => .gatherCommandExecute c.core 0)
  | none =>
    match s.quays.find? fun q => q.2.ents.any fun e => e.2.id == o with
    | some q => due s (.matrixStep q.1)
    | none =>
      if ownerSlice ≤ o then (s.reqs.filter fun r => isLogged r.op && servingSlice s r == o - ownerSlice && isOwn s r.pa).foldl wake s
      else if ownerGate ≤ o then due s (.gateOpen (placeOf (o - ownerGate)))
      else if ownerTask ≤ o then due s (.taskTake (o - ownerTask))
      else if o = ownerLoad then due s .load
      else if ownerLoad < o ∧ o ≤ ownerLoad + 4096 then due s (.reload (o - ownerLoad - 1))
      else s

/-- A write of an engine command is accepted, or has failed: the command is then abandoned, and its lowest failing address is
reported (R281, R407). -/
def engWritten (s : State) (id va cls : Nat) : State :=
  if cls = 0 then s
  else { s with cmds := s.cmds.map fun (c : Cmd) =>
    if c.id = id then ({ c with fail := some (min va (c.fail.getD va)), done := true } : Cmd) else c }

/-- The increment of a completion word has come back: a failure is posted (R342, type 0x09). -/
def doneWritten (s : State) (cid inst addr cls : Nat) : State :=
  if cls = 0 then s else postFree s cid (mkRec { addr, inst, type := 9, cls })

/-- A write of a group's save is accepted, or has failed (R287). -/
def saveWritten (s : State) (g va cls : Nat) : State :=
  due (if cls = 0 then s else modG s g fun x => { x with saveErr := some (x.saveErr.getD (cls, va)) }) (.groupSaveWrite g)

/-- What an answer does where it was asked for. -/
def deliver (s : State) (r : Req) (a : Answer) : State :=
  let s := if ownCore r.core then cross s (dieOf r.core) else s
  match r.cont with
  | .drop => if ownCore r.core then wakeCmds (wakeProm (seeAnswer s r.core a) r.core) r.core else s
  | .eng id va => wakeCmds (wakeProm (engWritten (seeAnswer s r.core a) id va a.cls) r.core) r.core
  | .done cid inst addr => doneWritten s cid inst addr a.cls
  | .save g va => saveWritten s g va a.cls
  | .trace cid => traceWritten (seeAnswer s r.core a) r.core cid a.cls
  | .pend id => fillPend s r a id
  | .fill core => if a.cls = 0 then putLeased (seeAnswer s core a) core (lineNo r.pa) a else s
  | .hold p => deliverHold s r a p
  | .op p => deliverOp s r a p
  | .park p => deliverPark s r a p
  | .gate p => due s (.gateOpen p)
  | .far o =>
    let s := wakeFar (if ownCore r.core then seeAnswer s r.core a else s) o
    { s with far := s.far.map fun (x : Far) =>
        if x.owner == o && x.line == lineNo r.pa then ({ x with data := some (lineOfBytes a.data), cls := a.cls, wt := a.wt, lt := a.lt } : Far) else x }

/-- The row at which an answer arrives, for answers that travel; the others arrive with the serving. -/
def replyRow (r : Req) : Option Instr :=
  match r.op with
  | .lease .. => some (.leaseReply r.id)
  | .own => some (.ownershipGrant r.id)
  | .atomic .. => some (.atomicReply r.id)
  | .probe => some (.parkProbeReply r.id)
  | _ => none

/-- The answer leaves the home. -/
def answer (s : State) (r : Req) (a : Answer) : State :=
  if !ownCore r.core then sendPacket s (r.core - 1000000) r.pa
  else
    match replyRow r with
    | some i => due { s with replies := s.replies ++ [{ id := r.id, req := r, ans := a }] } i
    | none => deliver s r a

/-- An answer arrives. -/
def arrive (s : State) (id : Nat) : State :=
  match pick (fun x : Reply => x.id == id) s.replies with
  | none => s
  | some (x, rest) =>
    let s := { s with replies := rest }
    let s := deliver s x.req x.ans
    -- a recall that waits for this grant can be answered
    s.recalls.foldl
      (fun s c => if !c.answered && c.core == x.req.core && c.line == lineNo x.req.pa then due s (.recall c.id) else s) s

/-- A home operation that writes, or that returns a record (R379). -/
def pulsesOp (op : HomeOp) (a : Answer) : Bool :=
  a.cls == 0 &&
    (match op with
     | .atomic .. => a.status == 1
     | .mbarInit _ | .mbarArr => true
     | .queue m _ => m != 0 && (if m = 0xC6 ∨ m = 0xC8 then a.status == 0 else a.status != 0)
     | .dep => a.status != status 1 3
     | .depRec .. => a.status ≤ 1
     | _ => false)

/-- Perform a request whose line is free, and answer it. -/
def serveNow (s : State) (r : Req) : State :=
  let s := countServed (dropReq s r.id) r
  let k := servingSlice s r
  let a := perform s r
  let s := logServed a.2 r k
  -- a write behind the port goes on to it (R241)
  let s := match r.op with
    | .store _ | .atomic .. | .mbarInit _ | .mbarArr | .dep =>
      if isPort s r.pa && ownCore r.core then drainPort.portWrite s r.core (r.pa / 128 * 128) else s
    | _ => s
  let s := answer s r a.1
  let s := if ownCore r.core && pulsesOp r.op a.1 then pulse s r.cid else s
  let s := wakeLine s (lineNo r.pa)
  if isLogged r.op && ownCore r.core && replayMode s r.cid == 2 then wakeSlice s k r.cid else s

/-- A peer's `tlbi` of system scope (R213): it acts as one of module scope, and is answered when nothing in flight uses what it
dropped. -/
def serveTlbi (s : State) (r : Req) (mode : TlbiMode) (a b : DWord) : State :=
  let first := r.held = 0
  let s := if first then doTlbi s 0 .mod mode a b else s
  let since := if first then s.nextId else r.held
  let s := { s with reqs := s.reqs.map fun (q : Req) => if q.id = r.id then ({ q with held := since } : Req) else q }
  if tlbiBusy s 0 .mod mode a b since then due s (.untrackedAccess r.id) else serveNow s r

/-- Serve a request at its home: at once, after a recall, after a read through the port, or later (R27, R224). -/
def serveReq (s : State) (id : Nat) : State :=
  match findReq s id with
  | none => s
  | some r =>
    let line := lineNo r.pa
    let h := getHome s line
    match r.op with
    | .tlbi mode a b => serveTlbi s r mode a b
    | _ =>
    if !isOwn s r.pa || h.busy || behindPart s r then s
    else
      let m := mayServe s r
      if !m.1 then
        let s := m.2
        { s with reqs := s.reqs.map fun (q : Req) => if q.id = id ∧ q.held = 0 then ({ q with held := s.time + 1 } : Req) else q }
      else
        let s := { m.2 with reqs := m.2.reqs.map fun (q : Req) => if q.id = id then ({ q with held := 0 } : Req) else q }
        match needsRecall r h.owner, h.owner with
        | true, some (c, g) =>
          due (setHome { s with recalls := s.recalls ++ [{ id, core := c, line, grant := g, answered := false, data := none }] } line
            { h with busy := true }) (.recall id)
        | _, _ =>
          if needsPort s r then setHome s line { h with busy := true }
          else serveNow s r

/-- A recall reaches the L1 (R224): the owned copy with that grant tide goes, its dirty sectors with the answer. It waits for a
grant still on its way to that core. A tide below the L1's base is raised to it, as the copy's is (R225). -/
def recallAt (s : State) (id : Nat) : State :=
  match s.recalls.find? fun c => c.id == id && !c.answered with
  | none => s
  | some c =>
    let inFlight := s.replies.any fun x => x.req.core == c.core && lineNo x.req.pa == c.line && x.req.op == .own
    if inFlight then s
    else
      let got : Option (Line × BitVec 4) := match getCopy s c.core c.line with
        | some cp => if cp.owned && !c.ended && cp.wt ≤ max c.grant (getC s c.core).base then some (cp.data, cp.dirty) else none
        | none => none
      let s := if got.isSome then dropCopy s c.core c.line else s
      let c' : Recall := { c with answered := true, data := got }
      due { s with recalls := swapFirst (fun x : Recall => x == c) c' s.recalls } (.recallAnswer id)

/-- The answer of a recall reaches the home, which looks again at the request that waited for it. An answer about an ownership that
has ended otherwise changes nothing: the line may have another owner by now. -/
def recallDone (s : State) (id : Nat) : State :=
  match pick (fun c : Recall => c.id == id && c.answered) s.recalls with
  | none => s
  | some (c, rest) =>
    let s := if c.ended then { s with recalls := rest } else takeBack { s with recalls := rest } c.core c.line c.data
    let s := setHome s c.line { getHome s c.line with busy := false }
    if (findReq s id).isSome then serveReq s id else wakeLine s c.line

/-- A promotion at the victim core (R242). -/
def serveProm (s : State) (id : Nat) : State :=
  match findReq s id with
  | none => s
  | some r =>
    match r.op with
    | .prom v sc =>
      if !isOwn s r.pa then s
      else
        let releasing := s.fibres.any fun e => (placeOf e.1).core == v && !e.2.relq.isEmpty &&
          (e.2.relWait || (e.2.froz == .no && !e.2.dbg.halted))
        if releasing then s
        else
          -- a promotion has the core send its partials whatever its scope (R234)
          let s := startDrains (sendParts s v) v sc
          if drained s v sc then serveNow s r else s
    | _ => s

end Sys2Proof.Machine
end

