-- ==== Sys2Proof/Machine/Pieces.lean ====
section
/-! DEFINITION. Pieces of a fibre: dividing, detaching, joining and ending them (R146, R156 to R163, R169, R171). -/
namespace Sys2Proof.Machine

/-! ### Families -/

def famPlaces (s : State) (p : Place) (root : Nat) : List Place :=
  (family s p.core p.berth root).map fun c => { core := p.core, berth := p.berth, fib := c }

/-- Live lanes of a family. -/
def famLive (s : State) (p : Place) (root : Nat) : Mask :=
  (famPlaces s p root).foldl (fun m q => match getF s q with
    | some f => m ||| liveMask f
    | none => m) 0

/-- A context of the berth is free: it holds no fibre (R147). -/
def freeCtx (s : State) (core berth c : Nat) : Bool := (getF s { core, berth, fib := c }).isNone

/-- A context in which a fibre can start: it is free, and no fragment of a fibre that was rooted in it still uses its window
(R160, R172; log entry 22, DEDUCED). -/
def freeRoot (s : State) (core berth c : Nat) : Bool := freeCtx s core berth c && (family s core berth c).isEmpty

/-- Outstanding commands of a context that has no fibre any more belong to no fibre: their `fib` is 8. A scalar result still in
flight to it has no register left. -/
def orphan (s : State) (p : Place) : State :=
  { s with
    pends := s.pends.filter fun q => !(q.scalar && q.core == p.core && q.berth == p.berth && q.fib == p.fib)
    cmds := s.cmds.map fun (c : Cmd) => if c.core == p.core && c.berth == p.berth && c.fib == p.fib then ({ c with fib := 8 } : Cmd) else c
    quays := s.quays.map fun (q : Nat × Quay) => (q.1, ({ q.2 with ents := q.2.ents.map fun (e : Nat × MEnt) =>
      if e.2.core == p.core && e.2.berth == p.berth && e.2.fib == p.fib then (e.1, ({ e.2 with fib := 8 } : MEnt)) else e } : Quay)) }

/-- A context that was a piece of the family is one no longer: where it was the parent of a split, the split has none (R161), and no
fragment sees its held stores. -/
def goneParent (s : State) (core berth root c : Nat) : State :=
  let g (x : Split) : Split := if x.parent = c then { x with parent := 8 } else x
  let h (x : Half) : Half := { x with splits := x.splits.map g }
  let sp (x : Span) : Span := { x with entry := x.entry.map h }
  (family s core berth root).foldl
    (fun s k => modF s { core, berth, fib := k } fun f => { f with
      splits := f.splits.map g, halves := f.halves.map h, span := sp f.span
      elders := f.elders.filter fun e => e.fib != c
      dual := f.dual.map fun (d : Dual) => ({ d with unc := d.unc.map fun (u : Uncompared) => ({ u with span := sp u.span } : Uncompared) } : Dual) }) s

/-! ### Entries of a piece (R162) -/

/-- A lane number of a hold entry that stands for the fibre and for no lane: a scalar operation's. -/
def scalarLane : Nat := 32

/-- A hold entry restricted to lanes; an entry of the fibre as a whole stays with the piece that `keeps` it. -/
def cutHold (m : Mask) (keeps : Bool) (l : List HoldEnt) : List HoldEnt :=
  l.filterMap fun e =>
    if e.lanes.isEmpty || e.lanes.all (fun x => x.lane == scalarLane) then (if keeps then some e else none)
    else
      let ls := e.lanes.filter fun x => m.getLsbD x.lane
      if ls.isEmpty then none else some { e with lanes := ls, mask := e.mask &&& m }

/-- Undo entries restricted to lanes; scalar registers belong to the context. -/
def cutUndo (m : Mask) (p : Place) (l : List UndoEnt) : List UndoEnt :=
  l.filterMap fun e =>
    match e.ref with
    | .vec _ => if e.mask &&& m = 0 then none else some { e with mask := e.mask &&& m }
    | .sca _ n => some { e with ref := .sca (pkey p) n }
    | .fp4 _ => some { e with ref := .fp4 (pkey p) }

/-- A hold entry of a scalar operation. -/
def isScalarEnt (e : HoldEnt) : Bool := !e.lanes.isEmpty && e.lanes.all fun x => x.lane == scalarLane

/-- The scalar held stores that a fragment sees in the piece it leaves (R162, R182; log entry 22, DEDUCED): those which that piece
sees in others, and those of its own open span. -/
def eldersOf (p : Place) (f : Fibre) (minor : Mask) : List Elder :=
  let before (n : Nat) : Nat := (cutHold minor false (f.span.hold.take n)).length
  let mine := f.span.hold.zipIdx.filter fun e => isScalarEnt e.1
  (f.elders.map fun e => if e.no = f.spanNo then { e with pos := before e.pos } else e) ++
    mine.zipIdx.map fun e => { fib := p.fib, no := f.spanNo, idx := e.2, pos := before e.1.2 }

/-- The held store that an `Elder` names, while the piece holds it. -/
def elderEnt (s : State) (p : Place) (f : Fibre) (e : Elder) : Option HoldEnt :=
  match getF s { p with fib := e.fib } with
  | none => none
  | some g =>
    if g.root ≠ f.root then none
    else if g.spanNo = e.no then
      let l := g.span.hold.filter isScalarEnt
      -- while the piece commits, those released are in memory
      if g.committing ∧ e.idx + (g.relq.filter isScalarEnt).length < l.length then none else l[e.idx]?
    else
      (g.dual.bind fun (d : Dual) => d.unc.find? fun u => u.no == e.no).bind fun u => (u.span.hold.filter isScalarEnt)[e.idx]?

/-- A piece's part of a span: its lanes of every entry, the new split in what a rollback restores. -/
def cutSpan (m : Mask) (keeps : Bool) (p : Place) (sp : Split) (x : Span) : Span :=
  { x with
    hold := cutHold m keeps x.hold
    undo := cutUndo m p x.undo
    blk := if keeps then x.blk else []
    entry := x.entry.map fun h => { h with mask := h.mask &&& m, splits := sp :: h.splits } }

/-! ### A divergent branch (R158, R159, R163) -/

def popMask (m : Mask) : Nat := (lanesIn m).length

/-- The context a fragment takes: first F to 7, then below F. -/
def fragCtx (s : State) (p : Place) (f : Fibre) : Option Nat :=
  let n := descFibres (descOf s f)
  ((List.range 8).filter (fun c => n ≤ c) ++ (List.range 8).filter fun c => c < n).find? fun c => freeCtx s p.core p.berth c

/-- The scalars of a context are copied to another with their full and empty bits. -/
def copyFull (s : State) (p q : Place) : State :=
  let of (k : Nat) (r : RegRef) : Bool := match r with
    | .sca j _ => j == k
    | _ => false
  let moved (r : RegRef) : RegRef := match r with
    | .sca _ n => .sca (pkey q) n
    | r => r
  { s with emptied := (s.emptied.filter fun r => !of (pkey q) r) ++ (s.emptied.filter (of (pkey p))).map moved }

/-- Divide: the lanes `tk` go to `tgt`, the others to `fall`. The minority detaches, or is deferred in place. -/
def divide (s : State) (p : Place) (tk : Mask) (tgt fall : DWord) (tok : BitVec 5) : State :=
  match getF s p with
  | none => s
  | some f =>
    let nt := f.amask &&& ~~~tk
    let takenMinor : Bool := popMask tk ≤ popMask nt
    let minor : Mask := if takenMinor then tk else nt
    let major : Mask := if takenMinor then nt else tk
    let mpc := if takenMinor then tgt else fall
    let jpc := if takenMinor then fall else tgt
    let id := s.nextId
    let s := { s with nextId := id + 1 }
    let sp : Split := { id, tok, lanes := f.amask, parent := p.fib, committed := false }
    match if f.pilot.on then none else fragCtx s p f with
    | some c =>
      let q : Place := { p with fib := c }
      let sp' : Split := sp
      let d := f.dual.map fun (d : Dual) => ({ d with fib := c, unc := [], loads := [], cleared := [], results := [], pil := [], mism := 0 } : Dual)
      let frag : Fibre := { f with
        pc := mpc, amask := minor, splits := sp' :: f.splits, halves := [], halfCount := 0, elders := eldersOf p f minor
        -- what a redundant pair still releases stays with the parent
        relq := [], relWait := false
        span := { cutSpan minor false q sp f.span with count := f.span.count + 1 }, fetched := none, emptyAt := false, xlat := [], op := none, wait := .none, stop := false, events := []
        oc := [0, 0, 0, 0], issued := [0, 0, 0, 0], fails := [], readySince := cycOf s p.core, spin := (0, 0, 0), dual := d }
      -- the lanes of deferred halves stay with the parent
      let keep := major ||| f.halves.foldl (fun m h => m ||| h.mask) 0
      let par : Fibre := { f with
        pc := jpc, amask := major, splits := sp :: f.splits, fetched := none, emptyAt := false, xlat := []
        span := cutSpan keep true p sp f.span }
      let b := getB s p.core p.berth
      setB (setF (setF (copyFull s p q) p par) q frag) p.core p.berth { b with exits := tdel b.exits c }
    | none =>
      let h : Half := { mask := minor, pc := mpc, splits := sp :: f.splits, wait := .none }
      setF s p { f with pc := jpc, amask := major, splits := sp :: f.splits, halves := f.halves ++ [h], halfCount := 0, fetched := none, emptyAt := false, xlat := [] }

/-! ### Joins (R161, R162) -/

def waitsAt (id : Nat) (jpc : DWord) (w : Wait) : Bool :=
  match w with
  | .join i a => i == id && a == jpc
  | _ => false

/-- Lanes of a context that wait at a join. -/
def joinMask (f : Fibre) (id : Nat) (jpc : DWord) : Mask :=
  (curHalf f :: f.halves).foldl (fun m h => if waitsAt id jpc h.wait then m ||| h.mask else m) 0

/-- Contexts with lanes at a join. A piece that is frozen or whose span has faulted has not arrived (R162, R185). -/
def arrivals (s : State) (p : Place) (root id : Nat) (jpc : DWord) : List (Place × Mask) :=
  (famPlaces s p root).filterMap fun q =>
    match getF s q with
    | some f => if joinMask f id jpc = 0 ∨ f.froz ≠ .no ∨ f.span.faulted.isSome = true then none else some (q, joinMask f id jpc)
    | none => none

def splitIn (f : Fibre) (id : Nat) : Option Split :=
  (f.splits ++ f.halves.flatMap Half.splits).find? fun x => x.id == id

/-- Every lane of the split that has not exited is at this join; `gone`: lanes that are about to exit. -/
def joinFull (s : State) (p : Place) (root id : Nat) (jpc : DWord) (gone : Mask) : Bool :=
  let a := arrivals s p root id jpc
  match a with
  | [] => false
  | (q, _) :: _ =>
    match (getF s q).bind fun f => splitIn f id with
    | none => false
    | some sp => (sp.lanes &&& famLive s p root &&& ~~~gone) == a.foldl (fun m e => m ||| e.2) 0 &&
      (a.length ≤ 1 || a.all fun e => settled s e.1)
where
  /-- in a redundant pair pieces merge once what they have run is compared and released (R201, R418) -/
  settled (s : State) (q : Place) : Bool := (getF s q).all fun f => f.dual.all fun (d : Dual) => d.unc.isEmpty && f.relq.isEmpty

/-- An arriving piece has passed a commit point since the split. -/
def joinApart (s : State) (a : List (Place × Mask)) (id : Nat) : Bool :=
  a.any fun e => ((getF s e.1).bind fun f => splitIn f id).any fun x => x.committed

/-- The piece that keeps its context at a merge: the parent at the split, else the lowest arrival (R161). -/
def joinKeep (s : State) (a : List (Place × Mask)) (id : Nat) : Option Place :=
  match a with
  | [] => none
  | (q0, _) :: _ =>
    let lowest := (a.foldl (fun (b : Place) e => if e.1.fib < b.fib then e.1 else b) q0)
    some (match (getF s q0).bind fun f => splitIn f id with
      | some x => if a.any fun e => e.1.fib == x.parent then { q0 with fib := x.parent } else lowest
      | none => lowest)

/-- The union of the arrivals' entries exceeds the hold or the undo log: of the pieces that give up their contexts the scalar
registers go with them. -/
def joinOver (s : State) (a : List (Place × Mask)) (id : Nat) : Bool :=
  let keep := joinKeep s a id
  let stays (q : Place) (u : UndoEnt) : Bool := some q == keep || (match u.ref with
    | .vec _ => true
    | _ => false)
  let fs := a.filterMap fun e => (getF s e.1).map fun f => (e.1, f)
  let hs := fs.foldl (fun n f => n + f.2.span.hold.length) 0
  let refs := (fs.flatMap fun f => (f.2.span.undo.filter (stays f.1)).map UndoEnt.ref).dedup
  48 < hs || 64 < refs.length

/-- The pieces must commit their spans before they merge. -/
def joinCommits (s : State) (a : List (Place × Mask)) (id : Nat) : Bool :=
  2 ≤ a.length && (joinApart s a id || joinOver s a id)

/-- Commit the open span of a piece that stands still; true when it is done. -/
def commitPiece (s : State) (q : Place) : Bool × State :=
  match getF s q with
  | none => (true, s)
  | some f => if spanClean f && !f.committing then (true, s) else commitStep s q false

def commitPieces (s : State) (qs : List Place) : Bool × State :=
  qs.foldl (fun r q => let x := commitPiece r.2 q; (r.1 && x.1, x.2)) (true, s)

/-- Merge undo entries of the same register, lane by lane: what a piece recorded for its own lanes. -/
def mergeUndo (p : Place) (a b : List UndoEnt) : List UndoEnt :=
  b.foldl
    (fun l e =>
      match e.ref with
      | .vec _ =>
        (match l.find? fun x => x.ref == e.ref with
         | some x =>
           let x' : UndoEnt := { x with oldV := mixLanes x.mask x.oldV e.oldV, mask := x.mask ||| e.mask }
           swapFirst (fun y : UndoEnt => y.ref == e.ref) x' l
         | none => l ++ [e])
      -- scalar registers of a context that ends go with it
      | .sca k _ => if k = pkey p then l ++ [e] else l
      | .fp4 k => if k = pkey p then l ++ [e] else l) a

/-- Take the halves that wait at a join out of a fibre. -/
def takeJoined (f : Fibre) (id : Nat) (jpc : DWord) : List Half :=
  (curHalf f :: f.halves).filter fun h => !waitsAt id jpc h.wait

/-- Union of the entry halves of two parts of one span, position by position. -/
def mergeEntry : List Half → List Half → List Half
  | [], b => b
  | a, [] => a
  | x :: a, y :: b => { x with mask := x.mask ||| y.mask } :: mergeEntry a b

/-- Entry halves of the kept piece when pieces merge that have committed: the lanes that come in stand at the join, and where
nothing of the join is left to do they are already past it (`m`). -/
def joinEntry (l : List Half) (id : Nat) (jpc : DWord) (come : Half) (m : Half) : List Half :=
  let e := l ++ [come]
  let at0 := e.foldl (fun (x : Mask) h => if waitsAt id jpc h.wait then x ||| h.mask else x) 0
  if at0 = m.mask then e.filter (fun h => !waitsAt id jpc h.wait) ++ [m] else e

/-- Merge what waits at a join (R161): the piece that was the parent at the split keeps its context, else the lowest arrival. Where
the spec is silent the merged half stands last among the deferred ones, and the merged span has counted as many instructions as
the largest of its parts (log entry 44, DESIGN CHOICE). -/
def mergeJoin (s : State) (p : Place) (root id : Nat) (jpc : DWord) : State :=
  let a := arrivals s p root id jpc
  match a with
  | [] => s
  | (q0, _) :: _ =>
    let kp := (joinKeep s a id).getD q0
    let keep := (a.find? fun (e : Place × Mask) => e.1 == kp).getD (q0, 0)
    match getF s keep.1 with
    | none => s
    | some f =>
      let mask := a.foldl (fun m e => m ||| e.2) 0
      let cur := (curHalf f :: f.halves).find? fun h => waitsAt id jpc h.wait
      let splits := ((cur.getD (curHalf f)).splits).filter fun x => x.id != id
      let others := a.filter fun e => e.1 != keep.1
      -- the entries of the other contexts' lanes
      let holds := others.flatMap fun (e : Place × Mask) => match getF s e.1 with
        | some g => cutHold e.2 (takeJoined g id jpc).isEmpty g.span.hold
        | none => []
      let undo := others.foldl (fun (l : List UndoEnt) (e : Place × Mask) => match getF s e.1 with
        | some g => mergeUndo keep.1 l ((g.span.undo.filterMap fun u =>
            if u.mask &&& e.2 = 0 then none else some { u with mask := u.mask &&& e.2 }))
        | none => l) f.span.undo
      let count := others.foldl (fun (n : Nat) (e : Place × Mask) => match getF s e.1 with
        | some g => max n g.span.count
        | none => n) f.span.count
      let apart : Bool := 2 ≤ a.length && joinApart s a id
      let m : Half := { mask, pc := jpc + 12, splits, wait := .none }
      let come : Half :=
        { mask := others.foldl (fun (x : Mask) e => x ||| e.2) 0, pc := jpc, splits := (cur.getD (curHalf f)).splits, wait := .join id jpc }
      let union := others.foldl (fun (l : List Half) (e : Place × Mask) => match getF s e.1 with
        | some g => mergeEntry l (g.span.entry.map fun h => { h with mask := h.mask &&& e.2 })
        | none => l) f.span.entry
      let entry := if apart then joinEntry f.span.entry id jpc come m
        else union.map fun (h : Half) => ({ h with splits := h.splits.filter fun x => x.id != id } : Half)
      let blk := f.span.blk ++ others.flatMap fun (e : Place × Mask) => ((getF s e.1).map fun g => g.span.blk).getD []
      let span : Span := { f.span with hold := f.span.hold ++ holds, undo, count, entry, blk }
      -- leave the other contexts
      let s := others.foldl
        (fun s e => match getF s e.1 with
          | none => s
          | some g =>
            match takeJoined g id jpc with
            | [] =>
              let s := goneParent (orphan { s with fibres := tdel s.fibres (pkey e.1) } e.1) e.1.core e.1.berth root e.1.fib
              -- the context has held a fibre: its `join` stands for an `exit` (R425; log entry 18)
              let b := getB s e.1.core e.1.berth
              setB s e.1.core e.1.berth { b with exits := tput b.exits e.1.fib jpc }
            | h :: hs =>
              setF s e.1 { g with
                amask := h.mask, pc := h.pc, splits := h.splits, wait := h.wait, halves := hs, fetched := none, emptyAt := false, xlat := []
                span := { g.span with
                  hold := cutHold (~~~e.2) true g.span.hold
                  undo := cutUndo (~~~e.2) e.1 g.span.undo
                  entry := g.span.entry.map fun h => { h with mask := h.mask &&& ~~~e.2 } } }) s
      let gone (x : Split) : Split :=
        if (a.any fun e => e.1 != keep.1 && e.1.fib == x.parent) && (family s p.core p.berth root).all (fun c => c != x.parent) then { x with parent := 8 } else x
      let goneH (x : Half) : Half := { x with splits := x.splits.map gone }
      let rest := (takeJoined f id jpc).map goneH
      let m := goneH m
      let running := waitsAt id jpc f.wait
      let span := { span with entry := span.entry.map goneH }
      let f := { f with
        elders := f.elders.filter fun e => (family s p.core p.berth root).contains e.fib
        span, fetched := none, emptyAt := false, xlat := [], readySince := cycOf s keep.1.core }
      let f := if running then
          { f with amask := m.mask, pc := m.pc, splits := m.splits, wait := m.wait, halves := rest, halfCount := 0 }
        else
          let h := rest.headD (curHalf f)
          let f := { f with amask := h.mask, pc := h.pc, splits := h.splits, wait := h.wait, halves := rest.drop 1 ++ [m] }
          if f.wait != .none then rotate f else f
      -- a clean span starts where the merged fibre goes on
      let f := if spanClean f then { f with span := newSpan f } else f
      setF s keep.1 f

/-- Joins of a family, by split and address. -/
def openJoins (s : State) (p : Place) (root : Nat) : List (Nat × DWord) :=
  ((famPlaces s p root).flatMap fun q => match getF s q with
    | some f => (waitsOf f).filterMap fun w => match w with
      | .join i a => some (i, a)
      | _ => none
    | none => []).dedup

/-- Merge every join of the family that is full. -/
def mergeAll (s : State) (p : Place) (root : Nat) : State :=
  (openJoins s p root).foldl (fun s e => if joinFull s p root e.1 e.2 0 then mergeJoin s p root e.1 e.2 else s) s

/-- Merge every join of the family that is full, where pieces must commit first once they have (R162). -/
def joinStep (s : State) (p : Place) (root : Nat) : State :=
  (openJoins s p root).foldl
    (fun s e =>
      let a := arrivals s p root e.1 e.2
      if !joinFull s p root e.1 e.2 0 then s
      else if joinCommits s a e.1 && !a.all (fun q => (getF s q.1).all spanClean) then (commitPieces s (a.map Prod.fst)).2
      else mergeJoin s p root e.1 e.2) s

/-! ### Shared blocks (R157, R173) -/

/-- A family that ends releases its shared blocks. -/
def releaseBlocks (s : State) (core berth root : Nat) : State :=
  (List.range 16).foldl
    (fun s k =>
      let b := getB s core berth
      if b.holder.getD k 8 = root then grantBlock (setB s core berth { b with holder := b.holder.set k 8 }) core berth k else s) s

/-! ### Fibre barriers (R171) -/

/-- A piece waits at this `fbar`. -/
def atFbar (m : BitVec 8) (pc : DWord) (w : Wait) : Bool := w == .fbar m pc
/-- A piece waits at an `fbar` of this mask. -/
def atMask (m : BitVec 8) (w : Wait) : Bool := match w with
  | .fbar n _ => n == m
  | _ => false

/-- Every live piece and half of the family has executed this `fbar`. -/
def famAt (s : State) (p : Place) (root : Nat) (t : Wait → Bool) : Bool :=
  (famPlaces s p root).all fun q => match getF s q with
    | some f => (waitsOf f).all t
    | none => true

/-- Complete every fibre barrier of a berth whose contexts have all arrived, or are free. -/
def fbarCheck (s : State) (core berth : Nat) : State :=
  (getB s core berth).fbars.foldl
    (fun s e =>
      let m := e.1
      let ok := (List.range 8).all fun c => !m.getLsbD c || e.2.contains c || (family s core berth c).isEmpty
      if ok then
        let b := getB s core berth
        let s := setB s core berth { b with fbars := b.fbars.filter fun x => x.1 != m }
        -- a barrier with generations completes (R266, R379)
        let s := match e.2.findSome? fun r => (famPlaces s { core, berth, fib := 0 } r).findSome? (getF s) with
          | some f => pulse s (cidOf s f)
          | none => s
        e.2.foldl (fun s r => (famPlaces s { core, berth, fib := 0 } r).foldl (fun s q => wakeWait s q (atMask m)) s) s
      else s) s

/-- Record a family's arrival. -/
def fbarArrive (s : State) (p : Place) (root : Nat) (m : BitVec 8) : State :=
  let b := getB s p.core p.berth
  let fbars := match b.fbars.find? fun e => e.1 == m with
    | some e => swapFirst (fun x : BitVec 8 × List Nat => x.1 == m) (m, if e.2.contains root then e.2 else e.2 ++ [root]) b.fbars
    | none => b.fbars ++ [(m, [root])]
  fbarCheck (setB s p.core p.berth { b with fbars }) p.core p.berth

/-! ### Group barriers (R294 to R297, R308) -/

def noBar : GBar := { gen := 0, expect := none, arrived := [], folds := [] }
def barOf (g : Group) (b : Nat) : GBar := g.bars.getD b noBar
def putBar (g : Group) (b : Nat) (x : GBar) : Group := { g with bars := (g.bars ++ List.replicate (16 - g.bars.length) noBar).set b x }
def rootNo (berth root : Nat) : Nat := berth * 8 + root

/-- Contexts of the group whose fibres have not exited, by berth × 8 + root. -/
def groupRoots (s : State) (gid : Nat) : List Nat :=
  ((s.fibres.filter fun e => e.2.grp == gid).map fun e => rootNo (placeOf e.1).berth e.2.root).dedup

def crc64 (crc : Nat) (bytes : List Byte) : Nat :=
  bytes.foldl
    (fun c b => (List.range 8).foldl (fun c _ => if c / 2 ^ 63 = 1 then c * 2 % 2 ^ 64 ^^^ 0x42F0E1EBA9EA3693 else c * 2)
      (c ^^^ b.toNat * 2 ^ 56)) crc

/-- The fold of R217. -/
def foldRegs (s : State) (f : Fibre) (p : Place) (seed : Nat) : Nat :=
  let c := (List.range 63).foldl (fun c i => crc64 c (bytesOf 8 (sget f (i + 1)).toNat)) seed
  ((List.range 16).filter fun k => holds s f p k).foldl
    (fun c k => (List.range 16).foldl
      (fun c r =>
        let l := vget s (vkey (descOf s f) p.core p.berth f.root (16 * k + r))
        (lanesIn f.amask).foldl (fun c i => crc64 c (bytesOf 4 (laneOf l i).toNat)) c) c) c

/-- Registers that the fold reads. -/
def foldRefs (s : State) (f : Fibre) (p : Place) : List RegRef :=
  ((List.range 63).map fun i => .sca (pkey p) (i + 1)) ++
    ((List.range 16).filter fun k => holds s f p k).flatMap fun k =>
      (List.range 16).map fun r => .vec (vkey (descOf s f) p.core p.berth f.root (16 * k + r))

/-- A generation is complete (R295): the expected count is reached, or every live fibre of the group has arrived. -/
def barDone (s : State) (gid : Nat) (x : GBar) : Bool :=
  match x.expect with
  | none => false
  | some 0 => !x.arrived.isEmpty && (groupRoots s gid).all fun r => x.arrived.contains r
  | some n => n ≤ x.arrived.length

/-- Places of the group's fibres. -/
def groupPlaces (s : State) (gid : Nat) : List Place := (s.fibres.filter fun e => e.2.grp == gid).map fun e => placeOf e.1

/-- Complete a generation (R296): log its checksum (R308), then let the waiting fibres go. -/
def barComplete (s : State) (gid b : Nat) : State :=
  match getG s gid with
  | none => s
  | some g =>
    let x := barOf g b
    if barDone s gid x then
      let cid := ((getI s g.inst).map Inst.cid).getD 0
      let s := if ctxFlag s cid 115 then
          let crc := (x.folds.mergeSort fun u v => u.1 ≤ v.1).foldl (fun c e => crc64 c (bytesOf 8 e.2.toNat)) (b * 2 ^ 32 + x.gen)
          trace s g.core cid (mkRec { time := s.time, addr := g.index, data := crc, inst := g.inst, aux := x.gen, type := 0x14, cls := b })
        else s
      let gen := (x.gen + 1) % 2 ^ 32
      let x' : GBar := { gen, expect := none, arrived := [], folds := [] }
      let s := modG (pulse s cid) gid fun g => putBar g b x'
      (groupPlaces s gid).foldl
        (fun s q => wakeWait s q fun w => match w with
          | .bar c gn => c == b && gn == x.gen
          | .barAgain c => c == b
          | .barWt c t => c == b && t != gen
          | _ => false) s
    else s

/-- A piece waits in the barrier instruction at `pc`. -/
def atBarJoin (b : Nat) (pc : DWord) (w : Wait) : Bool :=
  match w with
  | .barJoin c _ _ a => c == b && a == pc
  | _ => false

/-- Registers that the waiting `bar.arr` of a context name. -/
def barDsts (f : Fibre) : List Opnd :=
  (waitsOf f).filterMap fun w => match w with
    | .barJoin _ _ d _ => d
    | _ => none

/-- A group that is being stopped looks whether it can be saved (R283, R284). -/
def noteStop (s : State) (gid : Nat) : State :=
  match (getG s gid).map Group.st with
  | some .draining | some .saving | some .flushing =>
    if s.agenda.contains (.groupSaveWrite gid) then s else due s (.groupSaveWrite gid)
  | _ => s

/-- A fibre waits, whole, in `bar` at this generation. -/
def atGen (w : Wait) : Option (Nat × Nat) := match w with
  | .bar b g => some (b, g)
  | _ => none
/-- Every live fibre waits at one generation of one group barrier (R283, R307). -/
def allAtBar (s : State) (gid : Nat) : Bool :=
  match ((groupPlaces s gid).filterMap (getF s)).flatMap waitsOf with
  | [] => true
  | w :: ws => (atGen w).isSome && ws.all fun v => atGen v == atGen w

/-- A group that drains stands at one barrier with every live fibre: it is saved there, before the generation completes (R283,
R307). -/
def drainEnds (s : State) (gid : Nat) : Bool := (getG s gid).any fun g => g.st == .draining && allAtBar s gid

/-- The arrival of a whole family at the barrier instruction at `pc` (R295): recorded with its fold, the generation given to
`bar.arr`, the generation then completed where it is full. `f`: the piece that was last. -/
def barArrive (s : State) (p : Place) (f : Fibre) (b n : Nat) (pc : DWord) : State :=
  match getG s f.grp with
  | none => s
  | some g =>
    let x := barOf g b
    let r := rootNo p.berth f.root
    let folds := if ctxFlag s (cidOf s f) 115 then x.folds ++ [(r, BitVec.ofNat 64 (foldRegs s f p 0))] else x.folds
    let x' : GBar := { x with expect := some (x.expect.getD n), arrived := x.arrived ++ [r], folds }
    let s := (famPlaces s p f.root).foldl
      (fun s q => match getF s q with
        | none => s
        | some h =>
          let s := (barDsts h).foldl (fun s d => writeReg s q d 2 [(0, x.gen)] false) s
          let s := mapWait s q fun w => match w with
            | .barJoin c _ none a => if c = b ∧ a = pc then .bar b x.gen else w
            | _ => w
          wakeWait s q (atBarJoin b pc)) s
    let s := modG s f.grp fun g => putBar g b x'
    noteStop (if drainEnds s f.grp then s else barComplete s f.grp b) f.grp

/-- What is left of a family may have arrived at a barrier together, once a piece has ended. -/
def familyArrives (s : State) (p : Place) (root : Nat) : State :=
  match (famPlaces s p root).filterMap fun q => (getF s q).map fun f => (q, f) with
  | [] => s
  | (q, f) :: _ =>
    match f.wait with
    | .fbar m pc => if m.getLsbD root && famAt s p root (atFbar m pc) then fbarArrive s p root m else s
    | .barJoin b n _ pc => if famAt s p root (atBarJoin b pc) then barArrive s q f b n pc else s
    | _ => s

/-- Barriers that an exit or an end may complete; a group that drains is saved first where it stands at one (R283). -/
def barsCheck (s : State) (gid : Nat) : State :=
  if drainEnds s gid then s else (List.range 16).foldl (fun s b => barComplete s gid b) s

/-! ### The end of a piece (R147, R161, R169) -/

/-- A placed group with no fibres left and no commands outstanding retires (R276); one that is being stopped may be saved. -/
def groupEnd (s : State) (gid : Nat) : State :=
  if (groupPlaces s gid).isEmpty && (getG s gid).any (fun g => g.st == .placed || g.st == .retired) then due s (.groupRetire gid)
  else noteStop s gid

/-- After lanes have gone: joins, blocks, barriers and the group look again. -/
def afterEnd (s : State) (p : Place) (root gid : Nat) : State :=
  let s := familyArrives (mergeAll s p root) p root
  let s := if (family s p.core p.berth root).isEmpty then releaseBlocks s p.core p.berth root else s
  groupEnd (barsCheck (fbarCheck s p.core p.berth) gid) gid

/-- The fibre context of a piece becomes free. -/
def endPiece (s : State) (p : Place) (f : Fibre) (pc : DWord) : State :=
  let s := noteIssue s p pc
  let s := goneParent (orphan { s with fibres := tdel s.fibres (pkey p) } p) p.core p.berth f.root p.fib
  let b := getB s p.core p.berth
  let s := setB s p.core p.berth { b with exits := tput b.exits p.fib pc }
  passBerth (afterEnd s p f.root f.grp) p.core p.berth

/-! ### The start of a fibre (R146, R172) -/

/-- Zero the vector registers of a private block, which are then full. -/
def zeroBlock (s : State) (d : BitVec 1024) (core berth root k : Nat) : State :=
  let key (r : Nat) : Nat := vkey d core berth root (16 * k + r)
  { s with
    vregs := (List.range 16).foldl (fun (t : Tab Lanes) (r : Nat) => tset zeroLanes t (key r) zeroLanes) s.vregs
    emptied := s.emptied.filter fun x => !((List.range 16).map fun r => RegRef.vec (key r)).contains x }

/-- The registers of a context in which a fibre starts: its private blocks are zero, and all are full (R146). -/
def zeroPrivate (s : State) (d : BitVec 1024) (core berth root : Nat) : State :=
  let k := pkey { core, berth, fib := root }
  let s := { s with emptied := s.emptied.filter fun x => match x with
    | .sca j _ => j != k
    | _ => true }
  (List.range 16).foldl (fun s k => if descKind d k = 1 then zeroBlock s d core berth root k else s) s

/-- A fibre at its start. -/
def startFibre (s : State) (gid : Nat) (param : DWord) (core fib : Nat) (pc : DWord) (mask : Mask) : Fibre :=
  let sp : Span := { start := pc, count := 0, limit := 4096, nextLimit := 4096, rgn := 0, entry := [], hold := [], undo := [],
                     faulted := none, forced0 := none, brk := none, load0 := 0, hnd0 := none, s6x := [], blk := [] }
  let f : Fibre :=
    { grp := gid, root := fib, pc, amask := mask, splits := [], halves := [], halfCount := 0, scal := tset 0 [] 1 param, fp4x := 0x8000,
      regions := [], span := sp, spanNo := 1, emptyAt := false, stop := false, committing := false, relq := [], relWait := false,
      pilot := { on := false, forced := none, cls := 0, met := false }, hnd := none, fetched := none, xlat := [], op := none,
      wait := .none, froz := .no, dbg := { halted := false, want := 0, step := false, fault := none }, events := [],
      oc := [0, 0, 0, 0], issued := [0, 0, 0, 0], fails := [], mstat := { word := 0, addr := 0, fail := 0, steps := 0 },
      readySince := cycOf s core, spin := (0, 0, 0), scf := false, dual := none, elders := [], probed := 0 }
  { f with span := newSpan f }

end Sys2Proof.Machine
end

