-- ==== Sys2Proof/Machine/ExecFibre.lean ====
section
/-! DEFINITION. The meanings of row 0x0_: branches, joins, ends, starts and waits of fibres (R165 to R174). -/
namespace Sys2Proof.Machine

/-- A guarded scalar operation is suppressed (R42). -/
def suppressed (s : State) (f : Fibre) (h : Hdr) : Bool := (passLanes s f s.here h.guard).isEmpty

/-- The lowest active lane, which stands for a scalar operation in a fault record. -/
def lowLane (f : Fibre) : Nat := (lanesIn f.amask).headD 0

/-- Class of a target that breaks R60, or 0. -/
def targetCls (t : DWord) : Nat := if t.toNat % 4 ≠ 0 then 6 else if t.toNat / 2 ^ 60 ≠ 0 then 4 else 0

/-- A target that breaks R60: a span fault at the branch. -/
def targetFault (s : State) (f : Fibre) (t : DWord) : State :=
  faultAt s s.here false { faultInfo f none with cls := targetCls t, addrs := [(lowLane f, t.toNat)] }

/-- Go to a target, after `before` has taken effect (R60, R166). -/
def branchTo (s : State) (f : Fibre) (t : DWord) (before : State → State) : State :=
  if targetCls t ≠ 0 then targetFault s f t else goTo (before s) s.here t

/-- The condition of `br` and `brc` (R166, R167). -/
def zTest (c : Cond) (v : Nat) : Bool := if c = .z then v == 0 else v != 0

/-- PC + sign-extend(imm). -/
def relTarget (f : Fibre) (off : Word) : DWord := f.pc + off.signExtend 64

/-- The target of `jmp` and `spawn`: an offset or a register. -/
def srcTarget (s : State) (f : Fibre) (t : Src) : DWord :=
  match t with
  | .imm i => relTarget f i
  | .reg o => BitVec.ofNat 64 (opVal s f s.here o 2 0)

/-- `nop` (R166). -/
def execNop (h : Hdr) (s : State) : Out := run (.nop h) s fun s _ => next s s.here

/-- `br` (R166). -/
def execBr (h : Hdr) (c : Cond) (a : Opnd) (off : Word) (s : State) : Out :=
  run (.br h c a off) s fun s f =>
    if !suppressed s f h && zTest c (opVal s f s.here a 2 0) then branchTo s f (relTarget f off) id else next s s.here

/-- Lanes that take a `brc` (R167). -/
def brcTaken (s : State) (f : Fibre) (h : Hdr) (c : Cond) (a : Opnd) : Mask :=
  maskOf ((passLanes s f s.here h.guard).filter fun l => zTest c (opVal s f s.here a 1 l % 2 ^ 32))

/-- `brc` (R158, R159, R163, R167). A fibre that splits waits for its scalar results in flight first: the spec does not say which
piece they would belong to (log entry 46, DESIGN CHOICE). -/
def execBrc (h : Hdr) (c : Cond) (a : Opnd) (off : BitVec 27) (tok : BitVec 5) (s : State) : Out :=
  run (.brc h c a off tok) s fun s f =>
    let t := brcTaken s f h c a
    let tgt : DWord := f.pc + (off ++ (0 : BitVec 2)).signExtend 64
    if t = 0 then next s s.here
    else if targetCls tgt ≠ 0 then targetFault s f tgt
    else if f.amask &&& ~~~t = 0 then goTo s s.here tgt
    else if 64 ≤ f.splits.length then
      faultAt s s.here false { faultInfo f none with cls := 0x0C, code := 0xFFF2, retry := false }
    else if s.pends.any (fun q => ofPiece s.here f q && q.scalar) then stall s s.here h
    else
      let d := divide s s.here t tgt (f.pc + 12) tok
      match getF d s.here with
      | some g =>
        -- the half that begins to run has issued nothing; it has taken a backward branch where its pc lies behind (R163)
        let r := retireAt d s.here f.pc g.pc false (rot := g.pc.toNat ≤ f.pc.toNat)
        if g.halves.length = f.halves.length then r else modF r s.here fun g => { g with halfCount := 0 }
      | none => d

/-- `jmp` (R166). -/
def execJmp (h : Hdr) (t : Src) (s : State) : Out :=
  run (.jmp h t) s fun s f => if suppressed s f h then next s s.here else branchTo s f (srcTarget s f t) id

/-- The return address goes to `s63` (R53, R166). -/
def linkTo (f : Fibre) (s : State) : State := writeReg s s.here (.s 63) 2 [(0, (f.pc + 12).toNat)] true

/-- `call` (R166). -/
def execCall (h : Hdr) (off : Word) (s : State) : Out :=
  run (.call h off) s fun s f => if suppressed s f h then next s s.here else branchTo s f (relTarget f off) (linkTo f)

/-- `calli` (R166): the target is read before `s63` is written. -/
def execCalli (h : Hdr) (a : Opnd) (s : State) : Out :=
  run (.calli h a) s fun s f => if suppressed s f h then next s s.here else branchTo s f (srcTarget s f (.reg a)) (linkTo f)

/-- `ret` (R166). -/
def execRet (h : Hdr) (a : Opnd) (s : State) : Out :=
  run (.ret h a) s fun s f => if suppressed s f h then next s s.here else branchTo s f (srcTarget s f (.reg a)) id

/-- The other pieces of a family that a split has gone to. -/
def joinMates (s : State) (p : Place) (root id : Nat) : List Place :=
  (famPlaces s p root).filter fun q => q != p && ((getF s q).bind fun g => splitIn g id).isSome

/-- `join` (R161, R162, R168). A piece that finds a commit point between the split and the join, in itself or in another piece,
commits its span as it arrives; the others that wait commit theirs before the merge. -/
def execJoin (h : Hdr) (tok : BitVec 5) (s : State) : Out :=
  run (.join h tok) s fun s f =>
    let p := s.here
    match f.splits.find? fun x => x.tok == tok with
    | none => next s p
    | some sp =>
      let mates := joinMates s p f.root sp.id
      -- the state with this piece at the join
      let w (s : State) : State := setWait s p (.join sp.id f.pc)
      let s1 := w s
      let a := arrivals s1 p f.root sp.id f.pc
      let full := joinFull s1 p f.root sp.id f.pc 0
      let apart : Bool := !mates.isEmpty && joinApart s ((p :: mates).map fun q => (q, 0)) sp.id
      let commits : Bool := apart || (full && joinCommits s1 a sp.id)
      let others := (a.map Prod.fst).filter fun q => q != p
      if commits && !spanClean f then
        match commitThen s p (.join h tok) with
        | .held s => stallHeld f h s p
        | .go s => s
      else if full && commits && !others.all (fun q => ((getF s q).map spanClean).getD true) then
        stallHeld f h (commitPieces s others).2 p
      else
        let s := retireAt (w s) p f.pc (f.pc + 12) commits
        settle (if full then mergeJoin s p f.root sp.id f.pc else s) p

/-- Lanes that end leave the handler's frame, which goes with the last of them (R388). -/
def endFrame (h : Option Handling) (e : Mask) : Option Handling :=
  h.bind fun h => if h.amask &&& ~~~e = 0 then none else some { h with amask := h.amask &&& ~~~e }

/-- Take the running half out of a divided fibre. -/
def dropHalf (f : Fibre) : Fibre :=
  let k := (f.halves.findIdx? fun h => h.wait == .none).getD 0
  let h := f.halves.getD k (curHalf f)
  { f with amask := h.mask, pc := h.pc, splits := h.splits, wait := h.wait, halves := f.halves.drop (k + 1) ++ f.halves.take k,
           halfCount := 0, fetched := none, emptyAt := false, xlat := [] }

/-- Pieces that wait at joins which become full when lanes go, and must commit before they merge. -/
def exitCommits (s : State) (p : Place) (root : Nat) (gone : Mask) : List Place :=
  (openJoins s p root).flatMap fun e =>
    let a := arrivals s p root e.1 e.2
    if joinFull s p root e.1 e.2 gone && joinCommits s a e.1 then a.map Prod.fst else []

/-- `exit` (R147, R161, R169, R388). -/
def execExit (h : Hdr) (s : State) : Out :=
  run (.exit h) s fun s f =>
    let p := s.here
    let e := maskOf (passLanes s f p h.guard)
    if e = 0 then nextX s p
    else
      let c := commitPieces s (exitCommits s p f.root e)
      if !c.1 then stallHeld f h c.2 p
      else
        let s := c.2
        let left := f.amask &&& ~~~e
        if left ≠ 0 then afterEnd (nextX (setF s p { f with amask := left, hnd := endFrame f.hnd e }) p) p f.root f.grp
        else if f.halves.isEmpty then endPiece (pulse s (cidOf s f)) p f f.pc
        else
          let g := dropHalf { f with hnd := endFrame f.hnd e }
          let s := setF (noteIssue s p f.pc) p { g with span := newSpan g }
          settle (afterEnd s p f.root f.grp) p

/-- `yield` (R170). -/
def execYield (h : Hdr) (s : State) : Out :=
  run (.yield h) s fun s _ =>
    let t := next s s.here
    -- a step that has halted the fibre has passed the berth already
    if (getB t s.here.core s.here.berth).cur == s.here.fib then passBerth t s.here.core s.here.berth else t

/-- Copy the eight source registers of a `spawn` into `v0` to `v7` of the new fibre, in its lanes (R172). -/
def spawnRegs (s : State) (f : Fibre) (c : Nat) (blk : Opnd) : State :=
  let p := s.here
  let d := descOf s f
  match blk with
  | .v n =>
    { s with vregs := ((List.range 8).foldl
        (fun (t : Tab Lanes) (j : Nat) =>
          let src := vget s (vkey d p.core p.berth f.root (n.toNat + j))
          tset zeroLanes t (vkey d p.core p.berth c j) (mixLanes f.amask src zeroLanes)) s.vregs) }
  | _ => s

/-- `spawn` (R172). -/
def execSpawn (h : Hdr) (d : Opnd) (blk : Opnd) (t : Src) (s : State) : Out :=
  run (.spawn h d blk t) s fun s f =>
    let p := s.here
    let dsc := descOf s f
    match (List.range (descFibres dsc)).find? fun c => freeRoot s p.core p.berth c with
    | none => nextX (writeReg s p d 2 [(0, 2 ^ 64 - 1)] false) p
    | some c =>
      let pc := srcTarget s f t
      let q : Place := { p with fib := c }
      let s1 := spawnRegs (zeroPrivate s dsc p.core p.berth c) f c blk
      let g := startFibre s1 f.grp (BitVec.ofNat 64 (descParam dsc)) p.core c pc f.amask
      let g := { g with dual := f.dual.map fun (x : Dual) =>
        ({ x with fib := c, unc := [], loads := [], nload := 0, cleared := [], results := [], pil := [], mism := 0 } : Dual) }
      let b := getB s1 p.core p.berth
      let s1 := setB (setF s1 q g) p.core p.berth { b with exits := tdel b.exits c, ords := tdel b.ords c }
      nextX (writeReg s1 p d 2 [(0, c)] false) p

/-- `fbar` (R171). -/
def execFbar (h : Hdr) (m : BitVec 8) (s : State) : Out :=
  run (.fbar h m) s fun s f =>
    let p := s.here
    let s := nextX s p
    if !m.getLsbD f.root then s
    else
      let s := setWaitX s p (.fbar m f.pc)
      settle (if famAt s p f.root (atFbar m f.pc) then fbarArrive s p f.root m else s) p

/-- WINDOW of a `wgive` or `wclaim`: its address is the block's first register number (R160, R173); every older instruction has
taken its effect before it (R56). -/
def blockFault (s : State) (f : Fibre) (h : Hdr) (slot : BitVec 4) : State :=
  if hasPend s s.here then stall s s.here h else issueFault s s.here false 3 none [(lowLane f, 16 * slot.toNat)]

/-- The span notes that the block was given up or taken, for a rollback (R190). -/
def noteBlk (s : State) (p : Place) (slot : Nat) (took : Bool) : State :=
  modF s p fun f => { f with span := { f.span with blk := (slot, took) :: f.span.blk } }

/-- The fibre is one undivided piece and the slot is shared (R160, R173). -/
def blockOk (s : State) (f : Fibre) (slot : BitVec 4) : Bool :=
  descKind (descOf s f) slot.toNat == 2 && alone s s.here f && f.halves.isEmpty

/-- `wgive` (R157, R173). -/
def execWgive (h : Hdr) (slot : BitVec 4) (s : State) : Out :=
  run (.wgive h slot) s fun s f =>
    let p := s.here
    let b := getB s p.core p.berth
    if !blockOk s f slot || b.holder.getD slot.toNat 8 != f.root then blockFault s f h slot
    else next (grantBlock (setB (noteBlk s p slot.toNat false) p.core p.berth { b with holder := b.holder.set slot.toNat 8 }) p.core p.berth slot.toNat) p

/-- `wclaim` (R157, R173). -/
def execWclaim (h : Hdr) (slot : BitVec 4) (s : State) : Out :=
  run (.wclaim h slot) s fun s f =>
    let p := s.here
    let b := getB s p.core p.berth
    let k := b.holder.getD slot.toNat 8
    if !blockOk s f slot then blockFault s f h slot
    else if k = f.root then next s p
    else if k = 8 then next (setB (noteBlk s p slot.toNat true) p.core p.berth { b with holder := b.holder.set slot.toNat f.root }) p
    else block (next (noteBlk s p slot.toNat true) p) p (.wclaim slot.toNat)

/-- base + offset of a scalar access (R174, R237). -/
def scalarAddr (s : State) (f : Fibre) (base : Opnd) (off : Src) : Nat :=
  let o := match off with
    | .imm i => (i.signExtend 64).toNat
    | .reg r => opVal s f s.here r 2 0
  (opVal s f s.here base 2 0 + o) % 2 ^ 64

/-- `park` (R174, R228). -/
def execPark (h : Hdr) (base : Opnd) (off : Src) (s : State) : Out :=
  run (.park h base off) s fun s f =>
    let p := s.here
    let cid := cidOf s f
    let r := laneChecks s p f cid 1 (Ask.load 1) .normal [(lowLane f, scalarAddr s f base off)]
    match r.miss, r.bad, r.ok with
    | v :: vs, _, _ => stall (askWalks s p cid (v :: vs)) p h
    | [], e :: _, _ => raise s p { faultInfo f none with cls := e.2.1, addrs := [(e.1, e.2.2)], acc := 1, pos := 0 }
    | [], [], l :: _ =>
      let s := fillTlb s p f cid r.ok
      let s := sendReq s p.core cid l.pa .probe (.park p)
      settle (setWaitX (modF (nextX s p) p fun f => { f with probed := cycOf s p.core }) p (.park l.pa l.va none (f.pc + 12))) p
    | [], [], [] => s

end Sys2Proof.Machine
end

