-- ==== Sys2Proof/Machine/ExecRegion.lean ====
section
/-! DEFINITION. The meanings of row 0x1_: regions, traps, handlers, privileged accesses, span status, pilot gear (R204 to R218). -/
namespace Sys2Proof.Machine

/-- A fault of a commit-point instruction, or one whose position does not count: precise at once (R180, R191). -/
def xFault (s : State) (f : Fibre) (dst : Option (Opnd × Nat)) (cls acc : Nat) (mask : Mask) (addrs : List (Nat × Nat)) : State :=
  raise s s.here { faultInfo f dst with cls, acc, mask, addrs, pos := 0 }

/-- SW_TRAP with a code, after which the instruction counts as completed (R177, R193, R206). -/
def trapFault (s : State) (f : Fibre) (mask : Mask) (code : BitVec 16) : State :=
  raise s s.here { faultInfo f none with cls := 0x0C, code, mask, retry := false, pos := 0 }

/-- `rgn.enter` (R175, R177, R205). -/
def execRgnEnter (h : Hdr) (id : BitVec 16) (idem : Bool) (s : State) : Out :=
  run (.rgnEnter h id idem) s fun s f =>
    if 24 ≤ f.regions.length then trapFault s f f.amask 0xFFF0
    else nextX (setF s s.here { f with regions := { id, idem, entry := f.pc + 12 } :: f.regions }) s.here

/-- `rgn.leave` (R175, R177, R205, R218). -/
def execRgnLeave (h : Hdr) (s : State) : Out :=
  run (.rgnLeave h) s fun s f =>
    match f.regions with
    | [] => trapFault s f f.amask 0xFFF1
    | _ :: rs =>
      let forced := f.pilot.forced.bind fun d => if rs.length < d then none else some d
      nextX (setF s s.here { f with regions := rs, pilot := { f.pilot with forced } }) s.here

/-- `trap` (R206). -/
def execTrap (h : Hdr) (code : BitVec 16) (s : State) : Out :=
  run (.trap h code) s fun s f =>
    let m := maskOf (passLanes s f s.here h.guard)
    if m = 0 then nextX s s.here else trapFault s f m code

/-- `tret` and `tret.skip` (R196, R207). In a divided fibre a half that runs one ends the handler that is open, whichever half
entered it (log entry 32, DEDUCED). -/
def execTret (h : Hdr) (skip : Bool) (s : State) : Out :=
  run (.tret h skip) s fun s f =>
    match f.hnd with
    | some x =>
      let g := leaveHandler f x skip
      retireAt (setF s s.here g) s.here f.pc g.pc false
    | none => s

/-- `brk` (R208). Of two in one span the last is reported, and whether a debugger is attached is tested at the commit (log entry
21, DEDUCED). -/
def execBrk (h : Hdr) (tag : BitVec 16) (s : State) : Out :=
  run (.brk h tag) s fun s f =>
    next (setF s s.here { f with span := { f.span with brk := some (f.pc, tag, f.span.count) } }) s.here

/-- What `fltrd` reads for the fibre (R209). -/
def fltScalar (f : Fibre) (sel : BitVec 4) : Nat :=
  match f.hnd with
  | none => 0
  | some h =>
    match sel.toNat with
    | 0 => match h.addrs with
      | (_, a) :: _ => a
      | [] => h.tpc.toNat
    | 1 => h.tpc.toNat
    | 2 => h.tmask.toNat
    | 3 => h.word.toNat
    | 4 => if h.word.toNat % 32 = 0x0C ∨ h.word.toNat % 32 = 0x0D then h.code.toNat else 0
    | 5 => h.atSpeed
    | _ => h.spanStart.toNat

/-- A lane's data address (R209): 0 in a lane that the record names no address for (log entry 19, DEDUCED). -/
def fltLane (f : Fibre) (l : Nat) : Nat :=
  match f.hnd with
  | none => 0
  | some h => if h.tmask.getLsbD l then ((h.addrs.find? fun e => e.1 == l).map Prod.snd).getD 0 else 0

/-- Values of a result, one for each lane that is written; a scalar operation gives one (R37, R42). -/
def laneVals (s : State) (f : Fibre) (h : Hdr) (d : Opnd) (g : Nat → Nat) : List (Nat × Nat) :=
  let ls := passLanes s f s.here h.guard
  if d.isV then ls.map fun l => (l, g l) else if ls.isEmpty then [] else [(0, g 0)]

/-- `fltrd` (R209). -/
def execFltrd (h : Hdr) (d : Opnd) (sel : BitVec 4) (s : State) : Out :=
  run (.fltrd h d sel) s fun s f =>
    next (writeReg s s.here d 2 (laneVals s f h d fun l => if d.isV then fltLane f l else fltScalar f sel) true) s.here

/-- `fltset` (R210). -/
def execFltset (h : Hdr) (t : Ty) (a : Src) (s : State) : Out :=
  run (.fltset h t a) s fun s f =>
    match fltVals s s.here f h t a with
    | some (o, n, vs) => next (writeReg s s.here o n vs true) s.here
    | none => next s s.here

/-- Faults of `ldsys` and `stsys` (R211): class, or 0. -/
def sysCls (a size : Nat) : Nat :=
  if a % size ≠ 0 then 6
  else if a < 0x010000000000 ∨ 0x020000000000 ≤ a ∨ regHole a then 5
  else 0

/-- A long-latency result goes out; its row is RESULT_WRITEBACK (R151). -/
def sendPend (s : State) (f : Fibre) (d : Opnd) (n : Nat) (t : Ty) (vs : List (Nat × Nat)) : Pend × State :=
  let p := s.here
  let s := logOpnd s p d n
  ({ id := s.nextId, core := p.core, berth := p.berth, fib := p.fib, root := f.root, pc := f.pc, pos := f.span.count, dst := d, refs := refsOf s f p d n,
     mask := maskOf (vs.map Prod.fst), scalar := !d.isV, ty := t, size := 4 * n, lanes := [], asked := [], pilot := f.pilot.on,
     scratch := false, vals := vs, bad := [], acq := false, wat := [], post := none, seq := 0 }, { s with nextId := s.nextId + 1 })
def addPend (r : Pend × State) : State :=
  let s := { r.2 with pends := r.2.pends ++ [r.1] }
  due s (.resultWriteback r.1.id)

/-- `ldsys` (R211, R439): not before every older instruction of the span has completed. -/
def execLdsys (h : Hdr) (t : Ty) (d : Opnd) (base : Opnd) (off : Src) (s : State) : Out :=
  run (.ldsys h t d base off) s fun s f =>
    let a := scalarAddr s f base off
    let size := 4 * t.regs
    if hasPend s s.here then stall s s.here h
    else if sysCls a size ≠ 0 then
      faultAt s s.here false { faultInfo f (some (d, 2)) with cls := sysCls a size, acc := 1, addrs := [(lowLane f, a)] }
    else
      let r := regRead s a size
      next (addPend (sendPend r.2 f d 2 t [(0, r.1)])) s.here

/-- Put an entry into the hold (R182). -/
def holdPut (s : State) (p : Place) (e : HoldEnt) : State :=
  modF s p fun f => { f with span := { f.span with hold := f.span.hold ++ [e] } }

/-- An entry of the fibre as a whole. -/
def plainEnt (f : Fibre) (k : HoldKind) (lanes : List HoldLane) : HoldEnt :=
  { kind := k, pc := f.pc, mask := if lanes.isEmpty then 0 else 1, lanes, ord := .plain, sc := .fib, remap := false }
def scalarHold (va pa : Nat) (bytes : List Byte) : HoldLane :=
  { lane := scalarLane, va, pa, trk := false, pol := .normal, comm := none, bytes }

/-- `stsys` (R212). -/
def execStsys (h : Hdr) (t : Ty) (base : Opnd) (off : Opnd) (data : Opnd) (s : State) : Out :=
  run (.stsys h t base off data) s fun s f =>
    let a := scalarAddr s f base (.reg off)
    let size := 4 * t.regs
    if sysCls a size ≠ 0 then
      faultAt s s.here false { faultInfo f none with cls := sysCls a size, acc := 2, addrs := [(lowLane f, a)] }
    else
      next (holdPut s s.here (plainEnt f .sys [scalarHold a a (bytesOf size (opVal s f s.here data 2 0))])) s.here

/-- `tlbi` (R213, R400): performed when its entry is released. -/
def execTlbi (h : Hdr) (sc : Scope) (m : TlbiMode) (a : Opnd) (b : Opnd) (s : State) : Out :=
  run (.tlbi h sc m a b) s fun s f =>
    let v (o : Opnd) : DWord := BitVec.ofNat 64 (opVal s f s.here o 2 0)
    next (holdPut s s.here (plainEnt f (.tlbi m sc (v a) (v b)) [])) s.here

/-- The span status word (R214). LIMIT is that of the open span, also after a `stsp` in it (log entry 32, DEDUCED). -/
def spanStatus (f : Fibre) : Nat :=
  f.regions.length * 2 ^ 48 + f.span.limit * 2 ^ 32 + (if f.dual.isSome then 2 ^ 27 else 0) + (if f.hnd.isSome then 2 ^ 26 else 0) +
    (if f.pilot.on then 2 ^ 25 else 0) + f.span.undo.length * 2 ^ 18 + f.span.hold.length * 2 ^ 12 + f.span.count % 2 ^ 12

/-- `ldsp` (R214). -/
def execLdsp (h : Hdr) (d : Opnd) (s : State) : Out :=
  run (.ldsp h d) s fun s f => next (writeReg s s.here d 2 [(0, spanStatus f)] true) s.here

/-- The limit that `stsp` sets (R215). -/
def stspLimit (v : Nat) : Nat := if v % 2 ^ 13 = 0 ∨ 4096 < v % 2 ^ 13 then 4096 else v % 2 ^ 13

/-- `stsp` (R215): the new limit applies from the next span. -/
def execStsp (h : Hdr) (a : Src) (s : State) : Out :=
  run (.stsp h a) s fun s f =>
    let v := match a with
      | .imm i => i.toNat
      | .reg o => opVal s f s.here o 2 0
    next (setF s s.here { f with span := { f.span with nextLimit := stspLimit v } }) s.here

/-- `mark` (R216). -/
def execMark (h : Hdr) (value : Word) (s : State) : Out :=
  run (.mark h value) s fun s f =>
    next (holdPut s s.here { plainEnt f (.mark value (BitVec.ofNat 64 (rgnWord f.regions))) [] with mask := f.amask }) s.here

/-- `chk` (R217): it waits until every register it folds is full. -/
def execChk (h : Hdr) (d : Opnd) (a : Opnd) (s : State) : Out :=
  run (.chk h d a) s fun s f =>
    let p := s.here
    if (foldRefs s f p).any (emptyRef s) then stall s p h
    else
      next (addPend (sendPend s f d 2 .b64 [(0, foldRegs s f p (opVal s f p a 2 0))])) p

/-- `pilot.on` and `pilot.off` (R218). A second `pilot.on` takes the newer depth (log entry 32, DEDUCED). -/
def execPilot (h : Hdr) (on : Bool) (s : State) : Out :=
  run (.pilot h on) s fun s f =>
    let q : Pilot := if on then { f.pilot with on := true, forced := some f.regions.length } else { f.pilot with forced := none }
    -- the word itself runs in the gear in which it was issued
    settleHalt (modF (next s s.here) s.here fun g => { g with pilot := q }) s.here

end Sys2Proof.Machine
end

