-- ==== Sys2Proof/Machine/ExecInt.lean ====
section
/-! DEFINITION. The meanings of rows 0x2_ to 0x4_: integers, bits, comparisons, moves, lanes (R92 to R123). -/
namespace Sys2Proof.Machine

/-- A result as it is written: a 32-bit one widens in a scalar (R38). -/
def wide1 (d : Opnd) (t : Ty) (n v : Nat) : Nat := if d.isV || n != 1 then v else widenTy t v

/-- Write a fixed-latency result of `n` registers, one value for each lane that passes, and go on (R92). -/
def result (s : State) (f : Fibre) (h : Hdr) (d : Opnd) (n : Nat) (t : Ty) (g : Nat → Nat) : State :=
  next (writeReg s s.here d n (laneVals s f h d fun l => wide1 d t n (g l)) true) s.here

/-- Source values by lane. -/
def valA1 (s : State) (f : Fibre) (x : Op1) (n l : Nat) : Nat := opVal s f s.here x.a n l
def valA2 (s : State) (f : Fibre) (x : Op2) (n l : Nat) : Nat := opVal s f s.here x.a n l
def valB2 (s : State) (f : Fibre) (x : Op2) (n l : Nat) : Nat := srcVal s f s.here x.t n x.b l
def valO (s : State) (f : Fibre) (o : Opnd) (n l : Nat) : Nat := opVal s f s.here o n l

/-- One, two and three sources of the type's own width. -/
def alu1 (s : State) (f : Fibre) (x : Op1) (g : Nat → Nat) : State :=
  result s f x.h x.d x.t.regs x.t fun l => g (valA1 s f x x.t.regs l)
def alu2 (s : State) (f : Fibre) (x : Op2) (g : Nat → Nat → Nat) : State :=
  result s f x.h x.d x.t.regs x.t fun l => g (valA2 s f x x.t.regs l) (valB2 s f x x.t.regs l)
def alu3 (s : State) (f : Fibre) (x : Op3) (t : Ty) (g : Nat → Nat → Nat → Nat) : State :=
  result s f x.h x.d x.t.regs t fun l => g (valO s f x.a x.t.regs l) (valO s f x.b x.t.regs l) (valO s f x.c x.t.regs l)

/-- An instruction that has completed raises a fault of a class that lets it complete (R100, R128, R188): at speed the span is
faulted, in pilot gear the fault is precise with RETRY 0. -/
def completeFault (s : State) (f : Fibre) (dst : Option (Opnd × Nat)) (cls : Nat) (mask : Mask) : State :=
  let s := modF s s.here fun f => { f with span := { f.span with count := f.span.count + 1 } }
  faultAt s s.here false { faultInfo f dst with cls, mask, retry := false }

/-- Lanes in which a divisor is 0; all that pass, for a scalar operation (R100). -/
def zeroDivs (s : State) (f : Fibre) (x : Op2) : List Nat :=
  let ls := passLanes s f s.here x.h.guard
  if x.d.isV then ls.filter fun l => elemI x.t 0 (valB2 s f x x.t.regs l) == 0
  else if elemI x.t 0 (valB2 s f x x.t.regs 0) = 0 then ls else []

/-- `div` and `rem` (R100). -/
def divide2 (s : State) (f : Fibre) (x : Op2) (g : Nat → Nat → Nat) : State :=
  let z := zeroDivs s f x
  if descDiv0 (descOf s f) && !z.isEmpty then
    completeFault
      (writeReg s s.here x.d x.t.regs
        (laneVals s f x.h x.d fun l => wide1 x.d x.t x.t.regs (g (valA2 s f x x.t.regs l) (valB2 s f x x.t.regs l))) true)
      f (some (x.d, x.t.regs)) 9 (maskOf z)
  else alu2 s f x g

/-- A long-latency result, or nothing at all when no lane passes (R95, R151). -/
def longResult (s : State) (f : Fibre) (h : Hdr) (d : Opnd) (n : Nat) (t : Ty) (g : Nat → Nat) : State :=
  match laneVals s f h d g with
  | [] => next s s.here
  | vs => next (addPend (sendPend s f d n t vs)) s.here


/-! ### Arithmetic -/

/-- `add` (R97). -/
def execAdd (x : Op2) (sat : Bool) (s : State) : Out :=
  run (.add x sat) s fun s f => alu2 s f x (arith2 x.t sat fun a b => a + b)
/-- `sub` (R97). -/
def execSub (x : Op2) (sat : Bool) (s : State) : Out :=
  run (.sub x sat) s fun s f => alu2 s f x (arith2 x.t sat fun a b => a - b)
/-- `mul` (R97). -/
def execMul (x : Op2) (sat : Bool) (s : State) : Out :=
  run (.mul x sat) s fun s f => alu2 s f x (arith2 x.t sat fun a b => a * b)
/-- `mulh` (R98). -/
def execMulh (x : Op2) (s : State) : Out :=
  run (.mulh x) s fun s f => alu2 s f x (mulhF x.t)
/-- `mad` (R99). -/
def execMad (x : Op3) (sat : Bool) (s : State) : Out :=
  run (.mad x sat) s fun s f => alu3 s f x x.t (arith3 x.t sat fun a b c => a * b + c)
/-- `div` (R100). -/
def execDiv (x : Op2) (s : State) : Out :=
  run (.div x) s fun s f => divide2 s f x (divF x.t)
/-- `rem` (R100). -/
def execRem (x : Op2) (s : State) : Out :=
  run (.rem x) s fun s f => divide2 s f x (remF x.t)
/-- `neg` (R101). -/
def execNeg (x : Op1) (sat : Bool) (s : State) : Out :=
  run (.neg x sat) s fun s f => alu1 s f x (arith1 x.t sat fun a => -a)
/-- `abs` (R101). -/
def execAbs (x : Op1) (sat : Bool) (s : State) : Out :=
  run (.abs x sat) s fun s f => alu1 s f x (arith1 x.t sat fun a => (a.natAbs : Int))
/-- `min` (R97). -/
def execMin (x : Op2) (s : State) : Out :=
  run (.min x) s fun s f => alu2 s f x (arith2 x.t false fun a b => if a ≤ b then a else b)
/-- `max` (R97). -/
def execMax (x : Op2) (s : State) : Out :=
  run (.max x) s fun s f => alu2 s f x (arith2 x.t false fun a b => if a ≤ b then b else a)
/-- `sad` (R102). -/
def execSad (x : Op3) (sat : Bool) (s : State) : Out :=
  run (.sad x sat) s fun s f => alu3 s f x .n32 (sadF x.t sat)
/-- `addc` (R103). -/
def execAddc (x : Op3) (co : Bool) (s : State) : Out :=
  run (.addc x co) s fun s f => alu3 s f x x.t (addcF x.t co)
/-- `subb` (R103). -/
def execSubb (x : Op3) (bo : Bool) (s : State) : Out :=
  run (.subb x bo) s fun s f => alu3 s f x x.t (subbF x.t bo)
/-- `lea` (R104). -/
def execLea (x : Op2) (sh : BitVec 2) (s : State) : Out :=
  run (.lea x sh) s fun s f =>
    result s f x.h x.d 2 .b64 fun l => leaF sh.toNat (valA2 s f x 2 l) (valB2 s f x 1 l)
/-- `dot4` (R105). -/
def execDot4 (x : Op3) (sat : Bool) (s : State) : Out :=
  run (.dot4 x sat) s fun s f => alu3 s f x x.t (dot4F x.t sat)

/-! ### Bits and shifts -/

/-- `and` (R106). -/
def execAnd (x : Op2) (s : State) : Out :=
  run (.and x) s fun s f => alu2 s f x fun a b => a &&& b
/-- `or` (R106). -/
def execOr (x : Op2) (s : State) : Out :=
  run (.or x) s fun s f => alu2 s f x fun a b => a ||| b
/-- `xor` (R106). -/
def execXor (x : Op2) (s : State) : Out :=
  run (.xor x) s fun s f => alu2 s f x fun a b => a ^^^ b
/-- `andn` (R106). -/
def execAndn (x : Op2) (s : State) : Out :=
  run (.andn x) s fun s f => alu2 s f x (andnF x.t)
/-- `not` (R106). -/
def execNot (x : Op1) (s : State) : Out :=
  run (.not x) s fun s f => alu1 s f x (notW (tyW x.t))
/-- `shl` (R107). -/
def execShl (x : Op2) (s : State) : Out :=
  run (.shl x) s fun s f => alu2 s f x (shlF x.t)
/-- `shr` (R107). -/
def execShr (x : Op2) (s : State) : Out :=
  run (.shr x) s fun s f => alu2 s f x (shrF x.t)
/-- `sra` (R107). -/
def execSra (x : Op2) (s : State) : Out :=
  run (.sra x) s fun s f => alu2 s f x (sraF x.t)
/-- `rol` (R108). -/
def execRol (x : Op2) (s : State) : Out :=
  run (.rol x) s fun s f => alu2 s f x (rolF x.t)
/-- `bfx` (R109). -/
def execBfx (x : Op2) (s : State) : Out :=
  run (.bfx x) s fun s f => alu2 s f x (bfxF x.t)
/-- `bfi` (R109). -/
def execBfi (x : Op3) (s : State) : Out :=
  run (.bfi x) s fun s f => alu3 s f x x.t (bfiF x.t)
/-- `popc` (R110). -/
def execPopc (x : Op1) (s : State) : Out :=
  run (.popc x) s fun s f => alu1 s f x (popCount (tyW x.t))
/-- `clz` (R110). -/
def execClz (x : Op1) (s : State) : Out :=
  run (.clz x) s fun s f => alu1 s f x (clzF x.t)
/-- `ctz` (R110). -/
def execCtz (x : Op1) (s : State) : Out :=
  run (.ctz x) s fun s f => alu1 s f x (ctzF x.t)
/-- `brev` (R110). -/
def execBrev (x : Op1) (s : State) : Out :=
  run (.brev x) s fun s f => alu1 s f x (brevF x.t)
/-- `prmt` (R111). -/
def execPrmt (x : Op3) (s : State) : Out :=
  run (.prmt x) s fun s f => alu3 s f x x.t prmtF

/-! ### Compare, select, move -/

/-- `cmp` (R112): D is one register, or a whole scalar. -/
def execCmp (x : Op2) (c : Cond) (s : State) : Out :=
  run (.cmp x c) s fun s f =>
    result s f x.h x.d 1 .b32 fun l => cmpF x.t c (valA2 s f x x.t.regs l) (valB2 s f x x.t.regs l)
/-- `sel` (R113): C is one register in a lane operation, 64 bits in a scalar one. -/
def execSel (x : Op3) (s : State) : Out :=
  run (.sel x) s fun s f =>
    result s f x.h x.d x.t.regs x.t fun l =>
      if valO s f x.c (if x.d.isV then 1 else 2) l != 0 then valO s f x.a x.t.regs l else valO s f x.b x.t.regs l
/-- `mov` (R114). -/
def execMov (h : Hdr) (t : Ty) (d : Opnd) (a : Src) (s : State) : Out :=
  run (.mov h t d a) s fun s f => result s f h d t.regs t fun l => srcVal s f s.here t t.regs a l
/-- `pack` (R115). -/
def execPack (h : Hdr) (t : Ty) (d : Opnd) (a : Opnd) (b : Opnd) (sat : Bool) (s : State) : Out :=
  run (.pack h t d a b sat) s fun s f => result s f h d 1 t fun l => packF t sat (valO s f a 1 l) (valO s f b 1 l)
/-- `unpack` (R115). -/
def execUnpack (x : Op1) (hi : Bool) (s : State) : Out :=
  run (.unpack x hi) s fun s f => result s f x.h x.d 1 x.t fun l => unpackF x.t hi (valA1 s f x 1 l)

/-! ### Across lanes (R116) -/

/-- `rdl` (R117). -/
def execRdl (x : Op2) (s : State) : Out :=
  run (.rdl x) s fun s f =>
    let j := valB2 s f x 1 0 % 32
    longResult s f x.h x.d x.t.regs x.t fun _ => if f.amask.getLsbD j then valA2 s f x x.t.regs j else 0
/-- `bcast` (R118). -/
def execBcast (x : Op2) (s : State) : Out :=
  run (.bcast x) s fun s f =>
    let j := valB2 s f x 1 0 % 32
    result s f x.h x.d x.t.regs x.t fun l => valA2 s f x x.t.regs (if f.amask.getLsbD j then j else l)
/-- A reduction over the contributing set (R119). -/
def reduce (op : RedOp) (t : Ty) : List Nat → Nat
  | [] => 0
  | v :: vs => vs.foldl (vredF op t) v
/-- `vred` (R119). -/
def execVred (x : Op1) (op : RedOp) (s : State) : Out :=
  run (.vred x op) s fun s f =>
    longResult s f x.h x.d x.t.regs x.t fun _ =>
      reduce op x.t ((passLanes s f s.here x.h.guard).map fun l => valA1 s f x x.t.regs l)
/-- The flagged lanes of the contributing set. -/
def flagged (s : State) (f : Fibre) (x : Op1) : List Nat :=
  (passLanes s f s.here x.h.guard).filter fun l => valA1 s f x 1 l % 2 ^ 32 != 0
/-- `ballot` (R120). -/
def execBallot (x : Op1) (s : State) : Out :=
  run (.ballot x) s fun s f => result s f x.h x.d 1 .b32 fun _ => (maskOf (flagged s f x)).toNat
/-- What a vote comes to (R121). -/
def voteF (m : VoteMode) (vs : List Nat) : Bool :=
  match m with
  | .all => vs.all (· != 0)
  | .any => vs.any (· != 0)
  | .uni => vs.all (· == vs.headD 0)
/-- `vote` (R121). -/
def execVote (x : Op1) (m : VoteMode) (s : State) : Out :=
  run (.vote x m) s fun s f =>
    result s f x.h x.d 1 .b32 fun _ =>
      if voteF m ((passLanes s f s.here x.h.guard).map fun l => valA1 s f x 1 l % 2 ^ 32) then 1 else 0
/-- `actn` (R122). -/
def execActn (x : Op1) (s : State) : Out :=
  run (.actn x) s fun s f => result s f x.h x.d 1 .n32 fun l => ((flagged s f x).filter (· < l)).length
/-- `shfl` (R123). -/
def execShfl (x : Op2) (m : ShMode) (s : State) : Out :=
  run (.shfl x m) s fun s f =>
    result s f x.h x.d x.t.regs x.t fun l =>
      valA2 s f x x.t.regs
        (match shflLane m l (valB2 s f x 1 l) with
         | some j => if f.amask.getLsbD j then j else l
         | none => l)

end Sys2Proof.Machine
end

