-- ==== Sys2Proof/Machine/ExecFloat.lean ====
section
/-! DEFINITION. The meanings of rows 0x5_ to 0x7_: floating point, special functions, division, conversion (R124 to R145). -/
namespace Sys2Proof.Machine

/-- The lane number in a generated NaN: 0 for a scalar operation (R128). -/
def nanLane (d : Opnd) (l : Nat) : Nat := if d.isV then l else 0

/-- Lanes marked invalid: all that pass, for a scalar operation (R128). -/
def marked (s : State) (f : Fibre) (h : Hdr) (d : Opnd) (g : Nat → Nat × Bool) : List Nat :=
  let ls := passLanes s f s.here h.guard
  if d.isV then ls.filter fun l => (g l).2 else if (g 0).2 then ls else []

/-- A floating-point result in every lane that passes; where the kernel traps, an invalid one faults after it is written
(R128). -/
def fresult (s : State) (f : Fibre) (h : Hdr) (d : Opnd) (g : Nat → Nat × Bool) : State :=
  let m := marked s f h d g
  if descFpInv (descOf s f) && !m.isEmpty then
    completeFault (writeReg s s.here d 1 (laneVals s f h d fun l => (g l).1) true) f (some (d, 1)) 0x0A (maskOf m)
  else result s f h d 1 .f32 fun l => (g l).1

/-- The same for a long-latency producer (R126): the fault follows the result. -/
def flong (s : State) (f : Fibre) (h : Hdr) (d : Opnd) (t : Ty) (g : Nat → Nat × Bool) : State :=
  match laneVals s f h d fun l => (g l).1 with
  | [] => next s s.here
  | vs =>
    let m := marked s f h d g
    let r := sendPend s f d 1 t vs
    next (addPend ({ r.1 with post := if descFpInv (descOf s f) && !m.isEmpty then some (0x0A, maskOf m) else none }, r.2)) s.here

/-! ### Arithmetic -/

/-- `fadd`, `fsub`, `fmul` (R129). -/
def execFadd (x : Op2) (r : Rnd) (s : State) : Out :=
  run (.fadd x r) s fun s f =>
    fresult s f x.h x.d fun l => faddF x.t false r (nanLane x.d l) f.pc (valA2 s f x 1 l) (valB2 s f x 1 l)
def execFsub (x : Op2) (r : Rnd) (s : State) : Out :=
  run (.fsub x r) s fun s f =>
    fresult s f x.h x.d fun l => faddF x.t true r (nanLane x.d l) f.pc (valA2 s f x 1 l) (valB2 s f x 1 l)
def execFmul (x : Op2) (r : Rnd) (s : State) : Out :=
  run (.fmul x r) s fun s f =>
    fresult s f x.h x.d fun l => fmulF x.t r (nanLane x.d l) f.pc (valA2 s f x 1 l) (valB2 s f x 1 l)
/-- `fma` (R129). -/
def execFma (x : Op3) (r : Rnd) (s : State) : Out :=
  run (.fma x r) s fun s f =>
    fresult s f x.h x.d fun l => fmaF x.t r (nanLane x.d l) f.pc (valO s f x.a 1 l) (valO s f x.b 1 l) (valO s f x.c 1 l)
/-- `fmin` and `fmax` (R130). -/
def execFmin (x : Op2) (num : Bool) (s : State) : Out := run (.fmin x num) s fun s f => alu2 s f x (fminF x.t false num)
def execFmax (x : Op2) (num : Bool) (s : State) : Out := run (.fmax x num) s fun s f => alu2 s f x (fminF x.t true num)
/-- `fcmp` (R131). -/
def execFcmp (x : Op2) (c : Cond) (s : State) : Out := run (.fcmp x c) s fun s f => alu2 s f x (fcmpF x.t c)
/-- `frnd` (R132). -/
def execFrnd (x : Op1) (r : Rnd) (s : State) : Out := run (.frnd x r) s fun s f => alu1 s f x (frndF x.t r)
/-- `fclass` (R133). -/
def execFclass (x : Op1) (s : State) : Out := run (.fclass x) s fun s f => alu1 s f x (fclassF x.t)
/-- `fdot2` (R134). -/
def execFdot2 (x : Op3) (r : Rnd) (s : State) : Out :=
  run (.fdot2 x r) s fun s f =>
    fresult s f x.h x.d fun l => fdot2F x.t r (nanLane x.d l) f.pc (valO s f x.a 1 l) (valO s f x.b 1 l) (valO s f x.c 1 l)
/-- `fscl` (R135). -/
def execFscl (x : Op2) (r : Rnd) (s : State) : Out := run (.fscl x r) s fun s f => alu2 s f x (fsclF x.t r)
/-- `fexpo` (R136); the type is f32, so a scalar is filled with zeros above bit 31 (R38). -/
def execFexpo (x : Op1) (s : State) : Out :=
  run (.fexpo x) s fun s f => result s f x.h x.d 1 .f32 fun l => fexpoF (valA1 s f x 1 l)

/-! ### Special functions and division (R137 to R139) -/

/-- A special function. -/
def special (s : State) (f : Fibre) (fn : SFun) (x : Op1) (r : Rnd) : State :=
  flong s f x.h x.d x.t fun l => sfunF fn x.t r (nanLane x.d l) f.pc (valA1 s f x 1 l)

/-- `rcp` (R137). -/
def execRcp (x : Op1) (r : Rnd) (s : State) : Out :=
  run (.rcp x r) s fun s f => special s f .rcp x r
/-- `rsq` (R137). -/
def execRsq (x : Op1) (r : Rnd) (s : State) : Out :=
  run (.rsq x r) s fun s f => special s f .rsq x r
/-- `sqrt` (R137). -/
def execSqrt (x : Op1) (r : Rnd) (s : State) : Out :=
  run (.sqrt x r) s fun s f => special s f .sqrt x r
/-- `exp2` (R137). -/
def execExp2 (x : Op1) (r : Rnd) (s : State) : Out :=
  run (.exp2 x r) s fun s f => special s f .exp2 x r
/-- `log2` (R137). -/
def execLog2 (x : Op1) (r : Rnd) (s : State) : Out :=
  run (.log2 x r) s fun s f => special s f .log2 x r
/-- `sinpi` (R137). -/
def execSinpi (x : Op1) (r : Rnd) (s : State) : Out :=
  run (.sinpi x r) s fun s f => special s f .sinpi x r
/-- `cospi` (R137). -/
def execCospi (x : Op1) (r : Rnd) (s : State) : Out :=
  run (.cospi x r) s fun s f => special s f .cospi x r
/-- `tanh` (R137). -/
def execTanh (x : Op1) (r : Rnd) (s : State) : Out :=
  run (.tanh x r) s fun s f => special s f .tanh x r
/-- `fdiv` (R137, R139). -/
def execFdiv (x : Op2) (r : Rnd) (s : State) : Out :=
  run (.fdiv x r) s fun s f =>
    flong s f x.h x.d x.t fun l => fdivF x.t r (nanLane x.d l) f.pc (valA2 s f x 1 l) (valB2 s f x 1 l)

/-! ### Conversions (R140 to R145) -/

/-- A format's value as it is written: signed integers extend their sign to 32 bits, and to 64 in a scalar (R140). -/
def fmtWide (df : Fmt) (d : Opnd) (v : Nat) : Nat :=
  match df with
  | .i4 | .i8 | .i16 | .i32 => sextTo (if d.isV then 32 else 64) (fmtWidth df) v
  | _ => v

/-- `cvt` (R142). -/
def execCvt (h : Hdr) (d : Opnd) (a : Opnd) (df : Fmt) (sf : Fmt) (sat : Bool) (r : Rnd) (s : State) : Out :=
  run (.cvt h d a df sf sat r) s fun s f =>
    result s f h d df.regs .b64 fun l =>
      fmtWide df d (convert f.fp4x.toNat df sf sat r (valO s f a sf.regs l % 2 ^ fmtWidth sf))
/-- `cvtpk` (R143). -/
def execCvtpk (h : Hdr) (d : Opnd) (a : Opnd) (b : Option Opnd) (c : Opnd) (df : Fmt) (p : BitVec 3) (sat : Bool) (r : Rnd)
    (s : State) : Out :=
  run (.cvtpk h d a b c df p sat r) s fun s f =>
    result s f h d 1 .b32 fun l =>
      cvtpkF f.fp4x.toNat df p.toNat sat r (valO s f a 1 l)
        (match b with
         | some o => valO s f o 1 l
         | none => 0) (valO s f c 1 l)
/-- `cvtunpk` (R144). -/
def execCvtunpk (h : Hdr) (d : Opnd) (a : Opnd) (dm : DMode) (sf : Fmt) (e : BitVec 3) (r : Rnd) (s : State) : Out :=
  run (.cvtunpk h d a dm sf e r) s fun s f =>
    result s f h d 1 .b32 fun l => cvtunpkF f.fp4x.toNat dm sf e.toNat r (valO s f a 1 l)
/-- `mxsc` (R145): over the contributing set. -/
def execMxsc (x : Op1) (fm : Fmt) (s : State) : Out :=
  run (.mxsc x fm) s fun s f =>
    let c := mxscF fm ((passLanes s f s.here x.h.guard).map fun l => valA1 s f x 1 l)
    result s f x.h x.d 1 .b32 fun _ => c

end Sys2Proof.Machine
end

