-- ==== Sys2Proof/Machine/ExecMem.lean ====
section
/-! DEFINITION. The meanings of rows 0x8_ and 0x9_: loads, stores, fences, promotions, contributions, atomics (R219 to R249). -/
namespace Sys2Proof.Machine

/-! ### Lanes and addresses (R237) -/

/-- Bytes of one access. -/
def accessSize (t : Ty) : Nat :=
  match t with
  | .b8 | .i8 => 1
  | .b16 | .i16 => 2
  | _ => 4 * t.regs

/-- Lanes of an access with their addresses; a scalar operation makes one access, listed as lane 0. `step`: bytes between the
lanes on a scalar base. -/
def memLanes (s : State) (f : Fibre) (h : Hdr) (lane : Bool) (base : Opnd) (off : Src) (step : Nat) : List (Nat × Nat) :=
  let ls := passLanes s f s.here h.guard
  let o := srcVal s f s.here .b64 2 off 0
  if lane then ls.map fun l => (l, (opVal s f s.here base 2 l + o + (if base.isV then 0 else l * step)) % 2 ^ 64)
  else if ls.isEmpty then [] else [(0, (opVal s f s.here base 2 0 + o) % 2 ^ 64)]

/-- A fault record's lanes: those given, or every passing lane for a scalar operation, whose one address stands in the lowest of
them (log entry 19, DEDUCED: R209 does not say what a vector `fltrd` reads in the others, and here they read 0). -/
def faultLanes (s : State) (f : Fibre) (h : Hdr) (lane : Bool) (m : Mask) (as : List (Nat × Nat)) : Mask × List (Nat × Nat) :=
  let ls := passLanes s f s.here h.guard
  if lane then (m, as) else (maskOf ls, as.map fun e => (ls.headD 0, e.2))

/-- The fault of an access (R440): at speed a span fault, in pilot gear or on a commit-point instruction (`x`) precise. -/
def accessFault (s : State) (f : Fibre) (h : Hdr) (lane x : Bool) (dst : Option (Opnd × Nat)) (acc : Nat)
    (bad : List (Nat × Nat × Nat)) : State :=
  match pickFault bad with
  | none => s
  | some (c, m, as) =>
    let r := faultLanes s f h lane m as
    faultAt s s.here x { faultInfo f dst with cls := c, mask := r.1, addrs := r.2, acc, pos := if x then 0 else f.span.count }

/-- A privileged context's `ld.g` and `st.g` may reach registers (R439). -/
def globalAsk (s : State) (f : Fibre) (q : Ask) : Ask := { q with regsOk := privOf s (cidOf s f) }

/-! ### Watches (R424) -/

def watchAddr (cid : Nat) : Nat := 0x010000880000 + 0x40 * cid

/-- A watch of the context selects this access. -/
def watched (s : State) (cid : Nat) (rd wr : Bool) (va n : Nat) : Bool :=
  ctxFlag s cid 117 &&
    ([0, 1] : List Nat).any fun w =>
      let a := (getReg s (watchAddr cid + 16 * w)).toNat
      let c := (getReg s (watchAddr cid + 16 * w + 8)).toNat
      bitsAt c 8 32 != 0 && ((wr && bitsAt c 1 1 == 1) || (rd && bitsAt c 0 1 == 1)) &&
        va < a + bitsAt c 8 32 && a < va + n

/-- Lanes, or the lowest passing lane for a scalar operation, in which a watch acts. -/
def watchLanes (s : State) (f : Fibre) (rd wr : Bool) (n : Nat) (ls : List (Nat × Nat)) : List (Nat × Nat) :=
  ls.filter fun l => watched s (cidOf s f) rd wr l.2 n

/-- WATCH after the access has taken effect: precise on a commit-point instruction, else as R185 and R188 say. -/
def watchFault (s : State) (f : Fibre) (h : Hdr) (lane x : Bool) (dst : Option (Opnd × Nat)) (acc : Nat) (ws : List (Nat × Nat)) : State :=
  let r := faultLanes s f h lane (maskOf (ws.map Prod.fst)) ws
  let fi : FaultInfo :=
    { faultInfo f dst with cls := 0x0E, mask := r.1, addrs := r.2, acc, retry := false, pos := if x then 0 else f.span.count }
  let s := if x then s else modF s s.here fun f => { f with span := { f.span with count := f.span.count + 1 } }
  faultAt s s.here x fi

/-! ### Held stores as the piece's own loads see them (R182, R203) -/

/-- Held entries that a piece's loads see, oldest first: its own, and the scalar ones of the piece it was detached from (R162, R182). -/
def heldEnts (s : State) (p : Place) (f : Fibre) : List HoldEnt :=
  let el := f.elders.filterMap fun e => (elderEnt s p f e).map fun h => (if f.spanNo = e.no then min e.pos f.span.hold.length else 0, h)
  f.relq ++ (match f.dual with
    | some d => d.unc.flatMap fun u => u.span.hold
    | none => []) ++
    if el.isEmpty then f.span.hold
    else (List.range (f.span.hold.length + 1)).flatMap fun i => (el.filter fun e => e.1 == i).map Prod.snd ++ (f.span.hold[i]?).toList

/-- The youngest held byte at an address; `g`: global, by physical address; else scratchpad. -/
def heldByte (es : List HoldEnt) (g : Bool) (a : Nat) : Option Byte :=
  es.foldl
    (fun o e =>
      if e.kind == (if g then HoldKind.stG else HoldKind.stX) then
        e.lanes.foldl
          (fun o l =>
            let b := if g then l.pa else l.va
            if b ≤ a ∧ a < b + l.bytes.length then some (l.bytes.getD (a - b) 0) else o) o
      else o) none

def heldBytes (s : State) (p : Place) (f : Fibre) (g : Bool) (a n : Nat) : List (Option Byte) :=
  let es := heldEnts s p f
  (List.range n).map fun i => heldByte es g (a + i)

/-! ### Loads (R222, R229, R238) -/

/-- An acquire: no younger access performs before every older load has completed (R241). -/
def markAcq (s : State) (p : Place) : State :=
  match getF s p with
  | some f => { s with pends := s.pends.map fun q => if ofPiece p f q then { q with acq := true } else q }
  | none => s

/-- Send a core's partials of one line ahead of a load of the line (R234). -/
def sendLine (s : State) (core line : Nat) : State :=
  let x := getC s core
  match tfind x.parts line with
  | none => s
  | some q => sendReq (setC s core { x with parts := tdel x.parts line }) core 0 (line * 128) (.part (s.modNo * 1024 + core) q) .drop

/-- The access is served at the home, or by an untracked packet (R229, R230, R241); a policy changes nothing on a peer line. -/
def atHome (s : State) (f : Fibre) (l : OpLane) : Bool := !l.trk || (isOwn s l.pa && (l.pol == .noL1 || f.scf))

/-- The copy that a load hits. -/
def hitCopy (s : State) (core : Nat) (l : OpLane) : Option Copy :=
  match getCopy s core (lineNo l.pa), tfind (getC s core).parts (lineNo l.pa) with
  | some cp, none => if cp.owned || clockOf s core ≤ cp.lt then some cp else none
  | _, _ => none

/-- The request for the line of a lane. -/
def askLine (f : Fibre) (core id : Nat) (s : State) (l : OpLane) : State :=
  let line := lineNo l.pa
  let s := sendLine s core line
  if atHome s f l then sendReq s core (cidOf s f) (line * 128) (.load 128) (.pend id)
  else sendReq s core (cidOf s f) (line * 128) (.lease ((getCopy s core line).map Copy.wt) (leaseOf s (cidOf s f))) (.pend id)

/-! ### Spinning (R227) -/

/-- The largest lease length among the contexts whose groups are placed on a core. -/
def maxLease (s : State) (core : Nat) : Nat :=
  s.groups.foldl
    (fun m e => if e.2.core == core && (e.2.st == .placed || e.2.st == .draining || e.2.st == .saving) then
        max m (leaseOf s (((getI s e.2.inst).map Inst.cid).getD 0))
      else m) 0

/-- 64 consecutive hits on one leased line, and 1,024 cycles since the first. -/
def spinDue (s : State) (p : Place) (f : Fibre) : Bool := 64 ≤ f.spin.2.1 && f.spin.2.2 + 1024 ≤ cycOf s p.core

/-- The core raises its clock past the lease of the line that the fibre spins on. -/
def spinNudge (s : State) (p : Place) (f : Fibre) : State :=
  let lt := ((getCopy s p.core f.spin.1).map Copy.lt).getD 0
  raiseClock (setF s p { f with spin := (0, 0, 0) }) p.core (max (clockOf s p.core + maxLease s p.core + 1) (lt + 1))

/-- A load that is no hit on the leased line, or is of another line, tracked or not, ends the run of consecutive hits (R227). -/
def endSpin (s : State) (p : Place) : State := modF s p fun f => { f with spin := (0, 0, 0) }

/-- Consecutive hits on one leased line. -/
def countSpin (s : State) (p : Place) (ls : List OpLane) (allHit : Bool) : State :=
  match getF s p, ls with
  | some f, l :: _ =>
    let line := lineNo l.pa
    let leased := match getCopy s p.core line with
      | some cp => !cp.owned
      | none => false
    if allHit && leased && ls.all (fun m => m.trk && lineNo m.pa == line) then
      let sp := if f.spin.2.1 ≠ 0 ∧ f.spin.1 = line then (line, f.spin.2.1 + 1, f.spin.2.2) else (line, 1, cycOf s p.core)
      let s := setF s p { f with spin := sp }
      if 64 ≤ sp.2.1 ∧ sp.2.2 + 1024 ≤ cycOf s p.core then due s (.spinNudge p) else s
    else endSpin s p
  | _, _ => s

/-- Values of the leader's load of the same position (R199, R417). -/
def leaderVals (s : State) (f : Fibre) (d : Dual) : Option (List (Nat × Nat)) :=
  (getF s { core := d.core, berth := d.berth, fib := d.fib }).bind fun g =>
    g.dual.bind fun e => (e.loads.find? fun x => x.1 == f.spanNo && x.2.1 == d.nload + 1).map fun x => x.2.2

def bumpLoad (s : State) (p : Place) : State :=
  modF s p fun f => { f with dual := f.dual.map fun (d : Dual) => ({ d with nload := d.nload + 1 } : Dual) }

/-- A lane of a load that names a register (R439). -/
def isReg (s : State) (l : OpLane) : Bool := rngOf s l.pa == .regs

/-- The lanes of a load in the order in which they are performed: registers come last, since a read may clear one and a lane that
fails must leave no effect (R188, R440; log entry 50, DEDUCED). A register is read at the register itself (R439), without the
fibre's own held stores to it (the same entry: R182 would have every held store seen); memory is read with them over it. -/
def loadOrder (s : State) (p : Place) (f : Fibre) (n : Nat) (ls : List OpLane) : List OpLane :=
  ((ls.filter fun l => !isReg s l).map fun l => { l with fwd := heldBytes s p f true l.pa n }) ++ ls.filter (isReg s)

/-- The load goes out: its destination is empty until every lane is filled (R151, R238). Its lanes take their values when
RESULT_WRITEBACK performs them, in whatever order of the fibre's loads those come (R186), with the held stores as they were at
issue (R182). `bad`: lanes that have failed already. -/
def issueLoad (s : State) (f : Fibre) (x : MemOp) (lane : Bool) (ls : List OpLane) (bad : List (Nat × Nat × Nat)) : State :=
  let p := s.here
  let n := accessSize x.t
  let acq := x.ord != .plain
  let seq := match f.dual with
    | some d => d.nload + 1
    | none => 0
  let vas := ls.map fun l => (l.lane, l.va)
  let r := sendPend s f x.r x.t.regs x.t []
  let q : Pend := { r.1 with
    mask := if lane then maskOf (ls.map OpLane.lane) else maskOf (passLanes s f p x.h.guard)
    size := n, acq, seq, wat := watchLanes s f true false n vas }
  let lead := match f.dual with
    | some d => d.lead
    | none => true
  let s := if f.dual.isSome then bumpLoad r.2 p else r.2
  let s := if !lead then
      match f.dual.bind (leaderVals s f) with
      | some vs => addPend ({ q with vals := vs }, s)
      | none => s
    else
      addPend ({ q with lanes := loadOrder s p f n ls, bad }, s)
  next (if acq then markAcq s p else s) p

/-- A trailing copy. -/
def isTrailer (f : Fibre) : Bool :=
  match f.dual with
  | some d => !d.lead
  | none => false

/-- Another load of the fibre waits for a line that this one names: loads of a fibre to one line perform in order (R251). -/
def sameLine (s : State) (f : Fibre) (ls : List OpLane) : Bool :=
  s.pends.any fun q => ofPiece s.here f q && !q.scratch && q.lanes.any fun m => ls.any fun l => lineNo m.pa == lineNo l.pa

/-- `ld.g` inside a span (R238, R241). -/
def loadG (s : State) (f : Fibre) (x : MemOp) : State :=
  let p := s.here
  let lane := x.r.isV
  let n := accessSize x.t
  let ls := memLanes s f x.h lane x.base x.off n
  let sc (s : State) : State := if x.ord = .sc then modF s p fun f => { f with scf := true } else s
  -- `ld.g.sc.fib` is `fence.sc.fib` and then the load
  if x.ord = .sc && hasPend s p then stall s p x.h
  else if ls.isEmpty then next (if x.ord != .plain then markAcq (sc s) p else s) p
  else
    let r := laneChecks s p f (cidOf s f) n { globalAsk s f (Ask.load n) with elemTy := some x.t } x.cpol ls
    let waits := match f.dual with
      | some d => !d.lead && (leaderVals s f d).isNone
      | none => false
    if !r.miss.isEmpty then stall (askWalks s p (cidOf s f) r.miss) p x.h
    -- an access that is made may fail in a lower lane than the checks (R440)
    else if !r.bad.isEmpty && (r.ok.all (isReg s) || isTrailer f) then accessFault s f x.h lane false (some (x.r, x.t.regs)) 1 r.bad
    else if sameLine s f r.ok || waits then stall s p x.h
    else
      let s := sc (fillTlb s p f (cidOf s f) r.ok)
      match getF s p with
      | some f => issueLoad s f x lane r.ok r.bad
      | none => s

/-! ### Operations that complete lane by lane (R180, R244) -/

/-- Begin such an operation: its lanes are checked, and it holds the fibre until it is done. `bad`: lanes that have failed
already. -/
def beginWith (s : State) (f : Fibre) (ls : List OpLane) (bad : List (Nat × Nat)) : State :=
  setF s s.here { f with op := some { pc := f.pc, stage := 0, lanes := ls, got := [], bad, aux := 0, rcd := 0 } }
def beginOp (s : State) (f : Fibre) (ls : List OpLane) : State := beginWith s f ls []

/-- A copy of a redundant pair after an instruction that forms a span of its own: the leader forwards the result, and the
number goes on, as in any fibre (R201, R416, R429). -/
def ownDone (s : State) (f : Fibre) (got : List (Nat × Nat)) (aux : Nat) : State :=
  match f.dual with
  | none => modF s s.here fun g => { g with spanNo := g.spanNo + 1 }
  | some d =>
    let q : Place := { core := d.core, berth := d.berth, fib := d.fib }
    let s := if d.lead then
        modF s q fun g => { g with dual := g.dual.map fun (e : Dual) => ({ e with results := e.results ++ [(f.spanNo, got, aux)] } : Dual) }
      else s
    modF s s.here fun g => { g with
      spanNo := g.spanNo + 1
      dual := g.dual.map fun (e : Dual) => ({ e with
        cleared := e.cleared.filter (· != f.spanNo), results := e.results.filter (fun r => r.1 != f.spanNo), nload := 0 } : Dual) }

/-- The result that the leader forwarded, in a trailer. -/
def forwarded (f : Fibre) : Option (List (Nat × Nat) × Nat) :=
  f.dual.bind fun d => if d.lead then none else (d.results.find? fun r => r.1 == f.spanNo).map Prod.snd

/-- Wait for an answer; the berth passes only with the prefix (R148). -/
def opWait (s : State) (h : Hdr) : State := stall s s.here h

/-- Send the request of the next lane. -/
def opSend (s : State) (f : Fibre) (pa : Nat) (op : HomeOp) (stamp : Nat := 0) (sy : Option Scope := none) : State :=
  let p := s.here
  let s := sendReq s p.core (cidOf s f) pa op (.op p) (fibTag s p f) stamp sy
  let b := getB s p.core p.berth
  if isLogged op then setB s p.core p.berth { b with ords := tset 0 b.ords f.root (tget 0 b.ords f.root + 1) } else s

/-- Orders that drain before the access, and orders that act as `fence.sc` after it (R241, R247). -/
def drains (o : Order) : Bool := o == .rel || o == .acqrel || o == .sc
def setSc (s : State) (o : Order) : State := if o = .sc then modF s s.here fun f => { f with scf := true } else s

/-- The drains of a release are still under way. -/
def mustWaitDrain (s : State) (o : Order) (sc : Scope) : Bool := drains o && !drained s s.here.core sc

/-- Raw loaded bits as they are written (R38, R237). The two bits of a t6x5 lane that hold no element are written 0, whatever
memory holds (R40, R64; log entry 45, DEDUCED). -/
def loadVal (t : Ty) (d : Opnd) (v : Nat) : Nat :=
  let w := match t with
    | .i8 => sextTo 32 8 v
    | .i16 => sextTo 32 16 v
    | .t6x5 => v % 2 ^ 30
    | _ => v
  if t.regs = 1 then wide1 d t 1 w else w

/-- Registers that a commit-point instruction of a redundant pair writes while older spans have not been compared: the youngest of
those logs them, so that going back to one of them restores them (R418). -/
def logLate (s : State) (p : Place) (o : Opnd) (n : Nat) : State :=
  match getF s p with
  | none => s
  | some f =>
    let ent (r : RegRef) : UndoEnt := { ref := r, oldV := (refNow s r).1, oldS := (refNow s r).2, mask := undoMask s p f }
    let log (u : Uncompared) : Uncompared := { u with span := { u.span with undo := (refsOf s f p o n).foldl (fun l r => addUndo l (ent r)) u.span.undo } }
    setF s p { f with dual := f.dual.map fun (d : Dual) => ({ d with
      unc := d.unc.dropLast ++ (d.unc.drop (d.unc.length - 1)).map log } : Dual) }

/-- `ld.g.sc` of `grp` scope or wider (R241). -/
def loadSc (s : State) (f : Fibre) (x : MemOp) : State :=
  let p := s.here
  let lane := x.r.isV
  let n := accessSize x.t
  let ls := memLanes s f x.h lane x.base x.off n
  let fin (s : State) (vs : List (Nat × Nat)) : State :=
    let s := if f.dual.isSome then bumpLoad s p else s
    let s := setSc (writeReg (logLate s p x.r x.t.regs) p x.r x.t.regs (vs.map fun e => (e.1, loadVal x.t x.r e.2)) false) x.ord
    match watchLanes s f true false n ls with
    | [] => nextX s p
    | ws => watchFault s f x.h lane true (some (x.r, x.t.regs)) 1 ws
  match f.op with
  | none =>
    let r := laneChecks s p f (cidOf s f) n { globalAsk s f (Ask.load n) with elemTy := some x.t } x.cpol ls
    if !r.miss.isEmpty then stall (askWalks s p (cidOf s f) r.miss) p x.h
    else if !r.bad.isEmpty && (isTrailer f || r.ok.all (isReg s)) then
      accessFault s f x.h lane true (some (x.r, x.t.regs)) 1 r.bad
    else if isTrailer f && !ls.isEmpty then
      match f.dual.bind (leaderVals s f) with
      | some vs => fin s vs
      | none => stall s p x.h
    else
      beginWith (fillTlb s p f (cidOf s f) r.ok) f (loadOrder s p f n r.ok)
        (r.bad.map fun e => (e.1, e.2.1))
  | some o =>
    if opOut s p then opWait s x.h
    else if mustWaitDrain s x.ord x.sc then stall (startDrains s p.core x.sc) p x.h
    else
      match o.lanes with
      | l :: rest =>
        if isReg s l && !o.bad.isEmpty then setF s p { f with op := some { o with lanes := rest } }
        else if isReg s l then
          let v := regRead s (localAddr l.pa) n
          setF v.2 p { f with spin := (0, 0, 0), op := some { o with lanes := rest, got := o.got ++ [(l.lane, v.1)] } }
        else opSend (endSpin (sendLine s p.core (lineNo l.pa)) p) f l.pa (.load n)
      | [] =>
        if ls.isEmpty then nextX (setSc s x.ord) p
        else if !o.bad.isEmpty then
          accessFault s f x.h lane true (some (x.r, x.t.regs)) 1
            (o.bad.map fun e => (e.1, e.2, ((ls.find? fun l => l.1 == e.1).map Prod.snd).getD 0))
        else
          let s := modF s p fun f => { f with dual := f.dual.map fun (d : Dual) =>
            if d.lead then ({ d with loads := d.loads ++ [(f.spanNo, d.nload + 1, o.got)] } : Dual) else d }
          fin s o.got

/-- `ld.g` (R238, R241). -/
def execLdG (x : MemOp) (s : State) : Out :=
  run (.ldG x) s fun s f => if x.ord = .sc ∧ wide x.sc then loadSc s f x else loadG s f x

/-! ### Stores (R239) -/

/-- The bytes that a lane stores; the two bits of a t6x5 lane that hold no element are stored 0 (R40; log entry 45, DEDUCED). -/
def dataBytes (s : State) (f : Fibre) (r : Opnd) (t : Ty) (lane : Nat) : List Byte :=
  let v := opVal s f s.here r t.regs lane
  bytesOf (accessSize t) (if t = .t6x5 then v % 2 ^ 30 else v)

/-- Every older access is complete before a younger one performs: a release store orders the loads around it, too (R241). -/
def relStore (s : State) (p : Place) (o : Order) : State := if o = .plain then s else markAcq s p

/-- The hold entry of a store (R182, R200). -/
def storeEnt (f : Fibre) (k : HoldKind) (x : MemOp) (lane : Bool) (ls : List HoldLane) : HoldEnt :=
  { kind := k, pc := f.pc
    mask := if ls.isEmpty then 0 else if lane then maskOf (ls.map HoldLane.lane) else 1
    lanes := if lane then ls else ls.map fun l => { l with lane := scalarLane }
    ord := x.ord, sc := x.sc, remap := false }

def holdLane (s : State) (f : Fibre) (x : MemOp) (l : OpLane) : HoldLane :=
  { lane := l.lane, va := l.va, pa := l.pa, trk := l.trk, pol := l.pol, comm := l.comm, bytes := dataBytes s f x.r x.t l.lane }

/-- `st.g` inside a span: into the hold (R239, R249). -/
def storeG (s : State) (f : Fibre) (x : MemOp) : State :=
  let p := s.here
  let lane := x.r.isV
  let n := accessSize x.t
  let ls := memLanes s f x.h lane x.base x.off n
  if ls.isEmpty then next (if x.ord = .plain then s else holdPut (relStore s p x.ord) p (storeEnt f .stG x lane [])) p
  else
    let r := laneChecks s p f (cidOf s f) n (globalAsk s f (Ask.store n)) x.cpol ls
    if !r.miss.isEmpty then stall (askWalks s p (cidOf s f) r.miss) p x.h
    else if !r.bad.isEmpty then accessFault s f x.h lane false none 2 r.bad
    else
      let s := holdPut (relStore (fillTlb s p f (cidOf s f) r.ok) p x.ord) p (storeEnt f .stG x lane (r.ok.map (holdLane s f x)))
      match watchLanes s f false true n ls with
      | [] => next s p
      | ws => watchFault s f x.h lane false none 2 ws

/-- `st.g.sc` of `grp` scope or wider: performed as a release, with no hold entry (R241). -/
def storeSc (s : State) (f : Fibre) (x : MemOp) : State :=
  let p := s.here
  let lane := x.r.isV
  let n := accessSize x.t
  let ls := memLanes s f x.h lane x.base x.off n
  let fin (s : State) : State :=
    -- a store that its home has accepted (R379)
    let s := if ls.isEmpty || isTrailer f then s else pulse s (cidOf s f)
    let s := setSc (ownDone s f [] 0) x.ord
    match watchLanes s f false true n ls with
    | [] => nextX s p
    | ws => watchFault s f x.h lane true none 2 ws
  match f.op with
  | none =>
    let r := laneChecks s p f (cidOf s f) n (globalAsk s f (Ask.store n)) x.cpol ls
    if !r.miss.isEmpty then stall (askWalks s p (cidOf s f) r.miss) p x.h
    else if !r.bad.isEmpty then accessFault s f x.h lane true none 2 r.bad
    else if isTrailer f then fin s
    else
      let s' := beginOp (fillTlb s p f (cidOf s f) r.ok) f (r.ok.map fun l => { l with fwd := (dataBytes s f x.r x.t l.lane).map some })
      -- the store gets its number (R61)
      modF { s' with nextId := s'.nextId + 1 } p fun g => { g with op := g.op.map fun (o : OpRun) => ({ o with stamp := s'.nextId } : OpRun) }
  | some o =>
    if opOut s p then opWait s x.h
    else if mustWaitDrain s x.ord x.sc then stall (startDrains s p.core x.sc) p x.h
    else
      match o.lanes with
      | l :: rest =>
        let b := l.fwd.filterMap id
        let pop (s : State) : State := modF s p fun f => { f with op := some { o with lanes := rest } }
        if rngOf s l.pa = .regs then (if cmdBusy s (localAddr l.pa) then stall s p x.h else pop (regWrite s .priv (localAddr l.pa) n (natOf b)))
        else if l.trk && l.pol != .noL1 && isOwn s l.pa then
          match getCopy s p.core (lineNo l.pa) with
          | some cp =>
            if cp.owned then pop (storeOwned s p.core (lineNo l.pa) cp (l.pa % 128) b o.stamp)
            else opSend s f (l.pa / 128 * 128) .own
          | none => opSend s f (l.pa / 128 * 128) .own
        else opSend s f l.pa (.store b) o.stamp
      | [] =>
        if o.bad.isEmpty then fin s
        else
          accessFault s f x.h lane true none 2
            (o.bad.map fun e => (e.1, e.2, ((ls.find? fun l => l.1 == e.1).map Prod.snd).getD 0))

/-- `st.g` (R239, R241). -/
def execStG (x : MemOp) (s : State) : Out :=
  run (.stG x) s fun s f => if x.ord = .sc ∧ wide x.sc then storeSc s f x else storeG s f x

/-! ### The scratchpad (R239, R277) -/

/-- Bytes of the group's scratchpad allocation. -/
def scratchSize (s : State) (f : Fibre) : Nat := partScr (descOf s f) * 65536

/-- Faults of scratchpad lanes: alignment before the bound (R440). -/
def scratchBad (s : State) (f : Fibre) (n : Nat) (ls : List (Nat × Nat)) : List (Nat × Nat × Nat) :=
  ls.filterMap fun l =>
    if l.2 % n ≠ 0 then some (l.1, 6, l.2) else if scratchSize s f ≤ l.2 then some (l.1, 7, l.2) else none

def scratchRd (s : State) (f : Fibre) (a n : Nat) : List Byte :=
  match groupOf s f with
  | some g => memRd g.scratch a n
  | none => bytesOf n 0

/-- Scratchpad bytes with the held stores that a lane sees over them. -/
def scratchSeen (s : State) (f : Fibre) (l : OpLane) (n : Nat) : Nat :=
  natOf (((scratchRd s f l.va n).zip l.fwd).map fun e => e.2.getD e.1)

/-- An older `ld.x` of the fibre that is not yet performed reads some of these bytes: loads of the same bytes perform in order. -/
def sameScratch (s : State) (f : Fibre) (ls : List (Nat × Nat)) (n : Nat) : Bool :=
  s.pends.any fun q => ofPiece s.here f q && q.scratch && !q.acc && q.lanes.any fun m => ls.any fun l => m.va < l.2 + n && l.2 < m.va + q.size

/-- `ld.x` (R238, R277). -/
def execLdX (x : MemOp) (s : State) : Out :=
  run (.ldX x) s fun s f =>
    let p := s.here
    let lane := x.r.isV
    let n := accessSize x.t
    let ls := memLanes s f x.h lane x.base x.off n
    let acq (s : State) : State := if x.ord != .plain then markAcq s p else s
    match ls, scratchBad s f n ls with
    | [], _ => next (acq s) p
    | _, [] =>
      if sameScratch s f ls n then stall s p x.h
      else
        let r := sendPend s f x.r x.t.regs x.t []
        let q : Pend := { r.1 with
          mask := if lane then maskOf (ls.map Prod.fst) else maskOf (passLanes s f p x.h.guard)
          size := n, acq := x.ord != .plain, scratch := true
          lanes := ls.map fun l =>
            { lane := l.1, va := l.2, pa := l.2, trk := false, pol := .normal, comm := none, fwd := heldBytes s p f false l.2 n, b := 0, c := 0 } }
        next (acq (addPend (q, r.2))) p
    | _, bad => accessFault s f x.h lane false (some (x.r, x.t.regs)) 1 bad

/-- `st.x` (R239, R249, R277). -/
def execStX (x : MemOp) (s : State) : Out :=
  run (.stX x) s fun s f =>
    let p := s.here
    let lane := x.r.isV
    let n := accessSize x.t
    let ls := memLanes s f x.h lane x.base x.off n
    match ls, scratchBad s f n ls with
    | [], _ => next (if x.ord = .plain then s else holdPut (relStore s p x.ord) p (storeEnt f .stX x lane [])) p
    | _, [] =>
      let hl (l : Nat × Nat) : HoldLane :=
        { lane := l.1, va := l.2, pa := l.2, trk := false, pol := .normal, comm := none, bytes := dataBytes s f x.r x.t l.1 }
      next (holdPut (relStore s p x.ord) p (storeEnt f .stX x lane (ls.map hl))) p
    | _, bad => accessFault s f x.h lane false none 2 bad

/-! ### Performing a load (R186, R188, R222, R229) -/

/-- A load that is being performed: lanes still to do, lines asked for, values. -/
structure Perform where
  s : State
  vals : List (Nat × Nat)
  lanes : List OpLane
  asked : List Nat

/-- Perform one lane, or ask for its line. In pilot gear a lane waits for the one below it. An access of 16 bytes is performed
whole, where R237 and R268 let its halves come from different writes (log entry 7, DEDUCED). -/
def performLane (f : Fibre) (q : Pend) (r : Perform) (l : OpLane) : Perform :=
  let line := lineNo l.pa
  let later : Perform := { r with lanes := r.lanes ++ [l] }
  if q.scratch then { r with vals := r.vals ++ [(l.lane, scratchSeen r.s f l q.size)] }
  else if isReg r.s l then later
  else if r.asked.contains line || (q.pilot && !r.lanes.isEmpty) then later
  else
    match if atHome r.s f l then none else hitCopy r.s q.core l with
    | some cp => { r with s := seeTide r.s q.core cp.wt, vals := r.vals ++ [(l.lane, laneBytes l q.size cp.data)] }
    | none => { later with s := askLine f q.core q.id r.s l, asked := r.asked ++ [line] }

/-- The next element of an `accld` is read, with the entry that was held over it at issue (R182, R333): between two elements the
matrix engine may act (R324). -/
def performElem (s : State) (f : Fibre) (q : Pend) : Pend :=
  match q.lanes, groupOf s f with
  | l :: rest, some g =>
    let v := (if l.fwd.isEmpty then (accGet g l.va l.pa).toNat else natOf (l.fwd.filterMap id)) * 2 ^ (32 * l.b)
    let old := ((q.vals.find? fun e => e.1 == l.lane).map Prod.snd).getD 0
    { q with lanes := rest, vals := (q.vals.filter fun e => e.1 != l.lane) ++ [(l.lane, old + v)] }
  | _, _ => { q with lanes := [] }

/-- Perform what can be performed of a load. The clock of a spinning fibre is raised before it can hit its line again (R227). -/
def performLoad (s : State) (p : Place) (f : Fibre) (q : Pend) : Pend × State :=
  if q.acc then (performElem s f q, s)
  else
  let spins : Bool := !q.scratch && q.lanes.any (fun l => l.trk && lineNo l.pa == f.spin.1) && spinDue s p f
  let s := if spins then spinNudge s p f else s
  let r := q.lanes.foldl (performLane f q) { s, vals := [], lanes := [], asked := q.asked }
  let s := if q.scratch || !q.asked.isEmpty then r.s else countSpin r.s p q.lanes r.lanes.isEmpty
  readRegs { q with lanes := r.lanes, asked := r.asked, vals := q.vals ++ r.vals } s
where
  /-- the registers are read once every other lane has succeeded; where one has failed they are not read -/
  readRegs (q : Pend) (s : State) : Pend × State :=
    if q.scratch || !q.lanes.all (isReg s) then (q, s)
    else if !q.bad.isEmpty then ({ q with lanes := [] }, s)
    else
      q.lanes.foldl
        (fun (r : Pend × State) l =>
          let v := regRead r.2 (localAddr l.pa) q.size
          ({ r.1 with lanes := [], vals := r.1.vals ++ [(l.lane, v.1)] }, v.2)) (q, s)

/-! ### Prefetch, lease, discard (R231, R240) -/

/-- Request the lines of lanes that can be translated and read; `len`: the lease length. -/
def touch (s : State) (f : Fibre) (h : Hdr) (cpol : CPol) (base : Opnd) (off : Src) (len : Nat) : State :=
  let p := s.here
  let r := laneChecks s p f (cidOf s f) 1 (Ask.load 1) cpol (memLanes s f h base.isV base off 0)
  if !r.miss.isEmpty then stall (askWalks s p (cidOf s f) r.miss) p h
  else
    -- a policy changes nothing on a peer line (R230)
    let ls := r.ok.filter fun l => l.trk && !(isOwn s l.pa && l.pol == .noL1)
    let s := fillTlb s p f (cidOf s f) r.ok
    next
      ((ls.map fun l => lineNo l.pa).dedup.foldl
        (fun s line =>
          match ls.find? fun l => lineNo l.pa == line with
          | none => s
          | some l =>
            match hitCopy s p.core l with
            | some cp => seeTide s p.core cp.wt
            | none =>
              let s := sendLine s p.core line
              sendReq s p.core (cidOf s f) (line * 128) (.lease ((getCopy s p.core line).map Copy.wt) len) (.fill p.core)) s) p

/-- `pf` (R240). -/
def execPf (h : Hdr) (cpol : CPol) (base : Opnd) (off : Src) (s : State) : Out :=
  run (.pf h cpol base off) s fun s f => touch s f h cpol base off (leaseOf s (cidOf s f))

/-- `lease` (R240): 16 × 2^e tides. -/
def execLease (h : Hdr) (base : Opnd) (off : Src) (e : BitVec 4) (s : State) : Out :=
  run (.lease h base off e) s fun s f => touch s f h .normal base off (16 * 2 ^ e.toNat)

/-- `dsc` (R231): performed when its entry is released. -/
def execDsc (h : Hdr) (base : Opnd) (off : Src) (s : State) : Out :=
  run (.dsc h base off) s fun s f =>
    let lane := base.isV
    let hl (l : Nat × Nat) : HoldLane :=
      { lane := if lane then l.1 else scalarLane, va := l.2, pa := 0, trk := false, pol := .normal, comm := none, bytes := [] }
    match memLanes s f h lane base off 0 with
    | [] => next s s.here
    | ls =>
      next (holdPut s s.here
        { kind := .dsc, pc := f.pc, mask := if lane then maskOf (ls.map Prod.fst) else 1, lanes := ls.map hl, ord := .plain, sc := .fib,
          remap := false }) s.here

/-! ### Fences and promotions (R241, R242) -/

/-- `fence` (R241). -/
def execFence (h : Hdr) (ord : Order) (sc : Scope) (s : State) : Out :=
  run (.fence h ord sc) s fun s _ =>
    let p := s.here
    if !wide sc then next (setSc (markAcq s p) ord) p
    else if mustWaitDrain s ord sc then stall (startDrains s p.core sc) p h
    else nextX (setSc s ord) p

/-- `prom` (R242). -/
def execProm (h : Hdr) (sc : Scope) (d : Opnd) (a : Opnd) (s : State) : Out :=
  run (.prom h sc d a) s fun s f =>
    let p := s.here
    let fin (s : State) (v : Nat) : State := nextX (ownDone (writeReg s p d 2 [(0, v)] false) f [] v) p
    match f.op with
    | none =>
      let v := opVal s f p a 2 0
      let pa := v / 1024 % 512 * 2 ^ 47 + v % 1024
      match forwarded f with
      | some r => fin s r.2
      | none =>
        if !isReach s pa then xFault s f (some (d, 2)) 0x10 3 f.amask []
        else
          opSend (beginOp s f []) f pa (.prom (v % 1024) sc)
    | some o =>
      if opOut s p then opWait s h
      else if !o.bad.isEmpty then xFault s f (some (d, 2)) 0x10 3 f.amask []
      else fin s o.aux

/-! ### Contributions (R233, R234, R243) -/

/-- Fold one lane's data into the core's partial of the line. -/
def contributeLane (core cop n : Nat) (s : State) (l : OpLane) : State :=
  let line := lineNo l.pa
  let s := match tfind (getC s core).parts line with
    | some q => if q.cop = cop then s else sendLine s core line
    | none => s
  let w := copSize cop
  let es : Tab PElem := (List.range (n / w)).map fun j => (l.pa % 128 + j * w, contribute cop (l.b / 2 ^ (8 * w * j) % 2 ^ (8 * w)))
  let x := getC s core
  let old := match tfind x.parts line with
    | some q => q.elems
    | none => []
  setC s core { x with parts := tput x.parts line { cop, elems := mergeElems cop old es } }

/-- A contribution of every passing lane. -/
def contributeAll (s : State) (f : Fibre) (h : Hdr) (t : Ty) (cop : Nat) (data base : Opnd) (off : Src) : State :=
  let p := s.here
  let lane := data.isV
  let n := accessSize t
  let ls := memLanes s f h lane base off n
  let r := laneChecks s p f (cidOf s f) n { Ask.both n with wantCop := some cop } .normal ls
  if !r.miss.isEmpty then stall (askWalks s p (cidOf s f) r.miss) p h
  else if !r.bad.isEmpty then accessFault s f h lane true none 3 r.bad
  else
    let s := fillTlb s p f (cidOf s f) r.ok
    let s := if isTrailer f then s
      else r.ok.foldl (fun s l => contributeLane p.core cop n s { l with b := opVal s f p data t.regs l.lane }) s
    -- a contribution writes (R379)
    let s := ownDone (if r.ok.isEmpty || isTrailer f then s else pulse s (cidOf s f)) f [] 0
    match watchLanes s f false true n ls with
    | [] => nextX s p
    | ws => watchFault s f h lane true none 3 ws

/-- The declared operation of a `cadd` type (R233). -/
def caddCop (t : Ty) : Nat :=
  match t with
  | .f32 => 0
  | .bf16x2 => 1
  | .i64 => 3
  | _ => 2

/-- `cadd` (R243). -/
def execCadd (h : Hdr) (t : Ty) (data : Opnd) (base : Opnd) (off : Src) (s : State) : Out :=
  run (.cadd h t data base off) s fun s f => contributeAll s f h t (caddCop t) data base off
/-- `cmin` (R243). -/
def execCmin (h : Hdr) (t : Ty) (data : Opnd) (base : Opnd) (off : Src) (s : State) : Out :=
  run (.cmin h t data base off) s fun s f => contributeAll s f h t 4 data base off
/-- `cmax` (R243). -/
def execCmax (h : Hdr) (t : Ty) (data : Opnd) (base : Opnd) (off : Src) (s : State) : Out :=
  run (.cmax h t data base off) s fun s f => contributeAll s f h t 5 data base off

/-! ### Atomics (R244, R245, R247) -/

/-- An atomic that has returned in every lane: results, then MEM_ERROR or LINK of the lanes that failed (RETRY 0) or WATCH. -/
def atomFin (s : State) (f : Fibre) (x : AtomOp) (ls : List (Nat × Nat)) (got bad : List (Nat × Nat)) : State :=
  let p := s.here
  let lane := x.d.isV
  -- an unanswered request leaves the destination as it was (R407)
  let got := if bad.any (fun e => e.2 == 0x10) then [] else got
  let s := writeReg s p x.d x.t.regs (got.map fun e => (e.1, wide1 x.d x.t x.t.regs e.2)) false
  let s := setSc (ownDone s f got 0) x.ord
  match pickFault (bad.map fun e => (e.1, e.2, ((ls.find? fun l => l.1 == e.1).map Prod.snd).getD 0)) with
  | some (c, m, as) =>
    let r := faultLanes s f x.h lane m as
    raise s p { faultInfo f (some (x.d, x.t.regs)) with cls := c, mask := r.1, addrs := r.2, acc := 3, retry := false, pos := 0 }
  | none =>
    match watchLanes s f true true (4 * x.t.regs) ls with
    | [] => nextX s p
    | ws => watchFault s f x.h lane true (some (x.d, x.t.regs)) 3 ws

/-- One step of an atomic. -/
def atomStep (s : State) (f : Fibre) (x : AtomOp) (c : Option Opnd) (major : Nat) : State :=
  let p := s.here
  let lane := x.d.isV
  let n := 4 * x.t.regs
  let ls := memLanes s f x.h lane x.base (.imm 0) 0
  let cOf (l : Nat) : Nat := match c with
    | some o => opVal s f p o x.t.regs l
    | none => 0
  match f.op with
  | none =>
    let r := laneChecks s p f (cidOf s f) n (Ask.both n) .normal ls
    if !r.miss.isEmpty then stall (askWalks s p (cidOf s f) r.miss) p x.h
    else if !r.bad.isEmpty then accessFault s f x.h lane true (some (x.d, x.t.regs)) 3 r.bad
    else
      match forwarded f with
      | some q => atomFin s f x ls q.1 []
      | none =>
        beginOp (fillTlb s p f (cidOf s f) r.ok) f
          (r.ok.map fun l => { l with b := opVal s f p x.b x.t.regs l.lane, c := cOf l.lane })
  | some o =>
    if opOut s p then opWait s x.h
    else if mustWaitDrain s x.ord x.sc then stall (startDrains s p.core x.sc) p x.h
    else
      match o.lanes with
      | l :: _ => opSend s f l.pa (.atomic major x.t l.lane f.pc l.b l.c)
      | [] => atomFin s f x ls o.got o.bad

/-- `atom.add` (R245). -/
def execAtomAdd (x : AtomOp) (s : State) : Out := run (.atomAdd x) s fun s f => atomStep s f x none 0x90
/-- `atom.sub` (R245). -/
def execAtomSub (x : AtomOp) (s : State) : Out := run (.atomSub x) s fun s f => atomStep s f x none 0x91
/-- `atom.min` (R245). -/
def execAtomMin (x : AtomOp) (s : State) : Out := run (.atomMin x) s fun s f => atomStep s f x none 0x92
/-- `atom.max` (R245). -/
def execAtomMax (x : AtomOp) (s : State) : Out := run (.atomMax x) s fun s f => atomStep s f x none 0x93
/-- `atom.and` (R245). -/
def execAtomAnd (x : AtomOp) (s : State) : Out := run (.atomAnd x) s fun s f => atomStep s f x none 0x94
/-- `atom.or` (R245). -/
def execAtomOr (x : AtomOp) (s : State) : Out := run (.atomOr x) s fun s f => atomStep s f x none 0x95
/-- `atom.xor` (R245). -/
def execAtomXor (x : AtomOp) (s : State) : Out := run (.atomXor x) s fun s f => atomStep s f x none 0x96
/-- `atom.xchg` (R245). -/
def execAtomXchg (x : AtomOp) (s : State) : Out := run (.atomXchg x) s fun s f => atomStep s f x none 0x97
/-- `atom.cas` (R245). -/
def execAtomCas (x : AtomOp) (c : Opnd) (s : State) : Out := run (.atomCas x c) s fun s f => atomStep s f x (some c) 0x98
/-- `atom.inc` (R245). -/
def execAtomInc (x : AtomOp) (s : State) : Out := run (.atomInc x) s fun s f => atomStep s f x none 0x99
/-- `atom.dec` (R245). -/
def execAtomDec (x : AtomOp) (s : State) : Out := run (.atomDec x) s fun s f => atomStep s f x none 0x9A
/-- `atom.fadd` (R245). -/
def execAtomFadd (x : AtomOp) (s : State) : Out := run (.atomFadd x) s fun s f => atomStep s f x none 0x9B

end Sys2Proof.Machine
end

