-- ==== Sys2Proof/Machine/Engine.lean ====
section
/-! DEFINITION. Engine commands: how they are counted and reported, and what copy channels and gather engines do (R259, R279 to
R281, R289 to R291). -/
namespace Sys2Proof.Machine

/-! ### Counting (R259) -/

def clsNo (c : OcClass) : Nat :=
  match c with
  | .copy => 0
  | .matrix => 1
  | .gath => 2
  | .coll => 3

def ocOf (f : Fibre) (c : OcClass) : Nat := f.oc.getD (clsNo c) 0
def issuedOf (f : Fibre) (c : OcClass) : Nat := f.issued.getD (clsNo c) 0

/-- A command is issued: its class's counter rises by 1. -/
def countIssue (f : Fibre) (c : OcClass) : Fibre :=
  { f with oc := f.oc.set (clsNo c) (ocOf f c + 1), issued := f.issued.set (clsNo c) (issuedOf f c + 1) }

/-- The fibre whose command it is; none where it has ended. -/
def ownerPlace (core berth fib : Nat) : Option Place := if fib < 8 then some { core, berth, fib } else none

/-- A command of the fibre is counted complete, and a `wait` that this meets goes on (R292). -/
def countDone (s : State) (p : Place) (c : OcClass) (fail : Option EngFail) : State :=
  let s := modF s p fun f => { f with oc := f.oc.set (clsNo c) (ocOf f c - 1), fails := f.fails ++ fail.toList }
  match getF s p with
  | some f => wakeWait s p fun w => match w with
    | .wait d n => d == c && ocOf f c ≤ n.toNat
    | _ => false
  | none => s

/-- Writes of the command that have not been accepted. -/
def engOut (s : State) (id : Nat) : Bool :=
  let ofCmd (c : Cont) : Bool := match c with
    | .eng i _ => i == id
    | _ => false
  s.reqs.any (fun r => ofCmd r.cont) || s.replies.any fun x => ofCmd x.req.cont

/-- In a trailing copy a command is done when the leader's is (R201). -/
def cmdDone (s : State) (c : Cmd) : Bool :=
  match c.of with
  | none => c.done && !engOut s c.id && !queued
  | some i => (s.cmds.find? fun d => d.id == i).all fun d => d.counted
where
  /-- it has not left its engine's queue, where the rest of a failed copy is passed over first (R281) -/
  queued : Bool := (getC s c.core).gathq.contains c.id || (getC s c.core).chans.any fun q => q.queue.contains c.id

/-- Failing address of a command, the leader's for one that follows it. -/
def cmdFail (s : State) (c : Cmd) : Option Nat :=
  match c.of with
  | none => c.fail
  | some i => (s.cmds.find? fun d => d.id == i).bind Cmd.fail

/-- Count the commands of one fibre and class that are complete, in issue order; a command behind one that is not waits. -/
def countCmds : Nat → State → Nat → Nat → Nat → OcClass → State
  | 0, s, _, _, _, _ => s
  | n + 1, s, core, berth, fib, cls =>
    match s.cmds.find? fun c => c.core == core && c.berth == berth && c.fib == fib && c.cls == cls && !c.counted with
    | none => s
    | some c =>
      if !cmdDone s c then s
      else
        let fail := cmdFail s c
        -- a leader's command stays until the trailer's has followed it
        let follows := c.of.isNone && ((getG s c.grp).any fun g => g.partner.isSome)
        let s := { s with cmds := s.cmds.filterMap fun d =>
          if d.id == c.id then (if follows then some ({ d with counted := true } : Cmd) else none)
          else if c.of == some d.id then none else some d }
        let s := if fail.isNone then pulse s c.cid else s
        let s := match ownerPlace core berth fib with
          | some p => countDone s p cls (fail.map fun va => { cls, num := c.num, va, late := false, st := { word := 0, addr := 0, fail := 0, steps := 0 } })
          | none => s
        countCmds n s core berth fib cls

/-- A command has moved everything it moves, or is abandoned. -/
def finishCmd (s : State) (id : Nat) (fail : Option Nat) : State :=
  let s := { s with cmds := s.cmds.map fun d => if d.id == id then ({ d with done := true, fail := fail.orElse fun _ => d.fail } : Cmd) else d }
  due (farDrop s id) (.engineCommandComplete id)

/-- Count a finished command, those behind it, and those of a trailing copy that follow it. -/
def completeCmd (s : State) (id : Nat) : State :=
  match s.cmds.find? fun c => c.id == id with
  | none => s
  | some c =>
    let followers := s.cmds.filter fun d => d.of == some id
    let s := countCmds (s.cmds.length + 1) s c.core c.berth c.fib c.cls
    let s := followers.foldl (fun s d => countCmds (s.cmds.length + 1) s d.core d.berth d.fib d.cls) s
    followers.foldl (fun s d => groupEnd s d.grp) (groupEnd s c.grp)

/-! ### Global accesses of an engine (R259, R281, R289) -/

/-- The core's partials of the lines of a run go ahead of a load of them (R234). -/
def sendRun (s : State) (core cid va n : Nat) : State :=
  if (getC s core).parts.isEmpty then s
  else
    (List.range ((va % 128 + n + 127) / 128)).foldl
      (fun s i =>
        let x := xlatNow s core cid ((va / 128 + i) * 128)
        if x.1.cls = 0 then flushPart x.2 core (lineNo (leafPa x.1 ((va / 128 + i) * 128))) else x.2) s

/-- A tracked line of this module as a load by the core brings it (R222): its L1's copy while that may be used, else a lease, for
which another core's ownership is recalled. -/
def lineNow (s : State) (core cid pa : Nat) : Answer × State :=
  let line := lineNo pa
  match (getCopy s core line).filter fun c => c.owned || clockOf s core ≤ c.lt with
  | some c => ({ data := lineRd c.data 0 128, wt := c.wt, lt := c.lt, status := 0, cls := 0 }, seeTide s core c.wt)
  | none =>
    let r := homeLease (recallNow s line) line (clockOf s core) (leaseOf s cid)
    if r.1.cls ≠ 0 then r else (r.1, putLeased (seeTide r.2 core r.1.wt) core line r.1)

/-- Part of one line as an engine loads it, at the issuing core's clock (R259, R289): a tracked line by R222, another by R229, the
core's partials ahead of it (R234). -/
def engLine (s : State) (owner core cid : Nat) (pol : CPol) (va n : Nat) : Got × State :=
  let x := xlatNow s core cid va
  let c := if x.1.cls ≠ 0 then x.1.cls else rightsCls x.2 (Ask.load 4) x.1 va
  let pa := leafPa x.1 va
  if c ≠ 0 then (.fail c, x.2)
  else
    let s := flushPart x.2 core (lineNo pa)
    if !isOwn s pa then farGet s owner core cid pa n
    else if pteTrk x.1.pte.toNat && effPol pol x.1.pte.toNat != .noL1 then
      let r := lineNow s core cid pa
      if r.1.cls ≠ 0 then (.fail r.1.cls, r.2) else (.ok ((r.1.data.drop (pa % 128)).take n), r.2)
    else
      let r := readNow s pa n
      if r.1.cls ≠ 0 then (.fail r.1.cls, r.2) else (.ok r.1.data, seeTide r.2 core r.1.wt)

/-- Loads of an engine, line by line; with a failure comes its address. -/
def engLines : Nat → State → Nat → Nat → Nat → CPol → Nat → Nat → Got × Nat × State
  | 0, s, _, _, _, _, va, _ => (.ok [], va, s)
  | fuel + 1, s, owner, core, cid, pol, va, n =>
    if n = 0 then (.ok [], va, s)
    else
      let k := min n (128 - va % 128)
      let g := engLine s owner core cid pol va k
      match g.1 with
      | .ok b =>
        let r := engLines fuel g.2 owner core cid pol (va + k) (n - k)
        match r.1 with
        | .ok t => (.ok (b ++ t), r.2.1, r.2.2)
        | x => (x, r.2.1, r.2.2)
      | x => (x, va, g.2)
def engLoad (s : State) (owner core cid : Nat) (pol : CPol) (va n : Nat) : Got × Nat × State :=
  engLines (n / 128 + 2) s owner core cid pol va n

/-- Read for a command. -/
def engRead (s : State) (c : Cmd) (va n : Nat) : Got × Nat × State := engLoad s c.id c.core c.cid c.pol va n

/-- A store accepted at its home by R223: into the core's owned copy, which is granted first where it has none. -/
def ownStore (s : State) (core pa : Nat) (bytes : List Byte) (stamp : Nat := 0) : State :=
  let line := lineNo pa
  match (getCopy s core line).filter Copy.owned with
  | some cp => storeOwned s core line cp (pa % 128) bytes stamp
  | none =>
    let r := homeOwn (recallNow s line) line (clockOf s core) core
    storeOwned r.2 core line { owned := true, data := lineOfBytes r.1.data, wt := r.1.wt, lt := r.1.wt, dirty := 0 } (pa % 128) bytes stamp

/-- A global write of a command within one line (R289): the class of a failure, 0 for none. A peer's part leaves as a packet. -/
def engWrite (s : State) (c : Cmd) (va : Nat) (bytes : List Byte) : Nat × State :=
  let a := accessNow s c.core c.cid va (Ask.store 4)
  if a.1 ≠ 0 then (a.1, a.2.2)
  else if !isReach a.2.2 a.2.1 then (0x10, a.2.2)
  else if !isOwn s a.2.1 then (0, sendReq a.2.2 c.core c.cid a.2.1 (.store bytes) (.eng c.id va) (stamp := c.id))
  else
    let e := (xlatNow a.2.2 c.core c.cid va).1.pte.toNat
    if pteTrk e && effPol c.pol e != .noL1 then (0, ownStore a.2.2 c.core a.2.1 bytes c.id) else (0, writeNow a.2.2 c.core a.2.1 bytes c.id)

/-- The first line of a run at which a command's accesses would fail: class and address, or a line of a peer that is not there
yet. -/
def runBad : Nat → State → Cmd → Nat → Nat → Got × Nat × State
  | 0, s, _, va, _ => (.ok [], va, s)
  | k + 1, s, c, va, n =>
    if n = 0 then (.ok [], va, s)
    else
      let a := accessNow s c.core c.cid va (if c.out then Ask.store 4 else Ask.load 4)
      let m := min n (128 - va % 128)
      if a.1 ≠ 0 then (.fail a.1, va, a.2.2)
      else if !isReach a.2.2 a.2.1 then (.fail 0x10, va, a.2.2)
      else if c.out then runBad k a.2.2 c (va + m) (n - m)
      else if isOwn s a.2.1 then (if isErr s (lineNo a.2.1) then (.fail 8, va, a.2.2) else runBad k a.2.2 c (va + m) (n - m))
      else
        let g := farGet (sendRun a.2.2 c.core c.cid va m) c.id c.core c.cid a.2.1 m
        match g.1 with
        | .ok _ => runBad k g.2 c (va + m) (n - m)
        | x => (x, va, g.2)

/-- Write to the scratchpad of a group, and of its trailing copy (R201). -/
def scratchWr (s : State) (gid x : Nat) (bytes : List Byte) : State :=
  match getG s gid with
  | none => s
  | some g =>
    let s := setG s gid { g with scratch := memWr g.scratch x bytes }
    match g.partner with
    | some q => modG s q fun h => { h with scratch := memWr h.scratch x bytes }
    | none => s
def scratchOf (s : State) (gid x n : Nat) : List Byte :=
  match getG s gid with
  | some g => memRd g.scratch x n
  | none => bytesOf n 0

/-! ### Copy channels (R279 to R281, R289) -/

/-- Fibres that wait for a channel's count look again (R293). -/
def wakeChan (s : State) (core ch : Nat) : State :=
  s.fibres.foldl
    (fun s e =>
      if (placeOf e.1).core = core then
        match getF s (placeOf e.1) with
        | some f => wakeWait s (placeOf e.1) fun w => match w with
          | .waitp c t => c == ch && t.toNat ≤ cwp s f (placeOf e.1) ch
          | _ => false
        | none => s
      else s) s

def chanOf (x : Core) (ch : Nat) : Chan := x.chans.getD ch Chan.init

/-- Advance the count of a channel (R280), and of the trailing copy's core. -/
def addCount (s : State) (core gid ch n : Nat) : State :=
  let one (s : State) (core : Nat) : State :=
    let x := getC s core
    let c := chanOf x ch
    wakeChan (setC s core { x with chans := x.chans.set ch { c with count := (c.count + n) % 2 ^ 64 } }) core ch
  let s := one s core
  match (getG s gid).bind Group.partner with
  | some q => match getG s q with
    | some h => one s h.core
    | none => s
  | none => s

/-- The command at the head of a channel leaves it; the next one starts. -/
def popChan (s : State) (core ch : Nat) : State :=
  let x := getC s core
  let c := chanOf x ch
  let s := setC s core { x with chans := x.chans.set ch { c with queue := c.queue.drop 1 } }
  if 1 < c.queue.length then due s (.copyCommandExecute core (BitVec.ofNat 2 ch)) else s

def setCmd (s : State) (id : Nat) (g : Cmd → Cmd) : State :=
  { s with cmds := s.cmds.map fun c => if c.id == id then g c else c }

/-- A channel moves the next 4 bytes of its command; of one that has failed at a peer it passes over the rest. -/
def copyUnit (s : State) (core ch : Nat) : State :=
  match (chanOf (getC s core) ch).queue with
  | [] => s
  | id :: _ =>
    match s.cmds.find? fun c => c.id == id with
    | none => popChan s core ch
    | some c =>
      let total := c.nb * c.rows
      let u := 4 * c.pos
      let ga := (c.ga + u / c.nb * c.stride + u % c.nb) % 2 ^ 64
      let xa := c.xa + u
      let abandon (s : State) (va : Nat) : State := popChan (finishCmd (addCount s core c.grp ch (total - u)) id (some va)) core ch
      let ok (s : State) : State :=
        let s := setCmd s id fun c => { c with pos := c.pos + 1, begun := true }
        if total ≤ u + 4 then popChan (finishCmd s id none) core ch else due s (.copyCommandExecute core (BitVec.ofNat 2 ch))
      if c.done then popChan (finishCmd (addCount s core c.grp ch (total - u)) id none) core ch
      else if c.out then
        let w := engWrite s c ga (scratchOf s c.grp xa 4)
        if w.1 ≠ 0 then abandon w.2 ga else ok (addCount w.2 core c.grp ch 4)
      else
        let r := engRead s c ga 4
        match r.1 with
        | .ok b => ok (addCount (scratchWr r.2.2 c.grp xa b) core c.grp ch 4)
        | .fail _ => abandon r.2.2 ga
        | .wait => setCmd r.2.2 id fun c => { c with begun := true }

/-! ### The gather engine (R290, R291) -/

def popGath (s : State) (core : Nat) : State :=
  let x := getC s core
  let s := setC s core { x with gathq := x.gathq.drop 1 }
  if 1 < x.gathq.length then due s (.gatherCommandExecute core 0) else s

/-- 4-byte units of a row that have been moved, for lane number `k` of the command's list. -/
def gathPos (c : Cmd) (k : Nat) : Nat := c.res.getD k 0

/-- The row whose next unit moves: one in `moved` if there is such a row, else the first. Where rows of a `scat` overlap, the higher
lane's comes after the lower one's (R290). -/
def gathNext (c : Cmd) (moved : Mask) : Option Nat :=
  let left := (List.range c.lanes.length).filter fun k => 4 * gathPos c k < c.nb
  let row (k : Nat) : Nat × Nat := c.lanes.getD k (0, 0)
  let free (k : Nat) : Bool :=
    !c.out || left.all fun j => k ≤ j || (row j).2 + c.nb ≤ (row k).2 || (row k).2 + c.nb ≤ (row j).2
  let l := left.filter free
  match l.find? fun k => moved.getLsbD (row k).1 with
  | some k => some k
  | none => l.head?

/-- Move the next unit of row `k`; a failing address comes back. -/
def gathUnit (s : State) (c : Cmd) (k : Nat) : Got × Nat × State :=
  let l := c.lanes.getD k (0, 0)
  let u := 4 * gathPos c k
  let xa := c.xa + l.1 * c.nb + u
  let ga := (l.2 + u) % 2 ^ 64
  if c.out then
    let w := engWrite s c ga (scratchOf s c.grp xa 4)
    (if w.1 = 0 then .ok [] else .fail w.1, ga, w.2)
  else
    let r := engRead s c ga 4
    match r.1 with
    | .ok b => (.ok [], ga, scratchWr r.2.2 c.grp xa b)
    | x => (x, ga, r.2.2)

/-- Which rows of a command could not be moved: their failing addresses, and whether a line is still waited for. -/
def gathBad (s : State) (c : Cmd) : List (Nat × Nat) × Bool × State :=
  c.lanes.foldl
    (fun (r : List (Nat × Nat) × Bool × State) l =>
      let g := runBad (c.nb / 128 + 2) r.2.2 c l.2 c.nb
      match g.1 with
      | .ok _ => (r.1, r.2.1, g.2.2)
      | .fail _ => (r.1 ++ [(l.1, g.2.1)], r.2.1, g.2.2)
      | .wait => (r.1, true, g.2.2)) ([], false, s)

/-- Move one row of an abandoned command whole. -/
def gathRow : Nat → State → Cmd → Nat → State
  | 0, s, _, _ => s
  | n + 1, s, c, k =>
    let r := gathUnit s c k
    match r.1 with
    | .ok _ => gathRow n r.2.2 { c with res := (c.res ++ List.replicate (c.lanes.length - c.res.length) 0).set k (gathPos c k + 1) } k
    | _ => r.2.2

/-- The head command of a gather engine moves its next 4 bytes, of a row that `moved` may choose (R290, R291). One that cannot be
completed is abandoned, with its lowest failing address; of its rows those in `moved` that do not fail are moved (R281). -/
def gatherHead (s : State) (core : Nat) (moved : Mask) : State :=
  match (getC s core).gathq with
  | [] => s
  | id :: _ =>
    match s.cmds.find? fun c => c.id == id with
    | none => popGath s core
    | some c =>
      let s := setCmd s id fun c => { c with begun := true }
      let done (s : State) (bad : Option Nat) : State := popGath (finishCmd s id bad) core
      if c.done then done s none
      else
        let r := if c.begun && !c.res.isEmpty then ([], false, s) else gathBad s c
        if r.2.1 then r.2.2
        else
          match r.1 with
          | e :: es =>
            let go := (List.range c.lanes.length).filter fun k =>
              let l := (c.lanes.getD k (0, 0)).1
              moved.getLsbD l && !r.1.any fun x => x.1 == l
            done (go.foldl (fun s k => gathRow (c.nb / 4) s c k) r.2.2) (some (es.foldl (fun a x => min a x.2) e.2))
          | [] =>
            match gathNext c moved with
            | none => done r.2.2 none
            | some k =>
              let g := gathUnit r.2.2 c k
              match g.1 with
              | .fail _ => done g.2.2 (some g.2.1)
              | .wait => g.2.2
              | .ok _ =>
                let res := (c.res ++ List.replicate (c.lanes.length - c.res.length) 0).set k (gathPos c k + 1)
                let s := setCmd g.2.2 id fun c => { c with res }
                if (gathNext { c with res } 0).isNone then done s none else due s (.gatherCommandExecute core 0)

end Sys2Proof.Machine
end

