-- ==== Sys2Proof/Machine/ExecGroup.lean ====
section
/-! DEFINITION. The meanings of row 0xA_: copies, gathers, scatters, waits, collectives (R288 to R293, R410 to R414). -/
namespace Sys2Proof.Machine

/-- Faults of engine commands: precise at once, access kind 5 (R193, R289, R290, R319, R412). -/
def engineFault (s : State) (f : Fibre) (cls : Nat) (mask : Mask) (addrs : List (Nat × Nat)) : State :=
  xFault s f none cls 5 mask addrs

/-- A command as it is issued. -/
def newCmd (s : State) (f : Fibre) (cls : OcClass) (cpol : CPol) : Cmd :=
  let p := s.here
  { id := s.nextId, cls, core := p.core, berth := p.berth, fib := p.fib, grp := f.grp, cid := cidOf s f, pol := cpol, out := false, ch := 0,
    xa := 0, ga := 0, nb := 0, rows := 0, stride := 0, lanes := [], ty := .b32, kind := .ar, cop := .add, comm := 0, root := 0, seq := 0,
    clk := clockOf s p.core, res := [], pos := 0, num := issuedOf f cls + 1, of := none, begun := false, done := false, counted := false,
    fail := none }

/-- Put a command among those outstanding, and count it. -/
def addCmd (s : State) (c : Cmd) : State :=
  modF { s with cmds := s.cmds ++ [c], nextId := s.nextId + 1 } s.here fun f => countIssue f c.cls

/-- In a trailing copy: the command that follows the leader's (R201). `id` 0: the leader issued none. -/
def followCmd (s : State) (f : Fibre) (cls : OcClass) (id : Nat) : State :=
  if id = 0 then ownDone s f [] 0
  else due (addCmd (ownDone s f [] 0) { newCmd s f cls .normal with of := some id }) (.engineCommandComplete id)

/-- A command that issues nothing, or one that is issued; then the fibre goes on. -/
def noCmd (s : State) (f : Fibre) : State := nextX (ownDone s f [] 0) s.here
def issueCmd (s : State) (f : Fibre) (c : Cmd) (start : State → State) : State :=
  nextX (start (addCmd (ownDone s f [] c.id) c)) s.here

/-- Queue places of a channel and of a gather engine. -/
def queueLen : Nat := 16

/-- `copy` (R289). -/
def execCopy (h : Hdr) (cpol : CPol) (out : Bool) (ch : BitVec 2) (a : Opnd) (b : Opnd) (c : Opnd) (stride : Opnd) (s : State) : Out :=
  run (.copy h cpol out ch a b c stride) s fun s f =>
    let p := s.here
    let m := maskOf (passLanes s f p h.guard)
    let sa := opVal s f p a 2 0
    let sb := opVal s f p b 2 0
    let sc := opVal s f p c 2 0
    let sd := opVal s f p stride 2 0
    let nb := sc % 2 ^ 32
    let rows := sc / 2 ^ 32 % 2 ^ 16
    let low := (lanesIn m).headD 0
    let x := getC s p.core
    match forwarded f with
    | some r => nextX (followCmd s f .copy r.2) p
    | none =>
      if m = 0 then noCmd s f
      else if sc / 2 ^ 48 ≠ 0 then engineFault s f 0x0B m []
      else if nb % 4 ≠ 0 ∨ sa % 4 ≠ 0 ∨ sb % 4 ≠ 0 ∨ sd % 4 ≠ 0 then
        engineFault s f 6 m (if sa % 4 ≠ 0 then [(low, sa)] else if sb % 4 ≠ 0 then [(low, sb)] else [])
      else if nb ≠ 0 ∧ rows ≠ 0 ∧ scratchSize s f < sa + rows * nb then engineFault s f 7 m [(low, sa)]
      else if nb = 0 ∨ rows = 0 then noCmd s f
      else if queueLen ≤ (chanOf x ch.toNat).queue.length then stall s p h
      else
        let c := { newCmd s f .copy cpol with out, ch := ch.toNat, xa := sa, ga := sb, nb, rows, stride := sd }
        issueCmd s f c fun s =>
          let x := getC s p.core
          let q := chanOf x ch.toNat
          let s := setC s p.core { x with chans := x.chans.set ch.toNat { q with queue := q.queue ++ [c.id] } }
          if q.queue.isEmpty then due s (.copyCommandExecute p.core ch) else s

/-- `gath` and `scat` (R290, R291). -/
def gatherCmd (s : State) (f : Fibre) (h : Hdr) (cpol : CPol) (out : Bool) (a b c : Opnd) : State :=
  let p := s.here
  let ls := passLanes s f p h.guard
  let sa := opVal s f p a 2 0
  let nb := opVal s f p c 2 0
  let rows := ls.map fun l => (l, opVal s f p b 2 l)
  let bad := rows.filterMap fun e =>
    if e.2 % 4 ≠ 0 then some (e.1, 6, e.2)
    else if scratchSize s f < sa + (e.1 + 1) * nb then some (e.1, 7, sa + e.1 * nb) else none
  match forwarded f with
  | some r => nextX (followCmd s f .gath r.2) p
  | none =>
    if nb % 4 ≠ 0 then engineFault s f 6 (maskOf ls) []
    else if 65536 < nb then engineFault s f 0x0B (maskOf ls) []
    else
      match pickFault bad with
      | some (k, m, as) => engineFault s f k m as
      | none =>
        if nb = 0 ∨ ls = [] then noCmd s f
        else if queueLen ≤ (getC s p.core).gathq.length then stall s p h
        else
          let c := { newCmd s f .gath cpol with out, xa := sa, nb, lanes := rows }
          issueCmd s f c fun s =>
            let x := getC s p.core
            let s := setC s p.core { x with gathq := x.gathq ++ [c.id] }
            if x.gathq.isEmpty then due s (.gatherCommandExecute p.core 0) else s

/-- `gath` (R290). -/
def execGath (h : Hdr) (cpol : CPol) (a : Opnd) (b : Opnd) (c : Opnd) (s : State) : Out :=
  run (.gath h cpol a b c) s fun s f => gatherCmd s f h cpol false a b c
/-- `scat` (R290). -/
def execScat (h : Hdr) (cpol : CPol) (a : Opnd) (b : Opnd) (c : Opnd) (s : State) : Out :=
  run (.scat h cpol a b c) s fun s f => gatherCmd s f h cpol true a b c

/-- Source B of `wait` and `waitp`: the immediate is zero-extended (R288). -/
def waitVal (s : State) (f : Fibre) (n : Src) : Nat :=
  match n with
  | .imm i => i.toNat
  | .reg o => opVal s f s.here o 2 0

/-- The failures of a class that a `wait` naming `n` reports: the late ones, and with the count met those it covers (R281, R327). -/
def covered (f : Fibre) (cls : OcClass) (n : Nat) (e : EngFail) : Bool :=
  e.cls == cls && (e.late || (ocOf f cls ≤ n && e.num + n ≤ issuedOf f cls))

/-- Take the oldest reported failure out; the other covered ones are reported by the next `wait`. -/
def takeFail (f : Fibre) (cls : OcClass) (n : Nat) : Option (EngFail × Fibre) :=
  (pick (covered f cls n) f.fails).map fun r =>
    (r.1, { f with
      fails := r.2.map fun e => if covered f cls n e then { e with late := true } else e
      mstat := if cls = .matrix then { r.1.st with word := r.1.st.word &&& ~~~(0x1000 : DWord) } else f.mstat })

/-- `wait` (R292). -/
def execWait (h : Hdr) (cls : OcClass) (n : Src) (s : State) : Out :=
  run (.wait h cls n) s fun s f =>
    let p := s.here
    let v := waitVal s f n
    match takeFail f cls v with
    | some (e, g) =>
      raise (setF s p g) p { faultInfo g none with cls := 0x0B, addrs := [(lowLane g, e.va)], acc := 5, retry := false }
    | none => if ocOf f cls ≤ v then next s p else block s p (.wait cls (BitVec.ofNat 64 v))

/-- `waitp` (R293). -/
def execWaitp (h : Hdr) (ch : BitVec 2) (t : Src) (s : State) : Out :=
  run (.waitp h ch t) s fun s f =>
    let p := s.here
    let v := waitVal s f t
    if v ≤ cwp s f p ch.toNat then next s p else block s p (.waitp ch.toNat (BitVec.ofNat 64 v))

/-- A word of a communicator's entry (R410). -/
def commWord (s : State) (c i : Nat) : Nat := (getReg s (0x010000630000 + 0x80 * c + 8 * i)).toNat
/-- Module `m` participates. -/
def commHas (s : State) (c m : Nat) : Bool := (commWord s c (m / 64)).testBit (m % 64)
def commMembers (s : State) (c : Nat) : List Nat := (List.range 512).filter (commHas s c)

/-- `coll` (R412). -/
def execColl (h : Hdr) (t : Ty) (sc : Scope) (kind : CollKind) (op : CollOp) (a : Opnd) (b : Opnd) (c : Opnd) (s : State) : Out :=
  run (.coll h t sc kind op a b c) s fun s f =>
    let p := s.here
    let m := maskOf (passLanes s f p h.guard)
    let low := (lanesIn m).headD 0
    let sa := opVal s f p a 2 0
    let sb := opVal s f p b 2 0
    let v := opVal s f p c 2 0
    let n := v % 2 ^ 32
    let root := bitsAt v 32 9
    let cm := bitsAt v 48 8
    let es := 4 * t.regs
    let dn := if kind = .ag then n * (commMembers s cm).length * es else n * es
    let apart := sa + n * es ≤ sb ∨ sb + dn ≤ sa
    match forwarded f with
    | some r => nextX (followCmd s f .coll r.2) p
    | none =>
      if m = 0 then noCmd s f
      else if bitsAt v 41 7 ≠ 0 ∨ bitsAt v 56 8 ≠ 0 then engineFault s f 0x0B m []
      else if bitsAt (commWord s cm 8) 16 1 = 0 ∨ bitsAt (commWord s cm 8) 0 12 ≠ cidOf s f ∨ commHas s cm s.modNo = false ∨
          (kind = .bc ∧ commHas s cm root = false) then engineFault s f 0x0B m []
      else if sa % es ≠ 0 ∨ sb % es ≠ 0 then engineFault s f 6 m [(low, if sa % es ≠ 0 then sa else sb)]
      else if n ≠ 0 ∧ ¬ apart ∧ ¬ (sa = sb ∧ n * es = dn) then engineFault s f 0x0B m []
      else if n = 0 then noCmd s f
      else if !drained s p.core sc then stall (startDrains s p.core sc) p h
      else
        let k := tget 0 s.collCount cm
        let x := { newCmd s f .coll .normal with ga := sa, xa := sb, nb := n, ty := t, kind, cop := op, comm := cm, root, seq := k }
        issueCmd s f x fun s => { s with collCount := tset 0 s.collCount cm (k + 1) }

end Sys2Proof.Machine
end

