-- ==== Sys2Proof/Machine/Matrix.lean ====
section
/-! DEFINITION. The matrix engine: weight tiles, job cards, steps, the arbiter (R309 to R328). -/
namespace Sys2Proof.Machine

/-! ### Weight tiles (R310 to R313) -/

/-- Bits of a packed element by weight format; 0 for a code that is none (R311). -/
def weightBits (w : Nat) : Nat :=
  match w with
  | 1 | 2 => 16
  | 3 | 10 => 8
  | 4 => 6
  | 5 | 9 => 4
  | 20 => 1
  | 21 => 2
  | _ => 0

def popBits (m : Nat) : Nat := (List.range 256).countP fun n => m.testBit n

/-- Bytes of a block: the mask, and the elements padded to 32 bytes. -/
def blockLen (w m : Nat) : Nat := 32 + (popBits m * w + 255) / 256 * 32

/-- Header checks that need no block (R312). -/
def headBad (h : Nat) : Bool :=
  let w := bitsAt h 0 5
  weightBits w == 0 || bitsAt h 6 26 != 0 || bitsAt h 64 192 != 0 || (bitsAt h 5 1 == 1 && !([3, 4, 5, 10] : List Nat).contains w)

/-- The blocks that start at a byte offset of a tile. -/
def parseBlocks (w : Nat) : Nat → List Byte → List (Nat × Nat)
  | 0, _ => []
  | n + 1, b =>
    let m := natOf (b.take 32)
    let l := blockLen w m
    (m, natOf ((b.drop 32).take (l - 32))) :: parseBlocks w n (b.drop l)

/-- Parse the bytes of a tile; nothing where it is malformed (R312). -/
def parseTile (b : List Byte) : Option Tile :=
  let h := natOf (b.take 32)
  if headBad h then none
  else
    let w := weightBits (bitsAt h 0 5)
    let mx := bitsAt h 5 1 == 1
    let at0 := if mx then 2080 else 32
    let bl := parseBlocks w 256 (b.drop at0)
    let len := bl.foldl (fun a x => a + blockLen w x.1) at0
    let dense : Bool := 20 ≤ bitsAt h 0 5
    if len ≠ bitsAt h 32 32 ∨ (dense && bl.any fun x => x.1 != 2 ^ 256 - 1) = true then none
    else some { fmt := bitsAt h 0 5, mx, scales := (b.drop 32).take (at0 - 32), blocks := bl }

/-- Code of the element at (k, n), and whether its mask bit is 1. -/
def tileCode (t : Tile) (k n : Nat) : Option Nat :=
  let x := t.blocks.getD k (0, 0)
  if x.1.testBit n then
    let i := (List.range n).countP fun j => x.1.testBit j
    let w := weightBits t.fmt
    some (x.2 / 2 ^ (w * i) % 2 ^ w)
  else none

/-- The line of a tile: from the weight buffer, or read as a load (R310). Bytes, lease tide (none for a line that may not be kept)
and write tide. -/
inductive TileGot where
  | ok (data : List Byte) (lt : Option Nat) (wt : Nat)
  | fail (cls : Nat)
  | wait

/-- Put a line into the weight buffer. -/
def bufPut (s : State) (q : Nat) (w : WLine) : State :=
  let qy := getQy s q
  setQy s q { qy with buf := (w :: qy.buf.filter fun v => !(v.cid == w.cid && v.tile == w.tile && v.va == w.va)).take 65536 }

/-- Ask a peer for a lease of a line of a tile. -/
def askTile (s : State) (e : MEnt) (pa : Nat) : State :=
  sendReq { s with far := s.far ++ [{ owner := e.id, line := lineNo pa, data := none, cls := 0 }] } e.core e.cid (pa / 128 * 128)
    (.lease none (leaseOf s e.cid)) (.far e.id)

/-- A tracked line of a peer (R232, R310): it comes under a lease, and is asked for again where the core's clock has passed that
lease by then. -/
def farTile (s : State) (q : Nat) (e : MEnt) (tile va pa : Nat) : TileGot × State :=
  let mine (f : Far) : Bool := f.owner == e.id && f.line == lineNo pa
  match s.far.find? mine with
  | none => if isReach s pa then (.wait, askTile s e pa) else (.fail 0x10, s)
  | some f =>
    if f.cls ≠ 0 then (.fail f.cls, s)
    else
      match f.data with
      | none => (.wait, s)
      | some d =>
        let s := { s with far := s.far.filter fun x => !mine x }
        if f.lt < clockOf s e.core then (.wait, askTile s e pa)
        else
          (.ok (lineRd d 0 128) (some f.lt) f.wt,
           bufPut (seeTide s e.core f.wt) q { cid := e.cid, tile, va, lt := f.lt, wt := f.wt, data := d, far := true })

/-- One line of a tile: from the line buffer, as a load at the core's clock (R310, R322), or from a peer. The line is read from its
start, also where the tile's address is no multiple of 128, for which R311 gives no check (log entry 51, DESIGN CHOICE). -/
def tileLine (s : State) (q : Nat) (e : MEnt) (tile va : Nat) : TileGot × State :=
  let qy := getQy s q
  -- with "no L1" a line of this module is served as an untracked one (R230, R330)
  match qy.buf.find? fun w => (e.pol != .noL1 || w.far) && w.cid == e.cid && w.tile == tile && w.va == va && clockOf s e.core ≤ w.lt with
  | some w => (.ok (lineRd w.data 0 128) (some w.lt) w.wt, seeTide s e.core w.wt)
  | none =>
    let x := xlatNow s e.core e.cid va
    let c := if x.1.cls ≠ 0 then x.1.cls else rightsCls x.2 (Ask.load 4) x.1 va
    let pa := leafPa x.1 va
    let s := if c = 0 then flushPart x.2 e.core (lineNo pa) else x.2
    if c ≠ 0 then (.fail c, s)
    else if !isOwn s pa && pteTrk x.1.pte.toNat then farTile s q e tile va pa
    else if !isOwn s pa then
      let r := farGet s e.id e.core e.cid pa 128
      match r.1 with
      | .ok b => (.ok b none 0, r.2)
      | .fail c => (.fail c, r.2)
      | .wait => (.wait, r.2)
    else if pteTrk x.1.pte.toNat && effPol e.pol x.1.pte.toNat != .noL1 then
      let r := homeLease (recallNow s (lineNo pa)) (lineNo pa) (clockOf s e.core) (leaseOf s e.cid)
      if r.1.cls ≠ 0 then (.fail r.1.cls, r.2)
      else
        let s := seeTide r.2 e.core r.1.wt
        (.ok r.1.data (some r.1.lt) r.1.wt,
         bufPut s q { cid := e.cid, tile, va, lt := r.1.lt, wt := r.1.wt, data := lineOfBytes r.1.data })
    else
      let r := readNow s pa 128
      if r.1.cls ≠ 0 then (.fail r.1.cls, r.2) else (.ok r.1.data none r.1.wt, seeTide r.2 e.core r.1.wt)

/-- What reading a tile gives: its bytes, the lowest lease tide and the largest write tide, or the class and address of a failure. -/
inductive TileRes where
  | ok (data : List Byte) (lt : Option Nat) (wt : Nat)
  | fail (cls va : Nat)
  | wait

/-- The lower of two lease tides; none where one of the lines may not be kept. -/
def lowTide (a b : Option Nat) : Option Nat :=
  match a, b with
  | some x, some y => some (min x y)
  | _, _ => none

/-- Read `n` lines of a tile. -/
def tileLines : Nat → State → Nat → MEnt → Nat → Nat → TileRes × State
  | 0, s, _, _, _, _ => (.ok [] (some tideMax) 0, s)
  | n + 1, s, q, e, tile, va =>
    let r := tileLine s q e tile va
    match r.1 with
    | .fail c => (.fail c va, r.2)
    | .wait => (.wait, r.2)
    | .ok b lt wt =>
      let t := tileLines n r.2 q e tile (va + 128)
      match t.1 with
      | .ok d l w => (.ok (b ++ d) (lowTide lt l) (max wt w), t.2)
      | x => (x, t.2)

/-- Read a tile: the header gives its length; a malformed header is no more read (R311, R312). -/
def readTile (s : State) (q : Nat) (e : MEnt) (va : Nat) : TileRes × State :=
  let h := tileLines 1 s q e va va
  match h.1 with
  | .ok b lt wt =>
    let len := bitsAt (natOf b) 32 32
    if headBad (natOf (b.take 32)) || 141344 < len || len < 32 then (.ok b lt wt, h.2)
    else
      let r := tileLines ((len + 127) / 128 - 1) h.2 q e va (va + 128)
      match r.1 with
      | .ok d l w => (.ok (b ++ d) (lowTide lt l) (max wt w), r.2)
      | x => (x, r.2)
  | x => (x, h.2)

/-- The tile at an address: from a plane (R309, R310), or reloaded into the idle one. -/
def loadPlane (s : State) (q : Nat) (e : MEnt) (va : Nat) : TileRes × State :=
  let qy := getQy s q
  match qy.planes.find? fun p => e.pol != .noL1 && p.va == va && p.cid == e.cid && clockOf s e.core ≤ p.lt with
  | some p =>
    (.ok p.tile (some p.lt) p.wt, seeTide (setQy s q { qy with planes := (p :: qy.planes.filter (· != p)).take 2 }) e.core p.wt)
  | none =>
    if va / 2 ^ 60 ≠ 0 then (.fail 4 va, s)
    else
      let r := readTile s q e va
      match r.1 with
      | .ok d (some lt) wt =>
        let qy := getQy r.2 q
        (.ok d (some lt) wt, setQy r.2 q { qy with planes := ({ va, cid := e.cid, lt, wt, tile := d } :: qy.planes).take 2 })
      | x => (x, r.2)

/-! ### Cards (R314 to R317) -/

def cf (c : BitVec 1024) (lo len : Nat) : Nat := dsc c lo len
def cAbase (c : BitVec 1024) : Nat := cf c 0 64
def cBbase (c : BitVec 1024) : Nat := cf c 64 64
def cAsbase (c : BitVec 1024) : Nat := cf c 128 64
def cArow (c : BitVec 1024) : Nat := cf c 192 32
def cSrow (c : BitVec 1024) : Nat := cf c 224 16
def cCrow (c : BitVec 1024) : Nat := cf c 240 16
def cMr (c : BitVec 1024) : Nat := cf c 256 8
def cKw (c : BitVec 1024) : Nat := cf c 264 8 + 1
def cNw (c : BitVec 1024) : Nat := cf c 272 8 + 1
def cAfmt (c : BitVec 1024) : Nat := cf c 280 5
def cGlobal (c : BitVec 1024) : Bool := cf c 285 1 == 1
def cAmx (c : BitVec 1024) : Bool := cf c 286 1 == 1
def cAx (c : BitVec 1024) : BitVec 16 := BitVec.ofNat 16 (cf c 288 16)
def cWx (c : BitVec 1024) : BitVec 16 := BitVec.ofNat 16 (cf c 304 16)
def lExt (c : BitVec 1024) (l : Nat) : Nat := cf c (320 + 128 * l) 16
def lA (c : BitVec 1024) (l : Nat) : Int := sInt 32 (cf c (320 + 128 * l + 16) 32)
def lB (c : BitVec 1024) (l : Nat) : Int := sInt 32 (cf c (320 + 128 * l + 48) 32)
def lC (c : BitVec 1024) (l : Nat) : Int := sInt 16 (cf c (320 + 128 * l + 80) 16)
def lS (c : BitVec 1024) (l : Nat) : Int := sInt 16 (cf c (320 + 128 * l + 96) 16)
def cSteps (c : BitVec 1024) : Nat := (List.range 5).foldl (fun n l => n * lExt c l) 1

/-- The loop indices of a walk position, level 0 first (R316). -/
def walkIx (c : BitVec 1024) (pos : Nat) : List Nat :=
  ((List.range 5).foldl (fun (r : List Nat × Nat) l => (r.1 ++ [r.2 % lExt c l], r.2 / lExt c l)) ([], pos)).1

/-- base + Σ i_l × step_l. -/
def walkSum (c : BitVec 1024) (pos : Nat) (base : Nat) (g : Nat → Int) : Int :=
  (walkIx c pos).zipIdx.foldl (fun (a : Int) e => a + e.1 * g e.2) base
def stepA (c : BitVec 1024) (pos : Nat) : Nat := wrapI 64 (walkSum c pos (cAbase c) (lA c))
def stepB (c : BitVec 1024) (pos : Nat) : Nat := wrapI 64 (walkSum c pos (cBbase c) (lB c))
def stepS (c : BitVec 1024) (pos : Nat) : Nat := wrapI 64 (walkSum c pos (cAsbase c) (lS c))
def stepC (c : BitVec 1024) (pos : Nat) : Int := walkSum c pos (cCrow c) (lC c)

/-- Least and greatest value of a sum over the walk. -/
def walkMin (c : BitVec 1024) (base : Nat) (g : Nat → Int) : Int :=
  (List.range 5).foldl (fun a l => a + min 0 (((lExt c l : Int) - 1) * g l)) base
def walkMax (c : BitVec 1024) (base : Nat) (g : Nat → Int) : Int :=
  (List.range 5).foldl (fun a l => a + max 0 (((lExt c l : Int) - 1) * g l)) base

/-- Integer class (R317): i8 or i4 activations without block scales. -/
def cInt (c : BitVec 1024) : Bool := !cAmx c && (cAfmt c == 9 || cAfmt c == 10)

/-- Activations that R317 allows; `tab`: of an `mtab`. -/
def actOk (c : BitVec 1024) (tab : Bool) : Bool :=
  cInt c ||
    (!tab &&
      (if cAmx c then ([3, 4, 5, 10] : List Nat).contains (cAfmt c) else ([1, 2, 3, 4, 5] : List Nat).contains (cAfmt c)))

/-- A malformed card (R319 check 3). -/
def cardBad (c : BitVec 1024) (tab : Bool) : Bool :=
  cf c 960 64 != 0 || cf c 287 1 != 0 || (List.range 5).any (fun l => cf c (320 + 128 * l + 112) 16 != 0 || lExt c l == 0) ||
    4096 < cSteps c || cMr c == 0 || 32 < cMr c || !actOk c tab || (!cAmx c && cAsbase c != 0)

/-- Bytes of an activation row (R316). -/
def rowBytes (fmt kw : Nat) : Nat :=
  match fmt with
  | 1 | 2 => 2 * kw
  | 5 | 9 => (kw + 1) / 2
  | 4 => (kw + 4) / 5 * 4
  | _ => kw

/-- Checks 4 to 6 of R319: a class, or 0. -/
def cardCls (c : BitVec 1024) (rows alloc : Nat) : Nat :=
  if cAbase c % 4 ≠ 0 ∨ cArow c % 4 ≠ 0 ∨ (List.range 5).any (fun l => lA c l % 4 != 0) = true then 6
  else if walkMin c (cCrow c) (lC c) < 0 ∨ (rows : Int) < walkMax c (cCrow c) (lC c) + cMr c then 7
  else if cGlobal c then 0
  else if walkMin c (cAbase c) (lA c) < 0 ∨
      (alloc : Int) < walkMax c (cAbase c) (lA c) + (cMr c - 1) * cArow c + rowBytes (cAfmt c) (cKw c) then 7
  else if cAmx c ∧ (walkMin c (cAsbase c) (lS c) < 0 ∨
      (alloc : Int) < walkMax c (cAsbase c) (lS c) + (cMr c - 1) * cSrow c + (cKw c + 31) / 32) then 7
  else 0

/-- A tile's class goes with the command (R317). -/
def tileOk (t : Tile) (c : BitVec 1024) (tab : Bool) : Bool :=
  if tab then 20 ≤ t.fmt
  else if cInt c then (t.fmt == 9 || t.fmt == 10) && !t.mx
  else ([1, 2, 3, 4, 5] : List Nat).contains t.fmt || (t.fmt == 10 && t.mx)

/-! ### Elements (R79, R80, R83, R313) -/

/-- The conversion format of a matrix format code. -/
def mFmt (w : Nat) : Fmt :=
  match w with
  | 1 => .f16
  | 2 => .bf16
  | 3 => .t8
  | 4 => .t6
  | 5 => .fp4
  | 9 => .i4
  | _ => .i8

/-- Multiply by an E8M0 scale (R83). -/
def scaleVal (scale : Nat) (v : Val) : Val :=
  match decE8 scale, v with
  | .fin _ _ e, .fin neg m g => .fin neg m (e + g)
  | .fin .., v => v
  | x, .nan c => if c = 0 then x else .nan c
  | x, _ => x

/-- An element of a float-class operand with its block scale; an i8 element counts in units of 2^-6. -/
def elemVal (extra : BitVec 16) (w : Nat) (scale : Option Nat) (code : Nat) : Val :=
  let v := if w = 10 then .fin (sInt 8 code < 0) (sInt 8 code).natAbs (-6) else decFmt extra.toNat (mFmt w) code
  match scale with
  | some e => scaleVal e v
  | none => v

/-- An integer operand: i4, i8, b1 or b2. -/
def intElem (w code : Nat) : Int :=
  match w with
  | 9 => sInt 4 code
  | 20 => if code = 1 then 1 else -1
  | 21 => 2 * (2 * (code / 2 : Nat) - 1) + (2 * (code % 2 : Nat) - 1)
  | _ => sInt 8 code

/-- Code k of an activation row (R316). -/
def rowCode (fmt : Nat) (row : List Byte) (k : Nat) : Nat :=
  match fmt with
  | 1 | 2 => natOf ((row.drop (2 * k)).take 2)
  | 5 | 9 => (row.getD (k / 2) 0).toNat / 16 ^ (k % 2) % 16
  | 4 => natOf ((row.drop (k / 5 * 4)).take 4) / 2 ^ (6 * (k % 5)) % 64
  | _ => (row.getD k 0).toNat

/-- The first element that needs a byte at or after `off` of its row. -/
def elemAt (fmt off : Nat) : Nat :=
  match fmt with
  | 1 | 2 => off / 2
  | 5 | 9 => 2 * off
  | 4 => off / 4 * 5
  | _ => off

/-- The rounded sum of one K-group of a float class (R89, R90). -/
def groupSum (l : List (Val × Val)) : Nat :=
  let ps := l.map fun e => if e.1.isNan || e.2.isNan then none else mulVal e.1 e.2
  if ps.any Option.isNone then plainNan fp32
  else
    match sumVal .rn (ps.filterMap id) with
    | some v => encF fp32 .rn v
    | none => plainNan fp32

/-- Weight (k, n) as a float-class value (R311, R313). -/
def tileVal (t : Tile) (wx : BitVec 16) (k n : Nat) : Val :=
  let sc := if t.mx then some ((t.scales.getD (256 * (k / 32) + n) 0).toNat) else none
  match tileCode t k n with
  | some c => elemVal wx t.fmt sc c
  | none =>
    match sc with
    | some e => scaleVal e (.fin false 0 0)
    | none => .fin false 0 0
def tileInt (t : Tile) (k n : Nat) : Int :=
  match tileCode t k n with
  | some c => intElem t.fmt c
  | none => 0

/-- An activation row and its scales as read: the groups that can be added, and the failure beyond them. -/
structure ActRow where
  row : List Byte
  sc : List Byte
  /-- first group that cannot be added, class, address, operand -/
  fail : Option (Nat × Nat × Nat × Nat)
  wait : Bool

def firstFail (a b : Option (Nat × Nat × Nat × Nat)) : Option (Nat × Nat × Nat × Nat) :=
  match a, b with
  | some x, some y => if y.1 < x.1 then b else a
  | some _, none => a
  | none, _ => b

/-- K-group `i` of one row added to one accumulator, of column `n` (R89, R91, R318). -/
def addElem (g : Group) (c : BitVec 1024) (t : Tile) (row : Nat) (a sc : List Byte) (i n : Nat) : Group :=
  let ks := (List.range 16).map (fun j => 16 * i + j) |>.filter fun k => k < cKw c
  let acc := (accGet g row n).toNat
  let v :=
    if cInt c then wrapI 32 ((acc : Int) + (ks.map fun k => intElem (cAfmt c) (rowCode (cAfmt c) a k) * tileInt t k n).sum)
    else
      addRn fp32 acc (groupSum (ks.map fun k =>
        (elemVal (cAx c) (cAfmt c) (if cAmx c then some ((sc.getD (k / 32) 0).toNat) else none) (rowCode (cAfmt c) a k),
         tileVal t (cWx c) k n)))
  accPut g row n (BitVec.ofNat 32 v)

/-! ### Steps (R316, R326) -/

/-- Bytes of an operand of a command: from the group's scratchpad, or as loads of the issuing core. -/
def operandRd (s : State) (e : MEnt) (glob : Bool) (a n : Nat) : Got × Nat × State :=
  if !glob then (.ok (scratchOf s e.grp a n), a, s) else engLoad s e.id e.core e.cid e.pol a n

/-- Read row r of a step. -/
def readRow (s : State) (e : MEnt) (r : Nat) : ActRow × State :=
  let c := e.card
  let a := (stepA c e.pos + r * cArow c) % 2 ^ 64
  let x := operandRd s e (cGlobal c) a (rowBytes (cAfmt c) (cKw c))
  let sa := (stepS c e.pos + r * cSrow c) % 2 ^ 64
  let y := if cAmx c then operandRd x.2.2 e (cGlobal c) sa ((cKw c + 31) / 32) else (.ok [], sa, x.2.2)
  let fa := match x.1 with
    | .fail k => some (elemAt (cAfmt c) (x.2.1 - a) / 16, k, x.2.1, 2)
    | _ => none
  let fs := match y.1 with
    | .fail k => some (2 * (y.2.1 - sa), k, y.2.1, 3)
    | _ => none
  let rd (g : Got) : List Byte := match g with
    | .ok b => b
    | _ => []
  ({ row := rd x.1, sc := rd y.1, fail := firstFail fa fs, wait := x.1 == .wait || y.1 == .wait }, y.2.2)

/-- The bytes of a row before its failing group, read again for the groups that are added. -/
def readBefore (s : State) (e : MEnt) (r gmax : Nat) (x : ActRow) : ActRow :=
  if x.fail.isNone || gmax = 0 then x
  else
    let c := e.card
    let a := (stepA c e.pos + r * cArow c) % 2 ^ 64
    let n := min (rowBytes (cAfmt c) (cKw c)) (rowBytes (cAfmt c) (16 * gmax))
    let sa := (stepS c e.pos + r * cSrow c) % 2 ^ 64
    let rd (g : Got) : List Byte := match g with
      | .ok b => b
      | _ => []
    { x with
      row := rd (operandRd s e (cGlobal c) a n).1
      sc := if cAmx c then rd (operandRd s e (cGlobal c) sa ((16 * gmax + 31) / 32)).1 else [] }

/-- Elements that a step under way accumulates. -/
def stepElems (e : MEnt) (m : MStep) : Nat := m.gmax * m.rows.length * cNw e.card

/-- The entry once its step has accumulated what it can: the step is complete, or the command is abandoned in it (R326). -/
def closeStep (e : MEnt) (m : MStep) : MEnt :=
  match m.fail with
  | some f => { e with part := none, done := true, fail := some f, kgrp := e.kgrp + m.gmax }
  | none =>
    { e with part := none, pos := e.pos + 1, kgrp := e.kgrp + (cKw e.card + 15) / 16, done := cSteps e.card ≤ e.pos + 1 }

/-- The next element of a step under way, in the order of R316: by K-group, row and column. Between two of them the fibres may act
(R324). -/
def addNext (s : State) (e : MEnt) (m : MStep) : MEnt × State :=
  let nw := cNw e.card
  let i := m.pos / (m.rows.length * nw)
  let x := m.rows.getD (m.pos / nw % m.rows.length) (0, [], [])
  let s := modG s e.grp fun g => addElem g e.card m.tile (stepC e.card e.pos + (x.1 : Int)).toNat x.2.1 x.2.2 i (m.pos % nw)
  let m := { m with pos := m.pos + 1 }
  (if stepElems e m ≤ m.pos then closeStep e m else { e with part := some m }, s)

/-- The address of the tile of a command's step. A card may name one that is not a multiple of 128, for which no check is given: the
lines that contain it are then read from the start of the first (R311; log entry 51, DESIGN CHOICE). -/
def tileAt (e : MEnt) (pos : Nat) : Nat := if e.kind = 1 then e.addr else stepB e.card pos / 128 * 128

/-- Begin a step (R316, R326): its tile and its activations are read. The entry after it, nothing where a line is waited for. -/
def beginStep (s : State) (q : Nat) (e : MEnt) : Option MEnt × State :=
  let c := e.card
  let va := tileAt e e.pos
  let r := loadPlane s q e va
  let abandon (s : State) (cls va opnd : Nat) : Option MEnt × State := (some { e with done := true, fail := some (cls, va, opnd) }, s)
  match r.1 with
  | .wait => (none, r.2)
  | .fail k a => abandon r.2 k a 4
  | .ok d _ _ =>
    match parseTile d with
    | none => abandon r.2 0x0B va 4
    | some t =>
      if e.kind = 1 then (some { e with done := true, pos := 1 }, r.2)
      else if !tileOk t c (e.kind == 3) then abandon r.2 0x0B va 4
      else
        let c0 := stepC c e.pos
        let rows : List Nat := (List.range (cMr c)).filter fun (i : Nat) => e.mask.getLsbD ((c0 + (i : Int)).toNat % 32)
        let a := rows.foldl
          (fun (x : List (Nat × ActRow) × State) (i : Nat) => let y := readRow x.2 e i; (x.1 ++ [(i, y.1)], y.2)) ([], r.2)
        if a.1.any (fun x => x.2.wait) then (none, a.2)
        else
          let fail := a.1.foldl (fun f x => firstFail f x.2.fail) none
          let gmax := match fail with
            | some f => f.1
            | none => (cKw c + 15) / 16
          let rows := a.1.map fun x =>
            let y := readBefore a.2 e x.1 gmax x.2
            (x.1, y.row, y.sc)
          let m : MStep := { tile := t, rows, gmax, fail := fail.map Prod.snd, pos := 0 }
          (some (if stepElems e m = 0 then closeStep e m else { e with part := some m }), a.2)

/-- One move of a command: its step begins, or accumulates its next element. -/
def runStep (s : State) (q : Nat) (e : MEnt) : Option MEnt × State :=
  match e.part with
  | none => beginStep s q e
  | some m => let r := addNext s e m; (some r.1, r.2)

/-! ### The arbiter (R322) -/

/-- Engine cycles since the entry was filled or last ran. -/
def waited (s : State) (q : Nat) (e : MEnt) : Nat := cycOf s (4 * q) - e.lastRun

/-- Effective priority. -/
def rankPrio (s : State) (q : Nat) (e : MEnt) (running : Bool) : Nat :=
  match (getG s e.grp).map Group.st with
  | some .saving | some .flushing => 17
  | _ => if !running && (e.aged || 2 ^ 20 ≤ waited s q e) then 16 else e.prio

/-- Entry `a` ranks above entry `b`. -/
def ranksAbove (pa pb : Nat) (a b : Nat × MEnt) : Bool :=
  pb < pa || (pa == pb && (a.2.fill < b.2.fill || (a.2.fill == b.2.fill && a.1 < b.1)))

/-- The waiting entry of the highest rank. -/
def bestEnt (s : State) (q : Nat) (skip : Option Nat) : Option (Nat × MEnt) :=
  ((getQy s q).ents.filter fun e => !e.2.done && some e.1 != skip).foldl
    (fun b e => match b with
      | none => some e
      | some x => if ranksAbove (rankPrio s q e.2 false) (rankPrio s q x.2 false) e x then some e else b) none

/-- The entry that runs the next step, and the steps it has run since it was granted; a step that has begun is finished first. -/
def grant (s : State) (q : Nat) : Option (Nat × MEnt × Nat) :=
  let qy := getQy s q
  let cur := qy.run.bind fun e => (tfind qy.ents e).bind fun x => if x.done then none else some (e, x)
  let best := bestEnt s q (cur.map Prod.fst)
  match cur, best with
  | none, none => none
  | none, some b => some (b.1, b.2, 0)
  | some c, none => some (c.1, c.2, if 64 ≤ qy.steps && c.2.part.isNone then 0 else qy.steps)
  | some c, some b =>
    if c.2.part.isSome || qy.steps < 64 && !ranksAbove (rankPrio s q b.2 false) (rankPrio s q c.2 true) b c then some (c.1, c.2, qy.steps)
    else some (b.1, b.2, 0)

/-- The entry and the tile of the step after the one that runs (R309). -/
def nextTile (s : State) (q : Nat) : Option (MEnt × Nat) :=
  match grant s q with
  | none => none
  | some (k, e, _) =>
    if e.part.isNone then some (e, tileAt e e.pos)
    else if e.pos + 1 < cSteps e.card then some (e, tileAt e (e.pos + 1))
    else (bestEnt s q (some k)).map fun b => (b.2, tileAt b.2 b.2.pos)

/-- Every page that a tile can lie on and that translates is tracked: its lines may be kept until the step begins (R310). -/
def tileTracked (s : State) (e : MEnt) (va : Nat) : Bool :=
  (List.range 4).all fun i =>
    let x := (xlatNow s e.core e.cid (va + 65536 * i)).1
    x.cls != 0 || pteTrk x.pte.toNat

/-- A move of the engine (R322): grant, run, and go on while there is work. A step that is complete pulses (R379), and what it read
of peers is not kept (R310). -/
def engineStep (s : State) (q : Nat) : State :=
  match grant s q with
  | none => s
  | some (k, e, n) =>
    let qy := getQy s q
    let e := { e with begun := true }
    -- what was read of peers for a command that has lost its grant is not kept (R310)
    let s := match qy.run.bind (tfind qy.ents) with
      | some x => if x.id = e.id then s else farDrop s x.id
      | none => s
    let s := setQy s q { qy with ents := tput qy.ents k e, run := some k, steps := n }
    match runStep s q e with
    | (none, s) => s
    | (some e', s) =>
      let qy := getQy s q
      let ended := e'.part.isNone
      let e' := if ended then { e' with lastRun := cycOf s (4 * q), aged := false } else e'
      let s := setQy s q { qy with ents := tput qy.ents k e', steps := if ended then n + 1 else n }
      let s := if ended then farDrop s e.id else s
      let s := if ended && e'.fail.isNone then pulse s e.cid else s
      let s := if e'.done then due s (.engineCommandComplete e.id) else s
      if (grant s q).isSome then due s (.matrixStep q) else s

/-! ### Completion (R324 to R327, R335) -/

/-- The status of a command. -/
def entStat (e : MEnt) : MStat :=
  let f := e.fail.getD (0, 0, 0)
  { word := BitVec.ofNat 64
      (e.kgrp * 2 ^ 32 + f.2.2 * 2 ^ 16 + (if e.fail.isSome then 2 ^ 12 + 2 ^ 11 else 0) + e.kind * 2 ^ 8 + f.1)
    addr := BitVec.ofNat 64 e.addr, fail := BitVec.ofNat 64 f.2.1, steps := BitVec.ofNat 64 e.pos }

/-- An older matrix command of the same fibre has not been counted: commands are counted in issue order (R324). -/
def behindMat (qy : Quay) (e : MEnt) : Bool :=
  qy.ents.any fun x => e.fib < 8 && x.2.core == e.core && x.2.berth == e.berth && x.2.fib == e.fib && x.2.num < e.num

/-- A matrix command is counted complete and its entry freed. -/
def completeMat (s : State) (id : Nat) : State :=
  match s.quays.find? fun q => q.2.ents.any fun e => e.2.id == id && e.2.done && !behindMat q.2 e.2 with
  | none => s
  | some (q, qy) =>
    match qy.ents.find? fun e => e.2.id == id with
    | none => s
    | some (k, e) =>
      -- those behind it look again
      let s := qy.ents.foldl (fun s x => if x.2.done && x.2.id != id && x.2.core == e.core then due s (.engineCommandComplete x.2.id) else s) s
      let s := setQy s q { qy with ents := tdel qy.ents k, run := if qy.run = some k then none else qy.run }
      let st := entStat e
      let s := match ownerPlace e.core e.berth e.fib with
        | some p =>
          countDone (modF s p fun f => { f with mstat := st }) p .matrix
            (e.fail.map fun f => { cls := .matrix, num := e.num, va := f.2.1, late := false, st })
        | none => s
      groupEnd s e.grp

end Sys2Proof.Machine
end

