-- ==== Sys2Proof/Machine/ExecMatrix.lean ====
section
/-! DEFINITION. The meanings of row 0xB_: matrix commands and accumulator rows (R330 to R335). -/
namespace Sys2Proof.Machine

/-- Entry of a berth in its quay's reservation table (R321). -/
def entryNo (p : Place) : Nat := 4 * (p.core % 4) + p.berth

/-- Owner of the far lines of a card that is being read. -/
def ownerCard (p : Place) : Nat := 2 ^ 59 + pkey p

/-- Fill the berth's entry (R321, R331, R332). -/
def fillEntry (s : State) (f : Fibre) (kind : Nat) (cpol : CPol) (addr : Nat) (card : BitVec 1024) (mask : Mask) : State :=
  let p := s.here
  let q := quayOf p.core
  let cyc := cycOf s p.core
  let e : MEnt :=
    { id := s.nextId, kind, core := p.core, berth := p.berth, fib := p.fib, grp := f.grp, cid := cidOf s f, prio := prioOf s (cidOf s f),
      pol := cpol, card, addr, mask, fill := cyc, lastRun := cyc, aged := false, pos := 0, kgrp := 0, num := issuedOf f .matrix + 1,
      begun := false, part := none, done := false, fail := none }
  let qy := getQy s q
  let s := setQy { s with nextId := s.nextId + 1 } q { qy with ents := tput qy.ents (entryNo p) e }
  due (modF s p fun f => countIssue f .matrix) (.matrixStep q)

/-- The berth's entry is full. -/
def entryFull (s : State) (p : Place) : Bool := (tfind (getQy s (quayOf p.core)).ents (entryNo p)).isSome

/-- `mpass` and `mtab` (R319, R320, R332). -/
def cardCmd (s : State) (f : Fibre) (h : Hdr) (kind : Nat) (cpol : CPol) (a : Opnd) : State :=
  let p := s.here
  let m := maskOf (passLanes s f p h.guard)
  let low := (lanesIn m).headD 0
  let va := opVal s f p a 2 0
  if m = 0 then noCmd s f
  else if entryFull s p then stall s p h
  else if va % 128 ≠ 0 then engineFault s f 6 m [(low, va)]
  else
    let r := engLoad s (ownerCard p) p.core (cidOf s f) cpol va 128
    match r.1 with
    | .wait => stall r.2.2 p h
    | .fail c => engineFault (farDrop r.2.2 (ownerCard p)) f c m [(low, r.2.1)]
    | .ok b =>
      let s := farDrop r.2.2 (ownerCard p)
      let card := BitVec.ofNat 1024 (natOf b)
      let d := descOf s f
      if cardBad card (kind == 3) then engineFault s f 0x0B m []
      else
        let c := cardCls card (64 * partAcc d) (65536 * partScr d)
        if c ≠ 0 then engineFault s f c m [] else nextX (ownDone (fillEntry s f kind cpol va card m) f [] 0) p

/-- `mwld` (R331). -/
def execMwld (h : Hdr) (cpol : CPol) (a : Opnd) (s : State) : Out :=
  run (.mwld h cpol a) s fun s f =>
    let p := s.here
    let va := opVal s f p a 2 0
    if entryFull s p then stall s p h
    else if va % 128 ≠ 0 then engineFault s f 6 f.amask [(lowLane f, va)]
    else nextX (ownDone (fillEntry s f 1 cpol va 0 f.amask) f [] 0) p

/-- `mpass` (R332). -/
def execMpass (h : Hdr) (cpol : CPol) (a : Opnd) (s : State) : Out :=
  run (.mpass h cpol a) s fun s f => cardCmd s f h 2 cpol a
/-- `mtab` (R318, R332). -/
def execMtab (h : Hdr) (cpol : CPol) (a : Opnd) (s : State) : Out :=
  run (.mtab h cpol a) s fun s f => cardCmd s f h 3 cpol a

/-! ### Accumulator rows (R333, R334) -/

/-- Faults of the row accesses: alignment of the row base, then the bound; `extra`: rows beyond the lane's first. -/
def rowBad (s : State) (f : Fibre) (base extra : Nat) (ls : List Nat) : List (Nat × Nat × Nat) :=
  if base % 32 ≠ 0 then ls.map fun l => (l, 6, base)
  else
    let n := 64 * partAcc (descOf s f)
    ls.filterMap fun l => if n ≤ base + l + extra then some (l, 7, base + l + extra) else none

/-- No lane passes: nothing is accessed, but the row base is checked before the lanes (R333). -/
def rowNone (s : State) (f : Fibre) (dst : Option (Opnd × Nat)) (acc base : Nat) : State :=
  if base % 32 = 0 then next s s.here
  else faultAt s s.here false { faultInfo f dst with cls := 6, mask := 0, acc, addrs := [(lowLane f, base)] }

/-- The number, in the order of release, of an element within what a lane of a held entry writes. -/
def heldAt (k : HoldKind) (l : HoldLane) (row col : Nat) : Option Nat :=
  match k with
  | .accst c n => if l.va = row ∧ c ≤ col ∧ col ≤ c + n then some (col - c) else none
  | .acczero n => if l.va ≤ row ∧ (row - l.va) % 32 = 0 ∧ (row - l.va) / 32 ≤ n then some (256 * ((row - l.va) / 32) + col) else none
  | _ => none

/-- The youngest held entry over an accumulator element (R333); what is released already is in the rows. -/
def heldAcc (s : State) (p : Place) (f : Fibre) (row col : Nat) : Option Word :=
  (heldEnts s p f).foldl
    (fun (o : Option Word) e => (e.lanes.zipIdx).foldl
      (fun o x => match heldAt e.kind x.1 row col with
        | some j => if x.2 = 0 ∧ j < e.pos then o else some (if e.kind matches .acczero _ then 0 else heldElem x.1 j)
        | none => o) o) none

/-- An older `accld` of the fibre that is not yet performed reads some of these rows' elements: they are read in order. -/
def sameAcc (s : State) (f : Fibre) (els : List (Nat × Nat)) : Bool :=
  s.pends.any fun q => ofPiece s.here f q && q.acc && q.lanes.any fun m => els.contains (m.va, m.pa)

/-- One element that an `accld` reads, with what is held over it. -/
def accLane (s : State) (p : Place) (f : Fibre) (lane row col j : Nat) : OpLane :=
  { lane, va := row, pa := col, trk := false, pol := .normal, comm := none, b := j, c := 0
    fwd := match heldAcc s p f row col with
      | some w => (bytesOf 4 w.toNat).map some
      | none => [] }

/-- `accld` (R333): its elements are read by RESULT_WRITEBACK, one at a time (R324). -/
def execAccld (h : Hdr) (d : Opnd) (a : Opnd) (col : BitVec 8) (cnt : BitVec 3) (s : State) : Out :=
  run (.accld h d a col cnt) s fun s f =>
    let p := s.here
    let n := cnt.toNat + 1
    let base := opVal s f p a 2 0
    let ls := passLanes s f p h.guard
    match ls, rowBad s f base 0 ls with
    | [], _ => rowNone s f (some (d, n)) 1 base
    | _, [] =>
      let lanes := ls.flatMap fun l => (List.range n).map fun j => accLane s p f l (base + l) (col.toNat + j) j
      if sameAcc s f (lanes.map fun l => (l.va, l.pa)) then stall s p h
      else
        let r := sendPend s f d n .b32 []
        next (addPend ({ r.1 with mask := maskOf ls, scratch := true, acc := true, lanes }, r.2)) p
    | _, bad => accessFault s f h true false (some (d, n)) 1 bad

/-- A held entry over accumulator rows. -/
def accEnt (f : Fibre) (k : HoldKind) (base : Nat) (ls : List Nat) (bytes : Nat → List Byte) : HoldEnt :=
  { kind := k, pc := f.pc, mask := maskOf ls, ord := .plain, sc := .fib, remap := false
    lanes := ls.map fun l => { lane := l, va := base + l, pa := 0, trk := false, pol := .normal, comm := none, bytes := bytes l } }

/-- `accst` (R334). -/
def execAccst (h : Hdr) (d : Opnd) (a : Opnd) (col : BitVec 8) (cnt : BitVec 3) (s : State) : Out :=
  run (.accst h d a col cnt) s fun s f =>
    let p := s.here
    let n := cnt.toNat + 1
    let base := opVal s f p a 2 0
    let ls := passLanes s f p h.guard
    match ls, rowBad s f base 0 ls with
    | [], _ => rowNone s f none 2 base
    | _, [] => next (holdPut s p (accEnt f (.accst col.toNat cnt.toNat) base ls fun l => bytesOf (4 * n) (opVal s f p d n l))) p
    | _, bad => accessFault s f h true false none 2 bad

/-- `acczero` (R334). -/
def execAcczero (h : Hdr) (a : Opnd) (cnt : BitVec 3) (s : State) : Out :=
  run (.acczero h a cnt) s fun s f =>
    let p := s.here
    let base := opVal s f p a 2 0
    let ls := passLanes s f p h.guard
    match ls, rowBad s f base (32 * cnt.toNat) ls with
    | [], _ => rowNone s f none 2 base
    | _, [] => next (holdPut s p (accEnt f (.acczero cnt.toNat) base ls fun _ => [])) p
    | _, bad => accessFault s f h true false none 2 bad

/-- The status that `mstat` describes: one that a `wait` has reported since the last command was counted, else the oldest abandoned
command not yet reported, else the last one counted. -/
def curStat (f : Fibre) : MStat :=
  if f.mstat.word.getLsbD 11 && !f.mstat.word.getLsbD 12 then f.mstat
  else
    match f.fails.find? fun e => e.cls == .matrix with
    | some e => e.st
    | none => f.mstat

/-- `mstat` (R335). -/
def execMstat (h : Hdr) (d : Opnd) (sel : BitVec 2) (s : State) : Out :=
  run (.mstat h d sel) s fun s f =>
    let m := curStat f
    let v := match sel.toNat with
      | 0 => m.word
      | 1 => m.addr
      | 2 => m.fail
      | _ => m.steps
    next (writeReg s s.here d 2 [(0, v.toNat)] true) s.here

end Sys2Proof.Machine
end

