-- ==== Sys2Proof/Machine/Launch.lean ====
section
/-! DEFINITION. Kernel descriptors, instances, graph runs (R274, R338 to R347, R357, R358). -/
namespace Sys2Proof.Machine

/-! ### Descriptors (R274, R338, R339) -/

def descGran (d : BitVec 1024) : Nat := partReg d + partScr d + partAcc d
/-- Slots of a kind. -/
def kindCount (d : BitVec 1024) (k : Nat) : Nat := (List.range 16).countP fun i => descKind d i == k

/-- A malformed descriptor (R339). -/
def descBad (d : BitVec 1024) : Bool :=
  let f := descFibres d
  let b := descBerths d
  dsc d 528 496 != 0 || dsc d 500 12 != 0 || dsc d 376 8 != 0 || dsc d 371 1 != 0 || kindCount d 3 != 0 ||
    descEntry d % 4 != 0 || descGate d % 4 != 0 || descDone d % 8 != 0 ||
    2 ^ 60 ≤ descEntry d || 2 ^ 60 ≤ descGate d || 2 ^ 60 ≤ descDone d ||
    b == 0 || 4 < b || f == 0 || 8 < f || descGX d == 0 || descGY d == 0 || descGZ d == 0 ||
    (List.range 8).any (fun i => f ≤ i && descRole d i != 0) ||
    (List.range 16).any (fun k => descHolder d k != 0 && (descKind d k != 2 || f ≤ descHolder d k)) ||
    descPart d % 256 != 0 || descGran d == 0 || 48 < descGran d ||
    partReg d * 64 < (b * f * kindCount d 1 + b * kindCount d 2) * 2 + b * 4

/-- Budgets of one group on a core (R368, R370). -/
def pcbOf (x : Ctx) : Nat := orDefault (blk x 192 3) 4
def pcgOf (x : Ctx) : Nat := orDefault (blk x 200 6) 48
def overBudget (x : Ctx) (d : BitVec 1024) : Bool := pcbOf x < descBerths d || pcgOf x < descGran d

/-! ### Graph runs that end (R347) -/

/-- Records of a run that have reached their end. -/
def endRecs (s : State) (run : Option Nat) (n : Nat) : State :=
  match run with
  | none => s
  | some id =>
    { s with runs := s.runs.filterMap fun (r : Run) =>
        if r.id = id then (if r.live ≤ n then none else some ({ r with live := r.live - n } : Run)) else some r }

/-! ### Instances (R341, R344, R358) -/

/-- Memory as every core would read it once all owned lines were written back. -/
def seenMem (s : State) : Memory :=
  s.cores.foldl
    (fun m c => c.2.l1.foldl (fun m e => if e.2.owned && isOwn s (e.1 * 128) then writeBack m e.1 e.2.data e.2.dirty else m) m) s.mem

/-- The launch-refused event (R341, R363). -/
def postRefused (s : State) (cid inst addr reason cls : Nat) : State :=
  postFree s cid (mkRec { time := s.time, addr, inst, aux := reason, type := 7, cls })

/-- Identifiers go from 1 to 2^32 - 1 and wrap to 1. -/
def nextIdent (n : Nat) : Nat := if n + 1 = 2 ^ 32 then 1 else n + 1

/-- The module's instance table is full. -/
def instFull (s : State) : Bool := 65536 ≤ s.insts.length

/-- A group of the instance that is to be placed or placed again; its number is that of its instance and its index. -/
def grpKey (inst index : Nat) (trail : Bool) : Nat := (2 * inst + (if trail then 1 else 0)) * 2 ^ 48 + index

/-- A context that is loaded becomes runnable (R372). -/
def makeRunnable (s : State) (cid : Nat) : State := modX s cid fun x => if x.st = 1 then { x with st := 2 } else x

/-- Accept an instance (R341): it is queued, or refused for its budget. Its identifier comes back. -/
def acceptInst (s : State) (cid daddr : Nat) (d : BitVec 1024) (run : Option Nat) (clk : Nat) : Nat × State :=
  let id := s.nextInst
  let x := getX s cid
  let s := { s with nextInst := nextIdent id, nextSeq := s.nextSeq + 1 }
  let s := modX s cid fun x => { x with iord := x.iord + 1 }
  if (x.map fun x => overBudget x d).getD false then (id, endRecs (postRefused s cid id daddr 5 0) run 1)
  else
    let i : Inst :=
      { cid, daddr, desc := d, st := .queued, next := 0, run, seq := s.nextSeq - 1, iord := ((getX s cid).map Ctx.iord).getD 0,
        code := seenMem s, clk, endClk := 0 }
    (id, due (makeRunnable (setI s id i) cid) (.groupPlace (grpKey id 0 false)))

/-- The descriptor with a parameter pointer in place of its own (R350, R356). -/
def withParam (d : BitVec 1024) (v : Nat) : BitVec 1024 :=
  if v = 0 then d else BitVec.ofNat 1024 (d.toNat - descParam d * 2 ^ 64 + v % 2 ^ 64 * 2 ^ 64)

/-! ### Graphs (R345 to R347) -/

def slotOf (s : State) (n : Nat) : Slot := tget Slot.init s.slotTab n
def setSlot (s : State) (n : Nat) (x : Slot) : State := { s with slotTab := tset Slot.init s.slotTab n x }

/-- A refused trigger. -/
def trigRefused (s : State) (n : Nat) : State :=
  setSlot s n { slotOf s n with refused := ((slotOf s n).refused + 1) % 2 ^ 32 }

/-- Ownership, task queue and runs: the reason of the first that fails, or 0; `caller` none: the host, for the owner. -/
def trigReason (s : State) (n : Nat) (caller : Option Nat) (npatch : Nat) : Nat :=
  match (slotOf s n).cid with
  | none => 4
  | some o =>
    if caller.any (· != o) then 4
    else if ((getX s o).bind Ctx.tq).isNone then 7
    else if 4 ≤ runsOf s n ∨ 64 < npatch then 3
    else 0

/-- An entry of a patch list: byte offset and value. -/
def patchOf (e : Nat) : Nat × Nat := (e % 2 ^ 32, e / 2 ^ 64 % 2 ^ 64)
def patchOk (recs : List Record) (p : Nat × Nat) : Bool := p.1 % 8 == 0 && p.1 / 64 < recs.length && 16 ≤ p.1 % 64

/-- Records with one patch applied. -/
def patchRec (recs : List Record) (p : Nat × Nat) : List Record :=
  let k := p.1 / 64
  let lo := 8 * (p.1 % 64)
  let r := (recs.getD k 0).toNat
  recs.set k (BitVec.ofNat 512 (r - r / 2 ^ lo % 2 ^ 64 * 2 ^ lo + p.2 * 2 ^ lo))

/-- Where a record of a run ends up: placed, refused, or waiting for room in a wharf. -/
inductive Placing where
  | placed (s : State)
  | gone (s : State)
  | full (w : Nat)

/-- Place one record of a run in the owner's task queue (R347, R357, R358). -/
def placeOne (s : State) (r : Run) (tq : Nat) (x : Record) : Placing :=
  let e : QRec := { rcd := x, held := none, run := some r.id, clk := r.clk }
  if recDep x = 0 then
    match placeRec s tq (keyWharf (recKey x)) e with
    | some s => .placed (tellTasks s)
    | none => .full (keyWharf (recKey x))
  else
    let refuse (s : State) (cls : Nat) : Placing := .gone (postRefused s r.cid 0 (recDep x) 6 cls)
    let a := accessNow s 0 r.cid (recDep x) { Ask.both 4 with noComm := true }
    if recDep x % 4 ≠ 0 then refuse s 6
    else if a.1 ≠ 0 then refuse a.2.2 a.1
    else if !isOwn s a.2.1 then refuse a.2.2 0
    else
      let s := collect (recallNow a.2.2 (lineNo a.2.1)) (lineNo a.2.1)
      let q := depArrive s a.2.1 r.clk tq x (some r.id)
      if q.1.cls ≠ 0 then refuse q.2 q.1.cls
      else if q.1.status ≤ 1 then .placed q.2
      else .full (sliceOfPa a.2.1)

/-- Records placed in order: those that stay, the wharves that are full, and how many were refused. -/
def placeAll (r : Run) (tq : Nat) : List Record → List Nat → State → List Record × Nat × State
  | [], _, s => ([], 0, s)
  | x :: xs, full, s =>
    let w := keyWharf (recKey x)
    if recDep x = 0 && full.contains w then
      let t := placeAll r tq xs full s
      (x :: t.1, t.2.1, t.2.2)
    else
      match placeOne s r tq x with
      | .placed s => placeAll r tq xs full s
      | .gone s => let t := placeAll r tq xs full s; (t.1, t.2.1 + 1, t.2.2)
      | .full w => let t := placeAll r tq xs (w :: full) s; (x :: t.1, t.2.1, t.2.2)

/-- Place the records of a run that can be placed now. -/
def placeRun (s : State) (id : Nat) : State :=
  match s.runs.find? fun r => r.id == id with
  | none => s
  | some r =>
    match (getX s r.cid).bind Ctx.tq with
    | none => s
    | some tq =>
      let t := placeAll r tq r.todo [] s
      let s := { t.2.2 with runs := t.2.2.runs.map fun (q : Run) => if q.id = id then ({ q with todo := t.1 } : Run) else q }
      if t.2.1 = 0 then s else endRecs s (some id) t.2.1

/-- Start a run (R347). -/
def startRun (s : State) (n cid : Nat) (patches : List (Nat × Nat)) (clk : Nat) : State :=
  let recs := patches.foldl patchRec (slotOf s n).recs
  let id := s.nextId
  let r : Run := { id, slot := n, cid, todo := recs, live := recs.length, clk }
  let s := { s with nextId := id + 1 }
  if recs.isEmpty then s else placeRun { s with runs := s.runs ++ [r] } id

end Sys2Proof.Machine
end

