-- ==== Sys2Proof/Machine/ExecSync.lean ====
section
/-! DEFINITION. The meanings of row 0xC_: barriers, queues, dependence counters, launches, graph triggers (R294 to R306, R349 to
R351, R359 to R366). -/
namespace Sys2Proof.Machine

/-! ### Group barriers (R295 to R303) -/

/-- `bar` and `bar.arr`: the commit and the drains are behind it; the piece waits until its family has all executed it. -/
def barStep (s : State) (f : Fibre) (h : Hdr) (sc : Scope) (b n : Nat) (dst : Option Opnd) : State :=
  let p := s.here
  match groupOf s f with
  | none => s
  | some g =>
    if (barOf g b).arrived.contains (rootNo p.berth f.root) then block s p (.barAgain b)
    else if !drained s p.core sc then stall (startDrains s p.core sc) p h
    else if ctxFlag s (cidOf s f) 115 && (foldRefs s f p).any (emptyRef s) then stall s p h
    else
      let s := setWaitX (nextX s p) p (.barJoin b n dst f.pc)
      settle (if famAt s p f.root (atBarJoin b f.pc) then barArrive s p f b n f.pc else s) p

/-- `bar` (R301). -/
def execBar (h : Hdr) (sc : Scope) (b : BitVec 4) (n : BitVec 6) (s : State) : Out :=
  run (.bar h sc b n) s fun s f => barStep s f h sc b.toNat n.toNat none

/-- `bar.arr` (R302). -/
def execBarArr (h : Hdr) (sc : Scope) (d : Opnd) (b : BitVec 4) (n : BitVec 6) (s : State) : Out :=
  run (.barArr h sc d b n) s fun s f => barStep s f h sc b.toNat n.toNat (some d)

/-- `bar.wt` (R303). -/
def execBarWt (h : Hdr) (sc : Scope) (a : Opnd) (b : BitVec 4) (s : State) : Out :=
  run (.barWt h sc a b) s fun s f =>
    let p := s.here
    let tok := opVal s f p a 1 0
    match groupOf s f with
    | none => s
    | some g => if (barOf g b.toNat).gen ≠ tok then nextX s p else settle (setWaitX (nextX s p) p (.barWt b.toNat tok)) p

/-! ### Home operations of one address (R305, R306, R366) -/

/-- The address of such an operation checked: a fault, walks to wait for, or its lane. -/
inductive HomeAddr where
  | ok (l : OpLane) (s : State)
  | stop (s : State)

/-- What the operation asks of its page: both rights, and no commutative page but for a queue header (R394). -/
def homeAsk (op : HomeOp) (size : Nat) : Ask :=
  match op with
  | .queue .. => Ask.both size
  | _ => { Ask.both size with noComm := true }

/-- MISALIGN, translation, both rights, no commutative page, reach: precise at once, RETRY 1, access kind 3. -/
def homeAddr (s : State) (f : Fibre) (h : Hdr) (dst : Option (Opnd × Nat)) (va align size : Nat) (op : HomeOp) : HomeAddr :=
  let p := s.here
  let m := maskOf (passLanes s f p h.guard)
  let r := laneChecks s p f (cidOf s f) align (homeAsk op size) .normal [((lanesIn m).headD 0, va)]
  match r.miss, r.bad, r.ok with
  | v :: vs, _, _ => .stop (stall (askWalks s p (cidOf s f) (v :: vs)) p h)
  | [], e :: _, _ => .stop (xFault s f dst e.2.1 3 m [(e.1, e.2.2)])
  | [], [], l :: _ => .ok l (fillTlb s p f (cidOf s f) r.ok)
  | [], [], [] => .stop s

/-- The class that the home answered, as the precise fault of the operation. -/
def homeFault (s : State) (f : Fibre) (h : Hdr) (dst : Option (Opnd × Nat)) (va cls : Nat) (op : HomeOp) : State :=
  let m := maskOf (passLanes s f s.here h.guard)
  -- an operation whose request was not answered is not performed again (R407)
  let once : Bool := match op with
    | .queue .. | .dep | .depRec .. => cls == 0x10
    | _ => false
  raise s s.here { faultInfo f dst with cls, acc := 3, mask := m, addrs := [((lanesIn m).headD 0, va)], pos := 0, retry := !once }

def isMbarOp (op : HomeOp) : Bool := match op with
  | .mbarInit _ | .mbarArr | .mbarRead => true
  | _ => false

/-- A fibre of a gang waits before its memory barrier operation on another module of the gang acts, until the start packets of
the slice have arrived from every module (R376). -/
def gangWaits (s : State) (f : Fibre) (op : HomeOp) (pa : Nat) : Bool :=
  match getX s (cidOf s f) with
  | none => false
  | some x =>
    let id := blk x 768 32
    let g := tget Gang.init s.gangs id
    let m := pa / 2 ^ 47 % 512
    flag x 119 && isMbarOp op && !isOwn s pa && Config.gangMember id m &&
      !(g.placed && (List.range 512).all fun k => k == s.modNo || !Config.gangMember id k || g.packets.contains k)

/-- Begin such an operation; the address that its translation gave is kept with it. -/
def beginAt (s : State) (f : Fibre) (l : OpLane) : State :=
  let o : OpRun := { pc := f.pc, stage := 0, lanes := [l], got := [], bad := [], aux := 0, rcd := 0, pa := some l.pa, va := l.va }
  setF s s.here { f with op := some o }

/-- One request to the home of an address, its drains first where it is a release, and what follows the answer. -/
def homeOp (s : State) (f : Fibre) (h : Hdr) (dst : Option (Opnd × Nat)) (va align size : Nat) (rel : Bool) (sc : Scope) (op : HomeOp)
    (fin : State → Fibre → OpRun → State) (sy : Option Scope := none) : State :=
  let p := s.here
  match f.op with
  | none =>
    match homeAddr s f h dst va align size op with
    | .stop s => s
    | .ok l s => if gangWaits s f op l.pa then stall s p h else beginAt s f l
  | some o =>
    if opOut s p then opWait s h
    else if o.stage = 0 && rel && !drained s p.core sc then stall (startDrains s p.core sc) p h
    else
      match o.lanes, o.bad with
      | l :: _, _ => opSend s f l.pa op (sy := sy)
      | [], e :: _ => homeFault s f h dst va e.2 op
      | [], [] => fin s f o

/-! ### Memory barriers (R298, R304, R305) -/

/-- `mbar.init` (R304). -/
def execMbarInit (h : Hdr) (sc : Scope) (a : Opnd) (b : Opnd) (s : State) : Out :=
  run (.mbarInit h sc a b) s fun s f =>
    let fin (s : State) (f : Fibre) : State := nextX (ownDone s f [] 0) s.here
    match forwarded f with
    | some _ => fin s f
    | none =>
      homeOp s f h none (opVal s f s.here a 2 0) 16 16 true sc (.mbarInit (opVal s f s.here b 2 0 % 2 ^ 32)) fun s f _ => fin s f

/-- `mbar.arr` (R305). -/
def execMbarArr (h : Hdr) (sc : Scope) (d : Opnd) (a : Opnd) (s : State) : Out :=
  run (.mbarArr h sc d a) s fun s f =>
    let fin (s : State) (f : Fibre) (g : Nat) : State := nextX (ownDone (writeReg s s.here d 2 [(0, g)] false) f [] g) s.here
    match forwarded f with
    | some r => fin s f r.2
    | none => homeOp s f h (some (d, 2)) (opVal s f s.here a 2 0) 16 16 true sc .mbarArr fun s f o => fin s f o.aux

/-- `mbar.wt` (R305): while the generation is the token's, the fibre waits as `park` does and then reads again. -/
def execMbarWt (h : Hdr) (sc : Scope) (a : Opnd) (b : Opnd) (s : State) : Out :=
  run (.mbarWt h sc a b) s fun s f =>
    let p := s.here
    let va := opVal s f p a 2 0
    let tok := opVal s f p b 2 0
    match forwarded f with
    | some _ => nextX (ownDone s f [] 0) p
    | none =>
      homeOp s f h none va 16 16 false sc .mbarRead fun s f o =>
        if o.aux ≠ tok then nextX (ownDone s f [] 0) p
        else
          let wt := (o.got.headD (0, 0)).2
          block (modF s p fun f => { f with op := none, probed := cycOf s p.core }) p (.mbarWt (o.pa.getD 0) (some wt))

/-! ### Queues and dependence counters (R365, R366) -/

/-- The record in a block of eight scalars (R356). -/
def blockRec (f : Fibre) (o : Option Opnd) : Record :=
  match o with
  | some (.s k) => BitVec.ofNat 512 ((List.range 8).foldr (fun j acc => (sget f (k.toNat + j)).toNat + 2 ^ 64 * acc) 0)
  | _ => 0

/-- No lane passes: the order is kept, and nothing else happens (R249, R366). -/
def queueSkip (s : State) (f : Fibre) (x : QOp) : State :=
  if mustWaitDrain s x.ord x.sc then stall (startDrains s s.here.core x.sc) s.here x.h else nextX (ownDone s f [] 0) s.here

/-- The end of a queue operation: the status, and the record that a take brought. -/
def queueFin (s : State) (f : Fibre) (x : QOp) (got : List (Nat × Nat)) (st : Nat) : State :=
  let s := match x.blk, got with
    | some o, [(_, v)] => writeReg s s.here o 16 [(0, v)] false
    | _, _ => s
  nextX (ownDone (writeReg s s.here x.d 2 [(0, st)] false) f got st) s.here

/-- The scope of a push that releases, and of a take that acquires (R361). -/
def relSy (x : QOp) : Option Scope := if drains x.ord then some x.sc else none
def acqSy (x : QOp) : Option Scope := if x.ord = .acq then some x.sc else none

/-- `qpush` and `dq.push` of a record that goes to its queue's own wharf, and refusals (R366). -/
def queuePush (s : State) (f : Fibre) (x : QOp) (major : Nat) : State :=
  let rcd := blockRec f x.blk
  homeOp s f x.h (some (x.d, 2)) (opVal s f s.here x.a 2 0) 128 128 (drains x.ord) x.sc (.queue major rcd)
    (fun s f o => queueFin s f x [] o.aux) (relSy x)

/-- The DEP of a `qpush` is translated, then the record goes to the counter's home (R357, R362, R366). -/
def depPush (s : State) (f : Fibre) (x : QOp) (rcd : Record) (o : OpRun) : State :=
  let p := s.here
  let m := maskOf (passLanes s f p x.h.guard)
  let ask (va : Nat) : LaneRes :=
    laneChecks s p f (cidOf s f) 4 { Ask.both 4 with noComm := true } .normal [((lanesIn m).headD 0, va)]
  let q := ask (recDep rcd)
  let hpa : Nat := o.pa.getD 0
  -- a counter that is homed on another module than the queue is refused, whether or not it can be reached (R366)
  let away : Bool := (fibXlat s p f (cidOf s f) (recDep rcd / 2 ^ 16)).any fun t =>
    t.cls == 0 && rightsCls s { Ask.both 4 with noComm := true } t (recDep rcd) == 0 && leafPa t (recDep rcd) / 2 ^ 47 != hpa / 2 ^ 47
  if q.bad.any (fun e => e.2.1 == 0x10) && away then queueFin s f x [] (status 1 2)
  else
  match q.miss, q.bad, q.ok with
  | v :: vs, _, _ => stall (askWalks s p (cidOf s f) (v :: vs)) p x.h
  | [], e :: _, _ => xFault s f (some (x.d, 2)) e.2.1 3 m [(e.1, e.2.2)]
  | [], [], l :: _ =>
    if l.pa / 2 ^ 47 ≠ hpa / 2 ^ 47 then queueFin s f x [] (status 1 2)
    else
      opSend (setF (fillTlb s p f (cidOf s f) q.ok) p { f with op := some { o with stage := 2, lanes := [l] } })
        { f with op := some { o with stage := 2, lanes := [l] } } l.pa (.depRec hpa rcd none) (sy := relSy x)
  | [], [], [] => s

/-- `qpush` (R366). -/
def execQpush (x : QOp) (s : State) : Out :=
  run (.qpush x) s fun s f =>
    let rcd := blockRec f x.blk
    if suppressed s f x.h then queueSkip s f x
    else
      match forwarded f with
      | some r => queueFin s f x [] r.2
      | none =>
        if recDep rcd = 0 ∨ recBad 0xC6 rcd = true then queuePush s f x 0xC6
        else
          -- what the counter's home answers is about DEP
          let late : Bool := (f.op.map fun (o : OpRun) => decide (3 ≤ o.stage)).getD false
          homeOp s f x.h (some (x.d, 2)) (if late then recDep rcd else opVal s f s.here x.a 2 0) 128 128 (drains x.ord) x.sc (.queue 0 rcd)
            fun s f o => if 3 ≤ o.stage then queueFin s f x [] o.aux else depPush s f x rcd o

/-- `dq.push` (R366). -/
def execDqPush (x : QOp) (s : State) : Out :=
  run (.dqPush x) s fun s f =>
    if suppressed s f x.h then queueSkip s f x
    else
      match forwarded f with
      | some r => queueFin s f x [] r.2
      | none => queuePush s f x 0xC8

/-- `qpop`, `dq.pop` and `dq.steal` (R360, R366). -/
def queueTake (s : State) (f : Fibre) (x : QOp) (major : Nat) : State :=
  if suppressed s f x.h then queueSkip s f x
  else
    match forwarded f with
    | some r => queueFin s f x r.1 r.2
    | none =>
      homeOp s f x.h (some (x.d, 2)) (opVal s f s.here x.a 2 0) 128 128 false x.sc (.queue major 0)
        (fun s f o => queueFin s f x (if o.aux = 0 then [] else [(0, o.rcd.toNat)]) o.aux) (acqSy x)

/-- `qpop` (R366). -/
def execQpop (x : QOp) (s : State) : Out := run (.qpop x) s fun s f => queueTake s f x 0xC7
/-- `dq.pop` (R366). -/
def execDqPop (x : QOp) (s : State) : Out := run (.dqPop x) s fun s f => queueTake s f x 0xC9
/-- `dq.steal` (R366). -/
def execDqSteal (x : QOp) (s : State) : Out := run (.dqSteal x) s fun s f => queueTake s f x 0xCA

/-- `dep.dec` (R362, R366). -/
def execDepDec (x : QOp) (s : State) : Out :=
  run (.depDec x) s fun s f =>
    if suppressed s f x.h then queueSkip s f x
    else
      match forwarded f with
      | some r => queueFin s f x [] r.2
      | none =>
        homeOp s f x.h (some (x.d, 2)) (opVal s f s.here x.a 2 0) 4 4 (drains x.ord) x.sc .dep fun s f o => queueFin s f x [] o.aux

/-! ### Launches and triggers (R349 to R351) -/

/-- The status of a `launch` or `graph.trig`. -/
def trigStatus (s : State) (f : Fibre) (d : Opnd) (v : Nat) : State :=
  nextX (ownDone (writeReg s s.here d 2 [(0, v)] false) f [] v) s.here

/-- Read an operand in memory for such an instruction: precise faults, RETRY 1. -/
def readThen (s : State) (f : Fibre) (h : Hdr) (d : Opnd) (va align n : Nat) (k : State → Nat → State) : State :=
  let p := s.here
  let m := maskOf (passLanes s f p h.guard)
  let low := (lanesIn m).headD 0
  if va % align ≠ 0 then xFault s f (some (d, 2)) 6 1 m [(low, va)]
  else
    let r := engLoad s (ownerCard p) p.core (cidOf s f) .normal va n
    match r.1 with
    | .wait => stall r.2.2 p h
    | .fail c => xFault (farDrop r.2.2 (ownerCard p)) f (some (d, 2)) c 1 m [(low, r.2.1)]
    | .ok b => k (farDrop r.2.2 (ownerCard p)) (natOf b)

/-- `launch` (R350). -/
def execLaunch (h : Hdr) (d : Opnd) (a : Opnd) (b : Opnd) (s : State) : Out :=
  run (.launch h d a b) s fun s f =>
    let p := s.here
    let va := opVal s f p a 2 0
    if !drained s p.core .mod then stall (startDrains s p.core .mod) p h
    else if suppressed s f h then nextX (ownDone s f [] 0) p
    else
      match forwarded f with
      | some r => trigStatus s f d r.2
      | none =>
        readThen s f h d va 128 128 fun s v =>
          let dsc := withParam (BitVec.ofNat 1024 v) (opVal s f p b 2 0)
          if descBad dsc then trigStatus s f d (status 1 1)
          else if instFull s then trigStatus s f d (status 1 2)
          else
            let r := acceptInst s (cidOf s f) va dsc none (clockOf s p.core)
            trigStatus r.2 f d r.1

/-- `graph.trig` (R347, R351). -/
def execGraphTrig (h : Hdr) (d : Opnd) (a : Opnd) (b : Opnd) (c : Opnd) (s : State) : Out :=
  run (.graphTrig h d a b c) s fun s f =>
    let p := s.here
    let sa := opVal s f p a 2 0
    let n := sa % 1024
    let np := opVal s f p c 2 0
    let cid := cidOf s f
    if !drained s p.core .mod then stall (startDrains s p.core .mod) p h
    else if suppressed s f h then nextX (ownDone s f [] 0) p
    else
      match forwarded f with
      | some r => trigStatus s f d r.2
      | none =>
        if sa / 1024 ≠ 0 then trigStatus s f d (status 1 3)
        else if 64 < np then trigStatus (trigRefused s n) f d (status 1 3)
        else if trigReason s n (some cid) np ≠ 0 then trigStatus (trigRefused s n) f d (status 1 (trigReason s n (some cid) np))
        else
          let go (s : State) (v : Nat) : State :=
            let ps := (List.range np).map fun i => patchOf (v / 2 ^ (128 * i) % 2 ^ 128)
            if ps.all (patchOk (slotOf s n).recs) then trigStatus (startRun s n cid ps (clockOf s p.core)) f d 0
            else trigStatus (trigRefused s n) f d (status 1 3)
          if np = 0 then go s 0 else readThen s f h d (opVal s f p b 2 0) 16 (16 * np) go

end Sys2Proof.Machine
end

