-- ==== Sys2Proof/Machine/Issue.lean ====
section
/-! DEFINITION. Which word a berth issues next, and what the world outside does to the machine between the rows of the table
(R59, R147 to R149, R163, R224, R234, R396; log entries 1, 9, DESIGN CHOICE). -/
namespace Sys2Proof.Machine

/-- The place of a berth's current fibre. -/
def curPlace (s : State) (core berth : Nat) : Place := { core, berth, fib := (getB s core berth).cur }

/-- Cycles that a ready fibre has waited; nothing for one that is not ready. -/
def waitedFib (s : State) (p : Place) : Option Nat :=
  match getF s p with
  | some f => if readyFib s p then some (cycOf s p.core - f.readySince) else none
  | none => none

/-- The fibre that the starvation rule puts on the berth (R149): the oldest ready one that is not current and has waited 4,080
cycles, the lowest index first. -/
def starved (s : State) (core berth : Nat) : Option Nat :=
  ((List.range 8).foldl
    (fun (b : Option (Nat × Nat)) c =>
      if c = (getB s core berth).cur then b
      else
        match waitedFib s { core, berth, fib := c } with
        | some w =>
          if w < 4080 then b
          else
            match b with
            | some x => if x.2 < w then some (c, w) else b
            | none => some (c, w)
        | none => b) none).map Prod.fst

/-- A word that is no instruction: UNDEF once every older instruction has taken its effect (R55, R56). -/
def undefWord (s : State) (p : Place) : State := if hasPend s p then s else issueFault s p false 1 none []

/-- A fetch fault: a span fault, precise in pilot gear once the older results are in (R59). -/
def fetchFault (s : State) (p : Place) (cls va : Nat) : State :=
  match getF s p with
  | none => s
  | some f =>
    if f.pilot.on && hasPend s p then s
    else faultAt s p false { faultInfo f none with cls, acc := 4, addrs := [((lanesIn f.amask).headD 0, va)] }

/-- What a berth does in a turn: run a row of the table, or something on the way to one. -/
inductive Issuing where
  | act (i : Instr) (s : State)
  | done (s : State)

/-- The word at the current fibre's pc, fetched and decoded. -/
def issueWord (s : State) (p : Place) (f : Fibre) : Issuing :=
  let r := fetchWord s p f false
  match r.1 with
  | .wait => .done r.2
  | .fail c va => .done (fetchFault (farDrop r.2 (ownerFetch p)) p c va)
  | .ok w =>
    let s := modF { farDrop r.2 (ownerFetch p) with here := p } p fun f => { f with fetched := some (f.pc, w) }
    match decodeWord w with
    | .error _ => .done (undefWord s p)
    | .ok i => .act i s

/-- A turn of a berth (R148, R149, R163). -/
def issueAt (s : State) (core berth : Nat) : Issuing :=
  let p := curPlace s core berth
  -- a die whose clock stands still issues nothing (R31)
  if dieStands s (dieOf core) then .done s
  else
  match starved s core berth, getF s p with
  | some _, _ => .act (.starvationOverride core berth) s
  | none, none => .done (passBerth s core berth)
  | none, some f =>
    if !eligible s p f then .done (passBerth (if stopped s p f then noteStop s f.grp else s) core berth)
    else if f.span.faulted.isSome then .done (dueOnce s (.spanCommitRefused p))
    else if f.committing && f.fetched.isNone then .done (commitPiece s p).2
    else if f.committing || f.op.isSome then issueWord s p f
    else if 4096 ≤ (getB s core berth).run then .act (.fibreQuantumExpiry core berth) s
    else if 256 ≤ f.halfCount && !f.halves.isEmpty then .act (.dividedHalfRotate p) s
    else issueWord s p f

/-- The compute die on whose clock a row acts, where it is one (R31). -/
def rowDie (s : State) (i : Instr) : Option Nat :=
  let ofReq (id : Nat) : Option Nat := (findReq s id).map fun r => sliceOfPa r.pa / 64
  let ofReply (id : Nat) : Option Nat := (s.replies.find? fun x => x.id == id).map fun x => dieOf x.req.core
  match i with
  | .instructionFetchReturn p _ | .dividedHalfRotate p | .spanLengthLimit p | .spanCommitRefused p | .gateOpen p | .spinNudge p
  | .parkProbe p | .eventPost p | .spanCompare p => some (dieOf p.core)
  | .peerReply id _ | .peerReplyTimeout id => (findReq s id).map fun r => dieOf r.core
  | .engineCommandComplete id => (s.cmds.find? fun c => c.id == id).map fun c => dieOf c.core
  | .resultWriteback id => (s.pends.find? fun q => q.id == id).map fun q => dieOf q.core
  | .fibreQuantumExpiry core _ | .starvationOverride core _ | .parkedClockNudge core | .copyCommandExecute core _
  | .gatherCommandExecute core _ => some (dieOf core)
  | .homeLeaseRequest id | .ownershipRequest id | .untrackedAccess id | .partialArrival id | .homeAtomic id | .homeMbarOp id
  | .homeQueueOp id | .homeDepDec id | .depRecordArrival id | .portReply id _ => ofReq id
  | .leaseReply id | .ownershipGrant id | .atomicReply id | .parkProbeReply id => ofReply id
  | .recall id => (s.recalls.find? fun c => c.id == id).map fun c => dieOf c.core
  | .recallAnswer id => (s.recalls.find? fun c => c.id == id).map fun c => sliceOfPa (c.line * 128) / 64
  | .promVictim id => (findReq s id).bind fun r => match r.op with
    | .prom v _ => some (dieOf v)
    | _ => none
  | .peerPacket _ pa _ _ => some (sliceOfPa pa / 64)
  | .hostMemoryAccess (.read pa _) | .hostMemoryAccess (.write pa _) => some (sliceOfPa pa / 64)
  | .matrixStep q | .matrixAgePromote q _ | .weightPlaneLoad q => some (q / 32)
  | .walkComplete d _ | .walkDispatch d => some d
  | _ => none

/-- The row's die stands still: the row waits. -/
def rowWaits (s : State) (i : Instr) : Bool := (rowDie s i).any (dieStands s)

/-- The resident kernel runs (R384, R431). -/
def kernelRuns (s : State) : Bool := decide (5 ≤ s.boot.stage) && !s.boot.crashed

/-- What the world does that is no row of the table (log entries 1 and 9, DESIGN CHOICE): the L1s and translation caches give entries up,
memory errors come and go, and what lies outside the module or is measured changes. -/
def outsideAct (s : State) (a : Action) : State :=
  match a with
  | .issue _ _ | .event _ => s
  | .evict core line => evictCopy s core line
  | .sendParts core line =>
    let x := getC s core
    match tfind x.parts line with
    | some q => sendReq (setC s core { x with parts := tdel x.parts line }) core 0 (line * 128) (.part (s.modNo * 1024 + core) q) .drop
    | none => s
  | .spillFull line => if isErr s line then s else collect s line
  | .dropTlb core =>
    let x := getC s core
    setC s core { x with tlb := x.tlb.dropLast }
  | .memError line present =>
    if present then (if isErr s line then s else { s with errLines := s.errLines ++ [line] })
    else { s with errLines := s.errLines.filter (· != line) }
  | .outside pa bytes => if isPort s pa then { s with mem := memWr s.mem (localAddr pa) bytes } else s
  | .upload n cid recs =>
    if n < 1024 ∧ recs.length ≤ 1024 ∧ (tget Slot.init s.slotTab n).cid = none ∧ (getX s cid).isSome then
      -- REFUSED is cleared by its read alone (R346)
      { s with slotTab := tset Slot.init s.slotTab n { tget Slot.init s.slotTab n with cid := some cid, recs } }
    else s
  | .sensor a v =>
    match regAt a with
    | some .pwr | some .temp => setReg s a v
    | _ =>
      -- the CRC field of a registry entry no longer fits its bits (R385, R386)
      if 0xFF80000000 ≤ a ∧ a < 0xFF80200000 then modX s ((a - 0xFF80000000) / 512) fun x => { x with crcErr := v.setWidth 32 } else s
  | .flash image => if kernelRuns s then { s with boot := { s.boot with update := some image } } else s
  | .hostWindow base size => if kernelRuns s then { s with hostWin := (base, size) } else s
  | .openRegs pa size => if kernelRuns s then { s with hostRegs := s.hostRegs ++ [(pa, size)] } else s
  | .closeRegs => if kernelRuns s then { s with hostRegs := slotRegs } else s

/-- The silence count of a context runs while the context does (R380). -/
def tickCtx (crashed : Bool) (dt : Nat) (x : Ctx) : Ctx := if x.st = 3 && !crashed then { x with silence := x.silence + dt } else x

/-! ### Lane cycles (R426) -/

/-- Base of a die's block. -/
def dieBase (d : Nat) : Nat := 0x010000000000 + 0x10000 * d

/-- The lowest range of a die that holds an address. -/
def laneRange (s : State) (d pc : Nat) : Option Nat :=
  (List.range 16).find? fun r =>
    (getReg s (dieBase d + 0x1100 + 16 * r)).toNat ≤ pc && pc < (getReg s (dieBase d + 0x1108 + 16 * r)).toNat

/-- Add to the count of a class in a range. -/
def addLanes (s : State) (d r c n : Nat) : State :=
  let a := dieBase d + 0x2000 + 40 * r + 8 * c
  setReg s a (getReg s a + BitVec.ofNat 64 n)

/-- The lane-cycle control of a die: counting, for this context. -/
def laneOn (s : State) (d cid : Nat) : Bool :=
  let en := (getReg s (dieBase d + 0x1000)).toNat
  en / 4096 % 2 == 1 && en % 4096 == cid

/-- The cycles of a berth from `c0` up to `c1` in which it issued nothing are idle, at the next instruction of its current fibre. -/
def idleBerth (s : State) (c0 c1 core berth : Nat) : State :=
  let b := getB s core berth
  let p := curPlace s core berth
  let n := c1 - c0 - (if b.lastIssue.1 = c0 ∧ b.lastFib < 8 then 1 else 0)
  match getF s p with
  | none => s
  | some f =>
    if n = 0 ∨ laneOn s (dieOf core) (cidOf s f) = false then s
    else
      match laneRange s (dieOf core) (nextPc f).toNat with
      | some r => addLanes s (dieOf core) r 4 (32 * n)
      | none => s

/-- The idle cycles of every die that counts, until the time is `t`. -/
def countIdle (s : State) (t : Nat) : State :=
  ((List.range 8).filter fun d => (getReg s (dieBase d + 0x1000)).toNat / 4096 % 2 == 1).foldl
    (fun s d =>
      let bs := s.groups.flatMap fun e => if dieOf e.2.core = d ∧ e.2.st ≠ .saved then e.2.berths.map fun b => (e.2.core, b) else []
      bs.foldl (fun s b => idleBerth s (dieCyc (getD s d) s.time) (dieCyc (getD s d) t) b.1 b.2) s) s

/-- A turn begins: ticks of the reference timer pass (R30). -/
def tick (s0 : State) (dt : Nat) : State :=
  let s := countIdle s0 (s0.time + dt)
  { s with time := s.time + dt, tickStart := dt != 0, crossed := [], ctxs := s.ctxs.map fun e => (e.1, tickCtx s.boot.crashed dt e.2) }

/-- The guard of an instruction word. -/
def guardOf (i : Instr) : Guard := match i.info with
  | some x => x.h.guard
  | none => .always

/-- Lanes of an issuing instruction by class: active, predicated off, masked by divergence, absent. -/
def laneClasses (s : State) (p : Place) (f : Fibre) (g : Guard) : List Nat :=
  let act := (passLanes s f p g).length
  let all := popMask f.amask
  let live := popMask ((famPlaces s p f.root).foldl (fun m q => match getF s q with
    | some h => m ||| liveMask h
    | none => m) 0)
  [act, all - act, live - all, 32 - live]

/-- The instruction at `here` of state `s` has issued: in `t` it is not where it was. -/
def hasIssued (s t : State) (f : Fibre) : Bool :=
  f.op.isNone && !f.committing &&
    (match getF t s.here with
     | some g => g.fetched.isNone || g.op.isSome || g.wait != .none
     | none => true)

/-- Count the lane cycles of an instruction that has issued (R426). -/
def countLanes (s t : State) (i : Instr) : State :=
  let p := s.here
  let d := dieOf p.core
  match getF s p with
  | none => t
  | some f =>
    if i.info.isSome ∧ laneOn s d (cidOf s f) = true ∧ hasIssued s t f = true then
      match laneRange s d f.pc.toNat with
      | none => t
      | some r => (laneClasses s p f (guardOf i)).zipIdx.foldl (fun t e => addLanes t d r e.2 e.1) t
    else t

/-- A row that is an event, not an instruction word. -/
def isEvent (i : Instr) : Bool := i.info.isNone

/-! ### Placing one instruction (for `State.withFetchWord`) -/

/-- A descriptor with one fibre, one berth and 16 private blocks. -/
def oneDesc (pc : Nat) : BitVec 1024 :=
  BitVec.ofNat 1024 (pc + 0x01010100 * 2 ^ 256 + 2 ^ 320 + 2 ^ 336 + 2 ^ 352 + 2 ^ 368 + 2 ^ 372 + 0x55555555 * 2 ^ 416)

/-- A machine in which a group with one fibre stands at the focus, its code mapped and in memory: what a launch and a placement
would have left (log entry 5, DESIGN CHOICE). -/
def placeWords (s : State) (bytes : List Byte) : State :=
  let core := s.focus.1
  let berth := s.focus.2
  let pc := 0x30000
  let cid := 1
  let pa := s.modNo * 2 ^ 47 + pc
  let mem := memWr s.mem pc bytes
  let inst : Inst :=
    { cid, daddr := 0, desc := oneDesc pc, st := .placed, next := 1, run := none, seq := 0, iord := 1, code := mem, clk := 0, endClk := 0 }
  let grp : Group :=
    { inst := 0, index := 0, core, berths := [berth], st := .placed, since := s.time, scratch := [], acc := [], bars := [], cbase := [],
      partner := none, lead := true, kept := [], keptBerths := [], regs := [], slot := none, saveErr := none,
      marked := [], emptied := [], deferred := false }
  let x := getC s core
  let ent : TlbEnt := { cid, vpn := pc / 2 ^ 16, level := 0, pte := BitVec.ofNat 64 (0x53 + pa) }
  let s := { s with
    mem
    insts := tput s.insts 0 inst
    groups := tput s.groups 0 grp
    regs := tset 0 s.regs (rootAddr cid) 1
    fibres := s.fibres.filter fun e => !(bkey core berth * 8 ≤ e.1 && e.1 < bkey core berth * 8 + 8) }
  let s := setB (setC s core { x with tlb := ent :: x.tlb }) core berth { getB s core berth with cur := 0, run := 0 }
  let f := startFibre s 0 0 core 0 (BitVec.ofNat 64 pc) (BitVec.allOnes 32)
  { setF s { core, berth, fib := 0 } f with sched := { dt := 1, act := .issue core berth } :: s.sched }

end Sys2Proof.Machine
end

