-- ==== Sys2Proof/Machine/EvFibre.lean ====
section
/-! DEFINITION. Events of fibres, berths and spans: fetches, results, switches, refused commits, gates, compares (R59, R148, R149,
R151, R163, R179, R185 to R190, R199 to R203, R364, R416 to R418). -/
namespace Sys2Proof.Machine

/-! ### Fetches and results -/

/-- INSTRUCTION_FETCH_RETURN (R59, R61): a fetch of the word at the fibre's pc completes; `fresh`: as memory stands now. -/
def execInstructionFetchReturn (p : Place) (fresh : Bool) (s : State) : Out := .next <|
  match getF s p with
  | none => s
  | some f =>
    if !eligible s p f || f.span.faulted.isSome || f.committing || f.op.isSome || f.fetched.isSome then s
    else
      let r := fetchWord s p f fresh
      match r.1 with
      | .wait => r.2
      | .fail c va => fetchFault (farDrop r.2 (ownerFetch p)) p c va
      | .ok w => readied s (modF (farDrop r.2 (ownerFetch p)) p fun f => { f with fetched := some (f.pc, w) }) p.core p.berth

/-- The piece to which a result belongs: its own context for a scalar, else a piece with some of its lanes. -/
def pendOwner (s : State) (q : Pend) : Option Place :=
  let p : Place := { core := q.core, berth := q.berth, fib := q.fib }
  let cs := if q.scalar then [p] else famPlaces s p q.root
  cs.find? fun c => (getF s c).any fun f => ofPiece c f q

/-- 32-bit registers of a result. -/
def pendRegs (q : Pend) : Nat := (q.size + 3) / 4

/-- A fault of an instruction that issued earlier: at speed it is latched, in pilot gear it is precise at that instruction; which
of the two is settled at its issue. -/
def pendFault (s : State) (p : Place) (q : Pend) (cls : Nat) (mask : Mask) (addrs : List (Nat × Nat)) (acc : Nat) : State :=
  match getF s p with
  | none => s
  | some f =>
    if q.pilot then
      -- an instruction that faults has taken no effect, so it is not counted, unless its class lets it complete
      let f := if completes cls then f else { f with span := { f.span with count := q.pos } }
      raise (setF s p f) p
        { faultInfo f (some (q.dst, pendRegs q)) with cls, pc := q.pc, pos := q.pos, mask, addrs, acc, retry := !completes cls }
    else spanFault s p cls

/-- The pieces that some of these lanes of a result belong to: a result in flight when its fibre splits faults in each of them
(R162). -/
def pendPieces (s : State) (q : Pend) (p : Place) (m : Mask) : List Place :=
  if q.scalar then [p]
  else (famPlaces s p q.root).filter fun c => (getF s c).any fun f => ofPiece c f q && liveMask f &&& m != 0

/-- The fault of an instruction that issued earlier, in every piece that has some of its faulting lanes. -/
def pendFaults (s : State) (p : Place) (q : Pend) (cls : Nat) (m : Mask) (addrs : List (Nat × Nat)) (acc : Nat) : State :=
  (pendPieces s q p m).foldl
    (fun s c =>
      let k : Mask := if q.scalar then BitVec.allOnes 32 else ((getF s c).map liveMask).getD 0
      pendFault s c q cls (m &&& k) (addrs.filter fun e => k.getLsbD e.1) acc) s

/-- RESULT_WRITEBACK (R151): the result is written and its registers are full; a piece with a lane that failed faults instead. -/
def writeback (s : State) (q : Pend) (p : Place) (f : Fibre) : State :=
  match pickFault q.bad with
  | some (c, m, as) =>
    -- pieces without a failing lane have their results
    let lost := if q.scalar then BitVec.allOnes 32 else (pendPieces s q p (maskOf (q.bad.map Prod.fst))).foldl (fun (k : Mask) c =>
      k ||| ((getF s c).map liveMask).getD 0) 0
    let vs := (q.vals.map fun e => (e.1, loadVal q.ty q.dst e.2)).filter fun e => !lost.getLsbD e.1
    pendFaults (if vs.isEmpty then s else putRefs s q.dst (pendRegs q) q.refs vs) p q c (lanesOf m) (addrsOf as) 1
  | none =>
    let vs := q.vals.map fun e => (e.1, loadVal q.ty q.dst e.2)
    let w := inject s p f q.dst (pendRegs q) vs
    let s := putRefs w.2 q.dst (pendRegs q) q.refs w.1
    let s := modF s p fun f => { f with dual := f.dual.map fun (d : Dual) =>
      if d.lead && q.seq != 0 then ({ d with loads := d.loads ++ [(f.spanNo, q.seq, q.vals)] } : Dual) else d }
    match q.post, q.wat with
    | some (c, m), _ => pendFaults s p q c m [] 0
    | none, [] => s
    | none, ws => pendFaults s p q 0x0E (lanesOf (maskOf (ws.map Prod.fst))) (addrsOf ws) 1
where
  /-- a scalar operation is reported in every lane that passes, with the lowest one's address -/
  lanesOf (m : Mask) : Mask := if q.scalar then q.mask else m
  addrsOf (l : List (Nat × Nat)) : List (Nat × Nat) := if q.scalar then l.map fun e => ((lanesIn q.mask).headD 0, e.2) else l

/-- A load performs what it can of its lanes; a result that is complete is written. -/
def execResultWriteback (id : Nat) (s : State) : Out := .next <|
  match s.pends.find? fun q => q.id == id with
  | none => s
  | some q =>
    let drop (s : State) : State := { s with pends := s.pends.filter fun x => x.id != id }
    match pendOwner s q with
    | none => drop s
    | some p =>
      match getF s p with
      | none => drop s
      | some f =>
        let r := performLoad s p f q
        if r.1.lanes.isEmpty then
          match getF r.2 p with
          | some f =>
            let t := readied s (writeback (drop r.2) r.1 p f) p.core p.berth
            -- a step or a halt that waited for this result (R422, R423)
            if f.dbg.ended || f.dbg.want == 1 then settleHalt t p else t
          | none => drop r.2
        else
          let s := { r.2 with pends := swapFirst (fun x : Pend => x.id == id) r.1 r.2.pends }
          if q.acc then due s (.resultWriteback id) else s

/-! ### Switches (R148, R149, R163) -/

/-- FIBRE_QUANTUM_EXPIRY (R148): 4,096 instructions in a row. With no other ready fibre the count restarts (R149). -/
def execFibreQuantumExpiry (core berth : Nat) (s : State) : Out :=
  .next <|
    if 4096 ≤ (getB s core berth).run then
      let t := passBerth s core berth
      setB t core berth { getB t core berth with run := 0 }
    else s

/-- STARVATION_OVERRIDE (R149). -/
def execStarvationOverride (core berth : Nat) (s : State) : Out := .next <|
  match starved s core berth with
  | some c => setB s core berth { getB s core berth with cur := c, run := 0 }
  | none => s

/-- DIVIDED_HALF_ROTATE (R163): 256 instructions of the running half. -/
def execDividedHalfRotate (p : Place) (s : State) : Out := .next <|
  match getF s p with
  | none => s
  | some f =>
    if f.halves.isEmpty || f.halfCount < 256 || !eligible s p f || f.op.isSome || f.committing || (f.pilot.on && hasPend s p) then s
    else setF s p (rotate f)

/-- SPAN_LENGTH_LIMIT (R179): the span has issued as many instructions as its limit. -/
def execSpanLengthLimit (p : Place) (s : State) : Out := .next <|
  match getF s p with
  | none => s
  | some f =>
    if f.span.count < f.span.limit || !eligible s p f || f.op.isSome then s else (commitPiece s p).2

/-! ### Refused commits (R185, R187, R190, R202) -/

/-- The other copy of a redundant pair. -/
def twin (f : Fibre) : Option Place := f.dual.map fun d => { core := d.core, berth := d.berth, fib := d.fib }

/-- Leading copy, or the fibre itself. -/
def isLead (f : Fibre) : Bool := !isTrailer f

/-- Roll a copy back over its uncompared spans to the entry of span `n` (R418): the open span first, then the ended ones, newest
first; the region stack is that of span `n`, and what a younger span had come to, frozen or in pilot gear, is undone with it. -/
def rollTo (s : State) (p : Place) (n : Nat) : State :=
  match getF s p with
  | none => s
  | some f0 =>
    match f0.dual with
    | none => rollback s p
    | some d0 =>
      let back := (d0.unc.filter fun u => n ≤ u.no).reverse
      let s := back.foldl
        (fun s (u : Uncompared) => rollback (modF s p fun f => { f with span := u.span, spanNo := u.no, regions := u.regions }) p) (rollback s p)
      modF s p fun f =>
        let f := { f with
          spanNo := n
          dual := f.dual.map fun (d : Dual) => ({ d with
            unc := d.unc.filter fun u => u.no < n
            cleared := d.cleared.filter (· < n)
            pil := d.pil.filter fun e => e.1 < n
            results := d.results.filter fun r => r.1 < n
            loads := d.loads.filter fun l => l.1 < n || (l.1 == n && l.2.1 ≤ d.nload) } : Dual) }
        { f with
          span := { f.span with rgn := BitVec.ofNat 64 (rgnWord f.regions) }
          froz := .no
          pilot := { f.pilot with on := f.span.forced0.isSome || f.hnd.isSome, cls := 0, met := false } }

/-- The SPAN_FAULT event (R185, R363). -/
def spanFaultRec (s : State) (p : Place) (f : Fibre) (cls : Nat) : Record :=
  mkRec { time := s.time, pc := f.span.start.toNat, rgn := f.span.rgn.toNat, inst := ((groupOf s f).map Group.inst).getD 0,
          place := placeWord s p, type := 1, cls }

/-- The gates of a fibre and of the other copy of its pair are looked at. -/
def dueGates (s : State) (p : Place) (f : Fibre) : State :=
  let s := due s (.gateOpen p)
  match twin f with
  | some q => due s (.gateOpen q)
  | none => s

/-- The commit of a faulted span is refused and the fibre frozen; a debugger halt that is pending takes effect first (R377). -/
def refuse (s : State) (p : Place) (f : Fibre) (cls : Nat) : State :=
  let s := setF s p { f with froz := .gated none, fetched := none, emptyAt := false, xlat := [], op := none }
  let s := if isLead f then postFibre s p (cidOf s f) (spanFaultRec s p f cls) else s
  let s := if f.dbg.want = 1 then
      haltRec (modF s p fun f => { f with dbg := { f.dbg with halted := true, want := 0 } }) p f 1 cls 0 0 f.span.start
    else s
  dueGates (passBerth s p.core p.berth) p f

/-- The other copy `q` of a redundant pair re-runs span `n` in pilot gear too (R202): from where it stands, going back to the span,
or when it reaches it. -/
def refuseTwin (s : State) (q : Place) (n cls : Nat) : State :=
  match getF s q with
  | none => s
  | some g =>
    if g.spanNo < n then
      modF s q fun g => { g with dual := g.dual.map fun (d : Dual) => ({ d with pil := d.pil.filter (fun e => e.1 != n) ++ [(n, cls)] } : Dual) }
    else if (g.spanNo == n && (g.froz != .no || g.pilot.cls != 0 || g.span.faulted.isSome)) ||
        -- it has run that span in pilot gear already
        ((g.dual.map fun (d : Dual) => d.unc.any fun u => u.no == n && u.pilot).getD false) then s
    else
      let s := if n < g.spanNo then rollTo s q n else s
      due (modF (dropOp s q) q fun g => { g with
          span := { g.span with faulted := some cls }, fetched := none, emptyAt := false, xlat := [], op := none })
        (.spanCommitRefused q)

/-- SPAN_COMMIT_REFUSED (R185): once the span's instructions have completed. -/
def execSpanCommitRefused (p : Place) (s : State) : Out := .next <|
  match getF s p with
  | none => s
  | some f =>
    match f.span.faulted with
    | none => s
    | some cls =>
      if f.froz != .no || f.dbg.halted || hasPend s p then s
      else
        let s := refuse s p f cls
        match twin f with
        | none => s
        | some q => refuseTwin s q f.spanNo cls

/-- Pilot gear begins (R187 steps 2 and 3); a trailing copy's gate follows its leader's. -/
def beginPilot (s : State) (p : Place) (cls : Nat) : State :=
  let s := rollback s p
  let s := readyNow (modF s p fun f => { f with
    froz := .no, pilot := { f.pilot with on := true, cls, met := false }, span := { f.span with faulted := none } }) p
  match (getF s p).bind twin with
  | some q => due s (.gateOpen q)
  | none => s

/-- A fault on the gate word goes to the resident kernel (R187). -/
def gateFault (s : State) (p : Place) (f : Fibre) (cls va : Nat) : State :=
  let fi : FaultInfo :=
    { faultInfo f none with cls, pc := f.span.start, pos := 0, addrs := [((lanesIn f.amask).headD 0, va)], acc := 6 }
  toResident (setF s p { f with froz := .no }) p f fi f.hnd.isSome

/-- The SPAN_FAULT event of the span has been posted: a trailing copy's is its leader's to post, and the trailer runs the span again
once its leader's gate has opened, whose loads it takes (R202, R271, R417). -/
def faultPosted (s : State) (f : Fibre) : Bool :=
  !recsWait s f &&
    (isLead f ||
      match (twin f).bind (getF s) with
      | some g => f.spanNo < g.spanNo || (f.spanNo == g.spanNo && g.pilot.cls != 0)
      | none => true)

/-- GATE_OPEN (R187): the gate word is read with an acquire at `mod` scope; while it reads 0 the fibre waits for a change of
the line's write tide. -/
def execGateOpen (p : Place) (s : State) : Out := .next <|
  match getF s p with
  | none => s
  | some f =>
    match f.froz with
    | .gated wt =>
      let cls := f.span.faulted.getD 0
      if f.dbg.halted || !faultPosted s f || stopped s p f then s
      else
        let va := descGate (descOf s f)
        if va = 0 then beginPilot s p cls
        else
          let a := accessNow s p.core (cidOf s f) va (Ask.load 4)
          let line := lineNo a.2.1
          if a.1 ≠ 0 then gateFault a.2.2 p f a.1 va
          else if isOwn s a.2.1 && wt == some (getHome s line).wt && (getHome s line).owner.isNone then a.2.2
          else
            let r := getBytes a.2.2 (ownerGate + pkey p) p.core (cidOf s f) a.2.1 4
            match r.1 with
            | .wait => r.2
            | .fail c => gateFault (farDrop r.2 (ownerGate + pkey p)) p f c va
            | .ok b =>
              let s := farDrop r.2 (ownerGate + pkey p)
              let w := (getHome s line).wt
              let s := if isOwn s a.2.1 then seeTide s p.core w else s
              if natOf b ≠ 0 then beginPilot s p cls else modF s p fun f => { f with froz := .gated (some w), probed := cycOf s p.core }
    | _ => s

/-! ### Events that wait for room (R364) -/

/-- EVENT_POST (R364): the oldest waiting record is posted once its wharf has room; the fibre's gate follows the last one. -/
def execEventPost (p : Place) (s : State) : Out := .next <|
  match getF s p with
  | none => s
  | some f =>
    match f.events with
    | [] => s
    | r :: rest =>
      let cid := cidOf s f
      if !eventRoom s cid then s
      else
        let s := postNow (setF s p { f with events := rest }) cid r (clockOf s p.core)
        if !rest.isEmpty then (if eventRoom s cid then due s (.eventPost p) else s)
        else
          let s := dueGates s p f
          let s := readyNow s p
          match twin f with
          | some q => readyNow s q
          | none => s

/-! ### Compares (R200 to R203, R416 to R418) -/

/-- Release the next of a copy's compared entries; the rest follows when the pair is looked at again. -/
def pushRelease (s : State) (p : Place) : State :=
  match getF s p with
  | some f =>
    if f.relq.isEmpty || f.committing then s
    else
      let t := releaseGo s p
      match getF t p with
      | some g => if g.relq.isEmpty || g.relq == f.relq then t else dueOnce t (.spanCompare p)
      | none => t
  | none => s

/-- A span has compared equal in one copy: its entries are released, or its commit-point instruction may be performed. -/
def equalSpan (s : State) (p : Place) (u : Uncompared) : State :=
  let s := modF s p fun f => { f with
    relq := if u.own then f.relq else f.relq ++ u.span.hold ++ vanishEnts u
    dual := f.dual.map fun (d : Dual) => ({ d with
      mism := 0
      unc := d.unc.drop 1
      cleared := if u.own then d.cleared ++ [u.no] else d.cleared
      loads := d.loads.filter fun l => u.no < l.1 } : Dual) }
  match getF s p with
  | some f => pushRelease (if u.span.hold.isEmpty || u.own then s else pulse s (cidOf s f)) p
  | none => s

/-- A span has not compared equal: both copies go back to its entry; the third time the pair is frozen (R202). -/
def unequalSpan (s : State) (lp tp : Place) (u : Uncompared) (mism : Nat) : State :=
  let s := rollTo (rollTo s lp u.no) tp u.no
  let set (s : State) (q : Place) : State := modF s q fun f => { f with dual := f.dual.map fun (d : Dual) => ({ d with mism } : Dual) }
  let s := set (set s lp) tp
  match getF s lp, getF s tp with
  | some f, some g =>
    if mism < 3 then
      let r := mkRec { time := s.time, pc := f.span.start.toNat, rgn := f.span.rgn.toNat, inst := ((groupOf s f).map Group.inst).getD 0,
                       place := placeWord s lp, aux := u.no, type := 4, cls := 0x0F, count := mism }
      postFibre s lp (cidOf s f) r
    else
      let fi (f : Fibre) : FaultInfo := { faultInfo f none with cls := 0x0F, pc := f.span.start, pos := 0 }
      toResident (toResident s lp f (fi f) f.hnd.isSome) tp g (fi g) g.hnd.isSome
  | _, _ => s

/-- Joins that waited for the compares of both copies (R161, R201). -/
def joinPair (s : State) (lp tp : Place) : State :=
  let one (s : State) (p : Place) : State := match getF s p with
    | some f => if (waitsOf f).any fun w => (match w with
        | .join .. => true
        | _ => false) then joinStep s p f.root else s
    | none => s
  one (one s lp) tp

/-- SPAN_COMPARE (R418): the lowest-numbered uncompared span of a pair is compared. -/
def execSpanCompare (p : Place) (s : State) : Out := .next <|
  match getF s p with
  | none => s
  | some f =>
    match f.dual, twin f with
    | some d, some q =>
      let lp := if d.lead then p else q
      let tp := if d.lead then q else p
      let s := pushRelease (pushRelease s lp) tp
      match (getF s lp).bind Fibre.dual, (getF s tp).bind Fibre.dual with
      | some l, some t =>
        match l.unc, t.unc with
        | u :: us, v :: vs =>
          if u.no == v.no && u.own == v.own && u.sig == v.sig then
            let s := equalSpan (equalSpan s lp u) tp v
            if us.isEmpty || vs.isEmpty then joinPair s lp tp else dueOnce s (.spanCompare p)
          else unequalSpan s lp tp (if v.no < u.no then v else u) (l.mism + 1)
        | _, _ => joinPair s lp tp
      | _, _ => s
    | _, _ => s

end Sys2Proof.Machine
end

