-- ==== Sys2Proof/Machine/Image.lean ====
section
/-! DEFINITION. The bytes of a save slot and of a dump (R176, R287, R430), line by line. -/
namespace Sys2Proof.Machine

/-! ### A group, placed or saved -/

def groupDesc (s : State) (g : Group) : BitVec 1024 := ((getI s g.inst).map Inst.desc).getD 0
def groupCid (s : State) (g : Group) : Nat := ((getI s g.inst).map Inst.cid).getD 0

/-- The fibres of a group by berth position and context. -/
def groupFibres (s : State) (g : Group) : List (Nat × Nat × Fibre) :=
  if g.st = .saved then g.kept
  else
    g.berths.zipIdx.flatMap fun (b : Nat × Nat) =>
      (List.range 8).filterMap fun (c : Nat) => (getF s { core := g.core, berth := b.1, fib := c }).map fun f => (b.2, c, f)
def groupFibre (s : State) (g : Group) (pos c : Nat) : Option Fibre :=
  ((groupFibres s g).find? fun (e : Nat × Nat × Fibre) => e.1 == pos && e.2.1 == c).map fun e => e.2.2

/-- Register `n` of the family of context `root` at a berth position. -/
def groupLanes (s : State) (g : Group) (pos root n : Nat) : Lanes :=
  if g.st = .saved then tget zeroLanes g.regs (vkey (groupDesc s g) 0 pos root n)
  else vget s (vkey (groupDesc s g) g.core (g.berths.getD pos 0) root n)

/-- Berth number as the group's barriers name it: the berth itself while placed, its position while saved. -/
def rootPos (g : Group) (r : Nat) : Nat :=
  if g.st = .saved then r else (g.berths.idxOf (r / 8)) * 8 + r % 8

/-! ### The window image: registers, spill slots, scratchpad, accumulators -/

/-- The group's register blocks in order (log entry 17, DESIGN CHOICE): by berth, the private ones by context and slot, then the shared ones. -/
def groupBlocks (d : BitVec 1024) : List (Nat × Nat × Nat) :=
  (List.range (descBerths d)).flatMap fun pos =>
    ((List.range (descFibres d)).flatMap fun c => ((List.range 16).filter fun k => descKind d k == 1).map fun k => (pos, c, k)) ++
      ((List.range 16).filter fun k => descKind d k == 2).map fun k => (pos, 8, k)

def regionBytes (r : Region) : List Byte :=
  bytesOf 16 (r.entry.toNat * 2 ^ 64 + (if r.idem then 2 ^ 16 else 0) + r.id.toNat)
def splitBytes (x : Split) : List Byte := bytesOf 8 (x.parent % 8 * 2 ^ 40 + x.tok.toNat * 2 ^ 32 + x.lanes.toNat)

def padTo (n : Nat) (l : List Byte) : List Byte := l.take n ++ List.replicate (n - l.length) 0

/-- A spill slot (R176): region entries beyond 8, split entries beyond 32. -/
def spillBytes (f : Fibre) : List Byte :=
  padTo 256 ((f.regions.drop 8).flatMap regionBytes) ++ padTo 256 ((f.splits.drop 32).flatMap splitBytes)

def lanesBytes (l : Lanes) : List Byte := (List.range 32).flatMap fun i => bytesOf 4 (laneOf l i).toNat

/-- The 128 bytes of the window image at an offset. -/
def windowLine (s : State) (g : Group) (o : Nat) : List Byte :=
  let d := groupDesc s g
  let blocks := groupBlocks d
  let nreg := partReg d * 65536
  let nscr := partScr d * 65536
  if o < nreg then
    (if o < blocks.length * 2048 then
      let b := blocks.getD (o / 2048) (0, 0, 0)
      lanesBytes (groupLanes s g b.1 b.2.1 (16 * b.2.2 + o % 2048 / 128))
     else
      let u := o - blocks.length * 2048
      match groupFibre s g (u / 4096) (u % 4096 / 512) with
      | some f => ((spillBytes f).drop (u % 512)).take 128
      | none => bytesOf 128 0)
  else if o < nreg + nscr then memRd g.scratch (o - nreg) 128
  else (List.range 32).flatMap fun i => bytesOf 4 (tget 0 g.acc ((o - nreg - nscr) / 4 + i)).toNat

/-! ### Headers and fibre records (R430) -/

/-- The channel counts that a group reads. -/
def groupCounts (s : State) (g : Group) : List Int :=
  if g.st = .saved then g.cbase
  else (List.range 4).map fun ch => (((getC s g.core).chans.getD ch Chan.init).count : Int) - g.cbase.getD ch 0

def barBytes (g : Group) (b : Nat) : List Byte :=
  let x := barOf g b
  let m := x.arrived.foldl (fun m r => m ||| 2 ^ rootPos g r) 0
  bytesOf 4 x.gen ++ bytesOf 4 m ++ bytesOf 4 (x.expect.getD 0xFFFFFFFF) ++ bytesOf 4 0

/-- The 512 bytes of a group header; `counts`: in a save slot. -/
def groupHeader (s : State) (g : Group) (counts : Bool) : List Byte :=
  let d := groupDesc s g
  bytesOf 4 g.inst ++ bytesOf 4 0 ++ bytesOf 8 g.index ++ bytesOf 2 g.core ++ bytesOf 2 0 ++ bytesOf 4 (descPart d) ++
    bytesOf 1 (dsc d 368 8) ++ bytesOf 7 0 ++
    (if counts then (groupCounts s g).flatMap fun c => bytesOf 8 (c.toNat % 2 ^ 64) else bytesOf 32 0) ++ bytesOf 192 0 ++
    (List.range 16).flatMap (barBytes g)

/-- STATE of a fibre record. -/
def fibState (s : State) (f : Fibre) : Nat :=
  if f.froz != .no || f.dbg.halted || recsWait s f then 3 else if f.wait != .none then 2 else if f.hnd.isSome then 4 else 1

/-- The number of a context at a position of a saved group. -/
def keptKey (pos c : Nat) : Nat := bkey 0 pos * 8 + c

/-- Full bits of the vector registers, and of the scalars. -/
def fullV (s : State) (g : Group) (pos root : Nat) : Nat :=
  let b := g.berths.getD pos 0
  let d := groupDesc s g
  (List.range 256).foldl
    (fun m n => if (if g.st = .saved then g.emptied.contains (.vec (vkey d 0 pos root n)) else emptyRef s (.vec (vkey d g.core b root n)))
      then m else m + 2 ^ n) 0
def fullS (s : State) (g : Group) (pos c : Nat) : Nat :=
  let k := pkey { core := g.core, berth := g.berths.getD pos 0, fib := c }
  (List.range 64).foldl
    (fun m n => if (if g.st = .saved then g.emptied.contains (.sca (keptKey pos c) n) else emptyRef s (.sca k n)) then m else m + 2 ^ n) 0

/-- The 1 KiB record of a fibre context. -/
def fibRecord (s : State) (g : Group) (pos c : Nat) (restart : Bool) : Nat :=
  match groupFibre s g pos c with
  | none => 0
  | some f =>
    let frame := match f.hnd with
      | some h => h.s63.toNat * 2 ^ 256 + h.s62.toNat * 2 ^ 192 + h.s61.toNat * 2 ^ 128 + h.s60.toNat * 2 ^ 64 + h.amask.toNat * 2 ^ 32
      | none => 0
    let hw (r : Handling → Nat) : Nat := match f.hnd with
      | some h => r h
      | none => 0
    frame * 2 ^ 7872 + natOf (padTo 256 (f.splits.flatMap splitBytes)) * 2 ^ 5824 +
      natOf (padTo 128 (f.regions.flatMap regionBytes)) * 2 ^ 4800 +
      natOf ((List.range 63).flatMap fun i => bytesOf 8 (sget f (i + 1)).toNat) * 2 ^ 768 + spanStatus f * 2 ^ 704 +
      ((List.range 4).foldl (fun a k => a + f.oc.getD k 0 % 2 ^ 16 * 2 ^ (16 * k)) 0) * 2 ^ 640 + fullV s g pos f.root * 2 ^ 384 +
      fullS s g pos c * 2 ^ 320 + hw (fun h => h.tpc.toNat) * 2 ^ 256 + f.fp4x.toNat * 2 ^ 224 + hw (fun h => h.tmask.toNat) * 2 ^ 192 +
      hw (fun h => h.word.toNat) * 2 ^ 128 + (if restart then 2 ^ 104 else 0) + fibState s f * 2 ^ 96 + f.amask.toNat * 2 ^ 64 + (nextPc f).toNat

/-- Bytes 8 × (32b + 8 × berth + context) of the folds (R287, R308). -/
def foldLine (g : Group) (o : Nat) : List Byte :=
  (List.range 16).flatMap fun i =>
    let k := o / 8 + i
    let e := (barOf g (k / 32)).folds.find? fun (e : Nat × DWord) => rootPos g e.1 == k % 32
    bytesOf 8 ((e.map fun e => e.2.toNat).getD 0)

/-! ### A group in a slot or a dump -/

/-- Lines of a group: header, window, records, and in a save slot the folds. -/
def groupLines (d : BitVec 1024) (folds : Bool) : Nat := 4 + descGran d * 512 + descBerths d * 64 + (if folds then 32 else 0)

/-- Line `i` of a group; `slot`: as a save slot holds it. -/
def groupLine (s : State) (g : Group) (slot restart : Bool) (i : Nat) : List Byte :=
  let d := groupDesc s g
  let nw := descGran d * 512
  if i < 4 then ((groupHeader s g slot).drop (128 * i)).take 128
  else if i < 4 + nw then windowLine s g (128 * (i - 4))
  else if i < 4 + nw + descBerths d * 64 then
    let j := i - 4 - nw
    lineRd (BitVec.ofNat 1024 (fibRecord s g (j / 64) (j / 8 % 8) restart / 2 ^ (1024 * (j % 8)))) 0 128
  else foldLine g (128 * (i - 4 - nw - descBerths d * 64))

/-- Write lines as stores of a context, up to the first that fails; `cont`: who hears of a peer's part. -/
def writeLines (cont : Nat → Cont) (core cid base : Nat) (line : Nat → List Byte) : Nat → Nat → State → Nat × Nat × State
  | 0, _, s => (0, base, s)
  | n + 1, i, s =>
    let w := putVirt cont 2 s core cid (base + 128 * i) (line i)
    if w.1 ≠ 0 then w else writeLines cont core cid base line n (i + 1) w.2.2

/-! ### A slot read back (R286, R287) -/

/-- Bytes of a line as a number. -/
def lineField (b : List Byte) (off n : Nat) : Nat := natOf ((b.drop off).take n)

/-- Entry number `k` of a list takes what `g` makes of it. -/
def atEntries {α : Type} (l : List α) (k0 n : Nat) (g : Nat → α → α) : List α :=
  l.zipIdx.map fun e => if k0 ≤ e.2 ∧ e.2 < k0 + n then g (e.2 - k0) e.1 else e.1

def regionFrom (v : Nat) (r : Region) : Region :=
  { r with id := BitVec.ofNat 16 v, idem := v / 2 ^ 16 % 2 == 1, entry := BitVec.ofNat 64 (v / 2 ^ 64) }
def splitFrom (v : Nat) (x : Split) : Split :=
  let q := v / 2 ^ 40 % 8
  -- what is in the entry says nothing of a parent that is gone
  { x with lanes := BitVec.ofNat 32 v, tok := BitVec.ofNat 5 (v / 2 ^ 32), parent := if q = x.parent % 8 then x.parent else q }

/-- The fields of a fault record; what is read in its reserved bits is ignored (R6, R193). -/
def faultFields (v : Nat) : DWord := BitVec.ofNat 64 v &&& 0x0FFFFFFF03FF0FFF

/-- The next instruction of a fibre is this one, wherever it is held. -/
def putPc (f : Fibre) (v : DWord) : Fibre :=
  let put (fi : FaultInfo) : FaultInfo := { fi with pc := if fi.retry then v else v - 12 }
  match f.froz with
  | .gated _ =>
    { f with span := { f.span with
        start := v
        entry := match f.span.entry with
          | h :: hs => { h with pc := v } :: hs
          | [] => [] } }
  | .resident fi n => { f with froz := .resident (put fi) n }
  | .no => match f.dbg.fault with
    | some fi => { f with dbg := { f.dbg with fault := some (put fi) } }
    | none => { f with pc := v }

/-- A fibre as its record describes it; what the record does not hold stays as it was saved. -/
def putRecord (f : Fibre) (r : Nat) : Fibre :=
  let rd (lo n : Nat) : Nat := r / 2 ^ lo % 2 ^ n
  { putPc f (BitVec.ofNat 64 (rd 0 64)) with
    amask := BitVec.ofNat 32 (rd 64 32), fp4x := BitVec.ofNat 16 (rd 224 16)
    oc := (List.range 4).map fun k => rd (640 + 16 * k) 16
    scal := (List.range 63).foldl (fun t i => tset 0 t (i + 1) (BitVec.ofNat 64 (rd (768 + 64 * i) 64))) f.scal
    regions := atEntries f.regions 0 8 fun i x => regionFrom (rd (4800 + 128 * i) 128) x
    splits := atEntries f.splits 0 32 fun i x => splitFrom (rd (5824 + 64 * i) 64) x
    span := { (putPc f (BitVec.ofNat 64 (rd 0 64))).span with limit := rd (704 + 32) 13 }
    hnd := f.hnd.map fun (h : Handling) => ({ h with
      word := faultFields (rd 128 64), tmask := BitVec.ofNat 32 (rd 192 32), tpc := BitVec.ofNat 64 (rd 256 64)
      amask := BitVec.ofNat 32 (rd 7904 32), s60 := BitVec.ofNat 64 (rd 7936 64), s61 := BitVec.ofNat 64 (rd 8000 64)
      s62 := BitVec.ofNat 64 (rd 8064 64), s63 := BitVec.ofNat 64 (rd 8128 64) } : Handling) }

/-- What a fibre record says outside the fibre: its mark for restart, and which registers are full. -/
def putMarks (d : BitVec 1024) (root : Nat) (g : Group) (pos c r : Nat) : Group :=
  let refs := ((List.range 256).map fun n => (RegRef.vec (vkey d 0 pos root n), 384 + n)) ++
    (List.range 64).map fun n => (RegRef.sca (keptKey pos c) n, 320 + n)
  if !g.kept.any fun e => e.1 == pos && e.2.1 == c then g
  else
    { g with
      marked := g.marked.filter (· != (pos, c)) ++ if r.testBit 104 then [(pos, c)] else []
      emptied := (g.emptied.filter fun x => !refs.any fun e => e.1 == x) ++ (refs.filter fun e => !r.testBit e.2).map Prod.fst }

/-- Change the fibre of a saved group at a position and context. -/
def mapKept (g : Group) (pos c : Nat) (h : Fibre → Fibre) : Group :=
  { g with kept := g.kept.map fun (e : Nat × Nat × Fibre) => if e.1 = pos ∧ e.2.1 = c then (e.1, e.2.1, h e.2.2) else e }

/-- A line of a spill slot: eight region entries beyond the eighth, or sixteen split entries beyond the thirty-second. -/
def putSpill (b : List Byte) (k : Nat) (f : Fibre) : Fibre :=
  if k < 2 then { f with regions := atEntries f.regions (8 + 8 * k) 8 fun i x => regionFrom (lineField b (16 * i) 16) x }
  else { f with splits := atEntries f.splits (32 + 16 * (k - 2)) 16 fun i x => splitFrom (lineField b (8 * i) 8) x }

/-- Take one line of a window image back into a saved group. -/
def putWindow (d : BitVec 1024) (g : Group) (o : Nat) (b : List Byte) : Group :=
  let blocks := groupBlocks d
  let nreg := partReg d * 65536
  let nscr := partScr d * 65536
  let word (i : Nat) : Word := BitVec.ofNat 32 (lineField b (4 * i) 4)
  if o < nreg then
    (if o < blocks.length * 2048 then
      let k := blocks.getD (o / 2048) (0, 0, 0)
      { g with regs := tset zeroLanes g.regs (vkey d 0 k.1 k.2.1 (16 * k.2.2 + o % 2048 / 128)) ((List.range 32).map word) }
     else
      let u := o - blocks.length * 2048
      mapKept g (u / 4096) (u % 4096 / 512) (putSpill b (u % 512 / 128)))
  else if o < nreg + nscr then { g with scratch := memWr g.scratch (o - nreg) b }
  else { g with acc := (List.range 32).foldl (fun t i => tset 0 t ((o - nreg - nscr) / 4 + i) (word i)) g.acc }

/-- A line of the header: the counts, or eight barriers. -/
def putHeader (g : Group) (i : Nat) (b : List Byte) : Group :=
  if i = 0 then { g with cbase := (List.range 4).map fun c => (lineField b (32 + 8 * c) 8 : Int) }
  else if i = 1 then g
  else
    { g with bars := atEntries g.bars (8 * (i - 2)) 8 fun k x =>
        let m := lineField b (16 * k + 4) 4
        let e := lineField b (16 * k + 8) 4
        { x with
          gen := lineField b (16 * k) 4, expect := if e = 0xFFFFFFFF then none else some e
          arrived := x.arrived.filter (m.testBit ·) ++ (List.range 32).filter fun r => m.testBit r && !x.arrived.contains r } }

/-- A line of the folds. -/
def putFolds (g : Group) (o : Nat) (b : List Byte) : Group :=
  { g with bars := atEntries g.bars (o / 256) 1 fun _ x =>
      { x with folds := x.folds.map fun (e : Nat × DWord) =>
          if o / 8 % 32 ≤ e.1 ∧ e.1 < o / 8 % 32 + 16 then (e.1, BitVec.ofNat 64 (lineField b (8 * (e.1 - o / 8 % 32)) 8)) else e } }

/-- Take line `i` of a slot back into a saved group. -/
def putLine (s : State) (d : BitVec 1024) (g : Group) (i : Nat) (b : List Byte) : Group :=
  let nw := descGran d * 512
  if i < 4 then putHeader g i b
  else if i < 4 + nw then putWindow d g (128 * (i - 4)) b
  else if i < 4 + nw + descBerths d * 64 then
    let j := i - 4 - nw
    let k := 1024 * (j % 8)
    let pos := j / 64
    let c := j / 8 % 8
    let r := fibRecord s g pos c (g.marked.contains (pos, c))
    let r := r - r / 2 ^ k % 2 ^ 1024 * 2 ^ k + natOf b * 2 ^ k
    mapKept (putMarks d (((groupFibre s g pos c).map Fibre.root).getD c) g pos c r) pos c fun f => putRecord f r
  else putFolds g (128 * (i - 4 - nw - descBerths d * 64)) b

/-- Read a slot back; a line that cannot be read stays as it was saved. True where a line of a peer is still waited for. -/
def readSlot (d : BitVec 1024) (owner core cid base : Nat) : Nat → Nat → Group → Bool → State → Group × Bool × State
  | 0, _, g, w, s => (g, w, s)
  | n + 1, i, g, w, s =>
    let va := base + 128 * i
    let r := engLoad s owner core cid .normal va 128
    match r.1 with
    | .ok b => readSlot d owner core cid base n (i + 1) (putLine s d g i b) w r.2.2
    | .fail _ => readSlot d owner core cid base n (i + 1) g w r.2.2
    | .wait => readSlot d owner core cid base n (i + 1) g true r.2.2

end Sys2Proof.Machine
end

