-- ==== Sys2Proof/Machine/Place.lean ====
section
/-! DEFINITION. What the harbourmaster does: placing groups, pre-empting, saving and restoring them, and the end of groups and
instances (R276, R282 to R287, R336, R341 to R343, R370, R372, R374, R378). -/
namespace Sys2Proof.Machine

/-! ### The tree of contexts (R370) -/

/-- A context and its ancestors. -/
def chainOf (s : State) : Nat → Nat → List Nat
  | 0, cid => [cid]
  | n + 1, cid =>
    match (getX s cid).bind (parentOf s) with
    | some (p, _) => cid :: chainOf s n p
    | none => [cid]
def subtree (s : State) (a : Nat) : List Nat := (s.ctxs.map Prod.fst).filter fun c => (chainOf s 9 c).contains a
def rootCtx (s : State) (cid : Nat) : Nat := (chainOf s 9 cid).getLastD cid

/-- GANGID of a context with FLAGS [119] set (R376). -/
def gangOf (x : Ctx) : Option Nat := if flag x 119 then some (blk x 768 32) else none

/-- The context's gang, as the module knows it. -/
def gangState (s : State) (cid : Nat) : Option Gang := ((getX s cid).bind gangOf).map fun id => tget Gang.init s.gangs id

/-! ### Room (R336, R343, R370) -/

/-- The group's berths and granules are taken. -/
def holdsCore (g : Group) : Bool := g.st != .saved && g.st != .waiting

def onCore (s : State) (skip : Group → Bool) (core : Nat) : List Group :=
  (s.groups.map Prod.snd).filter fun g => g.core == core && holdsCore g && !skip g

def coreFits (s : State) (skip : Group → Bool) (d : BitVec 1024) (core : Nat) : Bool :=
  let gs := onCore s skip core
  (gs.foldl (fun n g => n + g.berths.length) 0) + descBerths d ≤ 4 &&
    (gs.foldl (fun n g => n + descGran (groupDesc s g)) 0) + descGran d ≤ 48

/-- Berths and granules placed in a subtree. -/
def placedIn (s : State) (a : Nat) : Nat × Nat :=
  s.groups.foldl
    (fun (u : Nat × Nat) e =>
      if holdsCore e.2 && (chainOf s 9 (groupCid s e.2)).contains a then
        (u.1 + e.2.berths.length, u.2 + descGran (groupDesc s e.2)) else u) (0, 0)

/-- Budgets of the context and of every ancestor. -/
def budgetOk (s : State) (cid b gr : Nat) : Bool :=
  (chainOf s 9 cid).all fun a =>
    match getX s a with
    | none => true
    | some x =>
      let u := placedIn s a
      (blk x 160 16 == 0 || u.1 + b ≤ blk x 160 16) && (blk x 176 16 == 0 || u.2 + gr ≤ blk x 176 16)

/-! ### Waiting groups (R343) -/

/-- A group that waits to be placed or placed again: of each instance the saved ones, and the first that has never been placed. -/
structure Cand where
  key : Nat
  index : Nat
  saved : Bool
  inst : Nat
  cid : Nat
  d : BitVec 1024
  /-- its gang's slice has begun on this module and is not yet wholly placed -/
  gang : Bool
  prio : Nat
  /-- contexts of equal priority that come first (R375) -/
  after : List Nat
  seq : Nat

def candsOf (s : State) (id : Nat) (i : Inst) : List Cand :=
  let mk (key index : Nat) (saved : Bool) : Cand :=
    { key, index, saved, inst := id, cid := i.cid, d := i.desc, prio := prioOf s i.cid, seq := i.seq
      after := ((getX s i.cid).map Ctx.after).getD []
      gang := (gangState s i.cid).any fun g => g.start.isSome && !g.first && !g.placed }
  let back := (s.groups.filter fun (e : Nat × Group) => e.2.inst == id && e.2.st == .saved && e.2.lead &&
      (match e.2.partner with
       | some q => ((getG s q).any fun h => h.st == .saved)
       | none => true)).map fun e => mk e.1 e.2.index true
  if i.st = .killed then [] else back ++ (if i.next < descGroups i.desc then [mk (grpKey id i.next false) i.next false] else [])
def cands (s : State) : List Cand := s.insts.flatMap fun e => candsOf s e.1 e.2

/-- The rank of waiting groups (R343). A gang whose slice begins comes first (R376); of contexts of equal priority one whose slice
has ended comes after those that waited for it then, until a group of theirs has been placed (R375; log entry 23, DEDUCED). -/
def candAbove (a b : Cand) : Bool :=
  (a.gang && !b.gang) ||
    (a.gang == b.gang &&
      (b.prio < a.prio ||
        (a.prio == b.prio &&
          (let before := b.after.contains a.cid
           let behind := a.after.contains b.cid
           (before && !behind) ||
            (before == behind &&
              (a.seq < b.seq || (a.seq == b.seq && ((a.saved && !b.saved) || (a.saved == b.saved && a.index < b.index)))))))))

/-- Allowed cores of a context. -/
def coreRange (s : State) (cid : Nat) : List Nat :=
  match getX s cid with
  | some x => let r := effCores s 9 x; (List.range 1024).filter fun c => r.1 ≤ c && c ≤ r.2
  | none => []

/-- The context may have groups placed, and its budgets allow this one. -/
def mayPlace (s : State) (c : Cand) : Bool :=
  let n := if descDual c.d then 2 else 1
  (match getX s c.cid with
   | some x => (x.st == 2 || x.st == 3 || x.st == 4) && descBerths c.d ≤ pcbOf x && descGran c.d ≤ pcgOf x
   | none => false) &&
  -- a gang waits for its next start value
  (match gangState s c.cid with
   | some g => !g.first
   | none => true) && budgetOk s c.cid (n * descBerths c.d) (n * descGran c.d)

/-- The cores among which the group, or a pair, would be placed: each that fits, and of a pair at least two quays. -/
def fitting (s : State) (skip : Group → Bool) (c : Cand) : List Nat :=
  let l := (coreRange s c.cid).filter (coreFits s skip c.d)
  if descDual c.d && l.all (fun k => quayOf k == quayOf (l.headD 0)) then [] else l

/-- The cores a waiting group could take now. -/
def couldTake (s : State) (c : Cand) : List Nat := if mayPlace s c then fitting s (fun _ => false) c else []

/-- The core, and the trailing copy's. -/
def pickCore (s : State) (c : Cand) : Option (Nat × Option Nat) :=
  let held := ((cands s).filter fun b => candAbove b c).flatMap (couldTake s)
  let l := (couldTake s c).filter fun k => !held.contains k
  match l with
  | [] => none
  | k :: _ =>
    if descDual c.d then (l.find? fun t => quayOf t != quayOf k).map fun t => (k, some t) else some (k, none)

/-- Rows for the groups that may have room now. -/
def placeAgain (s : State) : State := (cands s).foldl (fun s c => due s (.groupPlace c.key)) s

/-! ### Places of a group -/

/-- Answers that are still out for the fibres of these berths go nowhere. -/
def cutConts (s : State) (core : Nat) (berths : List Nat) : State :=
  let cut (c : Cont) : Cont := match c with
    | .hold p | .op p | .park p | .gate p => if p.core = core ∧ berths.contains p.berth = true then .drop else c
    | c => c
  { s with
    reqs := s.reqs.map fun r => { r with cont := cut r.cont }
    replies := s.replies.map fun x => { x with req := { x.req with cont := cut x.req.cont } } }

/-- The berth of a register. -/
def refBerth (r : RegRef) : Nat :=
  match r with
  | .vec k => k / 4096
  | .sca f _ | .fp4 f => f / 8

/-- Take the fibres, registers and berths of a group off its core. -/
def clearBerths (s : State) (core : Nat) (berths : List Nat) : State :=
  let mine (bk : Nat) : Bool := bk / 4 == core && berths.contains (bk % 4)
  let s := { s with
    fibres := s.fibres.filter fun e => !mine (e.1 / 8)
    vregs := s.vregs.filter fun e => !mine (e.1 / 4096)
    emptied := s.emptied.filter fun r => !mine (refBerth r)
    pends := s.pends.filter fun q => !(q.core == core && berths.contains q.berth) }
  cutConts (berths.foldl (fun s b => setB s core b Berth.init) s) core berths

def freeBerths (s : State) (core : Nat) : List Nat :=
  let used := (onCore s (fun _ => false) core).flatMap Group.berths
  (List.range 4).filter fun b => !used.contains b

/-- A berth as a group finds it: shared blocks with their first holders (R146). -/
def startBerth (s : State) (d : BitVec 1024) (core : Nat) : Berth :=
  { Berth.init with
    holder := (List.range 16).map fun k => if descKind d k = 2 then descHolder d k else 8
    lastIssue := (cycOf s core - 1, BitVec.ofNat 64 (descEntry d)) }

/-- The copy of a redundant pair at the same position of the other group (R199). -/
def dualAt (lead : Bool) (core berth fib : Nat) : Dual :=
  { lead, core, berth, fib, mism := 0, unc := [], loads := [], nload := 0, cleared := [], results := [], pil := [] }

/-- Place a copy of a group for the first time (R146, R275, R276). -/
def placeNew (s : State) (c : Cand) (lead : Bool) (core : Nat) (berths : List Nat) (other : Option (Nat × List Nat)) : State :=
  let gid := grpKey c.inst c.index (!lead)
  let s := clearBerths s core berths
  let g : Group :=
    { inst := c.inst, index := c.index, core, berths, st := .placed, since := s.time, scratch := [], acc := [], bars := [], cbase := [],
      partner := other.map fun _ => grpKey c.inst c.index lead, lead, kept := [], keptBerths := [], regs := [], slot := none, saveErr := none,
      marked := [], emptied := [], deferred := false }
  let s := raiseClock (setG s gid g) core (((getI s c.inst).map Inst.clk).getD 0)
  berths.zipIdx.foldl
    (fun s (b : Nat × Nat) =>
      (List.range (descFibres c.d)).foldl
        (fun s fib =>
          let f := startFibre s gid (BitVec.ofNat 64 (descParam c.d)) core fib (BitVec.ofNat 64 (descEntry c.d)) (BitVec.allOnes 32)
          let dual := other.map fun (o : Nat × List Nat) => dualAt lead o.1 (o.2.getD b.2 0) fib
          setF s { core, berth := b.1, fib } { f with dual })
        (setB s core b.1 (startBerth s c.d core))) s

/-! ### Restarts (R198) -/

/-- The fibre goes on at the entry of its innermost idempotent region. -/
def restartFibre (f : Fibre) : Fibre :=
  match f.regions.dropWhile fun (r : Region) => !r.idem with
  | [] => f
  | r :: rs =>
    let f := { f with
      regions := r :: rs, pc := r.entry, committing := false, relq := [], relWait := false, fetched := none, emptyAt := false, xlat := [], op := none,
      hnd := none, wait := .none, froz := .no, stop := false
      halves := f.halves.map fun (h : Half) => ({ h with pc := r.entry, wait := .none } : Half)
      -- execution goes on at speed
      pilot := { on := false, forced := none, cls := 0, met := false } }
    { f with span := newSpan f }

/-! ### Saves (R284 to R287) -/

/-- A register named where the berths are those of another numbering. -/
def mapRef (m : Nat → Nat) (r : RegRef) : RegRef :=
  match r with
  | .vec k => .vec (m (k / 4096) * 4096 + k % 4096)
  | .sca f n => .sca (m (f / 8) * 8 + f % 8) n
  | .fp4 f => .fp4 (m (f / 8) * 8 + f % 8)
def mapSpan (m : Nat → Nat) (x : Span) : Span := { x with undo := x.undo.map fun u => { u with ref := mapRef m u.ref } }
def mapFibre (m : Nat → Nat) (f : Fibre) : Fibre :=
  { f with
    span := mapSpan m f.span
    dual := f.dual.map fun (d : Dual) => ({ d with unc := d.unc.map fun (u : Uncompared) =>
      ({ u with span := mapSpan m u.span } : Uncompared) } : Dual) }
def mapBars (m : Nat → Nat) (g : Group) : List GBar :=
  g.bars.map fun b => { b with arrived := b.arrived.map m, folds := b.folds.map fun e => (m e.1, e.2) }

/-- No command of the group is outstanding. -/
def cmdsDone (s : State) (gid : Nat) : Bool :=
  !(s.cmds.any fun c => c.grp == gid && !c.counted) && !(s.quays.any fun q => q.2.ents.any fun e => e.2.grp == gid)

/-- Every fibre of the group has stopped. -/
def allStopped (s : State) (gid : Nat) : Bool :=
  (groupPlaces s gid).all fun p => (getF s p).all fun f => stopped s p f

/-- A save that fails (R287): the group stays placed, and is not pre-empted again before the next `reload`. -/
def saveFailed (s : State) (gid : Nat) (g : Group) (aux addr cls : Nat) : State :=
  let cid := groupCid s g
  let s := setG s gid { g with st := .placed, slot := none, saveErr := none }
  let s := (groupPlaces s gid).foldl
    (fun s p => due (readyNow (modF s p fun f => if g.st = .flushing then restartFibre f else { f with stop := false }) p) (.gateOpen p)) s
  let s := modX s cid fun x => { x with noPreempt := gid :: x.noPreempt }
  barsCheck (postFree s cid (mkRec { time := s.time, addr, inst := g.inst, aux, type := 8, cls })) gid

/-- The group leaves its core for the slot. -/
def keepGroup (s : State) (gid : Nat) (g : Group) (slot : Nat) : State :=
  let m (bk : Nat) : Nat := g.berths.idxOf (bk % 4)
  let mine (bk : Nat) : Bool := bk / 4 == g.core && g.berths.contains (bk % 4)
  let pos (r : Nat) : Nat := g.berths.idxOf (r / 8) * 8 + r % 8
  let g' : Group := { g with
    st := .saved, since := s.time, slot := some slot, deferred := false
    kept := (groupFibres s g).map fun (e : Nat × Nat × Fibre) => (e.1, e.2.1, mapFibre m e.2.2)
    keptBerths := g.berths.map fun b => getB s g.core b
    marked := if g.st = .flushing then (groupFibres s g).map fun (e : Nat × Nat × Fibre) => (e.1, e.2.1) else []
    emptied := (s.emptied.filter fun r => mine (refBerth r)).map (mapRef m)
    regs := (s.vregs.filter fun e => mine (e.1 / 4096)).map fun e => (m (e.1 / 4096) * 4096 + e.1 % 4096, e.2)
    bars := mapBars pos g
    cbase := groupCounts s g }
  let s := setG (clearBerths s g.core g.berths) gid g'
  let s := modX s (groupCid s g) fun x => { x with slots := slot :: x.slots }
  match getI s g.inst with
  | some i => placeAgain (setI s g.inst { i with st := if i.st = .placed then .placing else i.st })
  | none => placeAgain s

/-- Writes of a group's save that have not been accepted. -/
def saveOut (s : State) (gid : Nat) : Bool :=
  let mine (c : Cont) : Bool := match c with
    | .save g _ => g == gid
    | _ => false
  s.reqs.any (fun r => mine r.cont) || s.replies.any fun x => mine x.req.cont

/-- Slots of a context that groups take which are being written. -/
def slotsOut (s : State) (cid : Nat) : List Nat :=
  (s.groups.filter fun e => e.2.st != .saved && groupCid s e.2 == cid).filterMap fun e => e.2.slot

/-- Once every write of a slot has been accepted the group leaves; one that has failed fails the save. -/
def endSave (s : State) (gid : Nat) (g : Group) (k : Nat) : State :=
  if saveOut s gid then s
  else
    match g.saveErr with
    | some e => saveFailed s gid g 1 e.2 e.1
    | none => keepGroup s gid g k

/-- Save or flush a group (R287): the slot is written, and the group leaves once its writes have been accepted. -/
def saveGroup (s : State) (gid : Nat) (g : Group) : State :=
  let cid := groupCid s g
  match getX s cid, g.slot with
  | none, _ => s
  | some _, some k => endSave s gid g k
  | some x, none =>
    match (List.range (blk x 816 16)).find? fun k => !x.slots.contains k && !(slotsOut s cid).contains k with
    | none => saveFailed s gid g 0 0 0
    | some k =>
      let d := groupDesc s g
      let base := blk x 640 64 + k * 2 ^ 22
      let w := writeLines (.save gid) g.core cid base (groupLine s g true (g.st == .flushing)) (groupLines d true) 0 s
      if w.1 ≠ 0 then saveFailed w.2.2 gid g 1 w.2.1 w.1
      else
        let g := { g with slot := some k }
        endSave (setG w.2.2 gid g) gid g k

/-- The slot of a saved group read back, for the core it is placed on: the group, and whether a line is still waited for. -/
def slotRead (s : State) (key : Nat) (g : Group) (core : Nat) : Group × Bool × State :=
  let cid := groupCid s g
  let d := groupDesc s g
  let base := ((getX s cid).map fun x => blk x 640 64).getD 0 + g.slot.getD 0 * 2 ^ 22
  readSlot d (ownerRestore + key) core cid base (groupLines d true) 0 g false s

/-- Restore a copy of a saved group, as it was read back (R286). -/
def restoreGroup (s : State) (gid : Nat) (g : Group) (core : Nat) (berths : List Nat) (other : Option (Nat × List Nat)) : State :=
  let cid := groupCid s g
  let s := clearBerths s core berths
  let m (i : Nat) : Nat := bkey core (berths.getD i 0)
  let pos (k : Nat) : Nat := berths.getD (k / 8) 0 * 8 + k % 8
  let g' : Group := { g with
    core, berths, st := .placed, since := s.time, kept := [], keptBerths := [], regs := [], slot := none, saveErr := none, marked := [], emptied := []
    bars := mapBars pos g
    cbase := (List.range 4).map fun ch => (((getC s core).chans.getD ch Chan.init).count : Int) - g.cbase.getD ch 0 }
  let s := setG s gid g'
  let s := { s with
    vregs := g.regs.foldl (fun t e => tset zeroLanes t (m (e.1 / 4096) * 4096 + e.1 % 4096) e.2) s.vregs
    emptied := s.emptied ++ g.emptied.map (mapRef m) }
  let s := berths.zipIdx.foldl
    (fun s (b : Nat × Nat) => setB s core b.1 { g.keptBerths.getD b.2 Berth.init with run := 0, lastIssue := (cycOf s core - 1, 0), lastFib := 8 }) s
  let s := g.kept.foldl
    (fun s (e : Nat × Nat × Fibre) =>
      let f := mapFibre m (if g.marked.contains (e.1, e.2.1) then restartFibre e.2.2 else e.2.2)
      let f := { f with
        readySince := cycOf s core, stop := false
        dual := f.dual.map fun (x : Dual) => match other with
          | some o => ({ x with core := o.1, berth := o.2.getD e.1 0 } : Dual)
          | none => x }
      let p : Place := { core, berth := berths.getD e.1 0, fib := e.2.1 }
      let s := setF s p f
      -- a generation that a waiting fibre names may have completed meanwhile (R307)
      let s := (waitsOf f).foldl
        (fun s w => match w with
          | .mbarWt pa _ => sendReq s core cid pa .probe (.park p)
          | _ => s) s
      match f.froz with
      | .gated _ => due s (.gateOpen p)
      | _ => if f.events.isEmpty then s else due s (.eventPost p)) s
  let s := modX s cid fun x => { x with slots := x.slots.filter fun k => some k != g.slot }
  groupEnd (barsCheck s gid) gid

/-! ### Placing (R276, R343, R372) -/

/-- The context has had its turn, or waits no more: no other comes after it (R375). -/
def dropAfter (s : State) (cid : Nat) : State :=
  { s with ctxs := s.ctxs.map fun e => (e.1, { e.2 with after := e.2.after.filter (· != cid) }) }

/-- After a placement: the context runs, and its instance has placed what it had to place. -/
def afterPlace (s0 : State) (c : Cand) : State :=
  let s := dropAfter s0 c.cid
  let s := modX (pulse s c.cid) c.cid fun x => if x.st = 3 then x else { x with st := 3, sliceStart := s.time }
  let s := match getI s c.inst with
    | none => s
    | some i =>
      let i := if c.saved then i else { i with next := c.index + 1 }
      setI s c.inst { i with st := .placing }
  let left := (s.groups.any fun e => e.2.inst == c.inst && e.2.st == .saved) ||
    ((getI s c.inst).any fun i => i.next < descGroups i.desc)
  let s := match getI s c.inst with
    | some i => if left then s else setI s c.inst { i with st := .placed }
    | none => s
  match getI s c.inst with
  | some i => (candsOf s c.inst i).foldl (fun s c => due s (.groupPlace c.key)) s
  | none => s

/-- Place a saved group again, or a pair: their slots are read first, and lines of a peer are waited for. -/
def placeSaved (s : State) (c : Cand) (core : Nat) (b0 : List Nat) (other : Option (Nat × List Nat)) : State :=
  match getG s c.key with
  | none => s
  | some g =>
    let r := slotRead s c.key g core
    match g.partner.bind fun q => (getG s q).map fun h => (q, h), other with
    | some (q, h), some o =>
      let t := slotRead r.2.2 c.key h o.1
      if r.2.1 || t.2.1 then t.2.2
      else
        let s := restoreGroup (farDrop t.2.2 (ownerRestore + c.key)) c.key r.1 core b0 other
        afterPlace (restoreGroup s q t.1 o.1 o.2 (some (core, b0))) c
    | _, _ =>
      if r.2.1 then r.2.2 else afterPlace (restoreGroup (farDrop r.2.2 (ownerRestore + c.key)) c.key r.1 core b0 other) c

/-- Place a waiting group, or a pair, on the cores picked. -/
def placeCand (s : State) (c : Cand) (core : Nat) (tr : Option Nat) : State :=
  let nb := descBerths c.d
  let b0 := (freeBerths s core).take nb
  let other := tr.map fun t => (t, (freeBerths s t).take nb)
  if c.saved then placeSaved s c core b0 other
  else
    let s := placeNew s c true core b0 other
    afterPlace (match other with
      | some o => placeNew s c false o.1 o.2 (some (core, b0))
      | none => s) c

/-! ### Pre-emption (R282 to R285, R374, R378) -/

/-- The debugger holds a fibre of the group, or is about to. -/
def debugHolds (s : State) (gid : Nat) : Bool :=
  (groupPlaces s gid).any fun p => (getF s p).any fun f => f.dbg.halted || f.dbg.want != 0

def wakeParked (s : State) (p : Place) : State := wakeWait s p fun w => match w with
  | .park .. => true
  | _ => false

/-- A parked fibre returns from its `park` with the address it goes on at. -/
def unpark (s : State) (gid : Nat) : State := (groupPlaces s gid).foldl wakeParked s

/-- Fibres of a group that are blocked, frozen or in a handler stop where they stand, whatever happens meanwhile (R284). -/
def latchStops (s : State) (gid : Nat) : State :=
  (groupPlaces s gid).foldl
    (fun s p => modF s p fun f => { f with stop := f.stop || f.wait != .none || f.froz != .no || f.hnd.isSome }) s

/-- Begin to save a group. -/
def startSave (s : State) (gid : Nat) : State :=
  due (latchStops (unpark (modG s gid fun g => { g with st := .saving, since := s.time }) gid) gid) (.groupSaveWrite gid)

/-- Begin to flush a group (R285, R307): every open span is discarded. -/
def startFlush (s : State) (gid : Nat) : State :=
  let s := modG s gid fun g => { g with
    st := .flushing, since := s.time
    bars := g.bars.map fun (b : GBar) => ({ b with expect := none, arrived := [], folds := [] } : GBar) }
  let s := (groupPlaces s gid).foldl
    (fun s p => modF (dropOp (dropPends s p) p) p fun f => { f with
      span := { f.span with hold := [], undo := [], faulted := none }
      op := none, committing := false, relq := [], relWait := false, fetched := none, emptyAt := false, xlat := [] }) s
  let s := match getG s gid with
    | some g => g.berths.foldl (fun s b => setB s g.core b { getB s g.core b with fbars := [] }) s
    | none => s
  due s (.groupSaveWrite gid)

/-- Pre-empt one placed group by the first rule of R282 that applies. -/
def preemptGroup (s : State) (gid : Nat) : State :=
  match getG s gid with
  | none => s
  | some g =>
    let cid := groupCid s g
    let x := getX s cid
    if g.st != .placed || ((x.map fun x => x.noPreempt.contains gid).getD false) then s
    else if debugHolds s gid then setG s gid { g with deferred := true }
    else
      let s := setG s gid { g with deferred := false }
      let d := groupDesc s g
      let fs := (groupPlaces s gid).filterMap (getF s)
      let target := (x.map fun x => ptargetOf s x).getD 200000
      if descIdem d && fs.all fun f => f.regions.any fun r => r.idem then startFlush s gid
      else if descEst d ≠ 0 ∧ descEst d ≤ target then
        due (modG s gid fun g => { g with st := .draining, since := s.time }) (.groupSaveWrite gid)
      else startSave s gid

/-- Pre-empt a context: each of its placed groups (R372, R374). -/
def preemptCtx (s : State) (cid : Nat) : State :=
  let s := modX s cid fun x => { x with st := 4 }
  (s.groups.filter fun e => groupCid s e.2 == cid).foldl (fun s e => preemptGroup s e.1) s

/-- A group that is leaving its core. -/
def leaving (g : Group) : Bool := g.deferred || g.st == .draining || g.st == .saving || g.st == .flushing

/-- The running context of lowest priority, below `prio`, with a group that can be pre-empted on one of these cores. -/
def victimOf (s : State) (prio : Nat) (cores : List Nat) : Option Nat :=
  let ok (e : Nat × Ctx) : Bool :=
    e.2.st == 3 && prioOf s e.1 < prio &&
      s.groups.any fun g => groupCid s g.2 == e.1 && g.2.st == .placed && !g.2.deferred && !e.2.noPreempt.contains g.1 &&
        cores.contains g.2.core
  (s.ctxs.filter ok).foldl (fun (b : Option Nat) e => match b with
    | some c => if prioOf s e.1 < prioOf s c then some e.1 else some c
    | none => some e.1) none

/-- Make room for a waiting group that lacks a core (R374). -/
def makeRoom : Nat → State → Cand → State
  | 0, s, _ => s
  | n + 1, s, c =>
    if !mayPlace s c || !(fitting s leaving c).isEmpty then s
    else
      match victimOf s c.prio (coreRange s c.cid) with
      | some v => makeRoom n (preemptCtx s v) c
      | none => s

/-! ### The end of groups and instances (R276, R341, R342, R347) -/

/-- The DONE increment (R342): an atomic at its home in the context's translation; the class of a failure. -/
def doneAdd (s : State) (core cid addr clk inst : Nat) : Nat × State :=
  let a := accessNow s core cid addr { Ask.both 8 with elemTy := some .n64 }
  if a.1 ≠ 0 then (a.1, a.2.2)
  else if !isReach a.2.2 a.2.1 then (0x10, a.2.2)
  else if isOwn a.2.2 a.2.1 then
    let r := homeAtomicOp (recallNow a.2.2 (lineNo a.2.1)) a.2.1 clk 0x90 .n64 0 0 1 0
    (r.1.cls, wakeLine r.2 (lineNo a.2.1))
  else
    -- the packet carries the largest clock of the groups that have ended (R344)
    let id := a.2.2.nextId
    let s := sendReq a.2.2 core cid a.2.1 (.atomic 0x90 .n64 0 0 1 0) (.done cid inst addr)
    (0, { s with reqs := s.reqs.map fun (r : Req) => if r.id = id then ({ r with clk := max r.clk clk } : Req) else r })

/-- A queued instance whose groups a `reload` has made too large for the budget of one core is refused (R341, R370). -/
def refuseQueued (s : State) (id : Nat) (i : Inst) : State :=
  let s := postRefused { s with insts := tdel s.insts id } i.cid id i.daddr 5 0
  let s := endRecs (tellTasks s) i.run 1
  if s.insts.any fun e => e.2.cid == i.cid then s else modX (dropAfter s i.cid) i.cid fun x => if x.st = 2 then { x with st := 1 } else x

/-- Every group of the instance has ended: the completion word, and the run it belongs to. -/
def endInst (s : State) (id : Nat) (i : Inst) (core : Nat) : State :=
  let s := { s with insts := tdel s.insts id }
  -- a task that waited for room in the instance table
  let s := tellTasks s
  let s :=
    if i.st = .killed ∨ descDone i.desc = 0 then s
    else
      let r := doneAdd s core i.cid (descDone i.desc) i.endClk id
      if r.1 = 0 then r.2
      else postFree r.2 i.cid (mkRec { time := s.time, addr := descDone i.desc, inst := id, type := 9, cls := r.1 })
  let s := endRecs s i.run 1
  if s.insts.any fun e => e.2.cid == i.cid then s
  else modX (dropAfter s i.cid) i.cid fun x =>
    if x.st = 2 ∨ x.st = 3 ∨ x.st = 4 then { x with st := 1 }
    else if (x.st = 5 ∨ x.st = 6) ∧ (x.prev = 2 ∨ x.prev = 3 ∨ x.prev = 4) then { x with prev := 1 } else x

/-- A context whose last group has ended after a `kill` is gone. -/
def ctxGone (s : State) (cid : Nat) : State :=
  if (getX s cid).any (fun x => x.st == 7) && !(s.insts.any fun e => e.2.cid == cid) then { s with ctxs := tdel s.ctxs cid } else s

/-- A group ends (R276). -/
def retireGroup (s : State) (gid : Nat) (g : Group) : State :=
  let cid := groupCid s g
  let s := if g.st = .saved then s else clearBerths (flushParts s g.core) g.core g.berths
  let s := pulse { s with groups := tdel s.groups gid } cid
  let s := if g.st = .saved then modX s cid fun x => { x with slots := x.slots.filter fun k => some k != g.slot } else s
  match getI s g.inst with
  | none => placeAgain s
  | some i =>
    let i := { i with endClk := max i.endClk (clockOf s g.core) }
    let s := setI s g.inst i
    if (s.groups.any fun e => e.2.inst == g.inst) || (i.st != .killed && i.next < descGroups i.desc) then placeAgain s
    else placeAgain (ctxGone (endInst s g.inst i g.core) cid)

/-! ### Kills (R276, R328, R341, R345, R354, R372) -/

/-- Commands of a group that no engine has begun are discarded. -/
def dropCmds (s : State) (gid : Nat) : State :=
  let gone (c : Cmd) : Bool := c.grp == gid && !c.begun && !c.counted
  let ids := (s.cmds.filter gone).map Cmd.id
  let cores := s.cores.map fun (e : Nat × Core) =>
    (e.1, ({ e.2 with chans := e.2.chans.map fun (c : Chan) => ({ c with queue := c.queue.filter fun i => !ids.contains i } : Chan)
                      gathq := e.2.gathq.filter fun i => !ids.contains i } : Core))
  { s with
    cmds := s.cmds.filter fun c => !gone c
    cores := cores.filter fun e => e.2 != Core.init
    quays := (s.quays.map fun (q : Nat × Quay) =>
      (q.1, ({ q.2 with ents := q.2.ents.filter fun (e : Nat × MEnt) => !(e.2.grp == gid && !e.2.begun) } : Quay))).filter
        fun q => q.2 != Quay.init }

/-- A group of a killed context: no fibre issues again; it ends once what its engines have begun is complete. -/
def killGroup (s : State) (gid : Nat) : State :=
  match getG s gid with
  | none => s
  | some g =>
    let ps := groupPlaces s gid
    let s := ps.foldl orphan s
    let s := if g.st = .saved then s else clearBerths s g.core g.berths
    let s := dropCmds s gid
    due (setG s gid { g with st := if g.st = .saved then .saved else .retired, kept := [] }) (.groupRetire gid)

/-- Queues of a context close; the runs of their records are told. -/
def closeQueues (s : State) (cid : Nat) : State :=
  let mine := s.queues.filter fun e => e.2.cid == cid
  let s := mine.foldl
    (fun s e => e.2.wharves.foldl (fun s w => w.2.foldl (fun s (r : QRec) => endRecs s r.run 1) s) s) s
  { s with queues := s.queues.filter fun e => e.2.cid != cid }

/-- Kill one context. -/
def killCtx (s : State) (cid : Nat) : State :=
  let s := { s with insts := s.insts.map fun (e : Nat × Inst) => if e.2.cid = cid then (e.1, { e.2 with st := .killed }) else e }
  let s := (s.groups.filter fun e => groupCid s e.2 == cid).foldl (fun s e => killGroup s e.1) s
  -- an instance without groups has none to wait for
  let s := (s.insts.filter fun e => e.2.cid == cid && !(s.groups.any fun g => g.2.inst == e.1)).foldl
    (fun s e => endInst s e.1 e.2 0) s
  -- the queues that it owns on other modules close too
  let s := sendPeers (closeQueues s cid)
  let s := { s with
    runs := s.runs.filter fun r => r.cid != cid
    slotTab := s.slotTab.filter fun e => e.2.cid != some cid
    dumps := { s.dumps with
      queue := s.dumps.queue.filter (· != cid), cur := if s.dumps.cur = some cid then none else s.dumps.cur
      second := tdel s.dumps.second cid } }
  let s := if s.dumps.cur.isNone && !s.dumps.queue.isEmpty then dueOnce s .dumpStart else s
  placeAgain (ctxGone (modX s cid fun x => { x with st := 7, tq := none, eq := none }) cid)

def killTree (s : State) (cid : Nat) : State := (subtree s cid).foldl killCtx s

end Sys2Proof.Machine
end

