-- ==== Sys2Proof/Machine/EvGroup.lean ====
section
/-! DEFINITION. Events of groups, engines, tasks and graphs (R259, R276, R283, R287, R289, R291, R322, R323, R343, R346, R347, R358). -/
namespace Sys2Proof.Machine

/-! ### Gangs (R376) -/

/-- Contexts of the module in a gang. -/
def gangCtxs (s : State) (id : Nat) : List Nat :=
  (s.ctxs.filter fun e => gangOf e.2 == some id && 1 ≤ e.2.st && e.2.st ≤ 6).map Prod.fst
/-- Every group of the gang on this module is placed. -/
def gangPlaced (s : State) (id : Nat) : Bool := !((cands s).any fun c => (gangCtxs s id).contains c.cid)

/-- The module is on time once the gang's groups are placed, after its start value: a start packet goes to every other module of
the gang. -/
def gangCheck (s : State) (id : Nat) : State :=
  let g := tget Gang.init s.gangs id
  if g.start.any (· ≤ s.time) && !g.first && !g.placed && gangPlaced s id then
    let s := { s with gangs := tset Gang.init s.gangs id { g with placed := true, onTime := true } }
    ((List.range 512).filter fun m => m != s.modNo && Config.gangMember id m).foldl (fun s m => sendPacket s m (m * 2 ^ 47)) s
  else s

/-! ### Groups -/

/-- GROUP_PLACE (R343, R374): the group is placed where it fits; where it lacks a core, room is made for it. -/
def execGroupPlace (g : Nat) (s : State) : Out := .next <|
  match (cands s).find? fun c => c.key == g with
  | none => s
  | some c =>
    let tooBig (i : Inst) : Bool := i.st == .queued && (getX s c.cid).any fun x => overBudget x i.desc
    match (getI s c.inst).filter tooBig, pickCore s c with
    | some i, _ => refuseQueued s c.inst i
    | none, some (core, tr) =>
      let s := placeCand s c core tr
      match (getX s c.cid).bind gangOf with
      | some id => gangCheck s id
      | none => s
    | none, none => makeRoom (s.ctxs.length + 1) s c

/-- DRAIN_TIMEOUT (R283). -/
def execDrainTimeout (g : Nat) (s : State) : Out := .next <|
  match getG s g with
  | some x => if x.st = .draining ∧ x.since + 2 * descEst (groupDesc s x) ≤ s.time then startSave s g else s
  | none => s

/-- GROUP_SAVE_WRITE (R276, R287): every fibre has stopped and every command is complete. -/
def execGroupSaveWrite (g : Nat) (s : State) : Out := .next <|
  match getG s g with
  | none => s
  | some x =>
    let s := if x.st = .draining ∧ allAtBar s g = true then startSave s g else s
    match getG s g with
    | none => s
    | some x =>
      if x.st = .saving ∧ allStopped s g = true ∧ cmdsDone s g = true then saveGroup s g x
      else if x.st = .flushing ∧ cmdsDone s g = true then saveGroup s g x
      else s

/-- GROUP_RETIRE (R276). -/
def execGroupRetire (g : Nat) (s : State) : Out := .next <|
  match getG s g with
  | none => s
  | some x =>
    let dead : Bool := ((getI s x.inst).map Inst.st) == some IState.killed
    if (groupPlaces s g).isEmpty ∧ cmdsDone s g = true ∧ ((x.st = .placed ∨ x.st = .retired) ∨ dead = true) then retireGroup s g x else s

/-! ### Engines -/

/-- COPY_COMMAND_EXECUTE (R289): the channel moves the next 4 bytes of its command. -/
def execCopyCommandExecute (core : Nat) (ch : BitVec 2) (s : State) : Out := .next (copyUnit s core ch.toNat)
/-- GATHER_COMMAND_EXECUTE (R291). -/
def execGatherCommandExecute (core : Nat) (moved : Mask) (s : State) : Out := .next (gatherHead s core moved)

/-- ENGINE_COMMAND_COMPLETE (R259). -/
def execEngineCommandComplete (id : Nat) (s : State) : Out :=
  .next (if s.cmds.any fun c => c.id == id then completeCmd s id else completeMat s id)

/-- MATRIX_STEP (R322). -/
def execMatrixStep (quay : Nat) (s : State) : Out := .next (engineStep s quay)

/-- MATRIX_AGE_PROMOTE (R322). -/
def execMatrixAgePromote (quay : Nat) (e : Nat) (s : State) : Out := .next <|
  let q := getQy s quay
  match tfind q.ents e with
  | some x => if 2 ^ 20 ≤ waited s quay x ∧ x.done = false then setQy s quay { q with ents := tput q.ents e { x with aged := true } } else s
  | none => s

/-- WEIGHT_PLANE_LOAD (R309, R323): the tile of the next step is loaded into the idle plane. A tile on an untracked page is read at
its step alone, and what fails ahead of its step is read again there (R310). -/
def execWeightPlaneLoad (quay : Nat) (s : State) : Out := .next <|
  match nextTile s quay with
  | none => s
  | some (e, va) =>
    if !tileTracked s e va then s
    else
      let r := loadPlane s quay e va
      match r.1 with
      | .fail _ _ => farDrop r.2 e.id
      | _ => r.2

/-! ### Tasks (R358) -/

/-- An instance that is refused as it leaves its queue: it has an identifier. -/
def refuseTask (s : State) (cid addr cls : Nat) (run : Option Nat) : State :=
  let id := s.nextInst
  let s := modX { s with nextInst := nextIdent id } cid fun x => { x with iord := x.iord + 1 }
  endRecs (postRefused s cid id addr 1 cls) run 1

/-- The descriptor of a kernel of the context: KTAB entry, address, 128 bytes; class and address of a failure. -/
inductive DescGot where
  | ok (addr : Nat) (d : BitVec 1024) (s : State)
  | bad (addr cls : Nat) (s : State)
  | wait (s : State)

def kernelDesc (s : State) (x : Ctx) (cid kid : Nat) : DescGot :=
  let o := ownerTask + cid
  if blk x 512 16 ≤ kid then .bad 0 0 s
  else
    let t := getVirt 2 s o 0 cid (Ask.load 8) (blk x 448 64 + 8 * kid) 8
    match t.1 with
    | .wait => .wait t.2.2
    | .fail c => .bad 0 c (farDrop t.2.2 o)
    | .ok b =>
      let a := natOf b
      if a = 0 then .bad 0 0 (farDrop t.2.2 o)
      else if a % 128 ≠ 0 then .bad a 6 (farDrop t.2.2 o)
      else
        let r := getVirt 2 t.2.2 o 0 cid (Ask.load 8) a 128
        match r.1 with
        | .wait => .wait r.2.2
        | .fail c => .bad a c (farDrop r.2.2 o)
        | .ok b => .ok a (BitVec.ofNat 1024 (natOf b)) (farDrop r.2.2 o)

/-- The context may have instances accepted (R372). -/
def accepts (x : Ctx) : Bool := 1 ≤ x.st && x.st ≤ 4

/-- TASK_TAKE (R358): the harbourmaster takes a ready record and accepts it. -/
def execTaskTake (cid : Nat) (s : State) : Out := .next <|
  match getX s cid with
  | none => s
  | some x =>
    match x.tq with
    | none => s
    | some q =>
      if !accepts x || instFull s then s
      else
        match takeRec s q false with
        | none => s
        | some (e, _) =>
          let again (s : State) : State :=
            if ((tfind s.queues q).bind readyWharf).isSome && !instFull s then due s (.taskTake cid) else s
          let take (s : State) : State := match takeRec s q false with
            | some r => r.2
            | none => s
          match kernelDesc s x cid (recKid e.rcd) with
          | .wait s => s
          | .bad a c s => again (refuseTask (take s) cid a c e.run)
          | .ok a d s =>
            if descBad d then again (refuseTask (take s) cid a 0 e.run)
            else again (acceptInst (take s) cid a (withParam d (recParam e.rcd)) e.run e.clk).2

/-! ### Graphs (R346, R347) -/

def slotBase (n : Nat) : Nat := 0x010000100000 + 0x1000 * n

/-- The patches of a trigger: as they stood when the trigger register was written, else as they stand. -/
def trigTake (s : State) (slot np : Nat) : List (Nat × Nat) × State :=
  match pick (fun t : Nat × Nat × List (Nat × Nat) => t.1 == slot && t.2.1 == np) s.trigs with
  | some (t, rest) => (t.2.2, { s with trigs := rest })
  | none => (slotPatches s slot np, s)

/-- GRAPH_TRIGGER (R347): a write to the trigger register acts for the slot's owner; refused while the resident kernel is down (R384). -/
def execGraphTrigger (slot : Nat) (npatch : BitVec 7) (s : State) : Out := .next <|
  let np := npatch.toNat
  let t := trigTake s slot np
  let ps := t.1
  let s := t.2
  if 1024 ≤ slot then s
  else if s.boot.crashed || trigReason s slot none np ≠ 0 || !ps.all (patchOk (slotOf s slot).recs) then trigRefused s slot
  else startRun s slot (((slotOf s slot).cid).getD 0) ps s.hostTide

/-- GRAPH_REFUSED_READ (R346). -/
def execGraphRefusedRead (slot : Nat) (s : State) : Out := .next (regRead s (slotBase slot + 8) 8).2

/-- GRAPH_RECORD_PLACE (R347): records that wait are placed once their wharves have room. -/
def execGraphRecordPlace (slot : Nat) (run : Nat) (s : State) : Out :=
  .next (if s.runs.any fun r => r.id == run && r.slot == slot then placeRun s run else s)

end Sys2Proof.Machine
end

