-- ==== Sys2Proof/Machine/EvHome.lean ====
section
/-! DEFINITION. Events of lines and homes: requests served, answers that arrive, recalls, probes, clock nudges, packets of peers,
the host, the ports (R222 to R235, R241, R242, R407, R409). -/
namespace Sys2Proof.Machine

/-! ### Requests and answers -/

/-- Serve a request of the row's kind. -/
def serveIf (s : State) (id : Nat) (k : HomeOp → Bool) : State :=
  match findReq s id with
  | some r => if k r.op then serveReq s id else s
  | none => s

/-- Take an answer of the row's kind. -/
def arriveIf (s : State) (id : Nat) (k : HomeOp → Bool) : State :=
  match s.replies.find? fun x => x.id == id with
  | some x => if k x.req.op then arrive s id else s
  | none => s

def isLease (o : HomeOp) : Bool := match o with
  | .lease .. => true
  | _ => false
def isOwnOp (o : HomeOp) : Bool := o == .own
def isUntracked (o : HomeOp) : Bool := match o with
  | .load _ | .store _ => true
  | _ => false
def isAtomic (o : HomeOp) : Bool := match o with
  | .atomic .. => true
  | _ => false
def isPart (o : HomeOp) : Bool := match o with
  | .part .. => true
  | _ => false
def isMbar (o : HomeOp) : Bool := match o with
  | .mbarInit _ | .mbarArr | .mbarRead => true
  | _ => false
def isQueueOp (o : HomeOp) : Bool := match o with
  | .queue .. => true
  | _ => false
def isDepRec (o : HomeOp) : Bool := match o with
  | .depRec .. => true
  | _ => false

/-- HOME_LEASE_REQUEST (R222). -/
def execHomeLeaseRequest (id : Nat) (s : State) : Out := .next (serveIf s id isLease)
/-- LEASE_REPLY (R222). -/
def execLeaseReply (id : Nat) (s : State) : Out := .next (arriveIf s id isLease)
/-- OWNERSHIP_REQUEST (R223). -/
def execOwnershipRequest (id : Nat) (s : State) : Out := .next (serveIf s id isOwnOp)
/-- OWNERSHIP_GRANT (R223); of a grant that has landed ahead of a recall the news alone is left (`landNow`). -/
def execOwnershipGrant (id : Nat) (s : State) : Out := .next (arriveIf s id fun o => isOwnOp o || o == .store [])
/-- RECALL (R224). -/
def execRecall (id : Nat) (s : State) : Out := .next (recallAt s id)
/-- RECALL_ANSWER (R224). -/
def execRecallAnswer (id : Nat) (s : State) : Out := .next (recallDone s id)
/-- UNTRACKED_ACCESS (R229). -/
def execUntrackedAccess (id : Nat) (s : State) : Out := .next (serveIf s id isUntracked)
/-- PARTIAL_ARRIVAL (R234). -/
def execPartialArrival (id : Nat) (s : State) : Out := .next (serveIf s id isPart)
/-- HOME_ATOMIC (R244). -/
def execHomeAtomic (id : Nat) (s : State) : Out := .next (serveIf s id isAtomic)
/-- ATOMIC_REPLY (R244). -/
def execAtomicReply (id : Nat) (s : State) : Out := .next (arriveIf s id isAtomic)
/-- PROM_VICTIM (R242). -/
def execPromVictim (id : Nat) (s : State) : Out := .next (serveProm s id)
/-- HOME_MBAR_OP (R305). -/
def execHomeMbarOp (id : Nat) (s : State) : Out := .next (serveIf s id isMbar)
/-- HOME_QUEUE_OP (R359). -/
def execHomeQueueOp (id : Nat) (s : State) : Out := .next (serveIf s id isQueueOp)
/-- HOME_DEP_DEC (R362). -/
def execHomeDepDec (id : Nat) (s : State) : Out := .next (serveIf s id (· == .dep))
/-- DEP_RECORD_ARRIVAL (R362). -/
def execDepRecordArrival (id : Nat) (s : State) : Out := .next (serveIf s id isDepRec)

/-! ### Nudges (R227) -/

/-- SPIN_NUDGE (R227): 64 consecutive hits on one leased line, and 1,024 cycles since the first. -/
def execSpinNudge (p : Place) (s : State) : Out := .next <|
  match getF s p with
  | none => s
  | some f => if spinDue s p f then spinNudge s p f else s

/-- A piece waits as `park` waits: in `park`, in `mbar.wt`, or at a closed gate (R174, R187, R305). -/
def isParked (f : Fibre) : Bool :=
  (waitsOf f).any (fun w => match w with
    | .park .. | .mbarWt .. => true
    | _ => false) ||
    (match f.froz with
     | .gated (some _) => true
     | _ => false)

/-- PARKED_CLOCK_NUDGE (R227): a parked fibre, and a clock that has not changed for 1,024 cycles. -/
def execParkedClockNudge (core : Nat) (s : State) : Out := .next <|
  if cycOf s core < (getC s core).lastClock + 1024 then s
  else if s.fibres.any fun e => (placeOf e.1).core == core && isParked e.2 then raiseClock s core (clockOf s core + maxLease s core + 1)
  else s

/-! ### Probes (R228) -/

/-- Addresses on which the halves of a fibre wait: physical, and virtual for a `park`. -/
def parkedAt (f : Fibre) : List (Nat × Option Nat) :=
  (waitsOf f).filterMap fun w => match w with
    | .park pa va _ _ => some (pa, some va)
    | .mbarWt pa _ => some (pa, none)
    | _ => none

/-- Send another probe. A `park` translates its address for each: a failure is its fault, and where the page has moved the line that
it waited on has gone, so it returns (R174, R399; log entry 49, DEDUCED). -/
def probeAgain (p : Place) (s : State) (a : Nat × Option Nat) : State :=
  match getF s p with
  | none => s
  | some f =>
    match a.2 with
    | none => sendReq s p.core (cidOf s f) a.1 .probe (.park p)
    | some va =>
      let x := accessNow s p.core (cidOf s f) va (Ask.load 1)
      if x.1 ≠ 0 then parkFault x.2.2 p f (lineNo a.1) x.1
      else if lineNo x.2.1 ≠ lineNo a.1 then wakeWait x.2.2 p (onLine (lineNo a.1))
      else sendReq x.2.2 p.core (cidOf s f) x.2.1 .probe (.park p)

def probeFor (p : Place) (c : Cont) : Bool := c == .park p || c == .gate p

/-- PARK_PROBE (R228): a probe of the fibre's line is served at its home; every 256 cycles another is sent. -/
def execParkProbe (p : Place) (s : State) : Out := .next <|
  match s.reqs.find? fun r => r.op == .probe && probeFor p r.cont && isOwn s r.pa with
  | some r => serveReq s r.id
  | none =>
    match getF s p with
    | none => s
    | some f =>
      let out := s.reqs.any (fun r => probeFor p r.cont) || s.replies.any fun x => probeFor p x.req.cont
      if out || cycOf s p.core < f.probed + 256 then s
      else
        let s := modF s p fun f => { f with probed := cycOf s p.core }
        let s := (parkedAt f).foldl (probeAgain p) s
        match f.froz with
        | .gated (some _) =>
          let a := accessNow s p.core (cidOf s f) (descGate (descOf s f)) (Ask.load 4)
          if a.1 = 0 && isReach s a.2.1 then sendReq a.2.2 p.core (cidOf s f) a.2.1 .probe (.gate p) else due a.2.2 (.gateOpen p)
        | _ => s

/-- PARK_PROBE_REPLY (R228): a changed write tide wakes the fibre. -/
def execParkProbeReply (id : Nat) (s : State) : Out := .next (arriveIf s id (· == .probe))

/-! ### Peers (R232, R406, R407) -/

/-- The core number under which the requests of a module stand. -/
def peerCore (src : Nat) : Nat := 1000000 + src
/-- The number under which a context of a module owns a queue here. -/
def peerCid (src cid : Nat) : Nat := 4096 * (src + 1) + cid

/-- What a packet asks of the home. -/
def peerHomeOp (src : Nat) (o : PeerOp) : HomeOp × Nat :=
  match o with
  | .lease n => (.lease none n, 0)
  | .load n => (.load n, 0)
  | .store b => (.store b, 0)
  | .atomic m t l pc b c => (.atomic (0x90 + m.toNat) t l pc b.toNat c.toNat, 0)
  | .contribute core cop es =>
    (.part (src * 1024 + core)
      { cop, elems := es.foldl (fun t e => mergeElems cop t [(e.1, contribute cop (e.2.toNat % 2 ^ (8 * copSize cop)))]) [] }, 0)
  | .probe => (.probe, 0)
  | .prom core sc => (.prom core sc, 0)
  | .mbarInit n => (.mbarInit n, 0)
  | .mbarArr => (.mbarArr, 0)
  | .mbarRead => (.mbarRead, 0)
  | .queue m cid r _ => (.queue (0xC0 + m.toNat) r, peerCid src cid)
  | .depRec q cid r _ => (.depRec q r none, peerCid src cid)
  | .dep cid => (.dep, peerCid src cid)
  | .tlbi m a b => (.tlbi m a b, 0)
  | .close _ => (.probe, 0)

/-- Take up a packet that a link has delivered for this line (R402, R406): each is taken once. -/
def takePacket (s : State) (pa : Nat) : Option State :=
  (pick (fun a : Nat => lineNo (a % 2 ^ 47) == lineNo (pa % 2 ^ 47)) s.inbox).map fun x => { s with inbox := x.2 }

/-- What a request of module `src` for a line homed here does. -/
def peerServe (s : State) (src pa : Nat) (clk : DWord) (op : PeerOp) : State :=
  let o := peerHomeOp src op
  let id := s.nextId
  let here := s.modNo * 2 ^ 47
  let at0 : Nat := match op with
    | .prom core _ => here + core
    | _ => here + pa
  let r : Req := { id, core := peerCore src, cid := o.2, pa := at0, clk := clk.toNat, op := o.1, cont := .drop, sent := s.time, port := false,
                   tag := (0, 0, 0, 0, 0), held := 0
                   sy := match op with
                     | .queue _ _ _ sy | .depRec _ _ _ sy => sy
                     | _ => none }
  let s := { s with nextId := id + 1, reqs := s.reqs ++ [r] }
  match op with
  | .prom .. => serveProm s id
  | _ => serveReq s id

/-- PEER_PACKET (R232): a request of module `src` for a line homed here, with its core's clock. The queues that a context of `src`
owns here close when it is gone (R354). -/
def execPeerPacket (src : Nat) (pa : Nat) (clk : DWord) (op : PeerOp) (s : State) : Out := .next <|
  if src = s.modNo ∨ 2 ^ 47 ≤ pa then s
  else
    match takePacket s pa, op with
    | none, _ => s
    | some s, .close cid => closeQueues s (peerCid src cid)
    | some s, _ => peerServe s src pa clk op

/-- An answer from outside the module reaches the request; one that tells of a home operation that wrote, or that brings a record,
pulses (R379). -/
def peerAnswer (s : State) (r : Req) (a : Answer) : State :=
  let s := deliver (dropReq s r.id) r a
  if pulsesOp r.op a then pulse s r.cid else s

/-- PEER_REPLY (R232). -/
def execPeerReply (id : Nat) (rep : PeerRep) (s : State) : Out := .next <|
  match findReq s id with
  | none => s
  | some r =>
    if isOwn s r.pa then s
    else
    match takePacket s r.pa with
    | none => s
    | some s =>
      let data := match r.op with
        | .mbarRead => bytesOf 8 rep.wt
        | _ => rep.data
      peerAnswer s r { data, wt := rep.wt, lt := rep.lt, status := rep.status.toNat, cls := if rep.cls = 5 ∨ rep.cls = 8 ∨ rep.cls = 0x11 then rep.cls else 0 }

/-- PEER_REPLY_TIMEOUT (R407): the module becomes unreachable, and the request ends with LINK. -/
def execPeerReplyTimeout (id : Nat) (s : State) : Out := .next <|
  match findReq s id with
  | none => s
  | some r =>
    if isOwn s r.pa ∨ s.time < r.sent + 2000000 then s
    else
      let m := r.pa / 2 ^ 47 % 512
      let s := if s.unreach.contains m then s else { s with unreach := s.unreach ++ [m] }
      peerAnswer s r { data := [], wt := 0, lt := 0, status := 0, cls := 0x10 }

/-! ### The host and the ports (R26, R241, R409) -/

/-- Write bytes at their homes, line by line, as an untracked store of no core, of number `w`. -/
def hostWrite (w : Nat) : Nat → State → Nat → List Byte → State
  | 0, s, _, _ => s
  | n + 1, s, pa, bytes =>
    match bytes with
    | [] => s
    | _ =>
      let k := min bytes.length (128 - pa % 128)
      let r := homeWrite (recallNow s (lineNo pa)) pa 0 (bytes.take k) w
      hostWrite w n { r.2 with hostTide := max r.2.hostTide r.1.wt } (pa + k) (bytes.drop k)

/-- A range of the HBM that pages can map. -/
def inHbm (a n : Nat) : Bool := a + n ≤ 0xFF00000000 || (0xFF80200000 ≤ a && a + n ≤ 0x10000000000)

/-- The host port's window holds these bytes of the HBM (R409). -/
def inWindow (s : State) (a n : Nat) : Bool := s.hostWin.1 ≤ a && a + n ≤ s.hostWin.1 + s.hostWin.2 && inHbm a n

/-- BAR 0 maps these bytes of the register range (R409), and they can be read as R439 says. -/
def hostReads (s : State) (a n : Nat) : Bool :=
  (n == 4 || n == 8) && a % n == 0 && !regHole a && s.hostRegs.any fun r => r.1 ≤ a && a + n ≤ r.1 + r.2

/-- HOST_MEMORY_ACCESS (R409): untracked accesses of the window at the homes; and reads of registers. -/
def execHostMemoryAccess (a : HostAcc) (s : State) : Out := .next <|
  match a with
  | .read pa n =>
    if inWindow s pa n then (readRun (n / 128 + 2) s (s.modNo * 2 ^ 47 + pa) n).2.2
    else if hostReads s pa n then (regRead s pa n).2 else s
  | .write pa b => if inWindow s pa b.length then hostWrite s.nextId (b.length / 128 + 2) { s with nextId := s.nextId + 1 } (s.modNo * 2 ^ 47 + pa) b else s

/-- PORT_REPLY (R26, R241): the line read for a request, or a write acknowledged. -/
def execPortReply (id : Nat) (data : List Byte) (s : State) : Out := .next <|
  match findReq s id with
  | none => s
  | some r =>
    if r.op == .store [] && r.port then
      let s := dropReq s id
      if ownCore r.core then wakeProm s r.core else s
    else
      let line := lineNo r.pa
      let h := getHome s line
      if !isOwn s r.pa || !h.busy || !needsPort s r || data.length ≠ 128 || s.recalls.any (fun c => c.id == id) then s
      else
        let s := setHome { s with mem := memWr s.mem (localAddr (line * 128)) data } line { h with busy := false }
        serveNow s { r with port := true }

end Sys2Proof.Machine
end

