-- ==== Sys2Proof/Machine/EvContext.lean ====
section
/-! DEFINITION. Events of contexts: commands, dumps, slices, gangs, the lighthouse, crashes, and what the resident kernel does with a
frozen fibre (R197, R368 to R386, R430). -/
namespace Sys2Proof.Machine

/-! ### Control blocks (R368, R369) -/

def cbReg : Nat := 0x010000600000
def resultReg : Nat := 0x010000600010
def gangReg : Nat := 0x010000600020
def beatReg : Nat := 0x010000600018
/-- A command completes (R371): the next write of the command register is accepted. -/
def setResult (s : State) (v : Nat) : State := { setReg s resultReg (BitVec.ofNat 64 v) with cmd := none }

/-- A command's row acts while no other command is in progress (R371). -/
def command (i : Instr) (s : State) (k : State → State) : Out := .next (if s.cmd.isNone || s.cmd == some i then k s else s)

/-- The block at CBADDR. -/
def readBlock (s : State) : Option (BitVec 2048) × State :=
  let a := (getReg s cbReg).toNat
  let pa := s.modNo * 2 ^ 47 + a
  if a % 256 ≠ 0 ∨ 2 ^ 47 ≤ a ∨ rngOf s pa ≠ .hbm then (none, s)
  else
    let r := readRun 4 s pa 256
    (if r.2.1 then some (BitVec.ofNat 2048 (natOf r.1)) else none, r.2.2)

/-- An address field other than PARENT. -/
def addrBad (v : Nat) : Bool := v % 8 != 0 || 2 ^ 60 ≤ v

/-- The checks that need no translation. -/
def blockBad (b : BitVec 2048) : Bool :=
  let f (lo len : Nat) : Nat := bitsAt b.toNat lo len
  f 832 1216 != 0 || f 528 48 != 0 || f 206 18 != 0 || f 195 5 != 0 || f 154 6 != 0 || f 138 6 != 0 || f 120 8 != 0 || f 109 3 != 0 ||
    f 95 1 != 0 || f 84 4 != 0 || f 76 4 != 0 ||
    (f 96 13 != 0 && (f 96 13 < 16 || 4096 < f 96 13)) || f 144 10 < f 128 10 || 4 < f 192 3 || 48 < f 200 6 || 4096 < f 800 16 ||
    (f 816 16 != 0 && f 640 64 % 65536 != 0) ||
    ([448, 320, 384, 576, 640, 704] : List Nat).any (fun (lo : Nat) => addrBad (f lo 64)) || f 384 64 == 0

/-- The physical address and the header of a queue of this kind; nothing where the block is malformed for it. -/
def headerAt (s : State) (cid va kind : Nat) : Option (Nat × Nat) × State :=
  if va % 128 ≠ 0 then (none, s)
  else
    let a := accessNow s 0 cid va (Ask.load 8)
    if a.1 ≠ 0 ∨ ¬ isOwn a.2.2 a.2.1 then (none, a.2.2)
    else
      let r := readRun 2 a.2.2 a.2.1 128
      let h := natOf r.1
      (if r.2.1 && !hdrBad h && hdrKind h == kind then some (a.2.1, h) else none, r.2.2)

/-- The handler table as it is read at `load` and `reload` (R381). -/
def handlersOf (b : List Byte) : List (DWord × DWord) :=
  (List.range 32).map fun c =>
    (BitVec.ofNat 64 (natOf ((b.drop (16 * c)).take 8)), BitVec.ofNat 64 (natOf ((b.drop (16 * c + 8)).take 8)))

/-- What a block brings besides itself: the headers of TQ and EQ, and the handlers. -/
structure BlockUse where
  tq : Option (Nat × Nat)
  eq : Nat × Nat
  handlers : List (DWord × DWord)

inductive BlockGot where
  | ok (u : BlockUse) (s : State)
  | bad (s : State)
  | wait (s : State)

/-- The checks through the context's translation. -/
def blockUse (s : State) (owner cid : Nat) (b : BitVec 2048) : BlockGot :=
  let f (lo len : Nat) : Nat := bitsAt b.toNat lo len
  let t := if f 320 64 = 0 then (none, s) else headerAt s cid (f 320 64) 0
  let e := headerAt t.2 cid (f 384 64) 2
  let done (s : State) (h : List (DWord × DWord)) : BlockGot :=
    match t.1, e.1 with
    | none, some q => if f 320 64 = 0 then .ok { tq := none, eq := q, handlers := h } s else .bad s
    | some w, some q => .ok { tq := some w, eq := q, handlers := h } s
    | _, none => .bad s
  if f 576 64 = 0 then done e.2 []
  else
    let r := getVirt 5 e.2 owner 0 cid (Ask.load 8) (f 576 64) 512
    match r.1 with
    | .ok l => done (farDrop r.2.2 owner) (handlersOf l)
    | .fail _ => .bad (farDrop r.2.2 owner)
    | .wait => .wait r.2.2

/-! ### Commands (R371, R372) -/

/-- A context as `alloc` makes it. -/
def newCtx (b : BitVec 2048) (cbaddr : Nat) (time : Nat) : Ctx :=
  { st := 0, prev := 0, froot := 0, cbaddr, tq := none, eq := none, block := b, crcErr := 0, handlers := [], silence := 0,
    fired := false, sliceStart := 0, slots := [], iord := 0, lost := 0, trLost := 0, sampleAt := time, lastSample := 0, noPreempt := [], after := [], trq := [] }

/-- The debug and watch blocks of a context read 0 at `alloc` (R419, R424). -/
def clearDebug (s : State) (cid : Nat) : State :=
  let dbg := (List.range 6).map fun i => 0x010000800000 + 0x40 * cid + 8 * i
  let wat := (List.range 4).map fun i => 0x010000880000 + 0x40 * cid + 8 * i
  replayRestart ((dbg ++ wat).foldl (fun s a => setReg s a 0) s) cid

def stOf (s : State) (cid : Nat) : Option Nat := (getX s cid).map Ctx.st
/-- The state lies between loaded and pre-empted. -/
def liveSt (o : Option Nat) : Bool := match o with
  | some k => 1 ≤ k && k ≤ 4
  | none => false

/-- ALLOC (R371, R372). -/
def execAlloc (s : State) : Out := command .alloc s fun s =>
  let r := readBlock s
  let s := r.2
  match r.1 with
  | none => setResult s 2
  | some b =>
    let cid := bitsAt b.toNat 64 12
    let cb := (getReg s cbReg).toNat
    let x := newCtx b cb s.time
    let par := parentOf s x
    if blockBad b || (blk x 0 64 != 0 && par.all fun q => q.2.st == 7) then setResult s 2
    else if (getX s cid).isSome || 4096 ≤ s.ctxs.length || (par.any fun q => 9 ≤ (chainOf s 9 q.1).length) then setResult s 3
    else if par.any fun q => !liveSt (some q.2.st) then setResult s 4
    else setResult (clearDebug (setX s cid x) cid) 1

/-- Open a queue for the device, or find it open for the same context. -/
def openFor (s : State) (cid : Nat) (h : Nat × Nat) : Option State :=
  match tfind s.queues h.1 with
  | some q => if q.cid = cid then some s else none
  | none => openQueue s cid h.1 h.2

/-- Take a checked block into a context (R355): nothing where places are lacking. -/
def takeBlock (s : State) (cid : Nat) (x : Ctx) (b : BitVec 2048) (u : BlockUse) : Option State :=
  let x := { x with
    block := b, cbaddr := (getReg s cbReg).toNat, handlers := u.handlers, crcErr := 0, tq := u.tq.map Prod.fst, eq := some u.eq.1 }
  let s := setX s cid x
  -- what other contexts' queues hold beyond their reservations is not to be had (R355, R371 step 5)
  if (List.range 512).any fun k => 4096 < qresSum s + poolUsed s k then none
  else
    match (match u.tq with
      | some t => openFor s cid t
      | none => some s) with
    | none => none
    | some s => openFor s cid u.eq

/-- LOAD (R371, R372). -/
def execLoad (s : State) : Out := command .load s fun s =>
  let r := readBlock s
  match r.1 with
  | none => setResult r.2 2
  | some b =>
    let cid := bitsAt b.toNat 64 12
    if blockBad b then setResult r.2 2
    else
      match blockUse r.2 ownerLoad cid b with
      | .wait s => { s with cmd := some .load }
      | .bad s => setResult s 2
      | .ok u s =>
        match getX s cid with
        | none => setResult s 4
        | some x =>
          if x.st ≠ 0 then setResult s 4
          else
            match takeBlock s cid { x with st := 1, iord := 0, silence := 0, fired := false } b u with
            | none => setResult s 3
            | some s => setResult s 1

/-- RELOAD (R371, R372). -/
def execReload (cid : Nat) (s : State) : Out := command (.reload cid) s fun s =>
  if !liveSt (stOf s cid) then setResult s 4
  else
    let r := readBlock s
    match r.1 with
    | none => setResult r.2 2
    | some b =>
      if blockBad b then setResult r.2 2
      else
        match blockUse r.2 (ownerReload cid) cid b with
        | .wait s => { s with cmd := some (.reload cid) }
        | .bad s => setResult s 2
        | .ok u s =>
          match getX s cid with
          | none => setResult s 4
          | some x =>
            match takeBlock s cid { x with noPreempt := [] } b u with
            | none => setResult s 3
            | some s => placeAgain (setResult s 1)

/-- Freeze one context (R284, R372). -/
def freezeCtx (froot : Nat) (s : State) (cid : Nat) : State :=
  let s := modX s cid fun x => { x with st := 5, prev := x.st, froot }
  (s.groups.filter fun e => groupCid s e.2 == cid).foldl (fun s e => latchStops (unpark s e.1) e.1) s

/-- FREEZE (R372). -/
def execFreeze (cid : Nat) (s : State) : Out := command (.freeze cid) s fun s =>
  if !liveSt (stOf s cid) then setResult s 4
  else setResult (((subtree s cid).filter fun c => liveSt (stOf s c)).foldl (freezeCtx cid) s) 1

/-- Return a context to its kept state; fibres of a group that is being saved stay stopped. -/
def thawCtx (s : State) (cid : Nat) : State :=
  let s := modX s cid fun x => { x with st := x.prev }
  let go (f : Fibre) : Fibre :=
    if cidOf s f = cid ∧ (groupOf s f).any (fun g => g.st == .saving) = false then { f with stop := false } else f
  let s := { s with fibres := s.fibres.map fun (e : Nat × Fibre) => (e.1, go e.2) }
  let s := (s.fibres.filter fun e => cidOf s e.2 == cid).foldl
    (fun s e => match e.2.froz with
      | .gated _ => due (readyNow s (placeOf e.1)) (.gateOpen (placeOf e.1))
      | _ => readyNow s (placeOf e.1)) s
  due s (.taskTake cid)

/-- THAW (R372). A context whose dump has not started stays frozen (R382; log entry 24, DEDUCED). -/
def execThaw (cid : Nat) (s : State) : Out := command (.thaw cid) s fun s =>
  if stOf s cid ≠ some 5 ∨ s.dumps.queue.contains cid = true then setResult s 4
  else
    let mine := (subtree s cid).filter fun c =>
      !s.dumps.queue.contains c && (getX s c).any fun x => x.st == 5 && x.froot == cid
    setResult (placeAgain (mine.foldl thawCtx s)) 1

/-- KILL (R372). -/
def execKill (cid : Nat) (s : State) : Out := command (.kill cid) s fun s =>
  match stOf s cid with
  | some k => if k ≤ 6 then setResult (killTree s cid) 1 else setResult s 4
  | none => setResult s 4

/-- RETIRE (R372): a loaded context without a child. -/
def execRetire (cid : Nat) (s : State) : Out := command (.retire cid) s fun s =>
  if stOf s cid ≠ some 1 ∨ (subtree s cid).length ≠ 1 then setResult s 4 else setResult (killCtx s cid) 1

/-- DUMP (R372, R382). -/
def execDump (cid : Nat) (s : State) : Out := command (.dump cid) s fun s =>
  if stOf s cid ≠ some 5 then setResult s 4
  else
    let mine := cid :: ((subtree s cid).filter fun c => c != cid && stOf s c == some 5)
    due (setResult { s with dumps := { s.dumps with queue := s.dumps.queue ++ mine } } 1) .dumpStart

/-- CONTEXT_RESULT_READ (R371). -/
def execContextResultRead (s : State) : Out := .next (regRead s resultReg 8).2

/-! ### Dumps (R382, R383, R430) -/

/-- DUMP_START (R382): the context of the oldest queued dump is dumped, if it is still frozen; after a crash once more. -/
def execDumpStart (s : State) : Out := .next <|
  if s.dumps.cur.isSome || s.boot.crashed then s
  else
    match s.dumps.queue with
    | [] => s
    | cid :: rest =>
      let d := { s.dumps with queue := rest }
      match stOf s cid with
      | some 5 =>
        due (modX { s with dumps := { d with cur := some cid, seq := d.seq + 1, started := s.time } } cid fun x => { x with st := 6 })
          .dumpWritten
      | some 6 => due { s with dumps := { d with cur := some cid, started := s.time } } .dumpWritten
      | _ => if rest.isEmpty then { s with dumps := d } else due { s with dumps := d } .dumpStart

/-- Groups of a context in a dump, in ascending linear index. -/
def dumpGroups (s : State) (cid : Nat) : List Group :=
  ((s.groups.map Prod.snd).filter fun g => groupCid s g == cid && g.st != .waiting && g.st != .retired).mergeSort fun a b =>
    a.index ≤ b.index

/-- Header and secondary records of a dump, 1,088 bytes. -/
def dumpHead (s : State) (cid : Nat) (ngrp : Nat) : List Byte :=
  let sec := tget [] s.dumps.second cid
  bytesOf 128 (s.dumps.started * 2 ^ 512 + s.dumps.seq % 2 ^ 64 * 2 ^ 448 + sec.length % 2 ^ 32 * 2 ^ 416 + ngrp * 2 ^ 384 +
      cid * 2 ^ 352 + 2 ^ 320 + 0x504D5544) ++
    (List.range 15).flatMap fun i => bytesOf 64 (sec.getD i 0).toNat

/-- Write the groups of a dump one after the other. -/
def dumpBody (cid : Nat) : List Group → Nat → State → State
  | [], _, s => s
  | g :: gs, a, s =>
    let d := groupDesc s g
    let n := groupLines d false
    dumpBody cid gs (a + 128 * n) (writeLines (fun _ => .drop) 0 cid a (groupLine s g false false) n 0 s).2.2

/-- DUMP_WRITTEN (R382). -/
def execDumpWritten (s : State) : Out := .next <|
  match s.dumps.cur with
  | none => s
  | some cid =>
    match getX s cid with
    | none => { s with dumps := { s.dumps with cur := none } }
    | some x =>
      let a := blk x 704 64
      let gs := dumpGroups s cid
      let s := (putVirt (fun _ => .drop) 10 s 0 cid a (dumpHead s cid gs.length)).2.2
      let s := dumpBody cid gs (a + 2048) s
      let s := postFree s cid (mkRec { time := s.time, addr := a, aux := s.dumps.seq, type := 6 })
      let s := modX s cid fun x => { x with st := 5 }
      let s := { s with dumps := { s.dumps with cur := none, second := tdel s.dumps.second cid } }
      if s.dumps.queue.isEmpty then s else due s .dumpStart

/-! ### Slices and gangs (R374, R376) -/

/-- A group of a context of equal priority lacks a core, and could take one that this context holds. -/
def sliceWanted (s : State) (cid : Nat) : Bool :=
  (cands s).any fun c =>
    c.cid != cid && c.prio == prioOf s cid && mayPlace s c && (fitting s (fun _ => false) c).isEmpty &&
      s.groups.any fun g => groupCid s g.2 == cid && holdsCore g.2 && (coreRange s c.cid).contains g.2.core

/-- SLICE_EXPIRY (R374): the context's next slice comes after those of its equals that waited (R375; log entry 23, DEDUCED). -/
def execSliceExpiry (cid : Nat) (s : State) : Out := .next <|
  match getX s cid with
  | none => s
  | some x => if x.st = 3 ∧ x.sliceStart + sliceOf s x ≤ s.time ∧ sliceWanted s cid = true then
      let wait := ((cands s).filter fun c => c.cid != cid && c.prio == prioOf s cid && mayPlace s c).map Cand.cid
      preemptCtx (modX (dropAfter s cid) cid fun x => { x with after := (x.after ++ wait).dedup }) cid
    else s

/-- GANG_START_WRITE (R376): the start value of the module's gangs. -/
def execGangStartWrite (t : DWord) (s : State) : Out := .next <|
  let ids := (s.ctxs.filterMap fun e => gangOf e.2).dedup
  ids.foldl (fun s id => { s with gangs := tset Gang.init s.gangs id { Gang.init with start := some t.toNat, first := true } })
    (setReg s gangReg t)

/-- GANG_SLICE_START (R376): what holds the gang's cores is pre-empted, and its groups are placed. -/
def execGangSliceStart (gang : Nat) (s : State) : Out := .next <|
  let g := tget Gang.init s.gangs gang
  match g.start with
  | none => s
  | some t =>
    if s.time < t ∨ !g.first then s
    else
      let mine := gangCtxs s gang
      let cores := mine.flatMap (coreRange s)
      let s := { s with gangs := tset Gang.init s.gangs gang { g with first := false } }
      let victims := (s.ctxs.filter fun e => e.2.st == 3 && !mine.contains e.1 &&
        s.groups.any fun h => groupCid s h.2 == e.1 && holdsCore h.2 && cores.contains h.2.core).map Prod.fst
      gangCheck (placeAgain (victims.foldl preemptCtx s)) gang

/-- GANG_START_PACKET (R376). -/
def execGangStartPacket (gang : Nat) (src : Nat) (s : State) : Out := .next <|
  let g := tget Gang.init s.gangs gang
  match takePacket s 0 with
  | none => s
  | some s =>
    if src = s.modNo ∨ g.packets.contains src = true then s
    else { s with gangs := tset Gang.init s.gangs gang { g with packets := g.packets ++ [src] } }

/-- Stop a group of an abandoned slice at its last commit point, and save it. A commit under way, and a commit-point instruction that
its home has heard of, is finished first (log entry 25). -/
def abandonGroup (s : State) (gid : Nat) : State :=
  let s := (groupPlaces s gid).foldl
    (fun s p => match getF s p with
      | some f => modF (if f.committing || f.op.isSome || spanClean f then s else rollback s p) p fun f => { f with stop := true }
      | none => s) s
  if (getG s gid).any fun g => g.st == .saving then due s (.groupSaveWrite gid) else startSave s gid

/-- GANG_ABANDON (R376): a module of the gang has sent no start packet 50,000 ticks after T. -/
def execGangAbandon (gang : Nat) (s : State) : Out := .next <|
  let g := tget Gang.init s.gangs gang
  match g.start with
  | none => s
  | some t =>
    let sent (m : Nat) : Bool := if m = s.modNo then g.placed else g.packets.contains m
    if s.time < t + 50000 ∨ (List.range 512).all fun m => !Config.gangMember gang m || sent m then s
    else
      let mine := gangCtxs s gang
      -- the gang waits for its next start value
      let s := { s with gangs := tset Gang.init s.gangs gang { Gang.init with first := true } }
      let gs := s.groups.filter fun e => mine.contains (groupCid s e.2) && (e.2.st == .placed || e.2.st == .draining || e.2.st == .saving)
      let s := gs.foldl (fun s e => abandonGroup s e.1) s
      mine.foldl (fun s c => modX s c fun x => if x.st = 3 then { x with st := 4 } else x) s

/-! ### The lighthouse and crashes (R379, R380, R384) -/

/-- LIGHTHOUSE_FIRE (R380). -/
def execLighthouseFire (cid : Nat) (s : State) : Out := .next <|
  match getX s cid with
  | none => s
  | some x =>
    if x.st ≠ 3 ∨ s.boot.crashed = true ∨ x.fired = true ∨ x.silence < windowOf s x then s
    else postFree (setX s cid { x with fired := true }) cid (mkRec { time := s.time, type := 5 })

/-- Contexts from loaded to pre-empted are frozen as by a crash (R372, R384; log entry 26, DEDUCED). -/
def freezeAll (s : State) : State :=
  ((s.ctxs.filter fun e => 1 ≤ e.2.st && e.2.st ≤ 4).map Prod.fst).foldl (fun s c => freezeCtx (rootCtx s c) s c) s

/-- The resident kernel is down: contexts are frozen, and a dump in progress will start again. -/
def kernelDown (s : State) : State :=
  let s := freezeAll s
  { s with
    boot := { s.boot with crashed := true, stage := 1 }
    dumps := match s.dumps.cur with
      | some c => { s.dumps with cur := none, queue := c :: s.dumps.queue }
      | none => s.dumps }

/-- A crash of the resident kernel (R384, R431, R433): before the first heartbeat BFAIL is set, and the boot returns to step 2; after it,
or where the compute dies run, it is a warm reboot, which is counted. -/
def crash (s : State) : State :=
  if s.boot.stage < 5 then s
  else
    let t := kernelDown s
    { t with boot := { t.boot with
        bfail := s.boot.bfail || s.boot.lastBeat.isNone, warm := s.boot.stage == 7
        wcount := if s.boot.lastBeat.isSome || s.boot.stage == 7 then s.boot.wcount + 1 else s.boot.wcount } }

/-- The compute dies are released, each with the first entry of its frequency log (R32, R431 step 7). -/
def releaseDies (s : State) : State :=
  let freq (d : Nat) : Nat := max 12 (min 33 ((getReg s (0x010000690008 + 8 * d)).toNat % 64))
  let s := (List.range 8).foldl
    (fun s d => if (getD s d).running then s else setD s d { getD s d with running := true, log := [{ fmul := freq d, cyc0 := 0, time0 := s.time }], logCount := 1 }) s
  { s with boot := { s.boot with stage := 7, lcBusy := false } }

/-- No link is up or on its way: the module runs alone. -/
def linksDown (s : State) : Bool := s.links.all fun e => e.2.st == 0 || e.2.st == 4

/-- HEARTBEAT_WRITE (R384). A module with no link up runs alone: the first heartbeat finds its dies released (R431). -/
def execHeartbeatWrite (v : DWord) (s : State) : Out := .next <|
  let s := setReg s beatReg v
  if s.boot.crashed || s.boot.stage < 5 then s
  else
    let s := { s with boot := { s.boot with lastBeat := some s.time } }
    if s.boot.stage = 5 ∧ linksDown s = true then releaseDies s else s

/-- HEARTBEAT_MISS (R384). -/
def execHeartbeatMiss (s : State) : Out := .next <|
  if 5 ≤ s.boot.stage ∧ s.boot.lastBeat.getD s.boot.kstart + 10000000 < s.time then crash s else s

/-- CONTROL_CORE_EXCEPTION (R384). -/
def execControlCoreException (s : State) : Out := .next (crash s)

/-! ### The resident kernel and a frozen fibre (R187, R197) -/

/-- The fibre goes on in pilot gear. -/
def goOn (s : State) (p : Place) (f : Fibre) (pc : DWord) : State :=
  readyNow (setF s p { f with froz := .no, pc, fetched := none, emptyAt := false, xlat := [], op := none, pilot := { f.pilot with on := true } }) p

def resumeFibre (s : State) (p : Place) (f : Fibre) (fi : FaultInfo) (how : ResumeHow) : State :=
  match how with
  | .again =>
    if fi.acc = 6 then gateAgain s else goOn s p f (resumeAt fi)
  | .next ls =>
    -- a gate word that could not be read has no next instruction: the gate is read again (R187 step 1)
    if fi.acc = 6 then gateAgain s
    else
    let vs := (ls.filter fun l => l.1 < 32).map fun l => (l.1, l.2.toNat)
    let s := match fi.dst with
      | some d => writeReg s p d.1 d.2 vs true
      | none => s
    (match getF s p with
     | some f => goOn s p f (fi.pc + 12)
     | none => s)
  | .killContext => killTree s (cidOf s f)
where
  gateAgain (s : State) : State := due (setF s p { f with froz := .gated none }) (.gateOpen p)

/-- RESIDENT_RESUME (R197); what is done to the leading copy of a redundant pair is done to the trailing one. -/
def execResidentResume (p : Place) (how : ResumeHow) (s : State) : Out := .next <|
  match getF s p with
  | none => s
  | some f =>
    match f.froz with
    | .resident fi _ =>
      if isTrailer f || !f.events.isEmpty then s
      else
        let s := resumeFibre s p f fi how
        match twin f with
        | none => s
        | some q =>
          match getF s q with
          | none => s
          | some g =>
            match g.froz with
            | .resident gi _ => resumeFibre s q g gi how
            | _ => s
    | _ => s

end Sys2Proof.Machine
end

