-- ==== Sys2Proof/Machine/EvLink.lean ====
section
/-! DEFINITION. Events of walkers, links and the collective engine (R396 to R398, R402 to R408, R412 to R414). -/
namespace Sys2Proof.Machine

/-! ### Walks (R395 to R398) -/

/-- The walk that a row names; rows of a die name its walks in any order. -/
def walkAt (l : List Walk) (w : Nat) : Option Walk := l[min w (l.length - 1)]?

/-- A fibre that waits for a translation of its own context gets it. -/
def giveXlat (s : State) (cid : Nat) (x : Xlat) (p : Place) : State :=
  match getF s p with
  | some f => if cidOf s f = cid then readyNow (setF s p { f with xlat := f.xlat ++ [x] }) p else s
  | none => s

/-- WALK_COMPLETE (R398): every miss joined to the walk gets its result. -/
def execWalkComplete (die : Nat) (w : Nat) (s : State) : Out := .next <|
  match walkAt (getD s die).walks w with
  | none => s
  | some k =>
    let r : Xlat × State :=
      if rootOf s k.cid % 2 = 0 ∨ 2 ^ 44 ≤ k.vpn then ({ vpn := k.vpn, cls := 4, level := 0, pte := 0 }, s)
      else
        let r := walkNow s die k.cid k.vpn
        ({ vpn := k.vpn, cls := r.1.cls, level := r.1.level, pte := BitVec.ofNat 64 r.1.pte }, r.2)
    let d := getD r.2 die
    let s := setD r.2 die { d with walks := (match pick (fun (x : Walk) => x == k) d.walks with
      | some q => q.2
      | none => d.walks) }
    let s := k.misses.foldl (fun s p => giveXlat s k.cid r.1 p) s
    if d.missq.isEmpty then s else due s (.walkDispatch die)

/-- WALK_DISPATCH (R397): the first queued miss joins a walk of its page with room, else it takes a free walker. -/
def execWalkDispatch (die : Nat) (s : State) : Out := .next <|
  let d := getD s die
  match d.missq with
  | [] => s
  | w :: ws =>
    let again (s : State) : State := if ws.isEmpty then s else due s (.walkDispatch die)
    match d.walks.find? fun k => k.cid == w.cid && k.vpn == w.vpn && k.misses.length < 256 with
    | some k =>
      again (setD s die { d with
        walks := swapFirst (fun x : Walk => x == k) { k with misses := k.misses ++ w.misses } d.walks, missq := ws })
    | none =>
      if 64 ≤ d.walks.length then s
      else again (due (setD s die { d with walks := d.walks ++ [w], missq := ws }) (.walkComplete die d.walks.length))

/-! ### Links (R402 to R406) -/

def linkUp (l : Link) : Bool := l.st == 2 || l.st == 3

/-- Forward the flits in a receive buffer while their links take them. -/
def pumpRx : Nat → State → Nat → State
  | 0, s, _ => s
  | k + 1, s, n =>
    let l := getL s n
    match l.rxq with
    | [] => s
    | (m, pa) :: rest =>
      match pickLink s m pa with
      | none => pumpRx k (setL s n { l with rxq := rest }) n
      | some o =>
        if (getL s o).stopped || 64 ≤ (getL s o).replay.length then s
        else pumpRx k (sendPacket (setL s n { l with rxq := rest }) m pa) n

/-- A resume flit is sent when the buffer has drained (R403). -/
def noteRx (s : State) (n : Nat) : State :=
  let l := getL s n
  if l.stopSent && l.rxq.length ≤ 32 then setL s n { l with stopSent := false }
  else if 96 ≤ l.rxq.length then setL s n { l with stopSent := true } else s

def pumpAll (s : State) : State := (List.range 36).foldl (fun s n => noteRx (pumpRx 128 s n) n) s

/-- A link stops: what it had not delivered goes another way. -/
def dropLink (s : State) (n st : Nat) : State :=
  let l := getL s n
  let s := setL s n { l with st, width := 0, replay := [], txq := [], stopped := false }
  (l.replay.map (fun f => (f.dst, f.pa)) ++ l.txq).foldl (fun s e => sendPacket s e.1 e.2) s

/-- LINK_ENABLE (R404). -/
def execLinkEnable (n : Nat) (s : State) : Out := .next <|
  let l := getL s n
  if n < 36 ∧ (l.st = 0 ∨ l.st = 3 ∨ l.st = 4) then setL s n { l with st := 1, width := 0, since := s.time } else s

/-- LINK_DISABLE (R404). -/
def execLinkDisable (n : Nat) (s : State) : Out := .next (if n < 36 ∧ (getL s n).st ≠ 0 then dropLink s n 0 else s)

/-- 100 ms. -/
def trainLimit : Nat := 100000000

/-- LINK_TRAINED (R404): a module that a trained link leads to may answer again. -/
def execLinkTrained (n : Nat) (width : Nat) (peer : Nat) (s : State) : Out := .next <|
  let l := getL s n
  if l.st ≠ 1 then s
  else if width < 2 ∨ l.since + trainLimit < s.time then dropLink s n 4
  else if width = 8 ∨ width = 4 ∨ width = 2 then
    pumpAll { setL s n (pumpTx { l with st := if width = 8 then 2 else 3, width, peer := peer % 512 }) with unreach := [] }
  else s

/-- LINK_TRAINING_TIMEOUT (R404). -/
def execLinkTrainingTimeout (n : Nat) (s : State) : Out :=
  .next (if (getL s n).st = 1 ∧ (getL s n).since + trainLimit ≤ s.time then dropLink s n 4 else s)

/-- What is in flight on a link is sent again from the first flit not acknowledged; a 16th resend takes the link down (R402, R404). -/
def resendAll (s : State) (n : Nat) (l : Link) : State :=
  let again := l.replay.map fun (f : Flit) => ({ f with resends := f.resends + 1 } : Flit)
  let s := setL s n { l with replay := again, resent := l.resent + l.replay.length }
  if again.any fun f => 16 ≤ f.resends then dropLink s n 4 else s

/-- LINK_LANE_FAIL (R404): the link narrows, and what is in flight is sent again; or it goes down. -/
def execLinkLaneFail (n : Nat) (usable : Nat) (s : State) : Out := .next <|
  let l := getL s n
  if !linkUp l then s
  else if usable < 2 then dropLink s n 4
  else if l.width ≤ usable then s
  else resendAll s n { l with st := 3, width := min l.width (if 4 ≤ usable then 4 else 2) }

/-- FLIT_RECEIVE (R402, R403, R406): the next flit in order is taken, and its packet delivered; a bad or early one makes the sender
resend. A flit for another module is forwarded. -/
def execFlitReceive (n : Nat) (seq : Nat) (crcOk : Bool) (dst : Nat) (pa : Nat) (s : State) : Out := .next <|
  let l := getL s n
  if !linkUp l || !crcOk || seq ≠ l.rxSeq || 128 ≤ l.rxq.length then s
  else if dst = s.modNo then { setL s n { l with rxSeq := l.rxSeq + 1 } with inbox := s.inbox ++ [pa] }
  else noteRx (pumpRx 128 (setL s n { l with rxSeq := l.rxSeq + 1, rxq := l.rxq ++ [(dst, pa)] }) n) n

/-- FLIT_ACK (R402). -/
def execFlitAck (n : Nat) (seq : Nat) (s : State) : Out := .next <|
  let l := getL s n
  pumpAll (setL s n (pumpTx { l with replay := l.replay.filter fun f => seq < f.seq }))

/-- FLIT_RESEND_TIMEOUT (R402): resent from the first flit not acknowledged; the 16th resend takes the link down. -/
def execFlitResendTimeout (n : Nat) (s : State) : Out := .next <|
  let l := getL s n
  if !linkUp l || l.replay.isEmpty then s else resendAll s n l

/-- STOP_FLIT (R403). -/
def execStopFlit (n : Nat) (s : State) : Out :=
  .next (if linkUp (getL s n) then setL s n { getL s n with stopped := true } else s)

/-- RESUME_FLIT (R403). -/
def execResumeFlit (n : Nat) (s : State) : Out :=
  .next (if linkUp (getL s n) then pumpAll (setL s n (pumpTx { getL s n with stopped := false })) else s)

/-- LINK_STATUS_READ (R405). -/
def execLinkStatusRead (n : Nat) (s : State) : Out := .next (regRead s (0x010000620000 + 0x40 * n) 8).2

/-- Link `n` is up and leads to the neighbour of the lowest module number. -/
def lowNeighbour (s : State) (n : Nat) : Bool :=
  n < 36 && linkUp (getL s n) && (List.range 36).all fun k => !linkUp (getL s k) || (getL s n).peer ≤ (getL s k).peer

/-- TIMER_FLIT (R408, R431): the module joins its domain with the timer of its lowest-numbered up neighbour, corrected for the
measured delay of the link; then its dies are released. -/
def execTimerFlit (n : Nat) (t : DWord) (s : State) : Out := .next <|
  if s.boot.stage = 5 ∧ lowNeighbour s n = true then releaseDies { s with time := t.toNat + Config.linkDelay n } else s

/-! ### Collectives (R410, R412 to R414) -/

/-- The sum of the participants' elements of one float format, by rank. -/
def collFadd (f : FFmt) (vs : List Nat) : Nat :=
  match firstNan (vs.map (decF f)) with
  | some v => encF f .rn v
  | none =>
    match sumVal .rn (vs.map (decF f)) with
    | some v => encF f .rn v
    | none => plainNan f

/-- Combine the elements of every participant, lowest rank first. -/
def collCombine (op : CollOp) (t : Ty) (vs : List Nat) : Nat :=
  let w := tyW t
  match op with
  | .add =>
    match t with
    | .f32 => collFadd fp32 vs
    | .bf16x2 => collFadd bfl16 (vs.map (· % 2 ^ 16)) + 2 ^ 16 * collFadd bfl16 (vs.map (· / 2 ^ 16))
    | _ => wrapI w ((vs.map fun (v : Nat) => (v : Int)).sum)
  | .min => vs.foldl (fun a v => if elemI t 0 v < elemI t 0 a then v else a) (vs.headD 0)
  | .max => vs.foldl (fun a v => if elemI t 0 a < elemI t 0 v then v else a) (vs.headD 0)

/-- What the destination receives: sources in rank order. -/
def collResult (c : Cmd) (srcs : List (Nat × List Nat)) : List Nat :=
  match c.kind with
  | .ar => (List.range c.nb).map fun i => collCombine c.cop c.ty (srcs.map fun e => e.2.getD i 0)
  | .ag => srcs.flatMap fun e => (List.range c.nb).map fun i => e.2.getD i 0
  | .bc => (List.range c.nb).map fun i => (((srcs.find? fun e => e.1 == c.root).map Prod.snd).getD []).getD i 0

def elemBytes (t : Ty) : Nat := 4 * t.regs

/-- A participant cannot be reached. -/
def collCut (s : State) (c : Cmd) : Bool :=
  (commMembers s c.comm).any fun m => m != s.modNo && (!routeUp s m || s.unreach.contains m)

/-- The engine runs this command (R410): it is among the 16 oldest that have not ended. -/
def collTurn (s : State) (id : Nat) : Bool :=
  let l := s.cmds.filter fun c => c.cls == .coll && c.of.isNone && !c.done
  (l.takeWhile fun c => c.id != id).length < 16

/-- A collective that has begun is abandoned (R414): which of the elements not yet written are written is free (log entry 8,
DESIGN CHOICE). -/
def abandonColl (s : State) (c : Cmd) (va : Nat) : State :=
  let es := elemBytes c.ty
  let v := freeVal s
  let go := c.res.zipIdx.filter fun (e : Nat × Nat) => c.pos ≤ e.2 && v.1.testBit e.2
  finishCmd (go.foldl (fun s e => (engWrite s c (c.xa + es * e.2) (bytesOf es e.1)).2) v.2) c.id (some va)

/-- The elements that a participant reads at its own source: of a broadcast, the root alone (R412). -/
def collSource (s : State) (c : Cmd) : Got × Nat × State :=
  if c.kind = .bc ∧ c.root ≠ s.modNo then (.ok [], c.ga, s) else engRead s c c.ga (c.nb * elemBytes c.ty)

/-- COLL_START (R410, R412, R414): the call of the same number of every other participant has arrived; or, once the collective has
begun, a participant has abandoned it. -/
def execCollStart (id : Nat) (parts : List CollPart) (s : State) : Out := .next <|
  match s.cmds.find? fun c => c.id == id && c.cls == .coll && c.of.isNone && !c.done with
  | none => s
  | some c =>
    let failed := (parts.filter fun q => q.seq == c.seq && commHas s c.comm q.module && q.module != s.modNo).findSome? CollPart.fail
    if c.begun then (match failed with
      | some va => abandonColl s c va
      | none => s)
    else
    let others := (commMembers s c.comm).filter (· != s.modNo)
    if !collTurn s id then s
    else if collCut s c then finishCmd s id (some 0)
    else if !(others.all fun m => (parts.countP fun q => q.module == m) == 1) || parts.length ≠ others.length ||
        parts.any fun q => q.seq != c.seq then s
    else if parts.any fun q => !q.agrees then finishCmd s id (some 0)
    else if failed.isSome then finishCmd s id failed
    else
      let es := elemBytes c.ty
      let r := collSource s c
      match r.1 with
      | .wait => r.2.2
      | .fail _ => finishCmd r.2.2 id (some r.2.1)
      | .ok b =>
        let own := (List.range c.nb).map fun i => natOf ((b.drop (es * i)).take es)
        let srcs := (commMembers s c.comm).map fun m =>
          if m = s.modNo then (m, own) else (m, ((parts.find? fun q => q.module == m).map fun q => q.elems.map BitVec.toNat).getD [])
        let clk := parts.foldl (fun k q => max k q.ctide) c.clk
        due (setCmd r.2.2 id fun c => { c with begun := true, res := collResult c srcs, clk }) (.collComplete id)

/-- COLL_COMPLETE (R413, R414): the next element of the destination is written, and with the last one the command is done: between
two of them the rest of the machine may act (R259). Where a write fails the command is abandoned. -/
def execCollComplete (id : Nat) (s : State) : Out := .next <|
  match s.cmds.find? fun c => c.id == id && c.cls == .coll && c.begun && !c.done with
  | none => s
  | some c =>
    let es := elemBytes c.ty
    let va := c.xa + es * c.pos
    if collCut s c then abandonColl s c 0
    else
      match c.res[c.pos]? with
      | none => finishCmd (raiseClock s c.core c.clk) id none
      | some v =>
        let w := engWrite s c va (bytesOf es v)
        if w.1 ≠ 0 then abandonColl w.2 c va
        else
          let s := setCmd w.2 id fun c => { c with pos := c.pos + 1 }
          if c.pos + 1 < c.res.length then due s (.collComplete id) else finishCmd (raiseClock s c.core c.clk) id none

end Sys2Proof.Machine
end

