-- ==== Sys2Proof/Machine/EvDebug.lean ====
section
/-! DEFINITION. Events of the debugger, the sampler, the replay log and fault injection (R422, R423, R425, R428, R429). -/
namespace Sys2Proof.Machine

/-! ### Halts (R377, R378, R422, R423) -/

/-- The context's debugger may act on the fibre at a place. -/
def dbgFibre (s : State) (cid : Nat) (p : Place) : Option Fibre :=
  match getF s p with
  | some f => if ctxFlag s cid 117 && cidOf s f == cid then some f else none
  | none => none

/-- A halt takes effect at once, with its record. -/
def haltNow (s : State) (p : Place) (f : Fibre) : State :=
  let s := setF s p { f with dbg := { f.dbg with halted := true, want := 0 } }
  match f.froz with
  | .gated _ => haltRec s p f 1 (f.span.faulted.getD 0) 0 0 (nextPc f)
  | .resident fi nest => haltRec s p f 1 fi.cls (faultWord f fi nest).toNat (lowAddr fi) (nextPc f)
  | .no => haltRec s p f 1 0 0 0 (nextPc f)

/-- A halt reaches a fibre (R422): frozen, blocked, or in pilot gear between instructions, at once; in pilot gear with an instruction
under way, when that one is done; else at its next commit point. -/
def haltFibre (s : State) (p : Place) (f : Fibre) : State :=
  if f.dbg.halted then s
  else if f.froz != .no || f.wait != .none || ((f.pilot.on || f.hnd.isSome) && f.op.isNone && !f.committing && !hasPend s p) then haltNow s p f
  else setF s p { f with dbg := { f.dbg with want := 1 } }

/-- A pre-emption deferred for the debugger proceeds with the last fibre that resumes (R378). -/
def afterResume (s : State) (f : Fibre) : State :=
  if ((groupOf s f).any fun g => g.deferred) && !debugHolds s f.grp then preemptGroup s f.grp else s

/-- A handler entry that a halt held back, as one step: the fibre halts again (R423). -/
def stepEntry (s : State) (p : Place) (f : Fibre) (fi : FaultInfo) : State :=
  let f' := { f with dbg := { halted := false, want := 0, step := false, fault := none } }
  let s := modF (deliverFault (setF s p f') p f' fi) p fun g => { g with dbg := { g.dbg with halted := true } }
  match getF s p with
  | some g => stepRec s p g
  | none => s

/-- A halted fibre goes on (R422): a fault that was held goes to its handler, which under FLAGS STEP is a step. -/
def resumeHalted (s : State) (p : Place) (f : Fibre) : State :=
  if !f.dbg.halted then s
  else if f.dbg.fault.isSome && ctxFlag s (cidOf s f) 118 then
    match f.dbg.fault with
    | some fi => stepEntry s p f fi
    | none => s
  else
    let f' := { f with dbg := { halted := false, want := 0, step := false, fault := none } }
    let s := setF s p f'
    let s := match f.dbg.fault with
      | some fi => deliverFault s p f' fi
      | none =>
        match f.froz with
        | .gated _ => due s (.gateOpen p)
        | _ => readyNow s p
    afterResume s f

/-- A halted fibre runs one instruction in pilot gear (R423); a handler entry is that instruction. -/
def stepFibre (s : State) (p : Place) (f : Fibre) : State :=
  if !f.dbg.halted then s
  else
    match f.dbg.fault with
    | some fi => stepEntry s p f fi
    | none =>
      let s := setF s p { f with
        dbg := { halted := false, want := 0, step := true, fault := none }
        pilot := if f.froz = .no then { f.pilot with on := true } else f.pilot }
      match f.froz with
      | .gated _ => due s (.gateOpen p)
      | _ => readyNow s p

def onFibre (s : State) (cid : Nat) (p : Place) (g : State → Place → Fibre → State) : State :=
  match dbgFibre s cid p with
  | some f => g s p f
  | none => s

/-- Places of a context's fibres. -/
def ctxPlaces (s : State) (cid : Nat) : List Place := (s.fibres.filter fun e => cidOf s e.2 == cid).map fun e => placeOf e.1

/-- HALT (R422). -/
def execHalt (cid : Nat) (p : Place) (s : State) : Out := .next (onFibre s cid p haltFibre)
/-- RESUME (R422). -/
def execResume (cid : Nat) (p : Place) (s : State) : Out := .next (onFibre s cid p resumeHalted)
/-- STEP (R423). -/
def execStep (cid : Nat) (p : Place) (s : State) : Out := .next (onFibre s cid p stepFibre)
/-- HALT_AT_REGION_EDGE (R422). -/
def execHaltAtRegionEdge (cid : Nat) (p : Place) (s : State) : Out :=
  -- a halt that is pending already stays
  .next (onFibre s cid p fun s p f => if f.dbg.halted || f.dbg.want == 1 then s else setF s p { f with dbg := { f.dbg with want := 3 } })
/-- HALT_EVERY_FIBRE (R422). -/
def execHaltEveryFibre (cid : Nat) (s : State) : Out := .next ((ctxPlaces s cid).foldl (fun s p => onFibre s cid p haltFibre) s)
/-- RESUME_EVERY_FIBRE (R422). -/
def execResumeEveryFibre (cid : Nat) (s : State) : Out :=
  .next ((ctxPlaces s cid).foldl (fun s p => onFibre s cid p resumeHalted) s)

/-! ### Samples (R425) -/

/-- Fibre contexts of the context's placed groups that hold a fibre, or have held one since placement, in ascending order. -/
def sampleKeys (s : State) (cid : Nat) : List Nat :=
  let gs := (s.groups.map Prod.snd).filter fun g => groupCid s g == cid && holdsCore g
  let all := gs.flatMap fun g => g.berths.flatMap fun b => (List.range 8).map fun c => bkey g.core b * 8 + c
  (all.filter fun k =>
    (tfind s.fibres k).isSome || (tfind (getB s (placeOf k).core (placeOf k).berth).exits (placeOf k).fib).isSome).mergeSort (· ≤ ·)

/-- The next one in rotation after the key sampled last (kept as key + 1). -/
def nextSample (ks : List Nat) (last : Nat) : Option Nat :=
  match ks.find? fun k => last ≤ k with
  | some k => some k
  | none => ks.head?

/-- First byte of the word whose fetch is outstanding. -/
def fetchAddr (s : State) (p : Place) (f : Fibre) : Nat :=
  ((List.range 3).map fun i => (f.pc.toNat + 4 * i) % 2 ^ 64).find? (fun a => (fetchPart s p f false a).1 == .wait) |>.getD f.pc.toNat

/-- Line that a blocked fibre waits on. -/
def waitLine (f : Fibre) : Nat :=
  match f.wait with
  | .park pa _ _ _ | .mbarWt pa _ => pa / 128 * 128
  | _ => 0

/-- STATE, PC and ADDR of a sample. -/
def sampleOf (s : State) (p : Place) (f : Fibre) : Nat × Nat × Nat :=
  let b := getB s p.core p.berth
  let cur : Bool := b.cur == p.fib
  if b.lastFib == p.fib && b.lastIssue.1 == cycOf s p.core then (0, b.lastIssue.2.toNat, 0)
  else if f.froz != .no || f.dbg.halted || recsWait s f then (4, (nextPc f).toNat, 0)
  else if f.wait != .none then (3, f.pc.toNat, waitLine f)
  else if (fetchWord s p f false).1 == .wait then (5, f.pc.toNat, fetchAddr s p f)
  else if cur then (1, f.pc.toNat, 0)
  else (2, f.pc.toNat, 0)

/-- SAMPLE_TICK (R425): every SPERIOD ticks one fibre context is sampled. -/
def execSampleTick (cid : Nat) (s : State) : Out := .next <|
  let period := (getReg s (dbgAddr cid + 0x18)).toNat % 2 ^ 32
  match getX s cid with
  | none => s
  | some x =>
    if period = 0 ∨ s.time < x.sampleAt + period then s
    else
      let s := modX s cid fun x => { x with sampleAt := s.time }
      match nextSample (sampleKeys s cid) x.lastSample with
      | none => s
      | some k =>
        let p := placeOf k
        let s := modX s cid fun x => { x with lastSample := k + 1 }
        match getF s p with
        | some f =>
          let r := sampleOf s p f
          trace s p.core cid
            (mkRec { time := s.time, addr := r.2.2, pc := r.2.1, rgn := rgnWord f.regions, inst := ((groupOf s f).map Group.inst).getD 0,
                     mask := f.amask.toNat, place := placeWord s p, type := 0x13, cls := r.1 })
        | none =>
          let pc := ((tfind (getB s p.core p.berth).exits p.fib).map BitVec.toNat).getD 0
          let inst := ((s.groups.find? fun e => e.2.core == p.core && holdsCore e.2 && e.2.berths.contains p.berth).map fun e => e.2.inst).getD 0
          trace s p.core cid (mkRec { time := s.time, pc, inst, place := placeWord s p, type := 0x13, cls := 6 })

/-! ### Replay and fault injection (R428, R429) -/

/-- REPLAY_DIVERGENCE (R428): an operation held for 1,000,000 ticks; its slice serves the context in arrival order from now on. -/
def execReplayDivergence (id : Nat) (s : State) : Out := .next <|
  match findReq s id with
  | none => s
  | some r =>
    if r.held = 0 ∨ s.time + 1 < r.held + 1000000 ∨ replayMode s r.cid ≠ 2 then s
    else
      let k := servingSlice s r
      let sl := getSl s k
      let x : RecF := { time := s.time, addr := r.pa, aux := k, type := 0x15 }
      let p : Option Place := match r.cont with
        | .op p | .hold p => some p
        | _ => none
      let x := match p.bind fun p => (getF s p).map fun f => (p, f) with
        | some (p, f) =>
          { x with rgn := rgnWord f.regions, inst := ((groupOf s f).map Group.inst).getD 0, mask := f.amask.toNat, place := placeWord s p }
        | none => x
      let s := trace s r.core r.cid (mkRec x)
      wakeSlice (setSl s k { sl with free := if sl.free.contains r.cid then sl.free else sl.free ++ [r.cid] }) k r.cid

/-- FAULT_INJECT_ARM (R429): a control core writes the register with ARM set, the high half first. -/
def execFaultInjectArm (v : BitVec 128) (s : State) : Out := .next <|
  let s := regWrite s .controlCore (injAddr + 8) 8 (v.toNat / 2 ^ 64)
  -- DONE is left as it is
  regWrite s .controlCore injAddr 8 (v.toNat % 2 ^ 64 / 2 ^ 49 * 2 ^ 49 + 1)

/-- FAULT_INJECT_DONE_CLEAR (R429): a control core writes 1 to DONE, and the other fields as they stand. -/
def execFaultInjectDoneClear (s : State) : Out := .next <|
  regWrite s .controlCore injAddr 8 ((getReg s injAddr).toNat ||| 2)

end Sys2Proof.Machine
end

