-- ==== Sys2Proof/Machine/Sha3.lean ====
section
/-! DEFINITION. SHA3-256, the digest of images, measurements and quotes (R431, R434). -/
namespace Sys2Proof.Machine

/-- Rotation offsets of lane x + 5y. -/
def keccakRot : List Nat := [0, 1, 62, 28, 27, 36, 44, 6, 55, 20, 3, 10, 43, 25, 39, 41, 45, 15, 21, 8, 18, 2, 61, 56, 14]

/-- The 24 round constants. -/
def keccakRc : List DWord :=
  [0x0000000000000001, 0x0000000000008082, 0x800000000000808A, 0x8000000080008000, 0x000000000000808B, 0x0000000080000001,
   0x8000000080008081, 0x8000000000008009, 0x000000000000008A, 0x0000000000000088, 0x0000000080008009, 0x000000008000000A] ++
  [0x000000008000808B, 0x800000000000008B, 0x8000000000008089, 0x8000000000008003, 0x8000000000008002, 0x8000000000000080,
   0x000000000000800A, 0x800000008000000A, 0x8000000080008081, 0x8000000000008080, 0x0000000080000001, 0x8000000080008008]

/-- One round on the 25 lanes. -/
def keccakRound (a : List DWord) (rc : DWord) : List DWord :=
  let g (l : List DWord) (i : Nat) : DWord := l.getD i 0
  let c := (List.range 5).map fun x => g a x ^^^ g a (x + 5) ^^^ g a (x + 10) ^^^ g a (x + 15) ^^^ g a (x + 20)
  let d := (List.range 5).map fun x => g c ((x + 4) % 5) ^^^ (g c ((x + 1) % 5)).rotateLeft 1
  let t := (List.range 25).map fun i => (g a i ^^^ g d (i % 5)).rotateLeft (keccakRot.getD i 0)
  -- lane (x, y) moves to (y, 2x + 3y): what stands at (x, y) came from (x + 3y, x)
  let b := (List.range 25).map fun i => let x := i % 5; let y := i / 5; g t ((x + 3 * y) % 5 + 5 * x)
  let e := (List.range 25).map fun i =>
    let x := i % 5
    let y := i / 5
    g b i ^^^ (~~~(g b ((x + 1) % 5 + 5 * y)) &&& g b ((x + 2) % 5 + 5 * y))
  (e.head?.map fun x => (x ^^^ rc) :: e.drop 1).getD []

def keccakF (a : List DWord) : List DWord := keccakRc.foldl keccakRound a

/-- The 8 bytes of a lane, lowest first. -/
def laneOfBytes (l : List Byte) : DWord := BitVec.ofNat 64 (l.foldr (fun b acc => b.toNat + 256 * acc) 0)

/-- Absorb a block of 136 bytes. -/
def absorb (a : List DWord) (blk : List Byte) : List DWord :=
  keccakF ((List.range 25).map fun i =>
    if i < 17 then a.getD i 0 ^^^ laneOfBytes ((blk.drop (8 * i)).take 8) else a.getD i 0)

def absorbAll : Nat → List DWord → List Byte → List DWord
  | 0, a, _ => a
  | n + 1, a, l => absorbAll n (absorb a (l.take 136)) (l.drop 136)

/-- The padding of SHA3. -/
def sha3Pad (m : List Byte) : List Byte :=
  let k := 136 - m.length % 136
  if k = 1 then m ++ [0x86] else m ++ (0x06 : Byte) :: (List.replicate (k - 2) 0 ++ [0x80])

/-- SHA3-256 of a message; byte 0 of the digest is in bits [7:0]. -/
def sha3 (m : List Byte) : BitVec 256 :=
  let p := sha3Pad m
  let a := absorbAll (p.length / 136) (List.replicate 25 0) p
  (List.range 4).foldl (fun (d : BitVec 256) i => d ||| (a.getD i 0).setWidth 256 <<< (64 * i)) 0

end Sys2Proof.Machine
end

