-- ==== Sys2Proof/Machine/EvBoot.lean ====
section
/-! DEFINITION. Events of boot, attestation, life cycle, power and the register range (R31, R386, R431 to R435, R438, R439). -/
namespace Sys2Proof.Machine

/-! ### Boot (R431, R433, R434) -/

/-- What is left of memory after a wipe: the host's and the CXL tier's (R435). -/
def portMem (s : State) : Memory := s.mem.filter fun c => isPort s (s.modNo * 2 ^ 47 + c.1)

/-- A cold reset, with the fuses and what lies outside the module as they are (R431 step 1). -/
def reboot (s : State) (lcs : BitVec 2) (keyNo : Nat) (busy : Bool) : State :=
  { State.reset with
    mem := portMem s, modNo := s.modNo, cxlSize := s.cxlSize, freeAt := s.freeAt, nextId := s.nextId, focus := s.focus, sched := s.sched
    boot := { Boot.init with stage := 1, lcs, keyNo, lcBusy := busy, flash := s.boot.update.orElse fun _ => s.boot.flash } }

/-- COLD_RESET (R431); one during the boot of a change of life-cycle state leaves that change unfinished (R435). -/
def execColdReset (s : State) : Out := .next (reboot s s.boot.lcs s.boot.keyNo (s.boot.lcBusy && s.boot.stage < 7))

/-- Bytes of a digest. -/
def digBytes (d : BitVec 256) : List Byte := bytesOf 32 d.toNat

/-- Bits [2143:0] of a context's registry entry (R385); 0 where the CID is not allocated. -/
def regFields (x : Ctx) : Nat :=
  if 6 < x.st then 0
  else x.block.toNat + x.cbaddr % 2 ^ 64 * 2 ^ 2048 + x.st * 2 ^ 2112 + 2 ^ 2116 + x.prev * 2 ^ 2120 + x.froot * 2 ^ 2124

/-- The CRC field that a registry entry should hold (R385). -/
def regCrc (x : Ctx) : Word := crc32c (bytesOf 268 (regFields x))

/-- The registry entry of a context (R385). -/
def regEntry (x : Ctx) : BitVec 4096 := BitVec.ofNat 4096 (regFields x + (regCrc x ^^^ x.crcErr).toNat * 2 ^ 2144)

/-- The CRC of a registry entry does not match its bits (R386). -/
def regDamaged (x : Ctx) : Bool := (regEntry x).toNat / 2 ^ 2144 % 2 ^ 32 != (regCrc x).toNat

/-- Contexts are adopted again after a warm reboot (R386): those whose registry entry is damaged are killed. -/
def adopt (s : State) : State :=
  let s := ((s.ctxs.filter fun e => regDamaged e.2).map Prod.fst).foldl killCtx s
  -- a dump that the crash broke off starts again (R384)
  if s.dumps.queue.isEmpty then s else due s .dumpStart

/-- The signature of an image verifies (R431 step 3). -/
def imageOk (image : List Byte) : Bool := Config.sigOk 0 (digBytes (sha3 image)) image

/-- FIRMWARE_IMAGE_RECEIVE (R431 steps 2 to 5): an image, from flash or over Ethernet, is verified, measured and started. Flash is tried
first: an image over Ethernet is taken only where flash holds none that is valid, and one found invalid there has been refused
before it. -/
def execFirmwareImageReceive (image : List Byte) (fwver : Word) (s : State) : Out := .next <|
  let dig := sha3 image
  if s.boot.stage = 0 ∨ 2 < s.boot.stage ∨ fwver ≠ Config.imageVersion image then s
  else if s.boot.flash.any fun x => x != image && imageOk x then s
  else if !imageOk image then { s with boot := { s.boot with stage := 2, bfail := true } }
  else
    let b := { s.boot with bfail := s.boot.bfail || s.boot.flash.any (· != image), fwver, meas := sha3 (digBytes s.boot.meas ++ digBytes dig), crashed := false, kstart := s.time, lastBeat := none }
    if s.boot.warm then adopt { s with boot := { b with stage := 7, warm := false, wreq := false } }
    else adopt { s with boot := { b with stage := 5, wreq := false } }

/-- WARM_REBOOT_REQUEST (R433): a control core writes WREQ. -/
def execWarmRebootRequest (who : Agent) (s : State) : Out := .next <|
  if who = .host ∨ s.boot.stage < 5 then s
  else
    let stage := s.boot.stage
    let s := kernelDown s
    { s with boot := { s.boot with wreq := true, wcount := s.boot.wcount + 1, warm := stage == 7 } }

/-- QUOTE_REQUEST (R434). -/
def execQuoteRequest (nonce : BitVec 256) (s : State) : Out := .next <|
  let b := s.boot
  let body := digBytes nonce ++ digBytes b.meas ++ bytesOf 4 b.fwver.toNat ++ bytesOf 1 b.lcs.toNat ++ bytesOf 43 0
  { s with boot := { b with
      lastQuote := if b.lcs = 0 then [] else body ++ bytesOf 2420 (Config.quoteSig b.keyNo (sha3 body)) } }

/-- Transitions that a signed record may make. -/
def lcNext (a b : BitVec 2) : Bool := (a == 0 && b == 1) || (a == 1 && b == 2) || (a == 2 && b == 3) || (a == 3 && b == 1)

/-- LIFECYCLE_TRANSITION (R435). -/
def execLifecycleTransition (target : BitVec 2) (sig : List Byte) (s : State) : Out := .next <|
  if (s.boot.lcBusy && s.boot.stage < 7) || !lcNext s.boot.lcs target || !Config.sigOk 1 (bytesOf 1 target.toNat) sig then s
  else reboot s target (if target = 1 then s.boot.keyNo + 1 else s.boot.keyNo) true

/-! ### Frequencies (R31, R32, R438) -/

/-- Highest frequency of a die. -/
def freqMax (s : State) (die : Nat) : Nat := max 12 (min 33 ((getReg s (0x010000690008 + 8 * die)).toNat % 64))

/-- The package limit in force, in W (R438). -/
def powerLimit (s : State) : Nat := min 15000 ((getReg s 0x010000690000).toNat % 2 ^ 16)

/-- The frequency at which a die runs from its next step: the lower of FREQ and the one that keeps PWR within PLIMIT (R438; log entry
52, DESIGN CHOICE). -/
def freqNext (s : State) (die : Nat) : Nat := max 12 (min (freqMax s die) (Config.powerFreq die (powerLimit s) s.time))

/-- FREQUENCY_STEP (R31, R33, R438): at the start of a tick the die's clock stops, and its PLL relocks. -/
def execFrequencyStep (die : Nat) (fmul : Nat) (s : State) : Out := .next <|
  let d := getD s die
  if !d.running || d.relock.isSome || fmul ≠ freqNext s die || 8 ≤ die then s
  else if !s.tickStart then due s (.frequencyStep die fmul)
  else due (setD s die { d with relock := some (fmul, dieCyc d s.time) }) (.pllRelockDone die)

/-- PLL_RELOCK_DONE (R31, R32): the clock restarts at the start of a later tick, and the step is logged. -/
def execPllRelockDone (die : Nat) (s : State) : Out := .next <|
  let d := getD s die
  match d.relock with
  | none => s
  | some (fmul, c0) =>
    if !s.tickStart then due s (.pllRelockDone die)
    else setD s die { d with relock := none, log := ({ fmul, cyc0 := c0, time0 := s.time } :: d.log).take 64, logCount := d.logCount + 1 }

/-! ### Registers (R439) -/

/-- Registers that only privileged contexts and the control cores write (R371, R419, R424, R438). -/
def kernelOnly (r : RegId) : Bool :=
  match r with
  | .cbaddr | .cmd | .result | .heartbeat | .gangStart | .root _ | .dbg .. | .watch .. | .plimit | .freq _ | .comm .. | .route _
  | .linkCmd _ | .lane .. => true
  | _ => false

/-- REGISTER_WRITE (R409, R439): a control core writes any register, the host those that BAR 0 maps. -/
def execRegisterWrite (who : Agent) (pa : Nat) (size : Nat) (v : DWord) (s : State) : Out := .next <|
  let ok : Bool := match regAt (pa / 8 * 8) with
    | some r => who == .controlCore || (!kernelOnly r && s.hostRegs.any fun e => e.1 ≤ pa && pa + size ≤ e.1 + e.2)
    | none => false
  if !ok || !(size == 4 || size == 8) || pa % size != 0 then s
  else regWrite s (match who with
    | .controlCore => .controlCore
    | .host => .host) pa size v.toNat

end Sys2Proof.Machine
end

