-- ==== Sys2Proof/Machine/Dispatch.lean ====
section
/-! DEFINITION. One arm for each row of the table, each a direct call of that row's meaning. -/
namespace Sys2Proof.Machine

def exec (i : Instr) (s : State) : Host.Outcome State Fault Refusal :=
  match i with
  | .nop h => Sys2Proof.Machine.execNop h s
  | .br h c a off => Sys2Proof.Machine.execBr h c a off s
  | .brc h c a off tok => Sys2Proof.Machine.execBrc h c a off tok s
  | .jmp h tgt => Sys2Proof.Machine.execJmp h tgt s
  | .call h off => Sys2Proof.Machine.execCall h off s
  | .calli h a => Sys2Proof.Machine.execCalli h a s
  | .ret h a => Sys2Proof.Machine.execRet h a s
  | .join h tok => Sys2Proof.Machine.execJoin h tok s
  | .exit h => Sys2Proof.Machine.execExit h s
  | .yield h => Sys2Proof.Machine.execYield h s
  | .spawn h d blk tgt => Sys2Proof.Machine.execSpawn h d blk tgt s
  | .fbar h m => Sys2Proof.Machine.execFbar h m s
  | .wgive h slot => Sys2Proof.Machine.execWgive h slot s
  | .wclaim h slot => Sys2Proof.Machine.execWclaim h slot s
  | .park h base off => Sys2Proof.Machine.execPark h base off s
  | .rgnEnter h id idem => Sys2Proof.Machine.execRgnEnter h id idem s
  | .rgnLeave h => Sys2Proof.Machine.execRgnLeave h s
  | .trap h code => Sys2Proof.Machine.execTrap h code s
  | .tret h skip => Sys2Proof.Machine.execTret h skip s
  | .brk h tag => Sys2Proof.Machine.execBrk h tag s
  | .fltrd h d sel => Sys2Proof.Machine.execFltrd h d sel s
  | .fltset h t a => Sys2Proof.Machine.execFltset h t a s
  | .ldsys h t d base off => Sys2Proof.Machine.execLdsys h t d base off s
  | .stsys h t base off data => Sys2Proof.Machine.execStsys h t base off data s
  | .tlbi h sc m a b => Sys2Proof.Machine.execTlbi h sc m a b s
  | .ldsp h d => Sys2Proof.Machine.execLdsp h d s
  | .stsp h a => Sys2Proof.Machine.execStsp h a s
  | .mark h value => Sys2Proof.Machine.execMark h value s
  | .chk h d a => Sys2Proof.Machine.execChk h d a s
  | .pilot h on => Sys2Proof.Machine.execPilot h on s
  | .add x sat => Sys2Proof.Machine.execAdd x sat s
  | .sub x sat => Sys2Proof.Machine.execSub x sat s
  | .mul x sat => Sys2Proof.Machine.execMul x sat s
  | .mulh x => Sys2Proof.Machine.execMulh x s
  | .mad x sat => Sys2Proof.Machine.execMad x sat s
  | .div x => Sys2Proof.Machine.execDiv x s
  | .rem x => Sys2Proof.Machine.execRem x s
  | .neg x sat => Sys2Proof.Machine.execNeg x sat s
  | .abs x sat => Sys2Proof.Machine.execAbs x sat s
  | .min x => Sys2Proof.Machine.execMin x s
  | .max x => Sys2Proof.Machine.execMax x s
  | .sad x sat => Sys2Proof.Machine.execSad x sat s
  | .addc x co => Sys2Proof.Machine.execAddc x co s
  | .subb x bo => Sys2Proof.Machine.execSubb x bo s
  | .lea x sh => Sys2Proof.Machine.execLea x sh s
  | .dot4 x sat => Sys2Proof.Machine.execDot4 x sat s
  | .and x => Sys2Proof.Machine.execAnd x s
  | .or x => Sys2Proof.Machine.execOr x s
  | .xor x => Sys2Proof.Machine.execXor x s
  | .andn x => Sys2Proof.Machine.execAndn x s
  | .not x => Sys2Proof.Machine.execNot x s
  | .shl x => Sys2Proof.Machine.execShl x s
  | .shr x => Sys2Proof.Machine.execShr x s
  | .sra x => Sys2Proof.Machine.execSra x s
  | .rol x => Sys2Proof.Machine.execRol x s
  | .bfx x => Sys2Proof.Machine.execBfx x s
  | .bfi x => Sys2Proof.Machine.execBfi x s
  | .popc x => Sys2Proof.Machine.execPopc x s
  | .clz x => Sys2Proof.Machine.execClz x s
  | .ctz x => Sys2Proof.Machine.execCtz x s
  | .brev x => Sys2Proof.Machine.execBrev x s
  | .prmt x => Sys2Proof.Machine.execPrmt x s
  | .cmp x c => Sys2Proof.Machine.execCmp x c s
  | .sel x => Sys2Proof.Machine.execSel x s
  | .mov h t d a => Sys2Proof.Machine.execMov h t d a s
  | .pack h t d a b sat => Sys2Proof.Machine.execPack h t d a b sat s
  | .unpack x hi => Sys2Proof.Machine.execUnpack x hi s
  | .rdl x => Sys2Proof.Machine.execRdl x s
  | .bcast x => Sys2Proof.Machine.execBcast x s
  | .vred x op => Sys2Proof.Machine.execVred x op s
  | .ballot x => Sys2Proof.Machine.execBallot x s
  | .shfl x m => Sys2Proof.Machine.execShfl x m s
  | .vote x m => Sys2Proof.Machine.execVote x m s
  | .actn x => Sys2Proof.Machine.execActn x s
  | .fadd x r => Sys2Proof.Machine.execFadd x r s
  | .fsub x r => Sys2Proof.Machine.execFsub x r s
  | .fmul x r => Sys2Proof.Machine.execFmul x r s
  | .fma x r => Sys2Proof.Machine.execFma x r s
  | .fmin x num => Sys2Proof.Machine.execFmin x num s
  | .fmax x num => Sys2Proof.Machine.execFmax x num s
  | .fcmp x c => Sys2Proof.Machine.execFcmp x c s
  | .frnd x r => Sys2Proof.Machine.execFrnd x r s
  | .fclass x => Sys2Proof.Machine.execFclass x s
  | .fdot2 x r => Sys2Proof.Machine.execFdot2 x r s
  | .fscl x r => Sys2Proof.Machine.execFscl x r s
  | .fexpo x => Sys2Proof.Machine.execFexpo x s
  | .rcp x r => Sys2Proof.Machine.execRcp x r s
  | .rsq x r => Sys2Proof.Machine.execRsq x r s
  | .sqrt x r => Sys2Proof.Machine.execSqrt x r s
  | .exp2 x r => Sys2Proof.Machine.execExp2 x r s
  | .log2 x r => Sys2Proof.Machine.execLog2 x r s
  | .sinpi x r => Sys2Proof.Machine.execSinpi x r s
  | .cospi x r => Sys2Proof.Machine.execCospi x r s
  | .tanh x r => Sys2Proof.Machine.execTanh x r s
  | .fdiv x r => Sys2Proof.Machine.execFdiv x r s
  | .cvt h d a df sf sat r => Sys2Proof.Machine.execCvt h d a df sf sat r s
  | .cvtpk h d a b c df p sat r => Sys2Proof.Machine.execCvtpk h d a b c df p sat r s
  | .cvtunpk h d a dm sf e r => Sys2Proof.Machine.execCvtunpk h d a dm sf e r s
  | .mxsc x f => Sys2Proof.Machine.execMxsc x f s
  | .ldG x => Sys2Proof.Machine.execLdG x s
  | .stG x => Sys2Proof.Machine.execStG x s
  | .ldX x => Sys2Proof.Machine.execLdX x s
  | .stX x => Sys2Proof.Machine.execStX x s
  | .pf h cpol base off => Sys2Proof.Machine.execPf h cpol base off s
  | .dsc h base off => Sys2Proof.Machine.execDsc h base off s
  | .fence h ord sc => Sys2Proof.Machine.execFence h ord sc s
  | .prom h sc d a => Sys2Proof.Machine.execProm h sc d a s
  | .lease h base off e => Sys2Proof.Machine.execLease h base off e s
  | .cadd h t data base off => Sys2Proof.Machine.execCadd h t data base off s
  | .cmin h t data base off => Sys2Proof.Machine.execCmin h t data base off s
  | .cmax h t data base off => Sys2Proof.Machine.execCmax h t data base off s
  | .atomAdd x => Sys2Proof.Machine.execAtomAdd x s
  | .atomSub x => Sys2Proof.Machine.execAtomSub x s
  | .atomMin x => Sys2Proof.Machine.execAtomMin x s
  | .atomMax x => Sys2Proof.Machine.execAtomMax x s
  | .atomAnd x => Sys2Proof.Machine.execAtomAnd x s
  | .atomOr x => Sys2Proof.Machine.execAtomOr x s
  | .atomXor x => Sys2Proof.Machine.execAtomXor x s
  | .atomXchg x => Sys2Proof.Machine.execAtomXchg x s
  | .atomCas x c => Sys2Proof.Machine.execAtomCas x c s
  | .atomInc x => Sys2Proof.Machine.execAtomInc x s
  | .atomDec x => Sys2Proof.Machine.execAtomDec x s
  | .atomFadd x => Sys2Proof.Machine.execAtomFadd x s
  | .copy h cpol out ch a b c stride => Sys2Proof.Machine.execCopy h cpol out ch a b c stride s
  | .gath h cpol a b c => Sys2Proof.Machine.execGath h cpol a b c s
  | .scat h cpol a b c => Sys2Proof.Machine.execScat h cpol a b c s
  | .wait h cls n => Sys2Proof.Machine.execWait h cls n s
  | .waitp h ch t => Sys2Proof.Machine.execWaitp h ch t s
  | .coll h t sc kind op a b c => Sys2Proof.Machine.execColl h t sc kind op a b c s
  | .mwld h cpol a => Sys2Proof.Machine.execMwld h cpol a s
  | .mpass h cpol a => Sys2Proof.Machine.execMpass h cpol a s
  | .mtab h cpol a => Sys2Proof.Machine.execMtab h cpol a s
  | .accld h d a col cnt => Sys2Proof.Machine.execAccld h d a col cnt s
  | .accst h d a col cnt => Sys2Proof.Machine.execAccst h d a col cnt s
  | .acczero h a cnt => Sys2Proof.Machine.execAcczero h a cnt s
  | .mstat h d sel => Sys2Proof.Machine.execMstat h d sel s
  | .bar h sc b n => Sys2Proof.Machine.execBar h sc b n s
  | .barArr h sc d b n => Sys2Proof.Machine.execBarArr h sc d b n s
  | .barWt h sc a b => Sys2Proof.Machine.execBarWt h sc a b s
  | .mbarInit h sc a b => Sys2Proof.Machine.execMbarInit h sc a b s
  | .mbarArr h sc d a => Sys2Proof.Machine.execMbarArr h sc d a s
  | .mbarWt h sc a b => Sys2Proof.Machine.execMbarWt h sc a b s
  | .qpush x => Sys2Proof.Machine.execQpush x s
  | .qpop x => Sys2Proof.Machine.execQpop x s
  | .dqPush x => Sys2Proof.Machine.execDqPush x s
  | .dqPop x => Sys2Proof.Machine.execDqPop x s
  | .dqSteal x => Sys2Proof.Machine.execDqSteal x s
  | .depDec x => Sys2Proof.Machine.execDepDec x s
  | .launch h d a b => Sys2Proof.Machine.execLaunch h d a b s
  | .graphTrig h d a b c => Sys2Proof.Machine.execGraphTrig h d a b c s
  | .instructionFetchReturn p fresh => Sys2Proof.Machine.execInstructionFetchReturn p fresh s
  | .resultWriteback id => Sys2Proof.Machine.execResultWriteback id s
  | .fibreQuantumExpiry core berth => Sys2Proof.Machine.execFibreQuantumExpiry core berth s
  | .starvationOverride core berth => Sys2Proof.Machine.execStarvationOverride core berth s
  | .dividedHalfRotate p => Sys2Proof.Machine.execDividedHalfRotate p s
  | .spanLengthLimit p => Sys2Proof.Machine.execSpanLengthLimit p s
  | .spanCommitRefused p => Sys2Proof.Machine.execSpanCommitRefused p s
  | .gateOpen p => Sys2Proof.Machine.execGateOpen p s
  | .residentResume p how => Sys2Proof.Machine.execResidentResume p how s
  | .homeLeaseRequest id => Sys2Proof.Machine.execHomeLeaseRequest id s
  | .leaseReply id => Sys2Proof.Machine.execLeaseReply id s
  | .ownershipRequest id => Sys2Proof.Machine.execOwnershipRequest id s
  | .ownershipGrant id => Sys2Proof.Machine.execOwnershipGrant id s
  | .recall id => Sys2Proof.Machine.execRecall id s
  | .recallAnswer id => Sys2Proof.Machine.execRecallAnswer id s
  | .untrackedAccess id => Sys2Proof.Machine.execUntrackedAccess id s
  | .spinNudge p => Sys2Proof.Machine.execSpinNudge p s
  | .parkedClockNudge core => Sys2Proof.Machine.execParkedClockNudge core s
  | .parkProbe p => Sys2Proof.Machine.execParkProbe p s
  | .parkProbeReply id => Sys2Proof.Machine.execParkProbeReply id s
  | .peerPacket src pa clk op => Sys2Proof.Machine.execPeerPacket src pa clk op s
  | .peerReply id rep => Sys2Proof.Machine.execPeerReply id rep s
  | .partialArrival id => Sys2Proof.Machine.execPartialArrival id s
  | .homeAtomic id => Sys2Proof.Machine.execHomeAtomic id s
  | .atomicReply id => Sys2Proof.Machine.execAtomicReply id s
  | .promVictim id => Sys2Proof.Machine.execPromVictim id s
  | .homeMbarOp id => Sys2Proof.Machine.execHomeMbarOp id s
  | .homeQueueOp id => Sys2Proof.Machine.execHomeQueueOp id s
  | .homeDepDec id => Sys2Proof.Machine.execHomeDepDec id s
  | .depRecordArrival id => Sys2Proof.Machine.execDepRecordArrival id s
  | .eventPost p => Sys2Proof.Machine.execEventPost p s
  | .spanCompare p => Sys2Proof.Machine.execSpanCompare p s
  | .groupPlace g => Sys2Proof.Machine.execGroupPlace g s
  | .drainTimeout g => Sys2Proof.Machine.execDrainTimeout g s
  | .groupSaveWrite g => Sys2Proof.Machine.execGroupSaveWrite g s
  | .groupRetire g => Sys2Proof.Machine.execGroupRetire g s
  | .copyCommandExecute core ch => Sys2Proof.Machine.execCopyCommandExecute core ch s
  | .gatherCommandExecute core moved => Sys2Proof.Machine.execGatherCommandExecute core moved s
  | .engineCommandComplete id => Sys2Proof.Machine.execEngineCommandComplete id s
  | .matrixStep quay => Sys2Proof.Machine.execMatrixStep quay s
  | .matrixAgePromote quay e => Sys2Proof.Machine.execMatrixAgePromote quay e s
  | .weightPlaneLoad quay => Sys2Proof.Machine.execWeightPlaneLoad quay s
  | .taskTake cid => Sys2Proof.Machine.execTaskTake cid s
  | .graphTrigger slot npatch => Sys2Proof.Machine.execGraphTrigger slot npatch s
  | .graphRefusedRead slot => Sys2Proof.Machine.execGraphRefusedRead slot s
  | .graphRecordPlace slot run => Sys2Proof.Machine.execGraphRecordPlace slot run s
  | .reload cid => Sys2Proof.Machine.execReload cid s
  | .freeze cid => Sys2Proof.Machine.execFreeze cid s
  | .thaw cid => Sys2Proof.Machine.execThaw cid s
  | .kill cid => Sys2Proof.Machine.execKill cid s
  | .retire cid => Sys2Proof.Machine.execRetire cid s
  | .dump cid => Sys2Proof.Machine.execDump cid s
  | .sliceExpiry cid => Sys2Proof.Machine.execSliceExpiry cid s
  | .gangStartWrite t => Sys2Proof.Machine.execGangStartWrite t s
  | .gangSliceStart gang => Sys2Proof.Machine.execGangSliceStart gang s
  | .gangStartPacket gang src => Sys2Proof.Machine.execGangStartPacket gang src s
  | .gangAbandon gang => Sys2Proof.Machine.execGangAbandon gang s
  | .lighthouseFire cid => Sys2Proof.Machine.execLighthouseFire cid s
  | .heartbeatWrite v => Sys2Proof.Machine.execHeartbeatWrite v s
  | .walkComplete die w => Sys2Proof.Machine.execWalkComplete die w s
  | .walkDispatch die => Sys2Proof.Machine.execWalkDispatch die s
  | .linkEnable n => Sys2Proof.Machine.execLinkEnable n s
  | .linkDisable n => Sys2Proof.Machine.execLinkDisable n s
  | .linkTrained n width peer => Sys2Proof.Machine.execLinkTrained n width peer s
  | .linkTrainingTimeout n => Sys2Proof.Machine.execLinkTrainingTimeout n s
  | .linkLaneFail n usable => Sys2Proof.Machine.execLinkLaneFail n usable s
  | .flitReceive n seq crcOk dst pa => Sys2Proof.Machine.execFlitReceive n seq crcOk dst pa s
  | .flitAck n seq => Sys2Proof.Machine.execFlitAck n seq s
  | .flitResendTimeout n => Sys2Proof.Machine.execFlitResendTimeout n s
  | .stopFlit n => Sys2Proof.Machine.execStopFlit n s
  | .resumeFlit n => Sys2Proof.Machine.execResumeFlit n s
  | .linkStatusRead n => Sys2Proof.Machine.execLinkStatusRead n s
  | .peerReplyTimeout id => Sys2Proof.Machine.execPeerReplyTimeout id s
  | .timerFlit n t => Sys2Proof.Machine.execTimerFlit n t s
  | .hostMemoryAccess a => Sys2Proof.Machine.execHostMemoryAccess a s
  | .collStart id parts => Sys2Proof.Machine.execCollStart id parts s
  | .collComplete id => Sys2Proof.Machine.execCollComplete id s
  | .halt cid p => Sys2Proof.Machine.execHalt cid p s
  | .resume cid p => Sys2Proof.Machine.execResume cid p s
  | .step cid p => Sys2Proof.Machine.execStep cid p s
  | .haltAtRegionEdge cid p => Sys2Proof.Machine.execHaltAtRegionEdge cid p s
  | .haltEveryFibre cid => Sys2Proof.Machine.execHaltEveryFibre cid s
  | .resumeEveryFibre cid => Sys2Proof.Machine.execResumeEveryFibre cid s
  | .sampleTick cid => Sys2Proof.Machine.execSampleTick cid s
  | .replayDivergence id => Sys2Proof.Machine.execReplayDivergence id s
  | .faultInjectArm v => Sys2Proof.Machine.execFaultInjectArm v s
  | .firmwareImageReceive image fwver => Sys2Proof.Machine.execFirmwareImageReceive image fwver s
  | .warmRebootRequest who => Sys2Proof.Machine.execWarmRebootRequest who s
  | .quoteRequest nonce => Sys2Proof.Machine.execQuoteRequest nonce s
  | .lifecycleTransition target sig => Sys2Proof.Machine.execLifecycleTransition target sig s
  | .frequencyStep die fmul => Sys2Proof.Machine.execFrequencyStep die fmul s
  | .pllRelockDone die => Sys2Proof.Machine.execPllRelockDone die s
  | .registerWrite who pa size v => Sys2Proof.Machine.execRegisterWrite who pa size v s
  | .portReply id data => Sys2Proof.Machine.execPortReply id data s
  | .alloc => Sys2Proof.Machine.execAlloc s
  | .load => Sys2Proof.Machine.execLoad s
  | .contextResultRead => Sys2Proof.Machine.execContextResultRead s
  | .dumpStart => Sys2Proof.Machine.execDumpStart s
  | .dumpWritten => Sys2Proof.Machine.execDumpWritten s
  | .heartbeatMiss => Sys2Proof.Machine.execHeartbeatMiss s
  | .controlCoreException => Sys2Proof.Machine.execControlCoreException s
  | .faultInjectDoneClear => Sys2Proof.Machine.execFaultInjectDoneClear s
  | .coldReset => Sys2Proof.Machine.execColdReset s

end Sys2Proof.Machine
end

