-- ==== Sys2Proof/Machine/Step.lean ====
section
/-! DEFINITION. One step of the machine: a turn of the schedule (log entries 1 and 2, DESIGN CHOICE). -/
namespace Sys2Proof.Machine

/-- Run what a berth issues. -/
def runIssuing (x : Issuing) : Host.Outcome State Fault Refusal :=
  match x with
  | .act i s =>
    match exec i s with
    | .next t => .next (countLanes s t i)
    | o => o
  | .done s => .next s

/-- A turn that reaches into a die whose clock stands still waits, with all it would do (R31): `w` is the machine without it. -/
def waitDies (o : Host.Outcome State Fault Refusal) (w : State) : Host.Outcome State Fault Refusal :=
  match o with
  | .next t => if t.crossed.any (dieStands t) then .next w else .next t
  | x => x

/-- Take an action: a berth issues, a row of the table that is an event happens, or the world outside acts. -/
def takeTurn (a : Action) (s : State) : Host.Outcome State Fault Refusal :=
  match a with
  | .issue core berth => waitDies (runIssuing (issueAt s core berth)) s
  | .event i =>
    if !isEvent i then .next s
    -- what crosses into a die whose clock stands still waits (R31)
    else if rowWaits s i then .next (due s i)
    else waitDies (exec i s) (due s i)
  | _ => waitDies (.next (outsideAct s a)) s

/-- The next turn that the schedule names; else the event that has been due longest; else the berth in focus issues. -/
def step (s : State) : Host.Outcome State Fault Refusal :=
  match s.sched with
  | t :: ts => takeTurn t.act (tick { s with sched := ts } t.dt)
  | [] =>
    match s.agenda with
    | i :: is => takeTurn (.event i) (tick { s with agenda := is } 1)
    | [] => takeTurn (.issue s.focus.1 s.focus.2) (tick s 1)

/-- The state with one instruction placed where the next step fetches (log entry 5, DESIGN CHOICE). -/
def State.withFetchWord (s : State) (nbits w : Nat) : State :=
  placeWords s (bytesOf 12 (w % 2 ^ nbits))

end Sys2Proof.Machine
end

