-- ==== Sys2Proof/Safety.lean ====
section
/-! DEFINITION. What a good state is, and what a safe run is, in the terms the claims use. -/
namespace Sys2Proof.Machine

/-- The canonical form of the data of a state: memory, scratchpads and register tables list no key twice, none out of order, and
no entry that equals what an unlisted key reads as. -/
def State.canonical (s : State) : Bool := s.mem.wf && tabWf 0 s.regs && tabWf zeroLanes s.vregs

/-- The next `n` steps all give a next state, and every state on the way has the property. -/
def RunsWith (P : State → Prop) : Nat → State → Prop
  | 0, s => P s
  | n + 1, s => P s ∧ ∃ t, step s = .next t ∧ RunsWith P n t

/-- A safe run: the machine goes on, in canonical form. -/
def SafeRun (n : Nat) (s : State) : Prop := RunsWith (fun s => s.canonical = true) n s

/-! ### When an instruction acts -/

/-- The fibre stands at a commit point with nothing to commit (R179 to R181): no instruction, no held entry, no fault and no `brk` in
the span, which has just begun; no result outstanding; at speed or in pilot gear as the span began; not in a redundant pair. -/
def atCommitPoint (s : State) (p : Place) (f : Fibre) : Bool :=
  f.dual.isNone && f.relq.isEmpty && !f.relWait && !f.scf && !hasPend s p && f.span == newSpan f &&
    f.pilot == { on := f.pilot.forced.isSome || f.hnd.isSome, forced := f.pilot.forced, cls := 0, met := false } &&
    f.splits.all (fun x => x.committed) && f.halves.all (fun h => h.splits.all fun x => x.committed)

/-- The tables of the state that an instruction reads and writes are in canonical form. -/
def tidy (s : State) (f : Fibre) : Bool := tabRises s.fibres && tabWf zeroLanes s.vregs && tabWf 0 f.scal

/-- No debugger attends the context (R368 FLAGS bit 117) and no fault injection is armed (R429). -/
def undisturbed (s : State) (f : Fibre) : Bool := !ctxFlag s (cidOf s f) 117 && (getReg s injAddr).toNat % 2 == 0

/-- Instruction `i` acts in fibre `f` at `here`, now: the fibre is eligible (R147) and no span fault is latched; the instruction is
either under way already, or has no decode or issue fault (R56), finds its operands full (R151), waits for no older result
(R188, R241), and, where it needs the span before it to commit (R179), the fibre stands at a commit point. -/
def acts (i : Instr) (s : State) (f : Fibre) : Bool :=
  getF s s.here == some f && tidy s f && eligible s s.here f && f.span.faulted.isNone && (twinFault f).isNone && undisturbed s f &&
    (match i.info with
     | none => false
     | some x =>
       f.op.isSome ||
         (!f.committing && !(f.pilot.on && hasPend s s.here) && !f.emptyAt && issueCls s s.here f i x == 0 && operandsReady s f s.here x && extraFull s f s.here i &&
           !mustDrain s s.here f i && (!needsCommit s s.here f i x || atCommitPoint s s.here f)))

/-! ### What an instruction changed -/

/-- `t` is `s` but for registers and which of them are full, the fibre at `p`, and the issue counts of its berth. -/
def OnlyFibre (s t : State) (p : Place) : Prop :=
  t = { s with vregs := t.vregs, emptied := t.emptied, fibres := t.fibres, berths := t.berths } ∧
    (∀ k, k ≠ pkey p → tfind t.fibres k = tfind s.fibres k) ∧
    ∀ k, k ≠ bkey p.core p.berth → tget Berth.init t.berths k = tget Berth.init s.berths k

/-- `g` is `f` after an instruction that went on at `pc`: counted in its span, its registers and undo log as they have become. -/
def WentOn (f g : Fibre) (pc : DWord) : Prop :=
  g = { f with
    dbg := { f.dbg with ended := false }
    pc, fetched := none, emptyAt := false, xlat := [], op := none, readySince := g.readySince
    halfCount := if f.halves.isEmpty then 0 else f.halfCount + 1, scal := g.scal, fp4x := g.fp4x
    span := { f.span with count := f.span.count + 1, undo := g.span.undo } }

/-- `g` is `f` after a commit-point instruction that went on at `pc`, where a new span starts (R180). -/
def WentOnX (f g : Fibre) (pc : DWord) : Prop :=
  g = { f with
    dbg := { f.dbg with ended := false }
    pc, fetched := none, emptyAt := false, xlat := [], op := none, readySince := g.readySince
    halfCount := if f.halves.isEmpty then 0 else f.halfCount + 1, scal := g.scal, fp4x := g.fp4x
    spanNo := g.spanNo, span := g.span } ∧ g.span = newSpan g

/-- No register changed, nor which are full. -/
def SameRegs (s t : State) (f g : Fibre) : Prop := t.vregs = s.vregs ∧ g.scal = f.scal ∧ g.fp4x = f.fp4x ∧ t.emptied = s.emptied

/-- The registers of operand `d`, `n` 32-bit ones, took the lane values `vs` and are full, and no other register of the machine
changed (R37, R38, R92, R151): a vector register in the lanes listed, a scalar whole; nothing where no lane is listed; `s0` never. -/
def Wrote (s t : State) (p : Place) (f g : Fibre) (d : Opnd) (n : Nat) (vs : List (Nat × Nat)) : Prop :=
  t.emptied = (if vs = [] then s.emptied else s.emptied.filter fun r => !(refsOf s f p d n).contains r) ∧
  match d with
  | .v k =>
    g.scal = f.scal ∧ g.fp4x = f.fp4x ∧
      (∀ j, j < n → vget t (vkey (descOf s f) p.core p.berth f.root (k.toNat + j)) =
        (if vs = [] then id else fun l => setLanes l vs (32 * j)) (vget s (vkey (descOf s f) p.core p.berth f.root (k.toNat + j)))) ∧
      ∀ q, (∀ j, j < n → q ≠ vkey (descOf s f) p.core p.berth f.root (k.toNat + j)) → vget t q = vget s q
  | .s k =>
    t.vregs = s.vregs ∧ g.fp4x = f.fp4x ∧
      (∀ j, j < max 1 (n / 2) → sget g (k.toNat + j) =
        (match vs with
         | [] => sget f (k.toNat + j)
         | e :: _ => if k.toNat + j = 0 then 0 else BitVec.ofNat 64 (e.2 / 2 ^ (64 * j)))) ∧
      ∀ q, (∀ j, j < max 1 (n / 2) → q ≠ k.toNat + j) → sget g q = sget f q
  | .sp r => t.vregs = s.vregs ∧ g.scal = f.scal ∧ g.fp4x =
      (match r, vs with
       | .fp4x, e :: _ => BitVec.ofNat 16 e.2
       | _, _ => f.fp4x)

end Sys2Proof.Machine
end

