-- ==== Sys2Proof/Certificates/Slice0/Obligations.lean ====
section
/-! DEFINITION. What the provers are to prove: the obligations, and the words they are stated in. -/
open Sys2Proof Sys2Proof.Machine

/-! ### Words of the statements -/

/-- Instruction `i`, where it acts, writes `n` registers of destination `d` with the value `v l` in each lane `l` that passes the guard
(lane 0 stands for a scalar operation), goes on at the next word, and changes nothing else of the machine: no memory, no other
register, no other fibre. -/
def Claim.Computes (i : Instr) (s : State) (f : Fibre) (h : Hdr) (d : Opnd) (n : Nat) (v : Nat → Nat) : Prop :=
  acts i s f = true →
    ∃ t g, Machine.exec i s = .next t ∧ getF t s.here = some g ∧ OnlyFibre s t s.here ∧ WentOn f g (f.pc + 12) ∧
      Wrote s t s.here f g d n (laneVals s f h d v)

/-- `Claim.Computes` for one and two sources of type `x.t`. -/
def Claim.Unary (mk : Op1 → Instr) (s : State) (f : Fibre) (x : Op1) (v : Nat → Nat) : Prop :=
  Claim.Computes (mk x) s f x.h x.d x.t.regs fun l => wide1 x.d x.t x.t.regs (v (opVal s f s.here x.a x.t.regs l))
def Claim.Binary (mk : Op2 → Instr) (s : State) (f : Fibre) (x : Op2) (v : Nat → Nat → Nat) : Prop :=
  Claim.Computes (mk x) s f x.h x.d x.t.regs fun l =>
    wide1 x.d x.t x.t.regs (v (opVal s f s.here x.a x.t.regs l) (srcVal s f s.here x.t x.t.regs x.b l))
def Claim.Ternary (mk : Op3 → Instr) (s : State) (f : Fibre) (x : Op3) (t : Ty) (v : Nat → Nat → Nat → Nat) : Prop :=
  Claim.Computes (mk x) s f x.h x.d x.t.regs fun l =>
    wide1 x.d t x.t.regs
      (v (opVal s f s.here x.a x.t.regs l) (opVal s f s.here x.b x.t.regs l) (opVal s f s.here x.c x.t.regs l))

/-- Where it acts, `i` changes no register, goes on at the next word, and changes nothing else of the machine. -/
def Claim.Falls (i : Instr) (s : State) (f : Fibre) : Prop :=
  acts i s f = true →
    ∃ t g, Machine.exec i s = .next t ∧ getF t s.here = some g ∧ OnlyFibre s t s.here ∧ WentOn f g (f.pc + 12) ∧ SameRegs s t f g

/-- The same for a commit-point instruction: a new span starts at the next word. -/
def Claim.FallsX (i : Instr) (s : State) (f : Fibre) : Prop :=
  acts i s f = true → f.op = none →
    ∃ t g, Machine.exec i s = .next t ∧ getF t s.here = some g ∧ OnlyFibre s t s.here ∧ WentOnX f g (f.pc + 12) ∧ SameRegs s t f g

/-- The same of an instruction that is progress of its context (R379), whose watchdog starts again. -/
def Claim.FallsPulse (i : Instr) (s : State) (f : Fibre) : Prop :=
  acts i s f = true → f.op = none →
    ∃ t g, Machine.exec i s = .next t ∧ getF t s.here = some g ∧ OnlyFibre (pulse s (cidOf s f)) t s.here ∧ WentOnX f g (f.pc + 12) ∧
      SameRegs s t f g

/-- Where it acts, `i` completes with the values `v` in its destination and then faults in the lanes `z`, with a class after which the
instruction has completed (R188): at speed its span is faulted, and the pc stays; in pilot gear it is a precise fault of those lanes,
with RETRY 0. -/
def Claim.Traps (i : Instr) (s : State) (f : Fibre) (h : Hdr) (d : Opnd) (n : Nat) (v : Nat → Nat) (cls : Nat) (z : List Nat) : Prop :=
  acts i s f = true →
    ∃ u g, OnlyFibre s u s.here ∧ getF u s.here = some g ∧ Wrote s u s.here f g d n (laneVals s f h d v) ∧
      g = { f with scal := g.scal, fp4x := g.fp4x, span := { f.span with count := f.span.count + 1, undo := g.span.undo } } ∧
      (f.pilot.on = false →
        ∃ t k, Machine.exec i s = .next t ∧ getF t s.here = some k ∧ k.span.faulted = some cls ∧ k.pc = f.pc ∧ k.scal = g.scal ∧
          t.vregs = u.vregs ∧ t.mem = s.mem) ∧
      (f.pilot.on = true →
        Machine.exec i s = .next (raise u s.here { faultInfo f (some (d, n)) with cls, mask := maskOf z, retry := false }))

/-- Fibre `u` whose running half waits in way `w`: its next half that can run goes on (R163), or all of it waits. -/
def Claim.waiting (u : Fibre) (w : Wait) : Fibre :=
  let g := { u with wait := w, fetched := none, emptyAt := false, xlat := [] }
  if u.halves.any (fun x => x.wait == .none) then rotate g else g
/-- The same behind a commit point: a rollback of the span that begins there returns the half to its wait. -/
def Claim.waitingX (u : Fibre) (w : Wait) : Fibre :=
  Claim.waiting { u with span := { u.span with entry := curHalf { u with wait := w } :: u.halves } } w

/-! ### Row 0x2_: integer arithmetic -/

/-- `add`, `sub`, `mul`, `min`, `max` (R97), `mulh` (R98), `mad` (R99), `neg`, `abs` (R101), `sad` (R102), `addc`, `subb` (R103),
`lea` (R104), `dot4` (R105): exact integer arithmetic by element, wrapped or saturated.
Choices of the model that clauses of it rest on: log entry 20, DEDUCED; log entry 21, DEDUCED. -/
def Obligations.IntegerArithmetic : Prop :=
  ∀ (s : State) (f : Fibre) (x : Op1) (y : Op2) (z : Op3) (b : Bool) (sh : BitVec 2),
    Claim.Binary (.add · b) s f y (arith2 y.t b fun p q => p + q) ∧
    Claim.Binary (.sub · b) s f y (arith2 y.t b fun p q => p - q) ∧
    Claim.Binary (.mul · b) s f y (arith2 y.t b fun p q => p * q) ∧
    Claim.Binary .mulh s f y (mulhF y.t) ∧
    Claim.Ternary (.mad · b) s f z z.t (arith3 z.t b fun p q r => p * q + r) ∧
    Claim.Unary (.neg · b) s f x (arith1 x.t b fun p => -p) ∧
    Claim.Unary (.abs · b) s f x (arith1 x.t b fun p => (p.natAbs : Int)) ∧
    Claim.Binary .min s f y (arith2 y.t false fun p q => if p ≤ q then p else q) ∧
    Claim.Binary .max s f y (arith2 y.t false fun p q => if p ≤ q then q else p) ∧
    Claim.Ternary (.sad · b) s f z .n32 (sadF z.t b) ∧
    Claim.Ternary (.addc · b) s f z z.t (addcF z.t b) ∧
    Claim.Ternary (.subb · b) s f z z.t (subbF z.t b) ∧
    Claim.Computes (.lea y sh) s f y.h y.d 2 (fun l => leaF sh.toNat (opVal s f s.here y.a 2 l) (srcVal s f s.here y.t 1 y.b l)) ∧
    Claim.Ternary (.dot4 · b) s f z z.t (dot4F z.t b)

/-- `div` and `rem` (R100) of a kernel that does not trap on a zero divisor, or where no divisor is 0; and of one that traps, with a
divisor of 0: the result is written all the same, and DIV0, class 0x09, follows in the lanes whose divisor is 0. -/
def Obligations.Division : Prop :=
  ∀ (s : State) (f : Fibre) (y : Op2),
    let traps (i : Instr) (g : Nat → Nat → Nat) : Prop := Claim.Traps i s f y.h y.d y.t.regs
      (fun l => wide1 y.d y.t y.t.regs (g (opVal s f s.here y.a y.t.regs l) (srcVal s f s.here y.t y.t.regs y.b l))) 9 (zeroDivs s f y)
    (descDiv0 (descOf s f) = false ∨ zeroDivs s f y = [] → Claim.Binary .div s f y (divF y.t) ∧ Claim.Binary .rem s f y (remF y.t)) ∧
    (descDiv0 (descOf s f) = true → zeroDivs s f y ≠ [] → traps (.div y) (divF y.t) ∧ traps (.rem y) (remF y.t))

/-- Logic, shifts, fields, counts and permutes (R106 to R111). -/
def Obligations.Bits : Prop :=
  ∀ (s : State) (f : Fibre) (x : Op1) (y : Op2) (z : Op3),
    Claim.Binary .and s f y (fun p q => p &&& q) ∧ Claim.Binary .or s f y (fun p q => p ||| q) ∧
    Claim.Binary .xor s f y (fun p q => p ^^^ q) ∧ Claim.Binary .andn s f y (andnF y.t) ∧
    Claim.Unary .not s f x (notW (tyW x.t)) ∧ Claim.Binary .shl s f y (shlF y.t) ∧ Claim.Binary .shr s f y (shrF y.t) ∧
    Claim.Binary .sra s f y (sraF y.t) ∧ Claim.Binary .rol s f y (rolF y.t) ∧ Claim.Binary .bfx s f y (bfxF y.t) ∧
    Claim.Ternary .bfi s f z z.t (bfiF z.t) ∧ Claim.Unary .popc s f x (popCount (tyW x.t)) ∧ Claim.Unary .clz s f x (clzF x.t) ∧
    Claim.Unary .ctz s f x (ctzF x.t) ∧ Claim.Unary .brev s f x (brevF x.t) ∧ Claim.Ternary .prmt s f z z.t prmtF

/-- `cmp` (R112), `mov` (R114), `pack`, `unpack` (R115).
Choices of the model that clauses of it rest on: log entry 43, DESIGN CHOICE. -/
def Obligations.CompareMovePack : Prop :=
  ∀ (s : State) (f : Fibre) (x : Op1) (y : Op2) (c : Cond) (h : Hdr) (t : Ty) (d a b : Opnd) (a' : Src) (q : Bool),
    Claim.Computes (.cmp y c) s f y.h y.d 1
      (fun l => wide1 y.d .b32 1 (cmpF y.t c (opVal s f s.here y.a y.t.regs l) (srcVal s f s.here y.t y.t.regs y.b l))) ∧
    Claim.Computes (.mov h t d a') s f h d t.regs (fun l => wide1 d t t.regs (srcVal s f s.here t t.regs a' l)) ∧
    Claim.Computes (.pack h t d a b q) s f h d 1 (fun l => wide1 d t 1 (packF t q (opVal s f s.here a 1 l) (opVal s f s.here b 1 l))) ∧
    Claim.Computes (.unpack x q) s f x.h x.d 1 (fun l => wide1 x.d x.t 1 (unpackF x.t q (opVal s f s.here x.a 1 l)))

/-- Lanes that pass the guard and hold a value other than 0 in a source of 32 bits. -/
def Claim.flags (s : State) (f : Fibre) (x : Op1) : List Nat :=
  (passLanes s f s.here x.h.guard).filter fun l => opVal s f s.here x.a 1 l % 2 ^ 32 != 0

/-- `bcast` (R118), `vote` (R121), `actn` (R122), `shfl` (R123): an inactive source lane gives the lane's own value.
Choices of the model that clauses of it rest on: log entry 48, DEDUCED. -/
def Obligations.AcrossLanes : Prop :=
  ∀ (s : State) (f : Fibre) (x : Op1) (y : Op2) (m : VoteMode) (w : ShMode),
    Claim.Computes (.bcast y) s f y.h y.d y.t.regs
      (fun l =>
        let j := srcVal s f s.here y.t 1 y.b 0 % 32
        wide1 y.d y.t y.t.regs (opVal s f s.here y.a y.t.regs (if f.amask.getLsbD j then j else l))) ∧
    Claim.Computes (.vote x m) s f x.h x.d 1
      (fun _ => wide1 x.d .b32 1
        (if voteF m ((passLanes s f s.here x.h.guard).map fun l => opVal s f s.here x.a 1 l % 2 ^ 32) then 1 else 0)) ∧
    Claim.Computes (.actn x) s f x.h x.d 1 (fun l => wide1 x.d .n32 1 ((Claim.flags s f x).filter (· < l)).length) ∧
    Claim.Computes (.shfl y w) s f y.h y.d y.t.regs
      (fun l => wide1 y.d y.t y.t.regs (opVal s f s.here y.a y.t.regs
        (match shflLane w l (srcVal s f s.here y.t 1 y.b l) with
         | some j => if f.amask.getLsbD j then j else l
         | none => l)))

/-- `fmin`, `fmax` (R130), `fcmp` (R131), `frnd` (R132), `fclass` (R133), `fscl` (R135), `fexpo` (R136), `cvt` (R142), `cvtpk` (R143),
`cvtunpk` (R144), `mxsc` (R145).
Choices of the model that clauses of it rest on: log entry 20, DEDUCED. -/
def Obligations.FloatExact : Prop :=
  ∀ (s : State) (f : Fibre) (x : Op1) (y : Op2) (q sat : Bool) (c : Cond) (r : Rnd) (h : Hdr) (d a : Opnd) (b : Option Opnd) (e : Opnd)
    (df sf : Fmt) (p : BitVec 3) (dm : DMode),
    Claim.Binary (.fmin · q) s f y (fminF y.t false q) ∧ Claim.Binary (.fmax · q) s f y (fminF y.t true q) ∧
    Claim.Binary (.fcmp · c) s f y (fcmpF y.t c) ∧ Claim.Unary (.frnd · r) s f x (frndF x.t r) ∧ Claim.Unary .fclass s f x (fclassF x.t) ∧
    Claim.Binary (.fscl · r) s f y (fsclF y.t r) ∧
    Claim.Computes (.fexpo x) s f x.h x.d 1 (fun l => wide1 x.d .f32 1 (fexpoF (opVal s f s.here x.a 1 l))) ∧
    Claim.Computes (.cvt h d a df sf sat r) s f h d df.regs
      (fun l => wide1 d .b64 df.regs
        (fmtWide df d (convert f.fp4x.toNat df sf sat r (opVal s f s.here a sf.regs l % 2 ^ fmtWidth sf)))) ∧
    Claim.Computes (.cvtpk h d a b e df p sat r) s f h d 1
      (fun l => wide1 d .b32 1 (cvtpkF f.fp4x.toNat df p.toNat sat r (opVal s f s.here a 1 l)
        (match b with
         | some o => opVal s f s.here o 1 l
         | none => 0) (opVal s f s.here e 1 l))) ∧
    Claim.Computes (.cvtunpk h d a dm sf p r) s f h d 1
      (fun l => wide1 d .b32 1 (cvtunpkF f.fp4x.toNat dm sf p.toNat r (opVal s f s.here a 1 l))) ∧
    Claim.Computes (.mxsc x df) s f x.h x.d 1
      (fun _ => wide1 x.d .b32 1 (mxscF df ((passLanes s f s.here x.h.guard).map fun l => opVal s f s.here x.a 1 l)))

/-- Lanes in which a floating-point result is invalid: all that pass, for a scalar operation (R128). -/
def Claim.invalid (s : State) (f : Fibre) (h : Hdr) (d : Opnd) (v : Nat → Nat × Bool) : Prop := marked s f h d v ≠ []

/-- `fadd`, `fsub`, `fmul`, `fma` (R129), `fdot2` (R134) of a kernel that does not trap on invalid results, or where none is invalid;
and of one that traps, with an invalid result: it is written all the same, and FP_INVALID, class 0x0A, follows in the lanes that have
one (R128). -/
def Obligations.FloatArithmetic : Prop :=
  ∀ (s : State) (f : Fibre) (y : Op2) (z : Op3) (r : Rnd),
    let A (l : Nat) := opVal s f s.here y.a 1 l
    let B (l : Nat) := srcVal s f s.here y.t 1 y.b l
    let P (l : Nat) := opVal s f s.here z.a 1 l
    let Q (l : Nat) := opVal s f s.here z.b 1 l
    let C (l : Nat) := opVal s f s.here z.c 1 l
    let claim (i : Instr) (h : Hdr) (d : Opnd) (v : Nat → Nat × Bool) : Prop :=
      ((descFpInv (descOf s f) = true → ¬ Claim.invalid s f h d v) → Claim.Computes i s f h d 1 fun l => wide1 d .f32 1 (v l).1) ∧
      (descFpInv (descOf s f) = true → Claim.invalid s f h d v → Claim.Traps i s f h d 1 (fun l => (v l).1) 0x0A (marked s f h d v))
    claim (.fadd y r) y.h y.d (fun l => faddF y.t false r (nanLane y.d l) f.pc (A l) (B l)) ∧
    claim (.fsub y r) y.h y.d (fun l => faddF y.t true r (nanLane y.d l) f.pc (A l) (B l)) ∧
    claim (.fmul y r) y.h y.d (fun l => fmulF y.t r (nanLane y.d l) f.pc (A l) (B l)) ∧
    claim (.fma z r) z.h z.d (fun l => fmaF z.t r (nanLane z.d l) f.pc (P l) (Q l) (C l)) ∧
    claim (.fdot2 z r) z.h z.d (fun l => fdot2F z.t r (nanLane z.d l) f.pc (P l) (Q l) (C l))

/-- Reads of status: `fltrd` (R209), `ldsp` (R214), `mstat` (R335); and `fltset` (R210), which writes the substituted values where the
destination of the handled fault matches, and nothing else: outside a handler, too. -/
def Obligations.StatusReads : Prop :=
  ∀ (s : State) (f : Fibre) (h : Hdr) (d : Opnd) (k : BitVec 4) (m : BitVec 2) (t : Ty) (a : Src),
    Claim.Computes (.fltrd h d k) s f h d 2 (fun l => if d.isV then fltLane f l else fltScalar f k) ∧
    (acts (.ldsp h d) s f = true → ∃ u g, Machine.exec (.ldsp h d) s = .next u ∧ getF u s.here = some g ∧ OnlyFibre s u s.here ∧
      WentOn f g (f.pc + 12) ∧ Wrote s u s.here f g d 2 [(0, spanStatus f)]) ∧
    (acts (.mstat h d m) s f = true → ∃ u g, Machine.exec (.mstat h d m) s = .next u ∧ getF u s.here = some g ∧ OnlyFibre s u s.here ∧
      WentOn f g (f.pc + 12) ∧ Wrote s u s.here f g d 2 [(0, (match m.toNat with
        | 0 => (curStat f).word
        | 1 => (curStat f).addr
        | 2 => (curStat f).fail
        | _ => (curStat f).steps).toNat)]) ∧
    (fltVals s s.here f h t a = none → Claim.Falls (.fltset h t a) s f) ∧ (f.hnd = none → fltVals s s.here f h t a = none) ∧
    ∀ o n vs, acts (.fltset h t a) s f = true → fltVals s s.here f h t a = some (o, n, vs) → n ≤ 256 →
      ∃ u g, Machine.exec (.fltset h t a) s = .next u ∧ getF u s.here = some g ∧ OnlyFibre s u s.here ∧ WentOn f g (f.pc + 12) ∧
        Wrote s u s.here f g o n vs

/-! ### Row 0x0_: control flow -/

/-- Where it acts and the target is a multiple of 4 below 2^60 (R60), `i` writes `link` to `s63`, goes on at the target, and changes
nothing else; a backward branch rotates a fibre divided in place (R163). -/
def Claim.Branches (i : Instr) (s : State) (f : Fibre) (tgt : DWord) (link : List (Nat × Nat)) : Prop :=
  acts i s f = true → targetCls tgt = 0 →
    ∃ t g0 g, Machine.exec i s = .next t ∧ getF t s.here = some g ∧ OnlyFibre s t s.here ∧ WentOn f g0 tgt ∧
      Wrote s t s.here f g0 (.s 63) 2 link ∧ g = if tgt.toNat ≤ f.pc.toNat then rotate g0 else g0

/-- Where it acts, `i` goes on at the next word as a fibre that waits in way `w` (R147, R163), and changes no register. -/
def Claim.Waits (i : Instr) (s : State) (f : Fibre) (w : Wait) : Prop :=
  acts i s f = true →
    ∃ t u, Machine.exec i s = .next t ∧ OnlyFibre s t s.here ∧ SameRegs s t f u ∧ WentOn f u (f.pc + 12) ∧
      getF t s.here = some (Claim.waiting u w)

/-- The same for a commit-point instruction, behind which a new span starts. -/
def Claim.WaitsX (i : Instr) (s : State) (f : Fibre) (w : Wait) : Prop :=
  acts i s f = true → f.op = none →
    ∃ t u, Machine.exec i s = .next t ∧ OnlyFibre s t s.here ∧ SameRegs s t f u ∧ WentOnX f u (f.pc + 12) ∧
      getF t s.here = some (Claim.waitingX u w)

/-- `br`, `jmp`, `call`, `calli`, `ret` (R166), `brc` whose lanes all agree (R167), `nop` (R166): a branch that no lane passes falls
through; a call leaves the address of the next word in `s63`. -/
def Claim.BranchesRule : Prop :=
  ∀ (s : State) (f : Fibre) (h : Hdr) (c : Cond) (a : Opnd) (off : Word) (o27 : BitVec 27) (tok : BitVec 5) (src : Src),
    let on := passLanes s f s.here h.guard ≠ []
    let rel := f.pc + off.signExtend 64
    let reg := BitVec.ofNat 64 (opVal s f s.here a 2 0)
    let link := [(0, (f.pc + 12).toNat)]
    let taken := maskOf ((passLanes s f s.here h.guard).filter fun l => zTest c (opVal s f s.here a 1 l % 2 ^ 32))
    Claim.Falls (.nop h) s f ∧
    (on ∧ zTest c (opVal s f s.here a 2 0) = true → Claim.Branches (.br h c a off) s f rel []) ∧
    (¬ (on ∧ zTest c (opVal s f s.here a 2 0) = true) → Claim.Falls (.br h c a off) s f) ∧
    (on → Claim.Branches (.jmp h src) s f (srcTarget s f src) []) ∧ (¬ on → Claim.Falls (.jmp h src) s f) ∧
    (on → Claim.Branches (.call h off) s f rel link) ∧ (¬ on → Claim.Falls (.call h off) s f) ∧
    (on → Claim.Branches (.calli h a) s f reg link) ∧ (¬ on → Claim.Falls (.calli h a) s f) ∧
    (on → Claim.Branches (.ret h a) s f reg []) ∧ (¬ on → Claim.Falls (.ret h a) s f) ∧
    (taken = 0 → Claim.Falls (.brc h c a o27 tok) s f) ∧
    (taken ≠ 0 → f.amask &&& ~~~taken = 0 →
      Claim.Branches (.brc h c a o27 tok) s f (f.pc + (o27 ++ (0 : BitVec 2)).signExtend 64) [])

/-- A branch that is taken to a target that breaks R60 latches a span fault at speed: class 0x06 when it is no multiple of 4, 0x04 from
2^60 on; the pc stays, and a call writes no `s63`.
Choices of the model that clauses of it rest on: log entry 19, DEDUCED. -/
def Claim.BadTargetFaultsRule : Prop :=
  ∀ (s : State) (f : Fibre) (h : Hdr) (c : Cond) (a : Opnd) (off : Word) (o27 : BitVec 27) (tok : BitVec 5) (src : Src),
    let on := passLanes s f s.here h.guard ≠ []
    let rel := f.pc + off.signExtend 64
    let reg := BitVec.ofNat 64 (opVal s f s.here a 2 0)
    let bad (i : Instr) (tgt : DWord) : Prop := acts i s f = true → targetCls tgt ≠ 0 → f.pilot.on = false →
      ∃ t g, Machine.exec i s = .next t ∧ getF t s.here = some g ∧ g.pc = f.pc ∧ t.mem = s.mem ∧ t.vregs = s.vregs ∧ g.scal = f.scal ∧
        g.span.faulted = some (if tgt.toNat % 4 ≠ 0 then 6 else 4)
    (on → bad (.jmp h src) (srcTarget s f src) ∧ bad (.call h off) rel ∧ bad (.calli h a) reg ∧ bad (.ret h a) reg) ∧
    (on → zTest c (opVal s f s.here a 2 0) = true → bad (.br h c a off) rel) ∧
    ((∃ l ∈ passLanes s f s.here h.guard, l < 32 ∧ zTest c (opVal s f s.here a 1 l % 2 ^ 32) = true) →
      bad (.brc h c a o27 tok) (f.pc + (o27 ++ (0 : BitVec 2)).signExtend 64))

/-- `brc` whose lanes disagree (R158, R159, R163, R167), with no scalar result of the piece in flight: the taken lanes go to the target,
the others to the next word, and both parts name the split. The smaller part, the taken one where they are equal, becomes a fibre of
its own in the context that a fragment takes, with the piece's scalars; with no context free, or in pilot gear, it is deferred in place
behind the halves there are, and the count of the half that runs begins at 0. The larger part goes on; where it has taken a backward
branch a divided fibre rotates.
Choices of the model that clauses of it rest on: log entry 46, DESIGN CHOICE. -/
def Claim.DivergesRule : Prop :=
  ∀ (s : State) (f : Fibre) (h : Hdr) (c : Cond) (a : Opnd) (o27 : BitVec 27) (tok : BitVec 5),
    let p := s.here
    let tk := maskOf ((passLanes s f p h.guard).filter fun l => zTest c (opVal s f p a 1 l % 2 ^ 32))
    let nt := f.amask &&& ~~~tk
    let tgt := f.pc + (o27 ++ (0 : BitVec 2)).signExtend 64
    let takenMinor : Bool := (lanesIn tk).length ≤ (lanesIn nt).length
    let minor := if takenMinor then tk else nt
    let major := if takenMinor then nt else tk
    let mpc := if takenMinor then tgt else f.pc + 12
    let jpc := if takenMinor then f.pc + 12 else tgt
    let sp : Split := { id := s.nextId, tok, lanes := f.amask, parent := p.fib, committed := false }
    let rotated (g : Fibre) : Fibre := if jpc.toNat ≤ f.pc.toNat then rotate g else g
    acts (.brc h c a o27 tok) s f = true → tk ≠ 0 → nt ≠ 0 → targetCls tgt = 0 → f.splits.length < 64 →
    s.pends.any (fun q => ofPiece p f q && q.scalar) = false →
      (∀ k, f.pilot.on = false → fragCtx s p f = some k →
        ∃ t g b, Machine.exec (.brc h c a o27 tok) s = .next t ∧ t.mem = s.mem ∧ t.vregs = s.vregs ∧
          getF t p = some (rotated g) ∧ g.amask = major ∧ g.pc = jpc ∧ g.splits = sp :: f.splits ∧ g.halves = f.halves ∧ g.scal = f.scal ∧
          getF t { p with fib := k } = some b ∧ b.amask = minor ∧ b.pc = mpc ∧ b.splits = sp :: f.splits ∧ b.halves = [] ∧
          b.wait = .none ∧ b.scal = f.scal ∧ b.root = f.root ∧ b.regions = f.regions ∧ b.grp = f.grp) ∧
      (f.pilot.on = true ∨ fragCtx s p f = none →
        ∃ t g, Machine.exec (.brc h c a o27 tok) s = .next t ∧ OnlyFibre { s with nextId := s.nextId + 1 } t p ∧ t.vregs = s.vregs ∧
          getF t p = some { rotated g with halfCount := 0 } ∧ g.amask = major ∧ g.pc = jpc ∧ g.splits = sp :: f.splits ∧
          g.halves = f.halves ++ [{ mask := minor, pc := mpc, splits := sp :: f.splits, wait := .none }] ∧ g.scal = f.scal)

/-- These claims together: `Claim.BranchesRule`, `Claim.BadTargetFaultsRule` and `Claim.DivergesRule`. -/
def Obligations.Jumps : Prop := Claim.BranchesRule ∧ Claim.BadTargetFaultsRule ∧ Claim.DivergesRule

/-- `yield` (R170): the fibre goes on at the next word, changed in nothing else; the issue slots pass to the next ready context of the
berth in ring order, and stay with it where no other is ready. -/
def Claim.YieldRule : Prop :=
  ∀ (s : State) (f : Fibre) (h : Hdr),
    Claim.Falls (.yield h) s f ∧
    (acts (.yield h) s f = true →
      let n := Machine.next s s.here
      let b := getB n s.here.core s.here.berth
      ∃ t, Machine.exec (.yield h) s = .next t ∧ if b.cur ≠ s.here.fib then t = n else
        match ((List.range 7).map fun i => (b.cur + 1 + i) % 8).find? fun c => readyFib n { s.here with fib := c } with
        | some c => t = setB n s.here.core s.here.berth { b with cur := c, run := 0 }
        | none => t = n)

/-- `join` (R161, R162, R168) that no commit has to go before. With no open split of its token it goes on at the next word. A piece that
is not the last to arrive waits there. The last one merges with those that wait, and where no other piece of the fibre is left it goes
on alone at the next word, the split closed.
Choices of the model that clauses of it rest on: log entry 22, DEDUCED; log entry 44, DESIGN CHOICE. -/
def Claim.JoinRule : Prop :=
  ∀ (s : State) (f : Fibre) (h : Hdr) (tok : BitVec 5) (sp : Split),
    let p := s.here
    let s1 := setWait s p (.join sp.id f.pc)
    let a := arrivals s1 p f.root sp.id f.pc
    let full := joinFull s1 p f.root sp.id f.pc 0
    ((∀ x ∈ f.splits, x.tok ≠ tok) → Claim.Falls (.join h tok) s f) ∧
    (f.splits.find? (fun x => x.tok == tok) = some sp →
      joinMates s p f.root sp.id = [] ∨ joinApart s ((p :: joinMates s p f.root sp.id).map fun q => (q, 0)) sp.id = false →
      (full = false → Claim.Waits (.join h tok) s f (.join sp.id f.pc)) ∧
      (full = true → joinCommits s1 a sp.id = false → acts (.join h tok) s f = true →
        Machine.exec (.join h tok) s = .next (settle (mergeJoin (retireAt s1 p f.pc (f.pc + 12) false) p f.root sp.id f.pc) p)) ∧
      (family s p.core p.berth f.root = [p.fib] → f.halves = [] → f.amask ≠ 0 → sp.lanes &&& f.amask = f.amask → splitIn f sp.id = some sp →
        acts (.join h tok) s f = true →
        ∃ t g, Machine.exec (.join h tok) s = .next t ∧ getF t p = some g ∧ OnlyFibre s t p ∧ SameRegs s t f g ∧
          WentOn { f with
            splits := f.splits.filter fun x => x.id != sp.id
            elders := f.elders.filter fun e => e.fib == p.fib
            span := { f.span with entry := f.span.entry.map fun (x : Half) =>
              ({ x with splits := x.splits.filter fun y => y.id != sp.id } : Half) } } g (f.pc + 12)))

/-- `fbar` (R171). A fibre that it does not name goes on. One that is named alone, and is one piece, goes on at once. One named with
another that has not arrived waits. Each starts a new span at the next word. -/
def Claim.FibreBarrierRule : Prop :=
  ∀ (s : State) (f : Fibre) (h : Hdr) (m : BitVec 8),
    (m.getLsbD f.root = false → Claim.FallsX (.fbar h m) s f) ∧
    (m.getLsbD f.root = true → (getB s s.here.core s.here.berth).fbars = [] →
      ((∀ c, c < 8 → c ≠ f.root → m.getLsbD c = false) → family s s.here.core s.here.berth f.root = [s.here.fib] → f.halves = [] →
        Claim.FallsPulse (.fbar h m) s f) ∧
      ∀ c, c < 8 → c ≠ f.root → m.getLsbD c = true → family s s.here.core s.here.berth c ≠ [] → Claim.WaitsX (.fbar h m) s f (.fbar m f.pc))

/-- `wgive` and `wclaim` (R157, R173) of a shared slot by a fibre that is one piece. A block that the fibre holds is free afterwards, or
goes to the lowest context that waits for it; a claim of a block that it holds changes nothing; one of a free block takes it; one of a
block that another fibre holds waits behind the instruction. Any other form is WINDOW, class 0x03, precise at once when older results
are in, with the block's first register as its address (R160).
Choices of the model that clauses of it rest on: log entry 47, DESIGN CHOICE (a rollback undoes them). -/
def Claim.SharedBlocksRule : Prop :=
  ∀ (s : State) (f : Fibre) (h : Hdr) (slot : BitVec 4),
    let core := s.here.core
    let berth := s.here.berth
    let b := getB s core berth
    let k := b.holder.getD slot.toNat 8
    let noted (took : Bool) : Fibre := { f with span := { f.span with blk := (slot.toNat, took) :: f.span.blk } }
    let window (i : Instr) : Prop := acts i s f = true → hasPend s s.here = false →
      Machine.exec i s = .next (raise s s.here
        { faultInfo f none with cls := 3, decode := true, addrs := [(lowLane f, 16 * slot.toNat)] })
    (blockOk s f slot = true → slot.toNat < b.holder.length → f.root < 8 →
      (k = f.root → acts (.wgive h slot) s f = true →
        (∀ c g, c < 8 → getF s { s.here with fib := c } = some g → g.wait ≠ .wclaim slot.toNat) →
        ∃ t g, Machine.exec (.wgive h slot) s = .next t ∧ getF t s.here = some g ∧ OnlyFibre s t s.here ∧ SameRegs s t f g ∧
          WentOn (noted false) g (f.pc + 12) ∧ (getB t core berth).holder = b.holder.set slot.toNat 8) ∧
      (k = f.root → acts (.wgive h slot) s f = true → ∀ c g, c < 8 → c ≠ s.here.fib → getF s { s.here with fib := c } = some g →
        g.wait = .wclaim slot.toNat → (∀ d u, d < c → getF s { s.here with fib := d } = some u → u.wait ≠ .wclaim slot.toNat) →
        ∃ t, Machine.exec (.wgive h slot) s = .next t ∧ (getB t core berth).holder = (b.holder.set slot.toNat 8).set slot.toNat g.root ∧
          ∃ u, getF t { s.here with fib := c } = some u ∧ u.wait = .none ∧ u.pc = g.pc ∧ u.scal = g.scal ∧ t.vregs = s.vregs ∧ t.mem = s.mem) ∧
      (k = f.root → Claim.Falls (.wclaim h slot) s f) ∧
      (k = 8 → acts (.wclaim h slot) s f = true →
        ∃ t g, Machine.exec (.wclaim h slot) s = .next t ∧ getF t s.here = some g ∧ OnlyFibre s t s.here ∧ SameRegs s t f g ∧
          WentOn (noted true) g (f.pc + 12) ∧ (getB t core berth).holder = b.holder.set slot.toNat f.root) ∧
      (k ≠ 8 → k ≠ f.root → acts (.wclaim h slot) s f = true →
        ∃ t u, Machine.exec (.wclaim h slot) s = .next t ∧ OnlyFibre s t s.here ∧ SameRegs s t f u ∧ WentOn (noted true) u (f.pc + 12) ∧
          getF t s.here = some { u with wait := .wclaim slot.toNat } ∧ (getB t core berth).holder = b.holder)) ∧
    (blockOk s f slot = false → window (.wgive h slot) ∧ window (.wclaim h slot)) ∧ (k ≠ f.root → window (.wgive h slot))

/-- `park` (R174, R228) of an address that can be read: a probe of its line is on its way to the home, and the fibre waits behind the
instruction, in a new span. Of an address that cannot: its fault, precise.
Choices of the model that clauses of it rest on: log entry 19, DEDUCED. -/
def Claim.ParkRule : Prop :=
  ∀ (s : State) (f : Fibre) (h : Hdr) (base : Opnd) (off : Src), acts (.park h base off) s f = true → f.op = none →
    let r := laneChecks s s.here f (cidOf s f) 1 (Ask.load 1) .normal [(lowLane f, scalarAddr s f base off)]
    (∀ l, r = { ok := [l], bad := [], miss := [] } →
      ∃ t u q, Machine.exec (.park h base off) s = .next t ∧ WentOnX { f with probed := cycOf s s.here.core } u (f.pc + 12) ∧ SameRegs s t f u ∧ t.mem = s.mem ∧
        getF t s.here = some (Claim.waitingX u (.park l.pa l.va none (f.pc + 12))) ∧
        t.reqs = s.reqs ++ [q] ∧ q.op = .probe ∧ q.pa = l.pa ∧ q.core = s.here.core ∧ q.cont = .park s.here) ∧
    (∀ l c a, r = { ok := [], bad := [(l, c, a)], miss := [] } →
      Machine.exec (.park h base off) s =
        .next (raise s s.here { faultInfo f none with cls := c, addrs := [(l, a)], acc := 1, pos := 0 }))

/-- These claims together: `Claim.YieldRule`, `Claim.JoinRule`, `Claim.FibreBarrierRule`, `Claim.SharedBlocksRule` and `Claim.ParkRule`. -/
def Obligations.FibreControl : Prop := Claim.YieldRule ∧ Claim.JoinRule ∧ Claim.FibreBarrierRule ∧ Claim.SharedBlocksRule ∧ Claim.ParkRule

/-- `spawn` (R172): the lowest free context that the kernel has gets a fibre at the target with the parent's lanes, and D its number;
with none free D is all ones. The fibre starts as any other (R146): `s1` holds the parameter and the other scalars are 0, its private
registers are 0, but `v0` to `v7`, which hold in the parent's lanes what `vA` to `vA+7` hold.
Choices of the model that clauses of it rest on: log entry 22, DEDUCED (a context whose fibre has gone is free when no fragment of it
is left). -/
def Claim.SpawnRule : Prop :=
  ∀ (s : State) (f : Fibre) (h : Hdr) (d blk : Opnd) (tgt : Src), acts (.spawn h d blk tgt) s f = true → f.op = none →
    match (List.range (descFibres (descOf s f))).find? fun c => freeRoot s s.here.core s.here.berth c with
    | none =>
      ∃ t g, Machine.exec (.spawn h d blk tgt) s = .next t ∧ getF t s.here = some g ∧ OnlyFibre s t s.here ∧
        WentOnX f g (f.pc + 12) ∧ Wrote s t s.here f g d 2 [(0, 2 ^ 64 - 1)]
    | some c =>
      c ≠ s.here.fib → c < 8 → s.here.fib < 8 → f.root < 8 →
      ∃ t g q, Machine.exec (.spawn h d blk tgt) s = .next t ∧ getF t s.here = some g ∧ WentOnX f g (f.pc + 12) ∧
        (∀ k, d = .s k → k.toNat ≠ 0 → sget g k.toNat = BitVec.ofNat 64 c) ∧
        getF t { s.here with fib := c } = some q ∧ q.pc = srcTarget s f tgt ∧ q.amask = f.amask ∧ q.root = c ∧ q.grp = f.grp ∧
        sget q 1 = BitVec.ofNat 64 (descParam (descOf s f)) ∧ t.mem = s.mem ∧
        (∀ k, k ≠ 1 → sget q k = 0) ∧ q.fp4x = 0x8000 ∧ q.regions = [] ∧ q.splits = [] ∧ q.halves = [] ∧ q.hnd = none ∧ q.wait = .none ∧
        q.froz = .no ∧ q.pilot.on = false ∧ q.span = newSpan q ∧
        (∀ n : BitVec 8, blk = .v n → ∀ j, j < 8 → vget t (vkey (descOf s f) s.here.core s.here.berth c j) =
          mixLanes f.amask (vget s (vkey (descOf s f) s.here.core s.here.berth f.root (n.toNat + j))) zeroLanes) ∧
        ∀ k, 8 ≤ k → k < 256 → descKind (descOf s f) (k / 16) = 1 → vget t (vkey (descOf s f) s.here.core s.here.berth c k) = zeroLanes

/-- `exit` (R169), where no join that it completes has spans to commit: lanes that pass end, and leave a handler's frame (R388). The others go
on at the next word with the rest of the mask; with none left the next half goes on, and with no half left the context is free. -/
def Claim.ExitRule : Prop :=
  ∀ (s : State) (f : Fibre) (h : Hdr), acts (.exit h) s f = true → f.op = none →
    let e := maskOf (passLanes s f s.here h.guard)
    (e = 0 → Claim.FallsX (.exit h) s f) ∧
    (e ≠ 0 → exitCommits s s.here f.root e = [] →
      ∃ t, Machine.exec (.exit h) s = .next t ∧
        (f.amask &&& ~~~e ≠ 0 →
          t = afterEnd (nextX (setF s s.here { f with amask := f.amask &&& ~~~e, hnd := endFrame f.hnd e }) s.here) s.here f.root f.grp) ∧
        (f.amask &&& ~~~e = 0 → f.halves = [] → t = endPiece (pulse s (cidOf s f)) s.here f f.pc) ∧
        (f.amask &&& ~~~e = 0 → f.halves ≠ [] →
          let g := dropHalf { f with hnd := endFrame f.hnd e }
          t = settle (afterEnd (setF (noteIssue s s.here f.pc) s.here { g with span := newSpan g }) s.here f.root f.grp) s.here))

/-- These claims together: `Claim.SpawnRule` and `Claim.ExitRule`. -/
def Obligations.FibresBeginAndEnd : Prop := Claim.SpawnRule ∧ Claim.ExitRule

/-! ### Row 0x1_: regions, handlers, pilot gear -/

/-- `rgn.enter`, `rgn.leave` (R175, R177, R205): the region stack takes or gives up its top; a commit point. With 24 regions on it, or
with none, the instruction is the software trap of code 0xFFF0, or 0xFFF1, and counts as completed. -/
def Obligations.Regions : Prop :=
  ∀ (s : State) (f : Fibre) (h : Hdr) (id : BitVec 16) (idem : Bool),
    (acts (.rgnEnter h id idem) s f = true → f.op = none → f.regions.length < 24 →
      ∃ t g, Machine.exec (.rgnEnter h id idem) s = .next t ∧ getF t s.here = some g ∧ OnlyFibre s t s.here ∧ SameRegs s t f g ∧
        WentOnX { f with regions := { id, idem, entry := f.pc + 12 } :: f.regions } g (f.pc + 12)) ∧
    (acts (.rgnEnter h id idem) s f = true → f.op = none → 24 ≤ f.regions.length →
      Machine.exec (.rgnEnter h id idem) s = .next (raise s s.here
        { faultInfo f none with cls := 0x0C, code := 0xFFF0, mask := f.amask, retry := false, pos := 0 })) ∧
    (acts (.rgnLeave h) s f = true → f.op = none → f.regions = [] → Machine.exec (.rgnLeave h) s = .next (raise s s.here
      { faultInfo f none with cls := 0x0C, code := 0xFFF1, mask := f.amask, retry := false, pos := 0 })) ∧
    ∀ r rs, acts (.rgnLeave h) s f = true → f.op = none → f.regions = r :: rs →
      ∃ t g, Machine.exec (.rgnLeave h) s = .next t ∧ getF t s.here = some g ∧ OnlyFibre s t s.here ∧ SameRegs s t f g ∧
        WentOnX { f with
          regions := rs
          pilot := { f.pilot with forced := f.pilot.forced.bind fun d => if rs.length < d then none else some d } } g (f.pc + 12)

/-- Taking an exception (R194, R381): a precise fault with a handler registered for its class, of a fibre that is in no handler and that
no debugger stops, enters the handler: `s60` takes the argument, the old `s60` to `s63`, the mask, the address to resume at, the fault's
lanes, pc and word are kept, and the fibre is in pilot gear. Nothing else of the machine changes.
Choices of the model that clauses of it rest on: log entry 32, DEDUCED. -/
def Claim.HandlerEntryRule : Prop :=
  ∀ (s : State) (p : Place) (f : Fibre) (fi : FaultInfo), getF s p = some f → f.dbg.want ≠ 1 → stepping s f = false → f.hnd = none →
    kernelClass fi.cls = false → fi.acc ≠ 6 → (handlerOf s f fi.cls).1 ≠ 0 → (handlerOf s f fi.cls).1.toNat % 4 = 0 →
    tabWf 0 f.scal = true →
      ∃ g h, raise s p fi = setF s p g ∧ g.hnd = some h ∧ g.pc = (handlerOf s f fi.cls).1 ∧ sget g 60 = (handlerOf s f fi.cls).2 ∧
        (∀ n, n ≠ 60 → sget g n = sget f n) ∧ g.amask = f.amask ∧ g.pilot.on = true ∧ g.regions = f.regions ∧ g.splits = f.splits ∧
        h.s60 = sget f 60 ∧ h.s61 = sget f 61 ∧ h.s62 = sget f 62 ∧ h.s63 = sget f 63 ∧ h.amask = f.amask ∧
        h.resume = (if fi.retry then fi.pc else fi.pc + 12) ∧ h.tmask = fi.mask ∧ h.tpc = fi.pc ∧ h.addrs = fi.addrs ∧ h.dst = fi.dst ∧
        h.code = fi.code ∧ h.word = faultWord f fi false

/-- A fault of a class that no user handler takes freezes the fibre for the resident kernel (R194, R197). -/
def Claim.ResidentFaultFreezesRule : Prop :=
  ∀ (s : State) (p : Place) (f : Fibre) (fi : FaultInfo), getF s p = some f → f.dbg.want ≠ 1 → stepping s f = false → f.hnd = none →
    kernelClass fi.cls = true → f.dual = none → ∃ g, getF (raise s p fi) p = some g ∧ g.froz = .resident fi false ∧ g.pc = f.pc

/-- These claims together: `Claim.HandlerEntryRule` and `Claim.ResidentFaultFreezesRule`. -/
def Obligations.TakingAnException : Prop := Claim.HandlerEntryRule ∧ Claim.ResidentFaultFreezesRule

/-- `trap` (R206) in a lane that passes is the software trap: the handler of class 0x0C is entered with the code, to resume after it;
in no lane it goes on. -/
def Obligations.SoftwareTrap : Prop :=
  ∀ (s : State) (f : Fibre) (h : Hdr) (code : BitVec 16), acts (.trap h code) s f = true → f.op = none →
    let m := maskOf (passLanes s f s.here h.guard)
    (m = 0 → Claim.FallsX (.trap h code) s f) ∧
    (m ≠ 0 → f.dbg.want ≠ 1 → stepping s f = false → f.hnd = none → (handlerOf s f 0x0C).1 ≠ 0 → (handlerOf s f 0x0C).1.toNat % 4 = 0 →
      ∃ t g x, Machine.exec (.trap h code) s = .next t ∧ getF t s.here = some g ∧ g.hnd = some x ∧ g.pc = (handlerOf s f 0x0C).1 ∧
        x.code = code ∧ x.tmask = m ∧ x.tpc = f.pc ∧ x.resume = f.pc + 12 ∧ t.mem = s.mem ∧ t.vregs = s.vregs)

/-- Return from a handler (R196, R207): `tret` goes back to the resume address, `tret.skip` past the faulting instruction; `s60` to `s63`
and the active mask come back, and the fibre goes on in pilot gear. -/
def Obligations.HandlerReturn : Prop :=
  ∀ (s : State) (f : Fibre) (h : Hdr) (skip : Bool) (x : Handling), acts (.tret h skip) s f = true → f.hnd = some x →
    ∃ t g, Machine.exec (.tret h skip) s = .next t ∧ getF t s.here = some g ∧ OnlyFibre s t s.here ∧ t.vregs = s.vregs ∧
      g.pc = (if skip then x.tpc + 12 else x.resume) ∧ g.hnd = none ∧ g.amask = x.amask ∧ g.pilot.on = true ∧
      sget g 60 = x.s60 ∧ sget g 61 = x.s61 ∧ sget g 62 = x.s62 ∧ sget g 63 = x.s63 ∧
      (∀ n, n < 60 → sget g n = sget f n) ∧ g.fp4x = f.fp4x ∧ g.regions = f.regions ∧ g.span.hold = f.span.hold

/-- `brk` (R208) inside a span: it is noted with its pc, tag and position, and nothing else changes. Where a debugger attends, the fibre
halts when the span with a `brk` in it has committed.
Choices of the model that clauses of it rest on: log entry 21, DEDUCED. -/
def Claim.BreakpointRule : Prop :=
  ∀ (s : State) (f : Fibre) (h : Hdr) (tag : BitVec 16) (b : DWord × BitVec 16 × Nat) (edge : Bool),
    (acts (.brk h tag) s f = true → ∃ t g, Machine.exec (.brk h tag) s = .next t ∧ getF t s.here = some g ∧ OnlyFibre s t s.here ∧
      SameRegs s t f g ∧ WentOn { f with span := { f.span with brk := some (f.pc, tag, f.span.count) } } g (f.pc + 12)) ∧
    (getF s s.here = some f → f.dual = none → vanished f = 0 → f.span.brk = some b → ctxFlag s (cidOf s f) 117 = true →
      ∃ g, getF (afterCommit s s.here edge) s.here = some g ∧ g.dbg.halted = true ∧ g.span = newSpan g ∧ g.pc = f.pc)

/-- `stsp` (R215): the limit of the spans after this one is B[12:0], or 4,096 where that is 0 or more; this span's stays. `pilot.on` and
`pilot.off` (R218): forced pilot gear begins at once, at this depth of regions; its end is noted, and the span that ends next goes back
to speed. -/
def Claim.LimitAndGearRule : Prop :=
  ∀ (s : State) (f : Fibre) (h : Hdr) (a : Src) (on : Bool),
    let v := match a with
      | .imm i => i.toNat
      | .reg o => opVal s f s.here o 2 0
    let n := if v % 2 ^ 13 = 0 ∨ 4096 < v % 2 ^ 13 then 4096 else v % 2 ^ 13
    (acts (.stsp h a) s f = true → ∃ t g, Machine.exec (.stsp h a) s = .next t ∧ getF t s.here = some g ∧ OnlyFibre s t s.here ∧
      SameRegs s t f g ∧ WentOn { f with span := { f.span with nextLimit := n } } g (f.pc + 12) ∧ (newSpan g).limit = n) ∧
    (acts (.pilot h on) s f = true → ∃ t g, Machine.exec (.pilot h on) s = .next t ∧ getF t s.here = some g ∧ OnlyFibre s t s.here ∧
      SameRegs s t f g ∧
      WentOn { f with
        pilot := if on then { f.pilot with on := true, forced := some f.regions.length } else { f.pilot with forced := none } } g
        (f.pc + 12)) ∧
    (getF s s.here = some f → f.dual = none → vanished f = 0 → f.span.brk = none → ctxFlag s (cidOf s f) 117 = false →
      f.pilot.forced = none → f.hnd = none →
      ∃ g, getF (afterCommit s s.here on) s.here = some g ∧ g.pilot.on = false)

/-- These claims together: `Claim.BreakpointRule` and `Claim.LimitAndGearRule`. -/
def Obligations.SpanControls : Prop := Claim.BreakpointRule ∧ Claim.LimitAndGearRule

/-! ### Long-latency results (R95, R151) -/

/-- Where it acts, `i` leaves registers `d` empty with the values `vs` on their way, due to be written back; it goes on at the next word,
and changes nothing else of the machine. -/
def Claim.Sends (i : Instr) (s : State) (f : Fibre) (d : Opnd) (n : Nat) (vs : List (Nat × Nat)) : Prop :=
  acts i s f = true → vs ≠ [] →
    ∃ t g q, Machine.exec i s = .next t ∧ getF t s.here = some g ∧ WentOn f g (f.pc + 12) ∧ SameRegs s t f g ∧
      t = { s with
        fibres := t.fibres, berths := t.berths, pends := s.pends ++ [q], nextId := s.nextId + 1
        agenda := s.agenda ++ [.resultWriteback s.nextId] } ∧
      q.id = s.nextId ∧ q.dst = d ∧ q.refs = refsOf s f s.here d n ∧ q.pc = f.pc ∧ q.vals = vs ∧ q.lanes = [] ∧ q.bad = []

/-- `rdl` (R117), `vred` (R119), the special functions and `fdiv` (R137, R139), `chk` (R217), `ldsys` (R211): the result is on its way, and its
registers are empty. `ld.x` (R238) without an order, and `accld` (R333), of bytes and elements that no older one still has to read: the
lanes, or the elements, are on their way, each with its address and the held stores that it sees (R182).
Choices of the model that clauses of it rest on: log entry 7, DEDUCED (an `ld.x` is performed at its write-back); log entry 8, DESIGN
CHOICE (the FP32 `.rn` values of the faithful functions); log entry 10, DEDUCED (`accld` element by element); log entry 19, DEDUCED; log entry 42, DEDUCED; log entry 48, DEDUCED. -/
def Claim.LongLatencyRule : Prop :=
  ∀ (s : State) (f : Fibre) (x : Op1) (y : Op2) (r : Rnd) (op : RedOp) (h : Hdr) (d a : Opnd) (m : MemOp) (col : BitVec 8) (cnt : BitVec 3)
    (t : Ty) (off : Src),
    let A (l : Nat) := opVal s f s.here x.a 1 l
    let sends (i : Instr) (fn : SFun) : Prop :=
      Claim.Sends i s f x.d 1 (laneVals s f x.h x.d fun l => (sfunF fn x.t r (nanLane x.d l) f.pc (A l)).1)
    let j := srcVal s f s.here y.t 1 y.b 0 % 32
    let ls := memLanes s f m.h m.r.isV m.base m.off (accessSize m.t)
    let row := opVal s f s.here a 2 0
    let pass := passLanes s f s.here h.guard
    let els := pass.flatMap fun l => (List.range (cnt.toNat + 1)).map fun j => accLane s s.here f l (row + l) (col.toNat + j) j
    (acts (.ldsys h t d a off) s f = true → hasPend s s.here = false → sysCls (scalarAddr s f a off) (4 * t.regs) = 0 →
      let r := regRead s (scalarAddr s f a off) (4 * t.regs)
      Machine.exec (.ldsys h t d a off) s = .next (Machine.next (addPend (sendPend r.2 f d 2 t [(0, r.1)])) s.here)) ∧
    Claim.Sends (.rdl y) s f y.d y.t.regs
      (laneVals s f y.h y.d fun _ => if f.amask.getLsbD j then opVal s f s.here y.a y.t.regs j else 0) ∧
    Claim.Sends (.vred x op) s f x.d x.t.regs
      (laneVals s f x.h x.d fun _ => reduce op x.t ((passLanes s f s.here x.h.guard).map fun l => opVal s f s.here x.a x.t.regs l)) ∧
    sends (.rcp x r) .rcp ∧ sends (.rsq x r) .rsq ∧ sends (.sqrt x r) .sqrt ∧ sends (.exp2 x r) .exp2 ∧ sends (.log2 x r) .log2 ∧
    sends (.sinpi x r) .sinpi ∧ sends (.cospi x r) .cospi ∧ sends (.tanh x r) .tanh ∧
    Claim.Sends (.fdiv y r) s f y.d 1
      (laneVals s f y.h y.d fun l => (fdivF y.t r (nanLane y.d l) f.pc (opVal s f s.here y.a 1 l) (srcVal s f s.here y.t 1 y.b l)).1) ∧
    ((∀ q ∈ foldRefs s f s.here, emptyRef s q = false) →
      Claim.Sends (.chk h d a) s f d 2 [(0, foldRegs s f s.here (opVal s f s.here a 2 0))]) ∧
    (m.ord = .plain → scratchBad s f (accessSize m.t) ls = [] → ls ≠ [] → sameScratch s f ls (accessSize m.t) = false →
      acts (.ldX m) s f = true →
      ∃ u g q, Machine.exec (.ldX m) s = .next u ∧ getF u s.here = some g ∧ WentOn f g (f.pc + 12) ∧ SameRegs s u f g ∧
        u = { s with
          fibres := u.fibres, berths := u.berths, pends := s.pends ++ [q], nextId := s.nextId + 1
          agenda := s.agenda ++ [.resultWriteback s.nextId] } ∧
        q.id = s.nextId ∧ q.dst = m.r ∧ q.refs = refsOf s f s.here m.r m.t.regs ∧ q.pc = f.pc ∧ q.size = accessSize m.t ∧ q.vals = [] ∧
        q.bad = [] ∧ q.scratch = true ∧ q.lanes = ls.map fun l =>
          { lane := l.1, va := l.2, pa := l.2, trk := false, pol := .normal, comm := none
            fwd := heldBytes s s.here f false l.2 (accessSize m.t), b := 0, c := 0 }) ∧
    (pass ≠ [] → rowBad s f row 0 pass = [] → sameAcc s f (els.map fun l => (l.va, l.pa)) = false → acts (.accld h d a col cnt) s f = true →
      ∃ u g q, Machine.exec (.accld h d a col cnt) s = .next u ∧ getF u s.here = some g ∧ WentOn f g (f.pc + 12) ∧ SameRegs s u f g ∧
        u = { s with
          fibres := u.fibres, berths := u.berths, pends := s.pends ++ [q], nextId := s.nextId + 1
          agenda := s.agenda ++ [.resultWriteback s.nextId] } ∧
        q.id = s.nextId ∧ q.dst = d ∧ q.refs = refsOf s f s.here d (cnt.toNat + 1) ∧ q.pc = f.pc ∧ q.size = 4 * (cnt.toNat + 1) ∧
        q.vals = [] ∧ q.bad = [] ∧ q.acc = true ∧ q.lanes = els)

/-- RESULT_WRITEBACK (R151) of a fibre in no redundant pair: a result all of whose lanes are filled is written to its registers, which are
full again; the lanes of an `ld.x` are filled first, with the bytes of the scratchpad and of the stores held over them (R182, R238). A
fibre that this makes ready starts to wait for its turn (R149), and one that the debugger steps, or has asked to halt, may halt (R422,
R423). Of an `accld` with elements to read each RESULT_WRITEBACK reads one, and the result is written with the last.
Choices of the model that clauses of it rest on: log entry 7, DEDUCED; log entry 10, DEDUCED; log entry 45, DEDUCED. -/
def Claim.ResultWritebackRule : Prop :=
  ∀ (s : State) (q : Pend) (p : Place) (f : Fibre),
    s.pends.find? (fun x => x.id == q.id) = some q → pendOwner s q = some p → getF s p = some f → f.dual = none →
    tabRises s.fibres = true → (getReg s injAddr).toNat % 2 = 0 →
      let rest := s.pends.filter fun x => x.id != q.id
      let vals := q.vals ++ q.lanes.map fun l => (l.lane, scratchSeen s f l q.size)
      let w := putRefs { s with pends := rest } q.dst (pendRegs q) q.refs (vals.map fun e => (e.1, loadVal q.ty q.dst e.2))
      let r := readied s w p.core p.berth
      (q.acc = false → q.bad = [] → q.post = none → q.wat = [] → q.scratch = true ∨ q.lanes = [] →
        ∃ t, Machine.exec (.resultWriteback q.id) s = .next t ∧ t = (if f.dbg.ended || f.dbg.want == 1 then settleHalt r p else r) ∧
          (f.dbg.ended = false → f.dbg.want ≠ 1 → t.pends = rest ∧ t.mem = s.mem ∧ t.vregs = w.vregs ∧ t.emptied = w.emptied)) ∧
      ∀ g l k ls, q.acc = true → groupOf s f = some g → q.lanes = l :: k :: ls →
        let seen := if l.fwd = [] then (accGet g l.va l.pa).toNat else natOf (l.fwd.filterMap id)
        let old := ((q.vals.find? fun e => e.1 == l.lane).map Prod.snd).getD 0
        Machine.exec (.resultWriteback q.id) s = .next (due { s with
          pends := swapFirst (fun x : Pend => x.id == q.id)
            { q with lanes := k :: ls, vals := (q.vals.filter fun e => e.1 != l.lane) ++ [(l.lane, old + seen * 2 ^ (32 * l.b))] } s.pends }
          (.resultWriteback q.id))

/-- These claims together: `Claim.LongLatencyRule` and `Claim.ResultWritebackRule`. -/
def Obligations.LongLatencyResults : Prop := Claim.LongLatencyRule ∧ Claim.ResultWritebackRule

/-! ### Rows 0x8_ and 0x9_: memory -/

/-- `ld.g` inside a span (R238, R241), not of a redundant pair, whose lanes translate, of lines that no older load of the fibre waits
for: its result is on its way, each lane with its address and the held stores that it sees (R182), those that name registers last; with
an order no younger load performs before it; the pc goes on, and no register and no memory changes.
Choices of the model that clauses of it rest on: log entry 50, DEDUCED. -/
def Claim.LoadIssuesRule : Prop :=
  ∀ (s : State) (f : Fibre) (x : MemOp), acts (.ldG x) s f = true → ¬ (x.ord = .sc ∧ wide x.sc = true) →
    (x.ord = .sc → hasPend s s.here = false) → f.dual = none →
    let n := accessSize x.t
    let ls := memLanes s f x.h x.r.isV x.base x.off n
    let r := laneChecks s s.here f (cidOf s f) n { globalAsk s f (Ask.load n) with elemTy := some x.t } x.cpol ls
    ls ≠ [] → r.miss = [] → r.bad = [] → sameLine s f r.ok = false →
      ∃ t g, Machine.exec (.ldG x) s = .next t ∧ getF t s.here = some g ∧ WentOn (if x.ord = .sc then { f with scf := true } else f) g (f.pc + 12) ∧
        SameRegs s t f g ∧ t.mem = s.mem ∧ .resultWriteback s.nextId ∈ t.agenda ∧
        ∃ q ∈ t.pends, q.id = s.nextId ∧ q.dst = x.r ∧ q.refs = refsOf s f s.here x.r x.t.regs ∧ q.pc = f.pc ∧ q.size = n ∧
          q.acq = (x.ord != .plain) ∧ q.vals = [] ∧ q.lanes = loadOrder s s.here f n r.ok

/-- A load of memory is performed when its RESULT_WRITEBACK comes (R186, R222, R229). A lane that finds a usable copy of its line in the L1
takes its bytes from it, and the core's clock rises to the copy's write tide; one that finds none asks the home for the line, with a
lease, or without one where it is untracked; it is then among those waited for. A lane that names a register, with no lane that has
failed, reads the register (R439). Only a hit goes on with a run of consecutive hits (R227).
Choices of the model that clauses of it rest on: log entry 7, DEDUCED; log entry 50, DEDUCED. -/
def Claim.LoadPerformsRule : Prop :=
  ∀ (s : State) (p : Place) (f : Fibre) (q : Pend) (l : OpLane),
    s.pends.find? (fun x => x.id == q.id) = some q → pendOwner s q = some p → getF s p = some f → q.scratch = false → q.acc = false →
    q.lanes = [l] → q.asked = [] → spinDue s p f = false →
      let line := lineNo l.pa
      let v := regRead (countSpin s p [l] false) (localAddr l.pa) q.size
      (isReg s l = true → q.bad = [] → performLoad s p f q = ({ q with lanes := [], vals := q.vals ++ [(l.lane, v.1)] }, v.2)) ∧
      (∀ cp, isReg s l = false → atHome s f l = false → hitCopy s q.core l = some cp →
        (performLoad s p f q).1 = { q with lanes := [], vals := q.vals ++ [(l.lane, laneBytes l q.size cp.data)] } ∧
          (performLoad s p f q).2 = countSpin (seeTide s q.core cp.wt) p [l] true) ∧
      (isReg s l = false → atHome s f l = true ∨ hitCopy s q.core l = none → tfind (getC s q.core).parts line = none →
        ∃ t r, Machine.exec (.resultWriteback q.id) s = .next t ∧ t.mem = s.mem ∧ t.vregs = s.vregs ∧ t.reqs = s.reqs ++ [r] ∧
          r.id = s.nextId ∧ r.core = q.core ∧ r.pa = line * 128 ∧ r.cont = .pend q.id ∧
          r.op = (if atHome s f l then .load 128 else .lease ((getCopy s q.core line).map Copy.wt) (leaseOf s (cidOf s f))) ∧
          t.pends = swapFirst (fun x : Pend => x.id == q.id) { q with asked := [line] } s.pends)

/-- These claims together: `Claim.LoadIssuesRule` and `Claim.LoadPerformsRule`. -/
def Obligations.GlobalLoad : Prop := Claim.LoadIssuesRule ∧ Claim.LoadPerformsRule

/-- Where it acts, `i` puts the entry `e` into the hold (R182), goes on at the next word, and changes nothing else: no memory. A release
(order `o`) waits with the loads that are outstanding before it (R241), and with no other. -/
def Claim.Holds (i : Instr) (s : State) (f : Fibre) (o : Order) (e : HoldEnt) : Prop :=
  acts i s f = true →
    ∃ t g, Machine.exec i s = .next t ∧ getF t s.here = some g ∧ SameRegs s t f g ∧
      OnlyFibre { s with pends := if o = .plain then s.pends else s.pends.map fun q => if ofPiece s.here f q then { q with acq := true } else q }
        t s.here ∧
      WentOn { f with span := { f.span with hold := f.span.hold ++ [e] } } g (f.pc + 12)

/-- Stores and other held commands inside a span take one entry of the hold: `st.x` (R239), `accst`, `acczero` (R334), `dsc` (R231),
`tlbi` (R213), `mark` (R216), `stsys` (R212).
Choices of the model that clauses of it rest on: log entry 19, DEDUCED; log entry 45, DEDUCED. -/
def Obligations.HeldCommands : Prop :=
  ∀ (s : State) (f : Fibre) (x : MemOp) (h : Hdr) (d a b : Opnd) (col : BitVec 8) (cnt : BitVec 3) (off : Src) (sc : Scope) (m : TlbiMode)
    (v : Word) (t : Ty),
    let ls := memLanes s f x.h x.r.isV x.base x.off (accessSize x.t)
    let pass := passLanes s f s.here h.guard
    let row := opVal s f s.here a 2 0
    let at_ := scalarAddr s f a (.reg b)
    (ls ≠ [] → scratchBad s f (accessSize x.t) ls = [] →
      Claim.Holds (.stX x) s f x.ord (storeEnt f .stX x x.r.isV (ls.map fun l =>
        { lane := l.1, va := l.2, pa := l.2, trk := false, pol := .normal, comm := none
          bytes := bytesOf (accessSize x.t) (if x.t = .t6x5 then opVal s f s.here x.r 1 l.1 % 2 ^ 30 else opVal s f s.here x.r x.t.regs l.1) }))) ∧
    (pass ≠ [] → rowBad s f row 0 pass = [] →
      Claim.Holds (.accst h d a col cnt) s f .plain
        (accEnt f (.accst col.toNat cnt.toNat) row pass fun l => bytesOf (4 * (cnt.toNat + 1)) (opVal s f s.here d (cnt.toNat + 1) l))) ∧
    (pass ≠ [] → rowBad s f row (32 * cnt.toNat) pass = [] →
      Claim.Holds (.acczero h a cnt) s f .plain (accEnt f (.acczero cnt.toNat) row pass fun _ => [])) ∧
    (memLanes s f h a.isV a off 0 ≠ [] →
      Claim.Holds (.dsc h a off) s f .plain
        { kind := .dsc, pc := f.pc, ord := .plain, sc := .fib, remap := false
          mask := if a.isV then maskOf ((memLanes s f h a.isV a off 0).map Prod.fst) else 1
          lanes := (memLanes s f h a.isV a off 0).map fun l =>
            { lane := if a.isV then l.1 else scalarLane, va := l.2, pa := 0, trk := false, pol := .normal, comm := none, bytes := [] } }) ∧
    Claim.Holds (.tlbi h sc m a b) s f .plain
      (plainEnt f (.tlbi m sc (BitVec.ofNat 64 (opVal s f s.here a 2 0)) (BitVec.ofNat 64 (opVal s f s.here b 2 0))) []) ∧
    Claim.Holds (.mark h v) s f .plain { plainEnt f (.mark v (BitVec.ofNat 64 (rgnWord f.regions))) [] with mask := f.amask } ∧
    (sysCls at_ (4 * t.regs) = 0 →
      Claim.Holds (.stsys h t a b d) s f .plain (plainEnt f .sys [scalarHold at_ at_ (bytesOf (4 * t.regs) (opVal s f s.here d 2 0))]))

/-- `st.g` inside a span (R239) whose lanes translate: its lanes' addresses and data go into the hold, and no byte of memory changes.
Choices of the model that clauses of it rest on: log entry 45, DEDUCED. -/
def Obligations.GlobalStore : Prop :=
  ∀ (s : State) (f : Fibre) (x : MemOp), acts (.stG x) s f = true → ¬ (x.ord = .sc ∧ wide x.sc = true) →
    let ls := memLanes s f x.h x.r.isV x.base x.off (accessSize x.t)
    let r := laneChecks s s.here f (cidOf s f) (accessSize x.t) (globalAsk s f (Ask.store (accessSize x.t))) x.cpol ls
    ls ≠ [] → r.miss = [] → r.bad = [] →
      ∃ t g e, Machine.exec (.stG x) s = .next t ∧ getF t s.here = some g ∧ t.mem = s.mem ∧ SameRegs s t f g ∧
        WentOn { f with span := { f.span with hold := f.span.hold ++ [e] } } g (f.pc + 12) ∧ e.kind = .stG ∧ e.ord = x.ord ∧ e.sc = x.sc ∧
        e.lanes.map (fun l => (l.va, l.pa, l.bytes)) =
          r.ok.map fun l => (l.va, l.pa, bytesOf (accessSize x.t)
            (if x.t = .t6x5 then opVal s f s.here x.r 1 l.lane % 2 ^ 30 else opVal s f s.here x.r x.t.regs l.lane))

/-- A released store is written to the group's scratchpad, or to the copy of a line that its core owns, and to no memory (R182, R183). -/
def Obligations.HeldStoreReleases : Prop :=
  ∀ (s : State) (p : Place) (f : Fibre) (e : HoldEnt) (l : HoldLane) (g : Group) (cp : Copy),
    (e.kind = .stX → e.lanes = [l] → getG s f.grp = some g →
      ∃ t u, releaseHead s p f e = .done t ∧ getG t f.grp = some u ∧ u.scratch = memWr g.scratch l.va l.bytes ∧ t.mem = s.mem) ∧
    (e.remap = false → isReach s l.pa = true → rngOf s l.pa ≠ .regs → l.trk = true → l.pol ≠ .noL1 → isOwn s l.pa = true →
      getCopy s p.core (lineNo l.pa) = some cp → cp.owned = true → tabWf Core.init s.cores = true →
      ∃ t c, releaseStore s p f e l = .done t ∧ getCopy t p.core (lineNo l.pa) = some c ∧ c.owned = true ∧
        c.data = lineWr cp.data (l.pa % 128) l.bytes ∧ t.mem = s.mem)

/-- `pf` and `lease` (R240): no lane misses its translation; nothing is written, and each tracked line that no usable copy holds is
asked for.
Choices of the model that clauses of it rest on: log entry 37, DEDUCED. -/
def Obligations.Prefetch : Prop :=
  ∀ (s : State) (f : Fibre) (h : Hdr) (c : CPol) (base : Opnd) (off : Src) (e : BitVec 4),
    ∀ i ∈ [Instr.pf h c base off, .lease h base off e],
      let pol := match i with
        | .pf .. => c
        | _ => .normal
      let r := laneChecks s s.here f (cidOf s f) 1 (Ask.load 1) pol (memLanes s f h base.isV base off 0)
      acts i s f = true → r.miss = [] →
        ∃ t g, Machine.exec i s = .next t ∧ getF t s.here = some g ∧ WentOn f g (f.pc + 12) ∧ SameRegs s t f g ∧ t.mem = s.mem ∧
          ∀ l ∈ r.ok, l.trk = true → l.pol ≠ .noL1 ∨ isOwn s l.pa = false → tabWf Core.init s.cores = true → hitCopy s s.here.core l = none →
            ∃ q ∈ t.reqs, lineNo q.pa = lineNo l.pa

/-- `fence` (R241): at `fib` scope it changes nothing but that no younger load of the fibre performs before those outstanding; from `grp`
scope on it is a commit point that goes on once the drains of its scope have finished. After an sc fence of either kind loads go to the
home. -/
def Obligations.Fences : Prop :=
  ∀ (s : State) (f : Fibre) (h : Hdr) (o : Order) (sc : Scope), acts (.fence h o sc) s f = true →
    (wide sc = false →
      ∃ t g, Machine.exec (.fence h o sc) s = .next t ∧ getF t s.here = some g ∧ SameRegs s t f g ∧
        OnlyFibre { s with pends := s.pends.map fun q => if ofPiece s.here f q then { q with acq := true } else q } t s.here ∧
        WentOn (if o = .sc then { f with scf := true } else f) g (f.pc + 12)) ∧
    (wide sc = true → f.op = none → (drains o = true → drained s s.here.core sc = true) →
      ∃ t g, Machine.exec (.fence h o sc) s = .next t ∧ getF t s.here = some g ∧ OnlyFibre s t s.here ∧ SameRegs s t f g ∧
        WentOnX (if o = .sc then { f with scf := true } else f) g (f.pc + 12))

/-- The last step of an operation at a home, of a fibre in no redundant pair: no request is out, its drains are done, every lane has been
answered, none with a failure. -/
def Claim.Answered (s : State) (f : Fibre) (o : OpRun) : Prop :=
  f.op = some o ∧ opOut s s.here = false ∧ o.lanes = [] ∧ o.bad = [] ∧ f.committing = false ∧ f.dual = none ∧ 0 < o.stage

/-- Where it acts in that last step, `i` writes `d` and starts a new span at the next word, and changes nothing else. -/
def Claim.Ends (i : Instr) (s : State) (f : Fibre) (d : Opnd) (n : Nat) (vs : List (Nat × Nat)) : Prop :=
  acts i s f = true →
    ∃ t g, Machine.exec i s = .next t ∧ getF t s.here = some g ∧ OnlyFibre s t s.here ∧ WentOnX { f with scf := g.scf } g (f.pc + 12) ∧
      Wrote s t s.here f g d n vs

/-- The atomics (R244, R245): with every lane answered, D takes the old values, lane by lane. -/
def Obligations.Atomics : Prop :=
  ∀ (s : State) (f : Fibre) (x : AtomOp) (c : Opnd) (o : OpRun), Claim.Answered s f o → mustWaitDrain s x.ord x.sc = false →
    ∀ i ∈ [Instr.atomAdd x, .atomSub x, .atomMin x, .atomMax x, .atomAnd x, .atomOr x, .atomXor x, .atomXchg x, .atomCas x c, .atomInc x,
        .atomDec x, .atomFadd x],
      Claim.Ends i s f x.d x.t.regs (o.got.map fun e => (e.1, wide1 x.d x.t x.t.regs e.2))

/-- `ld.g.sc` and `st.g.sc` from `grp` scope on (R241), `prom` (R242), the memory barriers (R304, R305), queue and dependence operations
(R366): with the answers in, the result is written, and a new span starts at the next word. A take writes its status, and the record
that it took to the block of eight scalars: of an empty queue 0, and no record. A store is progress of its context (R379).
Choices of the model that clauses of it rest on: log entry 36, DEDUCED; log entry 45, DEDUCED. -/
def Obligations.HomeOperations : Prop :=
  ∀ (s : State) (f : Fibre) (x : MemOp) (q : QOp) (h : Hdr) (sc : Scope) (d a b : Opnd) (o : OpRun), Claim.Answered s f o →
    let ls := memLanes s f x.h x.r.isV x.base x.off (accessSize x.t)
    (x.ord = .sc → wide x.sc = true → mustWaitDrain s x.ord x.sc = false → ls ≠ [] →
      Claim.Ends (.ldG x) s f x.r x.t.regs (o.got.map fun e => (e.1, loadVal x.t x.r e.2)) ∧
      (acts (.stG x) s f = true →
        ∃ t g, Machine.exec (.stG x) s = .next t ∧ getF t s.here = some g ∧ OnlyFibre (pulse s (cidOf s f)) t s.here ∧
          WentOnX { f with scf := g.scf } g (f.pc + 12) ∧ SameRegs s t f g)) ∧
    Claim.Ends (.prom h sc d a) s f d 2 [(0, o.aux)] ∧
    Claim.Ends (.mbarInit h sc a b) s f (.s 0) 2 [] ∧
    Claim.Ends (.mbarArr h sc d a) s f d 2 [(0, o.aux)] ∧
    (o.aux ≠ opVal s f s.here b 2 0 → Claim.Ends (.mbarWt h sc a b) s f (.s 0) 2 []) ∧
    (suppressed s f q.h = false →
      Claim.Ends (.dqPush q) s f q.d 2 [(0, o.aux)] ∧ Claim.Ends (.depDec q) s f q.d 2 [(0, o.aux)] ∧
      (recDep (blockRec f q.blk) = 0 ∨ 3 ≤ o.stage → Claim.Ends (.qpush q) s f q.d 2 [(0, o.aux)]) ∧
      (∀ i ∈ [Instr.qpop q, .dqPop q, .dqSteal q], acts i s f = true → q.d.isV = false → ∀ b : Option (BitVec 6), q.blk = b.map Opnd.s →
        ∃ t g, Machine.exec i s = .next t ∧ getF t s.here = some g ∧ OnlyFibre s t s.here ∧ WentOnX { f with scf := g.scf } g (f.pc + 12) ∧
          t.vregs = s.vregs ∧ g.fp4x = (if q.d = .sp .fp4x then BitVec.ofNat 16 o.aux else f.fp4x) ∧
          (∀ k, q.d = .s k → sget g k.toNat = if k.toNat = 0 then sget f 0 else BitVec.ofNat 64 o.aux) ∧
          ∀ n, (∀ k, q.d = .s k → n ≠ k.toNat) → sget g n = match b with
            | some b =>
              if o.aux ≠ 0 ∧ b.toNat ≤ n ∧ n < b.toNat + 8 ∧ n ≠ 0 then BitVec.ofNat 64 (o.rcd.toNat / 2 ^ (64 * (n - b.toNat)))
              else sget f n
            | none => sget f n))

/-- The first step of an atomic: its lanes are checked, and the fibre holds the operation with their data; no request yet.
Choices of the model that clauses of it rest on: log entry 36, DEDUCED. -/
def Obligations.AtomicBegins : Prop :=
  ∀ (s : State) (f : Fibre) (x : AtomOp) (c : Opnd), f.op = none → f.dual = none →
    ∀ i ∈ [Instr.atomAdd x, .atomSub x, .atomMin x, .atomMax x, .atomAnd x, .atomOr x, .atomXor x, .atomXchg x, .atomCas x c, .atomInc x,
        .atomDec x, .atomFadd x],
    acts i s f = true →
    let r := laneChecks s s.here f (cidOf s f) (4 * x.t.regs) (Ask.both (4 * x.t.regs)) .normal
      (memLanes s f x.h x.d.isV x.base (.imm 0) 0)
    r.miss = [] → r.bad = [] →
      ∃ t g o, Machine.exec i s = .next t ∧ getF t s.here = some g ∧ g.op = some o ∧ g.pc = f.pc ∧ t.mem = s.mem ∧
        SameRegs s t f g ∧ t.reqs = s.reqs ∧
        o.lanes.map (fun l => (l.lane, l.pa, l.b)) = r.ok.map fun l => (l.lane, l.pa, opVal s f s.here x.b x.t.regs l.lane)

/-- `cadd`, `cmin`, `cmax` (R234, R243) outside a redundant pair, whose lanes translate to their declared pages: the lanes' data are folded,
in ascending order, into the core's partials of their lines; nothing is written to memory or to a register, and a new span starts at the
next word. A lane's data are cut into the elements of the operation, each folded into what the core has for its place in the line; a
partial of another operation goes to the home first.
Choices of the model that clauses of it rest on: log entry 21, DEDUCED; log entry 40, DEDUCED (exact partials of no fixed width; and a
partial of another operation leaves, which is none of the occasions that R234 lists). -/
def Obligations.Contributions : Prop :=
  ∀ (s : State) (f : Fibre) (h : Hdr) (t : Ty) (data base : Opnd) (off : Src),
    ∀ e ∈ [(Instr.cadd h t data base off, caddCop t), (.cmin h t data base off, 4), (.cmax h t data base off, 5)],
      let n := accessSize t
      let core := s.here.core
      let r := laneChecks s s.here f (cidOf s f) n { Ask.both n with wantCop := some e.2 } .normal (memLanes s f h data.isV base off n)
      let fold (u : State) (l : OpLane) : State := contributeLane core e.2 n u { l with b := opVal s f s.here data t.regs l.lane }
      acts e.1 s f = true → f.op = none → f.dual = none → r.miss = [] → r.bad = [] →
        (∃ u g, Machine.exec e.1 s = .next u ∧ getF u s.here = some g ∧ WentOnX f g (f.pc + 12) ∧ SameRegs s u f g ∧ u.mem = s.mem ∧
          (∀ c, c ≠ core → getC u c = getC s c) ∧ u.cores = (r.ok.foldl fold (fillTlb s s.here f (cidOf s f) r.ok)).cores) ∧
        ∀ l, tabWf Core.init s.cores = true → tabRises (getC s core).parts = true →
          let line := lineNo l.pa
          let w := copSize e.2
          let v := opVal s f s.here data t.regs l.lane
          tfind (getC (fold s l) core).parts line = some
            { cop := e.2
              elems := mergeElems e.2
                (match tfind (getC s core).parts line with
                 | some y => if y.cop = e.2 then y.elems else []
                 | none => [])
                ((List.range (n / w)).map fun j => (l.pa % 128 + j * w, contribute e.2 (v / 2 ^ (8 * w * j) % 2 ^ (8 * w)))) }

/-! ### Rows 0xA_ and 0xB_: engines -/

/-- Where it acts, `i` puts a command `c` among those outstanding and counts it in its class (R259, R288); a new span starts at the next
word; no register and no memory changes. -/
def Claim.Issues (i : Instr) (s : State) (f : Fibre) (cls : OcClass) (P : Cmd → Prop) : Prop :=
  acts i s f = true → f.op = none → f.dual = none →
    ∃ t g c, Machine.exec i s = .next t ∧ getF t s.here = some g ∧ g.pc = f.pc + 12 ∧ SameRegs s t f g ∧ t.mem = s.mem ∧
      t.cmds = s.cmds ++ [c] ∧ c.cls = cls ∧ c.fib = s.here.fib ∧ c.core = s.here.core ∧ c.done = false ∧ P c ∧
      g.oc = (countIssue f cls).oc

/-- `copy` (R289), `gath` and `scat` (R290), `coll` (R412): a command of at least one element, whose operands pass every check, is issued
while its queue has room; a `coll` once the drains of its scope are done.
Choices of the model that clauses of it rest on: log entry 19, DEDUCED. -/
def Obligations.EngineCommands : Prop :=
  ∀ (s : State) (f : Fibre) (h : Hdr) (pol : CPol) (out : Bool) (ch : BitVec 2) (a b c d : Opnd) (t : Ty) (sc : Scope) (k : CollKind)
    (op : CollOp),
    let ls := passLanes s f s.here h.guard
    let A := opVal s f s.here a 2 0
    let B := opVal s f s.here b 2 0
    let C := opVal s f s.here c 2 0
    let D := opVal s f s.here d 2 0
    let es := 4 * t.regs
    let n := C % 2 ^ 32
    let cm := bitsAt C 48 8
    let dn := if k = .ag then n * (commMembers s cm).length * es else n * es
    (maskOf ls ≠ 0 → C / 2 ^ 48 = 0 → n % 4 = 0 → A % 4 = 0 → B % 4 = 0 → D % 4 = 0 → n ≠ 0 → C / 2 ^ 32 % 2 ^ 16 ≠ 0 →
      A + C / 2 ^ 32 % 2 ^ 16 * n ≤ scratchSize s f → (chanOf (getC s s.here.core) ch.toNat).queue.length < queueLen →
      Claim.Issues (.copy h pol out ch a b c d) s f .copy fun x =>
        x.xa = A ∧ x.ga = B ∧ x.nb = n ∧ x.rows = C / 2 ^ 32 % 2 ^ 16 ∧ x.stride = D ∧ x.out = out ∧ x.ch = ch.toNat) ∧
    (ls ≠ [] → C % 4 = 0 → C ≤ 65536 → C ≠ 0 →
      (∀ l ∈ ls, opVal s f s.here b 2 l % 4 = 0 ∧ A + (l + 1) * C ≤ scratchSize s f) → (getC s s.here.core).gathq.length < queueLen →
      Claim.Issues (.gath h pol a b c) s f .gath (fun x => x.xa = A ∧ x.nb = C ∧ x.out = false ∧ x.lanes = ls.map fun l => (l, opVal s f s.here b 2 l)) ∧
      Claim.Issues (.scat h pol a b c) s f .gath (fun x => x.xa = A ∧ x.nb = C ∧ x.out = true ∧ x.lanes = ls.map fun l => (l, opVal s f s.here b 2 l))) ∧
    (maskOf ls ≠ 0 → bitsAt C 41 7 = 0 → bitsAt C 56 8 = 0 → bitsAt (commWord s cm 8) 16 1 = 1 →
      bitsAt (commWord s cm 8) 0 12 = cidOf s f → commHas s cm s.modNo = true → (k = .bc → commHas s cm (bitsAt C 32 9) = true) →
      A % es = 0 → B % es = 0 → n ≠ 0 → A + n * es ≤ B ∨ B + dn ≤ A ∨ (A = B ∧ n * es = dn) → drained s s.here.core sc = true →
      Claim.Issues (.coll h t sc k op a b c) s f .coll fun x =>
        x.ga = A ∧ x.xa = B ∧ x.nb = n ∧ x.ty = t ∧ x.kind = k ∧ x.cop = op ∧ x.comm = cm ∧ x.root = bitsAt C 32 9)

/-- `wait` (R292) and `waitp` (R293): with the count met and no failure to report they go on; with the count not met the fibre waits at
the instruction, or its next half that can run goes on (R163). A `wait` with a failure to report takes it out of those not yet reported,
and is ENGINE, class 0x0B, precise, with its failing address; it counts as completed (R281). -/
def Obligations.Waits : Prop :=
  ∀ (s : State) (f : Fibre) (h : Hdr) (cls : OcClass) (n : Src) (ch : BitVec 2),
    let v := match n with
      | .imm i => i.toNat
      | .reg o => opVal s f s.here o 2 0
    (takeFail f cls v = none → ocOf f cls ≤ v → Claim.Falls (.wait h cls n) s f) ∧
    (v ≤ cwp s f s.here ch.toNat → Claim.Falls (.waitp h ch n) s f) ∧
    (∀ e g, acts (.wait h cls n) s f = true → takeFail f cls v = some (e, g) →
      Machine.exec (.wait h cls n) s = .next (raise (setF s s.here g) s.here
        { faultInfo g none with cls := 0x0B, addrs := [(lowLane g, e.va)], acc := 5, retry := false })) ∧
    (acts (.wait h cls n) s f = true → takeFail f cls v = none → v < ocOf f cls →
      ∃ t, Machine.exec (.wait h cls n) s = .next t ∧ getF t s.here = some (Claim.waiting f (.wait cls (BitVec.ofNat 64 v))) ∧
        OnlyFibre s t s.here ∧ t.vregs = s.vregs) ∧
    (acts (.waitp h ch n) s f = true → cwp s f s.here ch.toNat < v →
      ∃ t, Machine.exec (.waitp h ch n) s = .next t ∧ getF t s.here = some (Claim.waiting f (.waitp ch.toNat (BitVec.ofNat 64 v))) ∧
        OnlyFibre s t s.here ∧ t.vregs = s.vregs)

/-- What a read of memory has left as it was: the fibres, their groups and contexts, and the matrix engines. -/
def Claim.SameFibres (s u : State) : Prop :=
  u.here = s.here ∧ u.fibres = s.fibres ∧ u.groups = s.groups ∧ u.insts = s.insts ∧ u.ctxs = s.ctxs ∧ u.quays = s.quays

/-- `mwld` (R331), `mpass`, `mtab` (R332): with the berth's entry empty, the address aligned and a card that can be read and is legal, the
entry of the reservation table is filled, and the command is counted. -/
def Obligations.MatrixCommands : Prop :=
  ∀ (s : State) (f : Fibre) (h : Hdr) (pol : CPol) (a : Opnd),
    let va := opVal s f s.here a 2 0
    let q := quayOf s.here.core
    let fills (i : Instr) (u : State) (k : Nat) (P : MEnt → Prop) : Prop :=
      ∃ t g e, Machine.exec i s = .next t ∧ getF t s.here = some g ∧ g.pc = f.pc + 12 ∧ g.scal = f.scal ∧ t.vregs = u.vregs ∧
        g.oc = (countIssue f .matrix).oc ∧ tfind (getQy t q).ents (entryNo s.here) = some e ∧ e.kind = k ∧ e.addr = va ∧
        e.cid = cidOf s f ∧ e.done = false ∧ P e ∧ t.mem = u.mem
    entryFull s s.here = false → va % 128 = 0 → f.op = none → f.dual = none → tabWf Quay.init s.quays = true →
      (acts (.mwld h pol a) s f = true → fills (.mwld h pol a) s 1 fun e => e.mask = f.amask) ∧
      ∀ x b s1, engLoad s (ownerCard s.here) s.here.core (cidOf s f) pol va 128 = (.ok b, x, s1) →
        let u := farDrop s1 (ownerCard s.here)
        Claim.SameFibres s u → maskOf (passLanes s f s.here h.guard) ≠ 0 →
        cardCls (BitVec.ofNat 1024 (natOf b)) (64 * partAcc (descOf s f)) (65536 * partScr (descOf s f)) = 0 →
        (acts (.mpass h pol a) s f = true → cardBad (BitVec.ofNat 1024 (natOf b)) false = false →
          fills (.mpass h pol a) u 2 fun e => e.card = BitVec.ofNat 1024 (natOf b)) ∧
        (acts (.mtab h pol a) s f = true → cardBad (BitVec.ofNat 1024 (natOf b)) true = false →
          fills (.mtab h pol a) u 3 fun e => e.card = BitVec.ofNat 1024 (natOf b))

/-! ### Row 0xC_: barriers and launches -/

/-- `bar`, `bar.arr`, `bar.wt` (R301 to R303): a piece that arrives with its drains done waits for its family, or arrives for it; a
`bar.wt` whose generation has passed goes on, and one whose generation has not waits behind the instruction. -/
def Obligations.GroupBarriers : Prop :=
  ∀ (s : State) (f : Fibre) (g : Group) (h : Hdr) (sc : Scope) (b : BitVec 4) (n : BitVec 6) (d a : Opnd), groupOf s f = some g →
    let here (i : Instr) (dst : Option Opnd) : Prop :=
      acts i s f = true → (barOf g b.toNat).arrived.contains (rootNo s.here.berth f.root) = false → drained s s.here.core sc = true →
        ctxFlag s (cidOf s f) 115 = false →
          let t := setWaitX (nextX s s.here) s.here (.barJoin b.toNat n.toNat dst f.pc)
          Machine.exec i s = .next (settle (if famAt t s.here f.root (atBarJoin b.toNat f.pc) then barArrive t s.here f b.toNat n.toNat f.pc
            else t) s.here)
    here (.bar h sc b n) none ∧ here (.barArr h sc d b n) (some d) ∧
    ((barOf g b.toNat).gen ≠ opVal s f s.here a 1 0 → Claim.FallsX (.barWt h sc a b) s f) ∧
    (acts (.barWt h sc a b) s f = true → f.op = none → (barOf g b.toNat).gen = opVal s f s.here a 1 0 →
      ∃ t u, Machine.exec (.barWt h sc a b) s = .next t ∧ OnlyFibre s t s.here ∧ SameRegs s t f u ∧ WentOnX f u (f.pc + 12) ∧
        getF t s.here = some (Claim.waitingX u (.barWt b.toNat (barOf g b.toNat).gen)))

/-- `launch` (R350) and `graph.trig` (R351) outside a redundant pair, once the drains of `mod` scope are done: a descriptor that can be
read and is legal gives an instance, with its identifier in D; a trigger that is not refused starts a run, with 0 in D.
Choices of the model that clauses of it rest on: log entry 30, DEDUCED. -/
def Obligations.Launches : Prop :=
  ∀ (s : State) (f : Fibre) (h : Hdr) (d a b c : Opnd), drained s s.here.core .mod = true → suppressed s f h = false → f.dual = none →
    f.op = none →
    let va := opVal s f s.here a 2 0
    (∀ x s1 l, acts (.launch h d a b) s f = true → va % 128 = 0 →
      engLoad s (ownerCard s.here) s.here.core (cidOf s f) .normal va 128 = (.ok l, x, s1) →
      let u := farDrop s1 (ownerCard s.here)
      let dsc := withParam (BitVec.ofNat 1024 (natOf l)) (opVal u f s.here b 2 0)
      descBad dsc = false → instFull u = false →
        let r := acceptInst u (cidOf u f) va dsc none (clockOf u s.here.core)
        Machine.exec (.launch h d a b) s = .next (trigStatus r.2 f d r.1)) ∧
    (acts (.graphTrig h d a b c) s f = true → va / 1024 = 0 → opVal s f s.here c 2 0 = 0 →
      trigReason s va (some (cidOf s f)) 0 = 0 →
        Machine.exec (.graphTrig h d a b c) s = .next (trigStatus (startRun s va (cidOf s f) [] (clockOf s s.here.core)) f d 0))

/-! ### Events of lines and homes -/

/-- A request is at the head for its home, which is free to serve it: the line is the module's and not busy, no owner has to be recalled,
nothing older stands before it, and no port has to be read. -/
def Claim.Servable (s : State) (r : Req) : Prop :=
  findReq s r.id = some r ∧ isOwn s r.pa = true ∧ (getHome s (lineNo r.pa)).busy = false ∧ behindPart s r = false ∧
    mayServe s r = (true, s) ∧ needsRecall r (getHome s (lineNo r.pa)).owner = false ∧ needsPort s r = false

/-- The home serves each kind of request in its own row (R222, R223, R229, R234, R244, R305, R359, R362): the request leaves the
home's list, is performed on the line and answered (`serveNow`); the answer of a lease, of an ownership or of an atomic is on its way
to the core.
Choices of the model that clauses of it rest on: log entry 1, DESIGN CHOICE. -/
def Obligations.HomeServes : Prop :=
  ∀ (s : State) (r : Req), Claim.Servable s r →
    ∀ e ∈ [(Instr.homeLeaseRequest r.id, isLease r.op), (.ownershipRequest r.id, isOwnOp r.op), (.untrackedAccess r.id, isUntracked r.op),
        (.partialArrival r.id, isPart r.op), (.homeAtomic r.id, isAtomic r.op), (.homeMbarOp r.id, isMbar r.op),
        (.homeQueueOp r.id, isQueueOp r.op), (.homeDepDec r.id, r.op == .dep), (.depRecordArrival r.id, isDepRec r.op)],
      e.2 = true → Machine.exec e.1 s = .next (serveNow s r) ∧
        (isLease r.op = true ∨ isOwnOp r.op = true ∨ isAtomic r.op = true → ownCore r.core = true →
          ∃ x ∈ (serveNow s r).replies, x.id = r.id ∧ x.req = r ∧ x.ans = (perform (countServed (dropReq s r.id) r) r).1)

/-- What the home does to memory (R222, R225, R229, R244, R245): a lease and a read leave it as the partials it collects make it, a
lease lasts to the larger of the line's highest lease and clock plus length, raised to the slice's base; a write stores its bytes; an
atomic stores the new value where it writes one and answers with the old; on a line in error it does neither. -/
def Claim.HomeMemoryRule : Prop :=
  ∀ (s : State) (pa clk len lane major : Nat) (bytes : List Byte) (t : Ty) (pc : DWord) (b c : Nat),
    let u := collect (crossLine s (lineNo pa)) (lineNo pa)
    let old := memRd u.mem (localAddr pa) (4 * t.regs)
    let at_ := homeAtomicOp s pa clk major t lane pc b c
    (homeLease s (lineNo pa) clk len).2.mem = u.mem ∧ (homeRead s (lineNo pa)).2.mem = u.mem ∧
    (homeLease s (lineNo pa) clk len).1.lt = capTide (max (max (getHome u (lineNo pa)).hl (clk + len))
      (getSl (homeLease s (lineNo pa) clk len).2 (sliceOfPa (lineNo pa * 128))).base) ∧
    (homeWrite s pa clk bytes).2.mem = memWr u.mem (localAddr pa) bytes ∧
    (isErr u (lineNo pa) = false → at_.1.data = old ∧ at_.1.cls = 0 ∧
      (atomNew major t lane pc (natOf old) b c = none → at_.2.mem = u.mem ∧ at_.1.status = 0) ∧
      ∀ v, atomNew major t lane pc (natOf old) b c = some v → at_.1.status = 1 ∧
        at_.2.mem = memWr (collect (crossLine u (lineNo pa)) (lineNo pa)).mem (localAddr pa) (bytesOf (4 * t.regs) v)) ∧
    (isErr u (lineNo pa) = true → at_.1.cls = 8 ∧ at_.2.mem = u.mem)

/-- What each integer atomic computes (R245), on 32 bits: add, subtract, signed and unsigned minimum and maximum, and, or, exclusive or,
exchange, compare and swap, wrapping increment and decrement. -/
def Claim.AtomicValuesRule : Prop :=
  ∀ (lane : Nat) (pc : DWord) (old b c : Word),
    atomNew 0x90 .i32 lane pc old.toNat b.toNat c.toNat = some (old + b).toNat ∧
    atomNew 0x91 .i32 lane pc old.toNat b.toNat c.toNat = some (old - b).toNat ∧
    atomNew 0x92 .i32 lane pc old.toNat b.toNat c.toNat = some (if b.slt old then b else old).toNat ∧
    atomNew 0x93 .i32 lane pc old.toNat b.toNat c.toNat = some (if old.slt b then b else old).toNat ∧
    atomNew 0x92 .n32 lane pc old.toNat b.toNat c.toNat = some (if b.ult old then b else old).toNat ∧
    atomNew 0x93 .n32 lane pc old.toNat b.toNat c.toNat = some (if old.ult b then b else old).toNat ∧
    atomNew 0x94 .b32 lane pc old.toNat b.toNat c.toNat = some (old &&& b).toNat ∧
    atomNew 0x95 .b32 lane pc old.toNat b.toNat c.toNat = some (old ||| b).toNat ∧
    atomNew 0x96 .b32 lane pc old.toNat b.toNat c.toNat = some (old ^^^ b).toNat ∧
    atomNew 0x97 .b32 lane pc old.toNat b.toNat c.toNat = some b.toNat ∧
    (atomNew 0x98 .b32 lane pc old.toNat b.toNat c.toNat = if old = b then some c.toNat else none) ∧
    atomNew 0x99 .n32 lane pc old.toNat b.toNat c.toNat = some (if b.toNat ≤ old.toNat then 0 else old.toNat + 1) ∧
    atomNew 0x9A .n32 lane pc old.toNat b.toNat c.toNat = some (if old.toNat = 0 ∨ b.toNat < old.toNat then b.toNat else old.toNat - 1)

/-- These claims together: `Claim.HomeMemoryRule` and `Claim.AtomicValuesRule`. -/
def Obligations.HomeValues : Prop := Claim.HomeMemoryRule ∧ Claim.AtomicValuesRule

/-- Answers reach the core that waits (R222, R223, R228, R244): each kind in its own row, and the answer is delivered once. -/
def Claim.AnswersArriveRule : Prop :=
  ∀ (s : State) (x : Reply) (rest : List Reply), pick (fun y => y.id == x.id) s.replies = some (x, rest) →
    ∀ e ∈ [(Instr.leaseReply x.id, isLease x.req.op), (.ownershipGrant x.id, isOwnOp x.req.op), (.atomicReply x.id, isAtomic x.req.op),
        (.parkProbeReply x.id, x.req.op == .probe)],
      e.2 = true → Machine.exec e.1 s = .next (arrive s x.id) ∧
        ((deliver { s with replies := rest } x.req x.ans).recalls = [] →
          Machine.exec e.1 s = .next (deliver { s with replies := rest } x.req x.ans))

/-- A recall (R224): the owned copy with that grant tide leaves the L1 with its dirty sectors, and the answer is due; the home then writes
it back, where that ownership has not ended otherwise, and looks at what waited.
Choices of the model that clauses of it rest on: log entry 49, DEDUCED. -/
def Claim.RecallsRule : Prop :=
  ∀ (s : State) (c : Recall) (rest : List Recall),
    (s.recalls.find? (fun x => x.id == c.id && !x.answered) = some c →
      (∀ x ∈ s.replies, ¬ (x.req.core = c.core ∧ lineNo x.req.pa = c.line ∧ x.req.op = .own)) →
      ∀ cp, getCopy s c.core c.line = some cp → cp.owned = true → c.ended = false → cp.wt ≤ max c.grant (getC s c.core).base →
        ∃ t, Machine.exec (.recall c.id) s = .next t ∧ t.mem = s.mem ∧
          t.agenda = s.agenda ++ [.recallAnswer c.id] ∧ t.cores = (dropCopy s c.core c.line).cores ∧
          ∃ x ∈ t.recalls, x.id = c.id ∧ x.answered = true ∧ x.data = some (cp.data, cp.dirty)) ∧
    (pick (fun x : Recall => x.id == c.id && x.answered) s.recalls = some (c, rest) →
      let t := if c.ended then { s with recalls := rest } else takeBack { s with recalls := rest } c.core c.line c.data
      let u := setHome t c.line { getHome t c.line with busy := false }
      ((findReq s c.id).isSome = true → Machine.exec (.recallAnswer c.id) s = .next (serveReq u c.id)) ∧
        (findReq s c.id = none → Machine.exec (.recallAnswer c.id) s = .next (wakeLine u c.line)) ∧
        (∀ d m, c.ended = false → c.data = some (d, m) → t.mem = writeBack s.mem c.line d m))

/-- These claims together: `Claim.AnswersArriveRule` and `Claim.RecallsRule`. -/
def Obligations.AnswersAndRecalls : Prop := Claim.AnswersArriveRule ∧ Claim.RecallsRule

/-- Events of lines. A promotion at the victim's core (R242): where no fibre there is releasing, the core sends what it holds, and once
everything asked has drained it answers with its clock. The clock nudges (R227). A parked fibre's probe is sent every 256 cycles, and
served at its home (R228). A packet of a peer that a link has delivered is served at its home as a request of that module; the reply of
a peer to a load is delivered, and one not answered within 2,000,000 ticks ends with LINK (R232, R407). A host's write and its read within
a line of its window act at the home, a read of a register that BAR 0 maps reads it, and any other access does nothing (R409).
A line read through a port is stored and its request served, and a port's acknowledgement of a write lets the core's drains look again
(R26).
Choices of the model that clauses of it rest on: log entry 35, DEDUCED; log entry 39, DESIGN CHOICE; log entry 49, DEDUCED. -/
def Obligations.LineEvents : Prop :=
  ∀ (s w : State) (p : Place) (f : Fibre) (r : Req) (v core src pa : Nat) (sc : Scope) (clk : DWord) (op : PeerOp) (rep : PeerRep)
    (data : List Byte),
    (findReq s r.id = some r → r.op = .prom v sc → isOwn s r.pa = true →
      (∀ e ∈ s.fibres, ¬ ((placeOf e.1).core = v ∧ e.2.relq ≠ [] ∧ (e.2.relWait = true ∨ (e.2.froz = .no ∧ e.2.dbg.halted = false)))) →
      let u := startDrains (sendParts s v) v sc
      (drained u v sc = true → Machine.exec (.promVictim r.id) s = .next (serveNow u r)) ∧
        (drained u v sc = false → Machine.exec (.promVictim r.id) s = .next u) ∧
        (perform (dropReq u r.id) r).1.status = clockOf u (r.pa % 1024)) ∧
    (getF s p = some f → 64 ≤ f.spin.2.1 → f.spin.2.2 + 1024 ≤ cycOf s p.core →
      Machine.exec (.spinNudge p) s = .next (raiseClock (setF s p { f with spin := (0, 0, 0) }) p.core
        (max (clockOf s p.core + maxLease s p.core + 1) (((getCopy s p.core f.spin.1).map Copy.lt).getD 0 + 1)))) ∧
    ((getC s core).lastClock + 1024 ≤ cycOf s core → (∃ e ∈ s.fibres, (placeOf e.1).core = core ∧ isParked e.2 = true) →
      Machine.exec (.parkedClockNudge core) s = .next (raiseClock s core (clockOf s core + maxLease s core + 1))) ∧
    (s.reqs.find? (fun x => x.op == .probe && probeFor p x.cont && isOwn s x.pa) = some r →
      Machine.exec (.parkProbe p) s = .next (serveReq s r.id)) ∧
    ((∀ q ∈ s.reqs, probeFor p q.cont = false) → (∀ x ∈ s.replies, probeFor p x.req.cont = false) → getF s p = some f → f.froz = .no →
      f.probed + 256 ≤ cycOf s p.core →
      Machine.exec (.parkProbe p) s =
        .next ((parkedAt f).foldl (probeAgain p) (modF s p fun f => { f with probed := cycOf s p.core })) ∧
          ∀ va x u, accessNow s p.core (cidOf s f) va (Ask.load 1) = (0, x, u) → lineNo x = lineNo pa →
            probeAgain p s (pa, some va) = sendReq u p.core (cidOf s f) x .probe (.park p)) ∧
    (src ≠ s.modNo → pa < 2 ^ 47 → takePacket s pa = some w → (∀ c, op ≠ .close c) → (∀ c k, op ≠ .prom c k) →
      ∃ x, x.id = w.nextId ∧ x.core = peerCore src ∧ x.pa = w.modNo * 2 ^ 47 + pa ∧ x.op = (peerHomeOp src op).1 ∧ x.clk = clk.toNat ∧
        Machine.exec (.peerPacket src pa clk op) s =
          .next (serveReq { w with nextId := w.nextId + 1, reqs := w.reqs ++ [x] } w.nextId)) ∧
    (findReq s r.id = some r → isOwn s r.pa = false → takePacket s r.pa = some w → r.op = .load 128 → rep.cls = 0 →
      Machine.exec (.peerReply r.id rep) s =
        .next (deliver (dropReq w r.id) r { data := rep.data, wt := rep.wt, lt := rep.lt, status := rep.status.toNat, cls := 0 })) ∧
    (findReq s r.id = some r → isOwn s r.pa = false → r.sent + 2000000 ≤ s.time → s.unreach.contains (r.pa / 2 ^ 47 % 512) = false →
      Machine.exec (.peerReplyTimeout r.id) s =
        .next (deliver (dropReq { s with unreach := s.unreach ++ [r.pa / 2 ^ 47 % 512] } r.id) r
          { data := [], wt := 0, lt := 0, status := 0, cls := 0x10 })) ∧
    (inWindow s pa data.length = true → data ≠ [] → pa % 128 + data.length ≤ 128 →
      (∃ t, Machine.exec (.hostMemoryAccess (.write pa data)) s = .next t ∧
        t.mem = (homeWrite (recallNow { s with nextId := s.nextId + 1 } (lineNo (s.modNo * 2 ^ 47 + pa))) (s.modNo * 2 ^ 47 + pa) 0 data
          s.nextId).2.mem) ∧
      let r := readNow s (s.modNo * 2 ^ 47 + pa) data.length
      Machine.exec (.hostMemoryAccess (.read pa data.length)) s = .next r.2 ∧
        r.1.data = memRd r.2.mem (localAddr (s.modNo * 2 ^ 47 + pa)) data.length) ∧
    (inWindow s pa data.length = false →
      Machine.exec (.hostMemoryAccess (.write pa data)) s = .next s ∧
      Machine.exec (.hostMemoryAccess (.read pa data.length)) s =
        .next (if hostReads s pa data.length then (regRead s pa data.length).2 else s)) ∧
    (findReq s r.id = some r → isOwn s r.pa = true → needsPort s r = true → (getHome s (lineNo r.pa)).busy = true →
      data.length = 128 → (∀ c ∈ s.recalls, c.id ≠ r.id) →
      Machine.exec (.portReply r.id data) s =
        .next (serveNow (setHome { s with mem := memWr s.mem (localAddr (lineNo r.pa * 128)) data } (lineNo r.pa)
          { getHome s (lineNo r.pa) with busy := false }) { r with port := true })) ∧
    (findReq s r.id = some r → r.op = .store [] → r.port = true → ownCore r.core = true →
      Machine.exec (.portReply r.id data) s = .next (wakeProm (dropReq s r.id) r.core))

/-! ### Events of fibres, berths and spans -/

/-- The switches of a berth and of a divided fibre (R148, R149, R163): after 4,096 instructions the next ready fibre context in ring order
takes the issue slots; one that has waited 4,080 cycles takes them from the current one, the longest waiting first; after 256
instructions of a half the next half that can run goes on, from its own pc, with its own lanes. -/
def Obligations.Switches : Prop :=
  ∀ (s : State) (core berth c : Nat) (p : Place) (f : Fibre) (h : Half) (hs : List Half),
    let b := getB s core berth
    let at_ (k : Nat) : Place := { core, berth, fib := k }
    (4096 ≤ b.run → tabWf Berth.init s.berths = true → ((List.range 7).map fun i => (b.cur + 1 + i) % 8).find? (fun k => readyFib s (at_ k)) = some c →
      Machine.exec (.fibreQuantumExpiry core berth) s = .next (setB s core berth { b with cur := c, run := 0 })) ∧
    (4096 ≤ b.run → (∀ k, k < 8 → k ≠ b.cur → readyFib s (at_ k) = false) → b.cur < 8 →
      Machine.exec (.fibreQuantumExpiry core berth) s = .next (setB s core berth { b with run := 0 })) ∧
    (starved s core berth = some c →
      Machine.exec (.starvationOverride core berth) s = .next (setB s core berth { b with cur := c, run := 0 }) ∧ c ≠ b.cur ∧
        ∃ w, waitedFib s (at_ c) = some w ∧ 4080 ≤ w ∧ ∀ k, k < 8 → k ≠ b.cur → ∀ v, waitedFib s (at_ k) = some v → v ≤ w) ∧
    (getF s p = some f → f.halves = h :: hs → h.wait = .none → 256 ≤ f.halfCount → eligible s p f = true → f.op = none →
      f.committing = false → f.pilot.on = false →
        ∃ t, Machine.exec (.dividedHalfRotate p) s = .next t ∧ t = { s with fibres := t.fibres } ∧
          (∀ k, k ≠ pkey p → tfind t.fibres k = tfind s.fibres k) ∧
          getF t p = some { f with
            amask := h.mask, pc := h.pc, splits := h.splits, wait := h.wait, halfCount := 0, fetched := none, emptyAt := false, xlat := []
            halves := hs ++ [{ mask := f.amask, pc := f.pc, splits := f.splits, wait := f.wait }] })

/-- Events of spans: a fetch completes and the word stands at the fibre's pc (R59); a span that has issued as many instructions as its limit
commits, and one that holds no entry is followed by a new span at the same pc (R179, R189); a faulted span is refused once its older
results are in, and the fibre is frozen at its gate with its entries unreleased (R185); and the gate of a fibre with no gate word opens, and the span is run again from its start in pilot gear, its held
entries gone (R187).
Choices of the model that clauses of it rest on: log entry 6, DEDUCED; log entry 32, DEDUCED. -/
def Claim.SpanEventsRule : Prop :=
  ∀ (s u : State) (p : Place) (f : Fibre) (fresh : Bool) (w : BitVec 96) (cls : Nat), getF s p = some f →
    (eligible s p f = true → f.span.faulted = none → f.committing = false → f.op = none → f.fetched = none →
      fetchWord s p f fresh = (.ok w, u) →
        Machine.exec (.instructionFetchReturn p fresh) s =
          .next (readied s (modF (farDrop u (ownerFetch p)) p fun g => { g with fetched := some (g.pc, w) }) p.core p.berth)) ∧
    (f.span.limit ≤ f.span.count → eligible s p f = true → f.op = none →
      Machine.exec (.spanLengthLimit p) s = .next (commitPiece s p).2) ∧
    (f.span.limit ≤ f.span.count → eligible s p f = true → f.op = none → 0 < f.span.count → f.span.hold = [] → f.span.faulted = none →
      f.committing = false → hasPend s p = false → f.dual = none → vanished f = 0 → ctxFlag s (cidOf s f) 117 = false →
        ∃ t g, Machine.exec (.spanLengthLimit p) s = .next t ∧ getF t p = some g ∧ t = { s with fibres := t.fibres } ∧
          g.spanNo = f.spanNo + 1 ∧ g.span = newSpan g ∧ g.pc = f.pc ∧ g.amask = f.amask ∧ g.pilot.on = (f.pilot.forced.isSome || f.hnd.isSome)) ∧
    (f.span.faulted = some cls → f.froz = .no → f.dbg.halted = false → hasPend s p = false → f.dual = none →
      Machine.exec (.spanCommitRefused p) s = .next (refuse s p f cls) ∧
        ∃ g, getF (refuse s p f cls) p = some g ∧ g.froz = .gated none ∧ g.span.hold = f.span.hold ∧ g.pc = f.pc) ∧
    (∀ wt, f.froz = .gated wt → f.dbg.halted = false → f.events = [] → f.dual = none → stopped s p f = false →
      descGate (descOf s f) = 0 →
      ∃ t g, Machine.exec (.gateOpen p) s = .next t ∧ getF t p = some g ∧ t.mem = s.mem ∧ g.froz = .no ∧ g.pilot.on = true ∧
        g.span.faulted = none ∧ g.span.hold = [] ∧ g.span.count = 0 ∧ g.span.start = f.span.start ∧
        g.pc = ((f.span.entry.filter fun h => h.mask != 0).headD (curHalf f)).pc ∧
        g.amask = ((f.span.entry.filter fun h => h.mask != 0).headD (curHalf f)).mask)

/-- Events of a fibre beside its spans: the oldest record that waits is posted once there is room (R364); a span that compares equal in both
copies of a pair is released in both, and one that does not is rolled back in both (R202, R418); and what the resident kernel does with
a fibre that it holds (R197).
Choices of the model that clauses of it rest on: log entry 33, DEDUCED. -/
def Claim.FibreEventsRule : Prop :=
  ∀ (s : State) (p : Place) (f : Fibre) (r : Record) (rest : List Record) (d : Dual) (q : Place) (g : Fibre) (e : Dual)
    (u v : Uncompared) (us vs : List Uncompared) (fi : FaultInfo) (inh : Bool) (ls : List (Nat × DWord)), getF s p = some f →
    (f.events = r :: rest → eventRoom s (cidOf s f) = true → f.dual = none →
      let t := postNow (setF s p { f with events := rest }) (cidOf s f) r (clockOf s p.core)
      Machine.exec (.eventPost p) s = .next
        (if rest = [] then readyNow (due t (.gateOpen p)) p
        else if eventRoom t (cidOf s f) then due t (.eventPost p) else t)) ∧
    (f.dual = some d → d.lead = true → q = { core := d.core, berth := d.berth, fib := d.fib } → getF s q = some g → g.dual = some e →
      f.relq = [] → g.relq = [] → d.unc = u :: us → e.unc = v :: vs →
      ((u.no, u.own, u.sig) = (v.no, v.own, v.sig) → us = [] →
        Machine.exec (.spanCompare p) s = .next (joinPair (equalSpan (equalSpan s p u) q v) p q)) ∧
      ((u.no, u.own) = (v.no, v.own) → u.sig ≠ v.sig →
        Machine.exec (.spanCompare p) s = .next (unequalSpan s p q u (d.mism + 1)))) ∧
    (f.froz = .resident fi inh → f.events = [] → f.dual = none →
      let goes (s : State) (f : Fibre) (pc : DWord) : State :=
        readyNow (setF s p { f with froz := .no, pc, fetched := none, emptyAt := false, xlat := [], op := none, pilot := { f.pilot with on := true } }) p
      (fi.acc = 6 → ∀ how ∈ [ResumeHow.again, .next ls],
        Machine.exec (.residentResume p how) s = .next (due (setF s p { f with froz := .gated none }) (.gateOpen p))) ∧
      (fi.acc ≠ 6 → Machine.exec (.residentResume p .again) s = .next (goes s f (resumeAt fi))) ∧
      (fi.acc ≠ 6 → fi.dst = none → Machine.exec (.residentResume p (.next ls)) s = .next (goes s f (fi.pc + 12))) ∧
      (∀ x n h, fi.acc ≠ 6 → fi.dst = some (x, n) →
        let w := writeReg s p x n ((ls.filter fun l => l.1 < 32).map fun l => (l.1, l.2.toNat)) true
        getF w p = some h → Machine.exec (.residentResume p (.next ls)) s = .next (goes w h (fi.pc + 12))) ∧
      Machine.exec (.residentResume p .killContext) s = .next (killTree s (cidOf s f)))

/-- These claims together: `Claim.SpanEventsRule` and `Claim.FibreEventsRule`. -/
def Obligations.SpanAndFibreEvents : Prop := Claim.SpanEventsRule ∧ Claim.FibreEventsRule

/-! ### Events of groups, engines, tasks and graphs -/

/-- Groups are placed where they fit (R343), saved after a drain (R276, R283), and retired once their fibres have ended and their commands are
complete (R276).
Choices of the model that clauses of it rest on: log entry 17, DESIGN CHOICE; log entry 23, DEDUCED. -/
def Obligations.GroupEvents : Prop :=
  ∀ (s : State) (g : Nat) (x : Group), getG s g = some x →
    (∀ c core tr, (cands s).find? (fun c => c.key == g) = some c → pickCore s c = some (core, tr) →
      (getI s c.inst).filter (fun i => i.st == .queued && (getX s c.cid).any fun x => overBudget x i.desc) = none →
      (getX (placeCand s c core tr) c.cid).bind gangOf = none →
        Machine.exec (.groupPlace g) s = .next (placeCand s c core tr)) ∧
    (x.st = .draining → x.since + 2 * descEst (groupDesc s x) ≤ s.time →
      ∃ t, Machine.exec (.drainTimeout g) s = .next t ∧ getG t g = some { x with st := .saving, since := s.time } ∧ t.mem = s.mem ∧
        t.vregs = s.vregs ∧ t.agenda = s.agenda ++ [.groupSaveWrite g]) ∧
    (x.st = .saving → allStopped s g = true → cmdsDone s g = true → Machine.exec (.groupSaveWrite g) s = .next (saveGroup s g x)) ∧
    (groupPlaces s g = [] → cmdsDone s g = true → x.st = .placed ∨ x.st = .retired → Machine.exec (.groupRetire g) s = .next (retireGroup s g x))

/-- The engines (R259, R280, R281, R289, R291): a channel moves 4 bytes at a time, out of the scratchpad or into it, and its count rises by 4
with them; a failure abandons the command, and its count rises by the rest, as it does where a write of it has failed at a peer; a gather
engine moves 4 bytes of one row, the first time of a command after looking at all of its rows, and abandons a command of which rows fail,
with their lowest address; a command that is done is counted in its class.
Choices of the model that clauses of it rest on: log entry 10, DEDUCED; log entry 13, DESIGN CHOICE; log entry 16, DESIGN CHOICE. -/
def Claim.EngineEventsRule : Prop :=
  ∀ (s : State) (core : Nat) (ch : BitVec 2) (id : Nat) (ids : List Nat) (c : Cmd) (moved : Mask),
    let u := 4 * c.pos
    let ga := (c.ga + u / c.nb * c.stride + u % c.nb) % 2 ^ 64
    let put := engWrite s c ga (scratchOf s c.grp (c.xa + u) 4)
    let got := engRead s c ga 4
    let next (t : State) : State := setCmd t id fun c => { c with pos := c.pos + 1, begun := true }
    let after (t : State) : State :=
      if c.nb * c.rows ≤ u + 4 then popChan (finishCmd (next t) id none) core ch.toNat else due (next t) (.copyCommandExecute core ch)
    (((chanOf (getC s core) ch.toNat).queue = id :: ids) → s.cmds.find? (fun x => x.id == id) = some c →
      (c.done = true → Machine.exec (.copyCommandExecute core ch) s =
        .next (popChan (finishCmd (addCount s core c.grp ch.toNat (c.nb * c.rows - u)) id none) core ch.toNat)) ∧
      (c.done = false → c.out = true → put.1 = 0 →
        Machine.exec (.copyCommandExecute core ch) s = .next (after (addCount put.2 core c.grp ch.toNat 4))) ∧
      (c.done = false → c.out = true → put.1 ≠ 0 → Machine.exec (.copyCommandExecute core ch) s =
        .next (popChan (finishCmd (addCount put.2 core c.grp ch.toNat (c.nb * c.rows - u)) id (some ga)) core ch.toNat)) ∧
      (∀ b, c.done = false → c.out = false → got.1 = .ok b → Machine.exec (.copyCommandExecute core ch) s =
        .next (after (addCount (scratchWr got.2.2 c.grp (c.xa + u) b) core c.grp ch.toNat 4))) ∧
      (∀ k, c.done = false → c.out = false → got.1 = .fail k → Machine.exec (.copyCommandExecute core ch) s =
        .next (popChan (finishCmd (addCount got.2.2 core c.grp ch.toNat (c.nb * c.rows - u)) id (some ga)) core ch.toNat))) ∧
    ((getC s core).gathq = id :: ids → s.cmds.find? (fun x => x.id == id) = some c → c.done = false → c.res = [] →
      let t := setCmd s id fun c => { c with begun := true }
      (∀ w k va v, gathBad t c = ([], false, w) → gathNext c moved = some k → gathUnit w c k = (.ok [], va, v) →
        let res := (List.replicate c.lanes.length 0).set k 1
        let x := setCmd v id fun c => { c with res }
        Machine.exec (.gatherCommandExecute core moved) s = .next
          (if (gathNext { c with res } 0).isNone then popGath (finishCmd x id none) core else due x (.gatherCommandExecute core 0))) ∧
      (∀ w e es, gathBad t c = (e :: es, false, w) → Machine.exec (.gatherCommandExecute core 0) s =
        .next (popGath (finishCmd w id (some (es.foldl (fun a x => min a x.2) e.2))) core))) ∧
    (∀ k b, c.out = false →
      let l := c.lanes.getD k (0, 0)
      let r := engRead s c ((l.2 + 4 * gathPos c k) % 2 ^ 64) 4
      r.1 = .ok b → (gathUnit s c k).2.2 = scratchWr r.2.2 c.grp (c.xa + l.1 * c.nb + 4 * gathPos c k) b) ∧
    (s.cmds.any (fun x => x.id == id) = true → Machine.exec (.engineCommandComplete id) s = .next (completeCmd s id)) ∧
    (∀ p f, s.cmds = [c] → c.id = id → c.of = none → cmdDone s c = true → c.fail = none →
      (getG s c.grp).bind Group.partner = none → ownerPlace c.core c.berth c.fib = some p → getF s p = some f → f.wait = .none →
      f.halves = [] → c.counted = false →
        ∃ t g, Machine.exec (.engineCommandComplete id) s = .next t ∧ t.cmds = [] ∧ getF t p = some g ∧
          g.oc = f.oc.set (clsNo c.cls) (ocOf f c.cls - 1)) ∧
    (s.cmds.any (fun x => x.id == id) = false → Machine.exec (.engineCommandComplete id) s = .next (completeMat s id))

/-- The matrix engine of a quay (R309, R322, R323, R379): the command granted begins a step, or accumulates the next element of the one it has
begun; a step that ends counts towards the run, and pulses unless the command was abandoned in it; a command that has waited 2^20 cycles
is marked as aged. The tile of the step after the one under way is loaded into a plane: of this command, else of the one that ranks next;
a tile on an untracked page is not read ahead.
Choices of the model that clauses of it rest on: log entry 10, DEDUCED; log entry 51, DESIGN CHOICE. -/
def Claim.MatrixEventsRule : Prop :=
  ∀ (s : State) (q k n : Nat) (e e' : MEnt) (t : State),
    (grant s q = some (k, e, n) →
      let b : MEnt := { e with begun := true }
      let s0 := match ((getQy s q).run.bind (tfind (getQy s q).ents)).filter fun x => x.id != e.id with
        | some x => farDrop s x.id
        | none => s
      let s1 := setQy s0 q { getQy s q with ents := tput (getQy s q).ents k b, run := some k, steps := n }
      (runStep s1 q b = (none, t) → Machine.exec (.matrixStep q) s = .next t) ∧
      (runStep s1 q b = (some e', t) → e'.part.isSome = true → e'.done = false →
        let r := setQy t q { getQy t q with ents := tput (getQy t q).ents k e', steps := n }
        Machine.exec (.matrixStep q) s = .next (if (grant r q).isSome then due r (.matrixStep q) else r)) ∧
      (runStep s1 q b = (some e', t) → e'.part = none →
        let r := farDrop (setQy t q { getQy t q with
          ents := tput (getQy t q).ents k { e' with lastRun := cycOf t (4 * q), aged := false }, steps := n + 1 }) e.id
        let r := if e'.fail.isNone then pulse r e.cid else r
        let r := if e'.done = true then due r (.engineCommandComplete e.id) else r
        Machine.exec (.matrixStep q) s = .next (if (grant r q).isSome then due r (.matrixStep q) else r)) ∧
      (∀ m, b.part = some m → runStep s1 q b = (some (addNext s1 b m).1, (addNext s1 b m).2) ∧
        let x := m.rows.getD (m.pos / cNw b.card % m.rows.length) (0, [], [])
        (addNext s1 b m).2 = modG s1 b.grp fun g => addElem g b.card m.tile (stepC b.card b.pos + (x.1 : Int)).toNat x.2.1 x.2.2
          (m.pos / (m.rows.length * cNw b.card)) (m.pos % cNw b.card)) ∧
      nextTile s q =
        if e.part = none then some (e, tileAt e e.pos)
        else if e.pos + 1 < cSteps e.card then some (e, tileAt e (e.pos + 1))
        else (bestEnt s q (some k)).map fun b => (b.2, tileAt b.2 b.2.pos)) ∧
    (∀ va, nextTile s q = some (e, va) →
      (tileTracked s e va = false → Machine.exec (.weightPlaneLoad q) s = .next s) ∧
      (tileTracked s e va = true → ∀ r u, loadPlane s q e va = (r, u) →
        Machine.exec (.weightPlaneLoad q) s = .next (match r with
          | .fail _ _ => farDrop u e.id
          | _ => u))) ∧
    (tfind (getQy s q).ents k = some e → 2 ^ 20 ≤ waited s q e → e.done = false →
      Machine.exec (.matrixAgePromote q k) s =
        .next (setQy s q { getQy s q with ents := tput (getQy s q).ents k { e with aged := true } }))

/-- These claims together: `Claim.EngineEventsRule` and `Claim.MatrixEventsRule`. -/
def Obligations.Engines : Prop := Claim.EngineEventsRule ∧ Claim.MatrixEventsRule

/-- The harbourmaster (R358) and graphs (R346, R347): a ready record whose kernel is legal becomes an instance, one whose kernel cannot be read
or is not in the table is refused; a trigger takes its patches as they stood when its register was written, and starts a run, or counts as
refused; a read of the refused count clears it; the waiting records of a run are placed.
Choices of the model that clauses of it rest on: log entry 30, DEDUCED. -/
def Obligations.TaskEvents : Prop :=
  ∀ (s took u w : State) (ps : List (Nat × Nat)) (cid q a c : Nat) (x : Ctx) (e : QRec) (d : BitVec 1024) (slot run : Nat) (np : BitVec 7),
    let again (t : State) : State :=
      if ((tfind t.queues q).bind readyWharf).isSome && !instFull t then due t (.taskTake cid) else t
    (getX s cid = some x → x.tq = some q → accepts x = true → instFull s = false → takeRec s q false = some (e, u) →
      (kernelDesc s x cid (recKid e.rcd) = .ok a d w → takeRec w q false = some (e, took) → descBad d = false →
        Machine.exec (.taskTake cid) s = .next (again (acceptInst took cid a (withParam d (recParam e.rcd)) e.run e.clk).2)) ∧
      (kernelDesc s x cid (recKid e.rcd) = .bad a c w → takeRec w q false = some (e, took) →
        Machine.exec (.taskTake cid) s = .next (again (refuseTask took cid a c e.run)))) ∧
    (slot < 1024 → s.boot.crashed = false → trigTake s slot np.toNat = (ps, u) → trigReason u slot none np.toNat = 0 →
      ps.all (patchOk (slotOf u slot).recs) = true →
        Machine.exec (.graphTrigger slot np) s = .next (startRun u slot (((slotOf u slot).cid).getD 0) ps u.hostTide)) ∧
    (∀ rest, s.trigs = (slot, np.toNat, ps) :: rest → trigTake s slot np.toNat = (ps, { s with trigs := rest })) ∧
    (slot < 1024 → trigTake s slot np.toNat = (ps, u) → trigReason u slot none np.toNat ≠ 0 → tabWf Slot.init u.slotTab = true →
      ∃ t, Machine.exec (.graphTrigger slot np) s = .next t ∧ t = { u with slotTab := t.slotTab } ∧
        slotOf t slot = { slotOf u slot with refused := ((slotOf u slot).refused + 1) % 2 ^ 32 }) ∧
    (slot < 1024 → tabWf Slot.init s.slotTab = true →
      ∃ t, Machine.exec (.graphRefusedRead slot) s = .next t ∧ t = { s with slotTab := t.slotTab } ∧
        slotOf t slot = { slotOf s slot with refused := 0 }) ∧
    (s.runs.any (fun r => r.id == run && r.slot == slot) = true → Machine.exec (.graphRecordPlace slot run) s = .next (placeRun s run))

/-! ### Events of contexts -/

/-- The context commands on a control block (R368, R371, R372): `alloc` of a legal block makes the context, with RESULT 1; `load` takes it to
loaded and `reload` takes a new block, where places suffice; a block that cannot be read or is malformed gives 2, places that are lacking give 3, and a context not
in a state that the command needs gives 4. While another command is in progress none of them acts. A read of RESULT clears it.
Choices of the model that clauses of it rest on: log entry 24, DEDUCED. -/
def Claim.ContextBlocksRule : Prop :=
  ∀ (s w v t : State) (b : BitVec 2048) (cid : Nat) (x : Ctx) (u : BlockUse),
    let of_ := bitsAt b.toNat 64 12
    let may (i : Instr) : Prop := s.cmd = none ∨ s.cmd = some i
    let live := liveSt (stOf s cid) = true
    (∀ i ∈ [Instr.alloc, .load, .reload cid], ¬ may i → Machine.exec i s = .next s) ∧
    (readBlock s = (none, w) ∨ (readBlock s = (some b, w) ∧ blockBad b = true) →
      (may .alloc → Machine.exec .alloc s = .next (setResult w 2)) ∧
      (may .load → Machine.exec .load s = .next (setResult w 2)) ∧
      (may (.reload cid) → live → Machine.exec (.reload cid) s = .next (setResult w 2))) ∧
    (readBlock s = (some b, w) → blockBad b = false →
      let new := newCtx b (getReg w cbReg).toNat w.time
      (may .alloc → blk new 0 64 = 0 → getX w of_ = none → w.ctxs.length < 4096 → parentOf w new = none →
        Machine.exec .alloc s = .next (setResult (clearDebug (setX w of_ new) of_) 1)) ∧
      (may .load → blockUse w ownerLoad of_ b = .bad v → Machine.exec .load s = .next (setResult v 2)) ∧
      (may .load → blockUse w ownerLoad of_ b = .ok u v → getX v of_ = some x →
        (x.st ≠ 0 → Machine.exec .load s = .next (setResult v 4)) ∧
        (x.st = 0 →
          let r := takeBlock v of_ { x with st := 1, iord := 0, silence := 0, fired := false } b u
          (r = none → Machine.exec .load s = .next (setResult v 3)) ∧ (r = some t → Machine.exec .load s = .next (setResult t 1)))) ∧
      (may (.reload cid) → live → blockUse w (ownerReload cid) cid b = .bad v →
        Machine.exec (.reload cid) s = .next (setResult v 2)) ∧
      (may (.reload cid) → live → blockUse w (ownerReload cid) cid b = .ok u v → getX v cid = some x →
        let r := takeBlock v cid { x with noPreempt := [] } b u
        (r = none → Machine.exec (.reload cid) s = .next (setResult v 3)) ∧
          (r = some t → Machine.exec (.reload cid) s = .next (placeAgain (setResult t 1))))) ∧
    (may (.reload cid) → getX s cid = some x → (x.st = 0 ∨ 5 ≤ x.st) → Machine.exec (.reload cid) s = .next (setResult s 4)) ∧
    (tabWf 0 s.regs = true →
      ∃ t, Machine.exec .contextResultRead s = .next t ∧ t = { s with regs := t.regs } ∧ getReg t resultReg = 0 ∧
        ∀ a, a ≠ resultReg → getReg t a = getReg s a)

/-- The other context commands (R372, R382): `freeze` freezes the live contexts of the subtree; `thaw` returns those that it froze to their kept
states, but for one whose dump has not started; `kill` and `retire` end contexts; `dump` queues the context and its frozen children. Each
gives RESULT 1; in another state, 4. While another command is in progress none of them acts.
Choices of the model that clauses of it rest on: log entry 24, DEDUCED. -/
def Claim.ContextCommandsRule : Prop :=
  ∀ (s : State) (cid : Nat) (x : Ctx), getX s cid = some x →
    let may (i : Instr) : Prop := s.cmd = none ∨ s.cmd = some i
    (∀ i ∈ [Instr.freeze cid, .thaw cid, .kill cid, .retire cid, .dump cid], ¬ may i → Machine.exec i s = .next s) ∧
    (may (.freeze cid) → 1 ≤ x.st → x.st ≤ 4 → Machine.exec (.freeze cid) s =
      .next (setResult (((subtree s cid).filter fun c => liveSt (stOf s c)).foldl (freezeCtx cid) s) 1)) ∧
    (may (.freeze cid) → 1 ≤ x.st → x.st ≤ 4 → s.groups = [] → subtree s cid = [cid] →
      ∃ t, Machine.exec (.freeze cid) s = .next t ∧ getX t cid = some { x with st := 5, prev := x.st, froot := cid } ∧ t.mem = s.mem ∧
        (tabWf 0 s.regs = true → getReg t resultReg = 1)) ∧
    (may (.thaw cid) → x.st = 5 → s.dumps.queue.contains cid = false → Machine.exec (.thaw cid) s = .next (setResult (placeAgain
      (((subtree s cid).filter fun c => !s.dumps.queue.contains c && (getX s c).any fun y => y.st == 5 && y.froot == cid).foldl thawCtx s))
        1)) ∧
    (may (.thaw cid) → x.st = 5 → s.dumps.queue.contains cid = true → Machine.exec (.thaw cid) s = .next (setResult s 4)) ∧
    (may (.kill cid) → x.st ≤ 6 → Machine.exec (.kill cid) s = .next (setResult (killTree s cid) 1)) ∧
    (may (.retire cid) → x.st = 1 → (subtree s cid).length = 1 → Machine.exec (.retire cid) s = .next (setResult (killCtx s cid) 1)) ∧
    (may (.dump cid) → x.st = 5 → ∃ t, Machine.exec (.dump cid) s = .next t ∧ t.mem = s.mem ∧ t.agenda = s.agenda ++ [.dumpStart] ∧
      (tabWf 0 s.regs = true → getReg t resultReg = 1) ∧
      t.dumps.queue = s.dumps.queue ++ cid :: ((subtree s cid).filter fun c => c != cid && stOf s c == some 5)) ∧
    (may (.freeze cid) → (x.st = 0 ∨ 5 ≤ x.st) → Machine.exec (.freeze cid) s = .next (setResult s 4)) ∧
    (x.st ≠ 5 → (may (.thaw cid) → Machine.exec (.thaw cid) s = .next (setResult s 4)) ∧
      (may (.dump cid) → Machine.exec (.dump cid) s = .next (setResult s 4))) ∧
    (may (.kill cid) → 7 ≤ x.st → Machine.exec (.kill cid) s = .next (setResult s 4)) ∧
    (may (.retire cid) → x.st ≠ 1 ∨ (subtree s cid).length ≠ 1 → Machine.exec (.retire cid) s = .next (setResult s 4))

/-- These claims together: `Claim.ContextBlocksRule` and `Claim.ContextCommandsRule`. -/
def Obligations.ContextControl : Prop := Claim.ContextBlocksRule ∧ Claim.ContextCommandsRule

/-- Dumps (R382, R383), slices (R374) and the lighthouse (R380): a queued dump of a frozen context starts; when it is written the context is
frozen again; a context past its slice is pre-empted where an equal wants its core, and its next slice comes after those of its equals
that wait; one silent past its window is reported once.
Choices of the model that clauses of it rest on: log entry 16, DESIGN CHOICE (a dump is written in one step, and a write of it that fails
is passed over); log entry 23, DEDUCED. -/
def Claim.ContextEventsRule : Prop :=
  ∀ (s : State) (cid : Nat) (rest : List Nat) (x : Ctx), getX s cid = some x →
    (s.dumps.cur = none → s.boot.crashed = false → s.dumps.queue = cid :: rest → x.st = 5 →
      ∃ t, Machine.exec .dumpStart s = .next t ∧ getX t cid = some { x with st := 6 } ∧ t.mem = s.mem ∧ t.dumps.cur = some cid ∧
        t.dumps.queue = rest ∧ t.dumps.seq = s.dumps.seq + 1 ∧ t.dumps.started = s.time ∧ t.agenda = s.agenda ++ [.dumpWritten]) ∧
    (s.dumps.cur = some cid → dumpGroups s cid = [] → s.dumps.queue = [] →
      let u := postFree (putVirt (fun _ => .drop) 10 s 0 cid (blk x 704 64) (dumpHead s cid 0)).2.2 cid
        (mkRec { time := s.time, addr := blk x 704 64, aux := s.dumps.seq, type := 6 })
      u.dumps = s.dumps →
        Machine.exec .dumpWritten s = .next { modX u cid fun y => { y with st := 5 } with
          dumps := { s.dumps with cur := none, second := tdel s.dumps.second cid } }) ∧
    (x.st = 3 → x.sliceStart + sliceOf s x ≤ s.time → sliceWanted s cid = true →
      let wait := ((cands s).filter fun c => c.cid != cid && c.prio == prioOf s cid && mayPlace s c).map Cand.cid
      Machine.exec (.sliceExpiry cid) s =
        .next (preemptCtx (modX (dropAfter s cid) cid fun y => { y with after := (y.after ++ wait).dedup }) cid)) ∧
    (x.st = 3 → s.boot.crashed = false → x.fired = false → windowOf s x ≤ x.silence →
      Machine.exec (.lighthouseFire cid) s =
        .next (postFree (setX s cid { x with fired := true }) cid (mkRec { time := s.time, type := 5 }))) ∧
    ((x.st ≠ 3 ∨ x.fired = true) → Machine.exec (.lighthouseFire cid) s = .next s)

/-- Gangs (R376): a start value is that of every gang of the module; at T the gang's groups are placed, where no other context holds its cores;
a start packet that a link has delivered is noted once a module; 50,000 ticks after T the slice is abandoned where a module of the gang
has sent none: its contexts' placed groups stop at their last commit points and are saved, its running contexts are pre-empted, and the
gang waits for its next start value. A fibre with an open span that is not being committed goes back to the span's entry.
Choices of the model that clauses of it rest on: log entry 25, DESIGN CHOICE. -/
def Claim.GangEventsRule : Prop :=
  ∀ (s : State) (gang src : Nat) (v : DWord) (t0 : Nat),
    let g := tget Gang.init s.gangs gang
    ((∀ e ∈ s.ctxs, gangOf e.2 = none) → Machine.exec (.gangStartWrite v) s = .next (setReg s gangReg v)) ∧
    (∀ e, s.ctxs = [e] → gangOf e.2 = some gang → tabWf Gang.init s.gangs = true →
      ∃ t, Machine.exec (.gangStartWrite v) s = .next t ∧
        tget Gang.init t.gangs gang = { Gang.init with start := some v.toNat, first := true } ∧ t.mem = s.mem ∧ t.fibres = s.fibres) ∧
    (g.start = some t0 → t0 ≤ s.time → g.first = true → (∀ e ∈ s.ctxs, e.2.st ≠ 3) →
      Machine.exec (.gangSliceStart gang) s =
        .next (gangCheck (placeAgain { s with gangs := tset Gang.init s.gangs gang { g with first := false } }) gang)) ∧
    (∀ w, takePacket s 0 = some w → src ≠ s.modNo → src ∉ g.packets → tabWf Gang.init s.gangs = true →
      ∃ t, Machine.exec (.gangStartPacket gang src) s = .next t ∧ t = { w with gangs := t.gangs } ∧
        tget Gang.init t.gangs gang = { g with packets := g.packets ++ [src] }) ∧
    (∀ w, takePacket s 0 = some w → src ∈ g.packets → Machine.exec (.gangStartPacket gang src) s = .next w) ∧
    (g.start = some t0 → t0 + 50000 ≤ s.time →
      let late (m : Nat) : Bool := Config.gangMember gang m && (if m = s.modNo then !g.placed else !g.packets.contains m)
      let mine := gangCtxs s gang
      let gs := s.groups.filter fun e => mine.contains (groupCid s e.2) && (e.2.st == .placed || e.2.st == .draining || e.2.st == .saving)
      let u := gs.foldl (fun t e => abandonGroup t e.1) { s with gangs := tset Gang.init s.gangs gang { Gang.init with first := true } }
      Machine.exec (.gangAbandon gang) s = .next (if (List.range 512).any late then
        mine.foldl (fun t c => modX t c fun x => if x.st = 3 then { x with st := 4 } else x) u else s)) ∧
    (g.start = none ∨ (∃ k, g.start = some k ∧ s.time < k + 50000) → Machine.exec (.gangAbandon gang) s = .next s) ∧
    ∀ gid p f x, getG s gid = some x → x.st = .placed → groupPlaces s gid = [p] → getF s p = some f → f.committing = false → f.op = none →
      let open_ := !spanClean f
      let u := modF (if open_ then rollback s p else s) p fun f => { f with stop := true }
      (getG u gid).any (fun y => y.st == .saving) = false → abandonGroup s gid = startSave u gid

/-- These claims together: `Claim.ContextEventsRule` and `Claim.GangEventsRule`. -/
def Obligations.ContextsOverTime : Prop := Claim.ContextEventsRule ∧ Claim.GangEventsRule

/-- Heartbeats and crashes (R384, R431, R433): a heartbeat is noted; none for 10,000,000 ticks, or an exception of the control core, is a crash: the
contexts from loaded to pre-empted are frozen, and a warm reboot begins where the dies run; BFAIL is set where no heartbeat was seen.
Choices of the model that clauses of it rest on: log entry 26, DEDUCED. -/
def Obligations.Heartbeats : Prop :=
  ∀ (s : State) (v : DWord),
    (s.boot.crashed = false → 5 ≤ s.boot.stage → s.boot.stage ≠ 5 ∨ linksDown s = false →
      Machine.exec (.heartbeatWrite v) s = .next { setReg s beatReg v with boot := { s.boot with lastBeat := some s.time } }) ∧
    (s.boot.crashed = false → s.boot.stage = 5 → linksDown s = true →
      ∃ t, Machine.exec (.heartbeatWrite v) s = .next t ∧ t.boot.stage = 7 ∧ t.boot.lastBeat = some s.time ∧ t.mem = s.mem) ∧
    (5 ≤ s.boot.stage → s.boot.lastBeat.getD s.boot.kstart + 10000000 < s.time →
      Machine.exec .heartbeatMiss s = Machine.exec .controlCoreException s) ∧
    (s.boot.lastBeat.getD s.boot.kstart + 10000000 ≥ s.time → Machine.exec .heartbeatMiss s = .next s) ∧
    (5 ≤ s.boot.stage →
      ∃ t, Machine.exec .controlCoreException s = .next t ∧ t = { kernelDown s with boot := t.boot } ∧
        (s.ctxs = [] → t.ctxs = [] ∧ t.mem = s.mem ∧ t.regs = s.regs) ∧
        (∀ cid x, s.ctxs = [(cid, x)] → s.groups = [] → 1 ≤ x.st → x.st ≤ 4 →
          getX t cid = some { x with st := 5, prev := x.st, froot := rootCtx s cid }) ∧
        t.boot = { s.boot with
          crashed := true, stage := 1, bfail := s.boot.bfail || s.boot.lastBeat.isNone, warm := s.boot.stage == 7
          wcount := if s.boot.lastBeat.isSome || s.boot.stage == 7 then s.boot.wcount + 1 else s.boot.wcount })

/-! ### Events of walkers, links and the collective engine -/

/-- Walks (R397, R398): a queued miss joins a walk of its context and page that has room, else it takes a walker while fewer than 64 walk; a
walk that completes gives each miss that joined it the translation read, or PAGE where the context has no table, and leaves.
Choices of the model that clauses of it rest on: log entry 12, DESIGN CHOICE. -/
def Claim.WalkEventsRule : Prop :=
  ∀ (s : State) (die : Nat) (k : Walk) (ks : List Walk),
    let d := getD s die
    let again (t : State) : State := if ks = [] then t else due t (.walkDispatch die)
    (d.missq = k :: ks → (∀ w ∈ d.walks, w.cid = k.cid → w.vpn = k.vpn → 256 ≤ w.misses.length) →
      (d.walks.length < 64 → Machine.exec (.walkDispatch die) s =
        .next (again (due (setD s die { d with walks := d.walks ++ [k], missq := ks }) (.walkComplete die d.walks.length)))) ∧
      (64 ≤ d.walks.length → Machine.exec (.walkDispatch die) s = .next s)) ∧
    (∀ w ws, d.missq = k :: ks → d.walks = w :: ws → w.cid = k.cid → w.vpn = k.vpn → w.misses.length < 256 →
      Machine.exec (.walkDispatch die) s =
        .next (again (setD s die { d with walks := { w with misses := w.misses ++ k.misses } :: ws, missq := ks }))) ∧
    (d.walks = [k] → d.missq = [] → rootOf s k.cid % 2 = 1 → k.vpn < 2 ^ 44 →
      let r := walkNow s die k.cid k.vpn
      let e := getD r.2 die
      e.walks = [k] → e.missq = [] →
      Machine.exec (.walkComplete die 0) s = .next (k.misses.foldl
        (fun t p => giveXlat t k.cid { vpn := k.vpn, cls := r.1.cls, level := r.1.level, pte := BitVec.ofNat 64 r.1.pte } p)
        (setD r.2 die { e with walks := [] }))) ∧
    (d.walks = [k] → d.missq = [] → rootOf s k.cid % 2 = 0 →
      Machine.exec (.walkComplete die 0) s = .next (k.misses.foldl
        (fun t p => giveXlat t k.cid { vpn := k.vpn, cls := 4, level := 0, pte := 0 } p) (setD s die { d with walks := [] })))

/-- The state of a link (R404, R405): enabled, it trains; trained at 8, 4 or 2 lanes within 100 ms it is up, full or narrow; training that
fails, and a lane failure that leaves fewer than 2, take it down, and disabling turns it off: what it had not delivered is sent another way;
a failed lane narrows it and resends what is not acknowledged, of which a sixteenth resend takes it down; a read of its status clears
the count of flits resent.
Choices of the model that clauses of it rest on: log entry 29, DEDUCED. -/
def Claim.LinkStatesRule : Prop :=
  ∀ (s : State) (n k peer : Nat),
    let l := getL s n
    let down (st : Nat) : State := (l.replay.map (fun f => (f.dst, f.pa)) ++ l.txq).foldl (fun t e => sendPacket t e.1 e.2)
      (setL s n { l with st, width := 0, replay := [], txq := [], stopped := false })
    (n < 36 → l.st = 0 ∨ l.st = 3 ∨ l.st = 4 →
      Machine.exec (.linkEnable n) s = .next (setL s n { l with st := 1, width := 0, since := s.time })) ∧
    (n < 36 → l.st = 1 ∨ l.st = 2 → Machine.exec (.linkEnable n) s = .next s) ∧
    (n < 36 → l.st ≠ 0 → Machine.exec (.linkDisable n) s = .next (down 0)) ∧
    (n < 36 → l.st = 0 → Machine.exec (.linkDisable n) s = .next s) ∧
    (l.st = 1 → k = 8 ∨ k = 4 ∨ k = 2 → s.time ≤ l.since + 100000000 →
      Machine.exec (.linkTrained n k peer) s = .next (pumpAll
        { setL s n (pumpTx { l with st := if k = 8 then 2 else 3, width := k, peer := peer % 512 }) with unreach := [] })) ∧
    (l.st = 1 → k < 2 ∨ l.since + 100000000 < s.time → Machine.exec (.linkTrained n k peer) s = .next (down 4)) ∧
    (l.st = 1 → l.since + 100000000 ≤ s.time → Machine.exec (.linkTrainingTimeout n) s = .next (down 4)) ∧
    (l.st = 2 ∨ l.st = 3 → k < 2 → Machine.exec (.linkLaneFail n k) s = .next (down 4)) ∧
    (l.st = 2 ∨ l.st = 3 → 2 ≤ k → k < l.width →
      let t := setL s n { l with
        st := 3, width := min l.width (if 4 ≤ k then 4 else 2), resent := l.resent + l.replay.length
        replay := l.replay.map (fun (f : Flit) => ({ f with resends := f.resends + 1 } : Flit)) }
      ((∀ f ∈ l.replay, f.resends < 15) → Machine.exec (.linkLaneFail n k) s = .next t) ∧
        ((∃ f ∈ l.replay, 15 ≤ f.resends) → Machine.exec (.linkLaneFail n k) s = .next (dropLink t n 4))) ∧
    (n < 36 → tabWf Link.init s.links = true →
      ∃ t, Machine.exec (.linkStatusRead n) s = .next t ∧ t = { s with links := t.links } ∧ getL t n = { l with resent := 0 } ∧
        ∀ j, j ≠ n → getL t j = getL s j)

/-- Flits on a link that is up (R402, R403, R406, R408): the next one in order is taken, and its packet is there for the module, or is forwarded;
another or a bad one is not taken; an acknowledgement ends the wait for what it covers; a resend counts, and the sixteenth of a flit takes
the link down; a stop flit holds the sender, and a resume flit lets it go on; at stage 5 of the boot the timer of the neighbour of the
lowest module number is taken, with the link's measured delay added, and the dies are released.
Choices of the model that clauses of it rest on: log entry 29, DEDUCED. -/
def Claim.LinkFlitsRule : Prop :=
  ∀ (s : State) (n seq dst pa : Nat) (ok : Bool) (v : DWord),
    let l := getL s n
    (l.st = 2 ∨ l.st = 3 →
      (ok = true → seq = l.rxSeq → l.rxq.length < 128 → dst = s.modNo →
        Machine.exec (.flitReceive n seq ok dst pa) s = .next { setL s n { l with rxSeq := l.rxSeq + 1 } with inbox := s.inbox ++ [pa] }) ∧
      (ok = true → seq = l.rxSeq → l.rxq.length < 128 → dst ≠ s.modNo →
        Machine.exec (.flitReceive n seq ok dst pa) s =
          .next (noteRx (pumpRx 128 (setL s n { l with rxSeq := l.rxSeq + 1, rxq := l.rxq ++ [(dst, pa)] }) n) n)) ∧
      (ok = false ∨ seq ≠ l.rxSeq → Machine.exec (.flitReceive n seq ok dst pa) s = .next s) ∧
      (l.replay ≠ [] →
        let t := setL s n { l with
          replay := l.replay.map (fun (f : Flit) => ({ f with resends := f.resends + 1 } : Flit)), resent := l.resent + l.replay.length }
        ((∀ f ∈ l.replay, f.resends < 15) → Machine.exec (.flitResendTimeout n) s = .next t) ∧
          ((∃ f ∈ l.replay, 15 ≤ f.resends) → Machine.exec (.flitResendTimeout n) s = .next (dropLink t n 4))) ∧
      Machine.exec (.stopFlit n) s = .next (setL s n { l with stopped := true }) ∧
      Machine.exec (.resumeFlit n) s = .next (pumpAll (setL s n (pumpTx { l with stopped := false }))) ∧
      (s.boot.stage = 5 → n < 36 → (∀ j, j < 36 → linkUp (getL s j) = true → l.peer ≤ (getL s j).peer) →
        Machine.exec (.timerFlit n v) s = .next (releaseDies { s with time := v.toNat + Config.linkDelay n }))) ∧
    Machine.exec (.flitAck n seq) s = .next (pumpAll (setL s n (pumpTx { l with replay := l.replay.filter fun f => seq < f.seq })))

/-- These claims together: `Claim.LinkStatesRule` and `Claim.LinkFlitsRule`. -/
def Obligations.Links : Prop := Claim.LinkStatesRule ∧ Claim.LinkFlitsRule

/-- Collectives (R410, R412 to R414): a command starts when its turn has come and a matching call of the same number of every other
participant has; it reads its own source, of a broadcast the root alone, and combines the elements lowest rank first; it writes the
destination element by element, and is complete with the last. Where a participant cannot be reached, a call does not agree, a
participant reports a failure, or an element cannot be read or written, it is abandoned, with the failing address.
Choices of the model that clauses of it rest on: log entry 8, DESIGN CHOICE (which elements an abandoned command still writes); log
entry 10, DEDUCED (the source in one step, the destination element by element); log entry 13, DESIGN CHOICE; log entry 29, DEDUCED (the
peers' contributions are the row's argument). -/
def Claim.CollectivesRule : Prop :=
  ∀ (s : State) (id : Nat) (parts : List CollPart) (c : Cmd),
    let es := 4 * c.ty.regs
    let others := (commMembers s c.comm).filter (· != s.modNo)
    let failed := (parts.filter fun q => q.seq == c.seq && commHas s c.comm q.module && q.module != s.modNo).findSome? CollPart.fail
    let start (t : State) : Prop := Machine.exec (.collStart id parts) s = .next t
    (s.cmds.find? (fun c => c.id == id && c.cls == .coll && c.of.isNone && !c.done) = some c →
      (c.begun = true → start (match failed with
        | some va => abandonColl s c va
        | none => s)) ∧
      (c.begun = false → collTurn s id = false → start s) ∧
      (c.begun = false → collTurn s id = true → collCut s c = true → start (finishCmd s id (some 0))) ∧
      (c.begun = false → collTurn s id = true → collCut s c = false → (∀ m ∈ others, parts.countP (fun q => q.module == m) = 1) →
        parts.length = others.length →
          ((∃ q ∈ parts, q.seq ≠ c.seq) → start s) ∧
          ((∀ q ∈ parts, q.seq = c.seq) →
            ((∃ q ∈ parts, q.agrees = false) → start (finishCmd s id (some 0))) ∧
            ((∀ q ∈ parts, q.agrees = true) →
              (∀ va, failed = some va → start (finishCmd s id (some va))) ∧
              (failed = none → ∀ r a w, collSource s c = (r, a, w) → start (match r with
                | .wait => w
                | .fail _ => finishCmd w id (some a)
                | .ok b =>
                  let srcs := (commMembers s c.comm).map fun m =>
                    if m = s.modNo then (m, (List.range c.nb).map fun i => natOf ((b.drop (es * i)).take es))
                    else (m, ((parts.find? fun q => q.module == m).map fun q => q.elems.map BitVec.toNat).getD [])
                  let clk := parts.foldl (fun k q => max k q.ctide) c.clk
                  due (setCmd w id fun d => { d with begun := true, res := collResult d srcs, clk }) (.collComplete id))))))) ∧
    collSource s c = (if c.kind = .bc ∧ c.root ≠ s.modNo then (.ok [], c.ga, s) else engRead s c c.ga (c.nb * es)) ∧
    (s.cmds.find? (fun c => c.id == id && c.cls == .coll && c.begun && !c.done) = some c →
      let end_ (t : State) : Prop := Machine.exec (.collComplete id) s = .next t
      (collCut s c = true → end_ (abandonColl s c 0)) ∧
      (collCut s c = false → c.res[c.pos]? = none → end_ (finishCmd (raiseClock s c.core c.clk) id none)) ∧
      ∀ v, collCut s c = false → c.res[c.pos]? = some v →
        let va := c.xa + es * c.pos
        let w := engWrite s c va (bytesOf es v)
        let u := setCmd w.2 id fun d => { d with pos := d.pos + 1 }
        (w.1 ≠ 0 → end_ (abandonColl w.2 c va)) ∧
        (w.1 = 0 → end_ (if c.pos + 1 < c.res.length then due u (.collComplete id) else finishCmd (raiseClock u c.core c.clk) id none))) ∧
    ∀ (a b : Word), collCombine .add .i32 [a.toNat, b.toNat] = (a + b).toNat ∧
      collCombine .min .i32 [a.toNat, b.toNat] = (if b.slt a then b else a).toNat ∧
      collCombine .max .i32 [a.toNat, b.toNat] = (if a.slt b then b else a).toNat

/-- These claims together: `Claim.WalkEventsRule` and `Claim.CollectivesRule`. -/
def Obligations.WalksAndCollectives : Prop := Claim.WalkEventsRule ∧ Claim.CollectivesRule

/-! ### Events of the debugger -/

/-- What a row does, where it goes on. -/
def Claim.after (i : Instr) (s : State) : State :=
  match Machine.exec i s with
  | .next t => t
  | _ => s

/-- Where a debugger attends the context (R422, R423): a fibre that runs at speed, or has a result outstanding, halts at its next commit point or
when that result is in; one that waits, is frozen by a fault, or is in pilot gear between instructions, halts at once and is recorded, with
the address of its next instruction; one may be asked to halt at the next edge of a region, which leaves a halt that is pending; one that is halted
goes on where it was, or for one instruction in pilot gear; the rows for every fibre halt or resume each of the context's. -/
def Claim.HaltsRule : Prop :=
  ∀ (s : State) (cid : Nat) (p : Place) (f : Fibre), getF s p = some f → cidOf s f = cid → ctxFlag s cid 117 = true →
    let at_ := fun aux data addr =>
      haltRec (setF s p { f with dbg := { f.dbg with halted := true, want := 0 } }) p f 1 aux data addr (nextPc f)
    (f.dbg.halted = false → f.froz = .no → f.wait = .none → f.pilot.on = false → f.hnd = none →
      Machine.exec (.halt cid p) s = .next (setF s p { f with dbg := { f.dbg with want := 1 } })) ∧
    (f.dbg.halted = false → f.froz = .no → f.wait ≠ .none → Machine.exec (.halt cid p) s = .next (at_ 0 0 0)) ∧
    (f.dbg.halted = false → f.froz = .no → f.pilot.on = true → f.op = none → f.committing = false → hasPend s p = false →
      Machine.exec (.halt cid p) s = .next (at_ 0 0 0)) ∧
    (f.dbg.halted = false → f.froz = .no → f.wait = .none → hasPend s p = true →
      Machine.exec (.halt cid p) s = .next (setF s p { f with dbg := { f.dbg with want := 1 } })) ∧
    (∀ fi nest, f.dbg.halted = false → f.froz = .resident fi nest →
      Machine.exec (.halt cid p) s = .next (at_ fi.cls (faultWord f fi nest).toNat (lowAddr fi))) ∧
    (f.dbg.want = 1 → Machine.exec (.haltAtRegionEdge cid p) s = .next s) ∧
    (f.dbg.halted = false → f.dbg.want ≠ 1 →
      Machine.exec (.haltAtRegionEdge cid p) s = .next (setF s p { f with dbg := { f.dbg with want := 3 } })) ∧
    (f.dbg.halted = true → f.dbg.fault = none → f.froz = .no →
      (((groupOf s f).any fun g => g.deferred) = false →
        Machine.exec (.resume cid p) s =
          .next (readyNow (setF s p { f with dbg := { halted := false, want := 0, step := false, fault := none } }) p)) ∧
      Machine.exec (.step cid p) s = .next (readyNow (setF s p { f with
        dbg := { halted := false, want := 0, step := true, fault := none }, pilot := { f.pilot with on := true } }) p)) ∧
    Machine.exec (.haltEveryFibre cid) s = .next ((ctxPlaces s cid).foldl (fun t q => Claim.after (.halt cid q) t) s) ∧
    Machine.exec (.resumeEveryFibre cid) s = .next ((ctxPlaces s cid).foldl (fun t q => Claim.after (.resume cid q) t) s)

/-- Samples (R425), replay (R428) and fault injection (R429): once the sample period has passed, the next fibre context of the context in
rotation that holds a fibre is sampled; an operation held back for 1,000,000 ticks under enforcement is a divergence, recorded, after which
its slice serves the context's operations as they come, the record naming the fibre that waits for it, where one does; a fault injection
is armed, with its done bit left as it is, and the done bit cleared, in the life-cycle states that allow it alone. -/
def Claim.DebugEventsRule : Prop :=
  ∀ (s : State) (cid id k : Nat) (x : Ctx) (f : Fibre) (r : Req) (v : BitVec 128),
    let period := (getReg s (dbgAddr cid + 0x18)).toNat % 2 ^ 32
    (getX s cid = some x →
      (period = 0 ∨ s.time < x.sampleAt + period → Machine.exec (.sampleTick cid) s = .next s) ∧
      (period ≠ 0 → x.sampleAt + period ≤ s.time →
        let u := setX s cid { x with sampleAt := s.time }
        let w := setX s cid { x with sampleAt := s.time, lastSample := k + 1 }
        nextSample (sampleKeys u cid) x.lastSample = some k → getF s (placeOf k) = some f →
          Machine.exec (.sampleTick cid) s = .next (trace w (placeOf k).core cid (mkRec {
            time := s.time, addr := (sampleOf w (placeOf k) f).2.2, pc := (sampleOf w (placeOf k) f).2.1, rgn := rgnWord f.regions
            inst := ((groupOf w f).map Group.inst).getD 0, mask := f.amask.toNat, place := placeWord w (placeOf k), type := 0x13
            cls := (sampleOf w (placeOf k) f).1 })))) ∧
    (findReq s id = some r → r.held ≠ 0 → r.held + 1000000 ≤ s.time + 1 → replayMode s r.cid = 2 →
      let k := servingSlice s r
      let free := (getSl s k).free
      let go := fun x : RecF => wakeSlice
        (setSl (trace s r.core r.cid (mkRec x)) k { getSl s k with free := if free.contains r.cid then free else free ++ [r.cid] }) k r.cid
      let x : RecF := { time := s.time, addr := r.pa, aux := k, type := 0x15 }
      ((∀ p, r.cont ≠ .op p ∧ r.cont ≠ .hold p) → Machine.exec (.replayDivergence id) s = .next (go x)) ∧
      ∀ p g, r.cont = .op p ∨ r.cont = .hold p → getF s p = some g →
        Machine.exec (.replayDivergence id) s = .next (go { x with
          rgn := rgnWord g.regions, inst := ((groupOf s g).map Group.inst).getD 0, mask := g.amask.toNat, place := placeWord s p })) ∧
    (s.boot.lcs = 1 ∨ s.boot.lcs = 3 → tabWf 0 s.regs = true →
      (∃ t, Machine.exec (.faultInjectArm v) s = .next t ∧ t = { s with regs := t.regs } ∧ (getReg t injAddr).getLsbD 0 = true ∧
        (getReg t injAddr).getLsbD 1 = (getReg s injAddr).getLsbD 1 ∧
        (∀ i, 49 ≤ i → i < 64 → (getReg t injAddr).getLsbD i = v.getLsbD i) ∧
        getReg t (injAddr + 8) = v.extractLsb' 64 64) ∧
      ∃ t, Machine.exec .faultInjectDoneClear s = .next t ∧ t = { s with regs := t.regs } ∧
        getReg t injAddr = getReg s injAddr &&& ~~~(2 : DWord)) ∧
    (s.boot.lcs = 0 ∨ s.boot.lcs = 2 →
      Machine.exec (.faultInjectArm v) s = .next s ∧ Machine.exec .faultInjectDoneClear s = .next s)

/-- These claims together: `Claim.HaltsRule` and `Claim.DebugEventsRule`. -/
def Obligations.Debugger : Prop := Claim.HaltsRule ∧ Claim.DebugEventsRule

/-! ### Boot, attestation and power -/

/-- Boot (R386, R431, R433, R434, R435): a cold reset keeps the fuses, the host's memory and the CXL tier; an image that verifies is measured
and started, at the stage of running dies in a warm reboot, and the contexts are adopted; one that does not fails the boot; one that
comes while flash holds another image that verifies, or whose version is not the one its header gives, is not taken; a control core
may ask for a warm reboot, the host may not; a quote covers nonce, measurement, version and life cycle; a signed change of the life cycle
wipes the module.
Choices of the model that clauses of it rest on: log entry 3, DESIGN CHOICE; log entry 11, PRESUMED; log entry 26, DEDUCED (the stage after a
reboot, and the adoption of contexts). -/
def Obligations.BootEvents : Prop :=
  ∀ (s : State) (img : List Byte) (ver : Word) (nonce : BitVec 256) (target : BitVec 2) (sig : List Byte),
    (∃ t, Machine.exec .coldReset s = .next t ∧ t.boot.stage = 1 ∧ t.boot.lcs = s.boot.lcs ∧ t.boot.keyNo = s.boot.keyNo ∧ t.boot.meas = 0 ∧
      t.fibres = [] ∧ t.vregs = [] ∧ t.regs = State.reset.regs ∧ t.groups = [] ∧ t.ctxs = [] ∧ t.mem = portMem s ∧
      t.boot.flash = s.boot.update.orElse fun _ => s.boot.flash) ∧
    (ver ≠ Config.imageVersion img ∨ (s.boot.flash.any fun x => x != img && imageOk x) = true →
      Machine.exec (.firmwareImageReceive img ver) s = .next s) ∧
    (1 ≤ s.boot.stage → s.boot.stage ≤ 2 → ver = Config.imageVersion img → (s.boot.flash.any fun x => x != img && imageOk x) = false →
      let dig := sha3 img
      Machine.exec (.firmwareImageReceive img ver) s = .next
        (if Config.sigOk 0 (bytesOf 32 dig.toNat) img = true then adopt { s with boot := { s.boot with
            bfail := s.boot.bfail || s.boot.flash.any (· != img), fwver := ver, meas := sha3 (bytesOf 32 s.boot.meas.toNat ++ bytesOf 32 dig.toNat), crashed := false, kstart := s.time
            lastBeat := none, stage := if s.boot.warm then 7 else 5, warm := false, wreq := false } }
        else { s with boot := { s.boot with stage := 2, bfail := true } })) ∧
    (s.ctxs = [] → s.dumps.queue = [] → adopt s = s) ∧
    (∀ cid x, s.ctxs = [(cid, x)] → regDamaged x = true → s.dumps.queue = [] → adopt s = killCtx s cid) ∧
    (5 ≤ s.boot.stage →
      ∃ t, Machine.exec (.warmRebootRequest .controlCore) s = .next t ∧ t = { kernelDown s with boot := t.boot } ∧ t.boot = { s.boot with
        crashed := true, stage := 1, wreq := true, wcount := s.boot.wcount + 1, warm := s.boot.stage == 7 }) ∧
    Machine.exec (.warmRebootRequest .host) s = .next s ∧
    (∃ t, Machine.exec (.quoteRequest nonce) s = .next t ∧ t = { s with boot := { s.boot with lastQuote := t.boot.lastQuote } } ∧
      (s.boot.lcs = 0 → t.boot.lastQuote = []) ∧
      (s.boot.lcs ≠ 0 → t.boot.lastQuote.length = 2532 ∧ t.boot.lastQuote.take 69 =
        bytesOf 32 nonce.toNat ++ bytesOf 32 s.boot.meas.toNat ++ bytesOf 4 s.boot.fwver.toNat ++ bytesOf 1 s.boot.lcs.toNat)) ∧
    (s.boot.lcBusy = true → s.boot.stage < 7 → Machine.exec (.lifecycleTransition target sig) s = .next s) ∧
    (s.boot.lcBusy = false → ∃ t, Machine.exec (.lifecycleTransition target sig) s = .next t ∧
      if Config.sigOk 1 (bytesOf 1 target.toNat) sig = true ∧
          ((s.boot.lcs, target) = (0, 1) ∨ (s.boot.lcs, target) = (1, 2) ∨ (s.boot.lcs, target) = (2, 3) ∨ (s.boot.lcs, target) = (3, 1)) then
        t.boot.lcs = target ∧ t.boot.stage = 1 ∧ t.boot.keyNo = s.boot.keyNo + (if target = 1 then 1 else 0) ∧ t.mem = portMem s ∧
          t.vregs = [] ∧ t.fibres = []
      else t = s)

/-- Frequencies (R31, R32, R33, R438): a step to the frequency that the die's limit and the package's power limit allow stops, at the start
of a tick, the die's cycle count at the last cycle before it; when the PLL is locked, at the start of a later tick, the count goes on with
the next cycle at the new frequency, and the step is logged, newest first, 64 of them; a row that falls within a tick waits for the next.
Choices of the model that clauses of it rest on: log entry 27, DEDUCED; log entry 52, DESIGN CHOICE. -/
def Claim.FrequencyEventsRule : Prop :=
  ∀ (s : State) (die fmul c0 : Nat), die < 8 → tabWf Die.init s.dies = true →
    let d := getD s die
    let step := Machine.exec (.frequencyStep die fmul) s
    12 ≤ freqNext s die ∧ freqNext s die ≤ 33 ∧ powerLimit s ≤ 15000 ∧
    (d.running = true → d.relock = none → fmul = freqNext s die → s.tickStart = false → step = .next (due s (.frequencyStep die fmul))) ∧
    (d.running = true → d.relock = none → fmul = freqNext s die → s.tickStart = true →
      ∃ t, step = .next t ∧ t = { s with dies := t.dies, agenda := s.agenda ++ [.pllRelockDone die] } ∧
        getD t die = { d with relock := some (fmul, dieCyc d s.time) } ∧
        ∀ now, dieCyc (getD t die) now = dieCyc d s.time - 1) ∧
    (fmul ≠ freqNext s die → step = .next s) ∧
    (d.relock = some (fmul, c0) → s.tickStart = false →
      Machine.exec (.pllRelockDone die) s = .next (due s (.pllRelockDone die))) ∧
    (d.relock = some (fmul, c0) → s.tickStart = true →
      ∃ t, Machine.exec (.pllRelockDone die) s = .next t ∧ t = { s with dies := t.dies } ∧ (getD t die).relock = none ∧
        (getD t die).log.head? = some { fmul, cyc0 := c0, time0 := s.time } ∧ (getD t die).logCount = d.logCount + 1 ∧
        (getD t die).log.length ≤ 64 ∧ dieCyc (getD t die) s.time = c0)

/-- REGISTER_WRITE (R439): a write of a die's frequency limit changes its six writable bits and no other register; a write at a hole, a
misaligned one, one of another size than 4 or 8 bytes, and one of the host to a register that only privileged contexts and control cores
write, change nothing; nor does one of the host outside what the kernel has opened in BAR 0; one within it writes as the register
says.
Choices of the model that clauses of it rest on: log entry 28, DEDUCED. -/
def Claim.RegisterWritesRule : Prop :=
  ∀ (s : State) (pa size : Nat) (v : DWord) (die : Nat),
    (regAt (pa / 8 * 8) = none → Machine.exec (.registerWrite .controlCore pa size v) s = .next s) ∧
    (pa % size ≠ 0 → Machine.exec (.registerWrite .controlCore pa size v) s = .next s) ∧
    (size ≠ 4 → size ≠ 8 → Machine.exec (.registerWrite .controlCore pa size v) s = .next s) ∧
    (die < 8 → tabWf 0 s.regs = true →
      ∃ t, Machine.exec (.registerWrite .controlCore (0x010000690008 + 8 * die) 8 v) s = .next t ∧ t = { s with regs := t.regs } ∧
        (getReg t (0x010000690008 + 8 * die)).toNat =
          (getReg s (0x010000690008 + 8 * die)).toNat / 64 * 64 + v.toNat % 64 ∧
        ∀ a, a ≠ 0x010000690008 + 8 * die → getReg t a = getReg s a) ∧
    (∀ r, regAt (pa / 8 * 8) = some r → kernelOnly r = true → Machine.exec (.registerWrite .host pa size v) s = .next s) ∧
    ((∀ e ∈ s.hostRegs, ¬ (e.1 ≤ pa ∧ pa + size ≤ e.1 + e.2)) → Machine.exec (.registerWrite .host pa size v) s = .next s) ∧
    (∀ r, regAt (pa / 8 * 8) = some r → kernelOnly r = false → size = 4 ∨ size = 8 → pa % size = 0 →
      (∃ e ∈ s.hostRegs, e.1 ≤ pa ∧ pa + size ≤ e.1 + e.2) →
      Machine.exec (.registerWrite .host pa size v) s = .next (regWrite s .host pa size v.toNat))

/-- These claims together: `Claim.FrequencyEventsRule` and `Claim.RegisterWritesRule`. -/
def Obligations.PowerAndRegisters : Prop := Claim.FrequencyEventsRule ∧ Claim.RegisterWritesRule

/-! ### Numbered rules, whole -/

/-- R104: `lea` forms an address. D := (A + (sign-extend(B[31:0]) << log2(S))) mod 2^64; A and D are pairs in a lane operation, B is one
32-bit register, or the immediate. -/
def Obligations.AddressForming : Prop :=
  ∀ (s : State) (f : Fibre) (y : Op2) (sh : BitVec 2),
    Claim.Computes (.lea y sh) s f y.h y.d 2 fun l =>
      (BitVec.ofNat 64 (opVal s f s.here y.a 2 l) +
        ((BitVec.ofNat 32 (srcVal s f s.here y.t 1 y.b l)).signExtend 64 <<< sh.toNat)).toNat

/-- R108: `rol` rotates A left by B[7:0] mod w, where w is 32 or 64; bits leaving the top enter at bit 0. -/
def Obligations.RotateLeft : Prop :=
  ∀ (s : State) (f : Fibre) (y : Op2),
    (y.t = .b32 → Claim.Binary .rol s f y fun a b => ((BitVec.ofNat 32 a).rotateLeft (b % 256 % 32)).toNat) ∧
    (y.t = .b64 → Claim.Binary .rol s f y fun a b => ((BitVec.ofNat 64 a).rotateLeft (b % 256 % 64)).toNat)

/-- R113: `sel` writes A where C is not 0, else B; C is 32 bits of each lane, or a scalar's 64. -/
def Obligations.Select : Prop :=
  ∀ (s : State) (f : Fibre) (z : Op3),
    Claim.Computes (.sel z) s f z.h z.d z.t.regs fun l =>
      wide1 z.d z.t z.t.regs
        (if opVal s f s.here z.c (if z.d.isV then 1 else 2) l ≠ 0 then opVal s f s.here z.a z.t.regs l
         else opVal s f s.here z.b z.t.regs l)

/-- R120: `ballot` writes the sum of 2^L over the contributing lanes L whose A is not 0, zero-extended. -/
def Obligations.Ballot : Prop :=
  ∀ (s : State) (f : Fibre) (x : Op1),
    Claim.Computes (.ballot x) s f x.h x.d 1 fun _ =>
      (((passLanes s f s.here x.h.guard).filter fun l => opVal s f s.here x.a 1 l % 2 ^ 32 ≠ 0).map fun l => 2 ^ l).sum

/-! ### Words, steps, reset -/

/-- Decoding and encoding agree (R34, R35, R48, R50, R53): the word that a well-formed instruction encodes to decodes to that instruction,
with every operand at every value. -/
def Obligations.EncodeDecode : Prop :=
  ∀ i : Instr, i.isWord = true → i.wf = true → decodeWord (encode i) = .ok i ∧ decode (bytesOfWord (encode i)) = .ok (i, [])

/-- Twelve bytes that decode are those of the word that the instruction encodes to, the lowest address first (R3, R34, R55); what follows
them is left; fewer are refused. -/
def Obligations.DecodeThenEncode : Prop :=
  ∀ (bs rest : List Byte) (i : Instr), (decode bs = .ok (i, rest) → bs = bytesOfWord (encode i) ++ rest ∧ i.wf = true) ∧
    (bs.length < 12 → decode bs = .error .tooFewBytes)

/-- Words written out from the spec's encodings (R34, R35, R50): those of its worked examples. -/
def Obligations.DecodeWords : Prop :=
  let plain : Hdr :=
    { guard := .always, sos := false, dist := 15, reuse := 0, trapA := false, trapB := false, trapC := false }
  decodeWord 0x2084_0780_0081_40A0_0000_0020#96 =
      .ok (.add { h := { plain with trapA := true }, t := .i32, d := .v 5, a := .v 5, b := .imm 32 } false) ∧
    decodeWord 0x0380_0780_0000_00EE_0000_0245#96 = .ok (.brc plain .nz (.v 7) 18 5) ∧
    decodeWord 0x81D8_3780_0006_2080_0000_0000#96 =
      .ok (.stG { h := { plain with guard := .pass 3 }, t := .b128, ord := .plain, sc := .fib, cpol := .normal, r := .v 24, base := .s 4,
                  off := .imm 0 }) ∧
    decodeWord 0xC080_0780_0800_0000_0000_0805#96 = .ok (.bar plain .quay 5 8) ∧
    decodeWord 0x0000_0000_0000_0000_0000_0000#96 = .error .reservedMajor

/-- A step with nothing scheduled and nothing due is a turn of the berth in focus, one tick on (log entries 1, 2): when its current fibre is
eligible (R147), no fibre is starved and no switch is due (R148, R149, R163), and the word at its pc decodes to an instruction, the
step is that instruction at that state, with the lane counts (R426); a word that decodes to none is UNDEF (R55). An event that is due is
run as its row, but for one that acts on the clock of a compute die that stands still (R31), which waits; a turn that would reach into such a die waits with
all it would do.
Choices of the model that clauses of it rest on: log entry 27, DEDUCED. -/
def Obligations.StepRunsDecoded : Prop :=
  ∀ (s u : State) (f : Fibre) (w : InsnWord) (i : Instr) (is : List Instr),
    let n := tick s 1
    let c := s.focus.1
    let b := s.focus.2
    let p := curPlace n c b
    (s.sched = [] → s.agenda = [] → dieStands n (dieOf c) = false → starved n c b = none → getF n p = some f → eligible n p f = true →
      f.span.faulted = none → f.committing = false → (f.op.isSome = true ∨ (getB n c b).run < 4096 ∧ (f.halfCount < 256 ∨ f.halves = [])) →
      fetchWord n p f false = (.ok w, u) →
        let v := modF { farDrop u (ownerFetch p) with here := p } p fun g => { g with fetched := some (g.pc, w) }
        (∀ t, decodeWord w = .ok i → Machine.exec i v = .next t →
          let r := countLanes v t i
          Machine.step s = .next (if r.crossed.any (dieStands r) then n else r)) ∧
        (∀ e, decodeWord w = .error e →
          Machine.step s = .next (if (undefWord v p).crossed.any (dieStands (undefWord v p)) then n else undefWord v p))) ∧
    (s.sched = [] → s.agenda = i :: is → i.info = none →
      let v := tick { s with agenda := is } 1
      (rowWaits v i = false → Machine.step s = waitDies (Machine.exec i v) (due v i)) ∧
        (rowWaits v i = true → Machine.step s = .next (due v i))) ∧
    (∀ dt ts, s.sched = { dt, act := .event i } :: ts → i.info = none →
      let v := tick { s with sched := ts } dt
      (rowWaits v i = false → Machine.step s = waitDies (Machine.exec i v) (due v i)) ∧
        (rowWaits v i = true → Machine.step s = .next (due v i))) ∧
    ∀ t w : State, waitDies (.next t) w = .next (if t.crossed.any (dieStands t) then w else t)

/-- No instruction and no event stops the machine: every row has a next state in every state, and so has every step. There being no fault
(`Fault` has no constructor), what it rules out is the one refusal, `notModelled`; a row that is not due where it is run leaves the state
unchanged (log entry 1, DESIGN CHOICE). -/
def Obligations.NeverStops : Prop :=
  (∀ (i : Instr) (s : State), ∃ t, Machine.exec i s = .next t) ∧ ∀ s : State, ∃ t, Machine.step s = .next t

/-- The state after reset (R431, R435, R438): the compute dies do not run and their counters read 0 (R31, R32), memory lists nothing, no context, no
group, no fibre; the power limit is 15,000 and every frequency 33; the other registers read 0. Its data are in canonical form.
Choices of the model that clauses of it rest on: log entry 4, DESIGN CHOICE. -/
def Obligations.Reset : Prop :=
  State.reset.mem = [] ∧ State.reset.fibres = [] ∧ State.reset.groups = [] ∧ State.reset.ctxs = [] ∧ State.reset.boot.stage = 0 ∧
    State.reset.boot.meas = 0 ∧ State.reset.time = 0 ∧ State.reset.canonical = true ∧
    (∀ d, (getD State.reset d).running = false ∧ dieCyc (getD State.reset d) 0 = 0 ∧ (getD State.reset d).logCount = 0) ∧
    getReg State.reset 0x010000690000 = 15000 ∧ (∀ d, d < 8 → getReg State.reset (0x010000690008 + 8 * d) = 33) ∧
    (∀ a, a ≠ 0x010000690000 → (∀ d, d < 8 → a ≠ 0x010000690008 + 8 * d) → getReg State.reset a = 0) ∧
    ∀ n, linkUp (getL State.reset n) = false

/-- Every step keeps memory in its canonical form (log entry 3): addresses rise, and no byte is listed that equals what an unlisted one
reads as, so that equal memories are equal data. The form is the model's, not the spec's; `State.reset` has it. -/
def Obligations.MemoryStaysCanonical : Prop :=
  ∀ s t : State, Memory.wf s.mem = true → Machine.step s = .next t → Memory.wf t.mem = true
end

