-- ==== Sys2Proof/Laws/Boot.lean ====
section
/-! SUPPORT. When a registry entry counts as damaged. -/
namespace Sys2Proof.Machine

/-- A field above `a`, read back. -/
theorem field_above {a n P K W : Nat} (ha : a < P) (hn : n < W) (hK : W * P ≤ K) : (a + n * P) % K / P % W = n := by
  have h : a + n * P < K := by
    have := Nat.mul_le_mul_right P (Nat.succ_le_of_lt hn)
    rw [Nat.succ_mul] at this
    omega
  rw [Nat.mod_eq_of_lt h, Nat.add_mul_div_right _ _ (by omega), Nat.div_eq_of_lt ha, Nat.zero_add, Nat.mod_eq_of_lt hn]

/-- The CRC of an entry whose fields fit is wrong exactly where it has been disturbed (R385, R386). -/
theorem regDamaged_eq {x : Ctx} (h : regFields x < 2 ^ 2144) : regDamaged x = (x.crcErr != 0) := by
  have hK : 2 ^ 32 * 2 ^ 2144 ≤ 2 ^ 4096 := by rw [← Nat.pow_add]; exact Nat.pow_le_pow_right (by decide) (by decide)
  have hv : (regEntry x).toNat / 2 ^ 2144 % 2 ^ 32 = (regCrc x ^^^ x.crcErr).toNat := by
    rw [regEntry, BitVec.toNat_ofNat]
    exact field_above h (regCrc x ^^^ x.crcErr).isLt hK
  rw [regDamaged, hv, Bool.eq_iff_iff, bne_iff_ne, bne_iff_ne, Ne, Ne, BitVec.toNat_inj]
  refine not_congr ⟨fun e => ?_, fun e => by simp [e]⟩
  have := congrArg (regCrc x ^^^ ·) e
  simpa [← BitVec.xor_assoc] using this

end Sys2Proof.Machine
end

