-- ==== Sys2Proof/Laws/State.lean ====
section
/-! SUPPORT. What each named update of the state does to each field: one lemma per field per update. -/
namespace Sys2Proof.Machine

variable (s : State)

/-! `setF` -/
@[simp] theorem setF_mem (p : Place) (f : Fibre) : (setF s p f).mem = s.mem := rfl
@[simp] theorem setF_time (p : Place) (f : Fibre) : (setF s p f).time = s.time := rfl
@[simp] theorem setF_tickStart (p : Place) (f : Fibre) : (setF s p f).tickStart = s.tickStart := rfl
@[simp] theorem setF_crossed (p : Place) (f : Fibre) : (setF s p f).crossed = s.crossed := rfl
@[simp] theorem setF_dies (p : Place) (f : Fibre) : (setF s p f).dies = s.dies := rfl
@[simp] theorem setF_cores (p : Place) (f : Fibre) : (setF s p f).cores = s.cores := rfl
@[simp] theorem setF_berths (p : Place) (f : Fibre) : (setF s p f).berths = s.berths := rfl
@[simp] theorem setF_fibres (p : Place) (f : Fibre) : (setF s p f).fibres = tput s.fibres (pkey p) f := rfl
@[simp] theorem setF_vregs (p : Place) (f : Fibre) : (setF s p f).vregs = s.vregs := rfl
@[simp] theorem setF_pends (p : Place) (f : Fibre) : (setF s p f).pends = s.pends := rfl
@[simp] theorem setF_homes (p : Place) (f : Fibre) : (setF s p f).homes = s.homes := rfl
@[simp] theorem setF_slices (p : Place) (f : Fibre) : (setF s p f).slices = s.slices := rfl
@[simp] theorem setF_errLines (p : Place) (f : Fibre) : (setF s p f).errLines = s.errLines := rfl
@[simp] theorem setF_stamps (p : Place) (f : Fibre) : (setF s p f).stamps = s.stamps := rfl
@[simp] theorem setF_reqs (p : Place) (f : Fibre) : (setF s p f).reqs = s.reqs := rfl
@[simp] theorem setF_replies (p : Place) (f : Fibre) : (setF s p f).replies = s.replies := rfl
@[simp] theorem setF_recalls (p : Place) (f : Fibre) : (setF s p f).recalls = s.recalls := rfl
@[simp] theorem setF_far (p : Place) (f : Fibre) : (setF s p f).far = s.far := rfl
@[simp] theorem setF_unreach (p : Place) (f : Fibre) : (setF s p f).unreach = s.unreach := rfl
@[simp] theorem setF_hostTide (p : Place) (f : Fibre) : (setF s p f).hostTide = s.hostTide := rfl
@[simp] theorem setF_queues (p : Place) (f : Fibre) : (setF s p f).queues = s.queues := rfl
@[simp] theorem setF_groups (p : Place) (f : Fibre) : (setF s p f).groups = s.groups := rfl
@[simp] theorem setF_insts (p : Place) (f : Fibre) : (setF s p f).insts = s.insts := rfl
@[simp] theorem setF_cmds (p : Place) (f : Fibre) : (setF s p f).cmds = s.cmds := rfl
@[simp] theorem setF_quays (p : Place) (f : Fibre) : (setF s p f).quays = s.quays := rfl
@[simp] theorem setF_slotTab (p : Place) (f : Fibre) : (setF s p f).slotTab = s.slotTab := rfl
@[simp] theorem setF_trigs (p : Place) (f : Fibre) : (setF s p f).trigs = s.trigs := rfl
@[simp] theorem setF_runs (p : Place) (f : Fibre) : (setF s p f).runs = s.runs := rfl
@[simp] theorem setF_ctxs (p : Place) (f : Fibre) : (setF s p f).ctxs = s.ctxs := rfl
@[simp] theorem setF_cmd (p : Place) (f : Fibre) : (setF s p f).cmd = s.cmd := rfl
@[simp] theorem setF_gangs (p : Place) (f : Fibre) : (setF s p f).gangs = s.gangs := rfl
@[simp] theorem setF_dumps (p : Place) (f : Fibre) : (setF s p f).dumps = s.dumps := rfl
@[simp] theorem setF_links (p : Place) (f : Fibre) : (setF s p f).links = s.links := rfl
@[simp] theorem setF_inbox (p : Place) (f : Fibre) : (setF s p f).inbox = s.inbox := rfl
@[simp] theorem setF_collCount (p : Place) (f : Fibre) : (setF s p f).collCount = s.collCount := rfl
@[simp] theorem setF_emptied (p : Place) (f : Fibre) : (setF s p f).emptied = s.emptied := rfl
@[simp] theorem setF_regs (p : Place) (f : Fibre) : (setF s p f).regs = s.regs := rfl
@[simp] theorem setF_boot (p : Place) (f : Fibre) : (setF s p f).boot = s.boot := rfl
@[simp] theorem setF_hostWin (p : Place) (f : Fibre) : (setF s p f).hostWin = s.hostWin := rfl
@[simp] theorem setF_hostRegs (p : Place) (f : Fibre) : (setF s p f).hostRegs = s.hostRegs := rfl
@[simp] theorem setF_modNo (p : Place) (f : Fibre) : (setF s p f).modNo = s.modNo := rfl
@[simp] theorem setF_cxlSize (p : Place) (f : Fibre) : (setF s p f).cxlSize = s.cxlSize := rfl
@[simp] theorem setF_nextId (p : Place) (f : Fibre) : (setF s p f).nextId = s.nextId := rfl
@[simp] theorem setF_nextInst (p : Place) (f : Fibre) : (setF s p f).nextInst = s.nextInst := rfl
@[simp] theorem setF_nextSeq (p : Place) (f : Fibre) : (setF s p f).nextSeq = s.nextSeq := rfl
@[simp] theorem setF_freeAt (p : Place) (f : Fibre) : (setF s p f).freeAt = s.freeAt := rfl
@[simp] theorem setF_here (p : Place) (f : Fibre) : (setF s p f).here = s.here := rfl
@[simp] theorem setF_focus (p : Place) (f : Fibre) : (setF s p f).focus = s.focus := rfl
@[simp] theorem setF_sched (p : Place) (f : Fibre) : (setF s p f).sched = s.sched := rfl
@[simp] theorem setF_agenda (p : Place) (f : Fibre) : (setF s p f).agenda = s.agenda := rfl

/-! `setC` -/
@[simp] theorem setC_mem (c : Nat) (x : Core) : (setC s c x).mem = s.mem := rfl
@[simp] theorem setC_time (c : Nat) (x : Core) : (setC s c x).time = s.time := rfl
@[simp] theorem setC_tickStart (c : Nat) (x : Core) : (setC s c x).tickStart = s.tickStart := rfl
@[simp] theorem setC_crossed (c : Nat) (x : Core) : (setC s c x).crossed = s.crossed := rfl
@[simp] theorem setC_dies (c : Nat) (x : Core) : (setC s c x).dies = s.dies := rfl
@[simp] theorem setC_cores (c : Nat) (x : Core) : (setC s c x).cores = tset Core.init s.cores c x := rfl
@[simp] theorem setC_berths (c : Nat) (x : Core) : (setC s c x).berths = s.berths := rfl
@[simp] theorem setC_fibres (c : Nat) (x : Core) : (setC s c x).fibres = s.fibres := rfl
@[simp] theorem setC_vregs (c : Nat) (x : Core) : (setC s c x).vregs = s.vregs := rfl
@[simp] theorem setC_pends (c : Nat) (x : Core) : (setC s c x).pends = s.pends := rfl
@[simp] theorem setC_homes (c : Nat) (x : Core) : (setC s c x).homes = s.homes := rfl
@[simp] theorem setC_slices (c : Nat) (x : Core) : (setC s c x).slices = s.slices := rfl
@[simp] theorem setC_errLines (c : Nat) (x : Core) : (setC s c x).errLines = s.errLines := rfl
@[simp] theorem setC_stamps (c : Nat) (x : Core) : (setC s c x).stamps = s.stamps := rfl
@[simp] theorem setC_reqs (c : Nat) (x : Core) : (setC s c x).reqs = s.reqs := rfl
@[simp] theorem setC_replies (c : Nat) (x : Core) : (setC s c x).replies = s.replies := rfl
@[simp] theorem setC_recalls (c : Nat) (x : Core) : (setC s c x).recalls = s.recalls := rfl
@[simp] theorem setC_far (c : Nat) (x : Core) : (setC s c x).far = s.far := rfl
@[simp] theorem setC_unreach (c : Nat) (x : Core) : (setC s c x).unreach = s.unreach := rfl
@[simp] theorem setC_hostTide (c : Nat) (x : Core) : (setC s c x).hostTide = s.hostTide := rfl
@[simp] theorem setC_queues (c : Nat) (x : Core) : (setC s c x).queues = s.queues := rfl
@[simp] theorem setC_groups (c : Nat) (x : Core) : (setC s c x).groups = s.groups := rfl
@[simp] theorem setC_insts (c : Nat) (x : Core) : (setC s c x).insts = s.insts := rfl
@[simp] theorem setC_cmds (c : Nat) (x : Core) : (setC s c x).cmds = s.cmds := rfl
@[simp] theorem setC_quays (c : Nat) (x : Core) : (setC s c x).quays = s.quays := rfl
@[simp] theorem setC_slotTab (c : Nat) (x : Core) : (setC s c x).slotTab = s.slotTab := rfl
@[simp] theorem setC_trigs (c : Nat) (x : Core) : (setC s c x).trigs = s.trigs := rfl
@[simp] theorem setC_runs (c : Nat) (x : Core) : (setC s c x).runs = s.runs := rfl
@[simp] theorem setC_ctxs (c : Nat) (x : Core) : (setC s c x).ctxs = s.ctxs := rfl
@[simp] theorem setC_cmd (c : Nat) (x : Core) : (setC s c x).cmd = s.cmd := rfl
@[simp] theorem setC_gangs (c : Nat) (x : Core) : (setC s c x).gangs = s.gangs := rfl
@[simp] theorem setC_dumps (c : Nat) (x : Core) : (setC s c x).dumps = s.dumps := rfl
@[simp] theorem setC_links (c : Nat) (x : Core) : (setC s c x).links = s.links := rfl
@[simp] theorem setC_inbox (c : Nat) (x : Core) : (setC s c x).inbox = s.inbox := rfl
@[simp] theorem setC_collCount (c : Nat) (x : Core) : (setC s c x).collCount = s.collCount := rfl
@[simp] theorem setC_emptied (c : Nat) (x : Core) : (setC s c x).emptied = s.emptied := rfl
@[simp] theorem setC_regs (c : Nat) (x : Core) : (setC s c x).regs = s.regs := rfl
@[simp] theorem setC_boot (c : Nat) (x : Core) : (setC s c x).boot = s.boot := rfl
@[simp] theorem setC_hostWin (c : Nat) (x : Core) : (setC s c x).hostWin = s.hostWin := rfl
@[simp] theorem setC_hostRegs (c : Nat) (x : Core) : (setC s c x).hostRegs = s.hostRegs := rfl
@[simp] theorem setC_modNo (c : Nat) (x : Core) : (setC s c x).modNo = s.modNo := rfl
@[simp] theorem setC_cxlSize (c : Nat) (x : Core) : (setC s c x).cxlSize = s.cxlSize := rfl
@[simp] theorem setC_nextId (c : Nat) (x : Core) : (setC s c x).nextId = s.nextId := rfl
@[simp] theorem setC_nextInst (c : Nat) (x : Core) : (setC s c x).nextInst = s.nextInst := rfl
@[simp] theorem setC_nextSeq (c : Nat) (x : Core) : (setC s c x).nextSeq = s.nextSeq := rfl
@[simp] theorem setC_freeAt (c : Nat) (x : Core) : (setC s c x).freeAt = s.freeAt := rfl
@[simp] theorem setC_here (c : Nat) (x : Core) : (setC s c x).here = s.here := rfl
@[simp] theorem setC_focus (c : Nat) (x : Core) : (setC s c x).focus = s.focus := rfl
@[simp] theorem setC_sched (c : Nat) (x : Core) : (setC s c x).sched = s.sched := rfl
@[simp] theorem setC_agenda (c : Nat) (x : Core) : (setC s c x).agenda = s.agenda := rfl

/-! `setB` -/
@[simp] theorem setB_mem (c b : Nat) (x : Berth) : (setB s c b x).mem = s.mem := rfl
@[simp] theorem setB_time (c b : Nat) (x : Berth) : (setB s c b x).time = s.time := rfl
@[simp] theorem setB_tickStart (c b : Nat) (x : Berth) : (setB s c b x).tickStart = s.tickStart := rfl
@[simp] theorem setB_crossed (c b : Nat) (x : Berth) : (setB s c b x).crossed = s.crossed := rfl
@[simp] theorem setB_dies (c b : Nat) (x : Berth) : (setB s c b x).dies = s.dies := rfl
@[simp] theorem setB_cores (c b : Nat) (x : Berth) : (setB s c b x).cores = s.cores := rfl
@[simp] theorem setB_berths (c b : Nat) (x : Berth) : (setB s c b x).berths = tset Berth.init s.berths (bkey c b) x := rfl
@[simp] theorem setB_fibres (c b : Nat) (x : Berth) : (setB s c b x).fibres = s.fibres := rfl
@[simp] theorem setB_vregs (c b : Nat) (x : Berth) : (setB s c b x).vregs = s.vregs := rfl
@[simp] theorem setB_pends (c b : Nat) (x : Berth) : (setB s c b x).pends = s.pends := rfl
@[simp] theorem setB_homes (c b : Nat) (x : Berth) : (setB s c b x).homes = s.homes := rfl
@[simp] theorem setB_slices (c b : Nat) (x : Berth) : (setB s c b x).slices = s.slices := rfl
@[simp] theorem setB_errLines (c b : Nat) (x : Berth) : (setB s c b x).errLines = s.errLines := rfl
@[simp] theorem setB_stamps (c b : Nat) (x : Berth) : (setB s c b x).stamps = s.stamps := rfl
@[simp] theorem setB_reqs (c b : Nat) (x : Berth) : (setB s c b x).reqs = s.reqs := rfl
@[simp] theorem setB_replies (c b : Nat) (x : Berth) : (setB s c b x).replies = s.replies := rfl
@[simp] theorem setB_recalls (c b : Nat) (x : Berth) : (setB s c b x).recalls = s.recalls := rfl
@[simp] theorem setB_far (c b : Nat) (x : Berth) : (setB s c b x).far = s.far := rfl
@[simp] theorem setB_unreach (c b : Nat) (x : Berth) : (setB s c b x).unreach = s.unreach := rfl
@[simp] theorem setB_hostTide (c b : Nat) (x : Berth) : (setB s c b x).hostTide = s.hostTide := rfl
@[simp] theorem setB_queues (c b : Nat) (x : Berth) : (setB s c b x).queues = s.queues := rfl
@[simp] theorem setB_groups (c b : Nat) (x : Berth) : (setB s c b x).groups = s.groups := rfl
@[simp] theorem setB_insts (c b : Nat) (x : Berth) : (setB s c b x).insts = s.insts := rfl
@[simp] theorem setB_cmds (c b : Nat) (x : Berth) : (setB s c b x).cmds = s.cmds := rfl
@[simp] theorem setB_quays (c b : Nat) (x : Berth) : (setB s c b x).quays = s.quays := rfl
@[simp] theorem setB_slotTab (c b : Nat) (x : Berth) : (setB s c b x).slotTab = s.slotTab := rfl
@[simp] theorem setB_trigs (c b : Nat) (x : Berth) : (setB s c b x).trigs = s.trigs := rfl
@[simp] theorem setB_runs (c b : Nat) (x : Berth) : (setB s c b x).runs = s.runs := rfl
@[simp] theorem setB_ctxs (c b : Nat) (x : Berth) : (setB s c b x).ctxs = s.ctxs := rfl
@[simp] theorem setB_cmd (c b : Nat) (x : Berth) : (setB s c b x).cmd = s.cmd := rfl
@[simp] theorem setB_gangs (c b : Nat) (x : Berth) : (setB s c b x).gangs = s.gangs := rfl
@[simp] theorem setB_dumps (c b : Nat) (x : Berth) : (setB s c b x).dumps = s.dumps := rfl
@[simp] theorem setB_links (c b : Nat) (x : Berth) : (setB s c b x).links = s.links := rfl
@[simp] theorem setB_inbox (c b : Nat) (x : Berth) : (setB s c b x).inbox = s.inbox := rfl
@[simp] theorem setB_collCount (c b : Nat) (x : Berth) : (setB s c b x).collCount = s.collCount := rfl
@[simp] theorem setB_emptied (c b : Nat) (x : Berth) : (setB s c b x).emptied = s.emptied := rfl
@[simp] theorem setB_regs (c b : Nat) (x : Berth) : (setB s c b x).regs = s.regs := rfl
@[simp] theorem setB_boot (c b : Nat) (x : Berth) : (setB s c b x).boot = s.boot := rfl
@[simp] theorem setB_hostWin (c b : Nat) (x : Berth) : (setB s c b x).hostWin = s.hostWin := rfl
@[simp] theorem setB_hostRegs (c b : Nat) (x : Berth) : (setB s c b x).hostRegs = s.hostRegs := rfl
@[simp] theorem setB_modNo (c b : Nat) (x : Berth) : (setB s c b x).modNo = s.modNo := rfl
@[simp] theorem setB_cxlSize (c b : Nat) (x : Berth) : (setB s c b x).cxlSize = s.cxlSize := rfl
@[simp] theorem setB_nextId (c b : Nat) (x : Berth) : (setB s c b x).nextId = s.nextId := rfl
@[simp] theorem setB_nextInst (c b : Nat) (x : Berth) : (setB s c b x).nextInst = s.nextInst := rfl
@[simp] theorem setB_nextSeq (c b : Nat) (x : Berth) : (setB s c b x).nextSeq = s.nextSeq := rfl
@[simp] theorem setB_freeAt (c b : Nat) (x : Berth) : (setB s c b x).freeAt = s.freeAt := rfl
@[simp] theorem setB_here (c b : Nat) (x : Berth) : (setB s c b x).here = s.here := rfl
@[simp] theorem setB_focus (c b : Nat) (x : Berth) : (setB s c b x).focus = s.focus := rfl
@[simp] theorem setB_sched (c b : Nat) (x : Berth) : (setB s c b x).sched = s.sched := rfl
@[simp] theorem setB_agenda (c b : Nat) (x : Berth) : (setB s c b x).agenda = s.agenda := rfl

/-! `setD` -/
@[simp] theorem setD_mem (d : Nat) (x : Die) : (setD s d x).mem = s.mem := rfl
@[simp] theorem setD_time (d : Nat) (x : Die) : (setD s d x).time = s.time := rfl
@[simp] theorem setD_tickStart (d : Nat) (x : Die) : (setD s d x).tickStart = s.tickStart := rfl
@[simp] theorem setD_crossed (d : Nat) (x : Die) : (setD s d x).crossed = s.crossed := rfl
@[simp] theorem setD_dies (d : Nat) (x : Die) : (setD s d x).dies = tset Die.init s.dies d x := rfl
@[simp] theorem setD_cores (d : Nat) (x : Die) : (setD s d x).cores = s.cores := rfl
@[simp] theorem setD_berths (d : Nat) (x : Die) : (setD s d x).berths = s.berths := rfl
@[simp] theorem setD_fibres (d : Nat) (x : Die) : (setD s d x).fibres = s.fibres := rfl
@[simp] theorem setD_vregs (d : Nat) (x : Die) : (setD s d x).vregs = s.vregs := rfl
@[simp] theorem setD_pends (d : Nat) (x : Die) : (setD s d x).pends = s.pends := rfl
@[simp] theorem setD_homes (d : Nat) (x : Die) : (setD s d x).homes = s.homes := rfl
@[simp] theorem setD_slices (d : Nat) (x : Die) : (setD s d x).slices = s.slices := rfl
@[simp] theorem setD_errLines (d : Nat) (x : Die) : (setD s d x).errLines = s.errLines := rfl
@[simp] theorem setD_stamps (d : Nat) (x : Die) : (setD s d x).stamps = s.stamps := rfl
@[simp] theorem setD_reqs (d : Nat) (x : Die) : (setD s d x).reqs = s.reqs := rfl
@[simp] theorem setD_replies (d : Nat) (x : Die) : (setD s d x).replies = s.replies := rfl
@[simp] theorem setD_recalls (d : Nat) (x : Die) : (setD s d x).recalls = s.recalls := rfl
@[simp] theorem setD_far (d : Nat) (x : Die) : (setD s d x).far = s.far := rfl
@[simp] theorem setD_unreach (d : Nat) (x : Die) : (setD s d x).unreach = s.unreach := rfl
@[simp] theorem setD_hostTide (d : Nat) (x : Die) : (setD s d x).hostTide = s.hostTide := rfl
@[simp] theorem setD_queues (d : Nat) (x : Die) : (setD s d x).queues = s.queues := rfl
@[simp] theorem setD_groups (d : Nat) (x : Die) : (setD s d x).groups = s.groups := rfl
@[simp] theorem setD_insts (d : Nat) (x : Die) : (setD s d x).insts = s.insts := rfl
@[simp] theorem setD_cmds (d : Nat) (x : Die) : (setD s d x).cmds = s.cmds := rfl
@[simp] theorem setD_quays (d : Nat) (x : Die) : (setD s d x).quays = s.quays := rfl
@[simp] theorem setD_slotTab (d : Nat) (x : Die) : (setD s d x).slotTab = s.slotTab := rfl
@[simp] theorem setD_trigs (d : Nat) (x : Die) : (setD s d x).trigs = s.trigs := rfl
@[simp] theorem setD_runs (d : Nat) (x : Die) : (setD s d x).runs = s.runs := rfl
@[simp] theorem setD_ctxs (d : Nat) (x : Die) : (setD s d x).ctxs = s.ctxs := rfl
@[simp] theorem setD_cmd (d : Nat) (x : Die) : (setD s d x).cmd = s.cmd := rfl
@[simp] theorem setD_gangs (d : Nat) (x : Die) : (setD s d x).gangs = s.gangs := rfl
@[simp] theorem setD_dumps (d : Nat) (x : Die) : (setD s d x).dumps = s.dumps := rfl
@[simp] theorem setD_links (d : Nat) (x : Die) : (setD s d x).links = s.links := rfl
@[simp] theorem setD_inbox (d : Nat) (x : Die) : (setD s d x).inbox = s.inbox := rfl
@[simp] theorem setD_collCount (d : Nat) (x : Die) : (setD s d x).collCount = s.collCount := rfl
@[simp] theorem setD_emptied (d : Nat) (x : Die) : (setD s d x).emptied = s.emptied := rfl
@[simp] theorem setD_regs (d : Nat) (x : Die) : (setD s d x).regs = s.regs := rfl
@[simp] theorem setD_boot (d : Nat) (x : Die) : (setD s d x).boot = s.boot := rfl
@[simp] theorem setD_hostWin (d : Nat) (x : Die) : (setD s d x).hostWin = s.hostWin := rfl
@[simp] theorem setD_hostRegs (d : Nat) (x : Die) : (setD s d x).hostRegs = s.hostRegs := rfl
@[simp] theorem setD_modNo (d : Nat) (x : Die) : (setD s d x).modNo = s.modNo := rfl
@[simp] theorem setD_cxlSize (d : Nat) (x : Die) : (setD s d x).cxlSize = s.cxlSize := rfl
@[simp] theorem setD_nextId (d : Nat) (x : Die) : (setD s d x).nextId = s.nextId := rfl
@[simp] theorem setD_nextInst (d : Nat) (x : Die) : (setD s d x).nextInst = s.nextInst := rfl
@[simp] theorem setD_nextSeq (d : Nat) (x : Die) : (setD s d x).nextSeq = s.nextSeq := rfl
@[simp] theorem setD_freeAt (d : Nat) (x : Die) : (setD s d x).freeAt = s.freeAt := rfl
@[simp] theorem setD_here (d : Nat) (x : Die) : (setD s d x).here = s.here := rfl
@[simp] theorem setD_focus (d : Nat) (x : Die) : (setD s d x).focus = s.focus := rfl
@[simp] theorem setD_sched (d : Nat) (x : Die) : (setD s d x).sched = s.sched := rfl
@[simp] theorem setD_agenda (d : Nat) (x : Die) : (setD s d x).agenda = s.agenda := rfl

/-! `setQy` -/
@[simp] theorem setQy_mem (q : Nat) (x : Quay) : (setQy s q x).mem = s.mem := rfl
@[simp] theorem setQy_time (q : Nat) (x : Quay) : (setQy s q x).time = s.time := rfl
@[simp] theorem setQy_tickStart (q : Nat) (x : Quay) : (setQy s q x).tickStart = s.tickStart := rfl
@[simp] theorem setQy_crossed (q : Nat) (x : Quay) : (setQy s q x).crossed = s.crossed := rfl
@[simp] theorem setQy_dies (q : Nat) (x : Quay) : (setQy s q x).dies = s.dies := rfl
@[simp] theorem setQy_cores (q : Nat) (x : Quay) : (setQy s q x).cores = s.cores := rfl
@[simp] theorem setQy_berths (q : Nat) (x : Quay) : (setQy s q x).berths = s.berths := rfl
@[simp] theorem setQy_fibres (q : Nat) (x : Quay) : (setQy s q x).fibres = s.fibres := rfl
@[simp] theorem setQy_vregs (q : Nat) (x : Quay) : (setQy s q x).vregs = s.vregs := rfl
@[simp] theorem setQy_pends (q : Nat) (x : Quay) : (setQy s q x).pends = s.pends := rfl
@[simp] theorem setQy_homes (q : Nat) (x : Quay) : (setQy s q x).homes = s.homes := rfl
@[simp] theorem setQy_slices (q : Nat) (x : Quay) : (setQy s q x).slices = s.slices := rfl
@[simp] theorem setQy_errLines (q : Nat) (x : Quay) : (setQy s q x).errLines = s.errLines := rfl
@[simp] theorem setQy_stamps (q : Nat) (x : Quay) : (setQy s q x).stamps = s.stamps := rfl
@[simp] theorem setQy_reqs (q : Nat) (x : Quay) : (setQy s q x).reqs = s.reqs := rfl
@[simp] theorem setQy_replies (q : Nat) (x : Quay) : (setQy s q x).replies = s.replies := rfl
@[simp] theorem setQy_recalls (q : Nat) (x : Quay) : (setQy s q x).recalls = s.recalls := rfl
@[simp] theorem setQy_far (q : Nat) (x : Quay) : (setQy s q x).far = s.far := rfl
@[simp] theorem setQy_unreach (q : Nat) (x : Quay) : (setQy s q x).unreach = s.unreach := rfl
@[simp] theorem setQy_hostTide (q : Nat) (x : Quay) : (setQy s q x).hostTide = s.hostTide := rfl
@[simp] theorem setQy_queues (q : Nat) (x : Quay) : (setQy s q x).queues = s.queues := rfl
@[simp] theorem setQy_groups (q : Nat) (x : Quay) : (setQy s q x).groups = s.groups := rfl
@[simp] theorem setQy_insts (q : Nat) (x : Quay) : (setQy s q x).insts = s.insts := rfl
@[simp] theorem setQy_cmds (q : Nat) (x : Quay) : (setQy s q x).cmds = s.cmds := rfl
@[simp] theorem setQy_quays (q : Nat) (x : Quay) : (setQy s q x).quays = tset Quay.init s.quays q x := rfl
@[simp] theorem setQy_slotTab (q : Nat) (x : Quay) : (setQy s q x).slotTab = s.slotTab := rfl
@[simp] theorem setQy_trigs (q : Nat) (x : Quay) : (setQy s q x).trigs = s.trigs := rfl
@[simp] theorem setQy_runs (q : Nat) (x : Quay) : (setQy s q x).runs = s.runs := rfl
@[simp] theorem setQy_ctxs (q : Nat) (x : Quay) : (setQy s q x).ctxs = s.ctxs := rfl
@[simp] theorem setQy_cmd (q : Nat) (x : Quay) : (setQy s q x).cmd = s.cmd := rfl
@[simp] theorem setQy_gangs (q : Nat) (x : Quay) : (setQy s q x).gangs = s.gangs := rfl
@[simp] theorem setQy_dumps (q : Nat) (x : Quay) : (setQy s q x).dumps = s.dumps := rfl
@[simp] theorem setQy_links (q : Nat) (x : Quay) : (setQy s q x).links = s.links := rfl
@[simp] theorem setQy_inbox (q : Nat) (x : Quay) : (setQy s q x).inbox = s.inbox := rfl
@[simp] theorem setQy_collCount (q : Nat) (x : Quay) : (setQy s q x).collCount = s.collCount := rfl
@[simp] theorem setQy_emptied (q : Nat) (x : Quay) : (setQy s q x).emptied = s.emptied := rfl
@[simp] theorem setQy_regs (q : Nat) (x : Quay) : (setQy s q x).regs = s.regs := rfl
@[simp] theorem setQy_boot (q : Nat) (x : Quay) : (setQy s q x).boot = s.boot := rfl
@[simp] theorem setQy_hostWin (q : Nat) (x : Quay) : (setQy s q x).hostWin = s.hostWin := rfl
@[simp] theorem setQy_hostRegs (q : Nat) (x : Quay) : (setQy s q x).hostRegs = s.hostRegs := rfl
@[simp] theorem setQy_modNo (q : Nat) (x : Quay) : (setQy s q x).modNo = s.modNo := rfl
@[simp] theorem setQy_cxlSize (q : Nat) (x : Quay) : (setQy s q x).cxlSize = s.cxlSize := rfl
@[simp] theorem setQy_nextId (q : Nat) (x : Quay) : (setQy s q x).nextId = s.nextId := rfl
@[simp] theorem setQy_nextInst (q : Nat) (x : Quay) : (setQy s q x).nextInst = s.nextInst := rfl
@[simp] theorem setQy_nextSeq (q : Nat) (x : Quay) : (setQy s q x).nextSeq = s.nextSeq := rfl
@[simp] theorem setQy_freeAt (q : Nat) (x : Quay) : (setQy s q x).freeAt = s.freeAt := rfl
@[simp] theorem setQy_here (q : Nat) (x : Quay) : (setQy s q x).here = s.here := rfl
@[simp] theorem setQy_focus (q : Nat) (x : Quay) : (setQy s q x).focus = s.focus := rfl
@[simp] theorem setQy_sched (q : Nat) (x : Quay) : (setQy s q x).sched = s.sched := rfl
@[simp] theorem setQy_agenda (q : Nat) (x : Quay) : (setQy s q x).agenda = s.agenda := rfl

/-! `setSl` -/
@[simp] theorem setSl_mem (k : Nat) (x : Slice) : (setSl s k x).mem = s.mem := rfl
@[simp] theorem setSl_time (k : Nat) (x : Slice) : (setSl s k x).time = s.time := rfl
@[simp] theorem setSl_tickStart (k : Nat) (x : Slice) : (setSl s k x).tickStart = s.tickStart := rfl
@[simp] theorem setSl_crossed (k : Nat) (x : Slice) : (setSl s k x).crossed = s.crossed := rfl
@[simp] theorem setSl_dies (k : Nat) (x : Slice) : (setSl s k x).dies = s.dies := rfl
@[simp] theorem setSl_cores (k : Nat) (x : Slice) : (setSl s k x).cores = s.cores := rfl
@[simp] theorem setSl_berths (k : Nat) (x : Slice) : (setSl s k x).berths = s.berths := rfl
@[simp] theorem setSl_fibres (k : Nat) (x : Slice) : (setSl s k x).fibres = s.fibres := rfl
@[simp] theorem setSl_vregs (k : Nat) (x : Slice) : (setSl s k x).vregs = s.vregs := rfl
@[simp] theorem setSl_pends (k : Nat) (x : Slice) : (setSl s k x).pends = s.pends := rfl
@[simp] theorem setSl_homes (k : Nat) (x : Slice) : (setSl s k x).homes = s.homes := rfl
@[simp] theorem setSl_slices (k : Nat) (x : Slice) : (setSl s k x).slices = tset Slice.init s.slices k x := rfl
@[simp] theorem setSl_errLines (k : Nat) (x : Slice) : (setSl s k x).errLines = s.errLines := rfl
@[simp] theorem setSl_stamps (k : Nat) (x : Slice) : (setSl s k x).stamps = s.stamps := rfl
@[simp] theorem setSl_reqs (k : Nat) (x : Slice) : (setSl s k x).reqs = s.reqs := rfl
@[simp] theorem setSl_replies (k : Nat) (x : Slice) : (setSl s k x).replies = s.replies := rfl
@[simp] theorem setSl_recalls (k : Nat) (x : Slice) : (setSl s k x).recalls = s.recalls := rfl
@[simp] theorem setSl_far (k : Nat) (x : Slice) : (setSl s k x).far = s.far := rfl
@[simp] theorem setSl_unreach (k : Nat) (x : Slice) : (setSl s k x).unreach = s.unreach := rfl
@[simp] theorem setSl_hostTide (k : Nat) (x : Slice) : (setSl s k x).hostTide = s.hostTide := rfl
@[simp] theorem setSl_queues (k : Nat) (x : Slice) : (setSl s k x).queues = s.queues := rfl
@[simp] theorem setSl_groups (k : Nat) (x : Slice) : (setSl s k x).groups = s.groups := rfl
@[simp] theorem setSl_insts (k : Nat) (x : Slice) : (setSl s k x).insts = s.insts := rfl
@[simp] theorem setSl_cmds (k : Nat) (x : Slice) : (setSl s k x).cmds = s.cmds := rfl
@[simp] theorem setSl_quays (k : Nat) (x : Slice) : (setSl s k x).quays = s.quays := rfl
@[simp] theorem setSl_slotTab (k : Nat) (x : Slice) : (setSl s k x).slotTab = s.slotTab := rfl
@[simp] theorem setSl_trigs (k : Nat) (x : Slice) : (setSl s k x).trigs = s.trigs := rfl
@[simp] theorem setSl_runs (k : Nat) (x : Slice) : (setSl s k x).runs = s.runs := rfl
@[simp] theorem setSl_ctxs (k : Nat) (x : Slice) : (setSl s k x).ctxs = s.ctxs := rfl
@[simp] theorem setSl_cmd (k : Nat) (x : Slice) : (setSl s k x).cmd = s.cmd := rfl
@[simp] theorem setSl_gangs (k : Nat) (x : Slice) : (setSl s k x).gangs = s.gangs := rfl
@[simp] theorem setSl_dumps (k : Nat) (x : Slice) : (setSl s k x).dumps = s.dumps := rfl
@[simp] theorem setSl_links (k : Nat) (x : Slice) : (setSl s k x).links = s.links := rfl
@[simp] theorem setSl_inbox (k : Nat) (x : Slice) : (setSl s k x).inbox = s.inbox := rfl
@[simp] theorem setSl_collCount (k : Nat) (x : Slice) : (setSl s k x).collCount = s.collCount := rfl
@[simp] theorem setSl_emptied (k : Nat) (x : Slice) : (setSl s k x).emptied = s.emptied := rfl
@[simp] theorem setSl_regs (k : Nat) (x : Slice) : (setSl s k x).regs = s.regs := rfl
@[simp] theorem setSl_boot (k : Nat) (x : Slice) : (setSl s k x).boot = s.boot := rfl
@[simp] theorem setSl_hostWin (k : Nat) (x : Slice) : (setSl s k x).hostWin = s.hostWin := rfl
@[simp] theorem setSl_hostRegs (k : Nat) (x : Slice) : (setSl s k x).hostRegs = s.hostRegs := rfl
@[simp] theorem setSl_modNo (k : Nat) (x : Slice) : (setSl s k x).modNo = s.modNo := rfl
@[simp] theorem setSl_cxlSize (k : Nat) (x : Slice) : (setSl s k x).cxlSize = s.cxlSize := rfl
@[simp] theorem setSl_nextId (k : Nat) (x : Slice) : (setSl s k x).nextId = s.nextId := rfl
@[simp] theorem setSl_nextInst (k : Nat) (x : Slice) : (setSl s k x).nextInst = s.nextInst := rfl
@[simp] theorem setSl_nextSeq (k : Nat) (x : Slice) : (setSl s k x).nextSeq = s.nextSeq := rfl
@[simp] theorem setSl_freeAt (k : Nat) (x : Slice) : (setSl s k x).freeAt = s.freeAt := rfl
@[simp] theorem setSl_here (k : Nat) (x : Slice) : (setSl s k x).here = s.here := rfl
@[simp] theorem setSl_focus (k : Nat) (x : Slice) : (setSl s k x).focus = s.focus := rfl
@[simp] theorem setSl_sched (k : Nat) (x : Slice) : (setSl s k x).sched = s.sched := rfl
@[simp] theorem setSl_agenda (k : Nat) (x : Slice) : (setSl s k x).agenda = s.agenda := rfl

/-! `setG` -/
@[simp] theorem setG_mem (g : Nat) (x : Group) : (setG s g x).mem = s.mem := rfl
@[simp] theorem setG_time (g : Nat) (x : Group) : (setG s g x).time = s.time := rfl
@[simp] theorem setG_tickStart (g : Nat) (x : Group) : (setG s g x).tickStart = s.tickStart := rfl
@[simp] theorem setG_crossed (g : Nat) (x : Group) : (setG s g x).crossed = s.crossed := rfl
@[simp] theorem setG_dies (g : Nat) (x : Group) : (setG s g x).dies = s.dies := rfl
@[simp] theorem setG_cores (g : Nat) (x : Group) : (setG s g x).cores = s.cores := rfl
@[simp] theorem setG_berths (g : Nat) (x : Group) : (setG s g x).berths = s.berths := rfl
@[simp] theorem setG_fibres (g : Nat) (x : Group) : (setG s g x).fibres = s.fibres := rfl
@[simp] theorem setG_vregs (g : Nat) (x : Group) : (setG s g x).vregs = s.vregs := rfl
@[simp] theorem setG_pends (g : Nat) (x : Group) : (setG s g x).pends = s.pends := rfl
@[simp] theorem setG_homes (g : Nat) (x : Group) : (setG s g x).homes = s.homes := rfl
@[simp] theorem setG_slices (g : Nat) (x : Group) : (setG s g x).slices = s.slices := rfl
@[simp] theorem setG_errLines (g : Nat) (x : Group) : (setG s g x).errLines = s.errLines := rfl
@[simp] theorem setG_stamps (g : Nat) (x : Group) : (setG s g x).stamps = s.stamps := rfl
@[simp] theorem setG_reqs (g : Nat) (x : Group) : (setG s g x).reqs = s.reqs := rfl
@[simp] theorem setG_replies (g : Nat) (x : Group) : (setG s g x).replies = s.replies := rfl
@[simp] theorem setG_recalls (g : Nat) (x : Group) : (setG s g x).recalls = s.recalls := rfl
@[simp] theorem setG_far (g : Nat) (x : Group) : (setG s g x).far = s.far := rfl
@[simp] theorem setG_unreach (g : Nat) (x : Group) : (setG s g x).unreach = s.unreach := rfl
@[simp] theorem setG_hostTide (g : Nat) (x : Group) : (setG s g x).hostTide = s.hostTide := rfl
@[simp] theorem setG_queues (g : Nat) (x : Group) : (setG s g x).queues = s.queues := rfl
@[simp] theorem setG_groups (g : Nat) (x : Group) : (setG s g x).groups = tput s.groups g x := rfl
@[simp] theorem setG_insts (g : Nat) (x : Group) : (setG s g x).insts = s.insts := rfl
@[simp] theorem setG_cmds (g : Nat) (x : Group) : (setG s g x).cmds = s.cmds := rfl
@[simp] theorem setG_quays (g : Nat) (x : Group) : (setG s g x).quays = s.quays := rfl
@[simp] theorem setG_slotTab (g : Nat) (x : Group) : (setG s g x).slotTab = s.slotTab := rfl
@[simp] theorem setG_trigs (g : Nat) (x : Group) : (setG s g x).trigs = s.trigs := rfl
@[simp] theorem setG_runs (g : Nat) (x : Group) : (setG s g x).runs = s.runs := rfl
@[simp] theorem setG_ctxs (g : Nat) (x : Group) : (setG s g x).ctxs = s.ctxs := rfl
@[simp] theorem setG_cmd (g : Nat) (x : Group) : (setG s g x).cmd = s.cmd := rfl
@[simp] theorem setG_gangs (g : Nat) (x : Group) : (setG s g x).gangs = s.gangs := rfl
@[simp] theorem setG_dumps (g : Nat) (x : Group) : (setG s g x).dumps = s.dumps := rfl
@[simp] theorem setG_links (g : Nat) (x : Group) : (setG s g x).links = s.links := rfl
@[simp] theorem setG_inbox (g : Nat) (x : Group) : (setG s g x).inbox = s.inbox := rfl
@[simp] theorem setG_collCount (g : Nat) (x : Group) : (setG s g x).collCount = s.collCount := rfl
@[simp] theorem setG_emptied (g : Nat) (x : Group) : (setG s g x).emptied = s.emptied := rfl
@[simp] theorem setG_regs (g : Nat) (x : Group) : (setG s g x).regs = s.regs := rfl
@[simp] theorem setG_boot (g : Nat) (x : Group) : (setG s g x).boot = s.boot := rfl
@[simp] theorem setG_hostWin (g : Nat) (x : Group) : (setG s g x).hostWin = s.hostWin := rfl
@[simp] theorem setG_hostRegs (g : Nat) (x : Group) : (setG s g x).hostRegs = s.hostRegs := rfl
@[simp] theorem setG_modNo (g : Nat) (x : Group) : (setG s g x).modNo = s.modNo := rfl
@[simp] theorem setG_cxlSize (g : Nat) (x : Group) : (setG s g x).cxlSize = s.cxlSize := rfl
@[simp] theorem setG_nextId (g : Nat) (x : Group) : (setG s g x).nextId = s.nextId := rfl
@[simp] theorem setG_nextInst (g : Nat) (x : Group) : (setG s g x).nextInst = s.nextInst := rfl
@[simp] theorem setG_nextSeq (g : Nat) (x : Group) : (setG s g x).nextSeq = s.nextSeq := rfl
@[simp] theorem setG_freeAt (g : Nat) (x : Group) : (setG s g x).freeAt = s.freeAt := rfl
@[simp] theorem setG_here (g : Nat) (x : Group) : (setG s g x).here = s.here := rfl
@[simp] theorem setG_focus (g : Nat) (x : Group) : (setG s g x).focus = s.focus := rfl
@[simp] theorem setG_sched (g : Nat) (x : Group) : (setG s g x).sched = s.sched := rfl
@[simp] theorem setG_agenda (g : Nat) (x : Group) : (setG s g x).agenda = s.agenda := rfl

/-! `setI` -/
@[simp] theorem setI_mem (i : Nat) (x : Inst) : (setI s i x).mem = s.mem := rfl
@[simp] theorem setI_time (i : Nat) (x : Inst) : (setI s i x).time = s.time := rfl
@[simp] theorem setI_tickStart (i : Nat) (x : Inst) : (setI s i x).tickStart = s.tickStart := rfl
@[simp] theorem setI_crossed (i : Nat) (x : Inst) : (setI s i x).crossed = s.crossed := rfl
@[simp] theorem setI_dies (i : Nat) (x : Inst) : (setI s i x).dies = s.dies := rfl
@[simp] theorem setI_cores (i : Nat) (x : Inst) : (setI s i x).cores = s.cores := rfl
@[simp] theorem setI_berths (i : Nat) (x : Inst) : (setI s i x).berths = s.berths := rfl
@[simp] theorem setI_fibres (i : Nat) (x : Inst) : (setI s i x).fibres = s.fibres := rfl
@[simp] theorem setI_vregs (i : Nat) (x : Inst) : (setI s i x).vregs = s.vregs := rfl
@[simp] theorem setI_pends (i : Nat) (x : Inst) : (setI s i x).pends = s.pends := rfl
@[simp] theorem setI_homes (i : Nat) (x : Inst) : (setI s i x).homes = s.homes := rfl
@[simp] theorem setI_slices (i : Nat) (x : Inst) : (setI s i x).slices = s.slices := rfl
@[simp] theorem setI_errLines (i : Nat) (x : Inst) : (setI s i x).errLines = s.errLines := rfl
@[simp] theorem setI_stamps (i : Nat) (x : Inst) : (setI s i x).stamps = s.stamps := rfl
@[simp] theorem setI_reqs (i : Nat) (x : Inst) : (setI s i x).reqs = s.reqs := rfl
@[simp] theorem setI_replies (i : Nat) (x : Inst) : (setI s i x).replies = s.replies := rfl
@[simp] theorem setI_recalls (i : Nat) (x : Inst) : (setI s i x).recalls = s.recalls := rfl
@[simp] theorem setI_far (i : Nat) (x : Inst) : (setI s i x).far = s.far := rfl
@[simp] theorem setI_unreach (i : Nat) (x : Inst) : (setI s i x).unreach = s.unreach := rfl
@[simp] theorem setI_hostTide (i : Nat) (x : Inst) : (setI s i x).hostTide = s.hostTide := rfl
@[simp] theorem setI_queues (i : Nat) (x : Inst) : (setI s i x).queues = s.queues := rfl
@[simp] theorem setI_groups (i : Nat) (x : Inst) : (setI s i x).groups = s.groups := rfl
@[simp] theorem setI_insts (i : Nat) (x : Inst) : (setI s i x).insts = tput s.insts i x := rfl
@[simp] theorem setI_cmds (i : Nat) (x : Inst) : (setI s i x).cmds = s.cmds := rfl
@[simp] theorem setI_quays (i : Nat) (x : Inst) : (setI s i x).quays = s.quays := rfl
@[simp] theorem setI_slotTab (i : Nat) (x : Inst) : (setI s i x).slotTab = s.slotTab := rfl
@[simp] theorem setI_trigs (i : Nat) (x : Inst) : (setI s i x).trigs = s.trigs := rfl
@[simp] theorem setI_runs (i : Nat) (x : Inst) : (setI s i x).runs = s.runs := rfl
@[simp] theorem setI_ctxs (i : Nat) (x : Inst) : (setI s i x).ctxs = s.ctxs := rfl
@[simp] theorem setI_cmd (i : Nat) (x : Inst) : (setI s i x).cmd = s.cmd := rfl
@[simp] theorem setI_gangs (i : Nat) (x : Inst) : (setI s i x).gangs = s.gangs := rfl
@[simp] theorem setI_dumps (i : Nat) (x : Inst) : (setI s i x).dumps = s.dumps := rfl
@[simp] theorem setI_links (i : Nat) (x : Inst) : (setI s i x).links = s.links := rfl
@[simp] theorem setI_inbox (i : Nat) (x : Inst) : (setI s i x).inbox = s.inbox := rfl
@[simp] theorem setI_collCount (i : Nat) (x : Inst) : (setI s i x).collCount = s.collCount := rfl
@[simp] theorem setI_emptied (i : Nat) (x : Inst) : (setI s i x).emptied = s.emptied := rfl
@[simp] theorem setI_regs (i : Nat) (x : Inst) : (setI s i x).regs = s.regs := rfl
@[simp] theorem setI_boot (i : Nat) (x : Inst) : (setI s i x).boot = s.boot := rfl
@[simp] theorem setI_hostWin (i : Nat) (x : Inst) : (setI s i x).hostWin = s.hostWin := rfl
@[simp] theorem setI_hostRegs (i : Nat) (x : Inst) : (setI s i x).hostRegs = s.hostRegs := rfl
@[simp] theorem setI_modNo (i : Nat) (x : Inst) : (setI s i x).modNo = s.modNo := rfl
@[simp] theorem setI_cxlSize (i : Nat) (x : Inst) : (setI s i x).cxlSize = s.cxlSize := rfl
@[simp] theorem setI_nextId (i : Nat) (x : Inst) : (setI s i x).nextId = s.nextId := rfl
@[simp] theorem setI_nextInst (i : Nat) (x : Inst) : (setI s i x).nextInst = s.nextInst := rfl
@[simp] theorem setI_nextSeq (i : Nat) (x : Inst) : (setI s i x).nextSeq = s.nextSeq := rfl
@[simp] theorem setI_freeAt (i : Nat) (x : Inst) : (setI s i x).freeAt = s.freeAt := rfl
@[simp] theorem setI_here (i : Nat) (x : Inst) : (setI s i x).here = s.here := rfl
@[simp] theorem setI_focus (i : Nat) (x : Inst) : (setI s i x).focus = s.focus := rfl
@[simp] theorem setI_sched (i : Nat) (x : Inst) : (setI s i x).sched = s.sched := rfl
@[simp] theorem setI_agenda (i : Nat) (x : Inst) : (setI s i x).agenda = s.agenda := rfl

/-! `setX` -/
@[simp] theorem setX_mem (c : Nat) (x : Ctx) : (setX s c x).mem = s.mem := rfl
@[simp] theorem setX_time (c : Nat) (x : Ctx) : (setX s c x).time = s.time := rfl
@[simp] theorem setX_tickStart (c : Nat) (x : Ctx) : (setX s c x).tickStart = s.tickStart := rfl
@[simp] theorem setX_crossed (c : Nat) (x : Ctx) : (setX s c x).crossed = s.crossed := rfl
@[simp] theorem setX_dies (c : Nat) (x : Ctx) : (setX s c x).dies = s.dies := rfl
@[simp] theorem setX_cores (c : Nat) (x : Ctx) : (setX s c x).cores = s.cores := rfl
@[simp] theorem setX_berths (c : Nat) (x : Ctx) : (setX s c x).berths = s.berths := rfl
@[simp] theorem setX_fibres (c : Nat) (x : Ctx) : (setX s c x).fibres = s.fibres := rfl
@[simp] theorem setX_vregs (c : Nat) (x : Ctx) : (setX s c x).vregs = s.vregs := rfl
@[simp] theorem setX_pends (c : Nat) (x : Ctx) : (setX s c x).pends = s.pends := rfl
@[simp] theorem setX_homes (c : Nat) (x : Ctx) : (setX s c x).homes = s.homes := rfl
@[simp] theorem setX_slices (c : Nat) (x : Ctx) : (setX s c x).slices = s.slices := rfl
@[simp] theorem setX_errLines (c : Nat) (x : Ctx) : (setX s c x).errLines = s.errLines := rfl
@[simp] theorem setX_stamps (c : Nat) (x : Ctx) : (setX s c x).stamps = s.stamps := rfl
@[simp] theorem setX_reqs (c : Nat) (x : Ctx) : (setX s c x).reqs = s.reqs := rfl
@[simp] theorem setX_replies (c : Nat) (x : Ctx) : (setX s c x).replies = s.replies := rfl
@[simp] theorem setX_recalls (c : Nat) (x : Ctx) : (setX s c x).recalls = s.recalls := rfl
@[simp] theorem setX_far (c : Nat) (x : Ctx) : (setX s c x).far = s.far := rfl
@[simp] theorem setX_unreach (c : Nat) (x : Ctx) : (setX s c x).unreach = s.unreach := rfl
@[simp] theorem setX_hostTide (c : Nat) (x : Ctx) : (setX s c x).hostTide = s.hostTide := rfl
@[simp] theorem setX_queues (c : Nat) (x : Ctx) : (setX s c x).queues = s.queues := rfl
@[simp] theorem setX_groups (c : Nat) (x : Ctx) : (setX s c x).groups = s.groups := rfl
@[simp] theorem setX_insts (c : Nat) (x : Ctx) : (setX s c x).insts = s.insts := rfl
@[simp] theorem setX_cmds (c : Nat) (x : Ctx) : (setX s c x).cmds = s.cmds := rfl
@[simp] theorem setX_quays (c : Nat) (x : Ctx) : (setX s c x).quays = s.quays := rfl
@[simp] theorem setX_slotTab (c : Nat) (x : Ctx) : (setX s c x).slotTab = s.slotTab := rfl
@[simp] theorem setX_trigs (c : Nat) (x : Ctx) : (setX s c x).trigs = s.trigs := rfl
@[simp] theorem setX_runs (c : Nat) (x : Ctx) : (setX s c x).runs = s.runs := rfl
@[simp] theorem setX_ctxs (c : Nat) (x : Ctx) : (setX s c x).ctxs = tput s.ctxs c x := rfl
@[simp] theorem setX_cmd (c : Nat) (x : Ctx) : (setX s c x).cmd = s.cmd := rfl
@[simp] theorem setX_gangs (c : Nat) (x : Ctx) : (setX s c x).gangs = s.gangs := rfl
@[simp] theorem setX_dumps (c : Nat) (x : Ctx) : (setX s c x).dumps = s.dumps := rfl
@[simp] theorem setX_links (c : Nat) (x : Ctx) : (setX s c x).links = s.links := rfl
@[simp] theorem setX_inbox (c : Nat) (x : Ctx) : (setX s c x).inbox = s.inbox := rfl
@[simp] theorem setX_collCount (c : Nat) (x : Ctx) : (setX s c x).collCount = s.collCount := rfl
@[simp] theorem setX_emptied (c : Nat) (x : Ctx) : (setX s c x).emptied = s.emptied := rfl
@[simp] theorem setX_regs (c : Nat) (x : Ctx) : (setX s c x).regs = s.regs := rfl
@[simp] theorem setX_boot (c : Nat) (x : Ctx) : (setX s c x).boot = s.boot := rfl
@[simp] theorem setX_hostWin (c : Nat) (x : Ctx) : (setX s c x).hostWin = s.hostWin := rfl
@[simp] theorem setX_hostRegs (c : Nat) (x : Ctx) : (setX s c x).hostRegs = s.hostRegs := rfl
@[simp] theorem setX_modNo (c : Nat) (x : Ctx) : (setX s c x).modNo = s.modNo := rfl
@[simp] theorem setX_cxlSize (c : Nat) (x : Ctx) : (setX s c x).cxlSize = s.cxlSize := rfl
@[simp] theorem setX_nextId (c : Nat) (x : Ctx) : (setX s c x).nextId = s.nextId := rfl
@[simp] theorem setX_nextInst (c : Nat) (x : Ctx) : (setX s c x).nextInst = s.nextInst := rfl
@[simp] theorem setX_nextSeq (c : Nat) (x : Ctx) : (setX s c x).nextSeq = s.nextSeq := rfl
@[simp] theorem setX_freeAt (c : Nat) (x : Ctx) : (setX s c x).freeAt = s.freeAt := rfl
@[simp] theorem setX_here (c : Nat) (x : Ctx) : (setX s c x).here = s.here := rfl
@[simp] theorem setX_focus (c : Nat) (x : Ctx) : (setX s c x).focus = s.focus := rfl
@[simp] theorem setX_sched (c : Nat) (x : Ctx) : (setX s c x).sched = s.sched := rfl
@[simp] theorem setX_agenda (c : Nat) (x : Ctx) : (setX s c x).agenda = s.agenda := rfl

/-! `setReg` -/
@[simp] theorem setReg_mem (a : Nat) (v : DWord) : (setReg s a v).mem = s.mem := rfl
@[simp] theorem setReg_time (a : Nat) (v : DWord) : (setReg s a v).time = s.time := rfl
@[simp] theorem setReg_tickStart (a : Nat) (v : DWord) : (setReg s a v).tickStart = s.tickStart := rfl
@[simp] theorem setReg_crossed (a : Nat) (v : DWord) : (setReg s a v).crossed = s.crossed := rfl
@[simp] theorem setReg_dies (a : Nat) (v : DWord) : (setReg s a v).dies = s.dies := rfl
@[simp] theorem setReg_cores (a : Nat) (v : DWord) : (setReg s a v).cores = s.cores := rfl
@[simp] theorem setReg_berths (a : Nat) (v : DWord) : (setReg s a v).berths = s.berths := rfl
@[simp] theorem setReg_fibres (a : Nat) (v : DWord) : (setReg s a v).fibres = s.fibres := rfl
@[simp] theorem setReg_vregs (a : Nat) (v : DWord) : (setReg s a v).vregs = s.vregs := rfl
@[simp] theorem setReg_pends (a : Nat) (v : DWord) : (setReg s a v).pends = s.pends := rfl
@[simp] theorem setReg_homes (a : Nat) (v : DWord) : (setReg s a v).homes = s.homes := rfl
@[simp] theorem setReg_slices (a : Nat) (v : DWord) : (setReg s a v).slices = s.slices := rfl
@[simp] theorem setReg_errLines (a : Nat) (v : DWord) : (setReg s a v).errLines = s.errLines := rfl
@[simp] theorem setReg_stamps (a : Nat) (v : DWord) : (setReg s a v).stamps = s.stamps := rfl
@[simp] theorem setReg_reqs (a : Nat) (v : DWord) : (setReg s a v).reqs = s.reqs := rfl
@[simp] theorem setReg_replies (a : Nat) (v : DWord) : (setReg s a v).replies = s.replies := rfl
@[simp] theorem setReg_recalls (a : Nat) (v : DWord) : (setReg s a v).recalls = s.recalls := rfl
@[simp] theorem setReg_far (a : Nat) (v : DWord) : (setReg s a v).far = s.far := rfl
@[simp] theorem setReg_unreach (a : Nat) (v : DWord) : (setReg s a v).unreach = s.unreach := rfl
@[simp] theorem setReg_hostTide (a : Nat) (v : DWord) : (setReg s a v).hostTide = s.hostTide := rfl
@[simp] theorem setReg_queues (a : Nat) (v : DWord) : (setReg s a v).queues = s.queues := rfl
@[simp] theorem setReg_groups (a : Nat) (v : DWord) : (setReg s a v).groups = s.groups := rfl
@[simp] theorem setReg_insts (a : Nat) (v : DWord) : (setReg s a v).insts = s.insts := rfl
@[simp] theorem setReg_cmds (a : Nat) (v : DWord) : (setReg s a v).cmds = s.cmds := rfl
@[simp] theorem setReg_quays (a : Nat) (v : DWord) : (setReg s a v).quays = s.quays := rfl
@[simp] theorem setReg_slotTab (a : Nat) (v : DWord) : (setReg s a v).slotTab = s.slotTab := rfl
@[simp] theorem setReg_trigs (a : Nat) (v : DWord) : (setReg s a v).trigs = s.trigs := rfl
@[simp] theorem setReg_runs (a : Nat) (v : DWord) : (setReg s a v).runs = s.runs := rfl
@[simp] theorem setReg_ctxs (a : Nat) (v : DWord) : (setReg s a v).ctxs = s.ctxs := rfl
@[simp] theorem setReg_cmd (a : Nat) (v : DWord) : (setReg s a v).cmd = s.cmd := rfl
@[simp] theorem setReg_gangs (a : Nat) (v : DWord) : (setReg s a v).gangs = s.gangs := rfl
@[simp] theorem setReg_dumps (a : Nat) (v : DWord) : (setReg s a v).dumps = s.dumps := rfl
@[simp] theorem setReg_links (a : Nat) (v : DWord) : (setReg s a v).links = s.links := rfl
@[simp] theorem setReg_inbox (a : Nat) (v : DWord) : (setReg s a v).inbox = s.inbox := rfl
@[simp] theorem setReg_collCount (a : Nat) (v : DWord) : (setReg s a v).collCount = s.collCount := rfl
@[simp] theorem setReg_emptied (a : Nat) (v : DWord) : (setReg s a v).emptied = s.emptied := rfl
@[simp] theorem setReg_regs (a : Nat) (v : DWord) : (setReg s a v).regs = tset 0 s.regs a v := rfl
@[simp] theorem setReg_boot (a : Nat) (v : DWord) : (setReg s a v).boot = s.boot := rfl
@[simp] theorem setReg_hostWin (a : Nat) (v : DWord) : (setReg s a v).hostWin = s.hostWin := rfl
@[simp] theorem setReg_hostRegs (a : Nat) (v : DWord) : (setReg s a v).hostRegs = s.hostRegs := rfl
@[simp] theorem setReg_modNo (a : Nat) (v : DWord) : (setReg s a v).modNo = s.modNo := rfl
@[simp] theorem setReg_cxlSize (a : Nat) (v : DWord) : (setReg s a v).cxlSize = s.cxlSize := rfl
@[simp] theorem setReg_nextId (a : Nat) (v : DWord) : (setReg s a v).nextId = s.nextId := rfl
@[simp] theorem setReg_nextInst (a : Nat) (v : DWord) : (setReg s a v).nextInst = s.nextInst := rfl
@[simp] theorem setReg_nextSeq (a : Nat) (v : DWord) : (setReg s a v).nextSeq = s.nextSeq := rfl
@[simp] theorem setReg_freeAt (a : Nat) (v : DWord) : (setReg s a v).freeAt = s.freeAt := rfl
@[simp] theorem setReg_here (a : Nat) (v : DWord) : (setReg s a v).here = s.here := rfl
@[simp] theorem setReg_focus (a : Nat) (v : DWord) : (setReg s a v).focus = s.focus := rfl
@[simp] theorem setReg_sched (a : Nat) (v : DWord) : (setReg s a v).sched = s.sched := rfl
@[simp] theorem setReg_agenda (a : Nat) (v : DWord) : (setReg s a v).agenda = s.agenda := rfl

/-! `due` -/
@[simp] theorem due_mem (i : Instr) : (due s i).mem = s.mem := rfl
@[simp] theorem due_time (i : Instr) : (due s i).time = s.time := rfl
@[simp] theorem due_tickStart (i : Instr) : (due s i).tickStart = s.tickStart := rfl
@[simp] theorem due_crossed (i : Instr) : (due s i).crossed = s.crossed := rfl
@[simp] theorem due_dies (i : Instr) : (due s i).dies = s.dies := rfl
@[simp] theorem due_cores (i : Instr) : (due s i).cores = s.cores := rfl
@[simp] theorem due_berths (i : Instr) : (due s i).berths = s.berths := rfl
@[simp] theorem due_fibres (i : Instr) : (due s i).fibres = s.fibres := rfl
@[simp] theorem due_vregs (i : Instr) : (due s i).vregs = s.vregs := rfl
@[simp] theorem due_pends (i : Instr) : (due s i).pends = s.pends := rfl
@[simp] theorem due_homes (i : Instr) : (due s i).homes = s.homes := rfl
@[simp] theorem due_slices (i : Instr) : (due s i).slices = s.slices := rfl
@[simp] theorem due_errLines (i : Instr) : (due s i).errLines = s.errLines := rfl
@[simp] theorem due_stamps (i : Instr) : (due s i).stamps = s.stamps := rfl
@[simp] theorem due_reqs (i : Instr) : (due s i).reqs = s.reqs := rfl
@[simp] theorem due_replies (i : Instr) : (due s i).replies = s.replies := rfl
@[simp] theorem due_recalls (i : Instr) : (due s i).recalls = s.recalls := rfl
@[simp] theorem due_far (i : Instr) : (due s i).far = s.far := rfl
@[simp] theorem due_unreach (i : Instr) : (due s i).unreach = s.unreach := rfl
@[simp] theorem due_hostTide (i : Instr) : (due s i).hostTide = s.hostTide := rfl
@[simp] theorem due_queues (i : Instr) : (due s i).queues = s.queues := rfl
@[simp] theorem due_groups (i : Instr) : (due s i).groups = s.groups := rfl
@[simp] theorem due_insts (i : Instr) : (due s i).insts = s.insts := rfl
@[simp] theorem due_cmds (i : Instr) : (due s i).cmds = s.cmds := rfl
@[simp] theorem due_quays (i : Instr) : (due s i).quays = s.quays := rfl
@[simp] theorem due_slotTab (i : Instr) : (due s i).slotTab = s.slotTab := rfl
@[simp] theorem due_trigs (i : Instr) : (due s i).trigs = s.trigs := rfl
@[simp] theorem due_runs (i : Instr) : (due s i).runs = s.runs := rfl
@[simp] theorem due_ctxs (i : Instr) : (due s i).ctxs = s.ctxs := rfl
@[simp] theorem due_cmd (i : Instr) : (due s i).cmd = s.cmd := rfl
@[simp] theorem due_gangs (i : Instr) : (due s i).gangs = s.gangs := rfl
@[simp] theorem due_dumps (i : Instr) : (due s i).dumps = s.dumps := rfl
@[simp] theorem due_links (i : Instr) : (due s i).links = s.links := rfl
@[simp] theorem due_inbox (i : Instr) : (due s i).inbox = s.inbox := rfl
@[simp] theorem due_collCount (i : Instr) : (due s i).collCount = s.collCount := rfl
@[simp] theorem due_emptied (i : Instr) : (due s i).emptied = s.emptied := rfl
@[simp] theorem due_regs (i : Instr) : (due s i).regs = s.regs := rfl
@[simp] theorem due_boot (i : Instr) : (due s i).boot = s.boot := rfl
@[simp] theorem due_hostWin (i : Instr) : (due s i).hostWin = s.hostWin := rfl
@[simp] theorem due_hostRegs (i : Instr) : (due s i).hostRegs = s.hostRegs := rfl
@[simp] theorem due_modNo (i : Instr) : (due s i).modNo = s.modNo := rfl
@[simp] theorem due_cxlSize (i : Instr) : (due s i).cxlSize = s.cxlSize := rfl
@[simp] theorem due_nextId (i : Instr) : (due s i).nextId = s.nextId := rfl
@[simp] theorem due_nextInst (i : Instr) : (due s i).nextInst = s.nextInst := rfl
@[simp] theorem due_nextSeq (i : Instr) : (due s i).nextSeq = s.nextSeq := rfl
@[simp] theorem due_freeAt (i : Instr) : (due s i).freeAt = s.freeAt := rfl
@[simp] theorem due_here (i : Instr) : (due s i).here = s.here := rfl
@[simp] theorem due_focus (i : Instr) : (due s i).focus = s.focus := rfl
@[simp] theorem due_sched (i : Instr) : (due s i).sched = s.sched := rfl
@[simp] theorem due_agenda (i : Instr) : (due s i).agenda = s.agenda ++ [i] := rfl

end Sys2Proof.Machine
end

