-- ==== Sys2Proof/Laws/Tab.lean ====
section
/-! SUPPORT. What a table reads as after each update, and that every update keeps the canonical form. -/
namespace Sys2Proof.Machine

variable {α : Type}

theorem tfind_tput_self (t : Tab α) (k : Nat) (v : α) : tfind (tput t k v) k = some v := by
  induction t with
  | nil => simp [tput, tfind]
  | cons e t ih =>
    obtain ⟨a, w⟩ := e
    simp only [tput]
    split
    · simp [tfind]
    · split
      · simp [tfind]
      · rename_i h; simp [tfind, ih, Ne.symm h]

theorem tfind_tput_ne (t : Tab α) {k j : Nat} (v : α) (h : j ≠ k) : tfind (tput t k v) j = tfind t j := by
  induction t with
  | nil => simp [tput, tfind, Ne.symm h]
  | cons e t ih =>
    obtain ⟨a, w⟩ := e
    simp only [tput]
    split
    · simp [tfind, Ne.symm h]
    · split
      · rename_i e; subst e; simp [tfind, Ne.symm h]
      · simp [tfind, ih]

theorem tput_tput (t : Tab α) (k : Nat) (v w : α) : tput (tput t k v) k w = tput t k w := by
  induction t with
  | nil => simp [tput]
  | cons e t ih =>
    obtain ⟨a, u⟩ := e
    by_cases h1 : k < a
    · simp [tput, h1]
    · by_cases h2 : k = a
      · simp [tput, h2]
      · simp [tput, h1, h2, ih]

/-- Every key is above `b`. -/
def tabAbove (b : Nat) (t : Tab α) : Prop := ∀ e ∈ t, b < e.1

theorem tabRises_cons {a : Nat} {v : α} {t : Tab α} : tabRises ((a, v) :: t) = true ↔ tabAbove a t ∧ tabRises t = true := by
  induction t generalizing a v with
  | nil => simp [tabRises, tabAbove]
  | cons e t ih =>
    obtain ⟨b, w⟩ := e
    simp only [tabRises, Bool.and_eq_true, decide_eq_true_eq]
    constructor
    · rintro ⟨h1, h2⟩
      refine ⟨?_, h2⟩
      intro x hx
      rcases List.mem_cons.mp hx with rfl | hx
      · exact h1
      · exact lt_trans h1 ((ih.mp h2).1 x hx)
    · rintro ⟨h1, h2⟩
      exact ⟨h1 (b, w) (by simp), h2⟩

theorem tfind_above {b k : Nat} {t : Tab α} (h : tabAbove b t) (hk : k ≤ b) : tfind t k = none := by
  induction t with
  | nil => rfl
  | cons e t ih =>
    obtain ⟨a, v⟩ := e
    have := h (a, v) (by simp)
    simp only [tfind]
    rw [if_neg (by simp at this; omega)]
    exact ih fun x hx => h x (by simp [hx])

/-- Storing what a rising table already holds changes nothing. -/
theorem tput_same {t : Tab α} {k : Nat} {v : α} (hr : tabRises t = true) (h : tfind t k = some v) : tput t k v = t := by
  induction t with
  | nil => simp [tfind] at h
  | cons e t ih =>
    obtain ⟨a, w⟩ := e
    rw [tabRises_cons] at hr
    simp only [tfind] at h
    simp only [tput]
    split at h
    · rename_i e; subst e; simp at h; subst h; simp
    · rename_i hne
      have hka : ¬ k < a := by
        intro hlt; rw [tfind_above hr.1 (le_of_lt hlt)] at h; simp at h
      rw [if_neg hka, if_neg (Ne.symm hne), ih hr.2 h]

theorem tget_above {b k : Nat} {d : α} {t : Tab α} (h : tabAbove b t) (hk : k ≤ b) : tget d t k = d := by
  induction t with
  | nil => rfl
  | cons e t ih =>
    obtain ⟨a, v⟩ := e
    have := h (a, v) (by simp)
    simp only [tget]
    rw [if_neg (by simp at this; omega)]
    exact ih fun x hx => h x (by simp [hx])

variable [DecidableEq α]

theorem tabWf_cons {d : α} {a : Nat} {v : α} {t : Tab α} : tabWf d ((a, v) :: t) = true ↔ v ≠ d ∧ tabAbove a t ∧ tabWf d t = true := by
  induction t generalizing a v with
  | nil => simp [tabWf, tabAbove]
  | cons e t ih =>
    obtain ⟨b, w⟩ := e
    simp only [tabWf, Bool.and_eq_true, decide_eq_true_eq, bne_iff_ne]
    constructor
    · rintro ⟨⟨h1, h2⟩, h3⟩
      refine ⟨h2, ?_, h3⟩
      intro x hx
      rcases List.mem_cons.mp hx with rfl | hx
      · exact h1
      · exact lt_trans h1 ((ih.mp h3).2.1 x hx)
    · rintro ⟨h1, h2, h3⟩
      exact ⟨⟨h2 (b, w) (by simp), h1⟩, h3⟩

theorem tget_tset_ne (d : α) (t : Tab α) {k j : Nat} (v : α) (h : j ≠ k) : tget d (tset d t k v) j = tget d t j := by
  induction t with
  | nil => simp only [tset]; split <;> simp [tget, Ne.symm h]
  | cons e t ih =>
    obtain ⟨a, w⟩ := e
    simp only [tset]
    split
    · split <;> simp [tget, Ne.symm h]
    · split
      · rename_i e; subst e; split <;> simp [tget, Ne.symm h]
      · simp [tget, ih]

theorem tget_tset_self {d : α} {t : Tab α} (k : Nat) (v : α) (hw : tabWf d t = true) : tget d (tset d t k v) k = v := by
  induction t with
  | nil => simp only [tset]; split <;> simp_all [tget]
  | cons e t ih =>
    obtain ⟨a, w⟩ := e
    rw [tabWf_cons] at hw
    simp only [tset]
    split
    · rename_i hlt
      split
      · rename_i hd; subst hd
        simp only [tget]
        rw [if_neg (by omega)]
        exact tget_above hw.2.1 (le_of_lt hlt)
      · simp [tget]
    · split
      · rename_i e; subst e
        split
        · rename_i hd; subst hd; exact tget_above hw.2.1 le_rfl
        · simp [tget]
      · rename_i hne; simp [tget, Ne.symm hne, ih hw.2.2]

theorem tabAbove_tset {d : α} {b : Nat} {t : Tab α} {k : Nat} (v : α) (h : tabAbove b t) (hk : b < k) : tabAbove b (tset d t k v) := by
  induction t with
  | nil => simp only [tset]; split <;> simp_all [tabAbove]
  | cons e t ih =>
    obtain ⟨a, w⟩ := e
    have ha : b < a := h (a, w) (by simp)
    have ht : tabAbove b t := fun x hx => h x (by simp [hx])
    simp only [tset]
    split
    · split
      · exact h
      · intro x hx; rcases List.mem_cons.mp hx with rfl | hx
        · exact hk
        · exact h x hx
    · split
      · split
        · exact ht
        · intro x hx; rcases List.mem_cons.mp hx with rfl | hx
          · exact hk
          · exact ht x hx
      · intro x hx; rcases List.mem_cons.mp hx with rfl | hx
        · exact ha
        · exact ih ht x hx

/-- A write keeps the canonical form. -/
theorem tabWf_tset {d : α} {t : Tab α} (k : Nat) (v : α) (h : tabWf d t = true) : tabWf d (tset d t k v) = true := by
  induction t with
  | nil => simp only [tset]; split <;> simp_all [tabWf]
  | cons e t ih =>
    obtain ⟨a, w⟩ := e
    have h' := tabWf_cons.mp h
    simp only [tset]
    split
    · rename_i hlt
      split
      · exact h
      · rename_i hd
        refine tabWf_cons.mpr ⟨hd, ?_, h⟩
        intro x hx; rcases List.mem_cons.mp hx with rfl | hx
        · exact hlt
        · exact lt_trans hlt (h'.2.1 x hx)
    · split
      · rename_i e; subst e
        split
        · exact h'.2.2
        · rename_i hd; exact tabWf_cons.mpr ⟨hd, h'.2.1, h'.2.2⟩
      · exact tabWf_cons.mpr ⟨h'.1, tabAbove_tset _ h'.2.1 (by omega), ih h'.2.2⟩

end Sys2Proof.Machine
end

