-- ==== Sys2Proof/Laws/Regs.lean ====
section
/-! SUPPORT. What writing a register and going on do, once and for all. -/
namespace Sys2Proof.Machine

/-! ### The fibre table -/

@[simp] theorem getF_setF_self (s : State) (p : Place) (f : Fibre) : getF (setF s p f) p = some f := tfind_tput_self _ _ _
theorem tfind_setF_ne (s : State) (p : Place) (f : Fibre) {k : Nat} (h : k ≠ pkey p) : tfind (setF s p f).fibres k = tfind s.fibres k :=
  tfind_tput_ne _ _ h
@[simp] theorem setF_setF (s : State) (p : Place) (f g : Fibre) : setF (setF s p f) p g = setF s p g := by
  simp [setF, tput_tput]
theorem setF_same {s : State} {p : Place} {f : Fibre} (hr : tabRises s.fibres = true) (h : getF s p = some f) : setF s p f = s := by
  simp only [setF]; rw [tput_same hr h]
@[simp] theorem getF_setB (s : State) (p : Place) (c b : Nat) (x : Berth) : getF (setB s c b x) p = getF s p := rfl

theorem rises_tput {t : Tab α} (k : Nat) (v : α) (h : tabRises t = true) : tabRises (tput t k v) = true := by
  have above : ∀ (b : Nat) (t : Tab α), tabAbove b t → b < k → tabAbove b (tput t k v) := by
    intro b t ht hk
    induction t with
    | nil => intro x hx; simp [tput] at hx; subst hx; exact hk
    | cons e t ih =>
      obtain ⟨a, w⟩ := e
      simp only [tput]
      split
      · intro x hx; rcases List.mem_cons.mp hx with rfl | hx
        · exact hk
        · exact ht x hx
      · split
        · intro x hx; rcases List.mem_cons.mp hx with rfl | hx
          · exact hk
          · exact ht x (by simp [hx])
        · intro x hx; rcases List.mem_cons.mp hx with rfl | hx
          · exact ht (a, w) (by simp)
          · exact ih (fun x hx => ht x (by simp [hx])) x hx
  induction t with
  | nil => rfl
  | cons e t ih =>
    obtain ⟨a, w⟩ := e
    have h' := tabRises_cons.mp h
    simp only [tput]
    split
    · rename_i hlt
      refine tabRises_cons.mpr ⟨?_, h⟩
      intro x hx; rcases List.mem_cons.mp hx with rfl | hx
      · exact hlt
      · exact lt_trans hlt (h'.1 x hx)
    · split
      · rename_i e; subst e; exact tabRises_cons.mpr ⟨h'.1, h'.2⟩
      · exact tabRises_cons.mpr ⟨above a t h'.1 (by omega), ih h'.2⟩

/-! ### The undo log (R184) -/

/-- Logging changes the undo log of the fibre and nothing else. -/
theorem logRef_spec {s : State} {p : Place} {f : Fibre} (r : RegRef) (h : getF s p = some f) :
    ∃ u, logRef s p r = setF s p { f with span := { f.span with undo := u } } := by
  simp only [logRef, h]
  exact ⟨_, rfl⟩

theorem logRefs_spec (rs : List RegRef) {s : State} {p : Place} {f : Fibre} (hr : tabRises s.fibres = true) (h : getF s p = some f) :
    ∃ u, rs.foldl (fun s r => logRef s p r) s = setF s p { f with span := { f.span with undo := u } } := by
  induction rs generalizing s f with
  | nil => exact ⟨f.span.undo, (setF_same hr h).symm⟩
  | cons r rs ih =>
    obtain ⟨u, hu⟩ := logRef_spec r h
    obtain ⟨w, hw⟩ := @ih (setF s p { f with span := { f.span with undo := u } }) { f with span := { f.span with undo := u } }
      (rises_tput _ _ hr) (getF_setF_self _ _ _)
    refine ⟨w, ?_⟩
    simp only [List.foldl_cons, hu, hw, setF_setF]

/-- Logging a destination. -/
theorem logOpnd_spec (o : Opnd) (n : Nat) {s : State} {p : Place} {f : Fibre} (hr : tabRises s.fibres = true) (h : getF s p = some f) :
    ∃ u, logOpnd s p o n = setF s p { f with span := { f.span with undo := u } } := by
  simp only [logOpnd, h]
  exact logRefs_spec _ hr h

/-! ### Putting values into registers -/

theorem vkey_mod (d : BitVec 1024) (c b r n : Nat) : vkey d c b r n % 256 = n % 256 := by
  simp only [vkey]; omega

theorem vkey_inj {d : BitVec 1024} {c b r k i j : Nat} (hi : i < 256) (hj : j < 256) (h : vkey d c b r (k + i) = vkey d c b r (k + j)) : i = j := by
  have := congrArg (· % 256) h
  simp only [vkey_mod] at this
  omega

/-- The vector registers of an operand take the lane values; every other one stays. -/
theorem putRefs_v (s : State) (key : Nat → Nat) (n : Nat) (vs : List (Nat × Nat)) (hw : tabWf zeroLanes s.vregs = true)
    (hinj : ∀ i j, i < n → j < n → key i = key j → i = j) :
    ∃ V, (((List.range n).map fun j => RegRef.vec (key j)).zip ((List.range n).map fun j => 32 * j)).foldl
        (fun s e => putRef s e.1 vs e.2) s = { s with vregs := V } ∧
      tabWf zeroLanes V = true ∧
      (∀ j, j < n → tget zeroLanes V (key j) = setLanes (vget s (key j)) vs (32 * j)) ∧
      ∀ q, (∀ j, j < n → q ≠ key j) → tget zeroLanes V q = vget s q := by
  induction n with
  | zero => exact ⟨s.vregs, rfl, hw, by simp, fun _ _ => rfl⟩
  | succ n ih =>
    obtain ⟨V, h1, h2, h3, h4⟩ := ih fun i j hi hj => hinj i j (by omega) (by omega)
    refine ⟨tset zeroLanes V (key n) (setLanes (tget zeroLanes V (key n)) vs (32 * n)), ?_, tabWf_tset _ _ h2, ?_, ?_⟩
    · rw [List.range_succ, List.map_append, List.map_append, List.zip_append (by simp), List.foldl_append, h1]
      rfl
    · intro j hj
      by_cases e : j = n
      · subst e
        rw [tget_tset_self _ _ h2, h4 _ fun i hi he => by have := hinj _ _ (by omega) (by omega) he; omega]
      · rw [tget_tset_ne _ _ _ fun he => e (hinj _ _ hj (by omega) he), h3 j (by omega)]
    · intro q hq
      rw [tget_tset_ne _ _ _ (hq n (by omega)), h4 q fun j hj => hq j (by omega)]

/-- The scalars of an operand take the value. -/
theorem putRefs_s {s : State} {p : Place} {f : Fibre} (k n : Nat) (e : Nat × Nat) (vs : List (Nat × Nat)) (hr : tabRises s.fibres = true)
    (h : getF s p = some f) (hw : tabWf 0 f.scal = true) :
    ∃ C, ((((List.range n).filter fun j => decide (k + j ≠ 0)).map fun j => RegRef.sca (pkey p) (k + j)).zip
        (((List.range n).filter fun j => decide (k + j ≠ 0)).map fun j => 64 * j)).foldl (fun s x => putRef s x.1 (e :: vs) x.2) s =
          setF s p { f with scal := C } ∧
      tabWf 0 C = true ∧
      (∀ j, j < n → k + j ≠ 0 → tget 0 C (k + j) = BitVec.ofNat 64 (e.2 / 2 ^ (64 * j))) ∧
      ∀ q, (∀ j, j < n → q ≠ k + j) → tget 0 C q = tget 0 f.scal q := by
  induction n with
  | zero => exact ⟨f.scal, (setF_same hr h).symm, hw, by simp, fun _ _ => rfl⟩
  | succ n ih =>
    obtain ⟨C, h1, h2, h3, h4⟩ := ih
    by_cases hz : k + n = 0
    · refine ⟨C, ?_, h2, ?_, ?_⟩
      · have e0 : [n].filter (fun j => decide (k + j ≠ 0)) = [] := by simp; omega
        rw [List.range_succ, List.filter_append, e0, List.append_nil]; exact h1
      · intro j hj hk
        exact h3 j (by omega) hk
      · intro q hq; exact h4 q fun j hj => hq j (by omega)
    · refine ⟨tset 0 C (k + n) (BitVec.ofNat 64 (e.2 / 2 ^ (64 * n))), ?_, tabWf_tset _ _ h2, ?_, ?_⟩
      · rw [List.range_succ, List.filter_append, List.map_append, List.map_append, List.zip_append (by simp), List.foldl_append, h1]
        simp only [List.filter_cons, List.filter_nil]
        rw [if_pos (decide_eq_true hz)]
        simp only [List.map_cons, List.map_nil, List.zip_cons_cons, List.zip_nil_left, List.foldl_cons, List.foldl_nil, putRef]
        have hg : tfind (setF s p { f with scal := C }).fibres (pkey p) = some { f with scal := C } := getF_setF_self s p _
        simp only [hg]
        show setF (setF s p { f with scal := C }) p _ = _
        rw [setF_setF]
      · intro j hj hk
        by_cases ej : j = n
        · subst ej; exact tget_tset_self _ _ h2
        · rw [tget_tset_ne _ _ _ (by omega)]; exact h3 j (by omega) hk
      · intro q hq
        rw [tget_tset_ne _ _ _ (hq n (by omega))]; exact h4 q fun j hj => hq j (by omega)

/-! ### Writing a register -/

theorem inject_off {s : State} (p : Place) (f : Fibre) (o : Opnd) (n : Nat) (vs : List (Nat × Nat))
    (h : (getReg s injAddr).toNat % 2 = 0) : inject s p f o n vs = (vs, s) := by
  have h1 : (getReg s injAddr).toNat % 2 ≠ 1 := by omega
  simp [inject, h1]

/-- What `writeReg` does when no injection is armed: the registers take the value, the undo log grows where a span is open, and
nothing else changes. -/
theorem writeReg_spec {s : State} {p : Place} {f : Fibre} (d : Opnd) (n : Nat) (vs : List (Nat × Nat)) (log : Bool)
    (hr : tabRises s.fibres = true) (h : getF s p = some f) (hv : tabWf zeroLanes s.vregs = true) (hc : tabWf 0 f.scal = true)
    (hn : n ≤ 256) (hi : (getReg s injAddr).toNat % 2 = 0) :
    ∃ V E C x u, writeReg s p d n vs log =
        setF { s with vregs := V, emptied := E } p { f with scal := C, fp4x := x, span := { f.span with undo := u } } ∧
      tabWf zeroLanes V = true ∧ tabWf 0 C = true ∧
      Wrote s { s with vregs := V, emptied := E } p f { f with scal := C, fp4x := x, span := { f.span with undo := u } } d n vs := by
  cases vs with
  | nil =>
    refine ⟨s.vregs, s.emptied, f.scal, f.fp4x, f.span.undo, ?_, hv, hc, rfl, ?_⟩
    · simp only [writeReg, h]; exact (setF_same hr h).symm
    · cases d with
      | v k => exact ⟨rfl, rfl, fun _ _ => rfl, fun _ _ => rfl⟩
      | s k => exact ⟨rfl, rfl, fun _ _ => rfl, fun _ _ => rfl⟩
      | sp r => refine ⟨rfl, rfl, ?_⟩; cases r <;> rfl
  | cons e vs =>
    obtain ⟨u, hu⟩ : ∃ u, (if log then logOpnd s p d n else s) = setF s p { f with span := { f.span with undo := u } } := by
      cases log
      · exact ⟨f.span.undo, (setF_same hr h).symm⟩
      · exact logOpnd_spec d n hr h
    have h0 : writeReg s p d n (e :: vs) log =
        putRefs (setF s p { f with span := { f.span with undo := u } }) d n (refsOf s f p d n) (e :: vs) := by
      simp only [writeReg, h, hu]
      rw [inject_off p f d n _ (by exact hi)]
      rfl
    have hr' := rises_tput (pkey p) { f with span := { f.span with undo := u } } hr
    rw [h0]
    -- the state whose registers the value is put into: those of the destination count as full
    let E := s.emptied.filter fun r => !(refsOf s f p d n).contains r
    cases d with
    | v k =>
      obtain ⟨V, h1, h2, h3, h4⟩ := putRefs_v { setF s p { f with span := { f.span with undo := u } } with emptied := E }
        (fun j => vkey (descOf s f) p.core p.berth f.root (k.toNat + j)) n (e :: vs) hv
        (fun i j hi hj he => vkey_inj (by omega) (by omega) he)
      refine ⟨V, E, f.scal, f.fp4x, u, ?_, h2, hc, rfl, rfl, rfl, ?_, ?_⟩
      · exact h1
      · intro j hj; exact h3 j hj
      · intro q hq; exact h4 q hq
    | s k =>
      obtain ⟨C, h1, h2, h3, h4⟩ := putRefs_s (s := { setF s p { f with span := { f.span with undo := u } } with emptied := E }) (p := p)
        k.toNat (max 1 (n / 2)) e vs hr' (getF_setF_self _ _ _) hc
      refine ⟨s.vregs, E, C, f.fp4x, u, ?_, hv, h2, rfl, rfl, rfl, ?_, ?_⟩
      · refine h1.trans ?_
        simp only [setF, tput_tput]
      · intro j hj
        by_cases hk : k.toNat + j = 0
        · simp [sget, hk]
        · simp only [sget, hk, if_false]; exact h3 j hj hk
      · intro q hq
        simp only [sget]
        rw [h4 q hq]
    | sp r =>
      by_cases hf : r = .fp4x
      · subst hf
        refine ⟨s.vregs, E, f.scal, BitVec.ofNat 16 e.2, u, ?_, hv, hc, rfl, rfl, rfl, rfl⟩
        have hg : tfind (setF s p { f with span := { f.span with undo := u } }).fibres (pkey p) =
          some { f with span := { f.span with undo := u } } := getF_setF_self s p _
        simp only [putRefs, refsOf, refShifts, List.zip_cons_cons, List.zip_nil_left, List.foldl_cons, List.foldl_nil, putRef, hg]
        simp only [setF, tput_tput]; simp [E, refsOf]
      · refine ⟨s.vregs, E, f.scal, f.fp4x, u, ?_, hv, hc, rfl, rfl, rfl, ?_⟩
        · cases r <;> first | rfl | exact absurd rfl hf
        · cases r <;> first | rfl | exact absurd rfl hf

/-! ### Going on -/

/-- No debugger's step or halt ends here. -/
theorem settleHalt_quiet {s : State} {p : Place} {f : Fibre} (h : getF s p = some f) (hq : ctxFlag s (cidOf s f) 117 = false)
    (he : f.dbg.ended = false) : settleHalt s p = s := by
  simp only [settleHalt, h, he, hq, Bool.false_and, Bool.false_eq_true, if_false, ite_self]

theorem rotate_dbg (f : Fibre) : (rotate f).dbg = f.dbg := by
  unfold rotate
  dsimp only
  split
  · rfl
  · split <;> rfl

theorem rotate_grp (f : Fibre) : (rotate f).grp = f.grp := by
  unfold rotate
  dsimp only
  split
  · rfl
  · split <;> rfl

/-- What going on makes of a fibre where no debugger attends. -/
theorem wentOn_quiet {s : State} {p : Place} {f : Fibre} (pc : DWord) (x : Bool) (hq : ctxFlag s (cidOf s f) 117 = false) :
    wentOn s p f pc x = { f with
        dbg := { f.dbg with ended := false }
        pc, fetched := none, emptyAt := false, xlat := [], op := none, readySince := cycOf s p.core
        halfCount := if f.halves.isEmpty then 0 else f.halfCount + 1, span := (wentOn s p f pc x).span } ∧
      (x = false → (wentOn s p f pc x).span = { f.span with count := f.span.count + 1 }) ∧
      (x = true → f.committing = false → (wentOn s p f pc x).span = newSpan (wentOn s p f pc x)) := by
  simp only [wentOn, hq, Bool.false_and]
  refine ⟨?_, ?_, ?_⟩
  · split <;> rfl
  · intro hx; simp [hx]
  · intro hx hc; simp only [hx, hc]; rfl

/-- With no debugger, `retireAt` counts the instruction and moves the pc. -/
theorem retireAt_quiet {s : State} {p : Place} {f : Fibre} (ipc pc : DWord) (x rot : Bool) (h : getF s p = some f)
    (hq : ctxFlag s (cidOf s f) 117 = false) :
    ∃ b, retireAt s p ipc pc x rot = setF (setB s p.core p.berth b) p (if rot then rotate (wentOn s p f pc x) else wentOn s p f pc x) := by
  have hg := (wentOn_quiet (p := p) pc x hq).1
  have e (g : Fibre) (h1 : g.dbg.ended = false) (h2 : g.grp = f.grp) :
      settleHalt (setF (noteIssue s p ipc) p g) p = setF (noteIssue s p ipc) p g := by
    refine settleHalt_quiet (getF_setF_self _ _ _) ?_ h1
    rw [← hq]
    show ctxFlag s (cidOf s g) 117 = _
    simp only [cidOf, instOf, groupOf, h2]
  simp only [retireAt, h]
  have hd : (wentOn s p f pc x).dbg.ended = false := by rw [hg]
  have hr : (wentOn s p f pc x).grp = f.grp := by rw [hg]
  refine ⟨_, e _ ?_ ?_⟩
  · cases rot
    · exact hd
    · simp only [if_true, rotate_dbg]; exact hd
  · cases rot
    · exact hr
    · simp only [if_true, rotate_grp]; exact hr

end Sys2Proof.Machine
end

