-- ==== Sys2Proof/Laws/Gate.lean ====
section
/-! SUPPORT. An instruction that can act passes the gate with the state as it is; what a result then does. -/
namespace Sys2Proof.Machine

theorem acts_getF {i : Instr} {s : State} {f : Fibre} (h : acts i s f = true) : getF s s.here = some f := by
  simp only [acts, Bool.and_eq_true, beq_iff_eq] at h; exact h.1.1.1.1.1.1

theorem acts_tidy {i : Instr} {s : State} {f : Fibre} (h : acts i s f = true) :
    tabRises s.fibres = true ∧ tabWf zeroLanes s.vregs = true ∧ tabWf 0 f.scal = true := by
  simp only [acts, tidy, Bool.and_eq_true] at h; exact ⟨h.1.1.1.1.1.2.1.1, h.1.1.1.1.1.2.1.2, h.1.1.1.1.1.2.2⟩

theorem acts_quiet {i : Instr} {s : State} {f : Fibre} (h : acts i s f = true) :
    ctxFlag s (cidOf s f) 117 = false ∧ (getReg s injAddr).toNat % 2 = 0 := by
  simp only [acts, undisturbed, Bool.and_eq_true, Bool.not_eq_true', beq_iff_eq] at h; exact ⟨h.1.2.1, h.1.2.2⟩

theorem acts_wf {i : Instr} {s : State} {f : Fibre} (h : acts i s f = true) (ho : f.op = none) : i.wf = true := by
  simp only [acts, Bool.and_eq_true] at h
  revert h
  cases i.info with
  | none => simp
  | some x =>
    simp only [ho, Option.isSome_none, Bool.false_or, Bool.and_eq_true, beq_iff_eq, issueCls]
    intro h
    by_contra hw
    have hw' : i.wf = false := by simpa using hw
    simp [hw'] at h

theorem mkc_same (l : List Split) (h : l.all (fun x => x.committed) = true) :
    (l.map fun x => ({ x with committed := true } : Split)) = l := by
  induction l with
  | nil => rfl
  | cons a l ih =>
    simp only [List.all_cons, Bool.and_eq_true] at h
    rw [List.map_cons, ih h.2]
    congr 1
    rw [← h.1]

theorem mkh_same (l : List Half) (h : l.all (fun h => h.splits.all fun x => x.committed) = true) :
    (l.map fun (h : Half) => ({ h with splits := h.splits.map fun x => ({ x with committed := true } : Split) } : Half)) = l := by
  induction l with
  | nil => rfl
  | cons a l ih =>
    simp only [List.all_cons, Bool.and_eq_true] at h
    rw [List.map_cons, ih h.2, mkc_same _ h.1]

/-- At a clean commit point a commit changes nothing. -/
theorem commitThen_clean {i : Instr} {s : State} {p : Place} {f : Fibre} (hr : tabRises s.fibres = true) (h : getF s p = some f)
    (he : eligible s p f = true) (hc : atCommitPoint s p f = true) (hn : f.committing = false) (hq : ctxFlag s (cidOf s f) 117 = false) :
    commitThen s p i = .go s := by
  simp only [atCommitPoint, Bool.and_eq_true, Option.isNone_iff_eq_none, List.isEmpty_iff, Bool.not_eq_true', beq_iff_eq] at hc
  obtain ⟨⟨⟨⟨⟨⟨⟨⟨hd, hrq⟩, hw⟩, hs⟩, hp⟩, hsp⟩, hpi⟩, hsl⟩, hhl⟩ := hc
  have hhold : f.span.hold = [] := by rw [hsp]; rfl
  have hcount : f.span.count = 0 := by rw [hsp]; rfl
  have hfroz : f.froz = .no ∧ f.dbg.halted = false := by
    simp only [eligible, Bool.and_eq_true, beq_iff_eq, Bool.not_eq_true'] at he; exact ⟨he.1.1.1.1, he.1.1.1.2⟩
  have hcls : ∀ g : Fibre, g.pilot = f.pilot → vanished g = 0 := by
    intro g hg
    have : g.pilot.cls = 0 := by rw [hg, hpi]
    simp [vanished, this]
  have hnf : f.span.faulted = none := by rw [hsp]; rfl
  have hf1 : ∀ c : Bool, ({ f with committing := c, relq := [], relWait := false, scf := false } : Fibre) = { f with committing := c } := by
    intro c
    clear hsp hhold hcount hpi
    cases f
    simp only at hrq hw hs
    subst hrq hw hs
    rfl
  have hf2 : ({ f with committing := false } : Fibre) = f := by
    clear hsp hhold hcount hpi hf1
    cases f
    simp only at hn
    subst hn
    rfl
  have hrel : ∀ g : Fibre, g.relq = [] → releaseGo (setF s p g) p = setF s p g := by
    intro g hg
    simp only [releaseGo, getF_setF_self, hg]
    split <;> rfl
  have hafter : ∀ edge, afterCommit (setF s p { f with committing := true }) p edge = s := by
    intro edge
    have hq' : ctxFlag (setF s p { f with committing := true }) (cidOf (setF s p { f with committing := true }) { f with committing := true })
        117 = false := hq
    have e1 : f.dual.isSome = false := by rw [hd]; rfl
    simp only [afterCommit, getF_setF_self, hcls, bne_self_eq_false, Bool.and_false, Bool.false_and, Bool.false_eq_true, if_false, hq',
      hcount, if_true, e1, Option.isSome_none, Bool.or_self]
    rw [setF_setF]
    conv_rhs => rw [← setF_same hr h]
    congr 1
    rw [mkc_same _ hsl, mkh_same _ hhl, ← hpi]
    have e2 : ({ f with
        committing := false, relq := [], relWait := false, spanNo := f.spanNo, splits := f.splits, halves := f.halves, pilot := f.pilot } : Fibre) =
        f := by
      clear hsp hhold hcount hpi hf1 hrel
      cases f
      simp only at hrq hw hn
      subst hrq hw hn
      rfl
    rw [e2, ← hsp]; exact e2
  have hstart : startCommit s p f = setF s p { f with committing := true } := by
    simp only [startCommit, hhold, List.isEmpty_nil, if_true]
    rw [← hf1 true]
  have hstep : ∀ edge, commitStep s p edge = (true, s) := by
    intro edge
    have e0 : ¬((hasPend s p || f.span.faulted.isSome || f.froz != .no || f.dbg.halted) = true) := by
      rw [hp, hnf, hfroz.1, hfroz.2]; decide
    simp only [commitStep, h, if_neg e0]
    split
    · rename_i d hd'; rw [hd] at hd'; cases hd'
    · simp only [hn, Bool.false_eq_true, if_false]
      rw [hstart, hrel _ (by exact hrq), getF_setF_self]
      have hcond : (true && f.relq.isEmpty && f.froz == Frozen.no && !f.dbg.halted) = true := by
        rw [hrq, hfroz.1, hfroz.2]; decide
      dsimp only
      rw [if_pos hcond, hafter]
  have hgo : dualGate s p i = .go s := by
    simp only [dualGate, h]
    split
    · rfl
    · rename_i d hd'; rw [hd] at hd'; cases hd'
  simp only [commitThen, hstep, h, he, if_true, hgo]

/-- The gate opens, with the state as it is, for an instruction that can act. -/
theorem ready_acts {i : Instr} {s : State} {f : Fibre} (h : acts i s f = true) : ready i s = .go s := by
  have hf := acts_getF h
  have hq := (acts_quiet h).1
  have hr := (acts_tidy h).1
  simp only [acts, Bool.and_eq_true] at h
  obtain ⟨⟨⟨⟨⟨-, he⟩, hfa⟩, htw⟩, -⟩, hi⟩ := h
  have hfa' : f.span.faulted.isSome = false := by simpa using hfa
  have htw' : (twinFault f).isSome = false := by simpa using htw
  revert hi
  cases hx : i.info with
  | none => simp
  | some x =>
    intro hi
    simp only [ready, hf, hx, he, hfa', htw', Bool.not_true, Bool.false_eq_true, if_false]
    by_cases ho : f.op.isSome
    · simp [ho]
    · have ho' : f.op.isSome = false := by simpa using ho
      simp only [ho', Bool.false_or, Bool.and_eq_true, beq_iff_eq, Bool.not_eq_true'] at hi
      obtain ⟨⟨⟨⟨⟨⟨⟨hc, hpp⟩, hea⟩, h0⟩, h1⟩, h2⟩, h3⟩, h4⟩ := hi
      simp only [ho', hc, hpp, hea, h0, h1, h2, h3, Bool.false_eq_true, Bool.and_false, if_false, ne_eq, not_true_eq_false, Bool.not_true, Bool.or_self]
      by_cases hn : needsCommit s s.here f i x = true
      · simp only [hn, if_true]
        simp only [hn, Bool.not_true, Bool.false_or] at h4
        rw [commitThen_clean hr hf he h4 hc hq]
      · simp [hn]

/-- An instruction that can act does. -/
theorem run_acts {i : Instr} {s : State} {f : Fibre} (k : State → Fibre → State) (h : acts i s f = true) : run i s k = .next (k s f) := by
  simp only [run, ready_acts h, acts_getF h]

/-! ### Going on -/

/-- With no debugger, an instruction that goes on changes its fibre and the issue counts of its berth. -/
theorem retireAt_spec {s : State} {p : Place} {f : Fibre} (ipc pc : DWord) (x rot : Bool) (hf : getF s p = some f)
    (hq : ctxFlag s (cidOf s f) 117 = false) (hx : x = true → f.committing = false) :
    ∃ g, getF (retireAt s p ipc pc x rot) p = some (if rot then rotate g else g) ∧ OnlyFibre s (retireAt s p ipc pc x rot) p ∧
      (x = false → WentOn f g pc) ∧ (x = true → WentOnX f g pc) ∧ SameRegs s (retireAt s p ipc pc x rot) f g ∧
      (retireAt s p ipc pc x rot).mem = s.mem := by
  obtain ⟨b, e1⟩ := retireAt_quiet ipc pc x rot hf hq
  obtain ⟨e2, e3, e4⟩ := wentOn_quiet (p := p) pc x hq
  generalize hw : wentOn s p f pc x = g at e1 e2 e3 e4
  have hs : g.scal = f.scal := by rw [e2]
  have hx4 : g.fp4x = f.fp4x := by rw [e2]
  refine ⟨g, ?_, ?_, ?_, ?_, ?_, ?_⟩
  · rw [e1]; exact getF_setF_self _ _ _
  · rw [e1]; exact ⟨rfl, fun k hk => tfind_tput_ne _ _ hk, fun k hk => tget_tset_ne _ _ _ hk⟩
  · intro h; unfold WentOn; rw [e2, e3 h]
  · intro h
    refine ⟨?_, e4 h (hx h)⟩
    rw [e2]
  · rw [e1]; exact ⟨rfl, hs, hx4, rfl⟩
  · rw [e1]; rfl

theorem next_spec {s : State} {f : Fibre} (hf : getF s s.here = some f) (hq : ctxFlag s (cidOf s f) 117 = false) :
    ∃ g, getF (next s s.here) s.here = some g ∧ OnlyFibre s (next s s.here) s.here ∧ WentOn f g (f.pc + 12) ∧
      SameRegs s (next s s.here) f g := by
  obtain ⟨g, h1, h2, h4, -, h6, -⟩ := retireAt_spec f.pc (f.pc + 12) false false hf hq (by simp)
  have e : next s s.here = retireAt s s.here f.pc (f.pc + 12) false := by simp only [next, retire, hf]
  exact ⟨g, by rw [e]; exact h1, by rw [e]; exact h2, h4 rfl, by rw [e]; exact h6⟩

theorem nextX_spec {s : State} {f : Fibre} (hf : getF s s.here = some f) (hq : ctxFlag s (cidOf s f) 117 = false)
    (hc : f.committing = false) :
    ∃ g, getF (nextX s s.here) s.here = some g ∧ OnlyFibre s (nextX s s.here) s.here ∧ WentOnX f g (f.pc + 12) ∧
      SameRegs s (nextX s s.here) f g := by
  obtain ⟨g, h1, h2, -, h4, h6, -⟩ := retireAt_spec f.pc (f.pc + 12) true false hf hq (fun _ => hc)
  have e : nextX s s.here = retireAt s s.here f.pc (f.pc + 12) true := by simp only [nextX, retire, hf]
  exact ⟨g, by rw [e]; exact h1, by rw [e]; exact h2, h4 rfl, by rw [e]; exact h6⟩

/-- An instruction that begins is not behind a commit under way. -/
theorem acts_committing {i : Instr} {s : State} {f : Fibre} (h : acts i s f = true) (ho : f.op = none) : f.committing = false := by
  simp only [acts, Bool.and_eq_true] at h
  have h2 := h.2
  cases hi : i.info with
  | none => rw [hi] at h2; simp at h2
  | some x => rw [hi] at h2; simp only [ho, Option.isSome_none, Bool.false_or, Bool.and_eq_true, Bool.not_eq_true'] at h2; exact h2.1.1.1.1.1.1.1

/-- An instruction that acts is in a fibre that no debugger has halted. -/
theorem acts_halted {i : Instr} {s : State} {f : Fibre} (h : acts i s f = true) : f.dbg.halted = false := by
  simp only [acts, Bool.and_eq_true, eligible, Bool.not_eq_true'] at h
  exact h.1.1.1.1.2.1.1.1.2

/-! ### Results -/

/-- Writing a register and going on at the next word. -/
theorem write_next {s : State} {f : Fibre} (d : Opnd) (n : Nat) (vs : List (Nat × Nat))
    (hf : getF s s.here = some f) (ht : tidy s f = true) (hq : undisturbed s f = true) (hn : n ≤ 256) :
    ∃ t g, next (writeReg s s.here d n vs true) s.here = t ∧ getF t s.here = some g ∧ OnlyFibre s t s.here ∧ WentOn f g (f.pc + 12) ∧
      Wrote s t s.here f g d n vs := by
  simp only [tidy, undisturbed, Bool.and_eq_true, Bool.not_eq_true', beq_iff_eq] at ht hq
  obtain ⟨V, E, C, x, u, h1, -, -, h4⟩ := writeReg_spec d n vs true ht.1.1 hf ht.1.2 ht.2 hn hq.2
  have hg : getF (writeReg s s.here d n vs true) s.here = some { f with scal := C, fp4x := x, span := { f.span with undo := u } } := by
    rw [h1]; exact getF_setF_self _ _ _
  have hq2 : ctxFlag (writeReg s s.here d n vs true) (cidOf (writeReg s s.here d n vs true)
      { f with scal := C, fp4x := x, span := { f.span with undo := u } }) 117 = false := by rw [h1]; exact hq.1
  obtain ⟨b, e1⟩ := retireAt_quiet (p := s.here) f.pc (f.pc + 12) false false hg hq2
  obtain ⟨e2, e3, -⟩ := wentOn_quiet (p := s.here) (f.pc + 12) false hq2
  have e3 := e3 rfl
  generalize wentOn (writeReg s s.here d n vs true) s.here _ (f.pc + 12) false = g at e1 e2 e3
  have hN : next (writeReg s s.here d n vs true) s.here =
      setF (setB { s with vregs := V, emptied := E } s.here.core s.here.berth b) s.here g := by
    simp only [next, retire, hg]
    rw [e1, h1]
    simp [setF, setB, tput_tput]
  have hs : g.scal = C := by rw [e2]
  have hx : g.fp4x = x := by rw [e2]
  refine ⟨_, g, hN, getF_setF_self _ _ _, ⟨rfl, ?_, ?_⟩, ?_, ?_⟩
  · intro k hk; exact tfind_tput_ne _ _ hk
  · intro k hk; exact tget_tset_ne _ _ _ hk
  · unfold WentOn; rw [e2, e3]
  · refine ⟨h4.1, ?_⟩
    replace h4 := h4.2
    cases d with
    | v k => exact ⟨by rw [hs]; exact h4.1, by rw [hx]; exact h4.2.1, h4.2.2.1, h4.2.2.2⟩
    | s k =>
      refine ⟨h4.1, by rw [hx]; exact h4.2.1, ?_, ?_⟩
      · intro j hj
        have := h4.2.2.1 j hj
        simp only [sget, hs] at this ⊢; exact this
      · intro q hq'
        have := h4.2.2.2 q hq'
        simp only [sget, hs] at this ⊢; exact this
    | sp r => exact ⟨h4.1, by rw [hs]; exact h4.2.1, by rw [hx]; exact h4.2.2⟩

/-- The shape of every fixed-latency instruction: it acts, writes its destination and goes on. -/
theorem writes_of_run {i : Instr} {s : State} {f : Fibre} (d : Opnd) (n : Nat) (vs : List (Nat × Nat)) (k : State → Fibre → State)
    (h : acts i s f = true) (hk : k s f = next (writeReg s s.here d n vs true) s.here) (hn : n ≤ 256) :
    ∃ t g, run i s k = .next t ∧ getF t s.here = some g ∧ OnlyFibre s t s.here ∧ WentOn f g (f.pc + 12) ∧ Wrote s t s.here f g d n vs := by
  have ht : tidy s f = true := by have := acts_tidy h; simp only [tidy, this.1, this.2.1, this.2.2, Bool.and_self]
  have hq : undisturbed s f = true := by have := acts_quiet h; simp [undisturbed, this]
  obtain ⟨t, g, h1, h2⟩ := write_next d n vs (acts_getF h) ht hq hn
  exact ⟨t, g, by rw [run_acts k h, hk, h1], h2⟩

end Sys2Proof.Machine
end

