-- ==== Sys2Proof/Laws/Fibre.lean ====
section
/-! SUPPORT. Instructions that only move a fibre: falling through, commit points, branches and calls, frames. -/
namespace Sys2Proof.Machine

theorem onlyFibre_trans {s t u : State} {p : Place} (h1 : OnlyFibre s t p) (h2 : OnlyFibre t u p) : OnlyFibre s u p := by
  obtain ⟨a1, a2, a3⟩ := h1; obtain ⟨b1, b2, b3⟩ := h2
  refine ⟨?_, fun k hk => (b2 k hk).trans (a2 k hk), fun k hk => (b3 k hk).trans (a3 k hk)⟩
  rw [b1]; conv_lhs => rw [a1]

theorem onlyFibre_setF (s : State) (p : Place) (f : Fibre) : OnlyFibre s (setF s p f) p :=
  ⟨rfl, fun _ hk => tfind_tput_ne _ _ hk, fun _ _ => rfl⟩

theorem onlyFibre_pass (s : State) (p : Place) : OnlyFibre s (passBerth s p.core p.berth) p := by
  unfold passBerth; simp only
  split
  · exact ⟨rfl, fun _ _ => rfl, fun _ hk => tget_tset_ne _ _ _ hk⟩
  · exact ⟨rfl, fun _ _ => rfl, fun _ _ => rfl⟩

theorem getF_pass (s : State) (p q : Place) : getF (passBerth s p.core p.berth) q = getF s q := by
  unfold passBerth; simp only; split <;> rfl

theorem here_of {s t : State} {p : Place} (h : OnlyFibre s t p) : t.here = s.here := by rw [h.1]

theorem falls {i : Instr} {s : State} {f : Fibre} (k : State → Fibre → State) (h : acts i s f = true) (hk : k s f = next s s.here) :
    ∃ t g, run i s k = .next t ∧ getF t s.here = some g ∧ OnlyFibre s t s.here ∧ WentOn f g (f.pc + 12) ∧ SameRegs s t f g := by
  obtain ⟨g, h1, h2, h3, h4⟩ := next_spec (acts_getF h) (acts_quiet h).1
  exact ⟨_, g, by rw [run_acts k h, hk], h1, h2, h3, h4⟩

theorem fallsX {i : Instr} {s : State} {f : Fibre} (k : State → Fibre → State) (h : acts i s f = true) (ho : f.op = none) (hk : k s f = nextX s s.here) :
    ∃ t g, run i s k = .next t ∧ getF t s.here = some g ∧ OnlyFibre s t s.here ∧ WentOnX f g (f.pc + 12) ∧ SameRegs s t f g := by
  obtain ⟨g, h1, h2, h3, h4⟩ := nextX_spec (acts_getF h) (acts_quiet h).1 (acts_committing h ho)
  exact ⟨_, g, by rw [run_acts k h, hk], h1, h2, h3, h4⟩

theorem goTo_spec {s : State} {p : Place} {f : Fibre} (tgt : DWord) (hf : getF s p = some f) (hq : ctxFlag s (cidOf s f) 117 = false) :
    ∃ g0 g, getF (goTo s p tgt) p = some g ∧ OnlyFibre s (goTo s p tgt) p ∧ WentOn f g0 tgt ∧ SameRegs s (goTo s p tgt) f g0 ∧
      g = if tgt.toNat ≤ f.pc.toNat then rotate g0 else g0 := by
  obtain ⟨g, h1, h2, h4, -, h6, -⟩ := retireAt_spec f.pc tgt false (decide (tgt.toNat ≤ f.pc.toNat)) hf hq (by simp)
  have e : goTo s p tgt = retireAt s p f.pc tgt false (decide (tgt.toNat ≤ f.pc.toNat)) := by simp only [goTo, hf]
  rw [e]
  refine ⟨g, _, h1, h2, h4 rfl, h6, ?_⟩
  simp only [decide_eq_true_eq]

theorem branches {i : Instr} {s : State} {f : Fibre} (k : State → Fibre → State) (tgt : DWord) (h : acts i s f = true)
    (hk : k s f = goTo s s.here tgt) :
    ∃ t g0 g, run i s k = .next t ∧ getF t s.here = some g ∧ OnlyFibre s t s.here ∧ WentOn f g0 tgt ∧
      Wrote s t s.here f g0 (.s 63) 2 [] ∧ g = if tgt.toNat ≤ f.pc.toNat then rotate g0 else g0 := by
  obtain ⟨g0, g, h1, h2, h3, ⟨h4, h5, h6, h8⟩, h7⟩ := goTo_spec tgt (acts_getF h) (acts_quiet h).1
  refine ⟨_, g0, g, by rw [run_acts k h, hk], h1, h2, h3, ⟨h8, h4, h6, ?_, ?_⟩, h7⟩
  · intro j _; simp only [sget, h5]
  · intro q _; simp only [sget, h5]

theorem links {i : Instr} {s : State} {f : Fibre} (k : State → Fibre → State) (tgt : DWord) (h : acts i s f = true)
    (hk : k s f = goTo (linkTo f s) s.here tgt) :
    ∃ t g0 g, run i s k = .next t ∧ getF t s.here = some g ∧ OnlyFibre s t s.here ∧ WentOn f g0 tgt ∧
      Wrote s t s.here f g0 (.s 63) 2 [(0, (f.pc + 12).toNat)] ∧ g = if tgt.toNat ≤ f.pc.toNat then rotate g0 else g0 := by
  have ht := acts_tidy h
  obtain ⟨V, E, C, x, u, e1, e2, e3, e4⟩ := writeReg_spec (.s 63) 2 [(0, (f.pc + 12).toNat)] true ht.1 (acts_getF h) ht.2.1 ht.2.2 (by decide) (acts_quiet h).2
  have hg : getF (linkTo f s) s.here = some { f with scal := C, fp4x := x, span := { f.span with undo := u } } := by
    unfold linkTo; rw [e1]; exact getF_setF_self _ _ _
  have hq : ctxFlag (linkTo f s) (cidOf (linkTo f s) { f with scal := C, fp4x := x, span := { f.span with undo := u } }) 117 = false := by
    unfold linkTo; rw [e1]; exact (acts_quiet h).1
  obtain ⟨g0, g, h1, h2, h3, ⟨h4, h5, h6, h8⟩, h7⟩ := goTo_spec tgt hg hq
  have ho : OnlyFibre s (linkTo f s) s.here := by
    unfold linkTo; rw [e1]; exact ⟨rfl, fun _ hk => tfind_tput_ne _ _ hk, fun _ _ => rfl⟩
  refine ⟨_, g0, g, by rw [run_acts k h, hk], h1, onlyFibre_trans ho h2, ?_, ⟨?_, ?_, ?_, ?_, ?_⟩, h7⟩
  · unfold WentOn at h3 ⊢; rw [h3]
  · rw [h8]; unfold linkTo; rw [e1]; exact e4.1
  · rw [h4]; unfold linkTo; rw [e1]; exact e4.2.1
  · rw [h6]; exact e4.2.2.1
  · intro j hj; have := e4.2.2.2.1 j hj; simp only [sget, h5] at this ⊢; exact this
  · intro q hq'; have := e4.2.2.2.2 q hq'; simp only [sget, h5] at this ⊢; exact this

end Sys2Proof.Machine
end

