-- ==== Sys2Proof/Laws/Mem.lean ====
section
/-! SUPPORT. Reading memory after a write, and the canonical form of memory. -/
namespace Sys2Proof.Machine

theorem memGet_memSet_self {m : Memory} (a : Nat) (b : Byte) (h : Memory.wf m = true) : memGet (memSet m a b) a = b :=
  tget_tset_self a b h

theorem memGet_memSet_ne (m : Memory) {a x : Nat} (b : Byte) (h : x ≠ a) : memGet (memSet m a b) x = memGet m x :=
  tget_tset_ne 0 m b h

theorem wf_memSet {m : Memory} (a : Nat) (b : Byte) (h : Memory.wf m = true) : Memory.wf (memSet m a b) = true :=
  tabWf_tset a b h

/-- A write of bytes keeps the canonical form. -/
theorem wf_memWr {m : Memory} (a : Nat) (l : List Byte) (h : Memory.wf m = true) : Memory.wf (memWr m a l) = true := by
  induction l generalizing m a with
  | nil => exact h
  | cons b t ih => exact ih (a + 1) (wf_memSet a b h)

/-- A write leaves every byte outside it as it was. -/
theorem memGet_memWr_out (m : Memory) (a : Nat) (l : List Byte) {x : Nat} (h : x < a ∨ a + l.length ≤ x) :
    memGet (memWr m a l) x = memGet m x := by
  induction l generalizing m a with
  | nil => rfl
  | cons b t ih =>
    have hl : (b :: t).length = t.length + 1 := rfl
    rw [hl] at h
    show memGet (memWr (memSet m a b) (a + 1) t) x = _
    rw [ih (memSet m a b) (a + 1) (by omega), memGet_memSet_ne m b (by omega)]

/-- A written byte reads back. -/
theorem memGet_memWr_in {m : Memory} (a : Nat) (l : List Byte) (h : Memory.wf m = true) (i : Nat) (hi : i < l.length) :
    memGet (memWr m a l) (a + i) = l.getD i 0 := by
  induction l generalizing m a i with
  | nil => simp at hi
  | cons b t ih =>
    show memGet (memWr (memSet m a b) (a + 1) t) (a + i) = _
    cases i with
    | zero =>
      rw [memGet_memWr_out _ _ _ (by omega)]
      simpa using memGet_memSet_self a b h
    | succ k =>
      have := ih (a + 1) (wf_memSet a b h) k (by simpa using hi)
      rw [show a + (k + 1) = a + 1 + k by omega, this]; simp

theorem length_memRd (m : Memory) (a n : Nat) : (memRd m a n).length = n := by simp [memRd]

/-- What was written is what is read. -/
theorem memRd_memWr {m : Memory} (a : Nat) (l : List Byte) (h : Memory.wf m = true) : memRd (memWr m a l) a l.length = l := by
  apply List.ext_getElem
  · simp [memRd]
  · intro i h1 h2
    have := memGet_memWr_in a l h i h2
    simp only [memRd, List.getElem_map, List.getElem_range]
    rw [this]; simp [List.getD, h2]

end Sys2Proof.Machine
end

