-- ==== Sys2Proof/Laws/Home.lean ====
section
/-! SUPPORT. The operations of lines and homes keep memory in its canonical form (R219 to R245); those of an L1 alone leave it as it is. -/
namespace Sys2Proof.Machine

variable (s : State)

/-! ### What leaves memory as it is -/

@[simp] theorem setHome_mem (line : Nat) (h : Home) : (setHome s line h).mem = s.mem := rfl
@[simp] theorem dropCopy_mem (c line : Nat) : (dropCopy s c line).mem = s.mem := rfl
theorem mem_ite {c : Prop} [Decidable c] {a b : State} {m : Memory} (ha : a.mem = m) (hb : b.mem = m) : (if c then a else b).mem = m := by
  split
  · exact ha
  · exact hb
@[simp] theorem rebaseL1_mem (c t : Nat) : (rebaseL1 s c t).mem = s.mem := mem_ite rfl rfl
@[simp] theorem rebaseSlice_mem (k t : Nat) : (rebaseSlice s k t).mem = s.mem := mem_ite rfl rfl
@[simp] theorem raiseClock_mem (c t : Nat) : (raiseClock s c t).mem = s.mem := by
  unfold raiseClock
  refine mem_ite rfl ?_
  rw [setC_mem, rebaseL1_mem]
@[simp] theorem putCopy_mem (c line : Nat) (cp : Copy) : (putCopy s c line cp).mem = s.mem := by
  unfold putCopy
  rw [setC_mem, rebaseL1_mem]
@[simp] theorem homeTides_mem (line wt hl : Nat) : (homeTides s line wt hl).mem = s.mem := by
  unfold homeTides
  rw [setHome_mem, rebaseSlice_mem]
@[simp] theorem noteWrite_mem (pa n w : Nat) : (noteWrite s pa n w).mem = s.mem := rfl
@[simp] theorem cross_mem (d : Nat) : (cross s d).mem = s.mem := by
  unfold cross
  split <;> rfl
@[simp] theorem crossLine_mem (line : Nat) : (crossLine s line).mem = s.mem := cross_mem s _
@[simp] theorem seeTide_mem (c t : Nat) : (seeTide s c t).mem = s.mem := raiseClock_mem s _ _
@[simp] theorem endRecalls_mem (line : Nat) : (endRecalls s line).mem = s.mem := rfl
@[simp] theorem storeOwned_mem (core line : Nat) (cp : Copy) (off : Nat) (b : List Byte) (w : Nat) :
    (storeOwned s core line cp off b w).mem = s.mem := by
  unfold storeOwned; simp
@[simp] theorem landGrant_mem (r : Req) (a : Answer) : (landGrant s r a).mem = s.mem := by
  unfold landGrant; dsimp only; split <;> simp
@[simp] theorem landNow_mem (x : Reply) : (landNow s x).mem = s.mem := landGrant_mem s _ _
@[simp] theorem homePart_mem (line clk src : Nat) (p : Part) : (homePart s line clk src p).2.mem = s.mem := by
  unfold homePart
  dsimp only
  rw [homeTides_mem, setHome_mem, crossLine_mem]

/-! ### What writes memory keeps the form -/

theorem wf_foldl {α : Type} (l : List α) (g : Memory → α → Memory) (hg : ∀ m a, Memory.wf m = true → Memory.wf (g m a) = true) (m : Memory)
    (h : Memory.wf m = true) : Memory.wf (l.foldl g m) = true := by
  induction l generalizing m with
  | nil => exact h
  | cons a t ih => exact ih (g m a) (hg m a h)

theorem mem_foldl {α : Type} (l : List α) (g : State → α → State) (hg : ∀ t a, (g t a).mem = t.mem) (t : State) : (l.foldl g t).mem = t.mem := by
  induction l generalizing t with
  | nil => rfl
  | cons a l ih => exact (ih (g t a)).trans (hg t a)

theorem wf_writeBack {m : Memory} (line : Nat) (d : Line) (k : BitVec 4) (h : Memory.wf m = true) : Memory.wf (writeBack m line d k) = true :=
  wf_foldl _ _ (fun m i hm => by
    split
    · exact wf_memWr _ _ hm
    · exact hm) _ h

theorem wf_takeBack (core line : Nat) (d : Option (Line × BitVec 4)) (h : Memory.wf s.mem = true) :
    Memory.wf (takeBack s core line d).mem = true := by
  cases d with
  | none => exact h
  | some x =>
    unfold takeBack
    rw [setHome_mem, homeTides_mem]
    exact wf_writeBack _ _ _ h

theorem wf_recallNow (line : Nat) (h : Memory.wf s.mem = true) : Memory.wf (recallNow s line).mem = true := by
  have hl (c : Nat) (t : State) (ht : Memory.wf t.mem = true) :
      Memory.wf (match getCopy t c line with
        | some cp => if cp.owned then takeBack (dropCopy t c line) c line (some (cp.data, cp.dirty)) else takeBack t c line none
        | none => takeBack t c line none).mem = true := by
    split
    · split
      · exact wf_takeBack _ _ _ _ (by simpa using ht)
      · exact wf_takeBack _ _ _ _ ht
    · exact wf_takeBack _ _ _ _ ht
  unfold recallNow
  split
  · exact wf_takeBack _ _ _ _ h
  · split
    · exact h
    · dsimp only
      refine hl _ _ ?_
      split
      · simpa using h
      · simpa using h

theorem wf_evictCopy (c line : Nat) (h : Memory.wf s.mem = true) : Memory.wf (evictCopy s c line).mem = true := by
  unfold evictCopy
  split
  · exact h
  · dsimp only
    split
    · exact wf_takeBack _ _ _ _ (by simpa using h)
    · simpa using h

theorem wf_collect (line : Nat) (h : Memory.wf s.mem = true) : Memory.wf (collect s line).mem = true := by
  unfold collect
  dsimp only
  split
  · exact h
  · rw [setHome_mem, mem_foldl _ _ fun t sl => mem_foldl _ _ (fun u e => noteWrite_mem u _ _ _) t]
    exact wf_foldl _ _ (fun m sl hm => wf_foldl _ _ (fun m e hm => wf_memWr _ _ hm) _ hm) _ h

theorem wf_homeLease (line clk len : Nat) (h : Memory.wf s.mem = true) : Memory.wf (homeLease s line clk len).2.mem = true := by
  unfold homeLease
  dsimp only
  rw [homeTides_mem]
  exact wf_collect _ line (by simpa using h)

theorem wf_homeOwn (line clk core : Nat) (h : Memory.wf s.mem = true) : Memory.wf (homeOwn s line clk core).2.mem = true := by
  unfold homeOwn
  dsimp only
  rw [setHome_mem, homeTides_mem]
  exact wf_collect _ line (by simpa using h)

theorem wf_homeRead (line : Nat) (h : Memory.wf s.mem = true) : Memory.wf (homeRead s line).2.mem = true := by
  unfold homeRead
  exact wf_collect _ line (by simpa using h)

theorem wf_homeWrite (pa clk : Nat) (b : List Byte) (w : Nat) (h : Memory.wf s.mem = true) :
    Memory.wf (homeWrite s pa clk b w).2.mem = true := by
  unfold homeWrite
  dsimp only
  rw [homeTides_mem]
  exact wf_memWr (localAddr pa) b (wf_collect _ (lineNo pa) (by simpa using h))

theorem wf_homeAtomicOp (pa clk major : Nat) (t : Ty) (lane : Nat) (pc : DWord) (b c : Nat) (h : Memory.wf s.mem = true) :
    Memory.wf (homeAtomicOp s pa clk major t lane pc b c).2.mem = true := by
  have hc := wf_collect (crossLine s (lineNo pa)) (lineNo pa) (by simpa using h)
  unfold homeAtomicOp
  dsimp only
  split
  · exact hc
  · split
    · exact hc
    · exact wf_homeWrite _ _ _ _ _ hc

theorem wf_mbarOp (pa clk : Nat) (op : HomeOp) (h : Memory.wf s.mem = true) : Memory.wf (mbarOp s pa clk op).2.mem = true := by
  have hw (b : List Byte) := wf_homeWrite s pa clk b 0 h
  unfold mbarOp
  dsimp only
  split
  · exact h
  · split
    · simp only [hw]
    · split <;> simp only [hw]
    · exact h

theorem wf_readNow (pa n : Nat) (h : Memory.wf s.mem = true) : Memory.wf (readNow s pa n).2.mem = true :=
  wf_homeRead _ _ (wf_recallNow _ _ h)

theorem wf_readRun (fuel pa n : Nat) (h : Memory.wf s.mem = true) : Memory.wf (readRun fuel s pa n).2.2.mem = true := by
  induction fuel generalizing s pa n with
  | zero => exact h
  | succ k ih =>
    unfold readRun
    split
    · exact h
    · exact ih _ _ _ (wf_readNow s _ _ h)

theorem writeNow_mem (core pa : Nat) (b : List Byte) (w : Nat) :
    (writeNow s core pa b w).mem = (homeWrite (recallNow s (lineNo pa)) pa (clockOf s core) b w).2.mem := seeTide_mem _ _ _
theorem wf_writeNow (core pa : Nat) (b : List Byte) (w : Nat) (h : Memory.wf s.mem = true) :
    Memory.wf (writeNow s core pa b w).mem = true := by
  rw [writeNow_mem]
  exact wf_homeWrite _ _ _ _ _ (wf_recallNow s (lineNo pa) h)

/-- Taking cells away keeps the form: what a wipe leaves (R435). -/
theorem wf_filter (p : Nat × Byte → Bool) {m : Memory} (h : Memory.wf m = true) : Memory.wf (m.filter p) = true := by
  unfold Memory.wf at *
  induction m with
  | nil => rfl
  | cons e t ih =>
    obtain ⟨hv, ha, ht⟩ := tabWf_cons.1 h
    have hf := ih ht
    simp only [List.filter_cons]
    split
    · exact tabWf_cons.2 ⟨hv, fun x hx => ha x (List.mem_filter.1 hx).1, hf⟩
    · exact hf
theorem wf_portMem (h : Memory.wf s.mem = true) : Memory.wf (portMem s) = true := wf_filter _ h

end Sys2Proof.Machine
end

