-- ==== Sys2Proof/Tests/Slice0.lean ====
section
/-! SUPPORT. Tests: words, ill-formed terms, worked examples of the spec, and states that meet the hypotheses of the statements. -/
namespace Sys2Proof.Tests
set_option Elab.async false
open Sys2Proof Sys2Proof.Machine

/-! ### Words -/

/-- No guard, distance 15, nothing else: the header field 0x780. -/
def hd0 : Hdr := { guard := .always, sos := false, dist := 15, reuse := 0, trapA := false, trapB := false, trapC := false }
def r1 (t : Ty) : Op1 := { h := hd0, t, d := .v 1, a := .v 2 }
def r2 (t : Ty) : Op2 := { h := hd0, t, d := .v 1, a := .v 2, b := .reg (.v 3) }
def i2 (t : Ty) (d a : Opnd) (i : Word) (h : Hdr) : Op2 := { h, t, d, a, b := .imm i }
def r3 (t : Ty) : Op3 := { h := hd0, t, d := .v 1, a := .v 2, b := .v 3, c := .v 4 }
def mem (t : Ty) (o : Order) (sc : Scope) (c : CPol) (off : Src) : MemOp :=
  { h := hd0, t, ord := o, sc, cpol := c, r := .v 1, base := .s 2, off }
def atm (t : Ty) : AtomOp := { h := hd0, t, ord := .acqrel, sc := .dom, d := .v 1, base := .s 2, b := .v 3 }

/-- One row for each word of the table, written out from the encodings of R34 to R50, R94, R124, R165, R204, R236, R288, R300, R330, R365
and R411; those with worked words of the spec are the spec's. -/
def codes (l : List (Nat × Instr)) : Bool :=
  l.all fun e => decodeWord (BitVec.ofNat 96 e.1) == .ok e.2 && encode e.2 == BitVec.ofNat 96 e.1 && decodeTableWord 96 e.1 == some e.2

theorem test_decode_control : codes [
    (0x0100_0780_0000_0000_0000_0000, .nop hd0),
    (0x0280_0780_0000_20AE_FFFF_FFF4, .br hd0 .nz (.s 5) 0xFFFFFFF4),
    (0x0380_0780_0000_00EE_0000_0245, .brc hd0 .nz (.v 7) 18 5),
    (0x0400_0780_0000_2120_0000_0000, .jmp hd0 (.reg (.s 9))),
    (0x0580_0780_0000_0000_0000_0030, .call hd0 0x30),
    (0x0600_0780_0000_2060_0000_0000, .calli hd0 (.s 3)),
    (0x0700_0780_0000_27E0_0000_0000, .ret hd0 (.s 63)),
    (0x0800_0780_0000_0000_0000_0500, .join hd0 5),
    (0x0902_2780_0000_0000_0000_0000, .exit { hd0 with guard := .fails 2 }),
    (0x0A00_0780_0000_0000_0000_0000, .yield hd0),
    (0x0B00_0780_0041_0210_6000_0000, .spawn hd0 (.s 4) (.v 16) (.reg (.s 6))),
    (0x0C80_0780_0000_0000_0000_000F, .fbar hd0 0x0F),
    (0x0D00_0780_0000_0400_0000_0000, .wgive hd0 2),
    (0x0E00_0780_0000_0600_0000_0000, .wclaim hd0 3),
    (0x0F80_0780_0000_2100_0000_0008, .park hd0 (.s 8) (.imm 8))] = true := by decide +kernel

theorem test_decode_region : codes [
    (0x1080_0780_0000_0000_0001_0007, .rgnEnter hd0 7 true),
    (0x1100_0780_0000_0000_0000_0000, .rgnLeave hd0),
    (0x1280_0780_0000_0000_0000_1234, .trap hd0 0x1234),
    (0x1300_0780_0000_0000_0000_0100, .tret hd0 true),
    (0x1480_0780_0000_0000_0000_0055, .brk hd0 0x55),
    (0x15CC_0080_004F_8000_0000_0002, .fltrd { hd0 with dist := 1 } (.s 62) 2),
    (0x1600_0780_0000_20E0_0000_0000, .fltset hd0 .b32 (.reg (.s 7))),
    (0x17CC_0780_0041_20A0_0000_0010, .ldsys hd0 .b64 (.s 4) (.s 5) (.imm 16)),
    (0x1800_0780_0000_20B0_6838_0000, .stsys hd0 .b32 (.s 5) (.s 6) (.s 7)),
    (0x1900_0780_1000_20B0_6000_0000, .tlbi hd0 .mod .va (.s 5) (.s 6)),
    (0x1A4C_0780_0042_4000_0000_0000, .ldsp hd0 (.s 9)),
    (0x1B80_0780_0000_0000_0000_0040, .stsp hd0 (.imm 64)),
    (0x1C80_0780_0000_0000_0000_ABCD, .mark hd0 0xABCD),
    (0x1D4C_0780_0041_20A0_0000_0000, .chk hd0 (.s 4) (.s 5)),
    (0x1E80_0780_0000_0000_0000_0001, .pilot hd0 true)] = true := by decide +kernel

theorem test_decode_int : codes [
    (0x2084_0780_0081_40A0_0000_0020, .add (i2 .i32 (.v 5) (.v 5) 32 { hd0 with trapA := true }) false),
    (0x2104_0780_0000_4040_3000_0004, .sub (r2 .i32) true),
    (0x2208_0780_0000_4040_3000_0000, .mul (r2 .n32) false),
    (0x2304_0780_0000_4040_3000_0000, .mulh (r2 .i32)),
    (0x2404_0000_0001_0040_3020_0000, .mad { h := { hd0 with dist := 0 }, t := .i32, d := .v 4, a := .v 2, b := .v 3, c := .v 4 } false),
    (0x2504_0780_0042_E190_5000_0000, .div { h := hd0, t := .i32, d := .s 11, a := .s 12, b := .reg (.s 5) }),
    (0x2604_0780_0000_4040_3000_0000, .rem (r2 .i32)),
    (0x2704_0780_0000_4040_0000_0004, .neg (r1 .i32) true),
    (0x2804_0780_0000_4040_0000_0000, .abs (r1 .i32) false),
    (0x2904_0780_0000_4040_3000_0000, .min (r2 .i32)),
    (0x2A08_0780_0000_4040_3000_0000, .max (r2 .n32)),
    (0x2B04_0780_0000_4040_3020_0000, .sad (r3 .i32) false),
    (0x2C08_0780_0000_4040_3020_0100, .addc (r3 .n32) true),
    (0x2D08_0780_0000_4040_3020_0000, .subb (r3 .n32) false),
    (0x2ECC_0780_0040_6058_FFFF_FFFF, .lea (i2 .b64 (.s 1) (.s 2) 0xFFFFFFFF hd0) 3),
    (0x2F20_0780_0000_4040_3020_0004, .dot4 (r3 .i8x4) true)] = true := by decide +kernel

theorem test_decode_bits : codes [
    (0x3000_0780_0000_4040_3000_0000, .and (r2 .b32)),
    (0x3100_0780_0000_4040_3000_0000, .or (r2 .b32)),
    (0x3200_0780_0000_4040_3000_0000, .xor (r2 .b32)),
    (0x3300_0780_0000_4040_3000_0000, .andn (r2 .b32)),
    (0x3400_0780_0000_4040_0000_0000, .not (r1 .b32)),
    (0x3500_0780_0000_4040_3000_0000, .shl (r2 .b32)),
    (0x3624_0780_0000_4040_3000_0000, .shr (r2 .n8x4)),
    (0x3704_0780_0000_4040_3000_0000, .sra (r2 .i32)),
    (0x3880_0780_0000_4040_0000_0007, .rol (i2 .b32 (.v 1) (.v 2) 7 hd0)),
    (0x3984_0780_0000_4040_0000_0409, .bfx (i2 .i32 (.v 1) (.v 2) 0x409 hd0)),
    (0x3A00_0780_0000_4040_3020_0000, .bfi (r3 .b32)),
    (0x3B00_0780_0000_4040_0000_0000, .popc (r1 .b32)),
    (0x3C00_0780_0000_4040_0000_0000, .clz (r1 .b32)),
    (0x3D00_0780_0000_4040_0000_0000, .ctz (r1 .b32)),
    (0x3E00_0780_0000_4040_0000_0000, .brev (r1 .b32)),
    (0x3F00_0780_0000_4040_3020_0000, .prmt (r3 .b32))] = true := by decide +kernel

theorem test_decode_lanes : codes [
    (0x40D0_0780_0042_A0E2_0000_0006, .cmp (i2 .i64 (.s 10) (.s 7) 6 hd0) .lt),
    (0x4100_0780_0000_4040_3020_0000, .sel (r3 .b32)),
    (0x4200_0780_0000_6080_0000_0000, .mov hd0 .b32 (.v 1) (.reg (.s 4))),
    (0x4320_0780_0000_4040_3000_0004, .pack hd0 .i8x4 (.v 1) (.v 2) (.v 3) true),
    (0x4410_0780_0000_4040_0000_0100, .unpack (r1 .i16x2) true),
    (0x4580_0780_0040_4040_0000_001F, .rdl (i2 .b32 (.s 1) (.v 2) 31 hd0)),
    (0x4600_0780_0000_4050_3000_0000, .bcast { h := hd0, t := .b32, d := .v 1, a := .v 2, b := .reg (.s 3) }),
    (0x4704_0780_0040_4040_0000_0200, .vred { h := hd0, t := .i32, d := .s 1, a := .v 2 } .max),
    (0x4800_0780_0040_4040_0000_0000, .ballot { h := hd0, t := .b32, d := .s 1, a := .v 2 }),
    (0x4980_0010_0000_C058_0000_0010, .shfl (i2 .b32 (.v 3) (.v 2) 16 { hd0 with dist := 0, reuse := 1 }) .xor),
    (0x4A00_0780_0040_4040_0000_0100, .vote { h := hd0, t := .b32, d := .s 1, a := .v 2 } .any),
    (0x4B08_0780_0000_4040_0000_0000, .actn (r1 .n32))] = true := by decide +kernel

theorem test_decode_float : codes [
    (0x500C_0780_0000_4040_3000_0001, .fadd (r2 .f32) .rz),
    (0x510C_0780_0000_4040_3000_0002, .fsub (r2 .f32) .ru),
    (0x528C_0780_0000_4043_3F80_0000, .fmul (i2 .f32 (.v 1) (.v 2) 0x3F800000 hd0) .rd),
    (0x530C_3800_0001_0210_5088_0000, .fma { h := { hd0 with guard := .pass 3, sos := true, dist := 0 }, t := .f32, d := .v 4, a := .v 16, b := .s 5, c := .v 17 } .rn),
    (0x540C_0780_0000_4040_3000_0100, .fmin (r2 .f32) true),
    (0x550C_0780_0000_4040_3000_0000, .fmax (r2 .f32) false),
    (0x560C_0780_0000_4040_3000_0060, .fcmp (r2 .f32) .uge),
    (0x570C_0780_0000_4040_0000_0001, .frnd (r1 .f32) .rz),
    (0x580C_0780_0000_4040_0000_0000, .fclass (r1 .f32)),
    (0x5918_0780_0000_4040_3020_0000, .fdot2 (r3 .f16x2) .rn),
    (0x5A0C_0780_0000_4040_3000_0000, .fscl (r2 .f32) .rn),
    (0x5B0C_0780_0000_4040_0000_0000, .fexpo (r1 .f32)),
    (0x600C_0780_0000_4040_0000_0000, .rcp (r1 .f32) .rn),
    (0x610C_0780_0000_4040_0000_0000, .rsq (r1 .f32) .rn),
    (0x620C_0780_0000_4040_0000_0000, .sqrt (r1 .f32) .rn),
    (0x630C_0780_0000_4040_0000_0000, .exp2 (r1 .f32) .rn),
    (0x640C_0780_0000_4040_0000_0000, .log2 (r1 .f32) .rn),
    (0x650C_0780_0000_4040_0000_0000, .sinpi (r1 .f32) .rn),
    (0x660C_0780_0000_4040_0000_0000, .cospi (r1 .f32) .rn),
    (0x670C_0780_0000_4040_0000_0000, .tanh (r1 .f32) .rn),
    (0x680C_0780_0000_4040_3000_0000, .fdiv (r2 .f32) .rn),
    (0x7000_0780_0000_4040_0000_4004, .cvt hd0 (.v 1) (.v 2) .f16 .f32 true .rn),
    (0x7100_0780_0002_0080_5040_C800, .cvtpk hd0 (.v 8) (.v 4) (some (.v 5)) (.v 8) .t8 1 false .rn),
    (0x7200_0780_0000_4040_0000_3400, .cvtunpk hd0 (.v 1) (.v 2) .f32 .t8 2 .rn),
    (0x730C_0780_0040_4040_0000_0500, .mxsc { h := hd0, t := .f32, d := .s 1, a := .v 2 } .fp4)] = true := by decide +kernel

theorem test_decode_memory : codes [
    (0x8080_0782_3000_6040_0000_0040, .ldG (mem .b32 .acq .mod .l1EvictFirst (.imm 64))),
    (0x818C_3780_4401_2080_0000_0000, .stG { h := { hd0 with guard := .pass 3 }, t := .f32, ord := .rel, sc := .grp, cpol := .normal, r := .v 4, base := .s 4, off := .imm 0 }),
    (0x8200_0780_0000_6050_3000_0000, .ldX (mem .b32 .plain .fib .normal (.reg (.s 3)))),
    (0x8300_0780_0000_6050_3000_0000, .stX (mem .b32 .plain .fib .normal (.reg (.s 3)))),
    (0x8480_0788_0000_2040_0000_0080, .pf hd0 .l2Retain (.s 2) (.imm 128)),
    (0x8580_0780_0000_2040_0000_0000, .dsc hd0 (.s 2) (.imm 0)),
    (0x8600_0780_9000_0000_0000_0000, .fence hd0 .sc .mod),
    (0x874C_0780_0C40_6040_0000_0000, .prom hd0 .die (.s 1) (.s 2)),
    (0x8880_0780_0000_2048_0000_0000, .lease hd0 (.s 2) (.imm 0) 8),
    (0x8984_0780_0000_6040_0000_0004, .cadd hd0 .i32 (.v 1) (.s 2) (.imm 4)),
    (0x8A84_0780_0000_6040_0000_0004, .cmin hd0 .i32 (.v 1) (.s 2) (.imm 4)),
    (0x8B84_0780_0000_6040_0000_0004, .cmax hd0 .i32 (.v 1) (.s 2) (.imm 4)),
    (0x9004_0780_7400_6040_3000_0000, .atomAdd (atm .i32)),
    (0x9104_0780_7400_6040_3000_0000, .atomSub (atm .i32)),
    (0x9204_0780_7400_6040_3000_0000, .atomMin (atm .i32)),
    (0x9304_0780_7400_6040_3000_0000, .atomMax (atm .i32)),
    (0x9400_0780_7400_6040_3000_0000, .atomAnd (atm .b32)),
    (0x9500_0780_7400_6040_3000_0000, .atomOr (atm .b32)),
    (0x9600_0780_7400_6040_3000_0000, .atomXor (atm .b32)),
    (0x9700_0780_7400_6040_3000_0000, .atomXchg (atm .b32)),
    (0x9800_0780_7400_6040_3020_0000, .atomCas (atm .b32) (.v 4)),
    (0x9908_0780_7400_6040_3000_0000, .atomInc (atm .n32)),
    (0x9A08_0780_7400_6040_3000_0000, .atomDec (atm .n32)),
    (0x9B0C_0780_7400_6040_3000_0000, .atomFadd (atm .f32))] = true := by decide +kernel

theorem test_decode_engine : codes [
    (0xA000_0780_0042_A090_8848_0000, .copy hd0 .normal false 0 (.s 4) (.s 8) (.s 9) (.s 10)),
    (0xA100_0780_0000_2080_8848_0000, .gath hd0 .normal (.s 4) (.v 8) (.s 9)),
    (0xA200_0780_0000_2080_8848_0000, .scat hd0 .normal (.s 4) (.v 8) (.s 9)),
    (0xA380_0780_0000_0008_0000_0002, .wait hd0 .matrix (.imm 2)),
    (0xA400_0780_0000_2080_0000_0300, .waitp hd0 3 (.reg (.s 4))),
    (0xA50C_0780_1400_2050_3820_0000, .coll hd0 .f32 .dom .ar .add (.s 2) (.s 3) (.s 4)),
    (0xB000_0780_0000_2120_0000_0000, .mwld hd0 .normal (.s 9)),
    (0xB100_0780_0000_2120_0000_0000, .mpass hd0 .normal (.s 9)),
    (0xB200_0780_0000_2120_0000_0000, .mtab hd0 .normal (.s 9)),
    (0xB300_0780_0002_20C0_0000_0700, .accld hd0 (.v 8) (.s 6) 0 7),
    (0xB400_0780_0002_20C0_0000_2900, .accst hd0 (.v 8) (.s 6) 5 1),
    (0xB500_0780_0000_20C0_0000_0700, .acczero hd0 (.s 6) 7),
    (0xB6CC_0780_0041_8000_0000_0003, .mstat hd0 (.s 6) 3)] = true := by decide +kernel

theorem test_decode_sync : codes [
    (0xC080_0780_0800_0000_0000_0805, .bar hd0 .quay 5 8),
    (0xC180_0780_0441_0000_0000_2003, .barArr hd0 .grp (.s 4) 3 32),
    (0xC280_0780_0400_2080_0000_0003, .barWt hd0 .grp (.s 4) 3),
    (0xC300_0780_1000_2090_5000_0000, .mbarInit hd0 .mod (.s 4) (.s 5)),
    (0xC400_0780_1040_E080_0000_0000, .mbarArr hd0 .mod (.s 3) (.s 4)),
    (0xC500_0780_1000_2090_5000_0000, .mbarWt hd0 .mod (.s 4) (.s 5)),
    (0xC64C_0780_5040_E090_8000_0000, .qpush { h := hd0, ord := .rel, sc := .mod, d := .s 3, a := .s 4, blk := some (.s 8) }),
    (0xC74C_0880_0041_60C0_0000_0000, .qpop { h := { hd0 with sos := true, dist := 1 }, ord := .plain, sc := .fib, d := .s 5, a := .s 6, blk := none }),
    (0xC84C_0780_0040_E091_0000_0000, .dqPush { h := hd0, ord := .plain, sc := .fib, d := .s 3, a := .s 4, blk := some (.s 16) }),
    (0xC94C_0780_0040_E091_0000_0000, .dqPop { h := hd0, ord := .plain, sc := .fib, d := .s 3, a := .s 4, blk := some (.s 16) }),
    (0xCA4C_0000_2848_60F1_0000_0000, .dqSteal { h := { hd0 with dist := 0 }, ord := .acq, sc := .quay, d := .s 33, a := .s 7, blk := some (.s 16) }),
    (0xCB4C_0780_7040_E080_0000_0000, .depDec { h := hd0, ord := .acqrel, sc := .mod, d := .s 3, a := .s 4, blk := none }),
    (0xCC00_0780_0041_60D0_7000_0000, .launch hd0 (.s 5) (.s 6) (.s 7)),
    (0xCD00_0780_0041_60D0_7840_0000, .graphTrig hd0 (.s 5) (.s 6) (.s 7) (.s 8))] = true := by decide +kernel


/-! ### Ill-formed terms, one for each check: each is refused -/

def refused (l : List Instr) : Bool := l.all fun i => !i.wf

/-- R42, R47: guards of `s0`, guards where none is taken, empty policies where no register stands. -/
theorem test_wf_header : refused [
    .exit { hd0 with guard := .pass 0 }, .exit { hd0 with guard := .fails 0 }, .nop { hd0 with guard := .pass 1 },
    .nop { hd0 with trapA := true }, .call { hd0 with trapA := true } 0, .add { r2 .i32 with b := .imm 0, h := { hd0 with trapB := true } } false,
    .add { r2 .i32 with h := { hd0 with trapC := true } } false, .jmp { hd0 with trapA := true } (.imm 0),
    .bar { hd0 with guard := .pass 1 } .grp 0 0, .mov { hd0 with trapA := true } .b32 (.v 1) (.imm 0)] = true := by decide

/-- R165, R204: rows 0x0_ and 0x1_. -/
theorem test_wf_control : refused [
    .br hd0 .eq (.s 1) 0, .br hd0 .z (.v 1) 0, .brc hd0 .lt (.v 1) 0 0, .brc hd0 .z (.s 1) 0 0, .jmp hd0 (.reg (.v 2)), .calli hd0 (.v 1),
    .ret hd0 (.sp .lane), .spawn hd0 (.v 1) (.v 8) (.imm 0), .spawn hd0 (.s 1) (.v 9) (.imm 0), .spawn hd0 (.s 1) (.s 8) (.imm 0),
    .park hd0 (.v 2) (.imm 0), .park hd0 (.s 2) (.reg (.v 2)), .trap hd0 0xFFF0, .fltrd hd0 (.s 1) 7, .fltrd hd0 (.v 2) 1,
    .fltrd hd0 (.v 3) 0, .fltset hd0 .i32 (.imm 0), .ldsys hd0 .i64 (.s 1) (.s 2) (.imm 0), .ldsys hd0 .b64 (.v 2) (.s 2) (.imm 0),
    .stsys hd0 .b16 (.s 1) (.s 2) (.s 3), .tlbi hd0 .fib .all (.s 0) (.s 0), .tlbi hd0 .sys .all (.s 0) (.s 0),
    .tlbi hd0 .mod .ctx (.s 1) (.s 0), .tlbi hd0 .mod .all (.s 0) (.s 1), .ldsp hd0 (.v 1), .stsp hd0 (.imm 0), .stsp hd0 (.imm 4097),
    .chk hd0 (.v 1) (.s 1)] = true := by decide

/-- R36 to R39, R94: destinations, alignment, vectors in scalar operations, types of rows 0x2_ to 0x4_. -/
theorem test_wf_integer : refused [
    .add { r2 .i32 with d := .sp .cyc } false, .add { r2 .i64 with d := .v 3 } false, .add { r2 .i64 with a := .v 5 } false,
    .add { r2 .i32 with d := .s 1 } false, .add { r2 .i32 with d := .s 1, a := .s 1, b := .reg (.sp .lane) } false,
    .add { r2 .i16x2 with d := .s 1, a := .s 1, b := .imm 0 } false, .add (r2 .b32) false, .mul (r2 .i4x8) false, .mulh (r2 .i16x2),
    .mad (r3 .i8x4) false, .neg (r1 .n32) false, .sad (r3 .i64) false, .addc (r3 .i32) false, .lea { r2 .b64 with d := .v 1 } 0,
    .dot4 (r3 .i16x2) false, .and (r2 .i32), .shl (r2 .i32), .sra (r2 .n32), .bfx { r2 .i32 with b := .imm 0x10000 }, .prmt (r3 .b64),
    .cmp (r2 .b32) .lt, .cmp (r2 .i32) .ord, .cmp (r2 .i32) .z, .sel { r3 .b64 with d := .v 2, a := .v 2, b := .v 3 }, .mov hd0 .b128 (.v 4) (.imm 0),
    .mov hd0 .b128 (.s 1) (.reg (.s 2)), .mov hd0 .b16 (.v 4) (.imm 0), .pack hd0 .b32 (.v 1) (.v 2) (.v 3) false, .unpack (r1 .n32) false,
    .rdl { r2 .b32 with d := .s 1, b := .imm 32 }, .rdl (r2 .b32), .bcast (r2 .b32), .vred (r1 .i32) .add, .vred { r1 .i32 with d := .s 1 } .xor,
    .ballot (r1 .b32), .shfl { r2 .b32 with b := .imm 32 } .xor, .shfl { r2 .b32 with b := .imm 256 } .up, .vote (r1 .b32) .any,
    .actn { r1 .n32 with d := .s 1, a := .s 1 }] = true := by decide

/-- R125, R141, R143 to R145: floating point and conversions. -/
theorem test_wf_float : refused [
    .fadd (r2 .i32) .rn, .fcmp (r2 .f32) .z, .fdot2 (r3 .f32) .rn, .fexpo (r1 .f16x2), .rcp { r1 .f16x2 with d := .s 1, a := .s 1 } .rn,
    .cvt hd0 (.v 1) (.v 2) .t8 .f32 false .rz, .cvt hd0 (.v 1) (.v 2) .t8 .f32 true .rn, .cvt hd0 (.v 1) (.v 2) .e4m3 .f32 true .rn,
    .cvt hd0 (.v 1) (.v 2) .i32 .f32 true .rn, .cvt hd0 (.v 1) (.v 2) .i32 .n32 false .rz, .cvt hd0 (.v 1) (.v 2) .i64 .f32 false .rz,
    .cvtpk hd0 (.v 1) (.v 2) (some (.v 3)) (.v 4) .f16 1 false .rn, .cvtpk hd0 (.v 1) (.v 2) none (.v 4) .f16 0 false .rn,
    .cvtpk hd0 (.v 1) (.v 2) (some (.v 3)) (.v 4) .t6 2 false .rn, .cvtpk hd0 (.v 1) (.v 2) (some (.v 3)) (.v 4) .f32 0 false .rn,
    .cvtunpk hd0 (.v 1) (.v 2) .f32 .t6 5 .rn, .cvtunpk hd0 (.v 1) (.v 2) .f16x2 .t8 1 .rn, .cvtunpk hd0 (.v 1) (.v 2) .f16x2 .t6 4 .rn,
    .mxsc { r1 .f32 with d := .s 1 } .f16] = true := by decide

/-- R230, R236, R237, R242 to R245: memory. -/
theorem test_wf_memory : refused [
    .ldG (mem .b32 .rel .dom .normal (.imm 0)), .ldG (mem .b32 .plain .dom .normal (.imm 0)),
    .ldG { mem .b32 .plain .fib .normal (.imm 0) with base := .v 3 }, .ldG { mem .b32 .plain .fib .normal (.imm 0) with r := .s 1, base := .v 2 },
    .ldG (mem .b64 .plain .fib .normal (.imm 0)), .ldG (mem .b32 .plain .fib .normal (.reg (.v 2))), .stG (mem .i8 .plain .fib .normal (.imm 0)),
    .stG (mem .b32 .acq .dom .normal (.imm 0)), .stG { mem .b32 .plain .fib .normal (.imm 0) with r := .sp .lane },
    .ldX (mem .b32 .acq .quay .normal (.imm 0)), .ldX (mem .b32 .plain .fib .noL1 (.imm 0)), .stX (mem .b32 .sc .grp .normal (.imm 0)),
    .pf hd0 .normal (.v 1) (.imm 0), .dsc hd0 (.s 2) (.reg (.v 1)), .fence hd0 .plain .dom, .prom hd0 .fib (.s 1) (.s 2),
    .lease hd0 (.s 1) (.imm 0) 9, .cadd hd0 .n32 (.v 1) (.s 2) (.imm 0), .cmin hd0 .i64 (.v 2) (.s 2) (.imm 0), .cmax hd0 .i32 (.s 1) (.v 2) (.imm 0),
    .atomAdd (atm .b32), .atomAnd (atm .i32), .atomCas (atm .i32) (.v 4), .atomInc (atm .i32), .atomFadd (atm .i32),
    .atomAdd { atm .i32 with d := .s 1 }, .atomXchg { atm .b64 with d := .v 1 }] = true := by decide

/-- R288, R300, R330, R349, R365, R411: engines, barriers, queues. -/
theorem test_wf_engines : refused [
    .copy hd0 .normal true 0 (.v 1) (.s 1) (.s 1) (.s 1), .gath hd0 .normal (.s 1) (.s 2) (.s 3), .scat hd0 .normal (.s 1) (.v 3) (.s 3),
    .wait hd0 .copy (.reg (.v 1)), .waitp hd0 0 (.reg (.sp .lane)), .coll hd0 .i32 .die .ar .add (.s 1) (.s 2) (.s 3),
    .coll hd0 .f32 .dom .ar .min (.s 1) (.s 2) (.s 3), .coll hd0 .i32 .dom .bc .add (.s 1) (.s 2) (.s 3),
    .coll hd0 .b32 .dom .ag .max (.s 1) (.s 2) (.s 3), .mwld hd0 .normal (.v 1), .mpass hd0 .normal (.v 1), .accld hd0 (.v 1) (.s 2) 255 1,
    .accst hd0 (.v 255) (.s 2) 0 1, .accld hd0 (.s 1) (.s 2) 0 0, .acczero hd0 (.v 1) 0, .mstat hd0 (.v 1) 0, .bar hd0 .grp 0 33,
    .barArr hd0 .grp (.v 1) 0 1, .barWt hd0 .grp (.v 1) 0, .mbarInit hd0 .fib (.s 1) (.s 2), .mbarArr hd0 .dom (.v 1) (.s 2),
    .mbarWt hd0 .dom (.v 1) (.s 2), .qpush { h := hd0, ord := .plain, sc := .fib, d := .s 1, a := .s 2, blk := none },
    .qpush { h := hd0, ord := .acq, sc := .dom, d := .s 1, a := .s 2, blk := some (.s 8) },
    .qpop { h := hd0, ord := .plain, sc := .fib, d := .s 1, a := .s 2, blk := some (.s 9) },
    .qpop { h := hd0, ord := .plain, sc := .fib, d := .s 1, a := .s 2, blk := some (.s 0) },
    .depDec { h := hd0, ord := .plain, sc := .fib, d := .s 1, a := .s 2, blk := some (.s 8) }, .launch hd0 (.v 1) (.s 1) (.s 2),
    .graphTrig hd0 (.s 1) (.s 2) (.v 3) (.s 4)] = true := by decide

/-- Events that name what the module has not (R23, R26, R397, R403, R407, R440). -/
theorem test_wf_events : refused [
    .gateOpen { core := 1024, berth := 0, fib := 0 }, .gateOpen { core := 0, berth := 4, fib := 0 }, .gateOpen { core := 0, berth := 0, fib := 8 },
    .fibreQuantumExpiry 0 4, .parkedClockNudge 1024, .peerPacket 512 0 0 .probe, .matrixStep 256, .matrixAgePromote 0 16, .graphTrigger 1024 0,
    .graphRefusedRead 1024, .kill 4096, .walkComplete 8 0, .walkComplete 0 64, .linkEnable 36, .linkTrained 0 3 1, .linkLaneFail 0 8,
    .hostMemoryAccess (.read 0xFFFFFFFFFF 2), .frequencyStep 0 11, .frequencyStep 0 34, .registerWrite .host 0 2 0] = true := by decide

/-! ### Small states for the hypotheses of the statements -/

def at0 : Place := { core := 0, berth := 0, fib := 0 }
/-- A page of the context 1, mapped at its own number: valid, leaf, R, W, tracked, and flags `x` (R391). -/
def page (vpn x : Nat) : TlbEnt := { cid := 1, vpn, level := 0, pte := BitVec.ofNat 64 (0xB3 + x + vpn * 2 ^ 16) }
/-- Pages 4 and 5 hold data; 6 to 8 are declared for `f32` sum, `i32` min and `i32` max. -/
def pages : List TlbEnt := [page 4 0, page 5 0, page 6 (2 ^ 56), page 7 (2 ^ 56 + 4 * 2 ^ 57), page 8 (2 ^ 56 + 5 * 2 ^ 57)]
/-- The machine with a fibre at a `nop` and data pages mapped; `m` changes the fibre, `d` is added to the descriptor. -/
def mk (d : Nat) (m : Fibre → Fibre) : State :=
  let s := State.reset.withFetchWord 96 0x0100_0780_0000_0000_0000_0000
  let s := setC s 0 { getC s 0 with tlb := (getC s 0).tlb ++ pages }
  let s := { s with insts := s.insts.map fun (e : Nat × Inst) => (e.1, { e.2 with desc := BitVec.ofNat 1024 (e.2.desc.toNat + d) }) }
  modF { s with here := at0, sched := [] } at0 m
def fib (s : State) : Fibre := (getF s s.here).getD (startFibre s 0 0 0 0 0 0)
/-- Every one of the instructions acts. -/
def act (s : State) (l : List Instr) : Bool := l.all fun i => acts i s (fib s)
/-- Scalars: `s2` an address in page 4, `s4` to `s9` values. -/
def regs0 (f : Fibre) : Fibre := { f with scal := [(2, 0x40000), (4, 7), (6, 0xFFFFFFFFFFFFFFC), (7, 0x1000000000000000), (8, 0x30002), (9, 0x30030)] }
def s0 : State := mk 0 regs0
/-- The fibre has an operation in its last step. -/
def opDone (aux : Nat) : OpRun :=
  { pc := 0x30000, stage := 3, lanes := [], got := [(0, 5)], bad := [], aux, rcd := 0 }
def grp0 (s : State) : Group := (getG s 0).getD
  { inst := 0, index := 0, core := 0, berths := [], st := .placed, since := 0, scratch := [], acc := [], bars := [], cbase := [],
    partner := none, lead := true, kept := [], keptBerths := [], regs := [], slot := none, saveErr := none, marked := [], emptied := [], deferred := false }
/-- A second fibre in context 1 of the berth. -/
def s0two (run since : Nat) : State :=
  let s := mk (2 ^ 372) regs0
  let s := setF s { at0 with fib := 1 } { fib s with root := 1, readySince := since }
  setB s 0 0 { getB s 0 0 with run }
def half : Half := { mask := 2, pc := 0x30000, splits := [], wait := .none }
/-- A split of token 31 over all lanes; and a fibre of two pieces in it, of which the second waits in way `w`. -/
def split31 : Split := { id := 9, tok := 31, lanes := 0xFFFFFFFF, parent := 0, committed := false }
def pieces (w : Wait) : State :=
  let s := mk (2 ^ 372) fun f => let g := { regs0 f with splits := [split31], amask := 0xFFFF }; { g with span := newSpan g }
  setF s { at0 with fib := 1 } { fib s with amask := 0xFFFF0000, wait := w }
def p2 (t : Ty) : Op2 := { r2 t with d := .v 2, a := .v 4, b := .reg (.v 6) }
def p3 (t : Ty) : Op3 := { r3 t with d := .v 2, a := .v 4, b := .v 6, c := .v 8 }
def z2 (t : Ty) (d : Opnd) : Op2 := { h := hd0, t, d, a := .s 2, b := .reg (.s 4) }
/-- Context 1 is privileged (R368). -/
def withPriv (s : State) : State := { s with ctxs := [(1, { newCtx (1 <<< 112) 0 0 with st := 3 })] }

/-! ### The spec's worked examples (R32, R70, R98, R107, R109, R111, R115, R142 to R145, R234, R359, R412) -/

theorem test_mulh : mulhF .i32 0xFFFFFFFE 3 = 0xFFFFFFFF ∧ mulhF .n32 0xFFFFFFFF 2 = 1 := by decide +kernel
theorem test_shr_by_element : shrF .n8x4 0xF0F0F0F0 0x00080401 = 0xF0000F78 := by decide +kernel
theorem test_bfx : bfxF .i32 0xE00 0x409 = 7 ∧ bfxF .i32 0xE00 0x408 = 0xFFFFFFFE := by decide +kernel
theorem test_prmt :
    prmtF 0x01020304 5 0x3210 = 0x01020304 ∧ prmtF 0x01020304 5 0x0123 = 0x04030201 ∧ prmtF 0 0x11223344 0x5476 = 0x33441122 ∧
      prmtF 0x80 0 0x8880 = 0xFFFFFF80 := by decide +kernel
theorem test_pack_saturates : packF .i8x4 true 0x0100FF80 5 = 0x00057F80 := by decide +kernel
theorem test_fma_rounds_once : fmaF .f32 .rn 0 0 0x3F800001 0x3F7FFFFE 0xBF800000 = (0xA8800000, false) := by decide +kernel
theorem test_cvt :
    convert 0x8000 .i32 .f32 false .rz 0xC0FCCCCD = 0xFFFFFFF9 ∧ convert 0x8000 .t8 .f32 false .rn 0x43200000 = 0x7A ∧
      convert 0x8000 .f16 .f32 true .rn 0x49742400 = 0x7BFF ∧ convert 0x8000 .f32 .e8m0 false .rn 0x7F = 0x3F800000 := by decide +kernel
theorem test_cvtpk : cvtpkF 0x8000 .t8 1 false .rn 0x3F800000 0x3E99999A 0 = 0x23400000 ∧ cvtpkF 0x8000 .fp4 0 false .rn 0xC0A00000 0x3FE00000 0 = 0x4E := by
  decide +kernel
theorem test_cvtunpk : cvtunpkF 0x4040 .f32 .fp4 3 .rn 0x8000 = 0x40400000 ∧ cvtunpkF 0x8000 .f32 .fp4 3 .rn 0x8000 = 0x80000000 := by decide +kernel
theorem test_mxsc : mxscF .fp4 (0xC1A00000 :: 0x40E00000 :: 0x3E99999A :: List.replicate 29 0x3F800000) = 0x81 := by decide +kernel
theorem test_wharf_of_key : keyWharf 0x203 = 2 := by decide +kernel
theorem test_home_slice : sliceOfPa 0x20001_0180 = 258 := by decide +kernel
theorem test_collective_rounds_once : collCombine .add .f32 [0x3F800000, 0x4B800000, 0x3F800000] = 0x4B800001 := by decide +kernel
/-- A step from 3.3 to 2.0 GHz at tick 1,500,000, relocked after 2,000 ticks (R33). -/
theorem test_cycles_over_a_step :
    let d := { Die.init with running := true, log := [{ fmul := 33, cyc0 := 3300000, time0 := 1000000 }], logCount := 1 }
    let r := { d with relock := some (20, dieCyc d 1500000) }
    let e := { d with log := { fmul := 20, cyc0 := dieCyc d 1500000, time0 := 1502000 } :: d.log, logCount := 2 }
    dieCyc r 1501000 = 4949999 ∧ dieCyc e 1502000 = 4950000 ∧ dieCyc e 1602000 = 5150000 := by decide +kernel
/-- The first step after a placement fetches and runs the word there. -/
theorem test_first_step :
    (match Machine.step (State.reset.withFetchWord 96 0x2084_0780_0081_40A0_0000_0020) with
     | .next t => (getF t at0).map (fun f => (f.pc, vget t (vkey (descOf t f) 0 0 0 5))) == some (0x3000C, List.replicate 32 32)
     | _ => false) = true := by decide +kernel
theorem test_generated_nan : sfunF .sqrt .f32 .rn 5 0x123456788 0xBF800000 = (0x7FCB7D8A, true) := by decide +kernel
theorem test_div_table :
    divF .i32 7 2 = 3 ∧ remF .i32 0xFFFFFFF9 2 = 0xFFFFFFFF ∧ divF .i32 7 0xFFFFFFFE = 0xFFFFFFFD ∧ divF .i32 1000 0 = 0xFFFFFFFF ∧
      remF .n32 1000 0 = 1000 ∧ divF .i32 0x80000000 0xFFFFFFFF = 0x80000000 ∧ remF .i32 0x80000000 0xFFFFFFFF = 0 := by decide +kernel
theorem test_neg_saturates : arith1 .i8x4 true (fun p => -p) 0x80 = 0x7F := by decide +kernel

/-! ### The hypotheses of the statements are met -/

theorem test_meets_IntegerArithmetic : act s0 [
    .add (r2 .i32) true, .sub (p2 .i64) false, .mul (r2 .i8x4) true, .mulh (p2 .n64), .mad (r3 .i16x2) true, .neg (r1 .i4x8) true,
    .abs { r1 .i32 with d := .s 1, a := .s 2 } false, .min (r2 .n8x4), .max (z2 .i64 (.s 0)), .sad (r3 .n8x4) true, .addc (p3 .n64) true,
    .subb (r3 .n32) false, .lea (z2 .b64 (.s 63)) 3, .dot4 (r3 .i8x4) true] = true := by decide +kernel

/-- Without the trap on 0 a divisor 0 is met; with it (R100), one that is not 0, and one that is: at speed and in pilot gear. -/
theorem test_meets_Division :
    act s0 [.div (r2 .i32), .rem (p2 .n64)] = true ∧ descDiv0 (descOf s0 (fib s0)) = false ∧
      act (mk (2 ^ 498) regs0) [.div (z2 .i64 (.s 1)), .rem (z2 .i64 (.s 1))] = true ∧
      descDiv0 (descOf (mk (2 ^ 498) regs0) (fib (mk (2 ^ 498) regs0))) = true ∧
      zeroDivs (mk (2 ^ 498) regs0) (fib (mk (2 ^ 498) regs0)) (z2 .i64 (.s 1)) = [] ∧
      (∀ b : Bool,
        let s := mk (2 ^ 498) fun f => { regs0 f with pilot := { f.pilot with on := b } }
        act s [.div (r2 .i32), .rem (p2 .n64)] = true ∧ descDiv0 (descOf s (fib s)) = true ∧ (fib s).pilot.on = b ∧
          zeroDivs s (fib s) (r2 .i32) ≠ [] ∧ zeroDivs s (fib s) (p2 .n64) ≠ []) := by decide +kernel

theorem test_meets_Bits : act s0 [
    .and (r2 .b32), .or (p2 .b64), .xor (r2 .b32), .andn (r2 .b32), .not (r1 .b32), .shl (r2 .n8x4), .shr (p2 .b64), .sra (r2 .i16x2),
    .rol (p2 .b64), .bfx { r2 .i32 with b := .imm 0xFFFF }, .bfi (p3 .b64), .popc (r1 .b32), .clz (r1 .b32), .ctz (r1 .b32), .brev (r1 .b32),
    .prmt (r3 .b32)] = true := by decide +kernel

theorem test_meets_CompareMovePack : act s0 [
    .cmp { p2 .i64 with d := .v 1 } .ge, .mov hd0 .b128 (.v 252) (.reg (.v 4)), .mov hd0 .b64 (.s 63) (.imm 0xFFFFFFFF),
    .pack hd0 .i4x8 (.v 1) (.v 2) (.v 3) true, .unpack (r1 .i8x4) true] = true := by decide +kernel

theorem test_meets_AcrossLanes : act s0 [
    .bcast { p2 .b64 with b := .imm 31 }, .vote { r1 .b32 with d := .s 5 } .uni, .actn (r1 .n32),
    .shfl { r2 .b32 with b := .imm 255 } .up] = true := by decide +kernel

theorem test_meets_FloatExact : act s0 [
    .fmin (r2 .f16x2) true, .fmax (r2 .f32) false, .fcmp (r2 .bf16x2) .uge, .frnd (r1 .f32) .rd, .fclass (r1 .f32), .fscl (r2 .f32) .rz,
    .fexpo (r1 .f32), .cvt hd0 (.v 2) (.v 5) .i64 .f32 false .rz, .cvtpk hd0 (.v 1) (.v 2) none (.v 4) .t6 2 false .rn,
    .cvtunpk hd0 (.v 1) (.v 2) .bf16x2 .fp4 6 .rn, .mxsc { r1 .f32 with d := .s 1 } .i8] = true := by decide +kernel

/-- Also in a kernel that traps on an invalid result (R128), where none is, and where one is: 0 times an infinity. -/
theorem test_meets_FloatArithmetic :
    let s := mk (2 ^ 499) regs0
    act s [.fadd (r2 .f32) .rn, .fsub (r2 .f16x2) .ru, .fmul (r2 .bf16x2) .rz, .fma (r3 .f32) .rd, .fdot2 (r3 .f16x2) .rn] = true ∧
      descFpInv (descOf s (fib s)) = true ∧
      marked s (fib s) hd0 (.v 1) (fun l => faddF .f32 false .rn (nanLane (.v 1) l) (fib s).pc (opVal s (fib s) at0 (.v 2) 1 l)
        (srcVal s (fib s) at0 .f32 1 (.reg (.v 3)) l)) = [] ∧
      (∀ b : Bool,
        let s := mk (2 ^ 499) fun f => { regs0 f with pilot := { f.pilot with on := b } }
        let y := { r2 .f32 with b := .imm 0x7F800000 }
        act s [.fmul y .rn] = true ∧ descFpInv (descOf s (fib s)) = true ∧ (fib s).pilot.on = b ∧
          marked s (fib s) hd0 (.v 1) (fun l => fmulF .f32 .rn (nanLane (.v 1) l) (fib s).pc (opVal s (fib s) at0 (.v 2) 1 l)
            (srcVal s (fib s) at0 .f32 1 (.imm 0x7F800000) l)) ≠ []) := by decide +kernel

theorem test_meets_StatusReads :
    act s0 [.fltrd hd0 (.v 2) 0, .fltrd hd0 (.s 5) 6, .ldsp hd0 (.s 5), .mstat hd0 (.s 5) 3, .fltset hd0 .b32 (.imm 5)] = true ∧ (fib s0).hnd = none ∧
      (let s := mk 0 fun f => { regs0 f with hnd := some { s60 := 0, s61 := 0, s62 := 0, s63 := 0, amask := 1, resume := 0, tmask := 1, tpc := 0
                                                           word := 0, addrs := [], dst := some (.v 255, 1), code := 0, atSpeed := 0, spanStart := 0 } }
       act s [.fltset hd0 .b32 (.imm 5)] = true ∧
         (fltVals s at0 (fib s) hd0 .b32 (.imm 5)).any (fun x => x.2.1 ≤ 256 && x.1 == .v 255) = true) := by decide +kernel

/-- Targets at both ends of the range of R60, and beyond either; a guard that no lane passes. -/
theorem test_meets_Jumps :
    let n := { hd0 with guard := .pass 3 }
    let f := fib s0
    let at_ (o : Opnd) (off : Word) := f.pc + off.signExtend 64 + 0 * BitVec.ofNat 64 (opVal s0 f at0 o 2 0)
    let cls (a : Src) := targetCls (srcTarget s0 f a)
    act s0 [.nop hd0, .br hd0 .z (.s 5) 12, .br hd0 .nz (.s 5) 12, .br n .z (.s 5) 12, .jmp hd0 (.reg (.s 6)), .jmp n (.imm 0), .call hd0 0xFFFD0000,
      .call n 0, .calli hd0 (.s 9), .calli n (.s 9), .ret hd0 (.s 9), .ret n (.s 9), .brc hd0 .nz (.v 1) 4 31, .brc hd0 .z (.v 1) 4 0] = true ∧
    act s0 [.jmp hd0 (.reg (.s 7)), .jmp hd0 (.reg (.s 8)), .call hd0 2, .call hd0 0xFFFC0000, .calli hd0 (.s 7), .calli hd0 (.s 8), .ret hd0 (.s 7),
      .ret hd0 (.s 8), .br hd0 .z (.s 5) 1, .br hd0 .z (.s 5) 0xFFFC0000, .brc hd0 .z (.v 1) 0x4000000 0] = true ∧
    passLanes s0 f at0 .always ≠ [] ∧ passLanes s0 f at0 (.pass 3) = [] ∧ zTest .z (opVal s0 f at0 (.s 5) 2 0) = true ∧
    cls (.reg (.s 6)) = 0 ∧ cls (.reg (.s 9)) = 0 ∧ targetCls (at_ (.s 5) 0xFFFD0000) = 0 ∧
    cls (.reg (.s 7)) = 4 ∧ cls (.reg (.s 8)) = 6 ∧ targetCls (at_ (.s 5) 2) = 6 ∧ targetCls (at_ (.s 5) 0xFFFC0000) = 4 ∧ targetCls (at_ (.s 5) 1) = 6 ∧
    targetCls (f.pc + ((0x4000000 : BitVec 27) ++ (0 : BitVec 2)).signExtend 64) = 4 ∧ f.pilot.on = false ∧
    zTest .z (opVal s0 f at0 (.v 1) 1 31 % 2 ^ 32) = true ∧
    (let t (c : Cond) := maskOf ((passLanes s0 f at0 .always).filter fun l => zTest c (opVal s0 f at0 (.v 1) 1 l % 2 ^ 32))
     t .nz = 0 ∧ t .z ≠ 0 ∧ f.amask &&& ~~~t .z = 0) := by decide +kernel

/-- `brc` of lane 0 alone: with a context for a fragment, with none, and in pilot gear. -/
theorem test_meets_Diverges :
    let one (s : State) : State := { s with vregs := [(vkey (descOf s0 (fib s0)) 0 0 0 1, 1 :: List.replicate 31 0)] }
    let i := Instr.brc hd0 .nz (.v 1) 4 31
    let ok (s : State) : Bool :=
      let f := fib s
      let tk := maskOf ((passLanes s f at0 .always).filter fun l => zTest .nz (opVal s f at0 (.v 1) 1 l % 2 ^ 32))
      act s [i] && tk == 1 && f.amask &&& ~~~tk != 0 && targetCls (f.pc + ((4 : BitVec 27) ++ (0 : BitVec 2)).signExtend 64) == 0 &&
        f.splits.isEmpty && s.pends.isEmpty
    let full (s : State) : State :=
      (List.range 8).foldl (fun s c => if c = 0 then s else setF s { at0 with fib := c } { fib s with root := c, wait := .wclaim 15 }) s
    let pil := one (mk 0 fun f => { regs0 f with pilot := { f.pilot with on := true } })
    ok (one s0) = true ∧ (fib (one s0)).pilot.on = false ∧ fragCtx (one s0) at0 (fib (one s0)) = some 1 ∧
      ok (full (one s0)) = true ∧ fragCtx (full (one s0)) at0 (fib (full (one s0))) = none ∧
      ok pil = true ∧ (fib pil).pilot.on = true := by decide +kernel

/-- `yield` with no other fibre ready, and with one. -/
theorem test_meets_Yield :
    let next (s : State) := ((List.range 7).map fun i => ((getB (Machine.next s at0) 0 0).cur + 1 + i) % 8).find? fun c =>
      readyFib (Machine.next s at0) { at0 with fib := c }
    act s0 [.yield hd0] = true ∧ next s0 = none ∧ act (s0two 0 0) [.yield hd0] = true ∧ next (s0two 0 0) = some 1 := by decide +kernel

/-- `join` with no split; of a lone piece; of the first of two pieces, and of the last. -/
theorem test_meets_Join :
    act s0 [.join hd0 31] = true ∧ (fib s0).splits = [] ∧
    (let s := mk 0 fun f => let g := { regs0 f with splits := [split31], amask := 1 }; { g with span := newSpan g }
     let f := fib s
     act s [.join hd0 31] = true ∧ f.splits.find? (fun x => x.tok == 31) = some split31 ∧ joinMates s at0 0 9 = [] ∧ family s 0 0 f.root = [0] ∧
       f.halves = [] ∧ f.amask ≠ 0 ∧ split31.lanes &&& f.amask = f.amask ∧ splitIn f 9 = some split31) ∧
    ∀ w ∈ [Wait.none, .join 9 0x30000],
      let s := pieces w
      let s1 := setWait s at0 (.join 9 0x30000)
      act s [.join hd0 31] = true ∧ joinMates s at0 0 9 = [{ at0 with fib := 1 }] ∧
        joinApart s ((at0 :: joinMates s at0 0 9).map fun q => (q, 0)) 9 = false ∧ joinFull s1 at0 0 9 0x30000 0 = (w != .none) ∧
        joinCommits s1 (arrivals s1 at0 0 9 0x30000) 9 = false := by decide +kernel

theorem test_meets_FibreBarrier :
    act s0 [.fbar hd0 0xFE, .fbar hd0 1] = true ∧ (fib s0).op = none ∧ (0xFE : BitVec 8).getLsbD (fib s0).root = false ∧
      (1 : BitVec 8).getLsbD (fib s0).root = true ∧ (getB s0 0 0).fbars = [] ∧ (∀ c, c < 8 → c ≠ (fib s0).root → (1 : BitVec 8).getLsbD c = false) ∧
      family s0 0 0 0 = [0] ∧ (fib s0).halves = [] ∧
    act (s0two 0 0) [.fbar hd0 3] = true ∧ (getB (s0two 0 0) 0 0).fbars = [] ∧ (3 : BitVec 8).getLsbD 0 = true ∧ (3 : BitVec 8).getLsbD 1 = true ∧
      family (s0two 0 0) 0 0 1 ≠ [] := by decide +kernel

/-- Slot 15 a shared block (R156), free (8) or held by a context. -/
def s0s (holder : Nat) : State :=
  let s := mk (2 ^ 446) regs0
  setB s 0 0 { getB s 0 0 with holder := (List.replicate 15 8) ++ [holder] }
/-- The same, where the fibre of context 1 waits for the block. -/
def s0w (holder : Nat) : State :=
  let s := mk (2 ^ 446 + 2 ^ 372) regs0
  let s := setF s { at0 with fib := 1 } { fib s with root := 1, wait := .wclaim 15 }
  setB s 0 0 { getB s 0 0 with holder := (List.replicate 15 8) ++ [holder] }
theorem test_meets_SharedBlocks :
    (∀ k ∈ [0, 1, 8], act (s0s k) [.wclaim hd0 15, .wgive hd0 15] = true ∧ Machine.blockOk (s0s k) (fib (s0s k)) 15 = true ∧
      (getB (s0s k) 0 0).holder.getD 15 8 = k ∧ 15 < (getB (s0s k) 0 0).holder.length) ∧ (fib (s0s 0)).root = 0 ∧
    (∀ c : Fin 8, (getF (s0s 0) { at0 with fib := c }).all (fun g => g.wait != .wclaim 15) = true) ∧
    act (s0w 0) [.wgive hd0 15] = true ∧ Machine.blockOk (s0w 0) (fib (s0w 0)) 15 = true ∧ (getB (s0w 0) 0 0).holder.getD 15 8 = 0 ∧
      (getF (s0w 0) { at0 with fib := 1 }).map Fibre.wait = some (.wclaim 15) ∧ (fib (s0w 0)).wait ≠ .wclaim 15 ∧
    act s0 [.wclaim hd0 15, .wgive hd0 15] = true ∧ hasPend s0 at0 = false ∧ Machine.blockOk s0 (fib s0) 15 = false := by decide +kernel

/-- `park` of an address that can be read, and of one whose translation is known to be absent. -/
theorem test_meets_Park :
    (let r := laneChecks s0 at0 (fib s0) (cidOf s0 (fib s0)) 1 (Ask.load 1) .normal [(lowLane (fib s0), scalarAddr s0 (fib s0) (.s 2) (.imm 0xFFFF))]
     act s0 [.park hd0 (.s 2) (.imm 0xFFFF)] = true ∧ r.ok.length = 1 ∧ r.bad = [] ∧ r.miss = []) ∧
    (let s := mk 0 fun f => { regs0 f with xlat := [{ vpn := 0x100, cls := 4, level := 0, pte := 0 }], scal := [(2, 0x1000000)] }
     let r := laneChecks s at0 (fib s) (cidOf s (fib s)) 1 (Ask.load 1) .normal [(lowLane (fib s), scalarAddr s (fib s) (.s 2) (.imm 0))]
     act s [.park hd0 (.s 2) (.imm 0)] = true ∧ r.ok.length = 0 ∧ r.bad.length = 1 ∧ r.miss = [] ∧ (fib s).op = none) := by decide +kernel

/-- A kernel of two fibre contexts, and of one; a guard that some of the lanes pass. -/
theorem test_meets_FibresBeginAndEnd :
    let s := mk (2 ^ 372) regs0
    let i := Instr.spawn hd0 (.s 5) (.v 8) (.reg (.s 9))
    act s [i] = true ∧ ((List.range (descFibres (descOf s (fib s)))).find? fun c => freeRoot s 0 0 c) = some 1 ∧ (fib s).root < 8 ∧ (fib s).op = none ∧
    act s0 [i] = true ∧ ((List.range (descFibres (descOf s0 (fib s0)))).find? fun c => freeRoot s0 0 0 c) = none ∧
    act s0 [.exit hd0, .exit { hd0 with guard := .pass 3 }] = true ∧ exitCommits s0 at0 0 (maskOf (passLanes s0 (fib s0) at0 .always)) = [] ∧
      maskOf (passLanes s0 (fib s0) at0 .always) = (fib s0).amask ∧ (fib s0).halves = [] ∧
    (let t := { s0 with vregs := [(vkey (descOf s0 (fib s0)) 0 0 0 3, 1 :: List.replicate 31 0)] }
     act t [.exit { hd0 with guard := .pass 3 }] = true ∧ maskOf (passLanes t (fib t) at0 (.pass 3)) = 1 ∧ exitCommits t at0 0 1 = []) ∧
    (let t := mk 0 fun f => let g := { regs0 f with amask := 1, halves := [half] }; { g with span := newSpan g }
     act t [.exit hd0] = true ∧ maskOf (passLanes t (fib t) at0 .always) = (fib t).amask ∧ (fib t).halves ≠ [] ∧ exitCommits t at0 0 1 = []) := by
  decide +kernel

def rgn (n : Nat) (f : Fibre) : Fibre :=
  let f := { regs0 f with regions := List.replicate n { id := 1, idem := false, entry := 0 } }
  { f with span := newSpan f }
def fault (cls : Nat) : FaultInfo :=
  { cls, pc := 0x30000, pos := 0, mask := 1, addrs := [(0, 0x40001)], acc := 0, decode := false, retry := true, dst := some (.v 1, 1), code := 0
    replaced := 0 }
def handling : Handling :=
  { s60 := 5, s61 := 0, s62 := 0, s63 := 1, amask := 3, resume := 0x30000, tmask := 1, tpc := 0x30000, word := 6, addrs := [], dst := none
    code := 0, atSpeed := 0, spanStart := 0x30000 }
/-- Context 1 has handlers for every class. -/
def withHandlers (s : State) : State :=
  { s with ctxs := [(1, { newCtx 0 0 0 with st := 3, handlers := List.replicate 32 (0x30000, 9) })] }
/-- The stack of regions 23 deep, and 24. -/
theorem test_meets_Regions :
    act (mk 0 (rgn 23)) [.rgnEnter hd0 7 true] = true ∧ (fib (mk 0 (rgn 23))).regions.length < 24 ∧ act (mk 0 (rgn 24)) [.rgnLeave hd0, .rgnEnter hd0 7 true] = true ∧
      (fib (mk 0 (rgn 24))).regions.length = 24 ∧ act s0 [.rgnLeave hd0] = true ∧ (fib s0).regions = [] ∧ (fib (mk 0 (rgn 24))).op = none := by decide +kernel

theorem test_meets_TakingAnException :
    let s := withHandlers s0
    let f := fib s
    getF s at0 = some f ∧ f.dbg.want ≠ 1 ∧ stepping s f = false ∧ f.hnd = none ∧ kernelClass (fault 6).cls = false ∧ (fault 6).acc ≠ 6 ∧
      (handlerOf s f 6).1 ≠ 0 ∧ (handlerOf s f 6).1.toNat % 4 = 0 ∧ tabWf 0 f.scal = true ∧ kernelClass (fault 8).cls = true ∧ f.dual = none := by
  decide +kernel

theorem test_meets_SoftwareTrap :
    let s := withHandlers s0
    let f := fib s
    act s [.trap hd0 0xFFEF, .trap { hd0 with guard := .pass 3 } 0] = true ∧ f.op = none ∧ f.dbg.want ≠ 1 ∧ stepping s f = false ∧ f.hnd = none ∧
      (handlerOf s f 0x0C).1 ≠ 0 ∧ (handlerOf s f 0x0C).1.toNat % 4 = 0 ∧ maskOf (passLanes s f at0 .always) ≠ 0 ∧
      maskOf (passLanes s f at0 (.pass 3)) = 0 := by decide +kernel

theorem test_meets_HandlerReturn :
    let s := mk 0 fun f => { regs0 f with hnd := some handling, pilot := { f.pilot with on := true } }
    act s [.tret hd0 false, .tret hd0 true] = true ∧ (fib s).hnd = some handling := by decide +kernel

theorem test_meets_SpanControls :
    act s0 [.brk hd0 0xFFFF, .stsp hd0 (.imm 1), .stsp hd0 (.imm 4096), .stsp hd0 (.reg (.s 3)), .pilot hd0 true, .pilot hd0 false] = true ∧ getF s0 at0 = some (fib s0) ∧
      (fib s0).dual = none ∧ vanished (fib s0) = 0 ∧ (fib s0).span.brk = none ∧ ctxFlag s0 (cidOf s0 (fib s0)) 117 = false ∧
      (fib s0).pilot.forced = none ∧ (fib s0).hnd = none ∧
    (let s := { mk 0 fun f => { regs0 f with span := { f.span with brk := some (0x30000, 7, 0) } } with
       ctxs := [(1, { newCtx (1 <<< 117) 0 0 with st := 3 })] }
     getF s at0 = some (fib s) ∧ (fib s).dual = none ∧ vanished (fib s) = 0 ∧ (fib s).span.brk = some (0x30000, 7, 0) ∧
       ctxFlag s (cidOf s (fib s)) 117 = true) := by decide +kernel

theorem test_meets_LongLatencyResults :
    let n (l : List (Nat × Nat)) := l ≠ []
    let x : Op1 := { r1 .f32 with d := .v 1 }
    act s0 [.rdl { r2 .b32 with d := .s 5, b := .imm 31 }, .vred { r1 .i64 with d := .s 5, a := .v 254 } .min, .rcp x .rn, .rsq (r1 .f16x2) .rz, .sqrt (r1 .bf16x2) .ru,
      .exp2 x .rd, .log2 x .rn, .sinpi x .rn, .cospi x .rn, .tanh x .rn, .fdiv (r2 .f32) .rn, .chk hd0 (.s 5) (.s 2),
      .ldX { mem .i8 .plain .fib .normal (.imm 0xFFE0) with base := .s 3 },
      .accld hd0 (.v 1) (.s 1) 248 7] = true ∧
    n (laneVals s0 (fib s0) hd0 (.s 5) fun _ => 0) ∧ n (laneVals s0 (fib s0) hd0 (.v 1) fun _ => 0) ∧
    (∀ q ∈ foldRefs s0 (fib s0) at0, emptyRef s0 q = false) ∧
    (let ls := memLanes s0 (fib s0) hd0 true (.s 3) (.imm 0xFFE0) (accessSize .i8)
     ls ≠ [] ∧ scratchBad s0 (fib s0) 1 ls = [] ∧ sameScratch s0 (fib s0) ls 1 = false) ∧
    groupOf s0 (fib s0) = some (grp0 s0) ∧ passLanes s0 (fib s0) at0 .always ≠ [] ∧
      rowBad s0 (fib s0) 0 0 (passLanes s0 (fib s0) at0 .always) = [] ∧ sameAcc s0 (fib s0) [(0, 248), (31, 255)] = false ∧
    (let s := withPriv (mk 0 fun f => { regs0 f with scal := [(3, 0x010000690000)] })
     act s [.ldsys hd0 .b64 (.s 5) (.s 3) (.imm 0)] = true ∧ hasPend s at0 = false ∧
       sysCls (scalarAddr s (fib s) (.s 3) (.imm 0)) (4 * Ty.b64.regs) = 0) := by decide +kernel

/-- A lane of a load of address `pa`. -/
def opl (pa : Nat) (trk : Bool) : OpLane :=
  { lane := 0, va := pa, pa, trk, pol := .normal, comm := none, fwd := [none, none, none, none], b := 0, c := 0 }
/-- A result of `rcp`, as the step that issued it left it. -/
def pend0 : Pend :=
  { id := 1, core := 0, berth := 0, fib := 0, root := 0, pc := 0x30000, pos := 0, dst := .v 1
    refs := [.vec (vkey (descOf s0 (fib s0)) 0 0 0 1)], mask := 1, scalar := false, ty := .f32, size := 4, lanes := [], asked := [], pilot := false, scratch := false, vals := [(0, 9)], bad := []
    acq := false, wat := [], post := none, seq := 0 }
theorem test_meets_ResultWriteback :
    ∀ q ∈ [pend0, { pend0 with scratch := true, lanes := [opl 0x40 false] }],
      let s := { s0 with pends := [q] }
      s.pends.find? (fun x => x.id == q.id) = some q ∧ pendOwner s q = some at0 ∧ q.bad = [] ∧ q.post = none ∧ q.wat = [] ∧
        getF s at0 = some (fib s) ∧ (fib s).dual = none ∧ tabRises s.fibres = true ∧ (getReg s injAddr).toNat % 2 = 0 := by decide +kernel

/-- The next element of an `accld` of two: in the tile, and in a store held over it. -/
theorem test_meets_accld :
    ∀ w ∈ [[], [some 1, some 2, some 3, some 4]],
      let l : OpLane := { opl 248 false with va := 1, fwd := w }
      let q := { pend0 with acc := true, lanes := [l, opl 249 false] }
      let s := { s0 with pends := [q] }
      s.pends.find? (fun x => x.id == q.id) = some q ∧ pendOwner s q = some at0 ∧ getF s at0 = some (fib s) ∧ (fib s).dual = none ∧
        tabRises s.fibres = true ∧ (getReg s injAddr).toNat % 2 = 0 ∧ groupOf s (fib s) = some (grp0 s) := by decide +kernel

/-- A load whose line the L1 holds, owned; one whose line it does not hold; one of an untracked page; and one of a register. -/
theorem test_meets_LoadPerforms :
    let q (trk : Bool) := { pend0 with lanes := [opl 0x40000 trk], vals := [] }
    let cp : Copy := { owned := true, data := 5, wt := 0, lt := 0, dirty := 0 }
    let s (trk : Bool) := { s0 with pends := [q trk] }
    let h := setC (s true) 0 { getC s0 0 with l1 := [(0x800, cp)] }
    pendOwner h (q true) = some at0 ∧ spinDue h at0 (fib h) = false ∧ atHome h (fib h) (opl 0x40000 true) = false ∧
      hitCopy h 0 (opl 0x40000 true) = some cp ∧ isReg h (opl 0x40000 true) = false ∧ isReg h (opl 0x010000690000 false) = true ∧
    (∀ b : Bool, pendOwner (s b) (q b) = some at0 ∧ getF (s b) at0 = some (fib (s b)) ∧ (q b).scratch = false ∧ (q b).asked = [] ∧
      spinDue (s b) at0 (fib (s b)) = false ∧ atHome (s b) (fib (s b)) (opl 0x40000 b) = !b ∧ hitCopy (s b) 0 (opl 0x40000 b) = none ∧
      tfind (getC (s b) 0).parts (lineNo 0x40000) = none) := by decide +kernel

theorem test_meets_GlobalLoad :
    let x := mem .b32 .acq .dom .normal (.imm 0xFFFFFFFC)
    let s := mk 0 fun f => { regs0 f with scal := [(2, 0x50000)] }
    let f := fib s
    let r := laneChecks s at0 f (cidOf s f) 4 { globalAsk s f (Ask.load 4) with elemTy := some .b32 } .normal
      (memLanes s f hd0 true (.s 2) x.off 4)
    act s [.ldG x] = true ∧ act s [.ldG { x with ord := .sc, sc := .fib }] = true ∧ hasPend s at0 = false ∧ f.dual = none ∧ r.ok.length = 32 ∧ r.miss = [] ∧ r.bad = [] ∧ sameLine s f r.ok = false ∧
      (∀ l ∈ r.ok, rngOf s l.pa ≠ .regs) := by decide +kernel

theorem test_meets_HeldCommands :
    act s0 [.stX { mem .b128 .rel .grp .normal (.imm 0xFE00) with base := .s 3, r := .v 252 }, .accst hd0 (.v 255) (.s 1) 255 0, .acczero hd0 (.s 1) 1,
      .dsc hd0 (.s 2) (.imm 0), .dsc hd0 (.v 2) (.imm 0), .mark hd0 0xFFFFFFFF] = true ∧
    act s0 [.stX { mem .t6x5 .plain .fib .normal (.imm 0xFE00) with base := .s 3 }] = true ∧
    memLanes s0 (fib s0) hd0 true (.s 3) (.imm 0xFE00) 16 ≠ [] ∧
      scratchBad s0 (fib s0) 16 (memLanes s0 (fib s0) hd0 true (.s 3) (.imm 0xFE00) 16) = [] ∧
    rowBad s0 (fib s0) 0 32 (passLanes s0 (fib s0) at0 .always) = [] ∧ memLanes s0 (fib s0) hd0 false (.s 2) (.imm 0) 0 ≠ [] ∧
      memLanes s0 (fib s0) hd0 true (.v 2) (.imm 0) 0 ≠ [] ∧
    (let s := withPriv (mk 0 fun f => { regs0 f with scal := [(3, 0x010000690000)] })
     act s [.stsys hd0 .b32 (.s 3) (.s 5) (.s 4), .tlbi hd0 .mod .va (.s 2) (.s 4)] = true ∧ sysCls (scalarAddr s (fib s) (.s 3) (.reg (.s 5))) 4 = 0) := by decide +kernel

theorem test_meets_GlobalStore :
    let x := { mem .b8 .rel .dom .l2Retain (.imm 0) with r := .v 255, base := .v 4 }
    let s := { s0 with vregs := [(vkey (descOf s0 (fib s0)) 0 0 0 4, List.replicate 32 0x4FFFF)] }
    let f := fib s
    let r := laneChecks s at0 f (cidOf s f) 1 (globalAsk s f (Ask.store 1)) x.cpol (memLanes s f hd0 true (.v 4) (.imm 0) 1)
    act s [.stG x, .stG { x with t := .t6x5 }] = true ∧ r.ok.length = 32 ∧ r.miss = [] ∧ r.bad = [] := by decide +kernel

/-- A held store of a scratchpad, and one of a line that the core owns. -/
theorem test_meets_HeldStoreReleases :
    let l : HoldLane := { lane := 0, va := 0xFFFF, pa := 0x4007C, trk := true, pol := .normal, comm := none, bytes := [1] }
    let e : HoldEnt := { kind := .stX, pc := 0, mask := 1, lanes := [l], ord := .plain, sc := .fib, remap := false }
    let cp : Copy := { owned := true, data := 0, wt := 0, lt := 0, dirty := 0 }
    let s := setC s0 0 { getC s0 0 with l1 := [(0x800, cp)] }
    e.lanes = [l] ∧ getG s (fib s).grp = some (grp0 s) ∧ isReach s l.pa = true ∧ rngOf s l.pa ≠ .regs ∧ isOwn s l.pa = true ∧
      getCopy s 0 (lineNo l.pa) = some cp ∧ tabWf Core.init s.cores = true := by decide +kernel

theorem test_meets_Prefetch :
    let r (p : CPol) := laneChecks s0 at0 (fib s0) (cidOf s0 (fib s0)) 1 (Ask.load 1) p (memLanes s0 (fib s0) hd0 false (.s 2) (.imm 0xFFFF) 0)
    act s0 [.pf hd0 .l2Retain (.s 2) (.imm 0xFFFF), .lease hd0 (.s 2) (.imm 0xFFFF) 8] = true ∧
      act s0 [.pf hd0 .noL1 (.s 2) (.imm 0xFFFF)] = true ∧ (r .noL1).miss = [] ∧
      ∀ p ∈ [CPol.l2Retain, .normal], (r p).miss = [] ∧ (r p).ok.length = 1 ∧ ∀ l ∈ (r p).ok, l.trk = true ∧ l.pol ≠ .noL1 ∧
        tabWf Core.init s0.cores = true ∧ hitCopy s0 0 l = none := by decide +kernel

theorem test_meets_Fences :
    act s0 [.fence hd0 .rel .fib, .fence hd0 .sc .sys, .fence hd0 .acq .grp] = true ∧ wide .fib = false ∧ wide .sys = true ∧ wide .grp = true ∧
      (fib s0).op = none ∧ drained s0 0 .sys = true := by decide +kernel

def answered (s : State) : Bool :=
  let f := fib s
  match f.op with
  | some o => !opOut s at0 && o.lanes.isEmpty && o.bad.isEmpty && !f.committing && f.dual.isNone && decide (0 < o.stage)
  | none => false
def s0op (aux : Nat) : State := mk 0 fun f => { regs0 f with op := some (opDone aux) }
theorem test_meets_Atomics :
    let x := atm .i32
    let b := { atm .b64 with d := .v 2, b := .v 4 }
    answered (s0op 0) = true ∧ mustWaitDrain (s0op 0) .acqrel .dom = false ∧ act (s0op 0) [.atomAdd x, .atomSub x, .atomMin x, .atomMax x, .atomAnd b, .atomOr b,
      .atomXor b, .atomXchg b, .atomCas b (.v 6), .atomInc (atm .n32), .atomDec (atm .n32), .atomFadd (atm .f32)] = true := by decide +kernel

def qop (o : Order) (b : Option Opnd) : QOp := { h := hd0, ord := o, sc := if o = .plain then .fib else .dom, d := .s 5, a := .s 2, blk := b }
theorem test_meets_HomeOperations :
    let m := mem .b32 .sc .grp .normal (.imm 0)
    answered (s0op 0) = true ∧ answered (s0op 9) = true ∧ mustWaitDrain (s0op 0) .sc .grp = false ∧
      memLanes (s0op 0) (fib (s0op 0)) hd0 true (.s 2) (.imm 0) 4 ≠ [] ∧ act (s0op 0) [.ldG m, .stG m, .qpop (qop .acq (some (.s 56))),
      .dqPop (qop .plain none), .dqSteal (qop .acq (some (.s 8)))] = true ∧
      act (s0op (2 ^ 63)) [.qpop { qop .acq (some (.s 56)) with d := .s 0 }, .dqPop { qop .plain (some (.s 8)) with d := .sp .fp4x },
        .dqSteal { qop .acq (some (.s 8)) with d := .s 8 }] = true ∧ answered (s0op (2 ^ 63)) = true ∧ suppressed (s0op 0) (fib (s0op 0)) hd0 = false ∧
      act (s0op 9) [.prom hd0 .grp (.s 5) (.s 2), .mbarInit hd0 .dom (.s 2) (.s 4), .mbarArr hd0 .dom (.s 5) (.s 2), .mbarWt hd0 .dom (.s 2) (.s 4),
        .dqPush (qop .rel (some (.s 8))), .depDec (qop .acqrel none), .qpush (qop .rel (some (.s 56)))] = true ∧
      (9 ≠ opVal (s0op 9) (fib (s0op 9)) at0 (.s 4) 2 0) ∧ recDep (blockRec (fib (s0op 9)) (some (.s 56))) = 0 ∧ tabWf 0 (fib (s0op 0)).scal = true := by
  decide +kernel

theorem test_meets_AtomicBegins :
    let x := { atm .i32 with d := .v 255 }
    let r := laneChecks s0 at0 (fib s0) (cidOf s0 (fib s0)) 4 (Ask.both 4) .normal (memLanes s0 (fib s0) hd0 true (.s 2) (.imm 0) 0)
    act s0 [.atomAdd x] = true ∧ (fib s0).op = none ∧ (fib s0).dual = none ∧ r.miss = [] ∧ r.bad = [] ∧ r.ok.length = 32 := by decide +kernel

theorem test_meets_Contributions :
    let s := mk 0 fun f => { regs0 f with scal := [(6, 0x60000), (7, 0x70000), (8, 0x80000)] }
    act s [.cadd hd0 .f32 (.s 4) (.s 6) (.imm 0), .cmin hd0 .i32 (.s 4) (.s 7) (.imm 0), .cmax hd0 .i32 (.s 4) (.s 8) (.imm 0)] = true ∧
      (fib s).op = none ∧ (fib s).dual = none ∧ tabWf Core.init s.cores = true ∧
      ∀ e ∈ [(caddCop .f32, Opnd.s 6), (4, .s 7), (5, .s 8)],
        let r := laneChecks s at0 (fib s) (cidOf s (fib s)) 4 { Ask.both 4 with wantCop := some e.1 } .normal
          (memLanes s (fib s) hd0 false e.2 (.imm 0) 4)
        r.miss = [] ∧ r.bad = [] ∧ r.ok.length = 1 ∧ tabRises (getC s 0).parts = true := by decide +kernel

/-- Communicator 3 of context 1 with modules 0 and 5. -/
def withComm (s : State) : State := setReg (setReg s (0x010000630000 + 0x80 * 3) 0x21) (0x010000630000 + 0x80 * 3 + 64) 0x10001
theorem test_meets_EngineCommands :
    let s := withComm (mk 0 fun f => { regs0 f with scal := [(3, 0x40000), (4, 0x50000), (5, 0x200010000), (6, 4), (7, 0xFFF0), (9, 0x0003000000000002)] })
    let f := fib s
    let t := mk 0 fun f => { regs0 f with scal := [(2, 0xFFF0), (3, 0x40000), (4, 0x100000008), (5, 8), (6, 4)] }
    let g := mk 0 fun f => { regs0 f with scal := [(5, 2048)] }
    act t [.copy hd0 .normal true 3 (.s 2) (.s 3) (.s 4) (.s 6)] = true ∧
      (let v (o : Opnd) : Nat := opVal t (fib t) at0 o 2 0
       v (.s 4) / 2 ^ 48 = 0 ∧ v (.s 4) % 2 ^ 32 = 8 ∧ v (.s 4) / 2 ^ 32 % 2 ^ 16 = 1 ∧ v (.s 2) % 4 = 0 ∧ v (.s 3) % 4 = 0 ∧ v (.s 6) % 4 = 0 ∧
         v (.s 2) + 1 * 8 ≤ scratchSize t (fib t) ∧ (chanOf (getC t 0) 3).queue.length < queueLen) ∧
    act g [.gath hd0 .noL1 (.s 1) (.v 2) (.s 5), .scat hd0 .normal (.s 1) (.v 2) (.s 5)] = true ∧
      (∀ l ∈ passLanes g (fib g) at0 .always, opVal g (fib g) at0 (.v 2) 2 l % 4 = 0 ∧ 0 + (l + 1) * 2048 ≤ scratchSize g (fib g)) ∧
      (getC g 0).gathq.length < queueLen ∧
    act s [.coll hd0 .i32 .dom .ar .max (.s 3) (.s 4) (.s 9)] = true ∧ f.op = none ∧ f.dual = none ∧ maskOf (passLanes s f at0 .always) ≠ 0 ∧
      (let C := opVal s f at0 (.s 9) 2 0
       bitsAt C 41 7 = 0 ∧ bitsAt C 56 8 = 0 ∧ bitsAt C 48 8 = 3 ∧ C % 2 ^ 32 = 2) ∧
      bitsAt (commWord s 3 8) 16 1 = 1 ∧ bitsAt (commWord s 3 8) 0 12 = cidOf s f ∧ commHas s 3 0 = true ∧ commMembers s 3 = [0, 5] ∧
      drained s 0 .dom = true := by decide +kernel

theorem test_meets_Waits :
    let s := mk 0 fun f => { regs0 f with oc := [3, 0, 0, 0] }
    let f := fib s
    act s [.wait hd0 .copy (.imm 3), .wait hd0 .copy (.imm 2), .waitp hd0 3 (.imm 0), .waitp hd0 3 (.imm 1)] = true ∧
      takeFail f .copy 3 = none ∧ takeFail f .copy 2 = none ∧ ocOf f .copy = 3 ∧ cwp s f at0 3 = 0 ∧
    (let e : EngFail := { cls := .copy, num := 1, va := 0x50000, late := false, st := f.mstat }
     let s := mk 0 fun f => { regs0 f with issued := [1, 0, 0, 0], fails := [e] }
     act s [.wait hd0 .copy (.imm 0)] = true ∧ (takeFail (fib s) .copy 0).map Prod.fst = some e) := by decide +kernel

/-- A card of one step: i8 activations of one row in the scratchpad (R314 to R317). -/
def card0 (afmt : Nat) : Nat := 2 ^ 256 + afmt * 2 ^ 280 + ((List.range 5).map fun l => 2 ^ (320 + 128 * l)).sum
def s0card (b : Nat) : State :=
  let s := { s0 with mem := memWr s0.mem 0x40000 (bytesOf 128 b) }
  farDrop (engLoad s (ownerCard at0) 0 1 .normal 0x40000 128).2.2 (ownerCard at0)
theorem test_meets_MatrixCommands :
    let s := s0card (card0 10)
    let f := fib s
    let got := engLoad s (ownerCard at0) 0 (cidOf s f) .normal 0x40000 128
    entryFull s at0 = false ∧ f.op = none ∧ f.dual = none ∧ tabWf Quay.init s.quays = true ∧
      act s [.mwld hd0 .normal (.s 2), .mpass hd0 .normal (.s 2), .mtab hd0 .normal (.s 2)] = true ∧
      opVal s f at0 (.s 2) 2 0 = 0x40000 ∧ got.1 = .ok (bytesOf 128 (card0 10)) ∧ got.2.2 = s ∧
      farDrop s (ownerCard at0) = s ∧ maskOf (passLanes s f at0 .always) ≠ 0 ∧
      cardCls (BitVec.ofNat 1024 (card0 10)) (64 * partAcc (descOf s f)) (65536 * partScr (descOf s f)) = 0 ∧
      cardBad (BitVec.ofNat 1024 (card0 10)) false = false ∧ cardBad (BitVec.ofNat 1024 (card0 10)) true = false := by decide +kernel

theorem test_meets_GroupBarriers :
    let f := fib s0
    groupOf s0 f = some (grp0 s0) ∧ act s0 [.bar hd0 .grp 15 32, .barArr hd0 .dom (.s 5) 0 0, .barWt hd0 .grp (.s 4) 15, .barWt hd0 .grp (.s 1) 15] = true ∧
      (barOf (grp0 s0) 15).arrived.contains (rootNo 0 f.root) = false ∧ drained s0 0 .dom = true ∧ ctxFlag s0 (cidOf s0 f) 115 = false ∧
      f.op = none ∧ (barOf (grp0 s0) 15).gen = opVal s0 f at0 (.s 1) 1 0 ∧ (barOf (grp0 s0) 15).gen ≠ opVal s0 f at0 (.s 4) 1 0 := by decide +kernel

/-- Graph slot 1,023 belongs to context 1, which has a task queue. -/
theorem test_meets_Launches :
    let s := s0card (oneDesc 0x30000).toNat
    let f := fib s
    let got := engLoad s (ownerCard at0) 0 (cidOf s f) .normal 0x40000 128
    let t := { mk 0 fun f => { regs0 f with scal := [(2, 1023)] } with
      slotTab := [(1023, { cid := some 1, recs := [], refused := 0 })], ctxs := [(1, { newCtx 0 0 0 with st := 3, tq := some 0x50000 })] }
    act s [.launch hd0 (.s 5) (.s 2) (.s 4)] = true ∧ drained s 0 .mod = true ∧ suppressed s f hd0 = false ∧ f.dual = none ∧ f.op = none ∧
      got.1 = .ok (bytesOf 128 (oneDesc 0x30000).toNat) ∧ got.2.2 = s ∧ farDrop s (ownerCard at0) = s ∧
      descBad (withParam (oneDesc 0x30000) 7) = false ∧ instFull s = false ∧
    act t [.graphTrig hd0 (.s 5) (.s 2) (.s 1) (.s 1)] = true ∧ drained t 0 .mod = true ∧ suppressed t (fib t) hd0 = false ∧
      trigReason t 1023 (some (cidOf t (fib t))) 0 = 0 := by decide +kernel

/-! ### Hypotheses: lines, fibres, spans, groups, engines -/

def req (op : HomeOp) (cont : Cont) (pa : Nat) : Req :=
  { id := 7, core := 0, cid := 1, pa, clk := 0, op, cont, sent := 0, port := false, tag := (0, 0, 0, 0, 0), held := 0 }
def withReq (r : Req) : State := { s0 with reqs := [r], nextId := 9 }
def homeOps : List HomeOp :=
  [.lease none 64, .own, .load 128, .store [1], .part 0 { cop := 0, elems := [] }, .atomic 0x90 .i32 0 0 1 0, .mbarArr, .queue 0xC6 0, .dep,
   .depRec 0 0 none]
theorem test_meets_HomeServes : ∀ op ∈ homeOps,
    let r := req op .drop 0x4FF80
    let s := withReq r
    findReq s r.id = some r ∧ isOwn s r.pa = true ∧ (getHome s (lineNo r.pa)).busy = false ∧ behindPart s r = false ∧ mayServe s r = (true, s) ∧
      needsRecall r (getHome s (lineNo r.pa)).owner = false ∧ needsPort s r = false ∧
      (isLease op || isOwnOp op || isUntracked op || isPart op || isAtomic op || isMbar op || isQueueOp op || op == .dep || isDepRec op) = true ∧
      ownCore r.core = true := by decide +kernel

/-- A line in error, and one that is not; an atomic that writes, and a `cas` that does not. -/
theorem test_meets_HomeValues :
    isErr (collect s0 0x800) (lineNo 0x40000) = false ∧ isErr (collect { s0 with errLines := [0x800] } 0x800) (lineNo 0x40000) = true ∧
      atomNew 0x98 .b32 0 0 0 1 5 = none ∧ atomNew 0x98 .b32 0 0 0 0 5 = some 5 := by decide +kernel

def reply (op : HomeOp) : Reply := { id := 7, req := req op .drop 0x40000, ans := { data := bytesOf 128 0, wt := 0, lt := 9, status := 0, cls := 0 } }
theorem test_meets_AnswersAndRecalls :
    (∀ op ∈ [HomeOp.lease none 64, .own, .atomic 0x90 .i32 0 0 1 0, .probe],
      let x := reply op
      pick (fun y => y.id == x.id) [x] = some (x, []) ∧ (isLease op || isOwnOp op || isAtomic op || op == .probe) = true ∧
        (deliver { s0 with replies := [] } x.req x.ans).recalls = []) ∧
    (let c : Recall := { id := 7, core := 0, line := 0x800, grant := 0, answered := false, data := none }
     let cp : Copy := { owned := true, data := 5, wt := 0, lt := 0, dirty := 1 }
     let s := { setC s0 0 { getC s0 0 with l1 := [(0x800, cp)] } with recalls := [c] }
     s.recalls.find? (fun x => x.id == c.id && !x.answered) = some c ∧ s.replies = [] ∧ getCopy s c.core c.line = some cp ∧ cp.owned = true ∧ c.ended = false ∧ cp.wt ≤ max c.grant (getC s c.core).base) ∧
    (let c : Recall := { id := 7, core := 0, line := 0x800, grant := 0, answered := true, data := some (5, 1) }
     let r := req (.load 128) .drop 0x40000
     let s := { withReq r with recalls := [c] }
     let b := takeBack { s with recalls := [] } c.core c.line c.data
     let u := setHome b c.line { getHome b c.line with busy := false }
     pick (fun x : Recall => x.id == c.id && x.answered) s.recalls = some (c, []) ∧ findReq s c.id = some r ∧ findReq u c.id = some r ∧
       needsPort u r = false) := by decide +kernel

/-- A die of 3.3 GHz, started at tick 0; the time is `t`. -/
def withClock (s : State) (t : Nat) : State :=
  { s with time := t, dies := [(0, { Die.init with running := true, log := [{ fmul := 33, cyc0 := 0, time0 := 0 }], logCount := 1 })] }
/-- The same with the packet of a line that a link has delivered. -/
def withIn (pa : Nat) (s : State) : State := { s with inbox := [pa] }
theorem test_meets_LineEvents :
    (let r := req (.prom 0 .dom) .drop 0x40000
     let s := withReq r
     let t := setC s 0 { getC s 0 with parts := [(0x800, { cop := 0, elems := [] })] }
     (∀ u ∈ [s, t], findReq u 7 = some r ∧ isOwn u r.pa = true ∧
       ∀ e ∈ u.fibres, ¬ ((placeOf e.1).core = 0 ∧ e.2.relq ≠ [] ∧ (e.2.relWait = true ∨ (e.2.froz = .no ∧ e.2.dbg.halted = false)))) ∧
     drained (startDrains (sendParts s 0) 0 .dom) 0 .dom = true ∧ drained (startDrains (sendParts t 0) 0 .dom) 0 .dom = false) ∧
    (let s := withClock (mk 0 fun f => { regs0 f with spin := (0x800, 64, 0) }) 311
     64 ≤ (fib s).spin.2.1 ∧ (fib s).spin.2.2 + 1024 ≤ cycOf s 0) ∧
    (let s := withClock (mk 0 fun f => { regs0 f with wait := .park 0x40000 0x40000 (some 0) 0x3000C }) 311
     (getC s 0).lastClock + 1024 ≤ cycOf s 0 ∧ (∃ e ∈ s.fibres, (placeOf e.1).core = 0 ∧ isParked e.2 = true) ∧ s.reqs = [] ∧ s.replies = [] ∧
       (fib s).froz = .no ∧ (fib s).probed + 256 ≤ cycOf s 0 ∧ parkedAt (fib s) = [(0x40000, some 0x40000)]) ∧
    (let r := req .probe (.park at0) 0x40000
     (withReq r).reqs.find? (fun x => x.op == .probe && probeFor at0 x.cont && isOwn (withReq r) x.pa) = some r) ∧
    (accessNow s0 0 (cidOf s0 (fib s0)) 0x40010 (Ask.load 1)).1 = 0 ∧
      lineNo (accessNow s0 0 (cidOf s0 (fib s0)) 0x40010 (Ask.load 1)).2.1 = lineNo 0x40000 ∧
    511 ≠ s0.modNo ∧ 2 ^ 47 - 1 < 2 ^ 47 ∧ takePacket (withIn (2 ^ 47 - 1) s0) (2 ^ 47 - 1) = some s0 ∧ takePacket s0 0 = none ∧
    (let r := req (.load 128) .drop (5 * 2 ^ 47)
     let s := { withReq r with time := 2000000 }
     findReq s 7 = some r ∧ isOwn s r.pa = false ∧ r.sent + 2000000 ≤ s.time ∧ s.unreach.contains (r.pa / 2 ^ 47 % 512) = false ∧
       takePacket (withIn 0 s) r.pa = some s) ∧
    inWindow { s0 with hostWin := (0xFFFFFFFF00, 256) } 0xFFFFFFFF80 128 = true ∧ 0xFFFFFFFF80 % 128 + 128 ≤ 128 ∧
      inWindow s0 0xFFFFFFFF80 128 = false ∧
    (let r := req (.load 128) .drop 0x20000000000
     let s := setHome (withReq r) (lineNo r.pa) { getHome (withReq r) (lineNo r.pa) with busy := true }
     findReq s 7 = some r ∧ isOwn s r.pa = true ∧ needsPort s r = true ∧ (getHome s (lineNo r.pa)).busy = true ∧ s.recalls = []) ∧
    (let r := { req (.store []) .drop 0x40000 with port := true }
     findReq (withReq r) 7 = some r ∧ ownCore r.core = true) := by decide +kernel

theorem test_meets_Switches :
    (let s := s0two 4096 0
     4096 ≤ (getB s 0 0).run ∧ ((List.range 7).map fun i => ((getB s 0 0).cur + 1 + i) % 8).find? (fun k => readyFib s { core := 0, berth := 0, fib := k }) = some 1 ∧
       tabWf Berth.init s.berths = true) ∧
    (let s := setB s0 0 0 { getB s0 0 0 with run := 4096 }
     4096 ≤ (getB s 0 0).run ∧ (∀ k, k < 8 → k ≠ (getB s 0 0).cur → readyFib s { core := 0, berth := 0, fib := k } = false) ∧ (getB s 0 0).cur < 8) ∧
    (let s := withClock (s0two 0 0) 1237
     starved s 0 0 = some 1 ∧ cycOf s 0 = 4082) ∧
    (let s := mk 0 fun f => { regs0 f with amask := 1, halves := [half], halfCount := 256 }
     let f := fib s
     f.halves = [half] ∧ half.wait = .none ∧ 256 ≤ f.halfCount ∧ eligible s at0 f = true ∧ f.op = none ∧ f.committing = false ∧ f.pilot.on = false) := by
  decide +kernel

def withEq (n : Nat) (s : State) : State :=
  { s with
    ctxs := [(1, { newCtx 0 0 0 with st := 3, eq := some 0x50000 })]
    queues := [(0x50000, { cid := 1, kind := 2, lcap := 0, cursor := 0, resv := [], wharves := if n = 0 then [] else [(0, List.replicate n { rcd := 0, held := none, run := none, clk := 0 })] })] }
def dual (lead : Bool) (core : Nat) (u : Uncompared) : Dual :=
  { lead, core, berth := 0, fib := 0, mism := 0, unc := [u], loads := [], nload := 0, cleared := [], results := [], pil := [] }
/-- A copy of a pair with one span not yet compared, and none in release. -/
def inPair (f : Option Fibre) (lead : Bool) (core : Nat) (sig : Word) : Bool :=
  f.any fun f => f.relq.isEmpty && f.froz == .no && f.dual.any fun d =>
    d.lead == lead && d.core == core && d.berth == 0 && d.fib == 0 && d.unc.map (fun u => (u.no, u.own, u.sig)) == [(1, false, sig)]
def s0pair (sig : Word) : State :=
  let f := startFibre State.reset 0 0 0 0 0 1
  let u (sig : Word) : Uncompared := { no := 1, sig, own := false, span := f.span, regions := [], pilot := false, vcls := 0 }
  { State.reset with
    fibres := [(pkey at0, { f with dual := some (dual true 4 (u 5)) }), (pkey { at0 with core := 4 }, { f with dual := some (dual false 0 (u sig)) })] }
theorem test_meets_SpanAndFibreEvents :
    (let f := fib s0
     getF s0 at0 = some f ∧ eligible s0 at0 f = true ∧ f.span.faulted = none ∧ f.committing = false ∧ f.op = none ∧ f.fetched = none ∧
       (fetchWord s0 at0 f true).1 = .ok 0x0100_0780_0000_0000_0000_0000) ∧
    (let s := mk 0 fun f => { regs0 f with span := { f.span with count := 1, limit := 1 } }
     (fib s).span.limit ≤ (fib s).span.count ∧ eligible s at0 (fib s) = true ∧ (fib s).op = none ∧ 0 < (fib s).span.count ∧
       (fib s).span.hold = [] ∧ (fib s).span.faulted = none ∧ (fib s).committing = false ∧ hasPend s at0 = false ∧ (fib s).dual = none ∧
       vanished (fib s) = 0 ∧ ctxFlag s (cidOf s (fib s)) 117 = false) ∧
    (let s := mk 0 fun f => { regs0 f with span := { f.span with faulted := some 6 } }
     (fib s).span.faulted = some 6 ∧ (fib s).froz = .no ∧ (fib s).dbg.halted = false ∧ hasPend s at0 = false ∧ (fib s).dual = none) ∧
    (let s := mk 0 fun f => { regs0 f with froz := .gated none }
     (fib s).froz = .gated none ∧ (fib s).dbg.halted = false ∧ (fib s).events = [] ∧ (fib s).dual = none ∧ stopped s at0 (fib s) = false ∧ descGate (descOf s (fib s)) = 0) ∧
    (let s := withEq 0 (mk 0 fun f => { regs0 f with events := [5] })
     getF s at0 = some (fib s) ∧ (fib s).events = [5] ∧ (fib s).dual = none ∧ eventRoom s (cidOf s (fib s)) = true) ∧
    inPair (getF (s0pair 5) at0) true 4 5 = true ∧ inPair (getF (s0pair 5) { at0 with core := 4 }) false 0 5 = true ∧
      inPair (getF (s0pair 6) { at0 with core := 4 }) false 0 6 = true ∧
    (let s := mk 0 fun f => { regs0 f with froz := .resident (fault 8) false }
     (fib s).froz = .resident (fault 8) false ∧ (fib s).events = [] ∧ (fib s).dual = none ∧ (fault 8).acc ≠ 6 ∧ (fault 8).dst = some (.v 1, 1) ∧
       (getF (writeReg s at0 (.v 1) 1 [(31, 5)] true) at0).isSome = true) ∧
    (let s := mk 0 fun f => { regs0 f with froz := .resident { fault 8 with acc := 6 } false }
     (fib s).froz = .resident { fault 8 with acc := 6 } false ∧ (fib s).events = [] ∧ (fib s).dual = none) ∧
    (let s := mk 0 fun f => { regs0 f with froz := .resident { fault 8 with dst := none } false }
     (fib s).froz = .resident { fault 8 with dst := none } false ∧ (fib s).events = [] ∧ (fib s).dual = none) := by decide +kernel

def s0grp (st : GState) : State :=
  let s := { s0 with ctxs := [(1, { newCtx (1023 <<< 144) 0 0 with st := 2 })] }
  setG s 0 { grp0 s0 with st }
theorem test_meets_GroupEvents :
    (let s := s0grp .saved
     match (cands s).find? (fun c => c.key == 0) with
     | some c => (pickCore s c).isSome && ((getX s c.cid).bind gangOf).isNone &&
         ((getI s c.inst).filter fun i => i.st == .queued && (getX s c.cid).any fun x => overBudget x i.desc).isNone
     | none => false) = true ∧
    (grp0 s0).since + 2 * descEst (groupDesc s0 (grp0 s0)) ≤ s0.time ∧ getG (s0grp .draining) 0 = some { grp0 s0 with st := .draining } ∧
    (let s := { s0grp .saving with fibres := [] }
     getG s 0 = some { grp0 s0 with st := .saving } ∧ allStopped s 0 = true ∧ cmdsDone s 0 = true) ∧
    (let s := { s0grp .placed with fibres := [] }
     getG s 0 = some (grp0 s0) ∧ cmdsDone s 0 = true ∧ groupPlaces s 0 = [] ∧ (grp0 s0).st = .placed) := by decide +kernel

def cmd (cls : OcClass) (out : Bool) (ga : Nat) : Cmd :=
  { id := 7, cls, core := 0, berth := 0, fib := 0, grp := 0, cid := 1, pol := .normal, out, ch := 0, xa := 0, ga, nb := 8, rows := 1, stride := 0
    lanes := [(31, 0x40000)], ty := .i32, kind := .ar, cop := .add, comm := 3, root := 0, seq := 0, clk := 0, res := [5, 6], pos := 1, num := 1, of := none
    begun := false, done := false, counted := false, fail := none }
def withCmd (c : Cmd) : State :=
  let s := { s0 with cmds := [c] }
  setC s 0 { getC s 0 with chans := List.replicate 4 { count := 0, queue := [7] }, gathq := [7] }
def isOk (g : Got) : Bool := match g with
  | .ok _ => true
  | _ => false
/-- A matrix command that loads a tile whose header is not legal, and one whose tile lies in a peer module that has not answered. -/
def ment (kind : Nat) (addr : Nat) : MEnt :=
  { id := 7, kind, core := 0, berth := 0, fib := 0, grp := 0, cid := 1, prio := 0, pol := .normal, card := BitVec.ofNat 1024 (card0 10), addr, mask := 1, fill := 0
    lastRun := 0, aged := false, pos := 0, kgrp := 0, num := 1, begun := false, part := none, done := false, fail := none }
def withMat (e : MEnt) : State := setQy s0 0 { getQy s0 0 with ents := [(0, e)] }
/-- Module 5 lies behind link 0, which is up. -/
def withPeer (s : State) : State :=
  setReg (setL s 0 { Link.init with st := 2, width := 8, peer := 5 }) (0x010000640000 + 8 * 5) 1
/-- What the engine of quay 0 does in its next move: the command's step as it stood, and what becomes of it. -/
def moves (s : State) : Option (Option MStep × Option MEnt) :=
  (grant s 0).map fun g =>
    let b := { g.2.1 with begun := true }
    (b.part, (runStep (setQy s 0 { getQy s 0 with ents := tput (getQy s 0).ents g.1 b, run := some g.1, steps := g.2.2 }) 0 b).1)
def step0 : MStep := { tile := { fmt := 0, mx := false, scales := [], blocks := [] }, rows := [(0, [], []), (1, [], [])], gmax := 1, fail := none, pos := 0 }
/-- A command that waits for a line of a peer; one of which a step has begun, and goes on; and one that ends. A tile that is read ahead on
a tracked page, and one on an untracked page. -/
theorem test_meets_MatrixEvents :
    (let s := withMat (ment 1 0x90000)
     moves (withPeer (setC s 0 { getC s 0 with tlb := [{ cid := 1, vpn := 9, level := 0, pte := BitVec.ofNat 64 (0xB3 + 5 * 2 ^ 47) }] })) =
       some (none, none)) ∧
    ((moves (withMat { ment 2 0 with part := some step0 })).map fun x => (x.1, x.2.map fun e => (e.part.isSome, e.done))) =
      some (some step0, some (true, false)) ∧
    ((moves (withMat (ment 1 0x40000))).map fun x => x.2.map fun e => (e.part, e.done)) = some (some (none, true)) ∧
    (let s := withClock (withMat (ment 1 0x40000)) 317751
     nextTile s 0 = some (ment 1 0x40000, 0x40000) ∧ tileTracked s (ment 1 0x40000) 0x40000 = true ∧
       tileTracked (setC s 0 { getC s 0 with tlb := [{ cid := 1, vpn := 4, level := 0, pte := 0x40033 }] }) (ment 1 0x40000) 0x40000 = false ∧
       tfind (getQy s 0).ents 0 = some (ment 1 0x40000) ∧ 2 ^ 20 ≤ waited s 0 (ment 1 0x40000) ∧ (ment 1 0x40000).done = false) := by decide +kernel

theorem test_meets_Engines :
    (∀ c ∈ [cmd .copy true 0x4FFFC, cmd .copy false 0x4FFFC, { cmd .copy true 0x4FFFC with done := true }],
      (chanOf (getC (withCmd c) 0) 3).queue = [7] ∧ (withCmd c).cmds.find? (fun x => x.id == 7) = some c) ∧
    (let s := withCmd (cmd .copy true 0x4FFFC)
     (engWrite s (cmd .copy true 0x4FFFC) 0x50000 (scratchOf s 0 4 4)).1 = 0) ∧
    (let s := withCmd (cmd .copy true 0x8FFFC)
     (engWrite s (cmd .copy true 0x8FFFC) 0x90000 (scratchOf s 0 4 4)).1 ≠ 0) ∧
    (let s := withCmd (cmd .copy false 0x4FFFC)
     isOk (engRead s (cmd .copy false 0x4FFFC) 0x50000 4).1 = true) ∧
    (let s := withCmd (cmd .copy false 0x8FFFC)
     (match (engRead s (cmd .copy false 0x8FFFC) 0x90000 4).1 with
      | .fail _ => true
      | _ => false) = true) ∧
    (∀ a ∈ [0x40000, 0x90000],
      let c := { cmd .gath false 0 with res := [], lanes := [(31, a)] }
      let s := withCmd c
      let t := setCmd s 7 fun c => { c with begun := true }
      let b := gathBad t c
      (getC s 0).gathq = [7] ∧ s.cmds.find? (fun x => x.id == 7) = some c ∧ b.2.1 = false ∧ (b.1 = [] ↔ a = 0x40000) ∧ gathNext c 1 = some 0 ∧
        (a = 0x40000 → isOk (gathUnit b.2.2 c 0).1 = true ∧ isOk (engRead b.2.2 c a 4).1 = true)) ∧
    (let c := { cmd .copy true 0x40000 with done := true }
     let s := { withCmd c with fibres := (mk 0 fun f => { regs0 f with oc := [1, 0, 0, 0], issued := [1, 0, 0, 0] }).fibres }
     s.cmds = [c] ∧ s.cmds.any (fun x => x.id == 7) = true ∧ s0.cmds.any (fun x => x.id == 7) = false ∧ engOut s 7 = false ∧ c.fail = none ∧
       (getG s c.grp).bind Group.partner = none ∧ ownerPlace c.core c.berth c.fib = some at0 ∧ getF s at0 = some (fib s) ∧ (fib s).wait = .none ∧
       (fib s).halves = [] ∧ c.counted = false) := by decide +kernel

/-! ### Hypotheses: tasks, contexts, links, debug, boot, power, words -/

def ctx (block st : Nat) : Ctx := newCtx (BitVec.ofNat 2048 block) 0 0 |> fun x => { x with st, tq := some 0x60000 }
def rec0 : QRec := { rcd := 0, held := none, run := none, clk := 0 }
/-- Context 1 in state `st` with this block, a task queue that holds one record, and these bytes at 0x40000 and 0x50000. -/
def withCtx (block st : Nat) (a b : Nat) : State :=
  { s0 with
    mem := memWr (memWr s0.mem 0x40000 (bytesOf 128 a)) 0x50000 (bytesOf 128 b)
    ctxs := [(1, ctx block st)]
    queues := [(0x60000, { cid := 1, kind := 0, lcap := 0, cursor := 511, resv := [], wharves := [(511, [rec0])] })] }
def kctx (n : Nat) : Nat := 0x40000 * 2 ^ 448 + n * 2 ^ 512
/-- The kernel of record 0, after its descriptor has been read once. -/
def s0task (n : Nat) : State :=
  let s := withCtx (kctx n) 1 0x50000 (oneDesc 0x30000).toNat
  match kernelDesc s (ctx (kctx n) 1) 1 0 with
  | .ok _ _ t => t
  | .bad _ _ t => t
  | .wait t => t
theorem test_meets_TaskEvents :
    (let s := s0task 1
     getX s 1 = some (ctx (kctx 1) 1) ∧ accepts (ctx (kctx 1) 1) = true ∧ instFull s = false ∧ (takeRec s 0x60000 false).isSome = true ∧
       (match kernelDesc s (ctx (kctx 1) 1) 1 (recKid 0) with
        | .ok a d t => a == 0x50000 && !descBad d && decide (t = s)
        | _ => false) = true) ∧
    (let s := s0task 0
     (match kernelDesc s (ctx (kctx 0) 1) 1 (recKid 0) with
      | .bad _ _ t => decide (t = s)
      | _ => false) = true) ∧
    (let s := { withCtx 0 1 0 0 with slotTab := [(1023, { cid := some 1, recs := [0], refused := 0 })], runs := [{ id := 3, slot := 1023, cid := 1, todo := [], live := 1, clk := 0 }] }
     let t := { s with trigs := [(1023, 1, [(16, 5)])] }
     s.boot.crashed = false ∧ trigTake s 1023 0 = ([], s) ∧ trigReason s 1023 none 0 = 0 ∧ trigTake t 1023 1 = ([(16, 5)], s) ∧
       trigReason s 1023 none 1 = 0 ∧ patchOk (slotOf s 1023).recs (16, 5) = true ∧ trigTake s 1022 0 = ([], s) ∧ trigReason s 1022 none 0 ≠ 0 ∧
       tabWf Slot.init s.slotTab = true ∧ s.runs.any (fun r => r.id == 3 && r.slot == 1023) = true) ∧
    (let s := setReg { withCtx 0 1 0 0 with slotTab := [(1023, { cid := some 1, recs := [0], refused := 0 })] } (0x010000100000 + 0x1000 * 1023 + 0x400) 16
     patchOk (slotOf s 1023).recs (slotPatch s 1023 0) = true) := by decide +kernel

/-- A block of context 1 with an event queue at 0x50000 (R368, R353). -/
def block1 : Nat := 2 ^ 64 + 0x50000 * 2 ^ 384
def s0block (b st : Nat) : State :=
  let s := setReg { s0 with
    mem := memWr (memWr s0.mem 0x40000 (bytesOf 128 b)) 0x50000 (bytesOf 16 (2 * 2 ^ 64))
    ctxs := if st = 9 then [] else [(1, ctx 0 st)] } cbReg 0x40000
  let s := (readBlock s).2
  match blockUse s ownerLoad 1 (BitVec.ofNat 2048 b) with
  | .ok _ t => t
  | _ => s
theorem test_meets_ContextControl :
    (let s := s0block block1 9
     readBlock s = (some (BitVec.ofNat 2048 block1), s) ∧ blockBad (BitVec.ofNat 2048 block1) = false ∧ getX s 1 = none ∧ s.ctxs.length < 4096 ∧
       parentOf s (newCtx (BitVec.ofNat 2048 block1) (getReg s cbReg).toNat s.time) = none) ∧
    (let s := setReg s0 cbReg 0x40080
     readBlock s = (none, s) ∧ s.cmd = none) ∧
    (readBlock { setReg s0 cbReg 0x40080 with ctxs := [(1, ctx 0 1)] }).1 = none ∧ liveSt (stOf { s0 with ctxs := [(1, ctx 0 1)] } 1) = true ∧
    (let s := s0block (2 ^ 64) 0
     readBlock s = (some (BitVec.ofNat 2048 (2 ^ 64)), s) ∧ blockBad (BitVec.ofNat 2048 (2 ^ 64)) = true) ∧
    -- a legal block whose event queue has no header; a load in another state; and one where no place is left
    (∀ st ∈ [0, 1],
      let b := block1 + 2 ^ 384 * 0x10000
      let s := s0block b st
      readBlock s = (some (BitVec.ofNat 2048 b), s) ∧ blockBad (BitVec.ofNat 2048 b) = false ∧
        (match blockUse s (if st = 0 then ownerLoad else ownerReload 1) 1 (BitVec.ofNat 2048 b) with
         | .bad _ => true
         | _ => false) = true) ∧
    (let s := s0block block1 1
     (match blockUse s ownerLoad 1 (BitVec.ofNat 2048 block1) with
      | .ok _ t => (getX t 1).map Ctx.st == some 1
      | _ => false) = true) ∧
    (∀ st ∈ [0, 1],
      let s := s0block block1 st
      (match blockUse s (if st = 0 then ownerLoad else ownerReload 1) 1 (BitVec.ofNat 2048 block1) with
       | .ok u t =>
         let big : Queue := { cid := 2, kind := 2, lcap := 12, cursor := 0, resv := [], wharves := [] }
         let t := { t with queues := t.queues ++ [(0x70000, big), (0x70010, big)] }
         (takeBlock t 1 (ctx 0 st) (BitVec.ofNat 2048 block1) u).isNone
       | _ => false) = true) ∧
    (∀ st ∈ [0, 1, 4],
      let s := s0block block1 st
      readBlock s = (some (BitVec.ofNat 2048 block1), s) ∧ getX s 1 = some (ctx 0 st) ∧
        (match blockUse s (if st = 0 then ownerLoad else ownerReload 1) 1 (BitVec.ofNat 2048 block1) with
         | .ok u t => decide (t = s) && (takeBlock s 1 (ctx 0 st) (BitVec.ofNat 2048 block1) u).isSome
         | _ => false) = true) ∧
    tabWf 0 s0.regs = true ∧
    (let s := { withCtx 0 1 0 0 with groups := [] }
     getX s 1 = some (ctx 0 1) ∧ s.groups = [] ∧ subtree s 1 = [1] ∧ tabWf 0 s.regs = true) ∧
    (let s := { withCtx 0 5 0 0 with groups := [] }
     getX s 1 = some (ctx 0 5) ∧ s.dumps.queue.contains 1 = false ∧ ({ s with dumps := { Dumps.init with queue := [1] } } : State).dumps.queue.contains 1 = true) := by decide +kernel

/-- Another command is in progress. -/
theorem test_meets_busy :
    let s := { s0 with cmd := some (.dump 5) }
    ∀ i ∈ [Instr.alloc, .load, .reload 1, .freeze 1, .thaw 1, .kill 1, .retire 1, .dump 1], ¬ (s.cmd = none ∨ s.cmd = some i) := by simp

/-- Context 2 waits for a berth of core 0, which context 1 holds. -/
def s0slice : State :=
  { setG s0 0 { grp0 s0 with berths := [0, 1, 2, 3] } with
    time := 2000000
    ctxs := [(1, { ctx 0 3 with silence := 100000000 }), (2, ctx 0 2)]
    insts := s0.insts ++ [(1, { (s0.insts.headD (0, { cid := 0, daddr := 0, desc := 0, st := .queued, next := 0, run := none, seq := 0, iord := 0, code := [], clk := 0, endClk := 0 })).2 with
      cid := 2, st := .queued, next := 0, seq := 1 })] }
def gangBlock : Nat := 2 ^ 119 + 5 * 2 ^ 768
def s0gang (time st : Nat) (p : List Nat) : State :=
  { s0 with time, groups := [], ctxs := [(1, ctx gangBlock st)], gangs := [(5, { Gang.init with start := some 1, first := true, packets := p })] }
theorem test_meets_ContextsOverTime :
    (let s := { withCtx 0 5 0 0 with dumps := { Dumps.init with queue := [1] } }
     getX s 1 = some (ctx 0 5) ∧ s.dumps.cur = none ∧ s.boot.crashed = false ∧ s.dumps.queue = [1]) ∧
    (let b := 0x40000 * 2 ^ 704
     let s := { withCtx b 6 0 0 with dumps := { Dumps.init with cur := some 1 }, groups := [] }
     dumpGroups s 1 = [] ∧ (postFree (putVirt (fun _ => .drop) 10 s 0 1 (blk (ctx b 6) 704 64) (dumpHead s 1 0)).2.2 1
       (mkRec { time := s.time, addr := blk (ctx b 6) 704 64, aux := s.dumps.seq, type := 6 })).dumps = s.dumps) ∧
    (let s := s0slice
     (getX s 1).map (fun x => (x.st, x.fired, decide (x.sliceStart + sliceOf s x ≤ s.time), decide (windowOf s x ≤ x.silence))) = some (3, false, true, true) ∧
       sliceWanted s 1 = true ∧ s.boot.crashed = false) ∧
    (∀ e ∈ s0slice.ctxs, gangOf e.2 = none) ∧
    (let s := s0gang 1 2 []
     gangOf (ctx gangBlock 2) = some 5 ∧ tabWf Gang.init s.gangs = true ∧ (∀ e ∈ s.ctxs, e.2.st ≠ 3) ∧ (tget Gang.init s.gangs 5).start = some 1 ∧
       (tget Gang.init s.gangs 5).first = true ∧ 511 ≠ s.modNo ∧ 511 ∉ (tget Gang.init s.gangs 5).packets ∧
       takePacket { s with inbox := [0] } 0 = some s) ∧
    511 ∈ (tget Gang.init (s0gang 1 2 [511]).gangs 5).packets ∧
    (let s := s0gang 50001 0 []
     1 + 50000 ≤ s.time ∧ s.groups = [] ∧ gangCtxs s 5 = []) ∧
    (let s := { s0 with time := 50001, ctxs := [(1, ctx gangBlock 3)], gangs := [(5, { Gang.init with start := some 1, placed := true })] }
     let u := modF s at0 fun f => { f with stop := true }
     gangCtxs s 5 = [1] ∧ getG s 0 = some (grp0 s0) ∧ (grp0 s0).st = .placed ∧ groupPlaces s 0 = [at0] ∧ getF s at0 = some (fib s) ∧
       (fib s).committing = false ∧ (fib s).op = none ∧ spanClean (fib s) = true ∧ (getG u 0).any (fun y => y.st == .saving) = false) := by decide +kernel

def withBoot (stage : Nat) (beat : Option Nat) : State := { s0 with time := 10000001, ctxs := [], boot := { Boot.init with stage, lastBeat := beat } }
theorem test_meets_Heartbeats :
    (withBoot 5 none).boot.crashed = false ∧ linksDown (withBoot 5 none) = true ∧ linksDown (withPeer (withBoot 5 none)) = false ∧
      (withBoot 5 none).boot.lastBeat.getD (withBoot 5 none).boot.kstart + 10000000 < (withBoot 5 none).time ∧
      (withBoot 7 (some 1)).boot.lastBeat.getD (withBoot 7 (some 1)).boot.kstart + 10000000 ≥ (withBoot 7 (some 1)).time ∧
      (withBoot 7 (some 1)).ctxs = [] ∧
      (∀ st ∈ [1, 4], let s := { withBoot 7 (some 1) with ctxs := [(1, ctx 0 st)], groups := [] }
       s.ctxs = [(1, ctx 0 st)] ∧ (ctx 0 st).st = st) := by decide +kernel

def withLink (l : Link) : State := { s0 with time := 100000000, links := [(35, l)], boot := { Boot.init with stage := 5 } }
def flit (n : Nat) : Flit := { seq := 0, dst := 5, pa := 0, resends := n }
/-- Each state of a link; its number is the greatest (R403). -/
theorem test_meets_Links :
    (getL (withLink { Link.init with st := 4 }) 35).st = 4 ∧ (getL (withLink Link.init) 35).st = 0 ∧
    (let s := withLink { Link.init with st := 1 }
     let l := getL s 35
     l.st = 1 ∧ s.time ≤ l.since + 100000000 ∧ l.since + 100000000 ≤ s.time) ∧
    (let s := withLink { Link.init with st := 2, width := 8, replay := [flit 14] }
     let l := getL s 35
     l.st = 2 ∧ l.width = 8 ∧ l.rxSeq = 0 ∧ l.rxq.length < 128 ∧ s.modNo = 0 ∧ l.replay ≠ [] ∧ (∀ f ∈ l.replay, f.resends < 15) ∧ s.boot.stage = 5 ∧
       (∀ j, j < 36 → linkUp (getL s j) = true → l.peer ≤ (getL s j).peer) ∧ tabWf Link.init s.links = true) ∧
    (let l := getL (withLink { Link.init with st := 3, width := 4, replay := [flit 15] }) 35
     l.st = 3 ∧ l.width = 4 ∧ ∃ f ∈ l.replay, 15 ≤ f.resends) := by decide +kernel

def walk1 : Walk := { cid := 1, vpn := 2 ^ 44 - 1, misses := [at0] }
def withDie (d : Die) : State := { s0 with dies := [(0, d)] }
/-- A collective of modules 0 and 5. -/
def s0coll (begun : Bool) : State :=
  let c := { cmd .coll false 0x40000 with xa := 0x50000, nb := 2, begun }
  let s := withPeer (withComm (withCmd c))
  (engRead s c 0x40000 8).2.2
def part5 : CollPart := { module := 5, seq := 0, agrees := true, fail := none, ctide := 0, elems := [1, 2] }
theorem test_meets_WalksAndCollectives :
    (let s := withDie { Die.init with missq := [walk1] }
     (getD s 0).missq = [walk1] ∧ (getD s 0).walks.length < 64 ∧ (getD s 0).walks = []) ∧
    (let d := getD (withDie { Die.init with missq := [walk1], walks := List.replicate 64 { walk1 with vpn := 1 } }) 0
     d.missq = [walk1] ∧ 64 ≤ d.walks.length ∧ (∀ w ∈ d.walks, w.vpn ≠ walk1.vpn)) ∧
    (let d := getD (withDie { Die.init with missq := [walk1], walks := [{ walk1 with misses := List.replicate 255 at0 }] }) 0
     d.missq = [walk1] ∧ (∀ w ∈ d.walks, w.cid = walk1.cid ∧ w.vpn = walk1.vpn ∧ w.misses.length < 256)) ∧
    (let s := withDie { Die.init with walks := [walk1] }
     (getD s 0).walks = [walk1] ∧ (getD s 0).missq = [] ∧ rootOf s 1 % 2 = 1 ∧ walk1.vpn < 2 ^ 44 ∧ getD (walkNow s 0 1 walk1.vpn).2 0 = getD s 0 ∧
       rootOf { s with regs := [] } 1 % 2 = 0) ∧
    (let s := s0coll false
     let c := { cmd .coll false 0x40000 with xa := 0x50000, nb := 2 }
     let others := (commMembers s 3).filter (· != s.modNo)
     s.cmds.find? (fun c => c.id == 7 && c.cls == .coll && c.of.isNone && !c.begun && !c.done) = some c ∧ collTurn s 7 = true ∧ collCut s c = false ∧
       others = [5] ∧ (∀ m ∈ others, [part5].countP (fun q => q.module == m) = 1) ∧ isOk (collSource s c).1 = true ∧ (collSource s c).2.2 = s ∧
       part5.seq = c.seq ∧ commHas s 3 5 = true ∧ part5.fail = none ∧ ({ part5 with fail := some 4 } : CollPart).fail = some 4 ∧
       ({ part5 with seq := 1 } : CollPart).seq ≠ c.seq ∧ collCut { s with unreach := [5] } c = true) ∧
    (let s := s0coll true
     let c := { cmd .coll false 0x40000 with xa := 0x50000, nb := 2, begun := true }
     s.cmds.find? (fun c => c.id == 7 && c.cls == .coll && c.begun && !c.done) = some c ∧ collCut s c = false ∧ c.res[c.pos]? = some 6 ∧
       c.res[2]? = none ∧ (engWrite s c (c.xa + 4) (bytesOf 4 6)).1 = 0 ∧ (engWrite s c 0x90004 (bytesOf 4 6)).1 ≠ 0) := by decide +kernel

/-- A debugger attends context 1; samples every 100 ticks, replay enforced (R368, R419). -/
def withDebug (m : Fibre → Fibre) : State :=
  let s := { mk 0 (fun f => m (regs0 f)) with time := 1000000, ctxs := [(1, ctx (2 ^ 117 + 2 ^ 116) 3)] }
  setReg (setReg s (dbgAddr 1 + 0x18) 100) (dbgAddr 1 + 0x28) 0x40
theorem test_meets_Debugger :
    (let s := withDebug id
     let f := fib s
     getF s at0 = some f ∧ cidOf s f = 1 ∧ ctxFlag s 1 117 = true ∧ f.dbg.halted = false ∧ f.froz = .no ∧ f.wait = .none ∧ f.pilot.on = false ∧ f.hnd = none ∧
       f.op = none ∧ f.committing = false ∧ ctxPlaces s 1 = [at0]) ∧
    (fib (withDebug fun f => { f with pilot := { f.pilot with on := true } })).pilot.on = true ∧
    (fib (withDebug fun f => { f with wait := .wait .copy 0 })).wait ≠ .none ∧
    (hasPend (withDebug id) at0 = false ∧ hasPend { withDebug id with pends := [pend0] } at0 = true) ∧
    (fib (withDebug fun f => { f with froz := .resident (fault 8) false })).froz = .resident (fault 8) false ∧
    (fib (withDebug fun f => { f with dbg := { f.dbg with want := 1 } })).dbg.want = 1 ∧
    (let s := withDebug fun f => { f with dbg := { f.dbg with halted := true } }
     (fib s).dbg.halted = true ∧ (fib s).dbg.fault = none ∧ (fib s).froz = .no ∧ ((groupOf s (fib s)).any fun g => g.deferred) = false) ∧
    (let s := withDebug id
     getX s 1 = some (ctx (2 ^ 117 + 2 ^ 116) 3) ∧ (getReg s (dbgAddr 1 + 0x18)).toNat % 2 ^ 32 = 100 ∧
       nextSample (sampleKeys (setX s 1 { ctx (2 ^ 117 + 2 ^ 116) 3 with sampleAt := s.time }) 1) 0 = some 0 ∧ getF s (placeOf 0) = some (fib s)) ∧
    (let r := { req .dep .drop 0x40000 with held := 1 }
     let s := { withDebug id with reqs := [r] }
     findReq s 7 = some r ∧ r.held + 1000000 ≤ s.time + 1 ∧ replayMode s r.cid = 2 ∧ getF s at0 = some (fib s) ∧
       (let r' := { r with cont := .op at0 }
        findReq { s with reqs := [r'] } 7 = some r' ∧ r'.cont = .op at0)) ∧
    (let s := { s0 with boot := { Boot.init with lcs := 3 } }
     s.boot.lcs = 3 ∧ tabWf 0 s.regs = true ∧ s0.boot.lcs = 0) := by decide +kernel

theorem test_meets_BootEvents :
    1 ≤ (withBoot 1 none).boot.stage ∧ (withBoot 2 none).boot.stage ≤ 2 ∧ (withBoot 2 none).boot.warm = false ∧ 5 ≤ (withBoot 5 none).boot.stage ∧
      (withBoot 5 none).ctxs = [] ∧ (withBoot 7 none).boot.lcBusy = false ∧ s0.boot.lcs = 0 ∧ ({ Boot.init with lcs := 3 } : Boot).lcs ≠ 0 ∧
      ({ withBoot 6 none with boot := { Boot.init with stage := 6, lcBusy := true } } : State).boot.lcBusy = true ∧
      (withBoot 2 none).dumps.queue = [] ∧ s0.boot.lcBusy = false := by
  decide +kernel

theorem test_meets_damaged : regDamaged (ctx 0 5) = false ∧ regDamaged { ctx 0 5 with crcErr := 1 } = true := by
  rw [regDamaged_eq (by decide +kernel), regDamaged_eq (by decide +kernel)]
  decide +kernel

theorem test_meets_PowerAndRegisters :
    (let s := withClock s0 100
     tabWf Die.init s.dies = true ∧ (getD s 0).running = true ∧ (getD s 0).relock = none ∧ freqMax s 0 = 33 ∧ powerLimit s = 15000 ∧ s.tickStart = true ∧
       ({ s with tickStart := false } : State).tickStart = false) ∧
    (let s := withDie { Die.init with relock := some (12, 330) }
     (getD s 0).relock = some (12, 330) ∧ tabWf Die.init s.dies = true) ∧
    regAt (0 / 8 * 8) = none ∧ 0x010000690002 % 4 ≠ 0 ∧ tabWf 0 s0.regs = true ∧ (regAt 0x010000600000).any kernelOnly = true ∧
      (regAt 0x010000100000).any (fun r => !kernelOnly r) = true ∧ s0.hostRegs = [(0x010000100000, 0x400000)] ∧
      (∀ e ∈ s0.hostRegs, ¬ (e.1 ≤ 0x010000680000 ∧ 0x010000680000 + 8 ≤ e.1 + e.2)) := by decide +kernel

theorem test_meets_rules :
    act s0 [.lea { p2 .b64 with b := .reg (.v 7) } 3, .rol (r2 .b32), .rol (p2 .b64), .sel (r3 .b32), .sel { r3 .b64 with d := .s 5, a := .s 2, b := .s 4, c := .s 6 },
      .ballot { r1 .b32 with d := .s 5 }] = true := by decide +kernel

/-- A word that decodes and one that does not; an event due, and one that the schedule names. -/
theorem test_meets_StepRunsDecoded :
    let n := tick s0 1
    let f := fib n
    s0.sched = [] ∧ s0.agenda = [] ∧ dieStands n (dieOf 0) = false ∧ curPlace n 0 0 = at0 ∧ starved n 0 0 = none ∧ getF n at0 = some f ∧
      eligible n at0 f = true ∧ f.span.faulted = none ∧ f.committing = false ∧ (getB n 0 0).run < 4096 ∧ f.halves = [] ∧
      (fetchWord n at0 f false).1 = .ok 0x0100_0780_0000_0000_0000_0000 ∧
      (fetchWord n at0 { f with fetched := some (f.pc, 0) } false).1 = .ok 0 ∧ (decodeWord 0).toOption = none ∧ (Instr.coldReset).info = none ∧
      rowWaits n .coldReset = false ∧ (Instr.gateOpen at0).info = none ∧
      (let t := withDie { Die.init with relock := some (12, 330) }
       rowWaits t (.gateOpen at0) = true ∧ rowWaits t (.pllRelockDone 0) = false) := by
  decide +kernel

theorem test_meets_words :
    (Instr.nop hd0).isWord = true ∧ (Instr.nop hd0).wf = true ∧ (decode (bytesOf 13 0x0100_0780_0000_0000_0000_0000)).toOption = some (.nop hd0, [0]) ∧
      (bytesOf 11 0).length < 12 := by decide +kernel

theorem test_meets_MemoryStaysCanonical :
    Memory.wf s0.mem = true ∧ s0.mem ≠ [] ∧ (match Machine.step s0 with
      | .next t => decide (t.mem = s0.mem)
      | _ => false) = true := by decide +kernel

end Sys2Proof.Tests
end

section
/-! PROOFS. The numbered rules of integer and scalar instructions, whole: `lea` (R104), `rol` (R108), `sel` (R113), `ballot` (R120). -/
namespace Sys2Proof.Machine

/-! ### Instructions of a fixed-latency result -/

/-- A value takes at most four registers of a lane (R38). -/
theorem regs_le_four (t : Ty) : t.regs ≤ 4 := by
  cases t <;> decide

/-- An instruction that runs as `result` with the values `k` computes them, as they are written (R92): `writes_of_run` in the words
of the claims. -/
theorem computes_of_result {i : Instr} {s : State} {f : Fibre} {h : Hdr} {d : Opnd} {n : Nat} {v : Nat → Nat} (t : Ty)
    (k : State → Fibre → Nat → Nat) (hn : n ≤ 256) (hi : exec i s = run i s fun s f => result s f h d n t (k s f))
    (hv : ∀ l, wide1 d t n (k s f l) = v l) : Claim.Computes i s f h d n v := by
  intro ha
  obtain rfl : (fun l => wide1 d t n (k s f l)) = v := funext hv
  rw [hi]
  exact writes_of_run d n _ (fun s f => result s f h d n t (k s f)) ha rfl hn

/-- R38 widens a result of one register alone, in a scalar: a pair is written as it is. -/
@[simp] theorem wide1_pair (d : Opnd) (t : Ty) (v : Nat) : wide1 d t 2 v = v := by simp [wide1]

/-- Under b32 the bits above a 32-bit result are 0 (R38). -/
@[simp] theorem wide1_b32 (d : Opnd) (n v : Nat) : wide1 d .b32 n v = v := by simp [wide1, widenTy]

/-! ### What the sources hold -/

/-- `n` registers of a lane, the lowest first, hold a value of `32 n` bits. -/
theorem foldr_words_lt (g : Nat → Word) (js : List Nat) :
    js.foldr (fun j acc => (g j).toNat + 2 ^ 32 * acc) 0 < 2 ^ (32 * js.length) := by
  induction js with
  | nil => simp
  | cons j js ih =>
    have hw := (g j).isLt
    rw [List.foldr_cons, List.length_cons, Nat.mul_succ, Nat.add_comm _ 32, Nat.pow_add]
    omega

/-- An operand of `n` registers reads as a value of `32 n` bits (R38, R39). -/
theorem opVal_lt (s : State) (f : Fibre) (p : Place) (o : Opnd) (n l : Nat) : opVal s f p o n l < 2 ^ (32 * n) := by
  have hmod (x : Nat) : x % 2 ^ (32 * n) < 2 ^ (32 * n) := Nat.mod_lt _ (Nat.two_pow_pos _)
  cases o with
  | v k => simpa [opVal] using foldr_words_lt (fun j => laneOf (vget s (vkey (descOf s f) p.core p.berth f.root (k.toNat + j))) l) (List.range n)
  | s k =>
    simp only [opVal]
    split
    · next h4 =>
      have hlo := (sget f k.toNat).isLt
      have hhi := (sget f (k.toNat + 1)).isLt
      subst h4
      omega
    · exact hmod _
  | sp r => exact hmod _

/-! ### Address forming (R104) -/

theorem sInt_eq_toInt (w x : Nat) : sInt (w + 1) x = (BitVec.ofNat (w + 1) x).toInt := by
  have hhalf : x % 2 ^ (w + 1) < 2 ^ w ↔ 2 * (x % 2 ^ (w + 1)) < 2 ^ (w + 1) := by omega
  simp [sInt, BitVec.toInt_eq_toNat_cond, hhalf]

theorem wrapI_eq_ofInt (w : Nat) (x : Int) : wrapI w x = (BitVec.ofInt w x).toNat := by
  simp [wrapI, BitVec.toNat_ofInt]

theorem ofInt_mul_two_pow (w sh : Nat) (x : Int) : BitVec.ofInt w (x * 2 ^ sh) = BitVec.ofInt w x <<< sh := by
  have h2 : BitVec.ofInt w (2 ^ sh) = BitVec.twoPow w sh := by
    rw [← Nat.cast_ofNat, ← Nat.cast_pow, BitVec.ofInt_natCast]
    exact BitVec.eq_of_toNat_eq (by simp [← Nat.pow_mod])
  rw [BitVec.ofInt_mul, h2, BitVec.shiftLeft_eq_mul_twoPow]

/-- What the model computes for `lea` is R104's sum of bit vectors. -/
theorem leaF_eq (sh a b : Nat) : leaF sh a b = (BitVec.ofNat 64 a + ((BitVec.ofNat 32 b).signExtend 64 <<< sh)).toNat := by
  rw [leaF, wrapI_eq_ofInt, BitVec.ofInt_add, BitVec.ofInt_natCast, ofInt_mul_two_pow, sInt_eq_toInt,
    BitVec.signExtend]

/-- Settles O50: the model's exact sum, taken modulo 2^64, is the sum of 64-bit words. -/
theorem addressForming : Obligations.AddressForming := by
  intro s f y sh
  refine computes_of_result .b64 (fun s f l => leaF sh.toNat (valA2 s f y 2 l) (valB2 s f y 1 l)) (by decide) rfl fun l => ?_
  rw [wide1_pair, leaF_eq]
  rfl

/-! ### Rotation (R108) -/

/-- Of a value of `w` bits, the bits that leave the top enter at bit 0. -/
theorem rotateLeft_toNat {w a n : Nat} (ha : a < 2 ^ w) (hn : n < w) :
    ((BitVec.ofNat w a).rotateLeft n).toNat = a * 2 ^ n % 2 ^ w + a / 2 ^ (w - n) := by
  have hw : 2 ^ w = 2 ^ n * 2 ^ (w - n) := by rw [← Nat.pow_add, Nat.add_sub_cancel' hn.le]
  have hhigh : a * 2 ^ n % 2 ^ w = 2 ^ n * (a % 2 ^ (w - n)) := by
    rw [hw, Nat.mul_comm a, Nat.mul_mod_mul_left]
  have hlow : a / 2 ^ (w - n) < 2 ^ n := Nat.div_lt_of_lt_mul (by rwa [Nat.mul_comm, ← hw])
  rw [BitVec.toNat_rotateLeft, BitVec.toNat_ofNat, Nat.mod_eq_of_lt ha, Nat.mod_eq_of_lt hn, Nat.shiftLeft_eq, Nat.shiftRight_eq_div_pow,
    hhigh, Nat.two_pow_add_eq_or_of_lt hlow]

/-- What the model computes for `rol` is a rotation of the type's bits by B[7:0] modulo their number. -/
theorem rolF_eq {t : Ty} {a : Nat} (b : Nat) (hw : 0 < tyW t) (ha : a < 2 ^ tyW t) :
    rolF t a b = ((BitVec.ofNat (tyW t) a).rotateLeft (b % 256 % tyW t)).toNat :=
  (rotateLeft_toNat ha (Nat.mod_lt _ hw)).symm

/-- `rol` on a type of one element that fills its registers. -/
theorem rol_rotates (s : State) (f : Fibre) (y : Op2) (hpos : 0 < tyW y.t) (hw : tyW y.t = 32 * y.t.regs) :
    Claim.Binary .rol s f y fun a b => ((BitVec.ofNat (tyW y.t) a).rotateLeft (b % 256 % tyW y.t)).toNat := by
  refine computes_of_result y.t (fun s f l => rolF y.t (valA2 s f y y.t.regs l) (valB2 s f y y.t.regs l))
    ((regs_le_four y.t).trans (by decide)) rfl fun l => ?_
  have ha : valA2 s f y y.t.regs l < 2 ^ tyW y.t := hw ▸ opVal_lt s f s.here y.a y.t.regs l
  rw [rolF_eq _ hpos ha]
  rfl

/-- Settles O51: `rol_rotates` at the two types of `rol`. -/
theorem rotateLeft : Obligations.RotateLeft := by
  intro s f y
  have h := rol_rotates s f y
  constructor <;> intro ht <;> rw [ht] at h <;> exact h (by decide) (by decide)

/-! ### Selection (R113) -/

/-- Settles O52: `sel` runs as R113's choice. -/
theorem select : Obligations.Select := by
  intro s f z
  refine computes_of_result z.t
    (fun s f l => if valO s f z.c (if z.d.isV then 1 else 2) l != 0 then valO s f z.a z.t.regs l else valO s f z.b z.t.regs l)
    ((regs_le_four z.t).trans (by decide)) rfl fun l => ?_
  simp [valO]

/-! ### Ballot (R120) -/

/-- Different powers of 2 in ascending order: combined by OR they are their sum, for the lowest is below the lowest bit of the rest. -/
theorem foldr_or_two_pow {ls : List Nat} (h : ls.Pairwise (· < ·)) :
    ls.foldr (fun l acc => acc ||| 2 ^ l) 0 = (ls.map fun l => 2 ^ l).sum := by
  induction ls with
  | nil => rfl
  | cons l ls ih =>
    obtain ⟨hl, hls⟩ := List.pairwise_cons.mp h
    have hdvd : 2 ^ (l + 1) ∣ (ls.map fun l => 2 ^ l).sum := by
      apply List.dvd_sum
      intro x hx
      obtain ⟨m, hm, rfl⟩ := List.mem_map.mp hx
      exact Nat.pow_dvd_pow 2 (hl m hm)
    obtain ⟨q, hq⟩ := hdvd
    have hlow : 2 ^ l < 2 ^ (l + 1) := Nat.pow_lt_pow_succ (by decide)
    rw [List.foldr_cons, ih hls, hq, ← Nat.two_pow_add_eq_or_of_lt hlow, List.map_cons, List.sum_cons, hq, Nat.add_comm]

/-- The mask of lanes taken from the 32 in ascending order is the sum of their powers of 2. -/
theorem maskOf_toNat {ls : List Nat} (h : ls.Sublist (List.range 32)) : (maskOf ls).toNat = (ls.map fun l => 2 ^ l).sum := by
  have hlt : (ls.map fun l => 2 ^ l).sum < 2 ^ 32 :=
    calc (ls.map fun l => 2 ^ l).sum ≤ ((List.range 32).map fun l => 2 ^ l).sum :=
          (h.map _).sum_le_sum fun _ _ => Nat.zero_le _
      _ < 2 ^ 32 := by decide
  rw [maskOf, foldr_or_two_pow (List.pairwise_lt_range.sublist h), BitVec.toNat_ofNat, Nat.mod_eq_of_lt hlt]

/-- The flagged lanes are some of the 32, in ascending order. -/
theorem flagged_sublist (s : State) (f : Fibre) (x : Op1) : (flagged s f x).Sublist (List.range 32) :=
  List.filter_sublist.trans List.filter_sublist

/-- Settles O53: the mask that `ballot` writes is that of the flagged lanes, which are different lanes. -/
theorem ballot : Obligations.Ballot := by
  intro s f x
  refine computes_of_result .b32 (fun s f _ => (maskOf (flagged s f x)).toNat) (by decide) rfl fun _ => ?_
  rw [wide1_b32, maskOf_toNat (flagged_sublist s f x)]
  simp [flagged, valA1, bne, beq_eq_decide]

end Sys2Proof.Machine
end

section
/-! PROOFS. The decoder and the encoder agree (R34, R35, R48, R50, R53, R55): every field of the word put together from its fields reads
back, so that the fields of the word an instruction encodes to name that instruction. -/
namespace Sys2Proof
open BitVec

/-! ### The fields of a word that is put together from them (R35) -/

section
variable (h : Hdr) (m : BitVec 8) (f : BitVec 1) (t : BitVec 5) (cp o sc : BitVec 3) (d a : BitVec 9) (l : BitVec 37)

@[simp] theorem fMajor_wordOf : fMajor (wordOf h m f t cp o sc d a l) = m := by
  simp (disch := omega) only [wordOf, packWord, extractLsb'_append_eq_of_le, extractLsb'_eq_self, Nat.reduceSub, -Nat.reduceAdd]
@[simp] theorem row_wordOf : (wordOf h m f t cp o sc d a l).extractLsb' 92 4 = m.extractLsb' 4 4 := by
  simp (disch := omega) only [wordOf, packWord, extractLsb'_append_eq_of_le, Nat.reduceSub, -Nat.reduceAdd]
@[simp] theorem fForm_wordOf : fForm (wordOf h m f t cp o sc d a l) = f := by
  simp (disch := omega) only [wordOf, packWord, extractLsb'_append_eq_of_le, extractLsb'_append_eq_of_add_le, extractLsb'_eq_self,
    Nat.reduceSub, -Nat.reduceAdd]
@[simp] theorem fType_wordOf : fType (wordOf h m f t cp o sc d a l) = t := by
  simp (disch := omega) only [wordOf, packWord, extractLsb'_append_eq_of_le, extractLsb'_append_eq_of_add_le, extractLsb'_eq_self,
    Nat.reduceSub, -Nat.reduceAdd]
@[simp] theorem fGuard_wordOf : fGuard (wordOf h m f t cp o sc d a l) = h.guard.code := by
  simp (disch := omega) only [wordOf, packWord, extractLsb'_append_eq_of_le, extractLsb'_append_eq_of_add_le, extractLsb'_eq_self,
    Nat.reduceSub, -Nat.reduceAdd]
@[simp] theorem fSos_wordOf : fSos (wordOf h m f t cp o sc d a l) = bitOf h.sos := by
  simp (disch := omega) only [wordOf, packWord, extractLsb'_append_eq_of_le, extractLsb'_append_eq_of_add_le, extractLsb'_eq_self,
    Nat.reduceSub, -Nat.reduceAdd]
@[simp] theorem fDist_wordOf : fDist (wordOf h m f t cp o sc d a l) = h.dist := by
  simp (disch := omega) only [wordOf, packWord, extractLsb'_append_eq_of_le, extractLsb'_append_eq_of_add_le, extractLsb'_eq_self,
    Nat.reduceSub, -Nat.reduceAdd]
@[simp] theorem fReuse_wordOf : fReuse (wordOf h m f t cp o sc d a l) = h.reuse := by
  simp (disch := omega) only [wordOf, packWord, extractLsb'_append_eq_of_le, extractLsb'_append_eq_of_add_le, extractLsb'_eq_self,
    Nat.reduceSub, -Nat.reduceAdd]
@[simp] theorem fCpol_wordOf : fCpol (wordOf h m f t cp o sc d a l) = cp := by
  simp (disch := omega) only [wordOf, packWord, extractLsb'_append_eq_of_le, extractLsb'_append_eq_of_add_le, extractLsb'_eq_self,
    Nat.reduceSub, -Nat.reduceAdd]
@[simp] theorem fOrder_wordOf : fOrder (wordOf h m f t cp o sc d a l) = o := by
  simp (disch := omega) only [wordOf, packWord, extractLsb'_append_eq_of_le, extractLsb'_append_eq_of_add_le, extractLsb'_eq_self,
    Nat.reduceSub, -Nat.reduceAdd]
@[simp] theorem fScope_wordOf : fScope (wordOf h m f t cp o sc d a l) = sc := by
  simp (disch := omega) only [wordOf, packWord, extractLsb'_append_eq_of_le, extractLsb'_append_eq_of_add_le, extractLsb'_eq_self,
    Nat.reduceSub, -Nat.reduceAdd]
@[simp] theorem fEpol_wordOf : fEpol (wordOf h m f t cp o sc d a l) = epolOf h := by
  simp (disch := omega) only [wordOf, packWord, extractLsb'_append_eq_of_le, extractLsb'_append_eq_of_add_le, extractLsb'_eq_self,
    Nat.reduceSub, -Nat.reduceAdd]
@[simp] theorem fDest_wordOf : fDest (wordOf h m f t cp o sc d a l) = d := by
  simp (disch := omega) only [wordOf, packWord, extractLsb'_append_eq_of_le, extractLsb'_append_eq_of_add_le, extractLsb'_eq_self,
    Nat.reduceSub, -Nat.reduceAdd]
@[simp] theorem fA_wordOf : fA (wordOf h m f t cp o sc d a l) = a := by
  simp (disch := omega) only [wordOf, packWord, extractLsb'_append_eq_of_le, extractLsb'_append_eq_of_add_le, extractLsb'_eq_self,
    Nat.reduceSub, -Nat.reduceAdd]

/-- What lies in bits [36:0] is read from them. -/
theorem extractLsb'_wordOf {k n : Nat} (hk : k + n ≤ 37) :
    (wordOf h m f t cp o sc d a l).extractLsb' k n = l.extractLsb' k n := by
  rw [wordOf, packWord, extractLsb'_append_eq_of_add_le hk]
theorem getLsbD_wordOf {k : Nat} (hk : k < 37) : (wordOf h m f t cp o sc d a l).getLsbD k = l.getLsbD k := by
  rw [wordOf, packWord, getLsbD_append, if_pos hk]
end

section
variable (b c : BitVec 9) (x : BitVec 19) (e : BitVec 5) (i : Word)

@[simp] theorem b_lowR : (lowR b c x).extractLsb' 28 9 = b := by
  simp (disch := omega) only [lowR, extractLsb'_append_eq_of_le, extractLsb'_eq_self, Nat.reduceSub, -Nat.reduceAdd]
@[simp] theorem c_lowR : (lowR b c x).extractLsb' 19 9 = c := by
  simp (disch := omega) only [lowR, extractLsb'_append_eq_of_le, extractLsb'_append_eq_of_add_le, extractLsb'_eq_self, Nat.reduceSub,
    -Nat.reduceAdd]
theorem extractLsb'_lowR {k n : Nat} (hk : k + n ≤ 19) : (lowR b c x).extractLsb' k n = x.extractLsb' k n := by
  rw [lowR, extractLsb'_append_eq_of_add_le hk]
theorem getLsbD_lowR {k : Nat} (hk : k < 19) : (lowR b c x).getLsbD k = x.getLsbD k := by
  rw [lowR, getLsbD_append, if_pos hk]
@[simp] theorem imm_lowI : (lowI e i).extractLsb' 0 32 = i := by
  rw [lowI, extractLsb'_append_eq_of_add_le (by omega), extractLsb'_eq_self]
@[simp] theorem e5_lowI : (lowI e i).extractLsb' 32 5 = e := by
  rw [lowI, extractLsb'_append_eq_of_le (by omega), Nat.sub_self, extractLsb'_eq_self]
theorem extractLsb'_lowI {k n : Nat} (hk : k + n ≤ 32) : (lowI e i).extractLsb' k n = i.extractLsb' k n := by
  rw [lowI, extractLsb'_append_eq_of_add_le hk]
theorem extractLsb'_lowI_mode {k n : Nat} (hk : 32 ≤ k) : (lowI e i).extractLsb' k n = e.extractLsb' (k - 32) n := by
  rw [lowI, extractLsb'_append_eq_of_le hk]
theorem getLsbD_lowI {k : Nat} (hk : k < 32) : (lowI e i).getLsbD k = i.getLsbD k := by
  rw [lowI, getLsbD_append, if_pos hk]
theorem getLsbD_lowI_mode {k : Nat} (hk : 32 ≤ k) : (lowI e i).getLsbD k = e.getLsbD (k - 32) := by
  rw [lowI, getLsbD_append, if_neg (by omega)]
end

section
variable (hi : BitVec 11) (c : BitVec 5) (s : Bool) (r md : BitVec 2)

@[simp] theorem getLsbD_bitOf (b : Bool) : (bitOf b).getLsbD 0 = b := by cases b <;> rfl
@[simp] theorem bitOf_beq_one (b : Bool) : (bitOf b == 1#1) = b := by cases b <;> rfl

@[simp] theorem rnd_extOf : (extOf hi c s r).extractLsb' 0 2 = r := by
  rw [extOf, extractLsb'_append_eq_of_add_le (by omega), extractLsb'_eq_self]
@[simp] theorem sat_extOf : (extOf hi c s r).getLsbD 2 = s := by
  rw [extOf, getLsbD_append, if_neg (by omega), getLsbD_append, if_pos (by omega), getLsbD_bitOf]
@[simp] theorem cond_extOf : (extOf hi c s r).extractLsb' 3 5 = c := by
  simp (disch := omega) only [extOf, extractLsb'_append_eq_of_le, extractLsb'_append_eq_of_add_le, extractLsb'_eq_self, Nat.reduceSub,
    -Nat.reduceAdd]
theorem extractLsb'_extOf {k n : Nat} (hk : 8 ≤ k) : (extOf hi c s r).extractLsb' k n = hi.extractLsb' (k - 8) n := by
  simp (disch := omega) only [extOf, extractLsb'_append_eq_of_le, Nat.sub_sub, -Nat.reduceAdd]
theorem getLsbD_extOf {k : Nat} (hk : 8 ≤ k) : (extOf hi c s r).getLsbD k = hi.getLsbD (k - 8) := by
  rw [extOf, getLsbD_append, if_neg (by omega), getLsbD_append, if_neg (by omega), getLsbD_append, if_neg (by omega)]
  simp only [Nat.sub_sub]
@[simp] theorem rnd_e5Of : (e5Of md s r).extractLsb' 0 2 = r := by
  rw [e5Of, extractLsb'_append_eq_of_add_le (by omega), extractLsb'_eq_self]
@[simp] theorem sat_e5Of : (e5Of md s r).getLsbD 2 = s := by
  rw [e5Of, getLsbD_append, if_neg (by omega), getLsbD_append, if_pos (by omega), getLsbD_bitOf]
@[simp] theorem mode_e5Of : (e5Of md s r).extractLsb' 3 2 = md := by
  simp (disch := omega) only [e5Of, extractLsb'_append_eq_of_le, extractLsb'_eq_self, Nat.reduceSub, -Nat.reduceAdd]
@[simp] theorem num_e5Of : (e5Of md s r).getLsbD 3 = md.getLsbD 0 := by
  rw [e5Of, getLsbD_append, if_neg (by omega), getLsbD_append, if_neg (by omega)]
end

/-! ### Codes read back -/

@[simp] theorem ofIndex_index (r : Special) : Special.ofIndex r.index = .ok r := by cases r <;> rfl
theorem index_lt (r : Special) : r.index < 64 := by cases r <;> decide
@[simp] theorem ofCode_code_opnd (o : Opnd) : Opnd.ofCode o.code = .ok o := by
  cases o with
  | v n =>
    have hn := n.isLt
    simp [Opnd.ofCode, Opnd.code, Nat.mod_eq_of_lt (show n.toNat < 512 by omega), hn]
  | s n =>
    have hn := n.isLt
    have hm : (256 + n.toNat) % 512 = 256 + n.toNat := Nat.mod_eq_of_lt (by omega)
    simp [Opnd.ofCode, Opnd.code, hm, show 256 + n.toNat < 320 by omega]
  | sp r =>
    have hr := index_lt r
    have hm : (320 + r.index) % 512 = 320 + r.index := Nat.mod_eq_of_lt (by omega)
    simp [Opnd.ofCode, Opnd.code, hm, show ¬ 320 + r.index < 256 by omega, show 320 + r.index < 384 by omega, Except.map]
@[simp] theorem ofCode_code_ty (t : Ty) : Ty.ofCode t.code = .ok t := by cases t <;> rfl
@[simp] theorem ofCode_code_order (o : Order) : Order.ofCode o.code = .ok o := by cases o <;> rfl
@[simp] theorem ofCode_code_scope (s : Scope) : Scope.ofCode s.code = .ok s := by cases s <;> rfl
@[simp] theorem ofCode_code_cpol (p : CPol) : CPol.ofCode p.code = .ok p := by cases p <;> rfl
@[simp] theorem ofCode_code_rnd (r : Rnd) : Rnd.ofCode r.code = r := by cases r <;> rfl
@[simp] theorem ofCode_code_cond (c : Cond) : Cond.ofCode c.code = .ok c := by cases c <;> rfl
@[simp] theorem ofCode_code_fmt (f : Fmt) : Fmt.ofCode f.code = .ok f := by cases f <;> rfl
theorem ofCode_code_guard {g : Guard} (hg : g.ok = true) : Guard.ofCode g.code = g := by
  cases g with
  | always => rfl
  | pass n => revert hg; revert n; decide
  | fails n => revert hg; revert n; decide

/-- Each bit of the empty policies stands at its place (R47). -/
theorem epolOf_bits (h : Hdr) : (epolOf h).getLsbD 0 = h.trapA ∧ (epolOf h).getLsbD 1 = h.trapB ∧ (epolOf h).getLsbD 2 = h.trapC := by
  have all : ∀ a b c : Bool, (bitOf c ++ bitOf b ++ bitOf a).getLsbD 0 = a ∧ (bitOf c ++ bitOf b ++ bitOf a).getLsbD 1 = b ∧
      (bitOf c ++ bitOf b ++ bitOf a).getLsbD 2 = c := by decide
  exact all _ _ _

/-- The header of a word, with a guard that is legal (R42, R44, R47). -/
theorem dHdr_wordOf {h : Hdr} (hg : h.guard.ok = true) (m f t cp o sc d a l) : dHdr (wordOf h m f t cp o sc d a l) = h := by
  obtain ⟨ha, hb, hc⟩ := epolOf_bits h
  simp only [dHdr, fGuard_wordOf, fSos_wordOf, fDist_wordOf, fReuse_wordOf, fEpol_wordOf, ofCode_code_guard hg, bitOf_beq_one, ha, hb, hc]

@[simp] theorem except_bind_ok {ε α β : Type} (a : α) (k : α → Except ε β) : (Except.ok a >>= k) = k a := rfl
@[simp] theorem except_map_ok {ε α β : Type} (g : α → β) (a : α) : (Except.ok a : Except ε α).map g = .ok (g a) := rfl

/-! ### Words of two forms: source B, or source A, is a register or an immediate (R50) -/

section
variable (h : Hdr) (m : BitVec 8) (t : BitVec 5) (cp o sc : BitVec 3) (d a : BitVec 9) (hi : BitVec 11) (c : BitVec 5) (s : Bool)
  (r md : BitVec 2) (b c9 : BitVec 9) (x : BitVec 19) (e : BitVec 5) (i : Word)

@[simp] theorem isI_wordOf (f : BitVec 1) (l : BitVec 37) : isI (wordOf h m f t cp o sc d a l) = (f == 1#1) := by
  rw [isI, fForm_wordOf]

@[simp] theorem fB_wordOf (f : BitVec 1) : fB (wordOf h m f t cp o sc d a (lowR b c9 x)) = b := by
  rw [fB, extractLsb'_wordOf (hk := by decide), b_lowR]
@[simp] theorem fC_wordOf (f : BitVec 1) : fC (wordOf h m f t cp o sc d a (lowR b c9 x)) = c9 := by
  rw [fC, extractLsb'_wordOf (hk := by decide), c_lowR]
@[simp] theorem fImm_wordOf (f : BitVec 1) : fImm (wordOf h m f t cp o sc d a (lowI e i)) = i := by
  rw [fImm, extractLsb'_wordOf (hk := by decide), imm_lowI]
@[simp] theorem fExt5_wordOf (f : BitVec 1) : fExt5 (wordOf h m f t cp o sc d a (lowI e i)) = e := by
  rw [fExt5, extractLsb'_wordOf (hk := by decide), e5_lowI]

@[simp] theorem ext_wordOf (f : BitVec 1) {k n : Nat} (hk : k + n ≤ 19) :
    (wordOf h m f t cp o sc d a (lowR b c9 x)).extractLsb' k n = x.extractLsb' k n := by
  rw [extractLsb'_wordOf (hk := by omega), extractLsb'_lowR (hk := hk)]
@[simp] theorem extBit_wordOf (f : BitVec 1) {k : Nat} (hk : k < 19) :
    (wordOf h m f t cp o sc d a (lowR b c9 x)).getLsbD k = x.getLsbD k := by
  rw [getLsbD_wordOf (hk := by omega), getLsbD_lowR (hk := hk)]
@[simp] theorem imm_wordOf (f : BitVec 1) {k n : Nat} (hk : k + n ≤ 32) :
    (wordOf h m f t cp o sc d a (lowI e i)).extractLsb' k n = i.extractLsb' k n := by
  rw [extractLsb'_wordOf (hk := by omega), extractLsb'_lowI (hk := hk)]
@[simp] theorem immBit_wordOf (f : BitVec 1) {k : Nat} (hk : k < 32) :
    (wordOf h m f t cp o sc d a (lowI e i)).getLsbD k = i.getLsbD k := by
  rw [getLsbD_wordOf (hk := by omega), getLsbD_lowI (hk := hk)]
@[simp] theorem mode_wordOf (f : BitVec 1) {k n : Nat} (hk : 32 ≤ k) (hn : k + n ≤ 37) :
    (wordOf h m f t cp o sc d a (lowI e i)).extractLsb' k n = e.extractLsb' (k - 32) n := by
  rw [extractLsb'_wordOf (hk := hn), extractLsb'_lowI_mode (hk := hk)]
@[simp] theorem modeBit_wordOf (f : BitVec 1) {k : Nat} (hk : 32 ≤ k) (hn : k < 37) :
    (wordOf h m f t cp o sc d a (lowI e i)).getLsbD k = e.getLsbD (k - 32) := by
  rw [getLsbD_wordOf (hk := hn), getLsbD_lowI_mode (hk := hk)]

end

@[simp] theorem dOp1_word {x : Op1} (hg : x.h.guard.ok = true) (m : BitVec 8) (e : BitVec 19) : dOp1 (x.word m e) = .ok x := by
  simp [dOp1, Op1.word, rOnly, dHdr_wordOf hg, pure, Except.pure]
@[simp] theorem dOp2_word {x : Op2} (hg : x.h.guard.ok = true) (m : BitVec 8) (e : BitVec 19) (e5 : BitVec 5) :
    dOp2 (x.word m e e5) = .ok x := by
  obtain ⟨h, t, d, a, b | i⟩ := x <;> simp [dOp2, Op2.word, dSrcB, dHdr_wordOf hg, pure, Except.pure]
@[simp] theorem dOp3_word {x : Op3} (hg : x.h.guard.ok = true) (m : BitVec 8) (e : BitVec 19) : dOp3 (x.word m e) = .ok x := by
  simp [dOp3, Op3.word, rOnly, dHdr_wordOf hg, pure, Except.pure]
@[simp] theorem dMem_word {x : MemOp} (hg : x.h.guard.ok = true) (m : BitVec 8) : dMem (x.word m) = .ok x := by
  obtain ⟨h, t, o, sc, p, r, b, off | i⟩ := x <;> simp [dMem, MemOp.word, memWord, dSrcB, dHdr_wordOf hg, pure, Except.pure]
@[simp] theorem dAtom_word {x : AtomOp} (hg : x.h.guard.ok = true) (m : BitVec 8) (c : BitVec 9) : dAtom (x.word m c) = .ok x := by
  simp [dAtom, AtomOp.word, rOnly, dHdr_wordOf hg, pure, Except.pure]
@[simp] theorem fC_atom (x : AtomOp) (m : BitVec 8) (c : BitVec 9) : fC (x.word m c) = c := fC_wordOf ..
/-- The code of a record block is not the 0 of an absent one (R365). -/
theorem code_ne_zero_of_blockOk {b : Opnd} (h : blockOk b = true) : b.code ≠ 0#9 := by
  cases b with
  | s n => revert h; revert n; decide
  | v n => cases h
  | sp r => cases h
theorem dQ_word {x : QOp} {ords : List Order} {push : Bool} (hx : x.ok ords push = true) (hg : x.h.guard.ok = true) (m : BitVec 8) :
    dQ (x.word m) = .ok x := by
  obtain ⟨h, o, sc, d, a, b⟩ := x
  cases b with
  | none => simp [dQ, QOp.word, rOnly, dHdr_wordOf hg, pure, Except.pure]
  | some b =>
    have hb : blockOk b = true := by simp only [QOp.ok, Bool.and_eq_true] at hx; exact hx.2
    simp [dQ, QOp.word, rOnly, dHdr_wordOf hg, code_ne_zero_of_blockOk hb, pure, Except.pure]

@[simp] theorem ofCode_code_redOp (o : RedOp) : RedOp.ofCode o.code = .ok o := by cases o <;> rfl
@[simp] theorem ofCode_code_shMode (m : ShMode) : ShMode.ofCode m.code = m := by cases m <;> rfl
@[simp] theorem ofCode_code_voteMode (m : VoteMode) : VoteMode.ofCode m.code = .ok m := by cases m <;> rfl
@[simp] theorem ofCode_code_dMode (m : DMode) : DMode.ofCode m.code = .ok m := by cases m <;> rfl
@[simp] theorem ofCode_code_tlbiMode (m : TlbiMode) : TlbiMode.ofCode m.code = .ok m := by cases m <;> rfl
@[simp] theorem ofCode_code_ocClass (c : OcClass) : OcClass.ofCode c.code = c := by cases c <;> rfl
@[simp] theorem ofCode_code_collKind (k : CollKind) : CollKind.ofCode k.code = .ok k := by cases k <;> rfl
@[simp] theorem ofCode_code_collOp (o : CollOp) : CollOp.ofCode o.code = .ok o := by cases o <;> rfl
@[simp] theorem extractLsb'_extH (hi : BitVec 11) {k n : Nat} (hk : 8 ≤ k) : (extH hi).extractLsb' k n = hi.extractLsb' (k - 8) n :=
  extractLsb'_extOf (hk := hk) ..
@[simp] theorem getLsbD_extH (hi : BitVec 11) {k : Nat} (hk : 8 ≤ k) : (extH hi).getLsbD k = hi.getLsbD (k - 8) :=
  getLsbD_extOf (hk := hk) ..

/-- The operand that names slot `n` of the register blocks (R173). -/
@[simp] theorem ofCode_slotCode (n : BitVec 4) : Opnd.ofCode (slotCode n) = .ok (.v (n ++ 0#4)) := by
  revert n; decide

section
variable (x : Op2) (m : BitVec 8)
@[simp] theorem fMajor_op2 (e e5) : fMajor (x.word m e e5) = m := by
  obtain ⟨h, t, d, a, b | i⟩ := x <;> simp [Op2.word]
@[simp] theorem row_op2 (e e5) : (x.word m e e5).extractLsb' 92 4 = m.extractLsb' 4 4 := by
  obtain ⟨h, t, d, a, b | i⟩ := x <;> simp [Op2.word]
@[simp] theorem dSat_op2 (s) : dSat (x.word m (extS s) (e5Of 0#2 s 0#2)) = s := by
  obtain ⟨h, t, d, a, b | i⟩ := x <;> simp [Op2.word, dSat, extS, -getLsbD_eq_getElem]
@[simp] theorem dRnd_op2 (r : Rnd) : dRnd (x.word m (extR r) (e5Of 0#2 false r.code)) = r := by
  obtain ⟨h, t, d, a, b | i⟩ := x <;> simp [Op2.word, dRnd, extR]
@[simp] theorem dCond_op2 (c : Cond) : dCond (x.word m (extC c) c.code) = .ok c := by
  obtain ⟨h, t, d, a, b | i⟩ := x <;> simp [Op2.word, dCond, extC]
@[simp] theorem dMode2_op2 (k : BitVec 2) : dMode2 (x.word m (extH (0#9 ++ k)) (e5Of k false 0#2)) = k := by
  obtain ⟨h, t, d, a, b | i⟩ := x <;> simp [Op2.word, dMode2, extractLsb'_append_eq_of_add_le, -Nat.reduceAdd]
@[simp] theorem num_op2 (n : Bool) :
    (if isI (x.word m (extH (0#10 ++ bitOf n)) (e5Of (0#1 ++ bitOf n) false 0#2)) then
      (x.word m (extH (0#10 ++ bitOf n)) (e5Of (0#1 ++ bitOf n) false 0#2)).getLsbD 35
    else (x.word m (extH (0#10 ++ bitOf n)) (e5Of (0#1 ++ bitOf n) false 0#2)).getLsbD 8) = n := by
  obtain ⟨h, t, d, a, b | i⟩ := x <;>
    simp [Op2.word, getLsbD_append, -getLsbD_eq_getElem, -Nat.reduceAdd]
end

section
variable (m : BitVec 8) (k : Nat)
@[simp] theorem dSat_wordR (h t cp o sc d a b c hi cd s r) :
    dSat (wordOf h m 0#1 t cp o sc d a (lowR b c (extOf hi cd s r))) = s := by
  simp [dSat, -getLsbD_eq_getElem]
@[simp] theorem dRnd_wordR (h t cp o sc d a b c hi cd s) (r : Rnd) :
    dRnd (wordOf h m 0#1 t cp o sc d a (lowR b c (extOf hi cd s r.code))) = r := by
  simp [dRnd]
@[simp] theorem dSat_wordS (h t cp o sc d a b c s) : dSat (wordOf h m 0#1 t cp o sc d a (lowR b c (extS s))) = s := dSat_wordR ..
@[simp] theorem dCond_wordI (h t cp o sc d a i) (c : Cond) :
    dCond (wordOf h m 1#1 t cp o sc d a (lowI c.code i)) = .ok c := by
  simp [dCond]
@[simp] theorem dSat_op1 (x : Op1) (s) : dSat (x.word m (extS s)) = s := dSat_wordR ..
@[simp] theorem dRnd_op1 (x : Op1) (r : Rnd) : dRnd (x.word m (extR r)) = r := dRnd_wordR ..
@[simp] theorem dSat_op3 (x : Op3) (s) : dSat (x.word m (extS s)) = s := dSat_wordR ..
@[simp] theorem dRnd_op3 (x : Op3) (r : Rnd) : dRnd (x.word m (extR r)) = r := dRnd_wordR ..
@[simp] theorem getLsbD_op1 (x : Op1) (e) (hk : k < 19) : (x.word m e).getLsbD k = e.getLsbD k := extBit_wordOf (hk := hk) ..
@[simp] theorem getLsbD_op3 (x : Op3) (e) (hk : k < 19) : (x.word m e).getLsbD k = e.getLsbD k := extBit_wordOf (hk := hk) ..
@[simp] theorem extractLsb'_op1 (x : Op1) (e n) (hk : k + n ≤ 19) : (x.word m e).extractLsb' k n = e.extractLsb' k n :=
  ext_wordOf (hk := hk) ..
@[simp] theorem extractLsb'_op3 (x : Op3) (e n) (hk : k + n ≤ 19) : (x.word m e).extractLsb' k n = e.extractLsb' k n :=
  ext_wordOf (hk := hk) ..
end

section
variable (h : Hdr) (m : BitVec 8) (t : BitVec 5) (d : BitVec 9) (a : Src) (e : BitVec 19) (e5 : BitVec 5)
@[simp] theorem fMajor_srcAWord : fMajor (srcAWord h m t d a e e5) = m := by
  cases a <;> simp [srcAWord]
@[simp] theorem fType_srcAWord : fType (srcAWord h m t d a e e5) = t := by
  cases a <;> simp [srcAWord]
@[simp] theorem fDest_srcAWord : fDest (srcAWord h m t d a e e5) = d := by
  cases a <;> simp [srcAWord]
@[simp] theorem dSrcA_srcAWord : dSrcA (srcAWord h m t d a e e5) = .ok a := by
  cases a <;> simp [srcAWord, dSrcA]
@[simp] theorem dMode2_srcAWord (k : BitVec 2) : dMode2 (srcAWord h m t d a (extH (0#9 ++ k)) (e5Of k false 0#2)) = k := by
  cases a <;> simp [srcAWord, dMode2, extractLsb'_append_eq_of_add_le, -Nat.reduceAdd]
end
theorem dHdr_srcAWord {h : Hdr} (hg : h.guard.ok = true) (m t d a e e5) : dHdr (srcAWord h m t d a e e5) = h := by
  cases a <;> simp [srcAWord, dHdr_wordOf hg]

section
variable (h : Hdr) (m : BitVec 8) (t : BitVec 5) (cp o sc : BitVec 3) (r : BitVec 9) (base : Opnd) (off : Src) (e : BitVec 19)
  (e5 : BitVec 5)
@[simp] theorem fMajor_memWord : fMajor (memWord h m t cp o sc r base off e e5) = m := by
  cases off <;> simp [memWord]
@[simp] theorem fType_memWord : fType (memWord h m t cp o sc r base off e e5) = t := by
  cases off <;> simp [memWord]
@[simp] theorem fCpol_memWord : fCpol (memWord h m t cp o sc r base off e e5) = cp := by
  cases off <;> simp [memWord]
@[simp] theorem fDest_memWord : fDest (memWord h m t cp o sc r base off e e5) = r := by
  cases off <;> simp [memWord]
@[simp] theorem fA_memWord : fA (memWord h m t cp o sc r base off e e5) = base.code := by
  cases off <;> simp [memWord]
@[simp] theorem dSrcB_memWord : dSrcB (memWord h m t cp o sc r base off e e5) = .ok off := by
  cases off <;> simp [memWord, dSrcB]
@[simp] theorem lease_memWord (n : BitVec 4) :
    (if isI (memWord h m t cp o sc r base off (extH (0#7 ++ n)) (0#1 ++ n)) then
      (memWord h m t cp o sc r base off (extH (0#7 ++ n)) (0#1 ++ n)).extractLsb' 32 4
    else (memWord h m t cp o sc r base off (extH (0#7 ++ n)) (0#1 ++ n)).extractLsb' 8 4) = n := by
  cases off <;> simp [memWord, extractLsb'_append_eq_of_add_le, -Nat.reduceAdd]
end
theorem dHdr_memWord {h : Hdr} (hg : h.guard.ok = true) (m t cp o sc r b off e e5) : dHdr (memWord h m t cp o sc r b off e e5) = h := by
  cases off <;> simp [memWord, dHdr_wordOf hg]

/-- A well-formed instruction word has a legal guard in its header (R42). -/
theorem guard_ok_of_wf {i : Instr} {y : Info} (hy : i.info = some y) (hwf : i.wf = true) : y.h.guard.ok = true := by
  cases i <;> cases hy <;>
    simp only [Instr.wf, Hdr.bare, Hdr.ok, Op1.ok, Op2.ok, Op2.okw, Op3.ok, Op3.okw, MemOp.ok, AtomOp.ok, QOp.ok, touchOk, contribOk,
      Bool.and_eq_true] at hwf <;>
    simp only [hwf, plain, Op1.info, Op2.info, Op2.infow, Op3.info, Op3.infow, MemOp.infoLd, MemOp.infoSt, AtomOp.info, QOp.infoPush,
      QOp.infoTake, touchInfo]

theorem info_isSome_of_isWord {i : Instr} (hi : i.isWord = true) : ∃ y, i.info = some y := by
  cases i <;> first | exact ⟨_, rfl⟩ | cases hi

theorem fMajor_encode {i : Instr} {y : Info} (hy : i.info = some y) : fMajor (encode i) = BitVec.ofNat 8 i.major := by
  cases i <;> cases hy <;> simp only [encode, Op1.word, Op3.word, MemOp.word, AtomOp.word, QOp.word, rWord, iWord, fMajor_wordOf,
    fMajor_op2, fMajor_srcAWord, fMajor_memWord]

theorem buildFibre_encode {i : Instr} (hr : (Nat.ble 0x01 i.major && Nat.ble i.major 0x0F) = true) {y : Info} (hy : i.info = some y)
    (hg : y.h.guard.ok = true) (hwf : i.wf = true) : buildFibre (encode i) = .ok i := by
  rw [buildFibre, fMajor_encode hy, toNat_ofNat]
  generalize hn : i.major % 2 ^ 8 = n
  cases i <;> (try exact absurd hr Bool.false_ne_true) <;> cases hy
  all_goals
    simp only [Instr.major, Nat.reducePow, Nat.reduceMod] at hn
    subst hn
    simp only [plain] at hg
    simp [encode, hg, pure, Except.pure, rOnly, iOnly, dDest, dA, dHdr_wordOf, dHdr_srcAWord, dHdr_memWord, rWord, iWord,
      extractLsb'_append_eq_of_add_le, extractLsb'_append_eq_of_le, -Nat.reduceAdd, -getLsbD_eq_getElem]

theorem buildRegion_encode {i : Instr} (hr : (Nat.ble 0x10 i.major && Nat.ble i.major 0x1F) = true) {y : Info} (hy : i.info = some y)
    (hg : y.h.guard.ok = true) (hwf : i.wf = true) : buildRegion (encode i) = .ok i := by
  rw [buildRegion, fMajor_encode hy, toNat_ofNat]
  generalize hn : i.major % 2 ^ 8 = n
  cases i <;> (try exact absurd hr Bool.false_ne_true) <;> cases hy
  all_goals
    simp only [Instr.major, Nat.reducePow, Nat.reduceMod] at hn
    subst hn
    simp only [plain] at hg
    simp [encode, hg, pure, Except.pure, rOnly, iOnly, dDest, dA, dB, dC, dHdr_wordOf, dHdr_srcAWord, dHdr_memWord, rWord, iWord,
      extractLsb'_append_eq_of_add_le, getLsbD_append, -Nat.reduceAdd, -getLsbD_eq_getElem]

theorem buildInt_encode {i : Instr} (hr : (Nat.ble 0x20 i.major && Nat.ble i.major 0x4F) = true) {y : Info} (hy : i.info = some y)
    (hg : y.h.guard.ok = true) (hwf : i.wf = true) : buildInt (encode i) = .ok i := by
  rw [buildInt, fMajor_encode hy, toNat_ofNat]
  generalize hn : i.major % 2 ^ 8 = n
  cases i <;> (try exact absurd hr Bool.false_ne_true) <;> cases hy
  all_goals
    simp only [Instr.major, Nat.reducePow, Nat.reduceMod] at hn
    subst hn
    simp only [plain, Op1.info, Op2.info, Op2.infow, Op3.info, Op3.infow] at hg
    simp [encode, hg, pure, Except.pure, rOnly, dDest, dA, dB, dHdr_wordOf, dHdr_srcAWord,
      extractLsb'_append_eq_of_add_le, getLsbD_append, -Nat.reduceAdd, -getLsbD_eq_getElem]

theorem buildFloat_encode {i : Instr} (hr : (Nat.ble 0x50 i.major && Nat.ble i.major 0x7F) = true) {y : Info} (hy : i.info = some y)
    (hg : y.h.guard.ok = true) (hwf : i.wf = true) : buildFloat (encode i) = .ok i := by
  rw [buildFloat, fMajor_encode hy, toNat_ofNat]
  generalize hn : i.major % 2 ^ 8 = n
  cases i <;> (try exact absurd hr Bool.false_ne_true) <;> cases hy
  all_goals
    simp only [Instr.major, Nat.reducePow, Nat.reduceMod] at hn
    subst hn
    simp only [plain, Op1.info, Op2.info, Op2.infow, Op3.info, Op3.infow] at hg
    simp [encode, hg, pure, Except.pure, rOnly, dDest, dA, dB, dC, dHdr_wordOf, rWord, extractLsb'_extOf,
      extractLsb'_append_eq_of_add_le, extractLsb'_append_eq_of_le, -Nat.reduceAdd, -getLsbD_eq_getElem]
  case fmin.refl => exact num_op2 ..
  case fmax.refl => exact num_op2 ..
  case cvtpk.refl b _ _ _ _ _ =>
    simp only [Instr.wf, Bool.and_eq_true] at hwf
    obtain ⟨-, hb⟩ := hwf
    cases b with
    | none =>
      simp only [Bool.and_eq_true, beq_iff_eq] at hb
      simp [hb]
    | some o =>
      simp only [Bool.and_eq_true, Bool.not_eq_true', Bool.and_eq_false_iff, beq_eq_false_iff_ne] at hb
      rw [if_neg (fun e => hb.2.elim (· e.1) (· e.2))]
      simp

theorem buildMem_encode {i : Instr} (hr : (Nat.ble 0x80 i.major && Nat.ble i.major 0x9F) = true) {y : Info} (hy : i.info = some y)
    (hg : y.h.guard.ok = true) (hwf : i.wf = true) : buildMem (encode i) = .ok i := by
  rw [buildMem, fMajor_encode hy, toNat_ofNat]
  generalize hn : i.major % 2 ^ 8 = n
  cases i <;> (try exact absurd hr Bool.false_ne_true) <;> cases hy
  all_goals
    simp only [Instr.major, Nat.reducePow, Nat.reduceMod] at hn
    subst hn
    simp only [plain, MemOp.infoLd, MemOp.infoSt, AtomOp.info, touchInfo] at hg
    simp [encode, hg, pure, Except.pure, rOnly, dDest, dA, dC, dHdr_wordOf, dHdr_memWord, dContrib,
      -Nat.reduceAdd, -getLsbD_eq_getElem]
  case lease.refl => exact lease_memWord ..

theorem buildEngine_encode {i : Instr} (hr : (Nat.ble 0xA0 i.major && Nat.ble i.major 0xBF) = true) {y : Info} (hy : i.info = some y)
    (hg : y.h.guard.ok = true) (hwf : i.wf = true) : buildEngine (encode i) = .ok i := by
  rw [buildEngine, fMajor_encode hy, toNat_ofNat]
  generalize hn : i.major % 2 ^ 8 = n
  cases i <;> (try exact absurd hr Bool.false_ne_true) <;> cases hy
  all_goals
    simp only [Instr.major, Nat.reducePow, Nat.reduceMod] at hn
    subst hn
    simp only [plain] at hg
    simp [encode, hg, pure, Except.pure, rOnly, iOnly, dDest, dA, dB, dC, dHdr_wordOf, dHdr_srcAWord, rWord,
      extractLsb'_append_eq_of_add_le, extractLsb'_append_eq_of_le, getLsbD_append, -Nat.reduceAdd, -getLsbD_eq_getElem]

theorem buildSync_encode {i : Instr} (hr : (Nat.ble 0xC0 i.major && Nat.ble i.major 0xCF) = true) {y : Info} (hy : i.info = some y)
    (hg : y.h.guard.ok = true) (hwf : i.wf = true) : buildSync (encode i) = .ok i := by
  rw [buildSync, fMajor_encode hy, toNat_ofNat]
  generalize hn : i.major % 2 ^ 8 = n
  cases i <;> (try exact absurd hr Bool.false_ne_true) <;> cases hy
  all_goals
    simp only [Instr.major, Nat.reducePow, Nat.reduceMod] at hn
    subst hn
    simp only [plain, QOp.infoPush, QOp.infoTake] at hg
    simp [encode, hg, pure, Except.pure, rOnly, iOnly, dDest, dA, dB, dC, dHdr_wordOf, rWord,
      extractLsb'_append_eq_of_add_le, extractLsb'_append_eq_of_le, -Nat.reduceAdd, -getLsbD_eq_getElem]
  case qpush.refl | qpop.refl | dqPush.refl | dqPop.refl | dqSteal.refl => simp [dQ_word hwf hg]
  case depDec.refl => simp [dQ_word (Bool.and_eq_true .. ▸ hwf).1 hg]

theorem row_of_fMajor {w : InsnWord} {n : Nat} (h : fMajor w = BitVec.ofNat 8 n) (hn : n < 256) :
    (w.extractLsb' 92 4).toNat = n / 16 := by
  have hf : fMajor w = w.extractLsb' 88 8 := rfl
  have h' := congrArg BitVec.toNat h
  rw [hf, extractLsb'_toNat, toNat_ofNat, Nat.mod_eq_of_lt hn, Nat.shiftRight_eq_div_pow] at h'
  rw [extractLsb'_toNat, Nat.shiftRight_eq_div_pow, ← h']
  omega

theorem major_le (i : Instr) : i.major ≤ 0xCD := Nat.le_of_ble_eq_true (by cases i <;> rfl)

/-- The fields of the word that a well-formed instruction encodes to name that instruction, in the row of its major opcode. -/
theorem build_encode {i : Instr} (hi : i.isWord = true) (hwf : i.wf = true) : build (encode i) = .ok i := by
  obtain ⟨y, hy⟩ := info_isSome_of_isWord hi
  have hg := guard_ok_of_wf hy hwf
  have hle := major_le i
  have hne : i.major ≠ 0 := by simpa [Instr.isWord] using hi
  have hrow := row_of_fMajor (fMajor_encode hy) (by omega)
  have within {lo hi : Nat} (h1 : lo ≤ i.major) (h2 : i.major ≤ hi) : (Nat.ble lo i.major && Nat.ble i.major hi) = true := by
    simp [h1, h2]
  have hk : i.major / 16 < 13 := by omega
  rw [build, hrow]
  generalize hn : i.major / 16 = n at hk ⊢
  interval_cases n
  · exact buildFibre_encode (within (by omega) (by omega)) hy hg hwf
  · exact buildRegion_encode (within (by omega) (by omega)) hy hg hwf
  · exact buildInt_encode (within (by omega) (by omega)) hy hg hwf
  · exact buildInt_encode (within (by omega) (by omega)) hy hg hwf
  · exact buildInt_encode (within (by omega) (by omega)) hy hg hwf
  · exact buildFloat_encode (within (by omega) (by omega)) hy hg hwf
  · exact buildFloat_encode (within (by omega) (by omega)) hy hg hwf
  · exact buildFloat_encode (within (by omega) (by omega)) hy hg hwf
  · exact buildMem_encode (within (by omega) (by omega)) hy hg hwf
  · exact buildMem_encode (within (by omega) (by omega)) hy hg hwf
  · exact buildEngine_encode (within (by omega) (by omega)) hy hg hwf
  · exact buildEngine_encode (within (by omega) (by omega)) hy hg hwf
  · exact buildSync_encode (within (by omega) (by omega)) hy hg hwf

theorem decodeWord_encode {i : Instr} (hi : i.isWord = true) (hwf : i.wf = true) : decodeWord (encode i) = .ok i := by
  simp only [decodeWord, build_encode hi hwf, hwf, if_true]

/-! ### Words and bytes (R3, R34) -/

/-- The bytes of a number, the lowest first, add up to what of it they cover. -/
theorem foldr_bytes (N n : Nat) :
    ((List.range n).map fun i => N / 2 ^ (8 * i) % 2 ^ 8).foldr (fun b acc => b + 256 * acc) 0 = N % 2 ^ (8 * n) := by
  induction n generalizing N with
  | zero => simp [Nat.mod_one]
  | succ n ih =>
    have shift : ((List.range n).map fun i => N / 2 ^ (8 * (i + 1)) % 2 ^ 8) = (List.range n).map fun i => N / 256 / 2 ^ (8 * i) % 2 ^ 8 :=
      List.map_congr_left fun i _ => by rw [Nat.div_div_eq_div_mul, Nat.mul_succ, Nat.add_comm (8 * i), Nat.pow_add]
    rw [List.range_succ_eq_map, List.map_cons, List.foldr_cons, List.map_map, Function.comp_def, shift, ih, Nat.mul_succ,
      Nat.add_comm (8 * n), Nat.pow_add, Nat.mod_mul]
    simp

theorem wordOfBytes_bytesOfWord (w : InsnWord) : wordOfBytes (bytesOfWord w) = w := by
  have h := foldr_bytes w.toNat 12
  rw [List.foldr_map] at h
  simp only [wordOfBytes, bytesOfWord, List.foldr_map, extractLsb'_toNat, Nat.shiftRight_eq_div_pow, h]
  apply BitVec.eq_of_toNat_eq
  rw [toNat_ofNat, Nat.mod_mod, Nat.mod_eq_of_lt w.isLt]

/-- A byte of the number that bytes make up. -/
theorem foldr_bytes_byte (bs : List Byte) (i : Nat) :
    bs.foldr (fun b acc => b.toNat + 256 * acc) 0 / 2 ^ (8 * i) % 2 ^ 8 = (bs.getD i 0).toNat := by
  induction bs generalizing i with
  | nil => simp
  | cons b bs ih =>
    have hb := b.isLt
    cases i with
    | zero => simp; omega
    | succ i =>
      have hq (N : Nat) : (b.toNat + 256 * N) / 2 ^ 8 = N := by omega
      rw [List.foldr_cons, Nat.mul_succ, Nat.add_comm (8 * i), Nat.pow_add, ← Nat.div_div_eq_div_mul, hq, ih]
      simp

theorem foldr_bytes_lt (bs : List Byte) : bs.foldr (fun b acc => b.toNat + 256 * acc) 0 < 2 ^ (8 * bs.length) := by
  induction bs with
  | nil => simp
  | cons b bs ih =>
    have hb := b.isLt
    rw [List.foldr_cons, List.length_cons, Nat.mul_succ, Nat.add_comm _ 8, Nat.pow_add]
    omega

theorem bytesOfWord_wordOfBytes {bs : List Byte} (h : bs.length = 12) : bytesOfWord (wordOfBytes bs) = bs := by
  have hlt := foldr_bytes_lt bs
  rw [h] at hlt
  apply List.ext_getElem
  · simp [bytesOfWord, h]
  · intro i h1 h2
    apply BitVec.eq_of_toNat_eq
    have hbyte := foldr_bytes_byte bs i
    simp only [bytesOfWord, wordOfBytes, List.getElem_map, List.getElem_range, extractLsb'_toNat, toNat_ofNat,
      Nat.mod_eq_of_lt hlt, Nat.shiftRight_eq_div_pow, hbyte]
    simp [List.getD, h2]

@[simp] theorem length_bytesOfWord (w : InsnWord) : (bytesOfWord w).length = 12 := by simp [bytesOfWord]

/-- A word that decodes is the word that its instruction encodes to (R55). -/
theorem encode_of_decodeWord {w : InsnWord} {i : Instr} (h : decodeWord w = .ok i) : encode i = w ∧ i.wf = true := by
  simp only [decodeWord] at h
  cases hb : build w with
  | error e => rw [hb] at h; cases h
  | ok j =>
    rw [hb] at h
    by_cases hwf : j.wf = true
    · by_cases he : encode j = w
      · simp only [hwf, he, if_true, Except.ok.injEq] at h
        subst h
        exact ⟨he, hwf⟩
      · simp [hwf, he] at h
    · simp [hwf] at h

/-- Settles O54: the decoder reads the fields of the word put together by the encoder (`build_encode`), and the bytes of a word make it
up again. -/
theorem encodeDecode : Obligations.EncodeDecode := by
  intro i hi hwf
  have hw := decodeWord_encode hi hwf
  refine ⟨hw, ?_⟩
  have htake : (bytesOfWord (encode i)).take 12 = bytesOfWord (encode i) := List.take_of_length_le (by simp)
  have hdrop : (bytesOfWord (encode i)).drop 12 = [] := List.drop_of_length_le (by simp)
  simp [decode, htake, hdrop, wordOfBytes_bytesOfWord, hw]

/-- Settles O55: the decoder takes a word alone that is the one its instruction encodes to, and twelve bytes are those of their word. -/
theorem decodeThenEncode : Obligations.DecodeThenEncode := by
  intro bs rest i
  constructor
  · intro h
    by_cases hlen : bs.length < 12
    · simp [decode, hlen] at h
    · simp only [decode, hlen, if_false] at h
      cases hw : decodeWord (wordOfBytes (bs.take 12)) with
      | error e => rw [hw] at h; cases h
      | ok j =>
        rw [hw, except_map_ok] at h
        obtain ⟨rfl, rfl⟩ := Prod.mk.inj (Except.ok.inj h)
        obtain ⟨he, hwf⟩ := encode_of_decodeWord hw
        rw [he, bytesOfWord_wordOfBytes (by simp; omega), List.take_append_drop]
        exact ⟨rfl, hwf⟩
  · intro hlen
    simp [decode, hlen]

/-- Settles O56: the decoder evaluates on each word. -/
theorem decodeWords : Obligations.DecodeWords := by
  refine ⟨?_, ?_, ?_, ?_, ?_⟩ <;> decide

end Sys2Proof
end

section
/-! PROOFS. Instructions of a fixed-latency result that never fault: integer arithmetic (R97 to R105), bits (R106 to R111), comparisons and
moves (R112 to R115), values across lanes (R118 to R123), and the exact floating-point operations and conversions (R130 to R145). -/
namespace Sys2Proof.Machine

variable {s : State} {f : Fibre}

theorem regs_le_256 (t : Ty) : t.regs ≤ 256 := (regs_le_four t).trans (by decide)

theorem fmt_regs_le_256 (t : Fmt) : t.regs ≤ 256 := by cases t <;> decide

/-- An instruction that runs as `alu1`, `alu2` or `alu3` computes its function of the sources (R92). -/
theorem unary_of_alu1 {mk : Op1 → Instr} {x : Op1} {v : Nat → Nat} (hi : exec (mk x) s = run (mk x) s fun s f => alu1 s f x v) :
    Claim.Unary mk s f x v :=
  computes_of_result x.t (fun s f l => v (valA1 s f x x.t.regs l)) (regs_le_256 x.t) hi fun _ => rfl

theorem binary_of_alu2 {mk : Op2 → Instr} {x : Op2} {v : Nat → Nat → Nat} (hi : exec (mk x) s = run (mk x) s fun s f => alu2 s f x v) :
    Claim.Binary mk s f x v :=
  computes_of_result x.t (fun s f l => v (valA2 s f x x.t.regs l) (valB2 s f x x.t.regs l)) (regs_le_256 x.t) hi fun _ => rfl

theorem ternary_of_alu3 {mk : Op3 → Instr} {x : Op3} (t : Ty) {v : Nat → Nat → Nat → Nat}
    (hi : exec (mk x) s = run (mk x) s fun s f => alu3 s f x t v) : Claim.Ternary mk s f x t v :=
  computes_of_result t (fun s f l => v (valO s f x.a x.t.regs l) (valO s f x.b x.t.regs l) (valO s f x.c x.t.regs l))
    (regs_le_256 x.t) hi fun _ => rfl

/-- Settles O1: each operation runs as its function of one, two or three sources. -/
theorem integerArithmetic : Obligations.IntegerArithmetic := by
  intro s f x y z b sh
  refine ⟨binary_of_alu2 rfl, binary_of_alu2 rfl, binary_of_alu2 rfl, binary_of_alu2 rfl, ternary_of_alu3 _ rfl, unary_of_alu1 rfl,
    unary_of_alu1 rfl, binary_of_alu2 rfl, binary_of_alu2 rfl, ternary_of_alu3 _ rfl, ternary_of_alu3 _ rfl, ternary_of_alu3 _ rfl,
    ?lea, ternary_of_alu3 _ rfl⟩
  case lea =>
    exact computes_of_result .b64 (fun s f l => leaF sh.toNat (valA2 s f y 2 l) (valB2 s f y 1 l)) (by decide) rfl fun l => wide1_pair ..

/-- Settles O3: each operation runs as its function of one, two or three sources. -/
theorem bits : Obligations.Bits := by
  intro s f x y z
  exact ⟨binary_of_alu2 rfl, binary_of_alu2 rfl, binary_of_alu2 rfl, binary_of_alu2 rfl, unary_of_alu1 rfl, binary_of_alu2 rfl,
    binary_of_alu2 rfl, binary_of_alu2 rfl, binary_of_alu2 rfl, binary_of_alu2 rfl, ternary_of_alu3 _ rfl, unary_of_alu1 rfl,
    unary_of_alu1 rfl, unary_of_alu1 rfl, unary_of_alu1 rfl, ternary_of_alu3 _ rfl⟩

/-- Settles O4: each writes one result, of the type of its destination. -/
theorem compareMovePack : Obligations.CompareMovePack := by
  intro s f x y c h t d a b a' q
  refine ⟨?cmp, ?mov, ?pack, ?unpack⟩
  case cmp =>
    exact computes_of_result .b32 (fun s f l => cmpF y.t c (valA2 s f y y.t.regs l) (valB2 s f y y.t.regs l)) (by decide) rfl fun _ => rfl
  case mov => exact computes_of_result t (fun s f l => srcVal s f s.here t t.regs a' l) (regs_le_256 t) rfl fun _ => rfl
  case pack => exact computes_of_result t (fun s f l => packF t q (valO s f a 1 l) (valO s f b 1 l)) (by decide) rfl fun _ => rfl
  case unpack => exact computes_of_result x.t (fun s f l => unpackF x.t q (valA1 s f x 1 l)) (by decide) rfl fun _ => rfl

/-- Settles O5: the source lane of each is a lane of the piece, or the lane itself. -/
theorem acrossLanes : Obligations.AcrossLanes := by
  intro s f x y m w
  refine ⟨?bcast, ?vote, ?actn, ?shfl⟩
  case bcast =>
    exact computes_of_result y.t
      (fun s f l => valA2 s f y y.t.regs (if f.amask.getLsbD (valB2 s f y 1 0 % 32) then valB2 s f y 1 0 % 32 else l))
      (regs_le_256 y.t) rfl fun _ => rfl
  case vote =>
    exact computes_of_result .b32
      (fun s f _ => if voteF m ((passLanes s f s.here x.h.guard).map fun l => valA1 s f x 1 l % 2 ^ 32) then 1 else 0)
      (by decide) rfl fun _ => rfl
  case actn =>
    exact computes_of_result .n32 (fun s f l => ((flagged s f x).filter (· < l)).length) (by decide) rfl fun _ => rfl
  case shfl =>
    exact computes_of_result y.t
      (fun s f l => valA2 s f y y.t.regs
        (match shflLane w l (valB2 s f y 1 l) with
         | some j => if f.amask.getLsbD j then j else l
         | none => l))
      (regs_le_256 y.t) rfl fun _ => rfl

/-- Settles O6: each runs as its function of its sources, of `%fp4x` too where it converts. -/
theorem floatExact : Obligations.FloatExact := by
  intro s f x y q sat c r h d a b e df sf p dm
  refine ⟨binary_of_alu2 rfl, binary_of_alu2 rfl, binary_of_alu2 rfl, unary_of_alu1 rfl, unary_of_alu1 rfl, binary_of_alu2 rfl,
    ?fexpo, ?cvt, ?cvtpk, ?cvtunpk, ?mxsc⟩
  case fexpo => exact computes_of_result .f32 (fun s f l => fexpoF (valA1 s f x 1 l)) (by decide) rfl fun _ => rfl
  case cvt =>
    exact computes_of_result .b64
      (fun s f l => fmtWide df d (convert f.fp4x.toNat df sf sat r (valO s f a sf.regs l % 2 ^ fmtWidth sf)))
      (fmt_regs_le_256 df) rfl fun _ => rfl
  case cvtpk =>
    exact computes_of_result .b32
      (fun s f l => cvtpkF f.fp4x.toNat df p.toNat sat r (valO s f a 1 l)
        (match b with
         | some o => valO s f o 1 l
         | none => 0) (valO s f e 1 l))
      (by decide) rfl fun _ => rfl
  case cvtunpk =>
    exact computes_of_result .b32 (fun s f l => cvtunpkF f.fp4x.toNat dm sf p.toNat r (valO s f a 1 l)) (by decide) rfl fun _ => rfl
  case mxsc =>
    exact computes_of_result .b32 (fun s f _ => mxscF df ((passLanes s f s.here x.h.guard).map fun l => valA1 s f x 1 l))
      (by decide) rfl fun _ => rfl

end Sys2Proof.Machine
end

section
/-! PROOFS. What the operations of the state do to memory: most leave it as it is, the others keep its canonical form (log entry 3). -/

namespace Sys2Proof.Machine

@[simp] theorem ite_mem {c : Prop} [Decidable c] (a b : State) : (if c then a else b).mem = if c then a.mem else b.mem := apply_ite State.mem c a b

@[simp] theorem foldl_mem {α : Type} (l : List α) {g : State → α → State} (hg : ∀ t a, (g t a).mem = t.mem) (t : State) : (l.foldl g t).mem = t.mem := mem_foldl l g hg t

@[simp] theorem wf_foldl_mem {α : Type} (l : List α) {g : State → α → State} (hg : ∀ t a, Memory.wf t.mem = true → Memory.wf (g t a).mem = true) (t : State) (h : Memory.wf t.mem = true) : Memory.wf (l.foldl g t).mem = true := by
  induction l generalizing t with
  | nil => exact h
  | cons a l ih => exact ih (g t a) (hg t a h)

/-- The same for a step that is not to be evaluated: `g t a` is named by an equation. -/
theorem foldl_mem_of {α : Type} (l : List α) {g : State → α → State} (hg : ∀ t a, ∃ u, g t a = u ∧ u.mem = t.mem) (t : State) :
    (l.foldl g t).mem = t.mem :=
  mem_foldl l g (fun t a => by
    obtain ⟨u, hu, hm⟩ := hg t a
    rw [hu, hm]) t

theorem foldl_snd_mem {α β : Type} (l : List β) {g : α × State → β → α × State} (hg : ∀ r e, (g r e).2.mem = r.2.mem) (r : α × State) :
    (l.foldl g r).2.mem = r.2.mem := by
  induction l generalizing r with
  | nil => rfl
  | cons e l ih => exact (ih (g r e)).trans (hg r e)

theorem wf_foldl_snd_mem {α β : Type} (l : List β) {g : α × State → β → α × State}
    (hg : ∀ r e, Memory.wf r.2.mem = true → Memory.wf (g r e).2.mem = true) (r : α × State) (h : Memory.wf r.2.mem = true) :
    Memory.wf (l.foldl g r).2.mem = true := by
  induction l generalizing r with
  | nil => exact h
  | cons e l ih => exact ih (g r e) (hg r e h)

@[simp] theorem ite_snd_mem {α : Type} {c : Prop} [Decidable c] (a b : α × State) :
    (if c then a else b).2.mem = if c then a.2.mem else b.2.mem := apply_ite (fun x : α × State => x.2.mem) c a b

@[simp] theorem ite_snd_snd_mem {α β : Type} {c : Prop} [Decidable c] (a b : α × β × State) :
    (if c then a else b).2.2.mem = if c then a.2.2.mem else b.2.2.mem := apply_ite (fun x : α × β × State => x.2.2.mem) c a b

@[simp] theorem wf_ite {c : Prop} [Decidable c] (a b : Memory) :
    Memory.wf (if c then a else b) = if c then Memory.wf a else Memory.wf b := apply_ite Memory.wf c a b

@[simp] theorem modF_mem (s : State) (p : Place) (g : Fibre → Fibre) : (modF s p g).mem = s.mem := by
  unfold modF
  split <;> rfl

@[simp] theorem modX_mem (s : State) (cid : Nat) (g : Ctx → Ctx) : (modX s cid g).mem = s.mem := by
  unfold modX
  split <;> rfl

@[simp] theorem dueOnce_mem (s : State) (i : Instr) : (dueOnce s i).mem = s.mem := by
  unfold dueOnce
  simp

@[simp] theorem fresh_mem (s : State) : (fresh s).2.mem = s.mem := rfl

@[simp] theorem freeVal_mem (s : State) : (freeVal s).2.mem = s.mem := rfl

@[simp] theorem pulse_mem (s : State) (cid : Nat) : (pulse s cid).mem = s.mem := by
  unfold pulse
  simp

@[simp] theorem wf_walkFrom (fuel : Nat) (s : State) (va node : Nat) (path : List (Nat × Nat)) (h : Memory.wf s.mem = true) :
    Memory.wf (walkFrom fuel s va node path).2.mem = true := by
  induction fuel generalizing s node path with
  | zero =>
    unfold walkFrom
    dsimp only
    (repeat' split) <;> simp [h, wf_readNow]
  | succ k ih =>
    unfold walkFrom
    dsimp only
    (repeat' split) <;> simp [h, wf_readNow, ih]

@[simp] theorem tlbPut_mem (s : State) (core : Nat) (e : TlbEnt) : (tlbPut s core e).mem = s.mem := rfl

@[simp] theorem dieCachePut_mem (s : State) (die : Nat) (es : List TlbEnt) : (dieCachePut s die es).mem = s.mem := rfl

@[simp] theorem wf_walkNow (s : State) (die cid vpn : Nat) (h : Memory.wf s.mem = true) :
    Memory.wf (walkNow s die cid vpn).2.mem = true := by
  unfold walkNow
  simp [h]

@[simp] theorem wf_xlatNow (s : State) (core cid va : Nat) (h : Memory.wf s.mem = true) :
    Memory.wf (xlatNow s core cid va).2.mem = true := by
  unfold xlatNow
  dsimp only
  (repeat' split) <;> simp [h]

@[simp] theorem wf_accessNow (s : State) (core cid va : Nat) (q : Ask) (h : Memory.wf s.mem = true) :
    Memory.wf (accessNow s core cid va q).2.2.mem = true := by
  unfold accessNow
  dsimp only
  split <;> simp [h]

@[simp] theorem askWalk_mem (s : State) (core cid vpn : Nat) (p : Place) : (askWalk s core cid vpn p).mem = s.mem := by
  unfold askWalk
  dsimp only
  (repeat' split) <;> simp

@[simp] theorem setL_mem (s : State) (n : Nat) (l : Link) : (setL s n l).mem = s.mem := rfl

@[simp] theorem sendPacket_mem (s : State) (m pa : Nat) : (sendPacket s m pa).mem = s.mem := by
  unfold sendPacket
  split <;> rfl

@[simp] theorem sendPeers_mem (s : State) : (sendPeers s).mem = s.mem := by
  unfold sendPeers
  simp

@[simp] theorem sendReq_mem (s : State) (core cid pa : Nat) (op : HomeOp) (cont : Cont) (tag : Nat × Nat × Nat × Nat × Nat) (stamp : Nat) (sy : Option Scope) : (sendReq s core cid pa op cont tag stamp sy).mem = s.mem := by
  unfold sendReq
  simp

@[simp] theorem dropReq_mem (s : State) (id : Nat) : (dropReq s id).mem = s.mem := rfl

@[simp] theorem farGet_mem (s : State) (owner core cid pa n : Nat) : (farGet s owner core cid pa n).2.mem = s.mem := by
  unfold farGet
  (repeat' split) <;> simp

@[simp] theorem farDrop_mem (s : State) (owner : Nat) : (farDrop s owner).mem = s.mem := rfl

@[simp] theorem wf_getBytes (s : State) (owner core cid pa n : Nat) (h : Memory.wf s.mem = true) :
    Memory.wf (getBytes s owner core cid pa n).2.mem = true := by
  unfold getBytes
  dsimp only
  (repeat' split) <;> simp [h, wf_readNow]

@[simp] theorem wf_getVirt (fuel : Nat) (s : State) (owner core cid : Nat) (q : Ask) (va n : Nat) (h : Memory.wf s.mem = true) :
    Memory.wf (getVirt fuel s owner core cid q va n).2.2.mem = true := by
  induction fuel generalizing s va n with
  | zero => exact h
  | succ k ih =>
    have ha (q : Ask) : Memory.wf (accessNow s core cid va q).2.2.mem = true := wf_accessNow s core cid va q h
    unfold getVirt
    dsimp only
    (repeat' split) <;> simp [h, ha, ih]

@[simp] theorem wf_putBytes (s : State) (core cid pa : Nat) (bytes : List Byte) (cont : Cont) (h : Memory.wf s.mem = true) :
    Memory.wf (putBytes s core cid pa bytes cont).mem = true := by
  unfold putBytes
  split <;> simp [h, wf_writeNow]

@[simp] theorem wf_putVirt (cont : Nat → Cont) (fuel : Nat) (s : State) (core cid va : Nat) (bytes : List Byte) (h : Memory.wf s.mem = true) :
    Memory.wf (putVirt cont fuel s core cid va bytes).2.2.mem = true := by
  induction fuel generalizing s va bytes with
  | zero => exact h
  | succ k ih =>
    have ha (q : Ask) : Memory.wf (accessNow s core cid va q).2.2.mem = true := wf_accessNow s core cid va q h
    unfold putVirt
    split
    · exact h
    · dsimp only
      (repeat' split) <;> simp [ha, ih]

@[simp] theorem wf_flushPart (s : State) (core line : Nat) (h : Memory.wf s.mem = true) :
    Memory.wf (flushPart s core line).mem = true := by
  unfold flushPart
  dsimp only
  (repeat' split) <;> simp [h, wf_recallNow]

@[simp] theorem wf_flushParts (s : State) (core : Nat) (h : Memory.wf s.mem = true) : Memory.wf (flushParts s core).mem = true := by
  unfold flushParts
  exact wf_foldl_mem _ (fun t e ht => wf_flushPart t core e.1 ht) s h

theorem mem_of_openQueue {s t : State} {cid hpa hdr : Nat} (h : openQueue s cid hpa hdr = some t) : t.mem = s.mem := by
  unfold openQueue at h
  dsimp only at h
  split at h
  · simp at h
  · split at h
    · cases h
      rfl
    · simp at h

@[simp] theorem setWharf_mem (s : State) (hpa : Nat) (q : Queue) (w : Nat) (l : List QRec) : (setWharf s hpa q w l).mem = s.mem := rfl

theorem mem_of_placeRec {s t : State} {hpa w : Nat} {e : QRec} (h : placeRec s hpa w e = some t) : t.mem = s.mem := by
  unfold placeRec at h
  split at h
  · simp at h
  · split at h
    · cases h
      rfl
    · simp at h

@[simp] theorem roomFreed_mem (s : State) (cid : Nat) : (roomFreed s cid).mem = s.mem := by
  unfold roomFreed
  simp

theorem mem_of_takeRec {s : State} {hpa : Nat} {bottom : Bool} {x : QRec × State} (h : takeRec s hpa bottom = some x) :
    x.2.mem = s.mem := by
  unfold takeRec at h
  split at h
  · simp at h
  · split at h
    · simp at h
    · obtain ⟨y, -, rfl⟩ := Option.map_eq_some_iff.1 h
      simp

@[simp] theorem releaseHeld_mem (s : State) (pa clk : Nat) : (releaseHeld s pa clk).2.mem = s.mem := rfl

@[simp] theorem postNow_mem (s : State) (cid : Nat) (r : Record) (clk : Nat) : (postNow s cid r clk).mem = s.mem := by
  unfold postNow
  split
  · rfl
  · split
    · rfl
    · split
      next t ht => simp [mem_of_placeRec ht]
      next => rfl

@[simp] theorem postFree_mem (s : State) (cid : Nat) (r : Record) : (postFree s cid r).mem = s.mem := by
  unfold postFree
  simp

@[simp] theorem wf_postFibre (s : State) (p : Place) (cid : Nat) (r : Record) (h : Memory.wf s.mem = true) :
    Memory.wf (postFibre s p cid r).mem = true := by
  unfold postFibre
  simp [h]

@[simp] theorem traceLost_mem (s : State) (cid : Nat) : (traceLost s cid).mem = s.mem := by
  unfold traceLost
  simp

@[simp] theorem traceDone_mem (s : State) (cid : Nat) : (traceDone s cid).mem = s.mem := by
  unfold traceDone
  simp

@[simp] theorem wf_traceWrite (s : State) (core cid : Nat) (r : Record) (h : Memory.wf s.mem = true) :
    Memory.wf (traceWrite s core cid r).2.mem = true := by
  unfold traceWrite
  dsimp only
  (repeat' split) <;> simp [h]

@[simp] theorem wf_traceGo (fuel : Nat) (s : State) (core cid : Nat) (h : Memory.wf s.mem = true) :
    Memory.wf (traceGo fuel s core cid).mem = true := by
  induction fuel generalizing s with
  | zero => exact h
  | succ k ih =>
    unfold traceGo
    split
    · dsimp only
      split <;> simp [h, ih]
    · exact h

@[simp] theorem wf_trace (s : State) (core cid : Nat) (r : Record) (h : Memory.wf s.mem = true) :
    Memory.wf (trace s core cid r).mem = true := by
  unfold trace
  (repeat' split) <;> simp [h]

@[simp] theorem wf_traceWritten (s : State) (core cid cls : Nat) (h : Memory.wf s.mem = true) :
    Memory.wf (traceWritten s core cid cls).mem = true := by
  unfold traceWritten
  dsimp only
  split <;> simp [h]

/-- What a read of a register clears; said once, since `regAt` of an open address must not be evaluated. -/
theorem regClear_ind {P : State → Prop} {s : State} (a m : Nat) (hs : P s) (hr : ∀ v, P (setReg s a v))
    (ht : ∀ x, P { s with slotTab := x }) (hl : ∀ x, P { s with links := x }) : P (regClear s a m) := by
  have e : ∃ F, @regClear = F ∧ P (F s a m) := by
    refine ⟨_, by delta regClear; exact rfl, ?_⟩
    generalize regAt = at_
    split
    · split
      · exact hs
      · exact ht _
    · split
      · exact hs
      · exact hr _
    · split
      · exact hs
      · exact hl _
    · exact hs
  obtain ⟨F, e, h⟩ := e
  rw [e]
  exact h

@[simp] theorem regClear_mem (s : State) (a m : Nat) : (regClear s a m).mem = s.mem := by
  apply regClear_ind (P := fun t => t.mem = s.mem) a m
  · rfl
  · intro v; rfl
  · intro x; rfl
  · intro x; rfl

@[simp] theorem regRead_mem (s : State) (pa size : Nat) : (regRead s pa size).2.mem = s.mem := by
  rw [regRead, regClear_mem]

@[simp] theorem replayRestart_mem (s : State) (cid : Nat) : (replayRestart s cid).mem = s.mem := by
  unfold replayRestart
  rw [foldl_mem _ fun _ _ => due_mem _ _, foldl_mem _ fun _ _ => setSl_mem _ _ _]

/-- What a write of a register does. -/
theorem regWrite_ind {P : State → Prop} {s : State} (who : Writer) (pa size v : Nat) (hs : P s) (hr : ∀ a v, P (setReg s a v))
    (ht : ∀ x i, P (due { s with trigs := x } i)) (hc : ∀ x i, P (due { s with cmd := x } i)) (hd : ∀ i, P (due s i))
    (hw : ∀ a v i, P (due (setReg s a v) i)) (hp : ∀ a v c, P (replayRestart (setReg s a v) c)) : P (regWrite s who pa size v) := by
  have e : ∃ F, @regWrite = F ∧ P (F s who pa size v) := by
    refine ⟨_, by delta regWrite; exact rfl, ?_⟩
    generalize regAt = at_
    extract_lets +onlyGivenNames a bits w m old new
    split
    · exact hs
    · split
      · exact ht _ _
      · split
        · exact hs
        · split
          · exact hr _ _
          · exact hc _ _
      · exact hw _ _ _
      · exact hw _ _ _
      · split
        · exact hd _
        · split
          · exact hd _
          · exact hs
      · split
        · exact hd _
        · exact hs
      · split
        · exact hs
        · exact hr _ _
      · split
        · exact hd _
        · exact hs
      · exact hp _ _ _
      · exact hr _ _
  obtain ⟨F, e, h⟩ := e
  rw [e]
  exact h

@[simp] theorem regWrite_mem (s : State) (who : Writer) (pa size v : Nat) : (regWrite s who pa size v).mem = s.mem := by
  apply regWrite_ind (P := fun t => t.mem = s.mem) who pa size v
  case hp => intro a v c; simp
  all_goals intros; rfl

@[simp] theorem mapWait_mem (s : State) (p : Place) (g : Wait → Wait) : (mapWait s p g).mem = s.mem := by
  unfold mapWait
  simp

@[simp] theorem wakeWait_mem (s : State) (p : Place) (t : Wait → Bool) : (wakeWait s p t).mem = s.mem := by
  unfold wakeWait
  simp

@[simp] theorem dropOp_mem (s : State) (p : Place) : (dropOp s p).mem = s.mem := rfl

@[simp] theorem logRef_mem (s : State) (p : Place) (r : RegRef) : (logRef s p r).mem = s.mem := by
  unfold logRef
  split <;> rfl

@[simp] theorem inject_mem (s : State) (p : Place) (f : Fibre) (o : Opnd) (n : Nat) (vs : List (Nat × Nat)) :
    (inject s p f o n vs).2.mem = s.mem := by
  unfold inject
  dsimp only
  split
  · cases o with
    | v k => simp
    | s k => simp
    | sp r => rfl
  · rfl

@[simp] theorem putRef_mem (s : State) (r : RegRef) (vs : List (Nat × Nat)) (sh : Nat) : (putRef s r vs sh).mem = s.mem := by
  unfold putRef
  (repeat' split) <;> simp

@[simp] theorem putRefs_mem (s : State) (o : Opnd) (n : Nat) (rs : List RegRef) (vs : List (Nat × Nat)) : (putRefs s o n rs vs).mem = s.mem := by
  unfold putRefs
  simp

@[simp] theorem logOpnd_mem (s : State) (p : Place) (o : Opnd) (n : Nat) : (logOpnd s p o n).mem = s.mem := by
  unfold logOpnd
  split
  · rfl
  · exact foldl_mem _ (fun t r => logRef_mem t p r) s

@[simp] theorem writeReg_mem (s : State) (p : Place) (o : Opnd) (n : Nat) (vs : List (Nat × Nat)) (log : Bool) :
    (writeReg s p o n vs log).mem = s.mem := by
  unfold writeReg
  split
  · simp
  · rfl

@[simp] theorem wf_fetchPart (s : State) (p : Place) (f : Fibre) (fresh : Bool) (va : Nat) (h : Memory.wf s.mem = true) :
    Memory.wf (fetchPart s p f fresh va).2.mem = true := by
  unfold fetchPart
  dsimp only
  (repeat' split) <;> simp [h]

@[simp] theorem wf_fetchParts (s : State) (p : Place) (f : Fibre) (fresh : Bool) (n va : Nat) (acc : List Byte) (h : Memory.wf s.mem = true) :
    Memory.wf (fetchParts s p f fresh n va acc).2.mem = true := by
  induction n generalizing s va acc with
  | zero => exact h
  | succ k ih =>
    unfold fetchParts
    dsimp only
    split <;> simp [h, ih]

@[simp] theorem wf_fetchNew (s : State) (p : Place) (f : Fibre) (fresh : Bool) (h : Memory.wf s.mem = true) :
    Memory.wf (fetchNew s p f fresh).2.mem = true := by
  unfold fetchNew
  split <;> simp [h]

@[simp] theorem wf_fetchWord (s : State) (p : Place) (f : Fibre) (fresh : Bool) (h : Memory.wf s.mem = true) :
    Memory.wf (fetchWord s p f fresh).2.mem = true := by
  unfold fetchWord
  split
  · split <;> simp [h]
  · simp [h]

@[simp] theorem readied_mem (s t : State) (core berth : Nat) : (readied s t core berth).mem = t.mem :=
  foldl_mem _ (fun u _ => mem_ite (modF_mem u _ _) rfl) t

@[simp] theorem passBerth_mem (s : State) (core berth : Nat) : (passBerth s core berth).mem = s.mem := by
  unfold passBerth
  dsimp only
  split <;> simp

@[simp] theorem stall_mem (s : State) (p : Place) (h : Hdr) : (stall s p h).mem = s.mem := by
  unfold stall
  simp

@[simp] theorem readyNow_mem (s : State) (p : Place) : (readyNow s p).mem = s.mem := by
  unfold readyNow
  simp

@[simp] theorem secondary_mem (s : State) (cid : Nat) (r : Record) : (secondary s cid r).mem = s.mem := by
  unfold secondary
  simp

@[simp] theorem wf_toResident (s : State) (p : Place) (f : Fibre) (fi : FaultInfo) (nest : Bool) (h : Memory.wf s.mem = true) :
    Memory.wf (toResident s p f fi nest).mem = true := by
  unfold toResident
  simp [h]

@[simp] theorem enterHandler_mem (s : State) (p : Place) (f : Fibre) (fi : FaultInfo) (addr arg : DWord) : (enterHandler s p f fi addr arg).mem = s.mem := rfl

@[simp] theorem wf_deliverFault (s : State) (p : Place) (f : Fibre) (fi : FaultInfo) (h : Memory.wf s.mem = true) :
    Memory.wf (deliverFault s p f fi).mem = true := by
  unfold deliverFault
  simp [h]

@[simp] theorem wf_haltRec (s : State) (p : Place) (f : Fibre) (state : Nat) (aux data addr : Nat) (pc : DWord) (h : Memory.wf s.mem = true) :
    Memory.wf (haltRec s p f state aux data addr pc).mem = true := by
  unfold haltRec
  simp [h]

@[simp] theorem wf_raise (s : State) (p : Place) (fi : FaultInfo) (h : Memory.wf s.mem = true) :
    Memory.wf (raise s p fi).mem = true := by
  unfold raise
  split <;> simp [h]

@[simp] theorem spanFault_mem (s : State) (p : Place) (cls : Nat) : (spanFault s p cls).mem = s.mem := by
  unfold spanFault
  simp

@[simp] theorem wf_commitFault (s : State) (p : Place) (f : Fibre) (fi : FaultInfo) (h : Memory.wf s.mem = true) :
    Memory.wf (commitFault s p f fi).mem = true := by
  unfold commitFault
  split <;> simp [h]

@[simp] theorem wf_faultAt (s : State) (p : Place) (x : Bool) (fi : FaultInfo) (h : Memory.wf s.mem = true) :
    Memory.wf (faultAt s p x fi).mem = true := by
  unfold faultAt
  split <;> simp [h]

@[simp] theorem wf_issueFault (s : State) (p : Place) (x : Bool) (cls : Nat) (dst : Option (Opnd × Nat)) (addrs : List (Nat × Nat)) (h : Memory.wf s.mem = true) :
    Memory.wf (issueFault s p x cls dst addrs).mem = true := by
  unfold issueFault
  split <;> simp [h]

@[simp] theorem restoreUndo_mem (s : State) (us : List UndoEnt) : (restoreUndo s us).mem = s.mem :=
  foldl_mem _ (fun t e => by
    split
    · rfl
    · split <;> rfl
    · split <;> rfl) s

@[simp] theorem dropPends_mem (s : State) (p : Place) : (dropPends s p).mem = s.mem := by
  unfold dropPends
  split <;> rfl

@[simp] theorem grantBlock_mem (s : State) (core berth slot : Nat) : (grantBlock s core berth slot).mem = s.mem := by
  unfold grantBlock
  dsimp only
  (repeat' split) <;> simp

@[simp] theorem undoBlocks_mem (s : State) (p : Place) (root : Nat) (l : List (Nat × Bool)) : (undoBlocks s p root l).2.mem = s.mem := by
  unfold undoBlocks
  refine foldl_snd_mem l (fun r e => ?_) ([], s)
  simp

@[simp] theorem rollback_mem (s : State) (p : Place) : (rollback s p).mem = s.mem := by
  unfold rollback
  split <;> simp

end Sys2Proof.Machine
end

section
/-! PROOFS. The same for the home, the release of held stores, commits and the gate. -/

namespace Sys2Proof.Machine

@[simp] theorem fillTlb_mem (s : State) (p : Place) (f : Fibre) (cid : Nat) (ls : List OpLane) : (fillTlb s p f cid ls).mem = s.mem := by
  unfold fillTlb
  refine foldl_mem _ (fun t vpn => ?_) s
  split
  · exact mem_ite rfl rfl
  · rfl

@[simp] theorem askWalks_mem (s : State) (p : Place) (cid : Nat) (ms : List Nat) : (askWalks s p cid ms).mem = s.mem := by
  unfold askWalks
  simp

@[simp] theorem sendParts_mem (s : State) (core : Nat) : (sendParts s core).mem = s.mem := by
  unfold sendParts
  simp

@[simp] theorem portWrite_mem (s : State) (core pa : Nat) : (drainPort.portWrite s core pa).mem = s.mem := rfl

@[simp] theorem wf_drainPort (s : State) (core : Nat) (h : Memory.wf s.mem = true) : Memory.wf (drainPort s core).mem = true := by
  unfold drainPort
  refine wf_foldl_mem _ (fun t e ht => ?_) s h
  split
  · simp [wf_writeBack, ht]
  · exact ht

@[simp] theorem wf_startDrains (s : State) (core : Nat) (sc : Scope) (h : Memory.wf s.mem = true) :
    Memory.wf (startDrains s core sc).mem = true := by
  cases sc <;> simp [startDrains, h]

@[simp] theorem modG_mem (s : State) (g : Nat) (h : Group → Group) : (modG s g h).mem = s.mem := by
  unfold modG
  split <;> rfl

/-- The state of a release, whatever comes of it. -/
def Rel.state : Rel → State
  | .done s => s
  | .wait s => s
  | .stop s _ _ _ => s

@[simp] theorem Rel.state_done (s : State) : (Rel.done s).state = s := by rw [Rel.state]

@[simp] theorem Rel.state_wait (s : State) : (Rel.wait s).state = s := by rw [Rel.state]

@[simp] theorem Rel.state_stop (s : State) (c l v : Nat) : (Rel.stop s c l v).state = s := by rw [Rel.state]

/-- What the release of one lane of a store can do. -/
theorem releaseStore_ind {P : Rel → Prop} {s : State} {p : Place} {f : Fibre} {e : HoldEnt} {l : HoldLane}
    (hstop : ∀ c k va, P (.stop s c k va)) (hbusy : P (.wait s)) (hreg : ∀ pa n v, P (.done (regWrite s .priv pa n v)))
    (hown : ∀ pa cp off b w, P (.done (storeOwned s p.core (lineNo pa) cp off b w)))
    (hreq : ∀ pa op w, P (.wait (sendReq s p.core (cidOf s f) pa op (.hold p) (fibTag s p f) w))) : P (releaseStore s p f e l) := by
  unfold releaseStore
  extract_lets +onlyGivenNames cid core x ask c l
  split
  · exact hstop _ _ _
  · split
    · exact hstop _ _ _
    · split
      · split
        · exact hstop _ _ _
        · split
          · exact hbusy
          · exact hreg _ _ _
      · split
        · split
          · split
            · exact hown _ _ _ _ _
            · exact hreq _ _ _
          · exact hreq _ _ _
        · exact hreq _ _ _

@[simp] theorem releaseStore_mem (s : State) (p : Place) (f : Fibre) (e : HoldEnt) (l : HoldLane) :
    (releaseStore s p f e l).state.mem = s.mem := by
  apply releaseStore_ind (P := fun r => r.state.mem = s.mem)
  case hreg => intro pa n v; rw [Rel.state_done, regWrite_mem]
  all_goals intros; simp

@[simp] theorem wakeMbar_mem (mode : TlbiMode) (b : DWord) (s : State) (p : Place) : (wakeMbar mode b s p).mem = s.mem := by
  unfold wakeMbar
  split <;> simp

@[simp] theorem doTlbi_mem (s : State) (core : Nat) (sc : Scope) (mode : TlbiMode) (a b : DWord) : (doTlbi s core sc mode a b).mem = s.mem := by
  unfold doTlbi
  simp

theorem startTlbi_ind {P : State → Prop} {s : State} (hP : ∀ t : State, t.mem = s.mem → P t) (p : Place) (sc : Scope) (mode : TlbiMode)
    (a b : DWord) : P (startTlbi s p sc mode a b) := by
  unfold startTlbi
  extract_lets +onlyGivenNames t n u
  have hu : u.mem = s.mem := by
    dsimp only [u, t]
    simp
  split
  · exact hP _ ((foldl_mem_of _ (fun t m => ⟨_, rfl, sendReq_mem ..⟩) _).trans hu)
  · exact hP _ hu

@[simp] theorem startTlbi_mem (s : State) (p : Place) (sc : Scope) (mode : TlbiMode) (a b : DWord) :
    (startTlbi s p sc mode a b).mem = s.mem :=
  startTlbi_ind (P := fun t => t.mem = s.mem) (fun _ h => h) p sc mode a b

@[simp] theorem numberHead_mem (s : State) (p : Place) (e : HoldEnt) : (numberHead s p e).2.mem = s.mem := by
  unfold numberHead
  simp

/-- A release step keeps memory in its form; said for a predicate, since the address tests in it must not be evaluated. -/
theorem releaseHead_ind {P : Rel → Prop} {s : State} (h : Memory.wf s.mem = true) (hP : ∀ r : Rel, Memory.wf r.state.mem = true → P r)
    (p : Place) (f : Fibre) (e : HoldEnt) : P (releaseHead s p f e) := by
  have hdone (t : State) (ht : Memory.wf t.mem = true) : P (.done t) := hP _ (by rwa [Rel.state_done])
  have hwait (t : State) (ht : Memory.wf t.mem = true) : P (.wait t) := hP _ (by rwa [Rel.state_wait])
  unfold releaseHead
  extract_lets +onlyGivenNames trailer lane1
  split
  · exact hdone _ (by rwa [modG_mem])
  · exact hdone _ (by rwa [modG_mem])
  · exact hdone _ (by rwa [modG_mem])
  · split
    · exact hdone _ h
    · split
      · exact hwait _ (wf_startDrains _ _ _ h)
      · split
        · exact hdone _ h
        · exact hP _ (by rwa [releaseStore_mem, numberHead_mem])
  · split
    · exact hdone _ h
    · refine hdone _ (wf_foldl_mem _ (fun t l ht => ?_) s h)
      have ha := wf_accessNow t p.core (cidOf t f) l.va (Ask.store 1) ht
      dsimp only
      split
      · exact ha
      · split
        · split
          · exact wf_takeBack _ _ _ _ (by simpa using ha)
          · simpa using ha
        · exact ha
  · split
    · exact hdone _ h
    · split
      · dsimp only
        split
        · exact hwait _ (by rwa [startTlbi_mem])
        · exact hdone _ (by rwa [startTlbi_mem])
      · dsimp only
        split
        · exact hwait _ h
        · exact hdone _ h
  · split
    · exact hdone _ (wf_trace _ _ _ _ h)
    · exact hdone _ h
  · split
    · exact hdone _ h
    · split
      · exact hwait _ h
      · exact hdone _ (by rwa [foldl_mem_of _ fun t l => ⟨_, rfl, regWrite_mem ..⟩])
  · split
    · exact hdone _ h
    · exact hdone _ (wf_postFibre _ _ _ _ h)

theorem wf_releaseHead (s : State) (p : Place) (f : Fibre) (e : HoldEnt) (h : Memory.wf s.mem = true) :
    Memory.wf (releaseHead s p f e).state.mem = true :=
  releaseHead_ind (P := fun r => Memory.wf r.state.mem = true) h (fun _ hr => hr) p f e

@[simp] theorem wakeProm_mem (s : State) (core : Nat) : (wakeProm s core).mem = s.mem :=
  foldl_mem _ (fun t _ => due_mem t _) s

@[simp] theorem wf_releaseGo (s : State) (p : Place) (h : Memory.wf s.mem = true) : Memory.wf (releaseGo s p).mem = true := by
  unfold releaseGo
  split
  · exact h
  next f _ =>
    split
    · exact h
    · split
      · exact h
      next e _ _ =>
        have hr := wf_releaseHead s p f e h
        split
        next t ht => simp_all
        next t ht => simp_all
        next t c l v ht => simp_all

@[simp] theorem wf_afterCommit (s : State) (p : Place) (edge : Bool) (h : Memory.wf s.mem = true) :
    Memory.wf (afterCommit s p edge).mem = true := by
  unfold afterCommit
  dsimp only
  (repeat' split) <;> simp [h]

@[simp] theorem dualEnd_mem (s : State) (p : Place) (f : Fibre) (d : Dual) : (dualEnd s p f d).mem = s.mem := by
  unfold dualEnd
  simp

/-- The state that a gate lets through or holds. -/
def Gate.state : Gate → State
  | .go s => s
  | .held s => s

@[simp] theorem Gate.state_go (s : State) : (Gate.go s).state = s := rfl

@[simp] theorem Gate.state_held (s : State) : (Gate.held s).state = s := rfl

@[simp] theorem dualGate_mem (s : State) (p : Place) (i : Instr) : (dualGate s p i).state.mem = s.mem := by
  unfold dualGate
  (repeat' split) <;> simp

@[simp] theorem startCommit_mem (s : State) (p : Place) (f : Fibre) : (startCommit s p f).mem = s.mem := by
  unfold startCommit
  simp

@[simp] theorem wf_commitStep (s : State) (p : Place) (edge : Bool) (h : Memory.wf s.mem = true) :
    Memory.wf (commitStep s p edge).2.mem = true := by
  unfold commitStep
  split
  · exact h
  next f _ =>
    split
    · exact h
    · split
      · split
        · simpa using h
        · simp [h]
      · have hg : Memory.wf (releaseGo (if f.committing then s else startCommit s p f) p).mem = true := by simp [h]
        dsimp only
        split
        · split
          · exact wf_afterCommit _ _ _ hg
          · exact hg
        · exact hg

@[simp] theorem wf_commitThen (s : State) (p : Place) (i : Instr) (h : Memory.wf s.mem = true) :
    Memory.wf (commitThen s p i).state.mem = true := by
  unfold commitThen
  extract_lets edge
  have hc := wf_commitStep s p edge h
  split
  next t hs =>
    rw [hs] at hc
    exact hc
  next t hs =>
    rw [hs] at hc
    split
    · split
      · simpa using hc
      · exact hc
    · exact hc

@[simp] theorem stallHeld_mem (f : Fibre) (h : Hdr) (s : State) (p : Place) : (stallHeld f h s p).mem = s.mem := by
  unfold stallHeld
  split <;> simp

@[simp] theorem takeTwin_mem (s : State) (p : Place) (cls : Nat) : (takeTwin s p cls).mem = s.mem := by
  unfold takeTwin
  simp

theorem ready_ind {P : Gate → Prop} {s : State} (h : Memory.wf s.mem = true) (hP : ∀ r : Gate, Memory.wf r.state.mem = true → P r) (i : Instr) :
    P (ready i s) := by
  have hheld (t : State) (ht : Memory.wf t.mem = true) : P (.held t) := hP (.held t) ht
  have hc := wf_commitThen s s.here i h
  have hgo (t : State) (ht : commitThen s s.here i = .go t) : Memory.wf t.mem = true := by
    rw [ht] at hc
    exact hc
  have hheld' (t : State) (ht : commitThen s s.here i = .held t) : Memory.wf t.mem = true := by
    rw [ht] at hc
    exact hc
  have hstall (t : State) (k : Hdr) (ht : Memory.wf t.mem = true) : P (.held (stall t s.here k)) := hheld _ (by rwa [stall_mem])
  unfold ready
  extract_lets +onlyGivenNames p
  split
  · split
    · exact hheld _ h
    · split
      · exact hheld _ (by rwa [dueOnce_mem])
      · split
        · exact hheld _ (by rwa [takeTwin_mem])
        · split
          · exact hP (.go s) h
          · split
            · split
              next t ht => exact hheld _ (hgo t ht)
              next t ht => exact hheld _ (by rw [stallHeld_mem]; exact hheld' t ht)
            · split
              · exact hstall _ _ h
              · extract_lets +onlyGivenNames found c
                split
                · split
                  · exact hstall _ _ (by rwa [modF_mem])
                  · exact hheld _ (wf_issueFault _ _ _ _ _ _ h)
                · split
                  · exact hstall _ _ h
                  · split
                    · split
                      next t ht => exact hP (.go t) (hgo t ht)
                      next t ht => exact hheld _ (by rw [stallHeld_mem]; exact hheld' t ht)
                    · exact hP (.go s) h
  · exact hheld _ h

@[simp] theorem wf_ready (i : Instr) (s : State) (h : Memory.wf s.mem = true) : Memory.wf (ready i s).state.mem = true :=
  ready_ind (P := fun r => Memory.wf r.state.mem = true) h (fun _ hr => hr) i

@[simp] theorem wf_stepRec (s : State) (p : Place) (f : Fibre) (h : Memory.wf s.mem = true) :
    Memory.wf (stepRec s p f).mem = true := by
  unfold stepRec
  simp [h]

@[simp] theorem wf_settleHalt (s : State) (p : Place) (h : Memory.wf s.mem = true) :
    Memory.wf (settleHalt s p).mem = true := by
  unfold settleHalt
  split <;> simp [h]

@[simp] theorem noteIssue_mem (s : State) (p : Place) (ipc : DWord) : (noteIssue s p ipc).mem = s.mem := rfl

@[simp] theorem wf_retireAt (s : State) (p : Place) (ipc pc : DWord) (x : Bool) (rot : Bool) (h : Memory.wf s.mem = true) :
    Memory.wf (retireAt s p ipc pc x rot).mem = true := by
  unfold retireAt
  split <;> simp [h]

@[simp] theorem wf_retire (s : State) (p : Place) (pc : DWord) (x : Bool) (h : Memory.wf s.mem = true) :
    Memory.wf (retire s p pc x).mem = true := by
  unfold retire
  split <;> simp [h]

@[simp] theorem wf_next (s : State) (p : Place) (h : Memory.wf s.mem = true) :
    Memory.wf (next s p).mem = true := by
  unfold next
  split <;> simp [h]

@[simp] theorem wf_nextX (s : State) (p : Place) (h : Memory.wf s.mem = true) :
    Memory.wf (nextX s p).mem = true := by
  unfold nextX
  split <;> simp [h]

@[simp] theorem wf_goTo (s : State) (p : Place) (tgt : DWord) (h : Memory.wf s.mem = true) :
    Memory.wf (goTo s p tgt).mem = true := by
  unfold goTo
  split <;> simp [h]

@[simp] theorem setWait_mem (s : State) (p : Place) (w : Wait) : (setWait s p w).mem = s.mem := by
  unfold setWait
  simp

@[simp] theorem settle_mem (s : State) (p : Place) : (settle s p).mem = s.mem := by
  unfold settle
  split <;> simp

@[simp] theorem block_mem (s : State) (p : Place) (w : Wait) : (block s p w).mem = s.mem := by
  unfold block
  simp

@[simp] theorem setWaitX_mem (s : State) (p : Place) (w : Wait) : (setWaitX s p w).mem = s.mem := by
  unfold setWaitX
  simp

@[simp] theorem tellTasks_mem (s : State) : (tellTasks s).mem = s.mem :=
  foldl_mem _ (fun t _ => mem_ite (due_mem t _) rfl) s

@[simp] theorem wf_queueCheck (s : State) (cid hpa major : Nat) (h : Memory.wf s.mem = true) :
    Memory.wf (queueCheck s cid hpa major).2.mem = true := by
  unfold queueCheck
  extract_lets +onlyGivenNames ok judge
  have hj (t : State) : (judge t).2 = t := by
    dsimp only [judge]
    split
    · split <;> rfl
    · rfl
  have hr := wf_readRun s 2 hpa 128 h
  split
  · rwa [hj]
  · dsimp only
    split
    · exact hr
    · split
      · exact hr
      next t ht => rwa [hj, mem_of_openQueue ht]

@[simp] theorem wf_queueOp (s : State) (cid hpa clk major : Nat) (rcd : Record) (core : Nat) (sy : Option Scope) (h : Memory.wf s.mem = true) :
    Memory.wf (queueOp s cid hpa clk major rcd core sy).2.mem = true := by
  unfold queueOp
  extract_lets +onlyGivenNames ans c
  have hc : Memory.wf c.2.mem = true := wf_queueCheck _ _ _ _ h
  split
  · exact hc
  · extract_lets +onlyGivenNames t
    split
    · exact hc
    · split
      · exact hc
      · split
        · exact hc
        next t ht => rwa [tellTasks_mem, mem_of_placeRec ht]
    · split
      · exact hc
      · split
        · exact hc
        next t ht => rwa [tellTasks_mem, mem_of_placeRec ht]
    · split
      · exact hc
      next e t ht =>
        have hm := mem_of_takeRec ht
        dsimp only at hm ⊢
        rwa [hm]

@[simp] theorem depArrive_mem (s : State) (pa clk qpa : Nat) (rcd : Record) (run : Option Nat) (sy : Option (Nat × Scope)) :
    (depArrive s pa clk qpa rcd run sy).2.mem = s.mem := by
  unfold depArrive
  extract_lets +onlyGivenNames c ans
  split
  · rfl
  · split
    · rfl
    next t ht => rw [tellTasks_mem, mem_of_placeRec ht]

@[simp] theorem wf_depDecrement (s : State) (pa clk : Nat) (h : Memory.wf s.mem = true) : Memory.wf (depDecrement s pa clk).2.mem = true := by
  have hw (b : List Byte) := wf_homeWrite s pa clk b 0 h
  unfold depDecrement
  extract_lets +onlyGivenNames line c
  split
  · exact h
  · split
    · exact h
    · dsimp only
      split
      · rw [tellTasks_mem, releaseHeld_mem]
        exact hw _
      · exact hw _

@[simp] theorem wf_mbarOp' (s : State) (pa clk : Nat) (op : HomeOp) (h : Memory.wf s.mem = true) :
    Memory.wf (mbarOp s pa clk op).2.mem = true := wf_mbarOp s pa clk op h

@[simp] theorem countLog_mem (s : State) (cid k : Nat) : (countLog s cid k).mem = s.mem := rfl

@[simp] theorem wf_logServed (s : State) (r : Req) (k : Nat) (h : Memory.wf s.mem = true) :
    Memory.wf (logServed s r k).mem = true := by
  unfold logServed
  (repeat' split) <;> simp [h]

@[simp] theorem wf_mayServe (s : State) (r : Req) (h : Memory.wf s.mem = true) :
    Memory.wf (mayServe s r).2.mem = true := by
  unfold mayServe
  dsimp only
  (repeat' split) <;> simp [h]

@[simp] theorem wf_countServed (s : State) (r : Req) (h : Memory.wf s.mem = true) :
    Memory.wf (countServed s r).mem = true := by
  unfold countServed
  dsimp only
  (repeat' split) <;> simp [h]

@[simp] theorem wf_perform (s : State) (r : Req) (h : Memory.wf s.mem = true) : Memory.wf (perform s r).2.mem = true := by
  unfold perform
  extract_lets +onlyGivenNames line
  split
  · dsimp only
    split <;> exact wf_homeLease _ _ _ _ h
  · exact wf_homeOwn _ _ _ _ h
  · exact wf_homeRead _ _ h
  · exact wf_homeWrite _ _ _ _ _ h
  · exact wf_homeAtomicOp _ _ _ _ _ _ _ _ _ h
  · rwa [homePart_mem]
  · exact wf_homeRead _ _ h
  · exact wf_mbarOp _ _ _ _ (wf_collect _ _ h)
  · exact wf_mbarOp _ _ _ _ (wf_collect _ _ h)
  · exact wf_mbarOp _ _ _ _ (wf_collect _ _ h)
  · exact wf_queueOp _ _ _ _ _ _ _ _ h
  · exact wf_depDecrement _ _ _ (wf_collect _ _ h)
  next q rcd run _ =>
    extract_lets +onlyGivenNames c
    have hc : Memory.wf c.2.mem = true := by
      dsimp only [c]
      split
      · exact h
      · exact wf_queueCheck _ _ _ _ h
    split
    · exact hc
    · rw [depArrive_mem]
      exact wf_collect _ _ hc
  · exact h
  · exact h

@[simp] theorem wake_mem (s : State) (r : Req) : (wake s r).mem = s.mem := rfl

@[simp] theorem wakeLine_mem (s : State) (line : Nat) : (wakeLine s line).mem = s.mem := foldl_mem _ (fun t r => wake_mem t r) s

@[simp] theorem wakeSlice_mem (s : State) (k cid : Nat) : (wakeSlice s k cid).mem = s.mem := foldl_mem _ (fun t r => wake_mem t r) s

@[simp] theorem putLeased_mem (s : State) (core line : Nat) (a : Answer) : (putLeased s core line a).mem = s.mem := by
  unfold putLeased
  (repeat' split) <;> simp

@[simp] theorem fillPend_mem (s : State) (r : Req) (a : Answer) (id : Nat) : (fillPend s r a id).mem = s.mem := by
  unfold fillPend
  dsimp only
  (repeat' split) <;> simp

@[simp] theorem wf_deliverHold (s : State) (r : Req) (a : Answer) (p : Place) (h : Memory.wf s.mem = true) :
    Memory.wf (deliverHold s r a p).mem = true := by
  unfold deliverHold
  split <;> simp [h]

@[simp] theorem seeAnswer_mem (s : State) (core : Nat) (a : Answer) : (seeAnswer s core a).mem = s.mem := by
  unfold seeAnswer
  simp

@[simp] theorem deliverOp_mem (s : State) (r : Req) (a : Answer) (p : Place) : (deliverOp s r a p).mem = s.mem := by
  unfold deliverOp
  dsimp only
  (repeat' split) <;> simp

@[simp] theorem wf_parkFault (s : State) (p : Place) (f : Fibre) (line cls : Nat) (h : Memory.wf s.mem = true) :
    Memory.wf (parkFault s p f line cls).mem = true := by
  unfold parkFault
  dsimp only
  split <;> simp [h]

@[simp] theorem wf_deliverPark (s : State) (r : Req) (a : Answer) (p : Place) (h : Memory.wf s.mem = true) :
    Memory.wf (deliverPark s r a p).mem = true := by
  unfold deliverPark
  split <;> simp [h]

@[simp] theorem wakeCmds_mem (s : State) (core : Nat) : (wakeCmds s core).mem = s.mem := foldl_mem _ (fun t _ => mem_ite (due_mem t _) rfl) s

@[simp] theorem wakeFar_mem (s : State) (o : Nat) : (wakeFar s o).mem = s.mem := by
  unfold wakeFar
  split
  · rfl
  · split
    · rfl
    · split
      · rfl
      · split
        · exact foldl_mem _ (fun t r => wake_mem t r) s
        · simp

@[simp] theorem engWritten_mem (s : State) (id va cls : Nat) : (engWritten s id va cls).mem = s.mem := by
  unfold engWritten
  simp

@[simp] theorem doneWritten_mem (s : State) (cid inst addr cls : Nat) : (doneWritten s cid inst addr cls).mem = s.mem := by
  unfold doneWritten
  simp

@[simp] theorem saveWritten_mem (s : State) (g va cls : Nat) : (saveWritten s g va cls).mem = s.mem := by
  unfold saveWritten
  simp

@[simp] theorem wf_deliver (s : State) (r : Req) (a : Answer) (h : Memory.wf s.mem = true) : Memory.wf (deliver s r a).mem = true := by
  unfold deliver
  extract_lets +onlyGivenNames t
  have ht : Memory.wf t.mem = true := by
    dsimp only [t]
    split
    · rwa [cross_mem]
    · exact h
  split <;> simp [ht]

@[simp] theorem wf_answer (s : State) (r : Req) (a : Answer) (h : Memory.wf s.mem = true) : Memory.wf (answer s r a).mem = true := by
  unfold answer
  split
  · rwa [sendPacket_mem]
  · split
    · exact h
    · exact wf_deliver s r a h

@[simp] theorem wf_arrive (s : State) (id : Nat) (h : Memory.wf s.mem = true) : Memory.wf (arrive s id).mem = true := by
  unfold arrive
  split
  · exact h
  next x rest _ =>
    extract_lets +onlyGivenNames t u
    have hu : Memory.wf u.mem = true := wf_deliver t _ _ h
    rwa [foldl_mem _ fun t _ => mem_ite (due_mem t _) rfl]

@[simp] theorem wf_serveNow (s : State) (r : Req) (h : Memory.wf s.mem = true) : Memory.wf (serveNow s r).mem = true := by
  unfold serveNow
  extract_lets +onlyGivenNames t k a u v w x y
  have hu : Memory.wf u.mem = true := wf_logServed _ _ _ (wf_perform _ _ (wf_countServed _ _ h))
  have hv : v.mem = u.mem := by
    dsimp only [v]
    split
    · exact mem_ite rfl rfl
    · exact mem_ite rfl rfl
    · exact mem_ite rfl rfl
    · exact mem_ite rfl rfl
    · exact mem_ite rfl rfl
    · rfl
  have hw : Memory.wf w.mem = true := wf_answer _ _ _ (by rwa [hv])
  have hy : Memory.wf y.mem = true := by
    dsimp only [y]
    rw [wakeLine_mem]
    dsimp only [x]
    split
    · rwa [pulse_mem]
    · exact hw
  split
  · rwa [wakeSlice_mem]
  · exact hy

@[simp] theorem wf_serveTlbi (s : State) (r : Req) (mode : TlbiMode) (a b : DWord) (h : Memory.wf s.mem = true) :
    Memory.wf (serveTlbi s r mode a b).mem = true := by
  unfold serveTlbi
  extract_lets +onlyGivenNames first t since u
  have hu : Memory.wf u.mem = true := by
    dsimp only [u, t]
    split
    · rwa [doTlbi_mem]
    · exact h
  split
  · exact hu
  · exact wf_serveNow _ _ hu

@[simp] theorem wf_serveReq (s : State) (id : Nat) (h : Memory.wf s.mem = true) : Memory.wf (serveReq s id).mem = true := by
  unfold serveReq
  split
  · exact h
  next r _ =>
    extract_lets +onlyGivenNames line hm
    split
    · exact wf_serveTlbi _ _ _ _ _ h
    · split
      · exact h
      · extract_lets +onlyGivenNames m
        have hms : Memory.wf m.2.mem = true := wf_mayServe s r h
        split
        · exact hms
        · extract_lets +onlyGivenNames src t
          have ht : Memory.wf t.mem = true := hms
          split
          · exact ht
          · split
            · exact ht
            · exact wf_serveNow _ _ ht

@[simp] theorem recallAt_mem (s : State) (id : Nat) : (recallAt s id).mem = s.mem := by
  unfold recallAt
  split <;> simp

@[simp] theorem wf_recallDone (s : State) (id : Nat) (h : Memory.wf s.mem = true) : Memory.wf (recallDone s id).mem = true := by
  unfold recallDone
  split
  · exact h
  next c rest _ =>
    extract_lets +onlyGivenNames t src u
    have ht : Memory.wf t.mem = true := by
      dsimp only [t]
      split
      · exact h
      · exact wf_takeBack _ _ _ _ h
    split
    · exact wf_serveReq _ _ ht
    · rwa [wakeLine_mem]

@[simp] theorem wf_serveProm (s : State) (id : Nat) (h : Memory.wf s.mem = true) : Memory.wf (serveProm s id).mem = true := by
  unfold serveProm
  split
  · exact h
  next r _ =>
    split
    next v sc _ =>
      split
      · exact h
      · extract_lets +onlyGivenNames releasing t
        have ht : Memory.wf t.mem = true := wf_startDrains _ _ _ (by rwa [sendParts_mem])
        split
        · exact h
        · split
          · exact wf_serveNow _ _ ht
          · exact ht
    · exact h

end Sys2Proof.Machine
end

section
/-! PROOFS. The same for pieces, branches, regions, and what instructions share. -/

namespace Sys2Proof.Machine

@[simp] theorem orphan_mem (s : State) (p : Place) : (orphan s p).mem = s.mem := rfl

@[simp] theorem goneParent_mem (s : State) (core berth root c : Nat) : (goneParent s core berth root c).mem = s.mem := by
  unfold goneParent
  simp

@[simp] theorem copyFull_mem (s : State) (p q : Place) : (copyFull s p q).mem = s.mem := rfl

@[simp] theorem divide_mem (s : State) (p : Place) (tk : Mask) (tgt fall : DWord) (tok : BitVec 5) : (divide s p tk tgt fall tok).mem = s.mem := by
  unfold divide
  dsimp only
  (repeat' split) <;> simp

@[simp] theorem wf_commitPiece (s : State) (q : Place) (h : Memory.wf s.mem = true) :
    Memory.wf (commitPiece s q).2.mem = true := by
  unfold commitPiece
  split <;> simp [h]

@[simp] theorem wf_commitPieces (s : State) (qs : List Place) (h : Memory.wf s.mem = true) : Memory.wf (commitPieces s qs).2.mem = true :=
  wf_foldl_snd_mem qs (g := fun r q => let x := commitPiece r.2 q; (r.1 && x.1, x.2)) (fun r q hr => wf_commitPiece r.2 q hr) (true, s) h

@[simp] theorem mergeJoin_mem (s : State) (p : Place) (root id : Nat) (jpc : DWord) : (mergeJoin s p root id jpc).mem = s.mem := by
  unfold mergeJoin
  extract_lets +onlyGivenNames a
  clear_value a
  cases a with
  | nil => rfl
  | cons e l =>
    dsimp -zeta only
    extract_lets +onlyGivenNames kp keep
    clear_value keep
    cases getF s keep.1 with
    | none => rfl
    | some f =>
      dsimp -zeta only
      extract_lets +onlyGivenNames mask cur splits others holds undo count apart m come union entry blk src span t
      have ht : t.mem = s.mem := foldl_mem _ (fun u e => by
        split
        · rfl
        · split <;> simp) s
      clear_value t
      extract_lets
      exact (setF_mem _ _ _).trans ht

@[simp] theorem mergeAll_mem (s : State) (p : Place) (root : Nat) : (mergeAll s p root).mem = s.mem := by
  unfold mergeAll
  exact foldl_mem _ (fun t e => mem_ite (mergeJoin_mem ..) rfl) s

@[simp] theorem wf_joinStep (s : State) (p : Place) (root : Nat) (h : Memory.wf s.mem = true) : Memory.wf (joinStep s p root).mem = true := by
  unfold joinStep
  refine wf_foldl_mem _ (fun t e ht => ?_) s h
  dsimp only
  split
  · exact ht
  · split
    · exact wf_commitPieces _ _ ht
    · rwa [mergeJoin_mem]

@[simp] theorem releaseBlocks_mem (s : State) (core berth root : Nat) : (releaseBlocks s core berth root).mem = s.mem := by
  unfold releaseBlocks
  simp

@[simp] theorem fbarCheck_mem (s : State) (core berth : Nat) : (fbarCheck s core berth).mem = s.mem := by
  unfold fbarCheck
  refine foldl_mem _ (fun t e => ?_) s
  dsimp only
  split
  · refine (foldl_mem _ (fun u r => foldl_mem _ (fun v q => wakeWait_mem v q _) u) _).trans ?_
    split
    · rw [pulse_mem, setB_mem]
    · rw [setB_mem]
  · rfl

@[simp] theorem fbarArrive_mem (s : State) (p : Place) (root : Nat) (m : BitVec 8) : (fbarArrive s p root m).mem = s.mem := by
  unfold fbarArrive
  simp

@[simp] theorem wf_barComplete (s : State) (gid b : Nat) (h : Memory.wf s.mem = true) : Memory.wf (barComplete s gid b).mem = true := by
  unfold barComplete
  split
  · exact h
  · dsimp only
    split
    · rw [foldl_mem _ fun t q => wakeWait_mem t q _, modG_mem, pulse_mem]
      split
      · exact wf_trace _ _ _ _ h
      · exact h
    · exact h

@[simp] theorem noteStop_mem (s : State) (gid : Nat) : (noteStop s gid).mem = s.mem := by
  unfold noteStop
  split <;> simp

@[simp] theorem wf_barArrive (s : State) (p : Place) (f : Fibre) (b n : Nat) (pc : DWord) (h : Memory.wf s.mem = true) :
    Memory.wf (barArrive s p f b n pc).mem = true := by
  unfold barArrive
  split
  · exact h
  · extract_lets +onlyGivenNames x r folds x1 t u
    have hu : Memory.wf u.mem = true := by
      dsimp only [u, t]
      rw [modG_mem, foldl_mem _ fun v q => ?_]
      · exact h
      · split
        · rfl
        · rw [wakeWait_mem, mapWait_mem, foldl_mem _ fun w d => writeReg_mem ..]
    rw [noteStop_mem]
    split
    · exact hu
    · exact wf_barComplete _ _ _ hu

@[simp] theorem wf_familyArrives (s : State) (p : Place) (root : Nat) (h : Memory.wf s.mem = true) :
    Memory.wf (familyArrives s p root).mem = true := by
  unfold familyArrives
  split
  · exact h
  · split
    · split
      · rwa [fbarArrive_mem]
      · exact h
    · split
      · exact wf_barArrive _ _ _ _ _ _ h
      · exact h
    · exact h

@[simp] theorem wf_barsCheck (s : State) (gid : Nat) (h : Memory.wf s.mem = true) : Memory.wf (barsCheck s gid).mem = true := by
  unfold barsCheck
  split
  · exact h
  · exact wf_foldl_mem _ (fun t b => wf_barComplete t gid b) s h

@[simp] theorem groupEnd_mem (s : State) (gid : Nat) : (groupEnd s gid).mem = s.mem := by
  unfold groupEnd
  simp

@[simp] theorem wf_afterEnd (s : State) (p : Place) (root gid : Nat) (h : Memory.wf s.mem = true) : Memory.wf (afterEnd s p root gid).mem = true := by
  have hf : Memory.wf (familyArrives (mergeAll s p root) p root).mem = true := wf_familyArrives _ _ _ (by rwa [mergeAll_mem])
  unfold afterEnd
  dsimp only
  rw [groupEnd_mem]
  refine wf_barsCheck _ _ ?_
  rw [fbarCheck_mem]
  split
  · rwa [releaseBlocks_mem]
  · exact hf

@[simp] theorem wf_endPiece (s : State) (p : Place) (f : Fibre) (pc : DWord) (h : Memory.wf s.mem = true) :
    Memory.wf (endPiece s p f pc).mem = true := by
  unfold endPiece
  dsimp only
  rw [passBerth_mem]
  refine wf_afterEnd _ _ _ _ ?_
  rw [setB_mem, goneParent_mem]
  exact h

@[simp] theorem zeroBlock_mem (s : State) (d : BitVec 1024) (core berth root k : Nat) : (zeroBlock s d core berth root k).mem = s.mem := by
  unfold zeroBlock
  simp

@[simp] theorem zeroPrivate_mem (s : State) (d : BitVec 1024) (core berth root : Nat) : (zeroPrivate s d core berth root).mem = s.mem := by
  unfold zeroPrivate
  simp

@[simp] theorem wf_targetFault (s : State) (f : Fibre) (t : DWord) (h : Memory.wf s.mem = true) :
    Memory.wf (targetFault s f t).mem = true := by
  unfold targetFault
  simp [h]

@[simp] theorem wf_branchTo (s : State) (f : Fibre) (t : DWord) (before : State → State)
    (h : Memory.wf s.mem = true) (hb : ∀ u, (before u).mem = u.mem) : Memory.wf (branchTo s f t before).mem = true := by
  unfold branchTo
  split
  · exact wf_targetFault _ _ _ h
  · exact wf_goTo _ _ _ (by rwa [hb])

@[simp] theorem linkTo_mem (f : Fibre) (s : State) : (linkTo f s).mem = s.mem := by
  unfold linkTo
  simp

@[simp] theorem spawnRegs_mem (s : State) (f : Fibre) (c : Nat) (blk : Opnd) : (spawnRegs s f c blk).mem = s.mem := by
  unfold spawnRegs
  split <;> rfl

@[simp] theorem wf_blockFault (s : State) (f : Fibre) (h : Hdr) (slot : BitVec 4) (hm : Memory.wf s.mem = true) :
    Memory.wf (blockFault s f h slot).mem = true := by
  unfold blockFault
  split
  · rwa [stall_mem]
  · exact wf_issueFault _ _ _ _ _ _ hm

@[simp] theorem noteBlk_mem (s : State) (p : Place) (slot : Nat) (took : Bool) : (noteBlk s p slot took).mem = s.mem := by
  unfold noteBlk
  simp

@[simp] theorem wf_xFault (s : State) (f : Fibre) (dst : Option (Opnd × Nat)) (cls acc : Nat) (mask : Mask) (addrs : List (Nat × Nat)) (h : Memory.wf s.mem = true) :
    Memory.wf (xFault s f dst cls acc mask addrs).mem = true := by
  unfold xFault
  simp [h]

@[simp] theorem wf_trapFault (s : State) (f : Fibre) (mask : Mask) (code : BitVec 16) (h : Memory.wf s.mem = true) :
    Memory.wf (trapFault s f mask code).mem = true := by
  unfold trapFault
  simp [h]

@[simp] theorem sendPend_mem (s : State) (f : Fibre) (d : Opnd) (n : Nat) (t : Ty) (vs : List (Nat × Nat)) : (sendPend s f d n t vs).2.mem = s.mem := by
  unfold sendPend
  simp

@[simp] theorem addPend_mem (r : Pend × State) : (addPend r).mem = r.2.mem := by
  unfold addPend
  simp

@[simp] theorem holdPut_mem (s : State) (p : Place) (e : HoldEnt) : (holdPut s p e).mem = s.mem := by
  unfold holdPut
  simp

@[simp] theorem wf_result (s : State) (f : Fibre) (h : Hdr) (d : Opnd) (n : Nat) (t : Ty) (g : Nat → Nat)
    (hm : Memory.wf s.mem = true) : Memory.wf (result s f h d n t g).mem = true :=
  wf_next _ _ (by rwa [writeReg_mem])

@[simp] theorem wf_alu1 (s : State) (f : Fibre) (x : Op1) (g : Nat → Nat) (h : Memory.wf s.mem = true) :
    Memory.wf (alu1 s f x g).mem = true := wf_result s _ _ _ _ _ _ h

@[simp] theorem wf_alu2 (s : State) (f : Fibre) (x : Op2) (g : Nat → Nat → Nat) (h : Memory.wf s.mem = true) :
    Memory.wf (alu2 s f x g).mem = true := wf_result s _ _ _ _ _ _ h

@[simp] theorem wf_alu3 (s : State) (f : Fibre) (x : Op3) (t : Ty) (g : Nat → Nat → Nat → Nat) (h : Memory.wf s.mem = true) :
    Memory.wf (alu3 s f x t g).mem = true := wf_result s _ _ _ _ _ _ h

@[simp] theorem wf_completeFault (s : State) (f : Fibre) (dst : Option (Opnd × Nat)) (cls : Nat) (mask : Mask) (h : Memory.wf s.mem = true) :
    Memory.wf (completeFault s f dst cls mask).mem = true := by
  unfold completeFault
  simp [h]

@[simp] theorem wf_divide2 (s : State) (f : Fibre) (x : Op2) (g : Nat → Nat → Nat) (h : Memory.wf s.mem = true) :
    Memory.wf (divide2 s f x g).mem = true := by
  unfold divide2
  dsimp only
  split
  · exact wf_completeFault _ _ _ _ _ (by rwa [writeReg_mem])
  · exact wf_alu2 s f x g h

@[simp] theorem wf_longResult (s : State) (f : Fibre) (h : Hdr) (d : Opnd) (n : Nat) (t : Ty) (g : Nat → Nat)
    (hm : Memory.wf s.mem = true) : Memory.wf (longResult s f h d n t g).mem = true := by
  unfold longResult
  split
  · exact wf_next _ _ hm
  · exact wf_next _ _ (by rwa [addPend_mem, sendPend_mem])

@[simp] theorem wf_fresult (s : State) (f : Fibre) (h : Hdr) (d : Opnd) (g : Nat → Nat × Bool) (hm : Memory.wf s.mem = true) :
    Memory.wf (fresult s f h d g).mem = true := by
  unfold fresult
  dsimp only
  split
  · exact wf_completeFault _ _ _ _ _ (by rwa [writeReg_mem])
  · exact wf_result _ _ _ _ _ _ _ hm

@[simp] theorem wf_flong (s : State) (f : Fibre) (h : Hdr) (d : Opnd) (t : Ty) (g : Nat → Nat × Bool) (hm : Memory.wf s.mem = true) :
    Memory.wf (flong s f h d t g).mem = true := by
  unfold flong
  split
  · exact wf_next _ _ hm
  · refine wf_next _ _ ?_
    rw [addPend_mem]
    dsimp only
    rwa [sendPend_mem]

@[simp] theorem wf_special (s : State) (f : Fibre) (fn : SFun) (x : Op1) (r : Rnd) (h : Memory.wf s.mem = true) :
    Memory.wf (special s f fn x r).mem = true := wf_flong _ _ _ _ _ _ h

end Sys2Proof.Machine
end

section
/-! PROOFS. The same for memory instructions, engines, matrix commands and launches. -/

namespace Sys2Proof.Machine

@[simp] theorem wf_accessFault (s : State) (f : Fibre) (h : Hdr) (lane x : Bool) (dst : Option (Opnd × Nat)) (acc : Nat)
    (bad : List (Nat × Nat × Nat)) (hm : Memory.wf s.mem = true) : Memory.wf (accessFault s f h lane x dst acc bad).mem = true := by
  unfold accessFault
  split
  · exact hm
  · exact wf_faultAt _ _ _ _ hm

@[simp] theorem wf_watchFault (s : State) (f : Fibre) (h : Hdr) (lane x : Bool) (dst : Option (Opnd × Nat)) (acc : Nat)
    (ws : List (Nat × Nat)) (hm : Memory.wf s.mem = true) : Memory.wf (watchFault s f h lane x dst acc ws).mem = true := by
  unfold watchFault
  extract_lets +onlyGivenNames r src fi t
  refine wf_faultAt _ _ _ _ ?_
  dsimp only [t]
  split
  · exact hm
  · rwa [modF_mem]

@[simp] theorem markAcq_mem (s : State) (p : Place) : (markAcq s p).mem = s.mem := by
  unfold markAcq
  split <;> rfl

@[simp] theorem sendLine_mem (s : State) (core line : Nat) : (sendLine s core line).mem = s.mem := by
  unfold sendLine
  dsimp only
  split <;> simp

@[simp] theorem askLine_mem (f : Fibre) (core id : Nat) (s : State) (l : OpLane) : (askLine f core id s l).mem = s.mem := by
  unfold askLine
  simp

@[simp] theorem spinNudge_mem (s : State) (p : Place) (f : Fibre) : (spinNudge s p f).mem = s.mem := by
  unfold spinNudge
  simp

@[simp] theorem endSpin_mem (s : State) (p : Place) : (endSpin s p).mem = s.mem := by
  unfold endSpin
  simp

@[simp] theorem countSpin_mem (s : State) (p : Place) (ls : List OpLane) (allHit : Bool) : (countSpin s p ls allHit).mem = s.mem := by
  unfold countSpin
  split <;> simp

@[simp] theorem bumpLoad_mem (s : State) (p : Place) : (bumpLoad s p).mem = s.mem := by
  unfold bumpLoad
  simp

@[simp] theorem wf_issueLoad (s : State) (f : Fibre) (x : MemOp) (lane : Bool) (ls : List OpLane) (bad : List (Nat × Nat × Nat))
    (h : Memory.wf s.mem = true) : Memory.wf (issueLoad s f x lane ls bad).mem = true := by
  unfold issueLoad
  extract_lets +onlyGivenNames p n acq seq vas r src q lead t u
  have ht : t.mem = s.mem := by
    dsimp only [t, r]
    split
    · rw [bumpLoad_mem, sendPend_mem]
    · rw [sendPend_mem]
  have hu : u.mem = s.mem := by
    dsimp only [u]
    split
    · split
      · rwa [addPend_mem]
      · exact ht
    · rwa [addPend_mem]
  refine wf_next _ _ ?_
  split
  · rwa [markAcq_mem, hu]
  · rwa [hu]

@[simp] theorem wf_loadG (s : State) (f : Fibre) (x : MemOp) (h : Memory.wf s.mem = true) : Memory.wf (loadG s f x).mem = true := by
  unfold loadG
  extract_lets +onlyGivenNames p lane n ls sc
  have hsc (t : State) : (sc t).mem = t.mem := by
    dsimp only [sc]
    split
    · rw [modF_mem]
    · rfl
  split
  · rwa [stall_mem]
  · split
    · refine wf_next _ _ ?_
      split
      · rwa [markAcq_mem, hsc]
      · exact h
    · extract_lets +onlyGivenNames src r waits t
      have ht : Memory.wf t.mem = true := by
        dsimp only [t]
        rwa [hsc, fillTlb_mem]
      split
      · rwa [stall_mem, askWalks_mem]
      · split
        · exact wf_accessFault _ _ _ _ _ _ _ _ h
        · split
          · rwa [stall_mem]
          · split
            · exact wf_issueLoad _ _ _ _ _ _ ht
            · exact ht

@[simp] theorem beginWith_mem (s : State) (f : Fibre) (ls : List OpLane) (bad : List (Nat × Nat)) : (beginWith s f ls bad).mem = s.mem := rfl

@[simp] theorem beginOp_mem (s : State) (f : Fibre) (ls : List OpLane) : (beginOp s f ls).mem = s.mem := rfl

@[simp] theorem ownDone_mem (s : State) (f : Fibre) (got : List (Nat × Nat)) (aux : Nat) : (ownDone s f got aux).mem = s.mem := by
  unfold ownDone
  split <;> simp

@[simp] theorem opWait_mem (s : State) (h : Hdr) : (opWait s h).mem = s.mem := by
  unfold opWait
  simp

@[simp] theorem opSend_mem (s : State) (f : Fibre) (pa : Nat) (op : HomeOp) (stamp : Nat) (sy : Option Scope) : (opSend s f pa op stamp sy).mem = s.mem := by
  unfold opSend
  simp

@[simp] theorem setSc_mem (s : State) (o : Order) : (setSc s o).mem = s.mem := by
  unfold setSc
  simp

@[simp] theorem logLate_mem (s : State) (p : Place) (o : Opnd) (n : Nat) : (logLate s p o n).mem = s.mem := by
  unfold logLate
  split <;> rfl

@[simp] theorem wf_loadSc (s : State) (f : Fibre) (x : MemOp) (h : Memory.wf s.mem = true) : Memory.wf (loadSc s f x).mem = true := by
  unfold loadSc
  extract_lets +onlyGivenNames p lane n ls fin
  have hfin (t : State) (vs : List (Nat × Nat)) (ht : Memory.wf t.mem = true) : Memory.wf (fin t vs).mem = true := by
    dsimp -zeta only [fin]
    extract_lets +onlyGivenNames u v
    have hv : Memory.wf v.mem = true := by
      dsimp only [v, u]
      rw [setSc_mem, writeReg_mem, logLate_mem]
      split
      · rwa [bumpLoad_mem]
      · exact ht
    split
    · exact wf_nextX _ _ hv
    · exact wf_watchFault _ _ _ _ _ _ _ _ hv
  clear_value fin
  split
  · extract_lets +onlyGivenNames src r
    split
    · rwa [stall_mem, askWalks_mem]
    · split
      · exact wf_accessFault _ _ _ _ _ _ _ _ h
      · split
        · split
          · exact hfin _ _ h
          · rwa [stall_mem]
        · rwa [beginWith_mem, fillTlb_mem]
  · split
    · rwa [opWait_mem]
    · split
      · rw [stall_mem]
        exact wf_startDrains _ _ _ h
      · split
        · split
          · rwa [setF_mem]
          · split
            · extract_lets +onlyGivenNames v
              rw [setF_mem]
              dsimp only [v]
              rwa [regRead_mem]
            · rwa [opSend_mem, endSpin_mem, sendLine_mem]
        · split
          · exact wf_nextX _ _ (by rwa [setSc_mem])
          · split
            · exact wf_accessFault _ _ _ _ _ _ _ _ h
            · exact hfin _ _ (by rwa [modF_mem])

@[simp] theorem relStore_mem (s : State) (p : Place) (o : Order) : (relStore s p o).mem = s.mem := by
  unfold relStore
  simp

@[simp] theorem wf_storeG (s : State) (f : Fibre) (x : MemOp) (h : Memory.wf s.mem = true) : Memory.wf (storeG s f x).mem = true := by
  unfold storeG
  extract_lets +onlyGivenNames p lane n ls
  split
  · refine wf_next _ _ ?_
    split
    · exact h
    · rwa [holdPut_mem, relStore_mem]
  · extract_lets +onlyGivenNames r t
    have ht : Memory.wf t.mem = true := by
      dsimp only [t]
      rwa [holdPut_mem, relStore_mem, fillTlb_mem]
    split
    · rwa [stall_mem, askWalks_mem]
    · split
      · exact wf_accessFault _ _ _ _ _ _ _ _ h
      · split
        · exact wf_next _ _ ht
        · exact wf_watchFault _ _ _ _ _ _ _ _ ht

@[simp] theorem wf_storeSc (s : State) (f : Fibre) (x : MemOp) (h : Memory.wf s.mem = true) : Memory.wf (storeSc s f x).mem = true := by
  unfold storeSc
  extract_lets +onlyGivenNames p lane n ls fin
  have hfin (t : State) (ht : Memory.wf t.mem = true) : Memory.wf (fin t).mem = true := by
    dsimp -zeta only [fin]
    extract_lets +onlyGivenNames u v
    have hv : Memory.wf v.mem = true := by
      dsimp only [v, u]
      rw [setSc_mem, ownDone_mem]
      split
      · exact ht
      · rwa [pulse_mem]
    split
    · exact wf_nextX _ _ hv
    · exact wf_watchFault _ _ _ _ _ _ _ _ hv
  clear_value fin
  split
  · extract_lets +onlyGivenNames r s'
    split
    · rwa [stall_mem, askWalks_mem]
    · split
      · exact wf_accessFault _ _ _ _ _ _ _ _ h
      · split
        · exact hfin _ h
        · rw [modF_mem]
          dsimp only [s']
          rwa [beginOp_mem, fillTlb_mem]
  next o _ =>
    split
    · rwa [opWait_mem]
    · split
      · rw [stall_mem]
        exact wf_startDrains _ _ _ h
      · split
        · extract_lets +onlyGivenNames b pop
          have hpop (t : State) : (pop t).mem = t.mem := modF_mem _ _ _
          split
          · split
            · rwa [stall_mem]
            · rwa [hpop, regWrite_mem]
          · split
            · split
              · split
                · rwa [hpop, storeOwned_mem]
                · rwa [opSend_mem]
              · rwa [opSend_mem]
            · rwa [opSend_mem]
        · split
          · exact hfin _ h
          · exact wf_accessFault _ _ _ _ _ _ _ _ h

theorem performLane_mem (f : Fibre) (q : Pend) (r : Perform) (l : OpLane) : (performLane f q r l).s.mem = r.s.mem := by
  unfold performLane
  extract_lets +onlyGivenNames line src later
  split
  · rfl
  · split
    · rfl
    · split
      · rfl
      · split
        · exact seeTide_mem _ _ _
        · exact askLine_mem _ _ _ _ _

theorem performLanes_mem (f : Fibre) (q : Pend) (ls : List OpLane) (r : Perform) : (ls.foldl (performLane f q) r).s.mem = r.s.mem := by
  induction ls generalizing r with
  | nil => rfl
  | cons l ls ih => exact (ih _).trans (performLane_mem f q r l)

theorem readRegs_mem (q : Pend) (s : State) : (performLoad.readRegs q s).2.mem = s.mem := by
  unfold performLoad.readRegs
  split
  · rfl
  · split
    · rfl
    · refine foldl_snd_mem _ (fun r l => ?_) _
      dsimp only
      rw [regRead_mem]

@[simp] theorem performLoad_mem (s : State) (p : Place) (f : Fibre) (q : Pend) : (performLoad s p f q).2.mem = s.mem := by
  unfold performLoad
  extract_lets +onlyGivenNames spins t r u
  split
  · rfl
  · have hr : r.s.mem = s.mem := by
      dsimp only [r]
      rw [performLanes_mem]
      dsimp only [t]
      split
      · rw [spinNudge_mem]
      · rfl
    rw [readRegs_mem]
    dsimp only [u]
    split
    · exact hr
    · rwa [countSpin_mem]

@[simp] theorem wf_touch (s : State) (f : Fibre) (h : Hdr) (cpol : CPol) (base : Opnd) (off : Src) (len : Nat) (hm : Memory.wf s.mem = true) :
    Memory.wf (touch s f h cpol base off len).mem = true := by
  unfold touch
  extract_lets +onlyGivenNames p r ls t
  split
  · rwa [stall_mem, askWalks_mem]
  · refine wf_next _ _ ?_
    rw [foldl_mem_of _ fun u line => ⟨_, rfl, ?_⟩]
    · rwa [fillTlb_mem]
    · split
      · rfl
      · split
        · exact seeTide_mem _ _ _
        · rw [sendReq_mem, sendLine_mem]

@[simp] theorem contributeLane_mem (core cop n : Nat) (s : State) (l : OpLane) : (contributeLane core cop n s l).mem = s.mem := by
  unfold contributeLane
  dsimp only
  split <;> simp

@[simp] theorem wf_contributeAll (s : State) (f : Fibre) (h : Hdr) (t : Ty) (cop : Nat) (data base : Opnd) (off : Src)
    (hm : Memory.wf s.mem = true) : Memory.wf (contributeAll s f h t cop data base off).mem = true := by
  unfold contributeAll
  extract_lets +onlyGivenNames p lane n ls src r u v w
  have hv : v.mem = s.mem := by
    dsimp only [v]
    split
    · exact fillTlb_mem _ _ _ _ _
    · exact (foldl_mem _ (fun t l => contributeLane_mem _ _ _ t _) u).trans (fillTlb_mem _ _ _ _ _)
  have hw : Memory.wf w.mem = true := by
    dsimp only [w]
    rw [ownDone_mem]
    split
    · rwa [hv]
    · rwa [pulse_mem, hv]
  split
  · rwa [stall_mem, askWalks_mem]
  · split
    · exact wf_accessFault _ _ _ _ _ _ _ _ hm
    · split
      · exact wf_nextX _ _ hw
      · exact wf_watchFault _ _ _ _ _ _ _ _ hw

@[simp] theorem wf_atomFin (s : State) (f : Fibre) (x : AtomOp) (ls got bad : List (Nat × Nat)) (h : Memory.wf s.mem = true) :
    Memory.wf (atomFin s f x ls got bad).mem = true := by
  unfold atomFin
  extract_lets +onlyGivenNames p lane got' t u
  have hu : Memory.wf u.mem = true := by
    dsimp only [u, t]
    rwa [setSc_mem, ownDone_mem, writeReg_mem]
  split
  · exact wf_raise _ _ _ hu
  · split
    · exact wf_nextX _ _ hu
    · exact wf_watchFault _ _ _ _ _ _ _ _ hu

@[simp] theorem wf_atomStep (s : State) (f : Fibre) (x : AtomOp) (c : Option Opnd) (major : Nat) (h : Memory.wf s.mem = true) :
    Memory.wf (atomStep s f x c major).mem = true := by
  unfold atomStep
  extract_lets +onlyGivenNames p lane n ls cOf
  split
  · extract_lets +onlyGivenNames r
    split
    · rwa [stall_mem, askWalks_mem]
    · split
      · exact wf_accessFault _ _ _ _ _ _ _ _ h
      · split
        · exact wf_atomFin _ _ _ _ _ _ h
        · rwa [beginOp_mem, fillTlb_mem]
  · split
    · rwa [opWait_mem]
    · split
      · rw [stall_mem]
        exact wf_startDrains _ _ _ h
      · split
        · rwa [opSend_mem]
        · exact wf_atomFin _ _ _ _ _ _ h

@[simp] theorem countDone_mem (s : State) (p : Place) (c : OcClass) (fail : Option EngFail) : (countDone s p c fail).mem = s.mem := by
  unfold countDone
  dsimp only
  split <;> simp

@[simp] theorem countCmds_mem (n : Nat) (s : State) (core berth fib : Nat) (cls : OcClass) :
    (countCmds n s core berth fib cls).mem = s.mem := by
  induction n generalizing s with
  | zero => rfl
  | succ n ih =>
    unfold countCmds
    split
    · rfl
    · extract_lets +onlyGivenNames fail follows t u v
      have hv : v.mem = s.mem := by
        have hu : u.mem = s.mem := by
          dsimp only [u]
          split
          · rw [pulse_mem]
          · rfl
        dsimp only [v]
        split
        · rwa [countDone_mem]
        · exact hu
      split
      · rfl
      · rwa [ih]

@[simp] theorem finishCmd_mem (s : State) (id : Nat) (fail : Option Nat) : (finishCmd s id fail).mem = s.mem := rfl

@[simp] theorem completeCmd_mem (s : State) (id : Nat) : (completeCmd s id).mem = s.mem := by
  unfold completeCmd
  split
  · rfl
  · dsimp only
    rw [foldl_mem _ fun t d => groupEnd_mem t _, groupEnd_mem, foldl_mem _ fun t d => countCmds_mem _ t _ _ _ _, countCmds_mem]

@[simp] theorem wf_sendRun (s : State) (core cid va n : Nat) (h : Memory.wf s.mem = true) : Memory.wf (sendRun s core cid va n).mem = true := by
  unfold sendRun
  split
  · exact h
  · refine wf_foldl_mem _ (fun t i ht => ?_) s h
    have hx := wf_xlatNow t core cid ((va / 128 + i) * 128) ht
    dsimp only
    split
    · exact wf_flushPart _ _ _ hx
    · exact hx

@[simp] theorem wf_lineNow (s : State) (core cid pa : Nat) (h : Memory.wf s.mem = true) :
    Memory.wf (lineNow s core cid pa).2.mem = true := by
  unfold lineNow
  dsimp only
  split <;> simp [h, wf_homeLease, wf_recallNow]

@[simp] theorem wf_engLine (s : State) (owner core cid : Nat) (pol : CPol) (va n : Nat) (h : Memory.wf s.mem = true) :
    Memory.wf (engLine s owner core cid pol va n).2.mem = true := by
  unfold engLine
  simp [h, wf_readNow]

@[simp] theorem wf_engLines (fuel : Nat) (s : State) (owner core cid : Nat) (pol : CPol) (va n : Nat) (h : Memory.wf s.mem = true) :
    Memory.wf (engLines fuel s owner core cid pol va n).2.2.mem = true := by
  induction fuel generalizing s va n with
  | zero => exact h
  | succ fuel ih =>
    unfold engLines
    split
    · exact h
    · extract_lets +onlyGivenNames k g
      have hg : Memory.wf g.2.mem = true := wf_engLine _ _ _ _ _ _ _ h
      split
      · extract_lets +onlyGivenNames r
        have hr : Memory.wf r.2.2.mem = true := ih _ _ _ hg
        split <;> exact hr
      · exact hg

@[simp] theorem wf_engLoad (s : State) (owner core cid : Nat) (pol : CPol) (va n : Nat) (h : Memory.wf s.mem = true) :
    Memory.wf (engLoad s owner core cid pol va n).2.2.mem = true := wf_engLines _ s owner core cid pol va n h

@[simp] theorem wf_engRead (s : State) (c : Cmd) (va n : Nat) (h : Memory.wf s.mem = true) :
    Memory.wf (engRead s c va n).2.2.mem = true := wf_engLoad _ _ _ _ _ _ _ h

@[simp] theorem wf_ownStore (s : State) (core pa : Nat) (bytes : List Byte) (stamp : Nat) (h : Memory.wf s.mem = true) :
    Memory.wf (ownStore s core pa bytes stamp).mem = true := by
  unfold ownStore
  dsimp only
  split <;> simp [h, wf_homeOwn, wf_recallNow]

@[simp] theorem wf_engWrite (s : State) (c : Cmd) (va : Nat) (bytes : List Byte) (h : Memory.wf s.mem = true) :
    Memory.wf (engWrite s c va bytes).2.mem = true := by
  unfold engWrite
  simp [h, wf_writeNow]

@[simp] theorem wf_runBad (k : Nat) (s : State) (c : Cmd) (va n : Nat) (h : Memory.wf s.mem = true) :
    Memory.wf (runBad k s c va n).2.2.mem = true := by
  induction k generalizing s va n with
  | zero => exact h
  | succ k ih =>
    unfold runBad
    split
    · exact h
    · extract_lets +onlyGivenNames a m g
      have ha : Memory.wf a.2.2.mem = true := wf_accessNow _ _ _ _ _ h
      have hg : Memory.wf g.2.mem = true := by
        dsimp only [g]
        rw [farGet_mem]
        exact wf_sendRun _ _ _ _ _ ha
      split
      · exact ha
      · split
        · exact ha
        · split
          · exact ih _ _ _ ha
          · split
            · split
              · exact ha
              · exact ih _ _ _ ha
            · split
              · exact ih _ _ _ hg
              · exact hg

@[simp] theorem scratchWr_mem (s : State) (gid x : Nat) (bytes : List Byte) : (scratchWr s gid x bytes).mem = s.mem := by
  unfold scratchWr
  (repeat' split) <;> simp

@[simp] theorem wakeChan_mem (s : State) (core ch : Nat) : (wakeChan s core ch).mem = s.mem := by
  unfold wakeChan
  refine foldl_mem _ (fun t e => ?_) s
  split
  · split
    · rw [wakeWait_mem]
    · rfl
  · rfl

@[simp] theorem addCount_mem (s : State) (core gid ch n : Nat) : (addCount s core gid ch n).mem = s.mem := by
  unfold addCount
  extract_lets +onlyGivenNames one t
  have h1 (u : State) (c : Nat) : (one u c).mem = u.mem := by
    dsimp only [one]
    rw [wakeChan_mem, setC_mem]
  have ht : t.mem = s.mem := h1 s core
  split
  · split
    · rwa [h1]
    · exact ht
  · exact ht

@[simp] theorem popChan_mem (s : State) (core ch : Nat) : (popChan s core ch).mem = s.mem := by
  unfold popChan
  simp

@[simp] theorem setCmd_mem (s : State) (id : Nat) (g : Cmd → Cmd) : (setCmd s id g).mem = s.mem := rfl

@[simp] theorem wf_copyUnit (s : State) (core ch : Nat) (h : Memory.wf s.mem = true) : Memory.wf (copyUnit s core ch).mem = true := by
  unfold copyUnit
  split
  · exact h
  next id _ _ =>
    split
    · rwa [popChan_mem]
    next c _ =>
      extract_lets +onlyGivenNames total u ga xa abandon ok
      have hab (t : State) (va : Nat) : (abandon t va).mem = t.mem := by
        dsimp only [abandon]
        rw [popChan_mem, finishCmd_mem, addCount_mem]
      have hok (t : State) : (ok t).mem = t.mem := by
        dsimp only [ok]
        split
        · rw [popChan_mem, finishCmd_mem, setCmd_mem]
        · rw [due_mem, setCmd_mem]
      clear_value abandon ok
      split
      · rwa [popChan_mem, finishCmd_mem, addCount_mem]
      · split
        · extract_lets +onlyGivenNames w
          have hw : Memory.wf w.2.mem = true := wf_engWrite _ _ _ _ h
          split
          · rwa [hab]
          · rwa [hok, addCount_mem]
        · extract_lets +onlyGivenNames r
          have hr : Memory.wf r.2.2.mem = true := wf_engRead _ _ _ _ h
          split
          · rwa [hok, addCount_mem, scratchWr_mem]
          · rwa [hab]
          · rwa [setCmd_mem]

@[simp] theorem popGath_mem (s : State) (core : Nat) : (popGath s core).mem = s.mem := by
  unfold popGath
  simp

@[simp] theorem wf_gathUnit (s : State) (c : Cmd) (k : Nat) (h : Memory.wf s.mem = true) : Memory.wf (gathUnit s c k).2.2.mem = true := by
  unfold gathUnit
  extract_lets +onlyGivenNames l u xa ga w r
  split
  · exact wf_engWrite _ _ _ _ h
  · have hr : Memory.wf r.2.2.mem = true := wf_engRead _ _ _ _ h
    split
    · rwa [scratchWr_mem]
    · exact hr

@[simp] theorem wf_gathBad (s : State) (c : Cmd) (h : Memory.wf s.mem = true) : Memory.wf (gathBad s c).2.2.mem = true := by
  have key (ls : List (Nat × Nat)) (g : List (Nat × Nat) × Bool × State → Nat × Nat → List (Nat × Nat) × Bool × State)
      (hg : ∀ r l, Memory.wf r.2.2.mem = true → Memory.wf (g r l).2.2.mem = true) (r : List (Nat × Nat) × Bool × State)
      (hr : Memory.wf r.2.2.mem = true) : Memory.wf (ls.foldl g r).2.2.mem = true := by
    induction ls generalizing r with
    | nil => exact hr
    | cons l ls ih => exact ih _ (hg r l hr)
  unfold gathBad
  refine key _ _ (fun r l hr => ?_) _ h
  have hb := wf_runBad (c.nb / 128 + 2) r.2.2 c l.2 c.nb hr
  dsimp only
  split <;> exact hb

@[simp] theorem wf_gathRow (n : Nat) (s : State) (c : Cmd) (k : Nat) (h : Memory.wf s.mem = true) : Memory.wf (gathRow n s c k).mem = true := by
  induction n generalizing s c with
  | zero => exact h
  | succ n ih =>
    have hu := wf_gathUnit s c k h
    unfold gathRow
    dsimp only
    split
    · exact ih _ _ hu
    · exact hu

@[simp] theorem wf_gatherHead (s : State) (core : Nat) (moved : Mask) (h : Memory.wf s.mem = true) :
    Memory.wf (gatherHead s core moved).mem = true := by
  unfold gatherHead
  split
  · exact h
  next id _ _ =>
    split
    · rwa [popGath_mem]
    next c _ =>
      extract_lets +onlyGivenNames t done r
      have hdone (t : State) (bad : Option Nat) : (done t bad).mem = t.mem := by
        dsimp only [done]
        rw [popGath_mem, finishCmd_mem]
      have ht : Memory.wf t.mem = true := by
        dsimp only [t]
        rwa [setCmd_mem]
      have hr : Memory.wf r.2.2.mem = true := by
        dsimp only [r]
        split
        · exact ht
        · exact wf_gathBad _ _ ht
      clear_value t done r
      split
      · rwa [hdone]
      · split
        · exact hr
        · split
          · extract_lets +onlyGivenNames go
            rw [hdone]
            exact wf_foldl_mem _ (fun u k hu => wf_gathRow _ u _ k hu) _ hr
          · split
            · rwa [hdone]
            next k _ =>
              extract_lets +onlyGivenNames g
              have hg : Memory.wf g.2.2.mem = true := wf_gathUnit _ _ _ hr
              clear_value g
              split
              · rwa [hdone]
              · exact hg
              · dsimp only
                split
                · rwa [hdone, setCmd_mem]
                · rwa [due_mem, setCmd_mem]

@[simp] theorem wf_engineFault (s : State) (f : Fibre) (cls : Nat) (mask : Mask) (addrs : List (Nat × Nat)) (h : Memory.wf s.mem = true) :
    Memory.wf (engineFault s f cls mask addrs).mem = true := by
  unfold engineFault
  simp [h]

@[simp] theorem addCmd_mem (s : State) (c : Cmd) : (addCmd s c).mem = s.mem := by
  unfold addCmd
  simp

@[simp] theorem followCmd_mem (s : State) (f : Fibre) (cls : OcClass) (id : Nat) : (followCmd s f cls id).mem = s.mem := by
  unfold followCmd
  simp

@[simp] theorem wf_noCmd (s : State) (f : Fibre) (h : Memory.wf s.mem = true) :
    Memory.wf (noCmd s f).mem = true := by
  unfold noCmd
  simp [h]

@[simp] theorem wf_issueCmd (s : State) (f : Fibre) (c : Cmd) (start : State → State) (h : Memory.wf s.mem = true)
    (hs : ∀ t, (start t).mem = t.mem) : Memory.wf (issueCmd s f c start).mem = true :=
  wf_nextX _ _ (by rwa [hs, addCmd_mem, ownDone_mem])

@[simp] theorem wf_gatherCmd (s : State) (f : Fibre) (h : Hdr) (cpol : CPol) (out : Bool) (a b c : Opnd) (hm : Memory.wf s.mem = true) :
    Memory.wf (gatherCmd s f h cpol out a b c).mem = true := by
  unfold gatherCmd
  extract_lets +onlyGivenNames p ls sa nb rows bad
  split
  · exact wf_nextX _ _ (by rwa [followCmd_mem])
  · split
    · exact wf_engineFault _ _ _ _ _ hm
    · split
      · exact wf_engineFault _ _ _ _ _ hm
      · split
        · exact wf_engineFault _ _ _ _ _ hm
        · split
          · exact wf_noCmd _ _ hm
          · split
            · rwa [stall_mem]
            · refine wf_issueCmd _ _ _ _ hm fun t => ?_
              dsimp only
              split
              · rw [due_mem, setC_mem]
              · rw [setC_mem]

@[simp] theorem bufPut_mem (s : State) (q : Nat) (w : WLine) : (bufPut s q w).mem = s.mem := rfl

@[simp] theorem askTile_mem (s : State) (e : MEnt) (pa : Nat) : (askTile s e pa).mem = s.mem := by
  unfold askTile
  simp

@[simp] theorem farTile_mem (s : State) (q : Nat) (e : MEnt) (tile va pa : Nat) : (farTile s q e tile va pa).2.mem = s.mem := by
  unfold farTile
  dsimp only
  (repeat' split) <;> simp

@[simp] theorem wf_tileLine (s : State) (q : Nat) (e : MEnt) (tile va : Nat) (h : Memory.wf s.mem = true) :
    Memory.wf (tileLine s q e tile va).2.mem = true := by
  unfold tileLine
  extract_lets +onlyGivenNames qy
  split
  · rwa [seeTide_mem]
  · extract_lets +onlyGivenNames x c pa t far l u r
    have hx : Memory.wf x.2.mem = true := wf_xlatNow _ _ _ _ h
    have ht : Memory.wf t.mem = true := by
      dsimp only [t]
      split
      · exact wf_flushPart _ _ _ hx
      · exact hx
    have hf : Memory.wf far.2.mem = true := by
      dsimp only [far]
      rwa [farGet_mem]
    have hl : Memory.wf l.2.mem = true := wf_homeLease _ _ _ _ (wf_recallNow _ _ ht)
    have hr : Memory.wf r.2.mem = true := wf_readNow _ _ _ ht
    clear_value t far l r
    have hu : Memory.wf u.mem = true := by
      dsimp only [u]
      rw [seeTide_mem]
      exact hl
    clear_value u
    split
    · exact ht
    · split
      · rwa [farTile_mem]
      · split
        · split <;> exact hf
        · split
          · split
            · exact hl
            · rwa [bufPut_mem]
          · split
            · exact hr
            · rwa [seeTide_mem]

@[simp] theorem wf_tileLines (n : Nat) (s : State) (q : Nat) (e : MEnt) (tile va : Nat) (h : Memory.wf s.mem = true) :
    Memory.wf (tileLines n s q e tile va).2.mem = true := by
  induction n generalizing s va with
  | zero => exact h
  | succ n ih =>
    have hr := wf_tileLine s q e tile va h
    unfold tileLines
    dsimp only
    split
    · exact hr
    · exact hr
    · have ht := ih (tileLine s q e tile va).2 (va + 128) hr
      split <;> exact ht

@[simp] theorem wf_readTile (s : State) (q : Nat) (e : MEnt) (va : Nat) (h : Memory.wf s.mem = true) :
    Memory.wf (readTile s q e va).2.mem = true := by
  have h1 := wf_tileLines 1 s q e va va h
  unfold readTile
  dsimp only
  split
  · split
    · exact h1
    · have h2 (n : Nat) := wf_tileLines n _ q e va (va + 128) h1
      split <;> exact h2 _
  · exact h1

@[simp] theorem wf_loadPlane (s : State) (q : Nat) (e : MEnt) (va : Nat) (h : Memory.wf s.mem = true) :
    Memory.wf (loadPlane s q e va).2.mem = true := by
  have hr := wf_readTile s q e va h
  unfold loadPlane
  extract_lets +onlyGivenNames qy
  split
  · rwa [seeTide_mem, setQy_mem]
  · split
    · exact h
    · dsimp only
      split
      · rwa [setQy_mem]
      · exact hr

@[simp] theorem wf_operandRd (s : State) (e : MEnt) (glob : Bool) (a n : Nat) (h : Memory.wf s.mem = true) :
    Memory.wf (operandRd s e glob a n).2.2.mem = true := by
  unfold operandRd
  split
  · exact h
  · exact wf_engLoad _ _ _ _ _ _ _ h

@[simp] theorem wf_readRow (s : State) (e : MEnt) (r : Nat) (h : Memory.wf s.mem = true) : Memory.wf (readRow s e r).2.mem = true := by
  unfold readRow
  extract_lets +onlyGivenNames c a x sa y
  have hx : Memory.wf x.2.2.mem = true := wf_operandRd _ _ _ _ _ h
  dsimp only [y]
  split
  · exact wf_operandRd _ _ _ _ _ hx
  · exact hx

@[simp] theorem addNext_mem (s : State) (e : MEnt) (m : MStep) : (addNext s e m).2.mem = s.mem := by
  unfold addNext
  simp

@[simp] theorem wf_beginStep (s : State) (q : Nat) (e : MEnt) (h : Memory.wf s.mem = true) : Memory.wf (beginStep s q e).2.mem = true := by
  unfold beginStep
  extract_lets +onlyGivenNames c va r abandon
  have hr : Memory.wf r.2.mem = true := wf_loadPlane _ _ _ _ h
  clear_value r
  split
  · exact hr
  · exact hr
  · split
    · exact hr
    · split
      · exact hr
      · split
        · exact hr
        · extract_lets +onlyGivenNames c0 rows a
          have ha : Memory.wf a.2.mem = true := wf_foldl_snd_mem _ (fun (x : List (Nat × ActRow) × State) (i : Nat) hx => wf_readRow x.2 e i hx) _ hr
          clear_value a
          split
          · exact ha
          · exact ha

@[simp] theorem wf_runStep (s : State) (q : Nat) (e : MEnt) (h : Memory.wf s.mem = true) : Memory.wf (runStep s q e).2.mem = true := by
  unfold runStep
  split
  · exact wf_beginStep _ _ _ h
  · dsimp only
    rwa [addNext_mem]

@[simp] theorem wf_engineStep (s : State) (q : Nat) (h : Memory.wf s.mem = true) : Memory.wf (engineStep s q).mem = true := by
  unfold engineStep
  split
  · exact h
  next k e n _ =>
    extract_lets +onlyGivenNames qy e1 t u
    have ht : t.mem = s.mem := by
      dsimp only [t]
      split
      · exact mem_ite rfl (farDrop_mem _ _)
      · rfl
    have hu : Memory.wf u.mem = true := by
      dsimp only [u]
      rwa [setQy_mem, ht]
    clear_value u
    have hr := wf_runStep u q e1 hu
    split
    next v hv =>
      rw [hv] at hr
      exact hr
    next e2 v hv =>
      rw [hv] at hr
      dsimp only at hr
      extract_lets +onlyGivenNames qz ended e3 w x y z
      have hx : x.mem = w.mem := mem_ite (farDrop_mem _ _) rfl
      have hy : y.mem = x.mem := mem_ite (pulse_mem _ _) rfl
      have hz : z.mem = y.mem := mem_ite (due_mem _ _) rfl
      have hzv : z.mem = v.mem := hz.trans (hy.trans (hx.trans (setQy_mem _ _ _)))
      split
      · rwa [due_mem, hzv]
      · rwa [hzv]

@[simp] theorem completeMat_mem (s : State) (id : Nat) : (completeMat s id).mem = s.mem := by
  unfold completeMat
  (repeat' split) <;> simp

@[simp] theorem fillEntry_mem (s : State) (f : Fibre) (kind : Nat) (cpol : CPol) (addr : Nat) (card : BitVec 1024) (mask : Mask) : (fillEntry s f kind cpol addr card mask).mem = s.mem := by
  unfold fillEntry
  simp

@[simp] theorem wf_cardCmd (s : State) (f : Fibre) (h : Hdr) (kind : Nat) (cpol : CPol) (a : Opnd) (hm : Memory.wf s.mem = true) :
    Memory.wf (cardCmd s f h kind cpol a).mem = true := by
  unfold cardCmd
  extract_lets +onlyGivenNames p m low va
  split
  · exact wf_noCmd _ _ hm
  · split
    · rwa [stall_mem]
    · split
      · exact wf_engineFault _ _ _ _ _ hm
      · extract_lets +onlyGivenNames r
        have hr : Memory.wf r.2.2.mem = true := wf_engLoad _ _ _ _ _ _ _ hm
        clear_value r
        split
        · rwa [stall_mem]
        · exact wf_engineFault _ _ _ _ _ (by rwa [farDrop_mem])
        · extract_lets +onlyGivenNames t card d c
          have ht : Memory.wf t.mem = true := by
            dsimp only [t]
            rwa [farDrop_mem]
          split
          · exact wf_engineFault _ _ _ _ _ ht
          · split
            · exact wf_engineFault _ _ _ _ _ ht
            · exact wf_nextX _ _ (by rwa [ownDone_mem, fillEntry_mem])

@[simp] theorem wf_rowNone (s : State) (f : Fibre) (dst : Option (Opnd × Nat)) (acc base : Nat) (h : Memory.wf s.mem = true) :
    Memory.wf (rowNone s f dst acc base).mem = true := by
  unfold rowNone
  simp [h]

end Sys2Proof.Machine
end

section
/-! PROOFS. The same for launches, the issue of a berth and the world outside. -/

namespace Sys2Proof.Machine

@[simp] theorem endRecs_mem (s : State) (run : Option Nat) (n : Nat) : (endRecs s run n).mem = s.mem := by
  unfold endRecs
  split <;> rfl

@[simp] theorem postRefused_mem (s : State) (cid inst addr reason cls : Nat) : (postRefused s cid inst addr reason cls).mem = s.mem := by
  unfold postRefused
  simp

@[simp] theorem makeRunnable_mem (s : State) (cid : Nat) : (makeRunnable s cid).mem = s.mem := by
  unfold makeRunnable
  simp

@[simp] theorem acceptInst_mem (s : State) (cid daddr : Nat) (d : BitVec 1024) (run : Option Nat) (clk : Nat) : (acceptInst s cid daddr d run clk).2.mem = s.mem := by
  unfold acceptInst
  simp

@[simp] theorem setSlot_mem (s : State) (n : Nat) (x : Slot) : (setSlot s n x).mem = s.mem := rfl

@[simp] theorem trigRefused_mem (s : State) (n : Nat) : (trigRefused s n).mem = s.mem := rfl

/-- Where a record of a run ends up, memory stays in its form. -/
theorem placeOne_ind {P : Placing → Prop} {s : State} (h : Memory.wf s.mem = true) (r : Run) (tq : Nat) (x : Record)
    (hp : ∀ t : State, Memory.wf t.mem = true → P (.placed t)) (hg : ∀ t : State, Memory.wf t.mem = true → P (.gone t))
    (hf : ∀ w, P (.full w)) : P (placeOne s r tq x) := by
  unfold placeOne
  extract_lets +onlyGivenNames e refuse src a
  have hr (t : State) (cls : Nat) (ht : Memory.wf t.mem = true) : P (refuse t cls) := hg _ (by rwa [postRefused_mem])
  clear_value refuse
  split
  · split
    next t ht => exact hp _ (by rwa [tellTasks_mem, mem_of_placeRec ht])
    · exact hf _
  · have ha : Memory.wf a.2.2.mem = true := wf_accessNow _ _ _ _ _ h
    clear_value a
    split
    · exact hr _ _ h
    · split
      · exact hr _ _ ha
      · split
        · exact hr _ _ ha
        · extract_lets +onlyGivenNames t q
          have hq : Memory.wf q.2.mem = true := by
            dsimp only [q, t]
            rw [depArrive_mem]
            exact wf_collect _ _ (wf_recallNow _ _ ha)
          clear_value q
          split
          · exact hr _ _ hq
          · split
            · exact hp _ hq
            · exact hf _

@[simp] theorem wf_placeAll (r : Run) (tq : Nat) (xs : List Record) (full : List Nat) (s : State) (h : Memory.wf s.mem = true) :
    Memory.wf (placeAll r tq xs full s).2.2.mem = true := by
  induction xs generalizing full s with
  | nil => exact h
  | cons x xs ih =>
    unfold placeAll
    extract_lets +onlyGivenNames w t
    split
    · exact ih _ _ h
    · have hone : ∀ p, placeOne s r tq x = p → (∀ t, p = .placed t ∨ p = .gone t → Memory.wf t.mem = true) := by
        refine placeOne_ind (P := fun q => ∀ p, q = p → ∀ t, p = .placed t ∨ p = .gone t → Memory.wf t.mem = true) h r tq x ?_ ?_ ?_
        · rintro t ht p rfl u (hu | hu) <;> cases hu
          exact ht
        · rintro t ht p rfl u (hu | hu) <;> cases hu
          exact ht
        · rintro w p rfl u (hu | hu) <;> cases hu
      split
      next t ht => exact ih _ _ (hone _ ht t (.inl rfl))
      next t ht => exact ih _ _ (hone _ ht t (.inr rfl))
      · exact ih _ _ h

@[simp] theorem wf_placeRun (s : State) (id : Nat) (h : Memory.wf s.mem = true) : Memory.wf (placeRun s id).mem = true := by
  unfold placeRun
  split
  · exact h
  next r _ =>
    split
    · exact h
    next tq _ =>
      have ht := wf_placeAll r tq r.todo [] s h
      dsimp only
      split
      · exact ht
      · rwa [endRecs_mem]

@[simp] theorem wf_startRun (s : State) (n cid : Nat) (patches : List (Nat × Nat)) (clk : Nat) (h : Memory.wf s.mem = true) :
    Memory.wf (startRun s n cid patches clk).mem = true := by
  unfold startRun
  dsimp only
  split
  · exact h
  · exact wf_placeRun _ _ h

@[simp] theorem wf_barStep (s : State) (f : Fibre) (h : Hdr) (sc : Scope) (b n : Nat) (dst : Option Opnd) (hm : Memory.wf s.mem = true) :
    Memory.wf (barStep s f h sc b n dst).mem = true := by
  unfold barStep
  extract_lets +onlyGivenNames p t
  have ht : Memory.wf t.mem = true := by
    dsimp only [t]
    rw [setWaitX_mem]
    exact wf_nextX _ _ hm
  split
  · exact hm
  · split
    · rwa [block_mem]
    · split
      · rw [stall_mem]
        exact wf_startDrains _ _ _ hm
      · split
        · rwa [stall_mem]
        · rw [settle_mem]
          split
          · exact wf_barArrive _ _ _ _ _ _ ht
          · exact ht

@[simp] theorem wf_homeFault (s : State) (f : Fibre) (h : Hdr) (dst : Option (Opnd × Nat)) (va cls : Nat) (op : HomeOp)
    (hm : Memory.wf s.mem = true) : Memory.wf (homeFault s f h dst va cls op).mem = true := by
  unfold homeFault
  exact wf_raise _ _ _ hm

@[simp] theorem beginAt_mem (s : State) (f : Fibre) (l : OpLane) : (beginAt s f l).mem = s.mem := rfl

/-- The address of an operation at a home is checked; memory stays in its form. -/
theorem homeAddr_ind {P : HomeAddr → Prop} {s : State} (hm : Memory.wf s.mem = true) (f : Fibre) (h : Hdr) (dst : Option (Opnd × Nat))
    (va align size : Nat) (op : HomeOp) (hs : ∀ t : State, Memory.wf t.mem = true → P (.stop t))
    (hok : ∀ l t, Memory.wf t.mem = true → P (.ok l t)) : P (homeAddr s f h dst va align size op) := by
  unfold homeAddr
  extract_lets +onlyGivenNames p m r
  split
  · exact hs _ (by rwa [stall_mem, askWalks_mem])
  · exact hs _ (wf_xFault _ _ _ _ _ _ _ hm)
  · exact hok _ _ (by rwa [fillTlb_mem])
  · exact hs _ hm

@[simp] theorem wf_homeOp (s : State) (f : Fibre) (h : Hdr) (dst : Option (Opnd × Nat)) (va align size : Nat) (rel : Bool) (sc : Scope)
    (op : HomeOp) (fin : State → Fibre → OpRun → State) (sy : Option Scope) (hm : Memory.wf s.mem = true)
    (hf : ∀ o, Memory.wf (fin s f o).mem = true) : Memory.wf (homeOp s f h dst va align size rel sc op fin sy).mem = true := by
  unfold homeOp
  extract_lets +onlyGivenNames p
  split
  · apply homeAddr_ind (P := fun r => Memory.wf (State.mem (match r with
      | .stop s => s
      | .ok l s => if gangWaits s f op l.pa then stall s p h else beginAt s f l)) = true) hm f h dst va align size op
    · exact fun t ht => ht
    · intro l t ht
      dsimp only
      split
      · rwa [stall_mem]
      · rwa [beginAt_mem]
  · split
    · rwa [opWait_mem]
    · split
      · rw [stall_mem]
        exact wf_startDrains _ _ _ hm
      · split
        · rwa [opSend_mem]
        · exact wf_homeFault _ _ _ _ _ _ _ hm
        · exact hf _

@[simp] theorem wf_queueSkip (s : State) (f : Fibre) (x : QOp) (h : Memory.wf s.mem = true) :
    Memory.wf (queueSkip s f x).mem = true := by
  unfold queueSkip
  simp [h]

@[simp] theorem wf_queueFin (s : State) (f : Fibre) (x : QOp) (got : List (Nat × Nat)) (st : Nat) (h : Memory.wf s.mem = true) :
    Memory.wf (queueFin s f x got st).mem = true := by
  unfold queueFin
  split <;> simp [h]

@[simp] theorem wf_queuePush (s : State) (f : Fibre) (x : QOp) (major : Nat) (h : Memory.wf s.mem = true) :
    Memory.wf (queuePush s f x major).mem = true :=
  wf_homeOp _ _ _ _ _ _ _ _ _ _ _ _ h fun _ => wf_queueFin _ _ _ _ _ h

@[simp] theorem wf_depPush (s : State) (f : Fibre) (x : QOp) (rcd : Record) (o : OpRun) (h : Memory.wf s.mem = true) :
    Memory.wf (depPush s f x rcd o).mem = true := by
  unfold depPush
  dsimp only
  (repeat' split) <;> simp [h]

@[simp] theorem wf_queueTake (s : State) (f : Fibre) (x : QOp) (major : Nat) (h : Memory.wf s.mem = true) :
    Memory.wf (queueTake s f x major).mem = true := by
  unfold queueTake
  split
  · exact wf_queueSkip _ _ _ h
  · split
    · exact wf_queueFin _ _ _ _ _ h
    · exact wf_homeOp _ _ _ _ _ _ _ _ _ _ _ _ h fun _ => wf_queueFin _ _ _ _ _ h

@[simp] theorem wf_trigStatus (s : State) (f : Fibre) (d : Opnd) (v : Nat) (h : Memory.wf s.mem = true) :
    Memory.wf (trigStatus s f d v).mem = true := by
  unfold trigStatus
  simp [h]

@[simp] theorem wf_readThen (s : State) (f : Fibre) (h : Hdr) (d : Opnd) (va align n : Nat) (k : State → Nat → State)
    (hm : Memory.wf s.mem = true) (hk : ∀ t v, Memory.wf t.mem = true → Memory.wf (k t v).mem = true) :
    Memory.wf (readThen s f h d va align n k).mem = true := by
  unfold readThen
  extract_lets +onlyGivenNames p m low
  split
  · exact wf_xFault _ _ _ _ _ _ _ hm
  · extract_lets +onlyGivenNames r
    have hr : Memory.wf r.2.2.mem = true := wf_engLoad _ _ _ _ _ _ _ hm
    clear_value r
    split
    · rwa [stall_mem]
    · exact wf_xFault _ _ _ _ _ _ _ (by rwa [farDrop_mem])
    · exact hk _ _ (by rwa [farDrop_mem])

@[simp] theorem wf_undefWord (s : State) (p : Place) (h : Memory.wf s.mem = true) :
    Memory.wf (undefWord s p).mem = true := by
  unfold undefWord
  simp [h]

@[simp] theorem wf_fetchFault (s : State) (p : Place) (cls va : Nat) (h : Memory.wf s.mem = true) :
    Memory.wf (fetchFault s p cls va).mem = true := by
  unfold fetchFault
  split <;> simp [h]

/-- The state of a turn of a berth, whatever it runs. -/
def Issuing.state : Issuing → State
  | .act _ s => s
  | .done s => s

@[simp] theorem wf_issueWord (s : State) (p : Place) (f : Fibre) (h : Memory.wf s.mem = true) :
    Memory.wf (issueWord s p f).state.mem = true := by
  unfold issueWord
  extract_lets +onlyGivenNames r t
  have hr : Memory.wf r.2.mem = true := wf_fetchWord _ _ _ _ h
  clear_value r
  split
  · exact hr
  · exact wf_fetchFault _ _ _ _ (by rwa [farDrop_mem])
  · extract_lets +onlyGivenNames t
    have ht : Memory.wf t.mem = true := by
      dsimp only [t]
      rw [modF_mem]
      dsimp only
      rwa [farDrop_mem]
    split
    · exact wf_undefWord _ _ ht
    · exact ht

@[simp] theorem wf_issueAt (s : State) (core berth : Nat) (h : Memory.wf s.mem = true) : Memory.wf (issueAt s core berth).state.mem = true := by
  have hp (t : State) (ht : t.mem = s.mem) : Memory.wf (Issuing.done (passBerth t core berth)).state.mem = true := by
    rw [Issuing.state, passBerth_mem, ht]
    exact h
  unfold issueAt
  extract_lets +onlyGivenNames p
  split
  · exact h
  · split
    · exact h
    · exact hp s rfl
    · split
      · exact hp _ (mem_ite (noteStop_mem _ _) rfl)
      · split
        · rw [Issuing.state, dueOnce_mem]
          exact h
        · split
          · exact wf_commitPiece _ _ h
          · split
            · exact wf_issueWord _ _ _ h
            · split
              · exact h
              · split
                · exact h
                · exact wf_issueWord _ _ _ h

/-- What a sensor's value can do; said for a predicate, since `regAt` of an open address must not be evaluated. -/
theorem outsideAct_sensor_ind {P : State → Prop} {s : State} (a : Nat) (v : DWord) (hs : P s) (hr : P (setReg s a v))
    (hx : ∀ n g, P (modX s n g)) : P (outsideAct s (.sensor a v)) := by
  have e : ∃ F, @outsideAct = F ∧ ∀ at_, at_ = regAt → P (F s (.sensor a v)) := by
    refine ⟨_, by delta outsideAct; exact rfl, fun at_ hat => ?_⟩
    rw [← hat]
    dsimp -zeta only
    split
    · exact hr
    · exact hr
    · split
      · exact hx _ _
      · exact hs
  obtain ⟨F, e, h⟩ := e
  rw [e]
  exact h _ rfl

theorem outsideAct_sendParts (s : State) (core line : Nat) : (outsideAct s (.sendParts core line)).mem = s.mem := by
  delta outsideAct
  dsimp only
  split
  · rw [sendReq_mem, setC_mem]
  · rfl

/-- What the world outside can do. -/
theorem outsideAct_ind {P : State → Prop} {s : State} (h : Memory.wf s.mem = true) (hP : ∀ t : State, Memory.wf t.mem = true → P t)
    (a : Action) : P (outsideAct s a) := by
  have hs : P s := hP s h
  have hite (c : Prop) [Decidable c] (t u : State) (ht : P t) (hu : P u) : P (if c then t else u) := by
    split
    · exact ht
    · exact hu
  cases a with
  | issue core berth => exact hs
  | event i => exact hs
  | evict core line => exact hP _ (wf_evictCopy _ _ _ h)
  | sendParts core line => exact hP _ (by rwa [outsideAct_sendParts])
  | spillFull line => exact hite _ _ _ hs (hP _ (wf_collect _ _ h))
  | dropTlb core => exact hP (setC s core _) (by rwa [setC_mem])
  | memError line present => exact hite _ _ _ (hite _ _ _ hs (hP _ h)) (hP _ h)
  | outside pa bytes => exact hite _ _ _ (hP _ (wf_memWr _ _ h)) hs
  | upload n cid recs => exact hite _ _ _ (hP _ h) hs
  | sensor a v => exact outsideAct_sensor_ind a v hs (hP _ (by rwa [setReg_mem])) fun n g => hP _ (by rwa [modX_mem])
  | flash image => exact hite _ _ _ (hP _ h) hs
  | hostWindow base size => exact hite _ _ _ (hP _ h) hs
  | openRegs pa size => exact hite _ _ _ (hP _ h) hs
  | closeRegs => exact hite _ _ _ (hP _ h) hs

@[simp] theorem wf_outsideAct (s : State) (a : Action) (h : Memory.wf s.mem = true) : Memory.wf (outsideAct s a).mem = true :=
  outsideAct_ind (P := fun t => Memory.wf t.mem = true) h (fun _ ht => ht) a

@[simp] theorem addLanes_mem (s : State) (d r c n : Nat) : (addLanes s d r c n).mem = s.mem := rfl

@[simp] theorem idleBerth_mem (s : State) (c0 c1 core berth : Nat) : (idleBerth s c0 c1 core berth).mem = s.mem := by
  unfold idleBerth
  dsimp only
  (repeat' split) <;> simp

@[simp] theorem countIdle_mem (s : State) (t : Nat) : (countIdle s t).mem = s.mem := by
  unfold countIdle
  simp

@[simp] theorem tick_mem (s0 : State) (dt : Nat) : (tick s0 dt).mem = s0.mem := by
  unfold tick
  simp

@[simp] theorem countLanes_mem (s t : State) (i : Instr) : (countLanes s t i).mem = t.mem := by
  unfold countLanes
  extract_lets +onlyGivenNames p d
  split
  · rfl
  · split
    · split
      · rfl
      · exact foldl_mem _ (fun u e => addLanes_mem u _ _ _ _) t
    · rfl

end Sys2Proof.Machine
end

section
/-! PROOFS. The same for spans, groups, contexts, links, the debugger and the boot. -/

namespace Sys2Proof.Machine

@[simp] theorem wf_pendFault (s : State) (p : Place) (q : Pend) (cls : Nat) (mask : Mask) (addrs : List (Nat × Nat)) (acc : Nat) (h : Memory.wf s.mem = true) :
    Memory.wf (pendFault s p q cls mask addrs acc).mem = true := by
  unfold pendFault
  split <;> simp [h]

@[simp] theorem wf_pendFaults (s : State) (p : Place) (q : Pend) (cls : Nat) (m : Mask) (addrs : List (Nat × Nat)) (acc : Nat)
    (h : Memory.wf s.mem = true) : Memory.wf (pendFaults s p q cls m addrs acc).mem = true :=
  wf_foldl_mem _ (fun t _ ht => wf_pendFault t _ _ _ _ _ _ ht) s h

@[simp] theorem wf_writeback (s : State) (q : Pend) (p : Place) (f : Fibre) (h : Memory.wf s.mem = true) :
    Memory.wf (writeback s q p f).mem = true := by
  unfold writeback
  split
  · extract_lets +onlyGivenNames lost vs
    clear_value lost vs
    refine wf_pendFaults _ _ _ _ _ _ _ ?_
    split
    · exact h
    · rwa [putRefs_mem]
  · extract_lets +onlyGivenNames vs w t u
    have hu : Memory.wf u.mem = true := by
      dsimp only [u, t, w]
      rwa [modF_mem, putRefs_mem, inject_mem]
    split
    · exact wf_pendFaults _ _ _ _ _ _ _ hu
    · exact hu
    · exact wf_pendFaults _ _ _ _ _ _ _ hu

@[simp] theorem rollTo_mem (s : State) (p : Place) (n : Nat) : (rollTo s p n).mem = s.mem := by
  unfold rollTo
  split
  · rfl
  · split
    · exact rollback_mem _ _
    · dsimp only
      rw [modF_mem, foldl_mem _ (fun t u => by rw [rollback_mem, modF_mem]), rollback_mem]

@[simp] theorem dueGates_mem (s : State) (p : Place) (f : Fibre) : (dueGates s p f).mem = s.mem := by
  unfold dueGates
  split <;> rfl

@[simp] theorem wf_refuse (s : State) (p : Place) (f : Fibre) (cls : Nat) (h : Memory.wf s.mem = true) :
    Memory.wf (refuse s p f cls).mem = true := by
  unfold refuse
  simp [h]

@[simp] theorem refuseTwin_mem (s : State) (q : Place) (n cls : Nat) : (refuseTwin s q n cls).mem = s.mem := by
  unfold refuseTwin
  split
  · rfl
  · split
    · rw [modF_mem]
    · split
      · rfl
      · dsimp only
        rw [due_mem, modF_mem, dropOp_mem]
        exact mem_ite (rollTo_mem _ _ _) rfl

@[simp] theorem beginPilot_mem (s : State) (p : Place) (cls : Nat) : (beginPilot s p cls).mem = s.mem := by
  unfold beginPilot
  dsimp only
  split <;> simp

@[simp] theorem wf_gateFault (s : State) (p : Place) (f : Fibre) (cls va : Nat) (h : Memory.wf s.mem = true) :
    Memory.wf (gateFault s p f cls va).mem = true := by
  unfold gateFault
  simp [h]

@[simp] theorem wf_pushRelease (s : State) (p : Place) (h : Memory.wf s.mem = true) :
    Memory.wf (pushRelease s p).mem = true := by
  unfold pushRelease
  dsimp only
  (repeat' split) <;> simp [h]

@[simp] theorem wf_equalSpan (s : State) (p : Place) (u : Uncompared) (h : Memory.wf s.mem = true) :
    Memory.wf (equalSpan s p u).mem = true := by
  unfold equalSpan
  dsimp only
  split <;> simp [h]

@[simp] theorem wf_unequalSpan (s : State) (lp tp : Place) (u : Uncompared) (mism : Nat) (h : Memory.wf s.mem = true) :
    Memory.wf (unequalSpan s lp tp u mism).mem = true := by
  unfold unequalSpan
  extract_lets +onlyGivenNames s1 put t
  have ht : Memory.wf t.mem = true := by
    dsimp only [t, put, s1]
    rwa [modF_mem, modF_mem, rollTo_mem, rollTo_mem]
  split
  · dsimp only
    split
    · exact wf_postFibre _ _ _ _ ht
    · exact wf_toResident _ _ _ _ _ (wf_toResident _ _ _ _ _ ht)
  · exact ht

@[simp] theorem wf_joinPair (s : State) (lp tp : Place) (h : Memory.wf s.mem = true) :
    Memory.wf (joinPair s lp tp).mem = true := by
  unfold joinPair
  dsimp only
  (repeat' split) <;> simp [h]

@[simp] theorem wf_writeLines (cont : Nat → Cont) (core cid base : Nat) (line : Nat → List Byte) (n i : Nat) (s : State)
    (h : Memory.wf s.mem = true) : Memory.wf (writeLines cont core cid base line n i s).2.2.mem = true := by
  induction n generalizing i s with
  | zero => exact h
  | succ n ih =>
    unfold writeLines
    extract_lets +onlyGivenNames w
    have hw : Memory.wf w.2.2.mem = true := wf_putVirt _ _ _ _ _ _ _ h
    split
    · exact hw
    · exact ih _ _ hw

@[simp] theorem wf_readSlot (d : BitVec 1024) (owner core cid base n i : Nat) (g : Group) (w : Bool) (s : State)
    (h : Memory.wf s.mem = true) : Memory.wf (readSlot d owner core cid base n i g w s).2.2.mem = true := by
  induction n generalizing i g w s with
  | zero => exact h
  | succ n ih =>
    unfold readSlot
    extract_lets +onlyGivenNames va r
    have hr : Memory.wf r.2.2.mem = true := wf_engLoad _ _ _ _ _ _ _ h
    split <;> exact ih _ _ _ _ hr

@[simp] theorem placeAgain_mem (s : State) : (placeAgain s).mem = s.mem := foldl_mem _ (fun t _ => due_mem t _) s

@[simp] theorem cutConts_mem (s : State) (core : Nat) (berths : List Nat) : (cutConts s core berths).mem = s.mem := rfl

@[simp] theorem clearBerths_mem (s : State) (core : Nat) (berths : List Nat) : (clearBerths s core berths).mem = s.mem := by
  unfold clearBerths
  dsimp only
  rw [cutConts_mem, foldl_mem _ fun t b => setB_mem t _ _ _]

@[simp] theorem placeNew_mem (s : State) (c : Cand) (lead : Bool) (core : Nat) (berths : List Nat) (other : Option (Nat × List Nat)) :
    (placeNew s c lead core berths other).mem = s.mem := by
  unfold placeNew
  extract_lets +onlyGivenNames gid t g u
  have hu : u.mem = s.mem := by
    dsimp only [u, t]
    rw [raiseClock_mem, setG_mem, clearBerths_mem]
  refine (foldl_mem _ (fun v b => ?_) u).trans hu
  refine (foldl_mem _ (fun w fib => ?_) _).trans (setB_mem _ _ _ _)
  exact setF_mem _ _ _

@[simp] theorem wf_saveFailed (s : State) (gid : Nat) (g : Group) (aux addr cls : Nat) (h : Memory.wf s.mem = true) :
    Memory.wf (saveFailed s gid g aux addr cls).mem = true := by
  unfold saveFailed
  simp [h]

@[simp] theorem keepGroup_mem (s : State) (gid : Nat) (g : Group) (slot : Nat) : (keepGroup s gid g slot).mem = s.mem := by
  unfold keepGroup
  extract_lets +onlyGivenNames m mine pos g' t u
  have hu : u.mem = s.mem := by
    dsimp only [u, t]
    rw [modX_mem, setG_mem, clearBerths_mem]
  split
  · rwa [placeAgain_mem, setI_mem]
  · rwa [placeAgain_mem]

@[simp] theorem wf_endSave (s : State) (gid : Nat) (g : Group) (k : Nat) (h : Memory.wf s.mem = true) :
    Memory.wf (endSave s gid g k).mem = true := by
  unfold endSave
  split
  · exact h
  · split
    · exact wf_saveFailed _ _ _ _ _ _ h
    · rwa [keepGroup_mem]

/-- A save keeps memory in its form; said for a predicate, since the slot's address must not be evaluated. -/
theorem saveGroup_ind {P : State → Prop} {s : State} (h : Memory.wf s.mem = true) (hP : ∀ t : State, Memory.wf t.mem = true → P t)
    (gid : Nat) (g : Group) : P (saveGroup s gid g) := by
  unfold saveGroup
  extract_lets +onlyGivenNames cid
  split
  · exact hP _ h
  · exact hP _ (wf_endSave _ _ _ _ h)
  · generalize List.find? _ (List.range _) = o
    split
    · exact hP _ (wf_saveFailed _ _ _ _ _ _ h)
    next k =>
      extract_lets +onlyGivenNames d base
      clear_value base
      have hw := wf_writeLines (.save gid) g.core cid base (groupLine s g true (g.st == .flushing)) (groupLines d true) 0 s h
      dsimp only
      generalize writeLines (.save gid) g.core cid base (groupLine s g true (g.st == .flushing)) (groupLines d true) 0 s = w at hw ⊢
      split
      · exact hP _ (wf_saveFailed _ _ _ _ _ _ hw)
      · exact hP _ (wf_endSave _ _ _ _ (by rwa [setG_mem]))

@[simp] theorem wf_saveGroup (s : State) (gid : Nat) (g : Group) (h : Memory.wf s.mem = true) : Memory.wf (saveGroup s gid g).mem = true :=
  saveGroup_ind (P := fun t => Memory.wf t.mem = true) h (fun _ ht => ht) gid g

@[simp] theorem wf_slotRead (s : State) (key : Nat) (g : Group) (core : Nat) (h : Memory.wf s.mem = true) :
    Memory.wf (slotRead s key g core).2.2.mem = true := wf_readSlot _ _ _ _ _ _ _ _ _ s h

@[simp] theorem wf_restoreGroup (s : State) (gid : Nat) (g : Group) (core : Nat) (berths : List Nat) (other : Option (Nat × List Nat))
    (h : Memory.wf s.mem = true) : Memory.wf (restoreGroup s gid g core berths other).mem = true := by
  unfold restoreGroup
  extract_lets +onlyGivenNames cid t m pos g' u v w x y
  have hv : v.mem = s.mem := by
    dsimp only [v, u, t]
    rw [setG_mem, clearBerths_mem]
  have hw : w.mem = s.mem := (foldl_mem _ (fun a b => setB_mem a _ _ _) v).trans hv
  clear_value w
  have hx : x.mem = w.mem := foldl_mem _ (fun a e => by
    extract_lets +onlyGivenNames f1 f2 p b c
    have hc : c.mem = a.mem := by
      refine (foldl_mem _ (fun d w => ?_) b).trans (setF_mem _ _ _)
      split
      · exact sendReq_mem ..
      · rfl
    split
    · rwa [due_mem]
    · split
      · exact hc
      · rwa [due_mem]) w
  clear_value x
  rw [groupEnd_mem]
  refine wf_barsCheck _ _ ?_
  dsimp only [y]
  rwa [modX_mem, hx, hw]

@[simp] theorem dropAfter_mem (s : State) (cid : Nat) : (dropAfter s cid).mem = s.mem := rfl

@[simp] theorem afterPlace_mem (s0 : State) (c : Cand) : (afterPlace s0 c).mem = s0.mem := by
  unfold afterPlace
  extract_lets +onlyGivenNames t u v left w
  have hu : u.mem = s0.mem := by
    dsimp only [u, t]
    rw [modX_mem, pulse_mem, dropAfter_mem]
  have hv : v.mem = s0.mem := by
    dsimp only [v]
    split
    · exact hu
    · rwa [setI_mem]
  have hw : w.mem = s0.mem := by
    dsimp only [w]
    split
    · split
      · exact hv
      · rwa [setI_mem]
    · exact hv
  split
  · exact (foldl_mem _ (fun t _ => due_mem t _) w).trans hw
  · exact hw

@[simp] theorem wf_placeSaved (s : State) (c : Cand) (core : Nat) (b0 : List Nat) (other : Option (Nat × List Nat))
    (h : Memory.wf s.mem = true) : Memory.wf (placeSaved s c core b0 other).mem = true := by
  unfold placeSaved
  split
  · exact h
  next g _ =>
    have hr := wf_slotRead s c.key g core h
    dsimp only
    generalize slotRead s c.key g core = r at hr ⊢
    have hone (u : Group) : Memory.wf (if r.2.1 then r.2.2
        else afterPlace (restoreGroup (farDrop r.2.2 (ownerRestore + c.key)) c.key u core b0 other) c).mem = true := by
      split
      · exact hr
      · rw [afterPlace_mem]
        exact wf_restoreGroup _ _ _ _ _ _ (by rwa [farDrop_mem])
    generalize g.partner.bind _ = o
    rcases o with _ | q
    · exact hone r.1
    · rcases other with _ | o
      · exact hone r.1
      · have ht := wf_slotRead r.2.2 c.key q.2 o.1 hr
        dsimp only
        generalize slotRead r.2.2 c.key q.2 o.1 = t at ht ⊢
        split
        · exact ht
        · rw [afterPlace_mem]
          exact wf_restoreGroup _ _ _ _ _ _ (wf_restoreGroup _ _ _ _ _ _ (by rwa [farDrop_mem]))

@[simp] theorem wf_placeCand (s : State) (c : Cand) (core : Nat) (tr : Option Nat) (h : Memory.wf s.mem = true) :
    Memory.wf (placeCand s c core tr).mem = true := by
  unfold placeCand
  extract_lets +onlyGivenNames nb b0 other t
  clear_value other
  split
  · exact wf_placeSaved _ _ _ _ _ h
  · rw [afterPlace_mem]
    dsimp only [t]
    cases other
    · rwa [placeNew_mem]
    · rwa [placeNew_mem, placeNew_mem]

@[simp] theorem wakeParked_mem (s : State) (p : Place) : (wakeParked s p).mem = s.mem := by
  unfold wakeParked
  simp

@[simp] theorem unpark_mem (s : State) (gid : Nat) : (unpark s gid).mem = s.mem := by
  unfold unpark
  simp

@[simp] theorem latchStops_mem (s : State) (gid : Nat) : (latchStops s gid).mem = s.mem := by
  unfold latchStops
  simp

@[simp] theorem startSave_mem (s : State) (gid : Nat) : (startSave s gid).mem = s.mem := by
  unfold startSave
  simp

@[simp] theorem startFlush_mem (s : State) (gid : Nat) : (startFlush s gid).mem = s.mem := by
  unfold startFlush
  extract_lets +onlyGivenNames t u v
  have hu : u.mem = s.mem := by
    refine (foldl_mem _ (fun a p => ?_) t).trans (modG_mem _ _ _)
    rw [modF_mem, dropOp_mem, dropPends_mem]
  have hv : v.mem = u.mem := by
    dsimp only [v]
    split
    · exact foldl_mem _ (fun a b => setB_mem a _ _ _) u
    · rfl
  rw [due_mem, hv, hu]

@[simp] theorem preemptGroup_mem (s : State) (gid : Nat) : (preemptGroup s gid).mem = s.mem := by
  unfold preemptGroup
  split
  · rfl
  · extract_lets +onlyGivenNames cid x t
    have ht : t.mem = s.mem := setG_mem _ _ _
    split
    · rfl
    · split
      · rw [setG_mem]
      · dsimp only
        split
        · rwa [startFlush_mem]
        · split
          · rwa [due_mem, modG_mem]
          · rwa [startSave_mem]

@[simp] theorem preemptCtx_mem (s : State) (cid : Nat) : (preemptCtx s cid).mem = s.mem := by
  unfold preemptCtx
  dsimp only
  rw [foldl_mem _ fun t e => preemptGroup_mem t _, modX_mem]

@[simp] theorem makeRoom_mem (n : Nat) (s : State) (c : Cand) : (makeRoom n s c).mem = s.mem := by
  induction n generalizing s with
  | zero => rfl
  | succ n ih =>
    unfold makeRoom
    split
    · rfl
    · split
      · rw [ih, preemptCtx_mem]
      · rfl

@[simp] theorem wf_doneAdd (s : State) (core cid addr clk inst : Nat) (h : Memory.wf s.mem = true) :
    Memory.wf (doneAdd s core cid addr clk inst).2.mem = true := by
  unfold doneAdd
  simp [h, wf_homeAtomicOp, wf_recallNow]

@[simp] theorem refuseQueued_mem (s : State) (id : Nat) (i : Inst) : (refuseQueued s id i).mem = s.mem := by
  unfold refuseQueued
  simp

@[simp] theorem wf_endInst (s : State) (id : Nat) (i : Inst) (core : Nat) (h : Memory.wf s.mem = true) :
    Memory.wf (endInst s id i core).mem = true := by
  unfold endInst
  simp [h]

@[simp] theorem ctxGone_mem (s : State) (cid : Nat) : (ctxGone s cid).mem = s.mem := by
  unfold ctxGone
  simp

@[simp] theorem wf_retireGroup (s : State) (gid : Nat) (g : Group) (h : Memory.wf s.mem = true) : Memory.wf (retireGroup s gid g).mem = true := by
  unfold retireGroup
  extract_lets +onlyGivenNames cid t u v
  have ht : Memory.wf t.mem = true := by
    dsimp only [t]
    split
    · exact h
    · rw [clearBerths_mem]
      exact wf_flushParts _ _ h
  have hv : Memory.wf v.mem = true := by
    dsimp only [v, u]
    split
    · rwa [modX_mem, pulse_mem]
    · rwa [pulse_mem]
  clear_value v
  split
  · rwa [placeAgain_mem]
  · dsimp only
    split
    · rwa [placeAgain_mem, setI_mem]
    · rw [placeAgain_mem, ctxGone_mem]
      exact wf_endInst _ _ _ _ (by rwa [setI_mem])

@[simp] theorem dropCmds_mem (s : State) (gid : Nat) : (dropCmds s gid).mem = s.mem := rfl

@[simp] theorem killGroup_mem (s : State) (gid : Nat) : (killGroup s gid).mem = s.mem := by
  unfold killGroup
  split
  · rfl
  · extract_lets +onlyGivenNames ps t u v
    have ht : t.mem = s.mem := foldl_mem _ (fun a p => orphan_mem a p) s
    have hu : u.mem = t.mem := mem_ite rfl (clearBerths_mem _ _ _)
    rw [due_mem, setG_mem]
    dsimp only [v]
    rw [dropCmds_mem, hu, ht]

@[simp] theorem wf_closeQueues (s : State) (cid : Nat) (h : Memory.wf s.mem = true) :
    Memory.wf (closeQueues s cid).mem = true := by
  unfold closeQueues
  dsimp only
  simp (disch := simp [h, wf_filter, wf_foldl]) [h]

@[simp] theorem wf_killCtx (s : State) (cid : Nat) (h : Memory.wf s.mem = true) : Memory.wf (killCtx s cid).mem = true := by
  unfold killCtx
  extract_lets +onlyGivenNames s1 s2 s3 s4 src s5 s6
  have h2 : s2.mem = s.mem := foldl_mem _ (fun t e => killGroup_mem t _) s1
  have h3 : Memory.wf s3.mem = true := wf_foldl_mem _ (fun t e ht => wf_endInst t _ _ _ ht) s2 (by rwa [h2])
  have h4 : Memory.wf s4.mem = true := by
    dsimp only [s4]
    rw [sendPeers_mem]
    exact wf_closeQueues _ _ h3
  clear_value s4
  have h6 : s6.mem = s4.mem := mem_ite (dueOnce_mem _ _) rfl
  rwa [placeAgain_mem, ctxGone_mem, modX_mem, h6]

@[simp] theorem wf_killTree (s : State) (cid : Nat) (h : Memory.wf s.mem = true) : Memory.wf (killTree s cid).mem = true :=
  wf_foldl_mem _ (fun t c ht => wf_killCtx t c ht) s h

@[simp] theorem gangCheck_mem (s : State) (id : Nat) : (gangCheck s id).mem = s.mem := by
  unfold gangCheck
  simp

@[simp] theorem refuseTask_mem (s : State) (cid addr cls : Nat) (run : Option Nat) : (refuseTask s cid addr cls run).mem = s.mem := by
  unfold refuseTask
  simp

@[simp] theorem trigTake_mem (s : State) (slot np : Nat) : (trigTake s slot np).2.mem = s.mem := by
  unfold trigTake
  split <;> rfl

@[simp] theorem wf_serveIf (s : State) (id : Nat) (k : HomeOp → Bool) (h : Memory.wf s.mem = true) :
    Memory.wf (serveIf s id k).mem = true := by
  unfold serveIf
  split <;> simp [h]

@[simp] theorem wf_arriveIf (s : State) (id : Nat) (k : HomeOp → Bool) (h : Memory.wf s.mem = true) :
    Memory.wf (arriveIf s id k).mem = true := by
  unfold arriveIf
  split <;> simp [h]

@[simp] theorem wf_probeAgain (p : Place) (s : State) (a : Nat × Option Nat) (h : Memory.wf s.mem = true) :
    Memory.wf (probeAgain p s a).mem = true := by
  unfold probeAgain
  (repeat' split) <;> simp [h]

theorem mem_of_takePacket {s t : State} {pa : Nat} (h : takePacket s pa = some t) : t.mem = s.mem := by
  unfold takePacket at h
  obtain ⟨x, -, rfl⟩ := Option.map_eq_some_iff.1 h
  rfl

@[simp] theorem wf_peerServe (s : State) (src pa : Nat) (clk : DWord) (op : PeerOp) (h : Memory.wf s.mem = true) :
    Memory.wf (peerServe s src pa clk op).mem = true := by
  unfold peerServe
  split <;> simp [h]

@[simp] theorem wf_peerAnswer (s : State) (r : Req) (a : Answer) (h : Memory.wf s.mem = true) :
    Memory.wf (peerAnswer s r a).mem = true := by
  unfold peerAnswer
  simp [h]

@[simp] theorem wf_hostWrite (w n : Nat) (s : State) (pa : Nat) (bytes : List Byte) (h : Memory.wf s.mem = true) :
    Memory.wf (hostWrite w n s pa bytes).mem = true := by
  have hide (t : State) (k : Nat) (ht : Memory.wf t.mem = true) : Memory.wf { t with hostTide := k }.mem = true := ht
  induction n generalizing s pa bytes with
  | zero => exact h
  | succ n ih =>
    unfold hostWrite
    split
    · exact h
    · exact ih _ _ _ (hide _ _ (wf_homeWrite _ _ _ _ _ (wf_recallNow _ _ h)))

@[simp] theorem setResult_mem (s : State) (v : Nat) : (setResult s v).mem = s.mem := rfl

theorem readBlock_ind {P : Option (BitVec 2048) × State → Prop} {s : State} (h : Memory.wf s.mem = true)
    (hP : ∀ (o : Option (BitVec 2048)) (t : State), Memory.wf t.mem = true → P (o, t)) : P (readBlock s) := by
  unfold readBlock
  extract_lets +onlyGivenNames a pa r
  have hr : Memory.wf r.2.2.mem = true := wf_readRun s 4 pa 256 h
  split
  · exact hP _ _ h
  · exact hP _ _ hr

@[simp] theorem wf_readBlock (s : State) (h : Memory.wf s.mem = true) : Memory.wf (readBlock s).2.mem = true :=
  readBlock_ind (P := fun r => Memory.wf r.2.mem = true) h fun _ _ hr => hr

@[simp] theorem wf_headerAt (s : State) (cid va kind : Nat) (h : Memory.wf s.mem = true) :
    Memory.wf (headerAt s cid va kind).2.mem = true := by
  have ha := wf_accessNow s 0 cid va (Ask.load 8) h
  unfold headerAt
  split
  · exact h
  · dsimp only
    split
    · exact ha
    · exact wf_readRun _ _ _ _ ha

@[simp] theorem clearDebug_mem (s : State) (cid : Nat) : (clearDebug s cid).mem = s.mem := by
  unfold clearDebug
  dsimp only
  rw [replayRestart_mem, foldl_mem _ fun t a => setReg_mem t a _]

theorem mem_of_openFor {s t : State} {cid : Nat} {h : Nat × Nat} (ht : openFor s cid h = some t) : t.mem = s.mem := by
  unfold openFor at ht
  split at ht
  · split at ht
    · cases ht
      rfl
    · cases ht
  · exact mem_of_openQueue ht

theorem mem_of_takeBlock {s t : State} {cid : Nat} {x : Ctx} {b : BitVec 2048} {u : BlockUse} (h : takeBlock s cid x b u = some t) :
    t.mem = s.mem := by
  unfold takeBlock at h
  dsimp only at h
  split at h
  · cases h
  · split at h
    · cases h
    next v hv =>
      rw [mem_of_openFor h]
      split at hv
      · rw [mem_of_openFor hv, setX_mem]
      · cases hv
        rw [setX_mem]

@[simp] theorem freezeCtx_mem (froot : Nat) (s : State) (cid : Nat) : (freezeCtx froot s cid).mem = s.mem := by
  unfold freezeCtx
  simp

@[simp] theorem thawCtx_mem (s : State) (cid : Nat) : (thawCtx s cid).mem = s.mem := by
  unfold thawCtx
  extract_lets +onlyGivenNames t go u v
  have ht : t.mem = s.mem := modX_mem _ _ _
  have hv : v.mem = u.mem := foldl_mem _ (fun w e => by
    split
    · rw [due_mem, readyNow_mem]
    · rw [readyNow_mem]) u
  rw [due_mem, hv]
  exact ht

@[simp] theorem wf_dumpBody (cid : Nat) (gs : List Group) (a : Nat) (s : State) (h : Memory.wf s.mem = true) :
    Memory.wf (dumpBody cid gs a s).mem = true := by
  induction gs generalizing a s with
  | nil => exact h
  | cons g gs ih => exact ih _ _ (wf_writeLines _ _ _ _ _ _ _ _ h)

@[simp] theorem abandonGroup_mem (s : State) (gid : Nat) : (abandonGroup s gid).mem = s.mem := by
  unfold abandonGroup
  extract_lets +onlyGivenNames t
  have ht : t.mem = s.mem := foldl_mem _ (fun u p => by
    split
    · rw [modF_mem]
      exact mem_ite rfl (rollback_mem _ _)
    · rfl) s
  split
  · rwa [due_mem]
  · rwa [startSave_mem]

@[simp] theorem freezeAll_mem (s : State) : (freezeAll s).mem = s.mem := by
  unfold freezeAll
  simp

@[simp] theorem kernelDown_mem (s : State) : (kernelDown s).mem = s.mem := by
  unfold kernelDown
  simp

@[simp] theorem crash_mem (s : State) : (crash s).mem = s.mem := by
  unfold crash
  simp

@[simp] theorem releaseDies_mem (s : State) : (releaseDies s).mem = s.mem := by
  unfold releaseDies
  simp

@[simp] theorem goOn_mem (s : State) (p : Place) (f : Fibre) (pc : DWord) : (goOn s p f pc).mem = s.mem := by
  unfold goOn
  simp

theorem gateAgain_mem (p : Place) (f : Fibre) (s : State) : (resumeFibre.gateAgain p f s).mem = s.mem := by
  unfold resumeFibre.gateAgain
  rw [due_mem, setF_mem]

@[simp] theorem wf_resumeFibre (s : State) (p : Place) (f : Fibre) (fi : FaultInfo) (how : ResumeHow) (h : Memory.wf s.mem = true) :
    Memory.wf (resumeFibre s p f fi how).mem = true := by
  unfold resumeFibre
  split
  · split
    · rwa [gateAgain_mem]
    · rwa [goOn_mem]
  · split
    · rwa [gateAgain_mem]
    · extract_lets +onlyGivenNames vs t
      have ht : Memory.wf t.mem = true := by
        dsimp only [t]
        split
        · rwa [writeReg_mem]
        · exact h
      split
      · rwa [goOn_mem]
      · exact ht
  · exact wf_killTree _ _ h

@[simp] theorem giveXlat_mem (s : State) (cid : Nat) (x : Xlat) (p : Place) : (giveXlat s cid x p).mem = s.mem := by
  unfold giveXlat
  split <;> simp

@[simp] theorem pumpRx_mem (k : Nat) (s : State) (n : Nat) : (pumpRx k s n).mem = s.mem := by
  induction k generalizing s with
  | zero => rfl
  | succ k ih =>
    unfold pumpRx
    dsimp only
    split
    · rfl
    · split
      · rw [ih, setL_mem]
      · split
        · rfl
        · rw [ih, sendPacket_mem, setL_mem]

@[simp] theorem noteRx_mem (s : State) (n : Nat) : (noteRx s n).mem = s.mem := by
  unfold noteRx
  simp

@[simp] theorem pumpAll_mem (s : State) : (pumpAll s).mem = s.mem :=
  foldl_mem _ (fun t n => by rw [noteRx_mem, pumpRx_mem]) s

@[simp] theorem dropLink_mem (s : State) (n st : Nat) : (dropLink s n st).mem = s.mem := by
  unfold dropLink
  simp

@[simp] theorem resendAll_mem (s : State) (n : Nat) (l : Link) : (resendAll s n l).mem = s.mem := by
  unfold resendAll
  simp

@[simp] theorem wf_abandonColl (s : State) (c : Cmd) (va : Nat) (h : Memory.wf s.mem = true) : Memory.wf (abandonColl s c va).mem = true := by
  unfold abandonColl
  dsimp only
  rw [finishCmd_mem]
  exact wf_foldl_mem _ (fun t e ht => wf_engWrite t _ _ _ ht) _ (by rwa [freeVal_mem])

@[simp] theorem wf_collSource (s : State) (c : Cmd) (h : Memory.wf s.mem = true) :
    Memory.wf (collSource s c).2.2.mem = true := by
  unfold collSource
  simp [h]

@[simp] theorem wf_haltNow (s : State) (p : Place) (f : Fibre) (h : Memory.wf s.mem = true) :
    Memory.wf (haltNow s p f).mem = true := by
  unfold haltNow
  split <;> simp [h]

@[simp] theorem wf_haltFibre (s : State) (p : Place) (f : Fibre) (h : Memory.wf s.mem = true) :
    Memory.wf (haltFibre s p f).mem = true := by
  unfold haltFibre
  simp [h]

@[simp] theorem afterResume_mem (s : State) (f : Fibre) : (afterResume s f).mem = s.mem := by
  unfold afterResume
  simp

@[simp] theorem wf_stepEntry (s : State) (p : Place) (f : Fibre) (fi : FaultInfo) (h : Memory.wf s.mem = true) :
    Memory.wf (stepEntry s p f fi).mem = true := by
  unfold stepEntry
  dsimp only
  split <;> simp [h]

@[simp] theorem wf_resumeHalted (s : State) (p : Place) (f : Fibre) (h : Memory.wf s.mem = true) :
    Memory.wf (resumeHalted s p f).mem = true := by
  unfold resumeHalted
  (repeat' split) <;> simp [h]

@[simp] theorem wf_stepFibre (s : State) (p : Place) (f : Fibre) (h : Memory.wf s.mem = true) :
    Memory.wf (stepFibre s p f).mem = true := by
  unfold stepFibre
  (repeat' split) <;> simp [h]

@[simp] theorem wf_onFibre (s : State) (cid : Nat) (p : Place) (g : State → Place → Fibre → State) (h : Memory.wf s.mem = true)
    (hg : ∀ f, Memory.wf (g s p f).mem = true) : Memory.wf (onFibre s cid p g).mem = true := by
  unfold onFibre
  split
  · exact hg _
  · exact h

@[simp] theorem wf_reboot (s : State) (lcs : BitVec 2) (keyNo : Nat) (busy : Bool) (h : Memory.wf s.mem = true) :
    Memory.wf (reboot s lcs keyNo busy).mem = true := wf_filter _ h

@[simp] theorem wf_adopt (s : State) (h : Memory.wf s.mem = true) : Memory.wf (adopt s).mem = true := by
  unfold adopt
  extract_lets +onlyGivenNames t
  have ht : Memory.wf t.mem = true := wf_foldl_mem _ (fun u c hu => wf_killCtx u c hu) s h
  split
  · exact ht
  · rwa [due_mem]

end Sys2Proof.Machine
end

section
/-! PROOFS. Every row of the table and every step has a next state, and keeps memory in its canonical form. -/

namespace Sys2Proof.Machine

/-- An outcome is a next state, and memory is still in its canonical form in it. -/
def Keeps (o : Out) (s : State) : Prop := ∃ t, o = .next t ∧ (Memory.wf s.mem = true → Memory.wf t.mem = true)

theorem keeps_next {s t : State} (h : Memory.wf s.mem = true → Memory.wf t.mem = true) : Keeps (.next t) s := ⟨t, rfl, h⟩

theorem keeps_run (i : Instr) (s : State) (k : State → Fibre → State)
    (hk : ∀ t f, Memory.wf t.mem = true → Memory.wf (k t f).mem = true) : Keeps (run i s k) s := by
  have hr (h : Memory.wf s.mem = true) := wf_ready i s h
  unfold run
  split
  next t ht =>
    rw [ht] at hr
    exact keeps_next hr
  next t ht =>
    rw [ht] at hr
    split
    · exact keeps_next fun h => hk _ _ (hr h)
    · exact keeps_next hr

theorem keeps_command (i : Instr) (s : State) (k : State → State) (hk : ∀ t, Memory.wf t.mem = true → Memory.wf (k t).mem = true) :
    Keeps (command i s k) s := by
  refine keeps_next fun h => ?_
  split
  · exact hk s h
  · exact h

theorem execNop_keeps (h : Hdr) (s : State) : Keeps (execNop h s) s := keeps_run _ s _ fun t f h => by
  simp [h]

theorem execBr_keeps (h : Hdr) (c : Cond) (a : Opnd) (off : Word) (s : State) : Keeps (execBr h c a off s) s := keeps_run _ s _ fun t f h => by
  simp [h]

theorem execBrc_keeps (h : Hdr) (c : Cond) (a : Opnd) (off : BitVec 27) (tok : BitVec 5) (s : State) : Keeps (execBrc h c a off tok s) s := keeps_run _ s _ fun t f h => by
  dsimp only
  (repeat' split) <;> simp [h]

theorem execJmp_keeps (h : Hdr) (t : Src) (s : State) : Keeps (execJmp h t s) s := keeps_run _ s _ fun t f h => by
  simp [h]

theorem execCall_keeps (h : Hdr) (off : Word) (s : State) : Keeps (execCall h off s) s := keeps_run _ s _ fun t f h => by
  simp [h]

theorem execCalli_keeps (h : Hdr) (a : Opnd) (s : State) : Keeps (execCalli h a s) s := keeps_run _ s _ fun t f h => by
  simp [h]

theorem execRet_keeps (h : Hdr) (a : Opnd) (s : State) : Keeps (execRet h a s) s := keeps_run _ s _ fun t f h => by
  simp [h]

theorem execJoin_keeps (h : Hdr) (tok : BitVec 5) (s : State) : Keeps (execJoin h tok s) s := keeps_run _ s _ fun t f ht => by
  extract_lets +onlyGivenNames p
  split
  · exact wf_next _ _ ht
  next sp _ =>
    extract_lets +onlyGivenNames mates w s1 a full apart commits others u
    have hw : (w t).mem = t.mem := setWait_mem _ _ _
    have hu : Memory.wf u.mem = true := by
      dsimp only [u]
      exact wf_retireAt _ _ _ _ _ _ (by rwa [hw])
    clear_value u full commits others
    have hc := wf_commitThen t p (.join h tok) ht
    split
    · split
      next v hv =>
        rw [hv] at hc
        rwa [stallHeld_mem]
      next v hv =>
        rw [hv] at hc
        exact hc
    · split
      · rw [stallHeld_mem]
        exact wf_commitPieces _ _ ht
      · rw [settle_mem]
        split
        · rwa [mergeJoin_mem]
        · exact hu

theorem execExit_keeps (h : Hdr) (s : State) : Keeps (execExit h s) s := keeps_run _ s _ fun t f h => by
  simp [h]

theorem execYield_keeps (h : Hdr) (s : State) : Keeps (execYield h s) s := keeps_run _ s _ fun t f h => by
  simp [h]

theorem execSpawn_keeps (h : Hdr) (d : Opnd) (blk : Opnd) (t : Src) (s : State) : Keeps (execSpawn h d blk t s) s := keeps_run _ s _ fun t f h => by
  dsimp only
  split <;> simp [h]

theorem execFbar_keeps (h : Hdr) (m : BitVec 8) (s : State) : Keeps (execFbar h m s) s := keeps_run _ s _ fun t f h => by
  simp [h]

theorem execWgive_keeps (h : Hdr) (slot : BitVec 4) (s : State) : Keeps (execWgive h slot s) s := keeps_run _ s _ fun t f h => by
  simp [h]

theorem execWclaim_keeps (h : Hdr) (slot : BitVec 4) (s : State) : Keeps (execWclaim h slot s) s := keeps_run _ s _ fun t f h => by
  simp [h]

theorem execPark_keeps (h : Hdr) (base : Opnd) (off : Src) (s : State) : Keeps (execPark h base off s) s := keeps_run _ s _ fun t f h => by
  dsimp only
  split <;> simp [h]

theorem execRgnEnter_keeps (h : Hdr) (id : BitVec 16) (idem : Bool) (s : State) : Keeps (execRgnEnter h id idem s) s := keeps_run _ s _ fun t f h => by
  simp [h]

theorem execRgnLeave_keeps (h : Hdr) (s : State) : Keeps (execRgnLeave h s) s := keeps_run _ s _ fun t f h => by
  split <;> simp [h]

theorem execTrap_keeps (h : Hdr) (code : BitVec 16) (s : State) : Keeps (execTrap h code s) s := keeps_run _ s _ fun t f h => by
  simp [h]

theorem execTret_keeps (h : Hdr) (skip : Bool) (s : State) : Keeps (execTret h skip s) s := keeps_run _ s _ fun t f h => by
  split <;> simp [h]

theorem execBrk_keeps (h : Hdr) (tag : BitVec 16) (s : State) : Keeps (execBrk h tag s) s := keeps_run _ s _ fun t f h => by
  simp [h]

theorem execFltrd_keeps (h : Hdr) (d : Opnd) (sel : BitVec 4) (s : State) : Keeps (execFltrd h d sel s) s := keeps_run _ s _ fun t f h => by
  simp [h]

theorem execFltset_keeps (h : Hdr) (t : Ty) (a : Src) (s : State) : Keeps (execFltset h t a s) s := keeps_run _ s _ fun t f h => by
  split <;> simp [h]

theorem execLdsys_keeps (h : Hdr) (t : Ty) (d : Opnd) (base : Opnd) (off : Src) (s : State) : Keeps (execLdsys h t d base off s) s := keeps_run _ s _ fun t f h => by
  simp [h]

theorem execStsys_keeps (h : Hdr) (t : Ty) (base : Opnd) (off : Opnd) (data : Opnd) (s : State) : Keeps (execStsys h t base off data s) s := keeps_run _ s _ fun t f h => by
  simp [h]

theorem execTlbi_keeps (h : Hdr) (sc : Scope) (m : TlbiMode) (a : Opnd) (b : Opnd) (s : State) : Keeps (execTlbi h sc m a b s) s := keeps_run _ s _ fun t f h => by
  simp [h]

theorem execLdsp_keeps (h : Hdr) (d : Opnd) (s : State) : Keeps (execLdsp h d s) s := keeps_run _ s _ fun t f h => by
  simp [h]

theorem execStsp_keeps (h : Hdr) (a : Src) (s : State) : Keeps (execStsp h a s) s := keeps_run _ s _ fun t f h => by
  simp [h]

theorem execMark_keeps (h : Hdr) (value : Word) (s : State) : Keeps (execMark h value s) s := keeps_run _ s _ fun t f h => by
  simp [h]

theorem execChk_keeps (h : Hdr) (d : Opnd) (a : Opnd) (s : State) : Keeps (execChk h d a s) s := keeps_run _ s _ fun t f h => by
  simp [h]

theorem execPilot_keeps (h : Hdr) (on : Bool) (s : State) : Keeps (execPilot h on s) s := keeps_run _ s _ fun t f h => by
  simp [h]

theorem execAdd_keeps (x : Op2) (sat : Bool) (s : State) : Keeps (execAdd x sat s) s := keeps_run _ s _ fun t f h => by
  simp [h]

theorem execSub_keeps (x : Op2) (sat : Bool) (s : State) : Keeps (execSub x sat s) s := keeps_run _ s _ fun t f h => by
  simp [h]

theorem execMul_keeps (x : Op2) (sat : Bool) (s : State) : Keeps (execMul x sat s) s := keeps_run _ s _ fun t f h => by
  simp [h]

theorem execMulh_keeps (x : Op2) (s : State) : Keeps (execMulh x s) s := keeps_run _ s _ fun t f h => by
  simp [h]

theorem execMad_keeps (x : Op3) (sat : Bool) (s : State) : Keeps (execMad x sat s) s := keeps_run _ s _ fun t f h => by
  simp [h]

theorem execDiv_keeps (x : Op2) (s : State) : Keeps (execDiv x s) s := keeps_run _ s _ fun t f h => by
  simp [h]

theorem execRem_keeps (x : Op2) (s : State) : Keeps (execRem x s) s := keeps_run _ s _ fun t f h => by
  simp [h]

theorem execNeg_keeps (x : Op1) (sat : Bool) (s : State) : Keeps (execNeg x sat s) s := keeps_run _ s _ fun t f h => by
  simp [h]

theorem execAbs_keeps (x : Op1) (sat : Bool) (s : State) : Keeps (execAbs x sat s) s := keeps_run _ s _ fun t f h => by
  simp [h]

theorem execMin_keeps (x : Op2) (s : State) : Keeps (execMin x s) s := keeps_run _ s _ fun t f h => by
  simp [h]

theorem execMax_keeps (x : Op2) (s : State) : Keeps (execMax x s) s := keeps_run _ s _ fun t f h => by
  simp [h]

theorem execSad_keeps (x : Op3) (sat : Bool) (s : State) : Keeps (execSad x sat s) s := keeps_run _ s _ fun t f h => by
  simp [h]

theorem execAddc_keeps (x : Op3) (co : Bool) (s : State) : Keeps (execAddc x co s) s := keeps_run _ s _ fun t f h => by
  simp [h]

theorem execSubb_keeps (x : Op3) (bo : Bool) (s : State) : Keeps (execSubb x bo s) s := keeps_run _ s _ fun t f h => by
  simp [h]

theorem execLea_keeps (x : Op2) (sh : BitVec 2) (s : State) : Keeps (execLea x sh s) s := keeps_run _ s _ fun t f h => by
  simp [h]

theorem execDot4_keeps (x : Op3) (sat : Bool) (s : State) : Keeps (execDot4 x sat s) s := keeps_run _ s _ fun t f h => by
  simp [h]

theorem execAnd_keeps (x : Op2) (s : State) : Keeps (execAnd x s) s := keeps_run _ s _ fun t f h => by
  simp [h]

theorem execOr_keeps (x : Op2) (s : State) : Keeps (execOr x s) s := keeps_run _ s _ fun t f h => by
  simp [h]

theorem execXor_keeps (x : Op2) (s : State) : Keeps (execXor x s) s := keeps_run _ s _ fun t f h => by
  simp [h]

theorem execAndn_keeps (x : Op2) (s : State) : Keeps (execAndn x s) s := keeps_run _ s _ fun t f h => by
  simp [h]

theorem execNot_keeps (x : Op1) (s : State) : Keeps (execNot x s) s := keeps_run _ s _ fun t f h => by
  simp [h]

theorem execShl_keeps (x : Op2) (s : State) : Keeps (execShl x s) s := keeps_run _ s _ fun t f h => by
  simp [h]

theorem execShr_keeps (x : Op2) (s : State) : Keeps (execShr x s) s := keeps_run _ s _ fun t f h => by
  simp [h]

theorem execSra_keeps (x : Op2) (s : State) : Keeps (execSra x s) s := keeps_run _ s _ fun t f h => by
  simp [h]

theorem execRol_keeps (x : Op2) (s : State) : Keeps (execRol x s) s := keeps_run _ s _ fun t f h => by
  simp [h]

theorem execBfx_keeps (x : Op2) (s : State) : Keeps (execBfx x s) s := keeps_run _ s _ fun t f h => by
  simp [h]

theorem execBfi_keeps (x : Op3) (s : State) : Keeps (execBfi x s) s := keeps_run _ s _ fun t f h => by
  simp [h]

theorem execPopc_keeps (x : Op1) (s : State) : Keeps (execPopc x s) s := keeps_run _ s _ fun t f h => by
  simp [h]

theorem execClz_keeps (x : Op1) (s : State) : Keeps (execClz x s) s := keeps_run _ s _ fun t f h => by
  simp [h]

theorem execCtz_keeps (x : Op1) (s : State) : Keeps (execCtz x s) s := keeps_run _ s _ fun t f h => by
  simp [h]

theorem execBrev_keeps (x : Op1) (s : State) : Keeps (execBrev x s) s := keeps_run _ s _ fun t f h => by
  simp [h]

theorem execPrmt_keeps (x : Op3) (s : State) : Keeps (execPrmt x s) s := keeps_run _ s _ fun t f h => by
  simp [h]

theorem execCmp_keeps (x : Op2) (c : Cond) (s : State) : Keeps (execCmp x c s) s := keeps_run _ s _ fun t f h => by
  simp [h]

theorem execSel_keeps (x : Op3) (s : State) : Keeps (execSel x s) s := keeps_run _ s _ fun t f h => by
  simp [h]

theorem execMov_keeps (h : Hdr) (t : Ty) (d : Opnd) (a : Src) (s : State) : Keeps (execMov h t d a s) s := keeps_run _ s _ fun t f h => by
  simp [h]

theorem execPack_keeps (h : Hdr) (t : Ty) (d : Opnd) (a : Opnd) (b : Opnd) (sat : Bool) (s : State) : Keeps (execPack h t d a b sat s) s := keeps_run _ s _ fun t f h => by
  simp [h]

theorem execUnpack_keeps (x : Op1) (hi : Bool) (s : State) : Keeps (execUnpack x hi s) s := keeps_run _ s _ fun t f h => by
  simp [h]

theorem execRdl_keeps (x : Op2) (s : State) : Keeps (execRdl x s) s := keeps_run _ s _ fun t f h => by
  simp [h]

theorem execBcast_keeps (x : Op2) (s : State) : Keeps (execBcast x s) s := keeps_run _ s _ fun t f h => by
  simp [h]

theorem execVred_keeps (x : Op1) (op : RedOp) (s : State) : Keeps (execVred x op s) s := keeps_run _ s _ fun t f h => by
  simp [h]

theorem execBallot_keeps (x : Op1) (s : State) : Keeps (execBallot x s) s := keeps_run _ s _ fun t f h => by
  simp [h]

theorem execVote_keeps (x : Op1) (m : VoteMode) (s : State) : Keeps (execVote x m s) s := keeps_run _ s _ fun t f h => by
  simp [h]

theorem execActn_keeps (x : Op1) (s : State) : Keeps (execActn x s) s := keeps_run _ s _ fun t f h => by
  simp [h]

theorem execShfl_keeps (x : Op2) (m : ShMode) (s : State) : Keeps (execShfl x m s) s := keeps_run _ s _ fun t f h => by
  simp [h]

theorem execFadd_keeps (x : Op2) (r : Rnd) (s : State) : Keeps (execFadd x r s) s := keeps_run _ s _ fun t f h => by
  simp [h]

theorem execFsub_keeps (x : Op2) (r : Rnd) (s : State) : Keeps (execFsub x r s) s := keeps_run _ s _ fun t f h => by
  simp [h]

theorem execFmul_keeps (x : Op2) (r : Rnd) (s : State) : Keeps (execFmul x r s) s := keeps_run _ s _ fun t f h => by
  simp [h]

theorem execFma_keeps (x : Op3) (r : Rnd) (s : State) : Keeps (execFma x r s) s := keeps_run _ s _ fun t f h => by
  simp [h]

theorem execFmin_keeps (x : Op2) (num : Bool) (s : State) : Keeps (execFmin x num s) s := keeps_run _ s _ fun t f h => by
  simp [h]

theorem execFmax_keeps (x : Op2) (num : Bool) (s : State) : Keeps (execFmax x num s) s := keeps_run _ s _ fun t f h => by
  simp [h]

theorem execFcmp_keeps (x : Op2) (c : Cond) (s : State) : Keeps (execFcmp x c s) s := keeps_run _ s _ fun t f h => by
  simp [h]

theorem execFrnd_keeps (x : Op1) (r : Rnd) (s : State) : Keeps (execFrnd x r s) s := keeps_run _ s _ fun t f h => by
  simp [h]

theorem execFclass_keeps (x : Op1) (s : State) : Keeps (execFclass x s) s := keeps_run _ s _ fun t f h => by
  simp [h]

theorem execFdot2_keeps (x : Op3) (r : Rnd) (s : State) : Keeps (execFdot2 x r s) s := keeps_run _ s _ fun t f h => by
  simp [h]

theorem execFscl_keeps (x : Op2) (r : Rnd) (s : State) : Keeps (execFscl x r s) s := keeps_run _ s _ fun t f h => by
  simp [h]

theorem execFexpo_keeps (x : Op1) (s : State) : Keeps (execFexpo x s) s := keeps_run _ s _ fun t f h => by
  simp [h]

theorem execRcp_keeps (x : Op1) (r : Rnd) (s : State) : Keeps (execRcp x r s) s := keeps_run _ s _ fun t f h => by
  simp [h]

theorem execRsq_keeps (x : Op1) (r : Rnd) (s : State) : Keeps (execRsq x r s) s := keeps_run _ s _ fun t f h => by
  simp [h]

theorem execSqrt_keeps (x : Op1) (r : Rnd) (s : State) : Keeps (execSqrt x r s) s := keeps_run _ s _ fun t f h => by
  simp [h]

theorem execExp2_keeps (x : Op1) (r : Rnd) (s : State) : Keeps (execExp2 x r s) s := keeps_run _ s _ fun t f h => by
  simp [h]

theorem execLog2_keeps (x : Op1) (r : Rnd) (s : State) : Keeps (execLog2 x r s) s := keeps_run _ s _ fun t f h => by
  simp [h]

theorem execSinpi_keeps (x : Op1) (r : Rnd) (s : State) : Keeps (execSinpi x r s) s := keeps_run _ s _ fun t f h => by
  simp [h]

theorem execCospi_keeps (x : Op1) (r : Rnd) (s : State) : Keeps (execCospi x r s) s := keeps_run _ s _ fun t f h => by
  simp [h]

theorem execTanh_keeps (x : Op1) (r : Rnd) (s : State) : Keeps (execTanh x r s) s := keeps_run _ s _ fun t f h => by
  simp [h]

theorem execFdiv_keeps (x : Op2) (r : Rnd) (s : State) : Keeps (execFdiv x r s) s := keeps_run _ s _ fun t f h => by
  simp [h]

theorem execCvt_keeps (h : Hdr) (d : Opnd) (a : Opnd) (df : Fmt) (sf : Fmt) (sat : Bool) (r : Rnd) (s : State) : Keeps (execCvt h d a df sf sat r s) s := keeps_run _ s _ fun t f h => by
  simp [h]

theorem execCvtpk_keeps (h : Hdr) (d : Opnd) (a : Opnd) (b : Option Opnd) (c : Opnd) (df : Fmt) (p : BitVec 3) (sat : Bool) (r : Rnd) (s : State) : Keeps (execCvtpk h d a b c df p sat r s) s := keeps_run _ s _ fun t f h => by
  simp [h]

theorem execCvtunpk_keeps (h : Hdr) (d : Opnd) (a : Opnd) (dm : DMode) (sf : Fmt) (e : BitVec 3) (r : Rnd) (s : State) : Keeps (execCvtunpk h d a dm sf e r s) s := keeps_run _ s _ fun t f h => by
  simp [h]

theorem execMxsc_keeps (x : Op1) (fm : Fmt) (s : State) : Keeps (execMxsc x fm s) s := keeps_run _ s _ fun t f h => by
  simp [h]

theorem execLdG_keeps (x : MemOp) (s : State) : Keeps (execLdG x s) s := keeps_run _ s _ fun t f h => by
  simp [h]

theorem execStG_keeps (x : MemOp) (s : State) : Keeps (execStG x s) s := keeps_run _ s _ fun t f h => by
  simp [h]

theorem execLdX_keeps (x : MemOp) (s : State) : Keeps (execLdX x s) s := keeps_run _ s _ fun t f h => by
  dsimp only
  split <;> simp [h]

theorem execStX_keeps (x : MemOp) (s : State) : Keeps (execStX x s) s := keeps_run _ s _ fun t f h => by
  dsimp only
  split <;> simp [h]

theorem execPf_keeps (h : Hdr) (cpol : CPol) (base : Opnd) (off : Src) (s : State) : Keeps (execPf h cpol base off s) s := keeps_run _ s _ fun t f h => by
  simp [h]

theorem execLease_keeps (h : Hdr) (base : Opnd) (off : Src) (e : BitVec 4) (s : State) : Keeps (execLease h base off e s) s := keeps_run _ s _ fun t f h => by
  simp [h]

theorem execDsc_keeps (h : Hdr) (base : Opnd) (off : Src) (s : State) : Keeps (execDsc h base off s) s := keeps_run _ s _ fun t f h => by
  dsimp only
  split <;> simp [h]

theorem execFence_keeps (h : Hdr) (ord : Order) (sc : Scope) (s : State) : Keeps (execFence h ord sc s) s := keeps_run _ s _ fun t f h => by
  simp [h]

theorem execProm_keeps (h : Hdr) (sc : Scope) (d : Opnd) (a : Opnd) (s : State) : Keeps (execProm h sc d a s) s := keeps_run _ s _ fun t f h => by
  (repeat' split) <;> simp [h]

theorem execCadd_keeps (h : Hdr) (t : Ty) (data : Opnd) (base : Opnd) (off : Src) (s : State) : Keeps (execCadd h t data base off s) s := keeps_run _ s _ fun t f h => by
  simp [h]

theorem execCmin_keeps (h : Hdr) (t : Ty) (data : Opnd) (base : Opnd) (off : Src) (s : State) : Keeps (execCmin h t data base off s) s := keeps_run _ s _ fun t f h => by
  simp [h]

theorem execCmax_keeps (h : Hdr) (t : Ty) (data : Opnd) (base : Opnd) (off : Src) (s : State) : Keeps (execCmax h t data base off s) s := keeps_run _ s _ fun t f h => by
  simp [h]

theorem execAtomAdd_keeps (x : AtomOp) (s : State) : Keeps (execAtomAdd x s) s := keeps_run _ s _ fun t f h => by
  simp [h]

theorem execAtomSub_keeps (x : AtomOp) (s : State) : Keeps (execAtomSub x s) s := keeps_run _ s _ fun t f h => by
  simp [h]

theorem execAtomMin_keeps (x : AtomOp) (s : State) : Keeps (execAtomMin x s) s := keeps_run _ s _ fun t f h => by
  simp [h]

theorem execAtomMax_keeps (x : AtomOp) (s : State) : Keeps (execAtomMax x s) s := keeps_run _ s _ fun t f h => by
  simp [h]

theorem execAtomAnd_keeps (x : AtomOp) (s : State) : Keeps (execAtomAnd x s) s := keeps_run _ s _ fun t f h => by
  simp [h]

theorem execAtomOr_keeps (x : AtomOp) (s : State) : Keeps (execAtomOr x s) s := keeps_run _ s _ fun t f h => by
  simp [h]

theorem execAtomXor_keeps (x : AtomOp) (s : State) : Keeps (execAtomXor x s) s := keeps_run _ s _ fun t f h => by
  simp [h]

theorem execAtomXchg_keeps (x : AtomOp) (s : State) : Keeps (execAtomXchg x s) s := keeps_run _ s _ fun t f h => by
  simp [h]

theorem execAtomCas_keeps (x : AtomOp) (c : Opnd) (s : State) : Keeps (execAtomCas x c s) s := keeps_run _ s _ fun t f h => by
  simp [h]

theorem execAtomInc_keeps (x : AtomOp) (s : State) : Keeps (execAtomInc x s) s := keeps_run _ s _ fun t f h => by
  simp [h]

theorem execAtomDec_keeps (x : AtomOp) (s : State) : Keeps (execAtomDec x s) s := keeps_run _ s _ fun t f h => by
  simp [h]

theorem execAtomFadd_keeps (x : AtomOp) (s : State) : Keeps (execAtomFadd x s) s := keeps_run _ s _ fun t f h => by
  simp [h]

theorem execCopy_keeps (h : Hdr) (cpol : CPol) (out : Bool) (ch : BitVec 2) (a : Opnd) (b : Opnd) (c : Opnd) (stride : Opnd) (s : State) : Keeps (execCopy h cpol out ch a b c stride s) s := keeps_run _ s _ fun t f h => by
  split <;> simp [h]

theorem execGath_keeps (h : Hdr) (cpol : CPol) (a : Opnd) (b : Opnd) (c : Opnd) (s : State) : Keeps (execGath h cpol a b c s) s := keeps_run _ s _ fun t f h => by
  simp [h]

theorem execScat_keeps (h : Hdr) (cpol : CPol) (a : Opnd) (b : Opnd) (c : Opnd) (s : State) : Keeps (execScat h cpol a b c s) s := keeps_run _ s _ fun t f h => by
  simp [h]

theorem execWait_keeps (h : Hdr) (cls : OcClass) (n : Src) (s : State) : Keeps (execWait h cls n s) s := keeps_run _ s _ fun t f h => by
  dsimp only
  split <;> simp [h]

theorem execWaitp_keeps (h : Hdr) (ch : BitVec 2) (t : Src) (s : State) : Keeps (execWaitp h ch t s) s := keeps_run _ s _ fun t f h => by
  simp [h]

theorem execColl_keeps (h : Hdr) (t : Ty) (sc : Scope) (kind : CollKind) (op : CollOp) (a : Opnd) (b : Opnd) (c : Opnd) (s : State) : Keeps (execColl h t sc kind op a b c s) s := keeps_run _ s _ fun t f h => by
  dsimp only
  split <;> simp [h]

theorem execMwld_keeps (h : Hdr) (cpol : CPol) (a : Opnd) (s : State) : Keeps (execMwld h cpol a s) s := keeps_run _ s _ fun t f h => by
  simp [h]

theorem execMpass_keeps (h : Hdr) (cpol : CPol) (a : Opnd) (s : State) : Keeps (execMpass h cpol a s) s := keeps_run _ s _ fun t f h => by
  simp [h]

theorem execMtab_keeps (h : Hdr) (cpol : CPol) (a : Opnd) (s : State) : Keeps (execMtab h cpol a s) s := keeps_run _ s _ fun t f h => by
  simp [h]

theorem execAccld_keeps (h : Hdr) (d : Opnd) (a : Opnd) (col : BitVec 8) (cnt : BitVec 3) (s : State) : Keeps (execAccld h d a col cnt s) s := keeps_run _ s _ fun t f h => by
  dsimp only
  split <;> simp [h]

theorem execAccst_keeps (h : Hdr) (d : Opnd) (a : Opnd) (col : BitVec 8) (cnt : BitVec 3) (s : State) : Keeps (execAccst h d a col cnt s) s := keeps_run _ s _ fun t f h => by
  dsimp only
  split <;> simp [h]

theorem execAcczero_keeps (h : Hdr) (a : Opnd) (cnt : BitVec 3) (s : State) : Keeps (execAcczero h a cnt s) s := keeps_run _ s _ fun t f h => by
  dsimp only
  split <;> simp [h]

theorem execMstat_keeps (h : Hdr) (d : Opnd) (sel : BitVec 2) (s : State) : Keeps (execMstat h d sel s) s := keeps_run _ s _ fun t f h => by
  simp [h]

theorem execBar_keeps (h : Hdr) (sc : Scope) (b : BitVec 4) (n : BitVec 6) (s : State) : Keeps (execBar h sc b n s) s := keeps_run _ s _ fun t f h => by
  simp [h]

theorem execBarArr_keeps (h : Hdr) (sc : Scope) (d : Opnd) (b : BitVec 4) (n : BitVec 6) (s : State) : Keeps (execBarArr h sc d b n s) s := keeps_run _ s _ fun t f h => by
  simp [h]

theorem execBarWt_keeps (h : Hdr) (sc : Scope) (a : Opnd) (b : BitVec 4) (s : State) : Keeps (execBarWt h sc a b s) s := keeps_run _ s _ fun t f h => by
  split <;> simp [h]

theorem execMbarInit_keeps (h : Hdr) (sc : Scope) (a : Opnd) (b : Opnd) (s : State) : Keeps (execMbarInit h sc a b s) s := keeps_run _ s _ fun t f h => by
  split <;> simp [h]

theorem execMbarArr_keeps (h : Hdr) (sc : Scope) (d : Opnd) (a : Opnd) (s : State) : Keeps (execMbarArr h sc d a s) s := keeps_run _ s _ fun t f h => by
  split <;> simp [h]

theorem execMbarWt_keeps (h : Hdr) (sc : Scope) (a : Opnd) (b : Opnd) (s : State) : Keeps (execMbarWt h sc a b s) s := keeps_run _ s _ fun t f h => by
  split <;> simp [h]

theorem execQpush_keeps (x : QOp) (s : State) : Keeps (execQpush x s) s := keeps_run _ s _ fun t f h => by
  (repeat' split) <;> simp [h]

theorem execDqPush_keeps (x : QOp) (s : State) : Keeps (execDqPush x s) s := keeps_run _ s _ fun t f h => by
  (repeat' split) <;> simp [h]

theorem execQpop_keeps (x : QOp) (s : State) : Keeps (execQpop x s) s := keeps_run _ s _ fun t f h => by
  simp [h]

theorem execDqPop_keeps (x : QOp) (s : State) : Keeps (execDqPop x s) s := keeps_run _ s _ fun t f h => by
  simp [h]

theorem execDqSteal_keeps (x : QOp) (s : State) : Keeps (execDqSteal x s) s := keeps_run _ s _ fun t f h => by
  simp [h]

theorem execDepDec_keeps (x : QOp) (s : State) : Keeps (execDepDec x s) s := keeps_run _ s _ fun t f h => by
  (repeat' split) <;> simp [h]

theorem execLaunch_keeps (h : Hdr) (d : Opnd) (a : Opnd) (b : Opnd) (s : State) : Keeps (execLaunch h d a b s) s := keeps_run _ s _ fun t f ht => by
  extract_lets +onlyGivenNames p va
  split
  · rw [stall_mem]
    exact wf_startDrains _ _ _ ht
  · split
    · exact wf_nextX _ _ (by rwa [ownDone_mem])
    · split
      · exact wf_trigStatus _ _ _ _ ht
      · refine wf_readThen _ _ _ _ _ _ _ _ ht fun u v hu => ?_
        dsimp only
        split
        · exact wf_trigStatus _ _ _ _ hu
        · split
          · exact wf_trigStatus _ _ _ _ hu
          · exact wf_trigStatus _ _ _ _ (by rwa [acceptInst_mem])

theorem execGraphTrig_keeps (h : Hdr) (d : Opnd) (a : Opnd) (b : Opnd) (c : Opnd) (s : State) : Keeps (execGraphTrig h d a b c s) s := keeps_run _ s _ fun t f ht => by
  extract_lets +onlyGivenNames p sa n np cid go
  have hgo (u : State) (v : Nat) (hu : Memory.wf u.mem = true) : Memory.wf (go u v).mem = true := by
    dsimp -zeta only [go]
    extract_lets +onlyGivenNames ps
    split
    · exact wf_trigStatus _ _ _ _ (wf_startRun _ _ _ _ _ hu)
    · exact wf_trigStatus _ _ _ _ (by rwa [trigRefused_mem])
  clear_value go
  split
  · rw [stall_mem]
    exact wf_startDrains _ _ _ ht
  · split
    · exact wf_nextX _ _ (by rwa [ownDone_mem])
    · split
      · exact wf_trigStatus _ _ _ _ ht
      · split
        · exact wf_trigStatus _ _ _ _ ht
        · split
          · exact wf_trigStatus _ _ _ _ (by rwa [trigRefused_mem])
          · split
            · exact wf_trigStatus _ _ _ _ (by rwa [trigRefused_mem])
            · split
              · exact hgo _ _ ht
              · exact wf_readThen _ _ _ _ _ _ _ _ ht hgo

theorem execInstructionFetchReturn_keeps (p : Place) (fresh : Bool) (s : State) : Keeps (execInstructionFetchReturn p fresh s) s := keeps_next fun h => by
  dsimp only
  (repeat' split) <;> simp [h]

theorem execResultWriteback_keeps (id : Nat) (s : State) : Keeps (execResultWriteback id s) s := keeps_next fun h => by
  dsimp only
  (repeat' split) <;> simp [h]

theorem execFibreQuantumExpiry_keeps (core berth : Nat) (s : State) : Keeps (execFibreQuantumExpiry core berth s) s := keeps_next fun h => by
  simp [h]

theorem execStarvationOverride_keeps (core berth : Nat) (s : State) : Keeps (execStarvationOverride core berth s) s := keeps_next fun h => by
  split <;> simp [h]

theorem execDividedHalfRotate_keeps (p : Place) (s : State) : Keeps (execDividedHalfRotate p s) s := keeps_next fun h => by
  split <;> simp [h]

theorem execSpanLengthLimit_keeps (p : Place) (s : State) : Keeps (execSpanLengthLimit p s) s := keeps_next fun h => by
  split <;> simp [h]

theorem execSpanCommitRefused_keeps (p : Place) (s : State) : Keeps (execSpanCommitRefused p s) s := keeps_next fun h => by
  (repeat' split) <;> simp [h]

theorem execGateOpen_keeps (p : Place) (s : State) : Keeps (execGateOpen p s) s := keeps_next fun h => by
  split
  · exact h
  next f _ =>
    split
    next wt _ =>
      extract_lets +onlyGivenNames cls
      split
      · exact h
      · extract_lets +onlyGivenNames va
        split
        · rwa [beginPilot_mem]
        · have ha := wf_accessNow s p.core (cidOf s f) va (Ask.load 4) h
          extract_lets +onlyGivenNames a line
          have ha : Memory.wf a.2.2.mem = true := ha
          clear_value a
          split
          · exact wf_gateFault _ _ _ _ _ ha
          · split
            · exact ha
            · extract_lets +onlyGivenNames r u w v
              have hr : Memory.wf r.2.mem = true := wf_getBytes _ _ _ _ _ _ ha
              have hv : v.mem = u.mem := mem_ite (seeTide_mem _ _ _) rfl
              have hu : Memory.wf u.mem = true := by
                dsimp only [u]
                rwa [farDrop_mem]
              split
              · exact hr
              · exact wf_gateFault _ _ _ _ _ (by rwa [farDrop_mem])
              · split
                · rwa [beginPilot_mem, hv]
                · rwa [modF_mem, hv]
    · exact h

theorem execEventPost_keeps (p : Place) (s : State) : Keeps (execEventPost p s) s := keeps_next fun h => by
  (repeat' split) <;> simp [h]

theorem execSpanCompare_keeps (p : Place) (s : State) : Keeps (execSpanCompare p s) s := keeps_next fun h => by
  split
  · exact h
  · split
    · extract_lets +onlyGivenNames lp tp t
      have ht : Memory.wf t.mem = true := wf_pushRelease _ _ (wf_pushRelease _ _ h)
      clear_value t
      split
      · split
        · split
          next u us v vs _ _ _ =>
            have he := wf_equalSpan (equalSpan t lp u) tp v (wf_equalSpan _ _ _ ht)
            dsimp only
            split
            · exact wf_joinPair _ _ _ he
            · rwa [dueOnce_mem]
          · exact wf_unequalSpan _ _ _ _ _ ht
        · exact wf_joinPair _ _ _ ht
      · exact ht
    · exact h

theorem execGroupPlace_keeps (g : Nat) (s : State) : Keeps (execGroupPlace g s) s := keeps_next fun h => by
  dsimp only
  (repeat' split) <;> simp [h]

theorem execDrainTimeout_keeps (g : Nat) (s : State) : Keeps (execDrainTimeout g s) s := keeps_next fun h => by
  split <;> simp [h]

theorem execGroupSaveWrite_keeps (g : Nat) (s : State) : Keeps (execGroupSaveWrite g s) s := keeps_next fun h => by
  dsimp only
  (repeat' split) <;> simp [h]

theorem execGroupRetire_keeps (g : Nat) (s : State) : Keeps (execGroupRetire g s) s := keeps_next fun h => by
  split <;> simp [h]

theorem execCopyCommandExecute_keeps (core : Nat) (ch : BitVec 2) (s : State) : Keeps (execCopyCommandExecute core ch s) s := keeps_next fun h => by
  simp [h]

theorem execGatherCommandExecute_keeps (core : Nat) (moved : Mask) (s : State) : Keeps (execGatherCommandExecute core moved s) s := keeps_next fun h => by
  simp [h]

theorem execEngineCommandComplete_keeps (id : Nat) (s : State) : Keeps (execEngineCommandComplete id s) s := keeps_next fun h => by
  simp [h]

theorem execMatrixStep_keeps (quay : Nat) (s : State) : Keeps (execMatrixStep quay s) s := keeps_next fun h => by
  simp [h]

theorem execMatrixAgePromote_keeps (quay : Nat) (e : Nat) (s : State) : Keeps (execMatrixAgePromote quay e s) s := keeps_next fun h => by
  dsimp only
  split <;> simp [h]

theorem execWeightPlaneLoad_keeps (quay : Nat) (s : State) : Keeps (execWeightPlaneLoad quay s) s := keeps_next fun h => by
  dsimp only
  (repeat' split) <;> simp [h]

/-- The descriptor of a kernel is read; memory stays in its form. -/
theorem kernelDesc_ind {P : DescGot → Prop} {s : State} (h : Memory.wf s.mem = true) (x : Ctx) (cid kid : Nat)
    (hok : ∀ a d t, Memory.wf t.mem = true → P (.ok a d t)) (hbad : ∀ a c t, Memory.wf t.mem = true → P (.bad a c t))
    (hwait : ∀ t, Memory.wf t.mem = true → P (.wait t)) : P (kernelDesc s x cid kid) := by
  unfold kernelDesc
  extract_lets +onlyGivenNames o
  split
  · exact hbad _ _ _ h
  · extract_lets +onlyGivenNames t
    have ht : Memory.wf t.2.2.mem = true := wf_getVirt _ _ _ _ _ _ _ _ h
    clear_value t
    split
    · exact hwait _ ht
    · exact hbad _ _ _ (by rwa [farDrop_mem])
    · extract_lets +onlyGivenNames a r
      have hr : Memory.wf r.2.2.mem = true := wf_getVirt _ _ _ _ _ _ _ _ ht
      clear_value r
      split
      · exact hbad _ _ _ (by rwa [farDrop_mem])
      · split
        · exact hbad _ _ _ (by rwa [farDrop_mem])
        · split
          · exact hwait _ hr
          · exact hbad _ _ _ (by rwa [farDrop_mem])
          · exact hok _ _ _ (by rwa [farDrop_mem])

theorem execTaskTake_keeps (cid : Nat) (s : State) : Keeps (execTaskTake cid s) s := keeps_next fun h => by
  split
  · exact h
  next x _ =>
    split
    · exact h
    next q _ =>
      split
      · exact h
      · split
        · exact h
        next e _ _ =>
          extract_lets +onlyGivenNames again take
          have hagain (t : State) : (again t).mem = t.mem := mem_ite (due_mem _ _) rfl
          have htake (t : State) : (take t).mem = t.mem := by
            dsimp only [take]
            split
            next r hr => exact mem_of_takeRec hr
            · rfl
          apply kernelDesc_ind (P := fun g => Memory.wf (State.mem (match g with
            | .wait s => s
            | .bad a c s => again (refuseTask (take s) cid a c e.run)
            | .ok a d s =>
              if descBad d then again (refuseTask (take s) cid a 0 e.run)
              else again (acceptInst (take s) cid a (withParam d (recParam e.rcd)) e.run e.clk).2)) = true) h x cid (recKid e.rcd)
          · intro a d t ht
            dsimp only
            split
            · rwa [hagain, refuseTask_mem, htake]
            · rwa [hagain, acceptInst_mem, htake]
          · intro a c t ht
            dsimp only
            rwa [hagain, refuseTask_mem, htake]
          · exact fun t ht => ht

theorem execGraphTrigger_keeps (slot : Nat) (npatch : BitVec 7) (s : State) : Keeps (execGraphTrigger slot npatch s) s := keeps_next fun h => by
  simp [h]

theorem execGraphRefusedRead_keeps (slot : Nat) (s : State) : Keeps (execGraphRefusedRead slot s) s := keeps_next fun h => by
  simp [h]

theorem execGraphRecordPlace_keeps (slot : Nat) (run : Nat) (s : State) : Keeps (execGraphRecordPlace slot run s) s := keeps_next fun h => by
  simp [h]

theorem execHomeLeaseRequest_keeps (id : Nat) (s : State) : Keeps (execHomeLeaseRequest id s) s := keeps_next fun h => by
  simp [h]

theorem execLeaseReply_keeps (id : Nat) (s : State) : Keeps (execLeaseReply id s) s := keeps_next fun h => by
  simp [h]

theorem execOwnershipRequest_keeps (id : Nat) (s : State) : Keeps (execOwnershipRequest id s) s := keeps_next fun h => by
  simp [h]

theorem execOwnershipGrant_keeps (id : Nat) (s : State) : Keeps (execOwnershipGrant id s) s := keeps_next fun h => by
  simp [h]

theorem execRecall_keeps (id : Nat) (s : State) : Keeps (execRecall id s) s := keeps_next fun h => by
  simp [h]

theorem execRecallAnswer_keeps (id : Nat) (s : State) : Keeps (execRecallAnswer id s) s := keeps_next fun h => by
  simp [h]

theorem execUntrackedAccess_keeps (id : Nat) (s : State) : Keeps (execUntrackedAccess id s) s := keeps_next fun h => by
  simp [h]

theorem execPartialArrival_keeps (id : Nat) (s : State) : Keeps (execPartialArrival id s) s := keeps_next fun h => by
  simp [h]

theorem execHomeAtomic_keeps (id : Nat) (s : State) : Keeps (execHomeAtomic id s) s := keeps_next fun h => by
  simp [h]

theorem execAtomicReply_keeps (id : Nat) (s : State) : Keeps (execAtomicReply id s) s := keeps_next fun h => by
  simp [h]

theorem execPromVictim_keeps (id : Nat) (s : State) : Keeps (execPromVictim id s) s := keeps_next fun h => by
  simp [h]

theorem execHomeMbarOp_keeps (id : Nat) (s : State) : Keeps (execHomeMbarOp id s) s := keeps_next fun h => by
  simp [h]

theorem execHomeQueueOp_keeps (id : Nat) (s : State) : Keeps (execHomeQueueOp id s) s := keeps_next fun h => by
  simp [h]

theorem execHomeDepDec_keeps (id : Nat) (s : State) : Keeps (execHomeDepDec id s) s := keeps_next fun h => by
  simp [h]

theorem execDepRecordArrival_keeps (id : Nat) (s : State) : Keeps (execDepRecordArrival id s) s := keeps_next fun h => by
  simp [h]

theorem execSpinNudge_keeps (p : Place) (s : State) : Keeps (execSpinNudge p s) s := keeps_next fun h => by
  split <;> simp [h]

theorem execParkedClockNudge_keeps (core : Nat) (s : State) : Keeps (execParkedClockNudge core s) s := keeps_next fun h => by
  simp [h]

theorem execParkProbe_keeps (p : Place) (s : State) : Keeps (execParkProbe p s) s := keeps_next fun h => by
  split
  · exact wf_serveReq _ _ h
  · split
    · exact h
    next f _ =>
      extract_lets +onlyGivenNames out t u
      have hu : Memory.wf u.mem = true := wf_foldl_mem _ (fun v a hv => wf_probeAgain p v a hv) t (by
        dsimp only [t]
        rwa [modF_mem])
      clear_value u
      split
      · exact h
      · split
        · have ha := wf_accessNow u p.core (cidOf u f) (descGate (descOf u f)) (Ask.load 4) hu
          dsimp only
          split
          · rwa [sendReq_mem]
          · rwa [due_mem]
        · exact hu

theorem execParkProbeReply_keeps (id : Nat) (s : State) : Keeps (execParkProbeReply id s) s := keeps_next fun h => by
  simp [h]

theorem execPeerPacket_keeps (src : Nat) (pa : Nat) (clk : DWord) (op : PeerOp) (s : State) : Keeps (execPeerPacket src pa clk op s) s := keeps_next fun h => by
  split
  · exact h
  · split
    · exact h
    next t cid ht => exact wf_closeQueues _ _ (by rwa [mem_of_takePacket ht])
    next t ht _ => exact wf_peerServe _ _ _ _ _ (by rwa [mem_of_takePacket ht])

theorem execPeerReply_keeps (id : Nat) (rep : PeerRep) (s : State) : Keeps (execPeerReply id rep s) s := keeps_next fun h => by
  split
  · exact h
  · split
    · exact h
    · split
      · exact h
      next t ht => exact wf_peerAnswer _ _ _ (by rwa [mem_of_takePacket ht])

theorem execPeerReplyTimeout_keeps (id : Nat) (s : State) : Keeps (execPeerReplyTimeout id s) s := keeps_next fun h => by
  split <;> simp [h]

theorem wf_nextId (s : State) (k : Nat) (h : Memory.wf s.mem = true) : Memory.wf { s with nextId := k }.mem = true := h

theorem execHostMemoryAccess_keeps (a : HostAcc) (s : State) : Keeps (execHostMemoryAccess a s) s := keeps_next fun h => by
  cases a with
  | read pa n =>
    dsimp -zeta only
    split
    · exact wf_readRun _ _ _ _ h
    · split
      · rwa [regRead_mem]
      · exact h
  | write pa b =>
    dsimp -zeta only
    split
    · exact wf_hostWrite _ _ _ _ _ (wf_nextId _ _ h)
    · exact h

theorem execPortReply_keeps (id : Nat) (data : List Byte) (s : State) : Keeps (execPortReply id data s) s := keeps_next fun h => by
  split
  · exact h
  next r _ =>
    split
    · dsimp only
      split
      · rwa [wakeProm_mem, dropReq_mem]
      · rwa [dropReq_mem]
    · extract_lets +onlyGivenNames line hm t
      split
      · exact h
      · refine wf_serveNow _ _ ?_
        dsimp only [t]
        rw [setHome_mem]
        exact wf_memWr _ _ h

theorem execAlloc_keeps (s : State) : Keeps (execAlloc s) s := keeps_command _ s _ fun t h => by
  dsimp only
  split <;> simp [h]

/-- A block is used; memory stays in its form. -/
theorem blockUse_ind {P : BlockGot → Prop} {s : State} (h : Memory.wf s.mem = true) (owner cid : Nat) (b : BitVec 2048)
    (hok : ∀ u t, Memory.wf t.mem = true → P (.ok u t)) (hbad : ∀ t, Memory.wf t.mem = true → P (.bad t))
    (hwait : ∀ t, Memory.wf t.mem = true → P (.wait t)) : P (blockUse s owner cid b) := by
  unfold blockUse
  extract_lets +onlyGivenNames f t e done
  have ht : Memory.wf t.2.mem = true := by
    dsimp only [t]
    split
    · exact h
    · exact wf_headerAt _ _ _ _ h
  clear_value t
  have he : Memory.wf e.2.mem = true := wf_headerAt _ _ _ _ ht
  clear_value e
  have hdone (u : State) (l : List (DWord × DWord)) (hu : Memory.wf u.mem = true) : P (done u l) := by
    dsimp -zeta only [done]
    split
    · split
      · exact hok _ _ hu
      · exact hbad _ hu
    · exact hok _ _ hu
    · exact hbad _ hu
  clear_value done
  split
  · exact hdone _ _ he
  · extract_lets +onlyGivenNames r
    have hr : Memory.wf r.2.2.mem = true := wf_getVirt _ _ _ _ _ _ _ _ he
    clear_value r
    split
    · exact hdone _ _ (by rwa [farDrop_mem])
    · exact hbad _ (by rwa [farDrop_mem])
    · exact hwait _ hr

theorem execLoad_keeps (s : State) : Keeps (execLoad s) s := keeps_command _ s _ fun t ht => by
  have hr := wf_readBlock t ht
  dsimp only
  generalize readBlock t = r at hr ⊢
  split
  · rwa [setResult_mem]
  next b _ =>
    split
    · rwa [setResult_mem]
    · have key : ∀ g, blockUse r.2 ownerLoad (bitsAt b.toNat 64 12) b = g → ∀ u v, g = .ok u v ∨ g = .bad v ∨ g = .wait v → Memory.wf v.mem = true := by
        apply blockUse_ind (P := fun g' => ∀ g, g' = g → ∀ u v, g = .ok u v ∨ g = .bad v ∨ g = .wait v → Memory.wf v.mem = true) hr
        all_goals grind
      split
      next v hv => exact key _ hv ⟨none, (0, 0), []⟩ v (.inr (.inr rfl))
      next v hv => 
        rw [setResult_mem]
        exact key _ hv ⟨none, (0, 0), []⟩ v (.inr (.inl rfl))
      next u v hv =>
        have hv : Memory.wf v.mem = true := key _ hv u v (.inl rfl)
        split
        · rwa [setResult_mem]
        · split
          · rwa [setResult_mem]
          · split
            · rw [setResult_mem]
              exact hv
            next w hw =>
              rw [setResult_mem, mem_of_takeBlock hw]
              exact hv

theorem execReload_keeps (cid : Nat) (s : State) : Keeps (execReload cid s) s := keeps_command _ s _ fun t ht => by
  have hr := wf_readBlock t ht
  dsimp only
  generalize readBlock t = r at hr ⊢
  split
  · rwa [setResult_mem]
  · split
    · rwa [setResult_mem]
    next b _ =>
      split
      · rwa [setResult_mem]
      · have key : ∀ g, blockUse r.2 (ownerReload cid) cid b = g → ∀ u v, g = .ok u v ∨ g = .bad v ∨ g = .wait v → Memory.wf v.mem = true := by
          apply blockUse_ind (P := fun g' => ∀ g, g' = g → ∀ u v, g = .ok u v ∨ g = .bad v ∨ g = .wait v → Memory.wf v.mem = true) hr
          all_goals grind
        split
        next v hv => exact key _ hv ⟨none, (0, 0), []⟩ v (.inr (.inr rfl))
        next v hv => 
          rw [setResult_mem]
          exact key _ hv ⟨none, (0, 0), []⟩ v (.inr (.inl rfl))
        next u v hv =>
          have hv : Memory.wf v.mem = true := key _ hv u v (.inl rfl)
          split
          · rwa [setResult_mem]
          · split
            · rw [setResult_mem]
              exact hv
            next w hw =>
              rw [placeAgain_mem, setResult_mem, mem_of_takeBlock hw]
              exact hv

theorem execFreeze_keeps (cid : Nat) (s : State) : Keeps (execFreeze cid s) s := keeps_command _ s _ fun t h => by
  simp [h]

theorem execThaw_keeps (cid : Nat) (s : State) : Keeps (execThaw cid s) s := keeps_command _ s _ fun t h => by
  simp [h]

theorem execKill_keeps (cid : Nat) (s : State) : Keeps (execKill cid s) s := keeps_command _ s _ fun t h => by
  split <;> simp [h]

theorem execRetire_keeps (cid : Nat) (s : State) : Keeps (execRetire cid s) s := keeps_command _ s _ fun t h => by
  simp [h]

theorem execDump_keeps (cid : Nat) (s : State) : Keeps (execDump cid s) s := keeps_command _ s _ fun t h => by
  simp [h]

theorem execContextResultRead_keeps (s : State) : Keeps (execContextResultRead s) s := keeps_next fun h => by
  simp [h]

theorem execDumpStart_keeps (s : State) : Keeps (execDumpStart s) s := keeps_next fun h => by
  (repeat' split) <;> simp [h]

theorem execDumpWritten_keeps (s : State) : Keeps (execDumpWritten s) s := keeps_next fun h => by
  (repeat' split) <;> simp [h]

theorem execSliceExpiry_keeps (cid : Nat) (s : State) : Keeps (execSliceExpiry cid s) s := keeps_next fun h => by
  split <;> simp [h]

theorem execGangStartWrite_keeps (t : DWord) (s : State) : Keeps (execGangStartWrite t s) s := keeps_next fun h => by
  simp [h]

theorem execGangSliceStart_keeps (gang : Nat) (s : State) : Keeps (execGangSliceStart gang s) s := keeps_next fun h => by
  dsimp only
  split <;> simp [h]

theorem execGangStartPacket_keeps (gang : Nat) (src : Nat) (s : State) : Keeps (execGangStartPacket gang src s) s := keeps_next fun h => by
  extract_lets +onlyGivenNames g
  split
  · exact h
  next t ht =>
    have hm := mem_of_takePacket ht
    split
    · rwa [hm]
    · exact hm ▸ h

theorem execGangAbandon_keeps (gang : Nat) (s : State) : Keeps (execGangAbandon gang s) s := keeps_next fun h => by
  dsimp only
  split <;> simp [h]

theorem execLighthouseFire_keeps (cid : Nat) (s : State) : Keeps (execLighthouseFire cid s) s := keeps_next fun h => by
  split <;> simp [h]

theorem execHeartbeatWrite_keeps (v : DWord) (s : State) : Keeps (execHeartbeatWrite v s) s := keeps_next fun h => by
  dsimp only
  (repeat' split) <;> simp [h]

theorem execHeartbeatMiss_keeps (s : State) : Keeps (execHeartbeatMiss s) s := keeps_next fun h => by
  simp [h]

theorem execControlCoreException_keeps (s : State) : Keeps (execControlCoreException s) s := keeps_next fun h => by
  simp [h]

theorem execResidentResume_keeps (p : Place) (how : ResumeHow) (s : State) : Keeps (execResidentResume p how s) s := keeps_next fun h => by
  dsimp only
  (repeat' split) <;> simp [h]

theorem execWalkComplete_keeps (die : Nat) (w : Nat) (s : State) : Keeps (execWalkComplete die w s) s := keeps_next fun h => by
  split <;> simp [h]

theorem execWalkDispatch_keeps (die : Nat) (s : State) : Keeps (execWalkDispatch die s) s := keeps_next fun h => by
  dsimp only
  (repeat' split) <;> simp [h]

theorem execLinkEnable_keeps (n : Nat) (s : State) : Keeps (execLinkEnable n s) s := keeps_next fun h => by
  simp [h]

theorem execLinkDisable_keeps (n : Nat) (s : State) : Keeps (execLinkDisable n s) s := keeps_next fun h => by
  simp [h]

theorem execLinkTrained_keeps (n : Nat) (width : Nat) (peer : Nat) (s : State) : Keeps (execLinkTrained n width peer s) s := keeps_next fun h => by
  simp [h]

theorem execLinkTrainingTimeout_keeps (n : Nat) (s : State) : Keeps (execLinkTrainingTimeout n s) s := keeps_next fun h => by
  simp [h]

theorem execLinkLaneFail_keeps (n : Nat) (usable : Nat) (s : State) : Keeps (execLinkLaneFail n usable s) s := keeps_next fun h => by
  simp [h]

theorem execFlitReceive_keeps (n : Nat) (seq : Nat) (crcOk : Bool) (dst : Nat) (pa : Nat) (s : State) : Keeps (execFlitReceive n seq crcOk dst pa s) s := keeps_next fun h => by
  simp [h]

theorem execFlitAck_keeps (n : Nat) (seq : Nat) (s : State) : Keeps (execFlitAck n seq s) s := keeps_next fun h => by
  simp [h]

theorem execFlitResendTimeout_keeps (n : Nat) (s : State) : Keeps (execFlitResendTimeout n s) s := keeps_next fun h => by
  simp [h]

theorem execStopFlit_keeps (n : Nat) (s : State) : Keeps (execStopFlit n s) s := keeps_next fun h => by
  simp [h]

theorem execResumeFlit_keeps (n : Nat) (s : State) : Keeps (execResumeFlit n s) s := keeps_next fun h => by
  simp [h]

theorem execLinkStatusRead_keeps (n : Nat) (s : State) : Keeps (execLinkStatusRead n s) s := keeps_next fun h => by
  simp [h]

theorem execTimerFlit_keeps (n : Nat) (t : DWord) (s : State) : Keeps (execTimerFlit n t s) s := keeps_next fun h => by
  simp [h]

theorem execCollStart_keeps (id : Nat) (parts : List CollPart) (s : State) : Keeps (execCollStart id parts s) s := keeps_next fun h => by
  dsimp only
  (repeat' split) <;> simp [h]

theorem execCollComplete_keeps (id : Nat) (s : State) : Keeps (execCollComplete id s) s := keeps_next fun h => by
  (repeat' split) <;> simp [h]

theorem execHalt_keeps (cid : Nat) (p : Place) (s : State) : Keeps (execHalt cid p s) s := keeps_next fun h => by
  simp [h]

theorem execResume_keeps (cid : Nat) (p : Place) (s : State) : Keeps (execResume cid p s) s := keeps_next fun h => by
  simp [h]

theorem execStep_keeps (cid : Nat) (p : Place) (s : State) : Keeps (execStep cid p s) s := keeps_next fun h => by
  simp [h]

theorem execHaltAtRegionEdge_keeps (cid : Nat) (p : Place) (s : State) : Keeps (execHaltAtRegionEdge cid p s) s := keeps_next fun h => by
  simp [h]

theorem execHaltEveryFibre_keeps (cid : Nat) (s : State) : Keeps (execHaltEveryFibre cid s) s := keeps_next fun h =>
  wf_foldl_mem _ (fun t p ht => wf_onFibre t cid p _ ht fun f => wf_haltFibre t p f ht) s h

theorem execResumeEveryFibre_keeps (cid : Nat) (s : State) : Keeps (execResumeEveryFibre cid s) s := keeps_next fun h =>
  wf_foldl_mem _ (fun t p ht => wf_onFibre t cid p _ ht fun f => wf_resumeHalted t p f ht) s h

theorem execSampleTick_keeps (cid : Nat) (s : State) : Keeps (execSampleTick cid s) s := keeps_next fun h => by
  dsimp only
  (repeat' split) <;> simp [h]

theorem execReplayDivergence_keeps (id : Nat) (s : State) : Keeps (execReplayDivergence id s) s := keeps_next fun h => by
  split <;> simp [h]

theorem execFaultInjectArm_keeps (v : BitVec 128) (s : State) : Keeps (execFaultInjectArm v s) s := keeps_next fun h => by
  simp [h]

theorem execFaultInjectDoneClear_keeps (s : State) : Keeps (execFaultInjectDoneClear s) s := keeps_next fun h => by
  simp [h]

theorem execColdReset_keeps (s : State) : Keeps (execColdReset s) s := keeps_next fun h => by
  simp [h]

theorem execFirmwareImageReceive_keeps (image : List Byte) (fwver : Word) (s : State) : Keeps (execFirmwareImageReceive image fwver s) s := keeps_next fun h => by
  simp [h]

theorem execWarmRebootRequest_keeps (who : Agent) (s : State) : Keeps (execWarmRebootRequest who s) s := keeps_next fun h => by
  simp [h]

theorem execQuoteRequest_keeps (nonce : BitVec 256) (s : State) : Keeps (execQuoteRequest nonce s) s := keeps_next fun h => by
  simp [h]

theorem execLifecycleTransition_keeps (target : BitVec 2) (sig : List Byte) (s : State) : Keeps (execLifecycleTransition target sig s) s := keeps_next fun h => by
  simp [h]

theorem execFrequencyStep_keeps (die : Nat) (fmul : Nat) (s : State) : Keeps (execFrequencyStep die fmul s) s := keeps_next fun h => by
  simp [h]

theorem execPllRelockDone_keeps (die : Nat) (s : State) : Keeps (execPllRelockDone die s) s := keeps_next fun h => by
  dsimp only
  split <;> simp [h]

theorem execRegisterWrite_keeps (who : Agent) (pa : Nat) (size : Nat) (v : DWord) (s : State) : Keeps (execRegisterWrite who pa size v s) s := keeps_next fun h => by
  simp [h]

/-- Every row has a next state, and keeps memory in its form. -/
theorem exec_keeps (i : Instr) (s : State) : Keeps (exec i s) s := by
  cases i with
  | nop h => exact execNop_keeps h s
  | br h c a off => exact execBr_keeps h c a off s
  | brc h c a off tok => exact execBrc_keeps h c a off tok s
  | jmp h tgt => exact execJmp_keeps h tgt s
  | call h off => exact execCall_keeps h off s
  | calli h a => exact execCalli_keeps h a s
  | ret h a => exact execRet_keeps h a s
  | join h tok => exact execJoin_keeps h tok s
  | exit h => exact execExit_keeps h s
  | yield h => exact execYield_keeps h s
  | spawn h d blk tgt => exact execSpawn_keeps h d blk tgt s
  | fbar h m => exact execFbar_keeps h m s
  | wgive h slot => exact execWgive_keeps h slot s
  | wclaim h slot => exact execWclaim_keeps h slot s
  | park h base off => exact execPark_keeps h base off s
  | rgnEnter h id idem => exact execRgnEnter_keeps h id idem s
  | rgnLeave h => exact execRgnLeave_keeps h s
  | trap h code => exact execTrap_keeps h code s
  | tret h skip => exact execTret_keeps h skip s
  | brk h tag => exact execBrk_keeps h tag s
  | fltrd h d sel => exact execFltrd_keeps h d sel s
  | fltset h t a => exact execFltset_keeps h t a s
  | ldsys h t d base off => exact execLdsys_keeps h t d base off s
  | stsys h t base off data => exact execStsys_keeps h t base off data s
  | tlbi h sc m a b => exact execTlbi_keeps h sc m a b s
  | ldsp h d => exact execLdsp_keeps h d s
  | stsp h a => exact execStsp_keeps h a s
  | mark h value => exact execMark_keeps h value s
  | chk h d a => exact execChk_keeps h d a s
  | pilot h on => exact execPilot_keeps h on s
  | add x sat => exact execAdd_keeps x sat s
  | sub x sat => exact execSub_keeps x sat s
  | mul x sat => exact execMul_keeps x sat s
  | mulh x => exact execMulh_keeps x s
  | mad x sat => exact execMad_keeps x sat s
  | div x => exact execDiv_keeps x s
  | rem x => exact execRem_keeps x s
  | neg x sat => exact execNeg_keeps x sat s
  | abs x sat => exact execAbs_keeps x sat s
  | min x => exact execMin_keeps x s
  | max x => exact execMax_keeps x s
  | sad x sat => exact execSad_keeps x sat s
  | addc x co => exact execAddc_keeps x co s
  | subb x bo => exact execSubb_keeps x bo s
  | lea x sh => exact execLea_keeps x sh s
  | dot4 x sat => exact execDot4_keeps x sat s
  | and x => exact execAnd_keeps x s
  | or x => exact execOr_keeps x s
  | xor x => exact execXor_keeps x s
  | andn x => exact execAndn_keeps x s
  | not x => exact execNot_keeps x s
  | shl x => exact execShl_keeps x s
  | shr x => exact execShr_keeps x s
  | sra x => exact execSra_keeps x s
  | rol x => exact execRol_keeps x s
  | bfx x => exact execBfx_keeps x s
  | bfi x => exact execBfi_keeps x s
  | popc x => exact execPopc_keeps x s
  | clz x => exact execClz_keeps x s
  | ctz x => exact execCtz_keeps x s
  | brev x => exact execBrev_keeps x s
  | prmt x => exact execPrmt_keeps x s
  | cmp x c => exact execCmp_keeps x c s
  | sel x => exact execSel_keeps x s
  | mov h t d a => exact execMov_keeps h t d a s
  | pack h t d a b sat => exact execPack_keeps h t d a b sat s
  | unpack x hi => exact execUnpack_keeps x hi s
  | rdl x => exact execRdl_keeps x s
  | bcast x => exact execBcast_keeps x s
  | vred x op => exact execVred_keeps x op s
  | ballot x => exact execBallot_keeps x s
  | shfl x m => exact execShfl_keeps x m s
  | vote x m => exact execVote_keeps x m s
  | actn x => exact execActn_keeps x s
  | fadd x r => exact execFadd_keeps x r s
  | fsub x r => exact execFsub_keeps x r s
  | fmul x r => exact execFmul_keeps x r s
  | fma x r => exact execFma_keeps x r s
  | fmin x num => exact execFmin_keeps x num s
  | fmax x num => exact execFmax_keeps x num s
  | fcmp x c => exact execFcmp_keeps x c s
  | frnd x r => exact execFrnd_keeps x r s
  | fclass x => exact execFclass_keeps x s
  | fdot2 x r => exact execFdot2_keeps x r s
  | fscl x r => exact execFscl_keeps x r s
  | fexpo x => exact execFexpo_keeps x s
  | rcp x r => exact execRcp_keeps x r s
  | rsq x r => exact execRsq_keeps x r s
  | sqrt x r => exact execSqrt_keeps x r s
  | exp2 x r => exact execExp2_keeps x r s
  | log2 x r => exact execLog2_keeps x r s
  | sinpi x r => exact execSinpi_keeps x r s
  | cospi x r => exact execCospi_keeps x r s
  | tanh x r => exact execTanh_keeps x r s
  | fdiv x r => exact execFdiv_keeps x r s
  | cvt h d a df sf sat r => exact execCvt_keeps h d a df sf sat r s
  | cvtpk h d a b c df p sat r => exact execCvtpk_keeps h d a b c df p sat r s
  | cvtunpk h d a dm sf e r => exact execCvtunpk_keeps h d a dm sf e r s
  | mxsc x f => exact execMxsc_keeps x f s
  | ldG x => exact execLdG_keeps x s
  | stG x => exact execStG_keeps x s
  | ldX x => exact execLdX_keeps x s
  | stX x => exact execStX_keeps x s
  | pf h cpol base off => exact execPf_keeps h cpol base off s
  | dsc h base off => exact execDsc_keeps h base off s
  | fence h ord sc => exact execFence_keeps h ord sc s
  | prom h sc d a => exact execProm_keeps h sc d a s
  | lease h base off e => exact execLease_keeps h base off e s
  | cadd h t data base off => exact execCadd_keeps h t data base off s
  | cmin h t data base off => exact execCmin_keeps h t data base off s
  | cmax h t data base off => exact execCmax_keeps h t data base off s
  | atomAdd x => exact execAtomAdd_keeps x s
  | atomSub x => exact execAtomSub_keeps x s
  | atomMin x => exact execAtomMin_keeps x s
  | atomMax x => exact execAtomMax_keeps x s
  | atomAnd x => exact execAtomAnd_keeps x s
  | atomOr x => exact execAtomOr_keeps x s
  | atomXor x => exact execAtomXor_keeps x s
  | atomXchg x => exact execAtomXchg_keeps x s
  | atomCas x c => exact execAtomCas_keeps x c s
  | atomInc x => exact execAtomInc_keeps x s
  | atomDec x => exact execAtomDec_keeps x s
  | atomFadd x => exact execAtomFadd_keeps x s
  | copy h cpol out ch a b c stride => exact execCopy_keeps h cpol out ch a b c stride s
  | gath h cpol a b c => exact execGath_keeps h cpol a b c s
  | scat h cpol a b c => exact execScat_keeps h cpol a b c s
  | wait h cls n => exact execWait_keeps h cls n s
  | waitp h ch t => exact execWaitp_keeps h ch t s
  | coll h t sc kind op a b c => exact execColl_keeps h t sc kind op a b c s
  | mwld h cpol a => exact execMwld_keeps h cpol a s
  | mpass h cpol a => exact execMpass_keeps h cpol a s
  | mtab h cpol a => exact execMtab_keeps h cpol a s
  | accld h d a col cnt => exact execAccld_keeps h d a col cnt s
  | accst h d a col cnt => exact execAccst_keeps h d a col cnt s
  | acczero h a cnt => exact execAcczero_keeps h a cnt s
  | mstat h d sel => exact execMstat_keeps h d sel s
  | bar h sc b n => exact execBar_keeps h sc b n s
  | barArr h sc d b n => exact execBarArr_keeps h sc d b n s
  | barWt h sc a b => exact execBarWt_keeps h sc a b s
  | mbarInit h sc a b => exact execMbarInit_keeps h sc a b s
  | mbarArr h sc d a => exact execMbarArr_keeps h sc d a s
  | mbarWt h sc a b => exact execMbarWt_keeps h sc a b s
  | qpush x => exact execQpush_keeps x s
  | qpop x => exact execQpop_keeps x s
  | dqPush x => exact execDqPush_keeps x s
  | dqPop x => exact execDqPop_keeps x s
  | dqSteal x => exact execDqSteal_keeps x s
  | depDec x => exact execDepDec_keeps x s
  | launch h d a b => exact execLaunch_keeps h d a b s
  | graphTrig h d a b c => exact execGraphTrig_keeps h d a b c s
  | instructionFetchReturn p fresh => exact execInstructionFetchReturn_keeps p fresh s
  | resultWriteback id => exact execResultWriteback_keeps id s
  | fibreQuantumExpiry core berth => exact execFibreQuantumExpiry_keeps core berth s
  | starvationOverride core berth => exact execStarvationOverride_keeps core berth s
  | dividedHalfRotate p => exact execDividedHalfRotate_keeps p s
  | spanLengthLimit p => exact execSpanLengthLimit_keeps p s
  | spanCommitRefused p => exact execSpanCommitRefused_keeps p s
  | gateOpen p => exact execGateOpen_keeps p s
  | residentResume p how => exact execResidentResume_keeps p how s
  | homeLeaseRequest id => exact execHomeLeaseRequest_keeps id s
  | leaseReply id => exact execLeaseReply_keeps id s
  | ownershipRequest id => exact execOwnershipRequest_keeps id s
  | ownershipGrant id => exact execOwnershipGrant_keeps id s
  | recallAnswer id => exact execRecallAnswer_keeps id s
  | untrackedAccess id => exact execUntrackedAccess_keeps id s
  | spinNudge p => exact execSpinNudge_keeps p s
  | parkedClockNudge core => exact execParkedClockNudge_keeps core s
  | parkProbe p => exact execParkProbe_keeps p s
  | parkProbeReply id => exact execParkProbeReply_keeps id s
  | peerPacket src pa clk op => exact execPeerPacket_keeps src pa clk op s
  | peerReply id rep => exact execPeerReply_keeps id rep s
  | partialArrival id => exact execPartialArrival_keeps id s
  | homeAtomic id => exact execHomeAtomic_keeps id s
  | atomicReply id => exact execAtomicReply_keeps id s
  | promVictim id => exact execPromVictim_keeps id s
  | homeMbarOp id => exact execHomeMbarOp_keeps id s
  | homeQueueOp id => exact execHomeQueueOp_keeps id s
  | homeDepDec id => exact execHomeDepDec_keeps id s
  | depRecordArrival id => exact execDepRecordArrival_keeps id s
  | eventPost p => exact execEventPost_keeps p s
  | spanCompare p => exact execSpanCompare_keeps p s
  | groupPlace g => exact execGroupPlace_keeps g s
  | drainTimeout g => exact execDrainTimeout_keeps g s
  | groupSaveWrite g => exact execGroupSaveWrite_keeps g s
  | groupRetire g => exact execGroupRetire_keeps g s
  | copyCommandExecute core ch => exact execCopyCommandExecute_keeps core ch s
  | gatherCommandExecute core moved => exact execGatherCommandExecute_keeps core moved s
  | engineCommandComplete id => exact execEngineCommandComplete_keeps id s
  | matrixStep quay => exact execMatrixStep_keeps quay s
  | matrixAgePromote quay e => exact execMatrixAgePromote_keeps quay e s
  | weightPlaneLoad quay => exact execWeightPlaneLoad_keeps quay s
  | taskTake cid => exact execTaskTake_keeps cid s
  | graphTrigger slot npatch => exact execGraphTrigger_keeps slot npatch s
  | graphRefusedRead slot => exact execGraphRefusedRead_keeps slot s
  | graphRecordPlace slot run => exact execGraphRecordPlace_keeps slot run s
  | reload cid => exact execReload_keeps cid s
  | freeze cid => exact execFreeze_keeps cid s
  | thaw cid => exact execThaw_keeps cid s
  | kill cid => exact execKill_keeps cid s
  | retire cid => exact execRetire_keeps cid s
  | dump cid => exact execDump_keeps cid s
  | sliceExpiry cid => exact execSliceExpiry_keeps cid s
  | gangStartWrite t => exact execGangStartWrite_keeps t s
  | gangSliceStart gang => exact execGangSliceStart_keeps gang s
  | gangStartPacket gang src => exact execGangStartPacket_keeps gang src s
  | gangAbandon gang => exact execGangAbandon_keeps gang s
  | lighthouseFire cid => exact execLighthouseFire_keeps cid s
  | heartbeatWrite v => exact execHeartbeatWrite_keeps v s
  | walkComplete die w => exact execWalkComplete_keeps die w s
  | walkDispatch die => exact execWalkDispatch_keeps die s
  | linkEnable n => exact execLinkEnable_keeps n s
  | linkDisable n => exact execLinkDisable_keeps n s
  | linkTrained n width peer => exact execLinkTrained_keeps n width peer s
  | linkTrainingTimeout n => exact execLinkTrainingTimeout_keeps n s
  | linkLaneFail n usable => exact execLinkLaneFail_keeps n usable s
  | flitReceive n seq crcOk dst pa => exact execFlitReceive_keeps n seq crcOk dst pa s
  | flitAck n seq => exact execFlitAck_keeps n seq s
  | flitResendTimeout n => exact execFlitResendTimeout_keeps n s
  | stopFlit n => exact execStopFlit_keeps n s
  | resumeFlit n => exact execResumeFlit_keeps n s
  | linkStatusRead n => exact execLinkStatusRead_keeps n s
  | peerReplyTimeout id => exact execPeerReplyTimeout_keeps id s
  | timerFlit n t => exact execTimerFlit_keeps n t s
  | hostMemoryAccess a => exact execHostMemoryAccess_keeps a s
  | collStart id parts => exact execCollStart_keeps id parts s
  | collComplete id => exact execCollComplete_keeps id s
  | halt cid p => exact execHalt_keeps cid p s
  | resume cid p => exact execResume_keeps cid p s
  | step cid p => exact execStep_keeps cid p s
  | haltAtRegionEdge cid p => exact execHaltAtRegionEdge_keeps cid p s
  | haltEveryFibre cid => exact execHaltEveryFibre_keeps cid s
  | resumeEveryFibre cid => exact execResumeEveryFibre_keeps cid s
  | sampleTick cid => exact execSampleTick_keeps cid s
  | replayDivergence id => exact execReplayDivergence_keeps id s
  | faultInjectArm v => exact execFaultInjectArm_keeps v s
  | firmwareImageReceive image fwver => exact execFirmwareImageReceive_keeps image fwver s
  | warmRebootRequest who => exact execWarmRebootRequest_keeps who s
  | quoteRequest nonce => exact execQuoteRequest_keeps nonce s
  | lifecycleTransition target sig => exact execLifecycleTransition_keeps target sig s
  | frequencyStep die fmul => exact execFrequencyStep_keeps die fmul s
  | pllRelockDone die => exact execPllRelockDone_keeps die s
  | registerWrite who pa size v => exact execRegisterWrite_keeps who pa size v s
  | portReply id data => exact execPortReply_keeps id data s
  | alloc => exact execAlloc_keeps s
  | load => exact execLoad_keeps s
  | contextResultRead => exact execContextResultRead_keeps s
  | dumpStart => exact execDumpStart_keeps s
  | dumpWritten => exact execDumpWritten_keeps s
  | heartbeatMiss => exact execHeartbeatMiss_keeps s
  | controlCoreException => exact execControlCoreException_keeps s
  | faultInjectDoneClear => exact execFaultInjectDoneClear_keeps s
  | coldReset => exact execColdReset_keeps s
  -- RECALL: its constructor's name is a keyword
  | _ => exact execRecall_keeps _ s

theorem runIssuing_keeps (x : Issuing) : Keeps (runIssuing x) x.state := by
  cases x with
  | act i s =>
    obtain ⟨t, ht, hw⟩ := exec_keeps i s
    refine ⟨countLanes s t i, ?_, fun h => ?_⟩
    · simp only [runIssuing, ht]
    · rw [countLanes_mem]
      exact hw h
  | done s => exact keeps_next id

theorem waitDies_keeps {o : Out} {s w : State} (h : Keeps o s) (hw : w.mem = s.mem) : Keeps (waitDies o w) s := by
  obtain ⟨t, rfl, ht⟩ := h
  unfold waitDies
  dsimp only
  split
  · exact keeps_next (by rw [hw]; exact id)
  · exact keeps_next ht

/-- A step that is made of one of another state whose memory has the form. -/
theorem keeps_of_wf {o : Out} {s t : State} (h : Memory.wf s.mem = true → Memory.wf t.mem = true) (ho : Keeps o t) : Keeps o s := by
  obtain ⟨u, rfl, hu⟩ := ho
  exact keeps_next fun hs => hu (h hs)

theorem takeTurn_event_keeps (i : Instr) (s : State) : Keeps (takeTurn (.event i) s) s := by
  unfold takeTurn
  dsimp only
  split
  · exact keeps_next id
  · split
    · exact keeps_next (by rw [due_mem]; exact id)
    · exact waitDies_keeps (exec_keeps i s) (due_mem s i)

theorem takeTurn_keeps (a : Action) (s : State) : Keeps (takeTurn a s) s := by
  have hout (a : Action) : Keeps (waitDies (.next (outsideAct s a)) s) s := waitDies_keeps (keeps_next (wf_outsideAct s a)) rfl
  cases a with
  | event i => exact takeTurn_event_keeps i s
  | issue core berth =>
    have hr := keeps_of_wf (wf_issueAt s core berth) (runIssuing_keeps (issueAt s core berth))
    exact waitDies_keeps hr rfl
  | evict core line => exact hout (.evict core line)
  | sendParts core line => exact hout (.sendParts core line)
  | spillFull line => exact hout (.spillFull line)
  | dropTlb core => exact hout (.dropTlb core)
  | memError line present => exact hout (.memError line present)
  | outside pa bytes => exact hout (.outside pa bytes)
  | upload n cid recs => exact hout (.upload n cid recs)
  | sensor a v => exact hout (.sensor a v)
  | flash image => exact hout (.flash image)
  | hostWindow base size => exact hout (.hostWindow base size)
  | openRegs pa size => exact hout (.openRegs pa size)
  | closeRegs => exact hout .closeRegs

theorem step_keeps (s : State) : Keeps (step s) s := by
  have ht (u : State) (a : Action) (dt : Nat) (hu : u.mem = s.mem) : Keeps (takeTurn a (tick u dt)) s :=
    keeps_of_wf (by rw [tick_mem, hu]; exact id) (takeTurn_keeps a (tick u dt))
  unfold step
  split
  · exact ht _ _ _ rfl
  · split
    · exact ht _ _ _ rfl
    · exact ht _ _ _ rfl

end Sys2Proof.Machine

namespace Sys2Proof

/-- Settles O58: every row's meaning is of the form `.next`, and a step is made of one. -/
theorem neverStops : Obligations.NeverStops := by
  unfold Obligations.NeverStops
  constructor
  · intro i s
    obtain ⟨t, ht, -⟩ := Machine.exec_keeps i s
    exact ⟨t, ht⟩
  · intro s
    obtain ⟨t, ht, -⟩ := Machine.step_keeps s
    exact ⟨t, ht⟩

/-- Settles O60: memory changes only through operations that keep its canonical form. -/
theorem memoryStaysCanonical : Obligations.MemoryStaysCanonical := by
  unfold Obligations.MemoryStaysCanonical
  intro s t h hst
  obtain ⟨u, hu, hw⟩ := Machine.step_keeps s
  obtain rfl : u = t := by
    rw [hu] at hst
    cases hst
    rfl
  exact hw h

end Sys2Proof
end

section
/-! PROOFS. What a step runs (R55, R147 to R149, R163, R426), and the state after reset (R431, R438). -/

namespace Sys2Proof.Machine

variable {s : State}

theorem step_idle (hs : s.sched = []) (ha : s.agenda = []) :
    step s = waitDies (runIssuing (issueAt (tick s 1) s.focus.1 s.focus.2)) (tick s 1) := by
  unfold step
  simp only [hs, ha]
  rfl

theorem step_due {i : Instr} {is : List Instr} (hs : s.sched = []) (ha : s.agenda = i :: is) :
    step s = takeTurn (.event i) (tick { s with agenda := is } 1) := by
  unfold step
  simp only [hs, ha]

theorem step_scheduled {t : Turn} {ts : List Turn} (hs : s.sched = t :: ts) :
    step s = takeTurn t.act (tick { s with sched := ts } t.dt) := by
  unfold step
  simp only [hs]

theorem takeTurn_event {i : Instr} (hi : i.info = none) (v : State) :
    takeTurn (.event i) v = if rowWaits v i then .next (due v i) else waitDies (exec i v) (due v i) := by
  simp [takeTurn, isEvent, hi]

theorem waitDies_next (t w : State) : waitDies (.next t) w = .next (if t.crossed.any (dieStands t) then w else t) := by
  unfold waitDies
  dsimp only
  split <;> rfl

/-- The turn of a berth whose current fibre goes on: the word at its pc is fetched and decoded. -/
theorem issueAt_word {n : State} {c b : Nat} {f : Fibre} (hd : dieStands n (dieOf c) = false) (hst : starved n c b = none)
    (hf : getF n (curPlace n c b) = some f) (he : eligible n (curPlace n c b) f = true) (hfa : f.span.faulted = none)
    (hc : f.committing = false) (hq : f.op.isSome = true ∨ (getB n c b).run < 4096 ∧ (f.halfCount < 256 ∨ f.halves = [])) :
    issueAt n c b = issueWord n (curPlace n c b) f := by
  unfold issueAt
  simp only [hd, hst, hf, he, hfa, hc, Bool.false_eq_true, if_false, Bool.not_true, Option.isSome_none, Bool.false_and, Bool.false_or]
  split
  · rfl
  next hop =>
    obtain ⟨hr, hh⟩ := hq.resolve_left hop
    rw [if_neg (by omega), if_neg]
    rcases hh with hh | hh
    · simp; omega
    · simp [hh]

theorem issueWord_ok {n u : State} {p : Place} {f : Fibre} {w : InsnWord} (h : fetchWord n p f false = (.ok w, u)) :
    issueWord n p f =
      match decodeWord w with
      | .error _ => .done (undefWord (modF { farDrop u (ownerFetch p) with here := p } p fun g => { g with fetched := some (g.pc, w) }) p)
      | .ok i => .act i (modF { farDrop u (ownerFetch p) with here := p } p fun g => { g with fetched := some (g.pc, w) }) := by
  unfold issueWord
  simp only [h] <;> cases decodeWord w <;> rfl

/-! ### The state after reset -/

theorem resetRegs_eq : resetRegs =
    [(0x010000690000, 15000), (0x010000690008, 33), (0x010000690010, 33), (0x010000690018, 33), (0x010000690020, 33),
     (0x010000690028, 33), (0x010000690030, 33), (0x010000690038, 33), (0x010000690040, 33)] := by decide

theorem getReg_reset_freq (d : Nat) (h : d < 8) : getReg State.reset (0x010000690008 + 8 * d) = 33 := by
  have : ∀ d : Fin 8, getReg State.reset (0x010000690008 + 8 * d.val) = 33 := by decide
  exact this ⟨d, h⟩

theorem getReg_reset_other {a : Nat} (hp : a ≠ 0x010000690000) (hf : ∀ d, d < 8 → a ≠ 0x010000690008 + 8 * d) :
    getReg State.reset a = 0 := by
  have hd (d : Nat) (h : d < 8) : ¬ 0x010000690008 + 8 * d = a := fun e => hf d h e.symm
  simp only [getReg, State.reset, resetRegs_eq, tget]
  rw [if_neg (Ne.symm hp), if_neg (hd 0 (by decide)), if_neg (hd 1 (by decide)), if_neg (hd 2 (by decide)), if_neg (hd 3 (by decide)),
    if_neg (hd 4 (by decide)), if_neg (hd 5 (by decide)), if_neg (hd 6 (by decide)), if_neg (hd 7 (by decide))]

end Sys2Proof.Machine

namespace Sys2Proof

open Machine

/-- Settles O57. -/
theorem stepRunsDecoded : Obligations.StepRunsDecoded := by
  unfold Obligations.StepRunsDecoded
  intro s u f w i is n c b p
  refine ⟨fun hs ha hd hst hf he hfa hc hq hw => ?_, fun hs ha hi => ?_, fun dt ts hs hi => ?_, waitDies_next⟩
  · intro v
    have hstep : step s = waitDies (runIssuing (issueWord n p f)) n := by
      rw [step_idle hs ha, issueAt_word hd hst hf he hfa hc hq]
    rw [hstep, issueWord_ok hw]
    refine ⟨fun t hi ht => ?_, fun e hi => ?_⟩
    · simp only [hi, runIssuing]
      rw [show exec i v = .next t from ht]
      exact waitDies_next _ _
    · simp only [hi, runIssuing]
      exact waitDies_next _ _
  · intro v
    rw [step_due hs ha, takeTurn_event hi]
    exact ⟨fun h => by rw [if_neg (by simpa using h)], fun h => by rw [if_pos h]⟩
  · intro v
    rw [step_scheduled hs, takeTurn_event hi]
    exact ⟨fun h => by rw [if_neg (by simpa using h)], fun h => by rw [if_pos h]⟩

/-- Settles O59. -/
theorem reset : Obligations.Reset := by
  unfold Obligations.Reset
  refine ⟨rfl, rfl, rfl, rfl, rfl, rfl, rfl, by decide, fun d => ⟨rfl, rfl, rfl⟩, by decide, getReg_reset_freq,
    fun a => getReg_reset_other, fun n => rfl⟩

end Sys2Proof
end

section
/-! PROOFS. What a home does with a request, what comes back from it, and recalls (R222 to R245). -/
namespace Sys2Proof.Machine

variable (s : State)

/-! ### Requests in the home's list -/

theorem findReq_mem {s : State} {id : Nat} {r : Req} (h : findReq s id = some r) : r ∈ s.reqs := List.mem_of_find?_eq_some h

theorem findReq_id {s : State} {id : Nat} {r : Req} (h : findReq s id = some r) : r.id = id := by
  simpa using List.find?_some h

theorem isLease_iff (o : HomeOp) : isLease o = true ↔ ∃ c n, o = .lease c n := by cases o <;> simp [isLease]
theorem isOwnOp_iff (o : HomeOp) : isOwnOp o = true ↔ o = .own := by simp [isOwnOp]
theorem isAtomic_iff_exists (o : HomeOp) : isAtomic o = true ↔ ∃ m t l pc b c, o = .atomic m t l pc b c := by cases o <;> simp [isAtomic]

/-- The request's own record is dropped before it is served, so what is changed in that record alone has no effect. -/
theorem dropReq_mapped (id : Nat) (g : Req → Req) (hg : ∀ q, (g q).id = q.id) :
    dropReq { s with reqs := s.reqs.map fun q => if q.id = id then g q else q } id = dropReq s id := by
  have hl : (s.reqs.map fun q => if q.id = id then g q else q).filter (fun q => q.id != id) = s.reqs.filter fun q => q.id != id := by
    induction s.reqs with
    | nil => rfl
    | cons q t ih =>
      by_cases hq : q.id = id
      · simp [hq, hg, ih]
      · simp [hq, ih]
  unfold dropReq
  simp only [hl]

theorem serveNow_congr {s t : State} {r : Req} (h : dropReq s r.id = dropReq t r.id) : serveNow s r = serveNow t r := by
  unfold serveNow
  rw [h]

/-- What a request is served to when nothing stands before it. -/
theorem serveReq_servable {r : Req} (h : Claim.Servable s r) (ht : ∀ m a b, r.op ≠ .tlbi m a b) : serveReq s r.id = serveNow s r := by
  obtain ⟨hfind, hown, hbusy, hbehind, hmay, hrecall, hport⟩ := h
  have hdrop := dropReq_mapped s r.id (fun q => { q with held := 0 }) fun _ => rfl
  unfold serveReq
  rw [hfind]
  dsimp only
  have hp : needsPort { s with reqs := s.reqs.map fun (q : Req) => if q.id = r.id then { q with held := 0 } else q } r = needsPort s r := rfl
  simp only [hown, hbusy, hbehind, hmay, hrecall, hp, hport]
  cases hop : r.op with
  | tlbi m a b => exact absurd hop (ht m a b)
  | _ => exact serveNow_congr hdrop

/-! ### Answers that are on their way -/

@[simp] theorem pulse_replies (cid : Nat) : (pulse s cid).replies = s.replies := by
  unfold pulse modX
  split <;> rfl

theorem foldl_replies {α : Type} (l : List α) (g : State → α → State) (hg : ∀ t a, (g t a).replies = t.replies) (t : State) :
    (l.foldl g t).replies = t.replies := by
  induction l generalizing t with
  | nil => rfl
  | cons a l ih => exact (ih (g t a)).trans (hg t a)

@[simp] theorem wakeLine_replies (line : Nat) : (wakeLine s line).replies = s.replies := foldl_replies _ wake (fun _ _ => rfl) _
@[simp] theorem wakeSlice_replies (k cid : Nat) : (wakeSlice s k cid).replies = s.replies := foldl_replies _ wake (fun _ _ => rfl) _

theorem answer_replies {r : Req} {a : Answer} {i : Instr} (hc : ownCore r.core = true) (hi : replyRow r = some i) :
    (answer s r a).replies = s.replies ++ [{ id := r.id, req := r, ans := a }] := by
  unfold answer
  simp [hc, hi]

/-- An answer that travels is on its way when the request has been served. -/
theorem serveNow_answers {r : Req} {i : Instr} (hc : ownCore r.core = true) (hi : replyRow r = some i) :
    { id := r.id, req := r, ans := (perform (countServed (dropReq s r.id) r) r).1 } ∈ (serveNow s r).replies := by
  unfold serveNow
  extract_lets s1 k a s2 s3 s4 s5 s6
  have h4 : s4.replies = s3.replies ++ [{ id := r.id, req := r, ans := a.1 }] := answer_replies s3 hc hi
  have h5 : s5.replies = s4.replies := by
    unfold s5
    split
    · exact pulse_replies _ _
    · rfl
  have h6 : s6.replies = s5.replies := wakeLine_replies _ _
  split
  · rw [wakeSlice_replies, h6, h5, h4]; simp [a, s1]
  · rw [h6, h5, h4]; simp [a, s1]

theorem serveIf_servable {r : Req} {k : HomeOp → Bool} (h : Claim.Servable s r) (hk : k r.op = true)
    (ht : ∀ m a b, r.op ≠ .tlbi m a b) : serveIf s r.id k = serveNow s r := by
  have hfind := h.1
  unfold serveIf
  simp only [hfind, hk, if_true]
  exact serveReq_servable s h ht

end Sys2Proof.Machine

namespace Sys2Proof
open Machine

/-- Settles O33: a request with nothing before it is served by `serveNow`; its own record, which `serveReq` marks first, is dropped
there, and the answer that `answer` puts under way stays among those that travel. -/
theorem homeServes : Obligations.HomeServes := by
  unfold Obligations.HomeServes
  intro s r h e he hk
  have hrun : Machine.exec e.1 s = .next (serveNow s r) := by
    simp only [List.mem_cons, List.not_mem_nil, or_false] at he
    rcases he with rfl | rfl | rfl | rfl | rfl | rfl | rfl | rfl | rfl <;>
      exact congrArg Host.Outcome.next
        (serveIf_servable s h hk fun m a b hop => by
          rw [hop] at hk
          simp [isLease, isOwnOp, isUntracked, isPart, isAtomic, isMbar, isQueueOp, isDepRec] at hk)
  refine ⟨hrun, fun hop hc => ?_⟩
  obtain ⟨i, hi⟩ : ∃ i, replyRow r = some i := by
    rcases hop with hop | hop | hop
    · obtain ⟨c, n, hop⟩ := (isLease_iff _).1 hop
      exact ⟨_, by simp only [replyRow, hop]; rfl⟩
    · rw [isOwnOp_iff] at hop
      exact ⟨_, by simp only [replyRow, hop]; rfl⟩
    · obtain ⟨m, t, l, pc, b, c, hop⟩ := (isAtomic_iff_exists _).1 hop
      exact ⟨_, by simp only [replyRow, hop]; rfl⟩
  exact ⟨_, serveNow_answers s hc hi, rfl, rfl, rfl⟩

end Sys2Proof

namespace Sys2Proof.Machine

/-! ### What a home keeps of a line (R222, R225) -/

@[simp] theorem getHome_setHome (s : State) (line : Nat) (h : Home) : getHome (setHome s line h) line = h := by
  unfold getHome setHome
  rw [tfind_tput_self]

@[simp] theorem getSl_setHome (s : State) (line k : Nat) (h : Home) : getSl (setHome s line h) k = getSl s k := rfl

/-- The tides that a home stores, with the slice's base as it is then (R225). -/
theorem homeTides_shape (s : State) (line wt hl : Nat) :
    ∃ u, homeTides s line wt hl = setHome u line { getHome u line with
      wt := capTide (max wt (getSl u (sliceOfPa (line * 128))).base), hl := capTide (max hl (getSl u (sliceOfPa (line * 128))).base) } :=
  ⟨_, by unfold homeTides; exact rfl⟩

theorem homeTides_home (s : State) (line wt hl : Nat) :
    (getHome (homeTides s line wt hl) line).hl =
      capTide (max hl (getSl (homeTides s line wt hl) (sliceOfPa (line * 128))).base) := by
  obtain ⟨u, h⟩ := homeTides_shape s line wt hl
  rw [h, getHome_setHome, getSl_setHome]

/-- The answer to a lease, of the line as it is once its tides are stored. -/
def leaseAnswer (s : State) (line : Nat) : Answer :=
  { data := homeData s line, wt := (getHome s line).wt, lt := (getHome s line).hl, status := 0, cls := if isErr s line then 8 else 0 }

theorem homeLease_pair (s : State) (line clk len : Nat) :
    ∃ v, (getHome v line).hl = capTide (max (max (getHome (collect (crossLine s line) line) line).hl (clk + len))
        (getSl v (sliceOfPa (line * 128))).base) ∧ homeLease s line clk len = (leaseAnswer v line, v) :=
  ⟨_, homeTides_home (collect (crossLine s line) line) line (getHome (collect (crossLine s line) line) line).wt _, rfl⟩

theorem homeLease_lt (s : State) (line clk len : Nat) :
    (homeLease s line clk len).1.lt =
      capTide (max (max (getHome (collect (crossLine s line) line) line).hl (clk + len))
        (getSl (homeLease s line clk len).2 (sliceOfPa (line * 128))).base) := by
  obtain ⟨v, hv, h⟩ := homeLease_pair s line clk len
  rw [h, ← hv]
  rfl

theorem homeLease_mem (s : State) (line clk len : Nat) : (homeLease s line clk len).2.mem = (collect (crossLine s line) line).mem :=
  homeTides_mem _ _ _ _

theorem homeWrite_mem (s : State) (pa clk : Nat) (b : List Byte) (w : Nat) :
    (homeWrite s pa clk b w).2.mem = memWr (collect (crossLine s (lineNo pa)) (lineNo pa)).mem (localAddr pa) b := by
  unfold homeWrite
  dsimp only
  rw [homeTides_mem, noteWrite_mem]

section
variable (s : State) (pa clk major : Nat) (t : Ty) (lane : Nat) (pc : DWord) (b c : Nat)

/-- On a line in error an atomic is refused and writes nothing (R244). -/
theorem homeAtomicOp_err (h : isErr (collect (crossLine s (lineNo pa)) (lineNo pa)) (lineNo pa) = true) :
    (homeAtomicOp s pa clk major t lane pc b c).1.cls = 8 ∧
      (homeAtomicOp s pa clk major t lane pc b c).2 = collect (crossLine s (lineNo pa)) (lineNo pa) := by
  unfold homeAtomicOp
  simp only [h, if_true, and_self]

/-- One that does not write brings the old value back. -/
theorem homeAtomicOp_keeps (h : isErr (collect (crossLine s (lineNo pa)) (lineNo pa)) (lineNo pa) = false)
    (hv : atomNew major t lane pc (natOf (memRd (collect (crossLine s (lineNo pa)) (lineNo pa)).mem (localAddr pa) (4 * t.regs))) b c = none) :
    homeAtomicOp s pa clk major t lane pc b c =
      ({ data := memRd (collect (crossLine s (lineNo pa)) (lineNo pa)).mem (localAddr pa) (4 * t.regs)
         wt := (getHome (collect (crossLine s (lineNo pa)) (lineNo pa)) (lineNo pa)).wt, lt := 0, status := 0, cls := 0 },
        collect (crossLine s (lineNo pa)) (lineNo pa)) := by
  unfold homeAtomicOp
  simp only [h, hv, Bool.false_eq_true, if_false]

/-- One that writes is a write at the home, and brings the old value back. -/
theorem homeAtomicOp_writes {v : Nat} (h : isErr (collect (crossLine s (lineNo pa)) (lineNo pa)) (lineNo pa) = false)
    (hv : atomNew major t lane pc (natOf (memRd (collect (crossLine s (lineNo pa)) (lineNo pa)).mem (localAddr pa) (4 * t.regs))) b c = some v) :
    homeAtomicOp s pa clk major t lane pc b c =
      ({ (homeWrite (collect (crossLine s (lineNo pa)) (lineNo pa)) pa clk (bytesOf (4 * t.regs) v)).1 with
          data := memRd (collect (crossLine s (lineNo pa)) (lineNo pa)).mem (localAddr pa) (4 * t.regs), status := 1 },
        (homeWrite (collect (crossLine s (lineNo pa)) (lineNo pa)) pa clk (bytesOf (4 * t.regs) v)).2) := by
  unfold homeAtomicOp
  simp only [h, hv, Bool.false_eq_true, if_false]

end

/-! ### The values of the atomics (R245) -/

theorem wrapI_ofNat_add (a b : Word) : wrapI 32 ((a.toNat : Int) + b.toNat) = (a + b).toNat := by
  rw [wrapI_eq_ofInt, BitVec.ofInt_add, BitVec.ofInt_natCast, BitVec.ofInt_natCast]
  simp

theorem wrapI_ofNat_sub (a b : Word) : wrapI 32 ((a.toNat : Int) - b.toNat) = (a - b).toNat := by
  rw [wrapI_eq_ofInt, BitVec.toNat_ofInt, BitVec.toNat_sub]
  have ha := a.isLt
  have hb := b.isLt
  omega

theorem elemI_i32 (a : Word) : elemI .i32 0 a.toNat = a.toInt := by
  have h : elem 32 0 a.toNat = a.toNat := by simp [elem, Nat.mod_eq_of_lt a.isLt]
  change sInt 32 (elem 32 0 a.toNat) = _
  rw [h, sInt_eq_toInt]
  simp

theorem elemI_n32 (a : Word) : elemI .n32 0 a.toNat = a.toNat := by
  have h : elem 32 0 a.toNat = a.toNat := by simp [elem, Nat.mod_eq_of_lt a.isLt]
  change ((elem 32 0 a.toNat : Nat) : Int) = _
  rw [h]

end Sys2Proof.Machine

namespace Sys2Proof
open Machine

theorem homeMemoryRule : Claim.HomeMemoryRule := by
  intro s pa clk len lane major bytes t pc b c
  refine ⟨homeLease_mem _ _ _ _, rfl, homeLease_lt _ _ _ _, homeWrite_mem _ _ _ _ _, fun herr => ?_, fun herr => ?_⟩
  · cases hv : atomNew major t lane pc (natOf (memRd (collect (crossLine s (lineNo pa)) (lineNo pa)).mem (localAddr pa) (4 * t.regs))) b c with
    | none =>
      rw [homeAtomicOp_keeps _ _ _ _ _ _ _ _ _ herr hv]
      exact ⟨rfl, rfl, fun _ => ⟨rfl, rfl⟩, fun v h => by simp at h⟩
    | some v =>
      rw [homeAtomicOp_writes _ _ _ _ _ _ _ _ _ herr hv]
      refine ⟨rfl, rfl, fun h => by simp at h, fun w h => ?_⟩
      obtain rfl : v = w := by simpa using h
      exact ⟨rfl, homeWrite_mem _ _ _ _ _⟩
  · obtain ⟨h1, h2⟩ := homeAtomicOp_err s pa clk major t lane pc b c herr
    exact ⟨h1, by rw [h2]⟩

theorem atomicValuesRule : Claim.AtomicValuesRule := by
  intro lane pc old b c
  refine ⟨congrArg some (wrapI_ofNat_add _ _), congrArg some (wrapI_ofNat_sub _ _), ?_, ?_, ?_, ?_, ?_, ?_, ?_, rfl, ?_, rfl, rfl⟩
  · simp only [atomNew, elemI_i32, BitVec.slt_eq_decide, decide_eq_true_eq, apply_ite BitVec.toNat]
  · simp only [atomNew, elemI_i32, BitVec.slt_eq_decide, decide_eq_true_eq, apply_ite BitVec.toNat]
  · simp only [atomNew, elemI_n32, BitVec.ult_eq_decide, decide_eq_true_eq, apply_ite BitVec.toNat, Nat.cast_lt]
  · simp only [atomNew, elemI_n32, BitVec.ult_eq_decide, decide_eq_true_eq, apply_ite BitVec.toNat, Nat.cast_lt]
  · simp [atomNew]
  · simp [atomNew]
  · simp [atomNew]
  · simp only [atomNew, BitVec.toNat_inj]

/-- Settles O34: `homeTides` sets the lease, `collect` and `memWr` alone write memory, and the 32-bit operations are those of words. -/
theorem homeValues : Obligations.HomeValues := ⟨homeMemoryRule, atomicValuesRule⟩

end Sys2Proof

namespace Sys2Proof.Machine

/-! ### Answers that arrive, and recalls (R222 to R224) -/

theorem pick_find {α : Type} {p : α → Bool} {l r : List α} {x : α} (h : pick p l = some (x, r)) : l.find? p = some x := by
  induction l generalizing r with
  | nil => simp [pick] at h
  | cons y t ih =>
    unfold pick at h
    split at h
    · next hy => simp_all
    · next hy =>
      cases hp : pick p t with
      | none => simp [hp] at h
      | some z =>
        obtain ⟨rfl, -⟩ : z.1 = x ∧ y :: z.2 = r := by simpa [hp] using h
        simp [hy, ih hp]

theorem pick_pos {α : Type} {p : α → Bool} {l r : List α} {x : α} (h : pick p l = some (x, r)) : p x = true := List.find?_some (pick_find h)

theorem mem_swapFirst {α : Type} (p : α → Bool) (x y : α) {l : List α} (hx : x ∈ l) (hp : p x = true) : y ∈ swapFirst p y l := by
  induction l with
  | nil => simp at hx
  | cons z t ih =>
    unfold swapFirst
    split
    · simp
    · next hz =>
      rcases List.mem_cons.1 hx with rfl | hx
      · exact absurd hp hz
      · exact List.mem_cons_of_mem _ (ih hx)

section
variable (s : State)

theorem arriveIf_pick {x : Reply} {rest : List Reply} {k : HomeOp → Bool} (h : pick (fun y => y.id == x.id) s.replies = some (x, rest))
    (hk : k x.req.op = true) : arriveIf s x.id k = arrive s x.id := by
  unfold arriveIf
  simp only [pick_find h, hk, if_true]

theorem arrive_pick {x : Reply} {rest : List Reply} (h : pick (fun y => y.id == x.id) s.replies = some (x, rest))
    (hr : (deliver { s with replies := rest } x.req x.ans).recalls = []) :
    arrive s x.id = deliver { s with replies := rest } x.req x.ans := by
  unfold arrive
  simp only [h, hr, List.foldl_nil]

/-! A recall leaves the requests of the home as they are. -/

theorem field_ite {β : Type} (F : State → β) {c : Prop} [Decidable c] {a b : State} {m : β} (ha : F a = m) (hb : F b = m) :
    F (if c then a else b) = m := by
  split
  · exact ha
  · exact hb

@[simp] theorem setHome_reqs (line : Nat) (h : Home) : (setHome s line h).reqs = s.reqs := rfl
@[simp] theorem rebaseSlice_reqs (k t : Nat) : (rebaseSlice s k t).reqs = s.reqs := field_ite State.reqs rfl rfl
@[simp] theorem homeTides_reqs (line wt hl : Nat) : (homeTides s line wt hl).reqs = s.reqs := by
  unfold homeTides
  rw [setHome_reqs, rebaseSlice_reqs]
@[simp] theorem takeBack_reqs (core line : Nat) (d : Option (Line × BitVec 4)) : (takeBack s core line d).reqs = s.reqs := by
  cases d with
  | none => rfl
  | some x =>
    unfold takeBack
    rw [setHome_reqs, homeTides_reqs]

theorem takeBack_some_mem (core line : Nat) (d : Line) (m : BitVec 4) :
    (takeBack s core line (some (d, m))).mem = writeBack s.mem line d m := by
  unfold takeBack
  rw [setHome_mem, homeTides_mem]

theorem findReq_congr {s t : State} (h : s.reqs = t.reqs) (id : Nat) : findReq s id = findReq t id := by
  unfold findReq
  rw [h]

theorem recallAt_spec {c : Recall} {cp : Copy} (hc : s.recalls.find? (fun x => x.id == c.id && !x.answered) = some c)
    (hr : ∀ x ∈ s.replies, ¬ (x.req.core = c.core ∧ lineNo x.req.pa = c.line ∧ x.req.op = .own)) (hcp : getCopy s c.core c.line = some cp)
    (ho : cp.owned = true) (he : c.ended = false) (hw : cp.wt ≤ max c.grant (getC s c.core).base) :
    recallAt s c.id = due { dropCopy s c.core c.line with
      recalls := swapFirst (fun x : Recall => x == c) { c with answered := true, data := some (cp.data, cp.dirty) } s.recalls }
      (.recallAnswer c.id) := by
  have hf : (s.replies.any fun x => x.req.core == c.core && lineNo x.req.pa == c.line && x.req.op == .own) = false := by
    simpa [List.any_eq_false, and_assoc] using hr
  unfold recallAt
  simp only [hc, hf, hcp, ho, he, hw, Bool.false_eq_true, if_false, Bool.not_false, Bool.and_true, decide_true, if_true,
    Option.isSome_some]
  rfl

end

end Sys2Proof.Machine

namespace Sys2Proof
open Machine

theorem answersArriveRule : Claim.AnswersArriveRule := by
  intro s x rest h e he hk
  have hrun : Machine.exec e.1 s = .next (arrive s x.id) := by
    simp only [List.mem_cons, List.not_mem_nil, or_false] at he
    rcases he with rfl | rfl | rfl | rfl
    · exact congrArg Host.Outcome.next (arriveIf_pick s h hk)
    · exact congrArg Host.Outcome.next (arriveIf_pick s h (by simpa using Or.inl hk))
    · exact congrArg Host.Outcome.next (arriveIf_pick s h hk)
    · exact congrArg Host.Outcome.next (arriveIf_pick s h hk)
  exact ⟨hrun, fun hr => by rw [hrun, arrive_pick s h hr]⟩

theorem recallsRule : Claim.RecallsRule := by
  intro s c rest
  refine ⟨fun hc hr cp hcp ho he hw => ⟨_, congrArg Host.Outcome.next (recallAt_spec s hc hr hcp ho he hw), rfl, rfl, rfl, ?_⟩, fun hp => ?_⟩
  · exact ⟨_, mem_swapFirst _ c _ (List.mem_of_find?_eq_some hc) (by simp), rfl, rfl, rfl⟩
  intro t u
  have hq : u.reqs = s.reqs := by
    unfold u t
    split <;> simp
  have hdone : Machine.exec (.recallAnswer c.id) s =
      .next (if (findReq u c.id).isSome then serveReq u c.id else wakeLine u c.line) := by
    refine congrArg Host.Outcome.next ?_
    unfold recallDone
    simp only [hp, u, t]
  rw [hdone, findReq_congr hq]
  refine ⟨fun h => by rw [if_pos h], fun h => by simp [h], fun d m he hd => ?_⟩
  unfold t
  rw [if_neg (by simp [he]), hd, takeBack_some_mem]

/-- Settles O35: an answer picked from those under way is delivered once; a recall takes the owned copy from the L1, and its answer
is taken back at the home before the request that waits is looked at. -/
theorem answersAndRecalls : Obligations.AnswersAndRecalls := ⟨answersArriveRule, recallsRule⟩

end Sys2Proof
end

section
/-! PROOFS. Events of lines: promotions, nudges, probes, packets of peers, the host and the ports (R26, R227, R228, R232, R242, R409). -/
namespace Sys2Proof.Machine

variable (s : State)

/-! ### Promotions, nudges and probes -/

theorem serveProm_sent {r : Req} {v : Nat} {sc : Scope} (hf : findReq s r.id = some r) (hop : r.op = .prom v sc) (ho : isOwn s r.pa = true)
    (hr : ∀ e ∈ s.fibres, ¬ ((placeOf e.1).core = v ∧ e.2.relq ≠ [] ∧
      (e.2.relWait = true ∨ (e.2.froz = .no ∧ e.2.dbg.halted = false)))) :
    serveProm s r.id =
      if drained (startDrains (sendParts s v) v sc) v sc then serveNow (startDrains (sendParts s v) v sc) r
      else startDrains (sendParts s v) v sc := by
  have hn : (s.fibres.any fun e => (placeOf e.1).core == v && !e.2.relq.isEmpty &&
      (e.2.relWait || (e.2.froz == .no && !e.2.dbg.halted))) = false := by
    rw [List.any_eq_false]
    intro e he h
    refine hr e he ?_
    simpa [and_assoc] using h
  unfold serveProm
  simp only [hf, hop, ho, hn, Bool.not_true, Bool.false_eq_true, if_false]

theorem perform_prom {r : Req} {v : Nat} {sc : Scope} (hop : r.op = .prom v sc) : (perform s r).1.status = clockOf s (r.pa % 1024) := by
  simp only [perform, hop]

theorem execParkProbe_sends {p : Place} {f : Fibre} (hq : ∀ q ∈ s.reqs, probeFor p q.cont = false)
    (hx : ∀ x ∈ s.replies, probeFor p x.req.cont = false) (hf : getF s p = some f) (hz : f.froz = .no)
    (hd : f.probed + 256 ≤ cycOf s p.core) :
    execParkProbe p s = .next ((parkedAt f).foldl (probeAgain p) (modF s p fun f => { f with probed := cycOf s p.core })) := by
  have h1 : s.reqs.find? (fun r => r.op == .probe && probeFor p r.cont && isOwn s r.pa) = none := by
    rw [List.find?_eq_none]
    intro r hr
    simp [hq r hr]
  have h2 : s.reqs.any (fun r => probeFor p r.cont) = false := by
    rw [List.any_eq_false]
    intro r hr
    simp [hq r hr]
  have h3 : s.replies.any (fun x => probeFor p x.req.cont) = false := by
    rw [List.any_eq_false]
    intro r hr
    simp [hx r hr]
  have h4 : ¬ cycOf s p.core < f.probed + 256 := by omega
  unfold execParkProbe
  simp only [h1, hf, h2, h3, h4, hz, Bool.or_false, decide_false, Bool.false_eq_true, if_false]

theorem probeAgain_sends {p : Place} {f : Fibre} {va x pa : Nat} {u : State} (hf : getF s p = some f)
    (ha : accessNow s p.core (cidOf s f) va (Ask.load 1) = (0, x, u)) (hl : lineNo x = lineNo pa) :
    probeAgain p s (pa, some va) = sendReq u p.core (cidOf s f) x .probe (.park p) := by
  unfold probeAgain
  simp only [hf, ha, hl, ne_eq, not_true, if_false]

/-! ### Packets of peers -/

theorem peerServe_req {src pa : Nat} {clk : DWord} {op : PeerOp} (hp : ∀ c k, op ≠ .prom c k) :
    ∃ x : Req, x.id = s.nextId ∧ x.core = peerCore src ∧ x.pa = s.modNo * 2 ^ 47 + pa ∧ x.op = (peerHomeOp src op).1 ∧ x.clk = clk.toNat ∧
      peerServe s src pa clk op = serveReq { s with nextId := s.nextId + 1, reqs := s.reqs ++ [x] } s.nextId := by
  cases op with
  | prom c k => exact absurd rfl (hp c k)
  | _ => exact ⟨_, rfl, rfl, rfl, rfl, rfl, rfl⟩

theorem execPeerPacket_serves {src pa : Nat} {clk : DWord} {op : PeerOp} {w : State} (hs : src ≠ s.modNo) (ha : pa < 2 ^ 47)
    (ht : takePacket s pa = some w) (hc : ∀ c, op ≠ .close c) :
    execPeerPacket src pa clk op s = .next (peerServe w src pa clk op) := by
  unfold execPeerPacket
  rw [if_neg (by omega), ht]
  cases op with
  | close c => exact absurd rfl (hc c)
  | _ => rfl

theorem peerAnswer_quiet {r : Req} {a : Answer} (h : pulsesOp r.op a = false) : peerAnswer s r a = deliver (dropReq s r.id) r a := by
  unfold peerAnswer
  simp only [h, Bool.false_eq_true, if_false]

theorem pulsesOp_load (n : Nat) (a : Answer) : pulsesOp (.load n) a = false := by simp [pulsesOp]

theorem pulsesOp_failed (op : HomeOp) {a : Answer} (h : a.cls ≠ 0) : pulsesOp op a = false := by simp [pulsesOp, h]

theorem execPeerReply_load {r : Req} {rep : PeerRep} {w : State} (hf : findReq s r.id = some r) (ho : isOwn s r.pa = false)
    (ht : takePacket s r.pa = some w) (hop : r.op = .load 128) (hc : rep.cls = 0) :
    execPeerReply r.id rep s =
      .next (deliver (dropReq w r.id) r { data := rep.data, wt := rep.wt, lt := rep.lt, status := rep.status.toNat, cls := 0 }) := by
  unfold execPeerReply
  simp only [hf, ho, ht, Bool.false_eq_true, if_false, hc]
  rw [peerAnswer_quiet _ (by rw [hop]; exact pulsesOp_load _ _)]
  simp [hop]

theorem execPeerReplyTimeout_late {r : Req} (hf : findReq s r.id = some r) (ho : isOwn s r.pa = false) (hl : r.sent + 2000000 ≤ s.time)
    (hu : s.unreach.contains (r.pa / 2 ^ 47 % 512) = false) :
    execPeerReplyTimeout r.id s =
      .next (deliver (dropReq { s with unreach := s.unreach ++ [r.pa / 2 ^ 47 % 512] } r.id) r
        { data := [], wt := 0, lt := 0, status := 0, cls := 0x10 }) := by
  unfold execPeerReplyTimeout
  simp only [hf, ho, hu, Bool.false_eq_true, false_or, if_false]
  rw [if_neg (by omega), peerAnswer_quiet _ (pulsesOp_failed _ (by simp))]

/-! ### The host and the ports -/

theorem hostWrite_nil (w k a : Nat) : hostWrite w k s a [] = s := by cases k <;> rfl

/-- One round of `hostWrite`: the part in the first line is written, and the rest follows. -/
theorem hostWrite_round (w k a n : Nat) (data : List Byte) (hd : data ≠ []) (hn : min data.length (128 - a % 128) = n) :
    ∃ u t, u = (homeWrite (recallNow s (lineNo a)) a 0 (data.take n) w).2 ∧
      hostWrite w (k + 1) s a data = hostWrite w k { u with hostTide := t } (a + n) (data.drop n) := by
  subst hn
  cases data with
  | nil => exact absurd rfl hd
  | cons b t => exact ⟨_, _, rfl, rfl⟩

theorem hostWrite_line (w k a : Nat) (data : List Byte) (hd : data ≠ []) (hl : a % 128 + data.length ≤ 128) :
    (hostWrite w (k + 2) s a data).mem = (homeWrite (recallNow s (lineNo a)) a 0 data w).2.mem := by
  obtain ⟨u, t, hu, ht⟩ := hostWrite_round s w (k + 1) a data.length data hd (by omega)
  rw [List.take_length] at hu
  rw [ht, List.drop_length, hostWrite_nil, ← hu]

theorem readRun_line (k a n : Nat) (h0 : n ≠ 0) (hl : a % 128 + n ≤ 128) : (readRun (k + 2) s a n).2.2 = (readNow s a n).2 := by
  have hk : min n (128 - a % 128) = n := by omega
  unfold readRun
  simp only [h0, if_false, hk, Nat.sub_self]
  unfold readRun
  simp only [if_true]

theorem readNow_data (a n : Nat) : (readNow s a n).1.data = memRd (readNow s a n).2.mem (localAddr a) n := rfl

theorem needsPort_notSent {r : Req} (h : needsPort s r = true) : r.port = false := by
  cases hp : r.port with
  | false => rfl
  | true => simp [needsPort, hp] at h

theorem execPortReply_read {r : Req} {data : List Byte} (hf : findReq s r.id = some r) (ho : isOwn s r.pa = true) (hn : needsPort s r = true)
    (hb : (getHome s (lineNo r.pa)).busy = true) (hl : data.length = 128) (hc : ∀ c ∈ s.recalls, c.id ≠ r.id) :
    execPortReply r.id data s =
      .next (serveNow (setHome { s with mem := memWr s.mem (localAddr (lineNo r.pa * 128)) data } (lineNo r.pa)
        { getHome s (lineNo r.pa) with busy := false }) { r with port := true }) := by
  have hp := needsPort_notSent s hn
  have hr : (s.recalls.any fun c => c.id == r.id) = false := by simpa [List.any_eq_false] using hc
  unfold execPortReply
  simp [hf, ho, hn, hb, hl, hr, hp]

theorem execPortReply_acked {r : Req} {data : List Byte} (hf : findReq s r.id = some r) (hop : r.op = .store []) (hp : r.port = true)
    (hc : ownCore r.core = true) : execPortReply r.id data s = .next (wakeProm (dropReq s r.id) r.core) := by
  unfold execPortReply
  simp [hf, hop, hp, hc]

end Sys2Proof.Machine

namespace Sys2Proof
open Machine

/-- Settles O36: each event's row is its own lemma; the host's access of one line is one round of `hostWrite` or `readRun`. -/
theorem lineEvents : Obligations.LineEvents := by
  intro s w p f r v core src pa sc clk op rep data
  refine ⟨fun hf hop ho hr => ?_, fun hf h1 h2 => ?_, fun h1 h2 => ?_, fun h => ?_, fun hq hx hf hz hd => ?_, fun hs ha ht hc hp => ?_,
    fun hf ho ht hop hc => execPeerReply_load s hf ho ht hop hc, fun hf ho hl hu => execPeerReplyTimeout_late s hf ho hl hu,
    fun hw hd hl => ?_, fun hw => ?_, fun hf ho hn hb hl hc => execPortReply_read s hf ho hn hb hl hc,
    fun hf hop hp hc => execPortReply_acked s hf hop hp hc⟩
  · intro u
    have hrun : Machine.exec (.promVictim r.id) s = .next (if drained u v sc then serveNow u r else u) :=
      congrArg Host.Outcome.next (serveProm_sent s hf hop ho hr)
    exact ⟨fun hd => by rw [hrun, if_pos hd], fun hd => by rw [hrun, hd, if_neg Bool.false_ne_true], perform_prom _ hop⟩
  · change execSpinNudge p s = _
    have hdue : spinDue s p f = true := by simp [spinDue, h1, h2]
    simp only [execSpinNudge, hf, hdue, if_true]
    rfl
  · change execParkedClockNudge core s = _
    have hany : (s.fibres.any fun e => (placeOf e.1).core == core && isParked e.2) = true := by simpa [List.any_eq_true] using h2
    simp only [execParkedClockNudge, hany, if_true]
    rw [if_neg (by omega)]
  · change execParkProbe p s = _
    simp only [execParkProbe, h]
  · exact ⟨execParkProbe_sends s hq hx hf hz hd, fun va x u hacc hline => probeAgain_sends s hf hacc hline⟩
  · obtain ⟨x, h1, h2, h3, h4, h5, h6⟩ := peerServe_req w (src := src) (pa := pa) (clk := clk) hp
    exact ⟨x, h1, h2, h3, h4, h5, (execPeerPacket_serves s hs ha ht hc).trans (congrArg Host.Outcome.next h6)⟩
  · have hline : (s.modNo * 2 ^ 47 + pa) % 128 + data.length ≤ 128 := by omega
    have h0 : data.length ≠ 0 := by simpa using hd
    refine ⟨⟨_, ?_, hostWrite_line _ s.nextId (data.length / 128) _ data hd hline⟩, ?_, readNow_data _ _ _⟩
    · change execHostMemoryAccess (.write pa data) s = _
      simp only [execHostMemoryAccess, hw, if_true]
    · change execHostMemoryAccess (.read pa data.length) s = _
      simp only [execHostMemoryAccess, hw, if_true]
      rw [readRun_line _ _ _ _ h0 hline]
  · have hww : ¬ inWindow s pa data.length = true := by simp [hw]
    exact ⟨congrArg Host.Outcome.next (if_neg hww), congrArg Host.Outcome.next (if_neg hww)⟩

end Sys2Proof
end

section
/-! PROOFS. What the operations of lines, homes, packets, translations and records leave as it is: the fibres and their registers, the
berths, the groups, the results on their way, the time and the dumps. -/
namespace Sys2Proof.Machine

/-- `t` is `s` in all that fibres, berths, groups and long-latency results are, in the time and in the dumps. -/
structure Outside (s t : State) : Prop where
  here : t.here = s.here
  fibres : t.fibres = s.fibres
  berths : t.berths = s.berths
  vregs : t.vregs = s.vregs
  emptied : t.emptied = s.emptied
  pends : t.pends = s.pends
  groups : t.groups = s.groups
  insts : t.insts = s.insts
  time : t.time = s.time
  dumps : t.dumps = s.dumps

namespace Outside

theorem refl (s : State) : Outside s s := ⟨rfl, rfl, rfl, rfl, rfl, rfl, rfl, rfl, rfl, rfl⟩

theorem trans {s t u : State} (h : Outside s t) (k : Outside t u) : Outside s u :=
  ⟨k.here.trans h.here, k.fibres.trans h.fibres, k.berths.trans h.berths, k.vregs.trans h.vregs, k.emptied.trans h.emptied,
    k.pends.trans h.pends, k.groups.trans h.groups, k.insts.trans h.insts, k.time.trans h.time, k.dumps.trans h.dumps⟩

theorem ite {s a b : State} {c : Prop} [Decidable c] (ha : Outside s a) (hb : Outside s b) : Outside s (if c then a else b) := by
  split
  · exact ha
  · exact hb

theorem getF {s t : State} (h : Outside s t) (p : Place) : Machine.getF t p = Machine.getF s p := by
  unfold Machine.getF
  rw [h.fibres]

theorem foldl {α : Type} (l : List α) {g : State → α → State} (hg : ∀ t a, Outside t (g t a)) (s : State) : Outside s (l.foldl g s) := by
  induction l generalizing s with
  | nil => exact refl s
  | cons a l ih => exact (hg s a).trans (ih _)

end Outside

section
variable (s : State)

/-! ### Parts of the state that no fibre is -/

theorem outside_mem (m : Memory) : Outside s { s with mem := m } := ⟨rfl, rfl, rfl, rfl, rfl, rfl, rfl, rfl, rfl, rfl⟩
theorem outside_setC (c : Nat) (x : Core) : Outside s (setC s c x) := ⟨rfl, rfl, rfl, rfl, rfl, rfl, rfl, rfl, rfl, rfl⟩
theorem outside_setD (d : Nat) (x : Die) : Outside s (setD s d x) := ⟨rfl, rfl, rfl, rfl, rfl, rfl, rfl, rfl, rfl, rfl⟩
theorem outside_setX (c : Nat) (x : Ctx) : Outside s (setX s c x) := ⟨rfl, rfl, rfl, rfl, rfl, rfl, rfl, rfl, rfl, rfl⟩
theorem outside_setReg (a : Nat) (v : DWord) : Outside s (setReg s a v) := ⟨rfl, rfl, rfl, rfl, rfl, rfl, rfl, rfl, rfl, rfl⟩
theorem outside_setHome (line : Nat) (h : Home) : Outside s (setHome s line h) := ⟨rfl, rfl, rfl, rfl, rfl, rfl, rfl, rfl, rfl, rfl⟩
theorem outside_setL (n : Nat) (l : Link) : Outside s (setL s n l) := ⟨rfl, rfl, rfl, rfl, rfl, rfl, rfl, rfl, rfl, rfl⟩
theorem outside_setWharf (hpa : Nat) (q : Queue) (w : Nat) (l : List QRec) : Outside s (setWharf s hpa q w l) :=
  ⟨rfl, rfl, rfl, rfl, rfl, rfl, rfl, rfl, rfl, rfl⟩
theorem outside_due (i : Instr) : Outside s (due s i) := ⟨rfl, rfl, rfl, rfl, rfl, rfl, rfl, rfl, rfl, rfl⟩
theorem outside_dueOnce (i : Instr) : Outside s (dueOnce s i) := .ite (.refl s) (outside_due s i)
theorem outside_replies (l : List Reply) : Outside s { s with replies := l } := ⟨rfl, rfl, rfl, rfl, rfl, rfl, rfl, rfl, rfl, rfl⟩
theorem outside_requests (n : Nat) (l : List Req) : Outside s { s with nextId := n, reqs := l } := ⟨rfl, rfl, rfl, rfl, rfl, rfl, rfl, rfl, rfl, rfl⟩
theorem outside_far (l : List Far) : Outside s { s with far := l } := ⟨rfl, rfl, rfl, rfl, rfl, rfl, rfl, rfl, rfl, rfl⟩
theorem outside_dropReq (id : Nat) : Outside s (dropReq s id) := ⟨rfl, rfl, rfl, rfl, rfl, rfl, rfl, rfl, rfl, rfl⟩
theorem outside_dropOp (p : Place) : Outside s (dropOp s p) := ⟨rfl, rfl, rfl, rfl, rfl, rfl, rfl, rfl, rfl, rfl⟩
theorem outside_noteWrite (pa n w : Nat) : Outside s (noteWrite s pa n w) := ⟨rfl, rfl, rfl, rfl, rfl, rfl, rfl, rfl, rfl, rfl⟩
theorem outside_endRecalls (line : Nat) : Outside s (endRecalls s line) := ⟨rfl, rfl, rfl, rfl, rfl, rfl, rfl, rfl, rfl, rfl⟩
theorem outside_cross (d : Nat) : Outside s (cross s d) := .ite (.refl s) ⟨rfl, rfl, rfl, rfl, rfl, rfl, rfl, rfl, rfl, rfl⟩

theorem outside_modX (cid : Nat) (g : Ctx → Ctx) : Outside s (modX s cid g) := by
  unfold modX
  split
  · exact outside_setX _ _ _
  · exact .refl s

theorem outside_pulse (cid : Nat) : Outside s (pulse s cid) := outside_modX s cid _

theorem outside_sendPacket (m pa : Nat) : Outside s (sendPacket s m pa) := by
  unfold sendPacket
  split
  · exact outside_setL _ _ _
  · exact .refl s

theorem outside_sendReq (core cid pa : Nat) (op : HomeOp) (cont : Cont) (tag : Nat × Nat × Nat × Nat × Nat) (stamp : Nat)
    (sy : Option Scope) : Outside s (sendReq s core cid pa op cont tag stamp sy) := by
  unfold sendReq
  exact .ite ((outside_requests s _ _).trans (outside_due _ _)) ((outside_requests s _ _).trans (outside_sendPacket _ _ _))

/-! ### Tides, copies and homes -/

theorem outside_rebaseSlice (k t : Nat) : Outside s (rebaseSlice s k t) := .ite (.refl s) ⟨rfl, rfl, rfl, rfl, rfl, rfl, rfl, rfl, rfl, rfl⟩
theorem outside_rebaseL1 (c t : Nat) : Outside s (rebaseL1 s c t) := .ite (.refl s) (outside_setC s _ _)

theorem outside_homeTides (line wt hl : Nat) : Outside s (homeTides s line wt hl) :=
  (outside_rebaseSlice s _ _).trans (outside_setHome _ _ _)

theorem outside_raiseClock (c t : Nat) : Outside s (raiseClock s c t) :=
  .ite (.refl s) ((outside_rebaseL1 s _ _).trans (outside_setC _ _ _))

theorem outside_seeTide (c t : Nat) : Outside s (seeTide s c t) := outside_raiseClock s _ _

theorem outside_putCopy (c line : Nat) (cp : Copy) : Outside s (putCopy s c line cp) :=
  (outside_rebaseL1 s _ _).trans (outside_setC _ _ _)

theorem outside_dropCopy (c line : Nat) : Outside s (dropCopy s c line) := outside_setC s _ _

theorem outside_storeOwned (core line : Nat) (cp : Copy) (off : Nat) (b : List Byte) (w : Nat) :
    Outside s (storeOwned s core line cp off b w) :=
  ((outside_putCopy s _ _ _).trans (outside_seeTide _ _ _)).trans (outside_noteWrite _ _ _ _)

theorem outside_landGrant (r : Req) (a : Answer) : Outside s (landGrant s r a) := by
  unfold landGrant
  extract_lets cp u
  have hu : Outside s u := outside_seeTide s _ _
  split
  · exact hu.trans (outside_storeOwned _ _ _ _ _ _ _)
  · exact hu.trans (outside_putCopy _ _ _ _)

theorem outside_landNow (x : Reply) : Outside s (landNow s x) := (outside_landGrant s _ _).trans (outside_replies _ _)

theorem outside_takeBack (core line : Nat) (d : Option (Line × BitVec 4)) : Outside s (takeBack s core line d) := by
  cases d with
  | none => exact outside_setHome s _ _
  | some x => exact ((outside_mem s _).trans (outside_homeTides _ _ _ _)).trans (outside_setHome _ _ _)

theorem outside_recallNow (line : Nat) : Outside s (recallNow s line) := by
  unfold recallNow
  split
  · exact (outside_takeBack s _ _ _).trans (outside_endRecalls _ _)
  · split
    · exact outside_endRecalls s _
    · extract_lets u v
      have hu : Outside s u := outside_cross s _
      have hv : Outside u v := by
        unfold v
        split
        · exact outside_landNow u _
        · exact .refl u
      refine (hu.trans hv).trans (.trans ?_ (outside_endRecalls _ _))
      split
      · exact .ite ((outside_dropCopy v _ _).trans (outside_takeBack _ _ _ _)) (outside_takeBack v _ _ _)
      · exact outside_takeBack v _ _ _

theorem outside_collect (line : Nat) : Outside s (collect s line) := by
  unfold collect
  extract_lets h
  split
  · exact .refl s
  · extract_lets m u
    have hu : Outside s u := (outside_mem s m).trans (.foldl _ (fun t sl => .foldl _ (fun t e => outside_noteWrite t _ _ _) t) _)
    exact hu.trans (outside_setHome _ _ _)

theorem outside_homeRead (line : Nat) : Outside s (homeRead s line).2 := (outside_cross s _).trans (outside_collect _ _)

theorem outside_homeWrite (pa clk : Nat) (b : List Byte) (w : Nat) : Outside s (homeWrite s pa clk b w).2 :=
  (((outside_cross s _).trans (outside_collect _ _)).trans ((outside_mem _ _).trans (outside_noteWrite _ _ _ _))).trans
    (outside_homeTides _ _ _ _)

theorem outside_homePart (line clk src : Nat) (p : Part) : Outside s (homePart s line clk src p).2 :=
  ((outside_cross s _).trans (outside_setHome _ _ _)).trans (outside_homeTides _ _ _ _)

theorem outside_readNow (pa n : Nat) : Outside s (readNow s pa n).2 := (outside_recallNow s _).trans (outside_homeRead _ _)

theorem outside_writeNow (core pa : Nat) (b : List Byte) (w : Nat) : Outside s (writeNow s core pa b w) :=
  ((outside_recallNow s _).trans (outside_homeWrite _ _ _ _ _)).trans (outside_seeTide _ _ _)

theorem outside_flushPart (core line : Nat) : Outside s (flushPart s core line) := by
  unfold flushPart
  extract_lets x
  split
  · exact .refl s
  · exact .ite ((outside_setC s _ _).trans ((outside_recallNow _ _).trans ((outside_homePart _ _ _ _ _).trans (outside_seeTide _ _ _))))
      ((outside_setC s _ _).trans (outside_sendReq _ _ _ _ _ _ _ _ _))

theorem outside_flushParts (core : Nat) : Outside s (flushParts s core) := .foldl _ (fun t _ => outside_flushPart t _ _) s

/-! ### Translations, and reads and writes at virtual addresses -/

theorem outside_walkFrom (level va node : Nat) (path : List (Nat × Nat)) : Outside s (walkFrom level s va node path).2 := by
  induction level generalizing s node path with
  | zero =>
    have hr := outside_readNow s (node + 8 * vaIndex va 0) 8
    unfold walkFrom
    dsimp only
    (repeat' split) <;> first | exact .refl s | exact hr
  | succ l ih =>
    have hr := outside_readNow s (node + 8 * vaIndex va (l + 1)) 8
    unfold walkFrom
    dsimp only
    (repeat' split) <;> first | exact .refl s | exact hr | exact hr.trans (ih _ _ _)

theorem outside_tlbPut (core : Nat) (e : TlbEnt) : Outside s (tlbPut s core e) := outside_setC s _ _
theorem outside_dieCachePut (die : Nat) (es : List TlbEnt) : Outside s (dieCachePut s die es) := outside_setD s _ _

theorem outside_walkNow (die cid vpn : Nat) : Outside s (walkNow s die cid vpn).2 :=
  .ite ((outside_walkFrom s _ _ _ _).trans (outside_dieCachePut _ _ _)) (outside_walkFrom s _ _ _ _)

theorem outside_xlatNow (core cid va : Nat) : Outside s (xlatNow s core cid va).2 := by
  have hw := outside_walkNow s (dieOf core) cid (va / 2 ^ 16)
  unfold xlatNow
  dsimp only
  split
  · exact .refl s
  · split
    · exact .refl s
    · split
      · exact outside_tlbPut s _ _
      · split
        · exact hw.trans (outside_tlbPut _ _ _)
        · exact hw

theorem outside_accessNow (core cid va : Nat) (q : Ask) : Outside s (accessNow s core cid va q).2.2 := by
  have hx := outside_xlatNow s core cid va
  unfold accessNow
  dsimp only
  split
  · exact hx
  · exact hx

theorem outside_putBytes (core cid pa : Nat) (b : List Byte) (cont : Cont) : Outside s (putBytes s core cid pa b cont) :=
  .ite (outside_writeNow s _ _ _ _) (outside_sendReq s _ _ _ _ _ _ _ _)

theorem outside_putVirt (cont : Nat → Cont) (fuel core cid va : Nat) (bytes : List Byte) :
    Outside s (putVirt cont fuel s core cid va bytes).2.2 := by
  induction fuel generalizing s va bytes with
  | zero => exact .refl s
  | succ k ih =>
    have ha (q : Ask) : Outside s (accessNow s core cid va q).2.2 := outside_accessNow s core cid va q
    unfold putVirt
    split
    · exact .refl s
    · dsimp only
      split
      · exact ha _
      · split
        · exact ha _
        · exact ((ha _).trans (outside_putBytes _ _ _ _ _ _)).trans (ih _ _ _)

/-! ### Records -/

theorem outside_placeRec {t : State} {hpa w : Nat} {e : QRec} (h : placeRec s hpa w e = some t) : Outside s t := by
  unfold placeRec at h
  split at h
  · simp at h
  · split at h
    · obtain rfl : _ = t := by simpa using h
      exact outside_setWharf _ _ _ _ _
    · simp at h

theorem outside_postNow (cid : Nat) (r : Record) (clk : Nat) : Outside s (postNow s cid r clk) := by
  unfold postNow
  split
  · exact .refl s
  · split
    · exact .refl s
    · split
      · next h => exact (outside_placeRec s h).trans (outside_modX _ _ _)
      · exact .refl s

theorem outside_traceDone (cid : Nat) : Outside s (traceDone s cid) := (outside_modX s _ _).trans (outside_setReg _ _ _)
theorem outside_traceLost (cid : Nat) : Outside s (traceLost s cid) := outside_modX s _ _

theorem outside_traceWrite (core cid : Nat) (r : Record) : Outside s (traceWrite s core cid r).2 := by
  unfold traceWrite
  extract_lets a base n head tail va
  split
  · exact .refl s
  · split
    · exact outside_traceLost s _
    · extract_lets w
      have hw : Outside s w.2.2 := outside_putVirt s _ _ _ _ _ _
      split
      · exact hw.trans (outside_traceLost _ _)
      · split
        · exact hw
        · exact hw.trans (outside_traceDone _ _)

theorem outside_traceGo (k core cid : Nat) : Outside s (traceGo k s core cid) := by
  induction k generalizing s with
  | zero => exact .refl s
  | succ k ih =>
    unfold traceGo
    split
    · next r rest _ =>
      have hw := outside_traceWrite s core cid r
      exact .ite hw ((hw.trans (outside_modX _ _ _)).trans (ih _))
    · exact .refl s

theorem outside_trace (core cid : Nat) (r : Record) : Outside s (trace s core cid r) := by
  unfold trace
  split
  · exact .refl s
  · exact .ite ((outside_modX s _ _).trans (outside_traceGo _ _ _ _)) (outside_modX s _ _)

theorem outside_haltRec (p : Place) (f : Fibre) (state aux data addr : Nat) (pc : DWord) :
    Outside s (haltRec s p f state aux data addr pc) := outside_trace s _ _ _

end

end Sys2Proof.Machine
end

section
/-! PROOFS. When a berth and a divided fibre switch (R148, R149, R163). -/
namespace Sys2Proof.Machine

/-- Writing what a table in canonical form reads changes nothing. -/
theorem tset_same {α : Type} [DecidableEq α] {d : α} {t : Tab α} {k : Nat} {v : α} (hw : tabWf d t = true) (h : tget d t k = v) :
    tset d t k v = t := by
  induction t with
  | nil => simp_all [tset, tget]
  | cons e t ih =>
    obtain ⟨a, w⟩ := e
    obtain ⟨hd, ha, ht⟩ := tabWf_cons.1 hw
    simp only [tget] at h
    simp only [tset]
    split at h
    · next hk => subst hk h; simp [hd]
    · next hk =>
      split
      · next hlt =>
        rw [if_pos]
        rw [← h]
        exact tget_above ha (le_of_lt hlt)
      · rw [if_neg (Ne.symm hk), ih ht h]

theorem getB_setB {s : State} (c b : Nat) (x : Berth) (h : tabWf Berth.init s.berths = true) : getB (setB s c b x) c b = x :=
  tget_tset_self _ _ h

theorem setB_same {s : State} {c b : Nat} {x : Berth} (h : tabWf Berth.init s.berths = true) (hx : getB s c b = x) : setB s c b x = s := by
  unfold setB
  rw [tset_same h hx]

section
variable (s : State) (core berth : Nat)

theorem passBerth_next {c : Nat} (h : ((List.range 7).map fun i => ((getB s core berth).cur + 1 + i) % 8).find?
    (fun k => readyFib s { core, berth, fib := k }) = some c) :
    passBerth s core berth = setB s core berth { getB s core berth with cur := c, run := 0 } := by
  unfold passBerth
  simp only [h]

theorem passBerth_stays (h : ∀ k, k < 8 → k ≠ (getB s core berth).cur → readyFib s { core, berth, fib := k } = false) :
    passBerth s core berth = s := by
  have hn : ((List.range 7).map fun i => ((getB s core berth).cur + 1 + i) % 8).find?
      (fun k => readyFib s { core, berth, fib := k }) = none := by
    rw [List.find?_eq_none]
    intro k hk
    obtain ⟨i, hi, rfl⟩ := List.mem_map.1 hk
    have hi7 := List.mem_range.1 hi
    rw [h _ (Nat.mod_lt _ (by omega)) (by omega)]
    exact Bool.false_ne_true
  unfold passBerth
  simp only [hn]

/-! ### The longest waiting (R149) -/

/-- One context looked at for the starvation rule. -/
def olderOf (waited : Nat → Option Nat) (cur : Nat) (b : Option (Nat × Nat)) (c : Nat) : Option (Nat × Nat) :=
  if c = cur then b
  else
    match waited c with
    | some w =>
      if w < 4080 then b
      else
        match b with
        | some x => if x.2 < w then some (c, w) else b
        | none => some (c, w)
    | none => b

theorem starved_eq : starved s core berth =
    ((List.range 8).foldl (olderOf (fun c => waitedFib s { core, berth, fib := c }) (getB s core berth).cur) none).map Prod.fst := rfl

/-- What has been found among the contexts seen: the longest waiting of those past the limit. -/
def Longest (waited : Nat → Option Nat) (cur : Nat) (seen : List Nat) : Option (Nat × Nat) → Prop
  | none => ∀ k ∈ seen, k ≠ cur → ∀ v, waited k = some v → v < 4080
  | some (c, w) => c ≠ cur ∧ waited c = some w ∧ 4080 ≤ w ∧ ∀ k ∈ seen, k ≠ cur → ∀ v, waited k = some v → v ≤ w

variable {waited : Nat → Option Nat} {cur : Nat}

theorem longest_olderOf {seen : List Nat} {b : Option (Nat × Nat)} (c : Nat) (h : Longest waited cur seen b) :
    Longest waited cur (c :: seen) (olderOf waited cur b c) := by
  unfold olderOf
  by_cases hc : c = cur
  · rw [if_pos hc]
    cases b with
    | none =>
      intro k hk hn
      exact h k ((List.mem_cons.1 hk).resolve_left fun e => hn (e.trans hc)) hn
    | some x => exact ⟨h.1, h.2.1, h.2.2.1, fun k hk hn => h.2.2.2 k ((List.mem_cons.1 hk).resolve_left fun e => hn (e.trans hc)) hn⟩
  rw [if_neg hc]
  cases hw : waited c with
  | none =>
    cases b with
    | none =>
      intro k hk hn v hv
      rcases List.mem_cons.1 hk with rfl | hk
      · rw [hw] at hv; simp at hv
      · exact h k hk hn v hv
    | some x =>
      obtain ⟨h1, h2, h3, h4⟩ := h
      refine ⟨h1, h2, h3, fun k hk hn v hv => ?_⟩
      rcases List.mem_cons.1 hk with rfl | hk
      · rw [hw] at hv; simp at hv
      · exact h4 k hk hn v hv
  | some w =>
    dsimp only
    by_cases hl : w < 4080
    · rw [if_pos hl]
      cases b with
      | none =>
        intro k hk hn v hv
        rcases List.mem_cons.1 hk with rfl | hk
        · rw [hw] at hv; obtain rfl := Option.some.inj hv; exact hl
        · exact h k hk hn v hv
      | some x =>
        obtain ⟨h1, h2, h3, h4⟩ := h
        refine ⟨h1, h2, h3, fun k hk hn v hv => ?_⟩
        rcases List.mem_cons.1 hk with rfl | hk
        · rw [hw] at hv; obtain rfl := Option.some.inj hv; omega
        · exact h4 k hk hn v hv
    · rw [if_neg hl]
      cases b with
      | none =>
        refine ⟨hc, hw, by omega, fun k hk hn v hv => ?_⟩
        rcases List.mem_cons.1 hk with rfl | hk
        · rw [hw] at hv; obtain rfl := Option.some.inj hv; exact le_rfl
        · have := h k hk hn v hv; omega
      | some x =>
        obtain ⟨h1, h2, h3, h4⟩ := h
        dsimp only
        by_cases hx : x.2 < w
        · rw [if_pos hx]
          refine ⟨hc, hw, by omega, fun k hk hn v hv => ?_⟩
          rcases List.mem_cons.1 hk with rfl | hk
          · rw [hw] at hv; obtain rfl := Option.some.inj hv; exact le_rfl
          · have := h4 k hk hn v hv; omega
        · rw [if_neg hx]
          refine ⟨h1, h2, h3, fun k hk hn v hv => ?_⟩
          rcases List.mem_cons.1 hk with rfl | hk
          · rw [hw] at hv; obtain rfl := Option.some.inj hv; omega
          · exact h4 k hk hn v hv

theorem longest_foldl (l seen : List Nat) {b : Option (Nat × Nat)} (h : Longest waited cur seen b) :
    Longest waited cur (l.reverse ++ seen) (l.foldl (olderOf waited cur) b) := by
  induction l generalizing seen b with
  | nil => exact h
  | cons c l ih => simpa using ih (c :: seen) (longest_olderOf c h)

theorem starved_longest {c : Nat} (h : starved s core berth = some c) :
    c ≠ (getB s core berth).cur ∧ ∃ w, waitedFib s { core, berth, fib := c } = some w ∧ 4080 ≤ w ∧
      ∀ k, k < 8 → k ≠ (getB s core berth).cur → ∀ v, waitedFib s { core, berth, fib := k } = some v → v ≤ w := by
  rw [starved_eq] at h
  obtain ⟨x, hx, rfl⟩ := Option.map_eq_some_iff.1 h
  have hl := longest_foldl (waited := fun c => waitedFib s { core, berth, fib := c }) (cur := (getB s core berth).cur) (List.range 8) []
    (b := none) (fun k hk => by simp at hk)
  rw [hx] at hl
  obtain ⟨h1, h2, h3, h4⟩ := hl
  exact ⟨h1, x.2, h2, h3, fun k hk => h4 k (by simpa using hk)⟩

end

/-! ### The halves of a divided fibre (R163) -/

theorem rotate_front {f : Fibre} {h : Half} {hs : List Half} (hh : f.halves = h :: hs) (hw : h.wait = .none) :
    rotate f = { f with
      amask := h.mask, pc := h.pc, splits := h.splits, wait := .none, halfCount := 0, fetched := none, emptyAt := false, xlat := []
      halves := hs ++ [{ mask := f.amask, pc := f.pc, splits := f.splits, wait := f.wait }] } := by
  unfold rotate
  rw [hh]
  simp [List.findIdx?_cons, hw, curHalf]

theorem eligible_wait {s : State} {p : Place} {f : Fibre} (h : eligible s p f = true) : f.wait = .none := by
  unfold eligible at h
  simp only [Bool.and_eq_true, beq_iff_eq] at h
  exact h.1.1.2

end Sys2Proof.Machine

namespace Sys2Proof
open Machine

/-- Settles O37: `passBerth` takes the first ready context of the ring; `starved` is a fold that keeps the longest waiting; `rotate` brings
the first half to the front. -/
theorem switches : Obligations.Switches := by
  intro s core berth c p f h hs b at_
  refine ⟨fun hr hw hc => ?_, fun hr hn _ => ?_, fun hst => ?_, fun hf hh hw hc he ho hcm hp => ?_⟩
  · change execFibreQuantumExpiry core berth s = _
    unfold execFibreQuantumExpiry
    rw [if_pos hr]
    simp only [passBerth_next s core berth hc, getB_setB _ _ _ hw]
    exact congrArg Host.Outcome.next (setB_same (tabWf_tset _ _ hw) (getB_setB _ _ _ hw))
  · change execFibreQuantumExpiry core berth s = _
    unfold execFibreQuantumExpiry
    rw [if_pos hr]
    simp only [passBerth_stays s core berth hn, b]
  · have hrun : Machine.exec (.starvationOverride core berth) s = .next (setB s core berth { b with cur := c, run := 0 }) := by
      change execStarvationOverride core berth s = _
      unfold execStarvationOverride
      simp only [hst, b]
    exact ⟨hrun, starved_longest s core berth hst⟩
  · have hwt := eligible_wait he
    refine ⟨setF s p (rotate f), ?_, rfl, fun k hk => tfind_tput_ne _ _ hk, ?_⟩
    · change execDividedHalfRotate p s = _
      unfold execDividedHalfRotate
      have h2 : ¬ f.halfCount < 256 := by omega
      simp [hf, hh, h2, he, ho, hcm, hp]
    · rw [getF_setF_self, rotate_front hh hw, hw, hwt]

end Sys2Proof
end

section
/-! PROOFS. Events of fibres and spans: fetches, limits, refused commits, gates, posted records, compares and the resident kernel (R59,
R179, R185, R187, R197, R364, R418). -/
namespace Sys2Proof.Machine

/-! ### A fibre through a rollback (R187) -/

/-- What of a fibre neither a block given back nor a register restored changes: where it stands, its lanes, and where its span began. -/
structure StandsAs (f g : Fibre) : Prop where
  pc : g.pc = f.pc
  amask : g.amask = f.amask
  start : g.span.start = f.span.start
  entry : g.span.entry.map (fun h => (h.mask, h.pc)) = f.span.entry.map fun h => (h.mask, h.pc)

theorem StandsAs.refl (f : Fibre) : StandsAs f f := ⟨rfl, rfl, rfl, rfl⟩

theorem StandsAs.trans {f g h : Fibre} (a : StandsAs f g) (b : StandsAs g h) : StandsAs f h :=
  ⟨b.pc.trans a.pc, b.amask.trans a.amask, b.start.trans a.start, b.entry.trans a.entry⟩

/-- The fibre at `p` stands in `t` as `f`. -/
def StandsAt (t : State) (p : Place) (f : Fibre) : Prop := ∃ g, getF t p = some g ∧ StandsAs f g

theorem standsAt_tput {t u : State} {p : Place} {f g h : Fibre} {k : Nat} (hs : StandsAt t p f) (hk : tfind t.fibres k = some g)
    (hu : u.fibres = tput t.fibres k h) (hg : StandsAs g h) : StandsAt u p f := by
  obtain ⟨x, hx, hfx⟩ := hs
  unfold StandsAt getF at *
  rw [hu]
  by_cases he : pkey p = k
  · rw [he] at hx ⊢
    rw [hk] at hx
    obtain rfl := Option.some.inj hx
    exact ⟨h, tfind_tput_self _ _ _, hfx.trans hg⟩
  · exact ⟨x, by rw [tfind_tput_ne _ _ he]; exact hx, hfx⟩

theorem standsAt_modF {t : State} {p q : Place} {f : Fibre} {m : Fibre → Fibre} (hs : StandsAt t p f)
    (hm : ∀ g, getF t q = some g → StandsAs g (m g)) : StandsAt (modF t q m) p f := by
  unfold modF
  cases hq : getF t q with
  | none => exact hs
  | some g => exact standsAt_tput hs hq rfl (hm g hq)

/-- A half that waited for a block stands where it stood, and the running half is not put behind another. -/
theorem standsAt_wakeWait {t : State} {p q : Place} {f : Fibre} {k : Nat} (hs : StandsAt t p f)
    (hw : ∀ g, getF t q = some g → g.wait = .wclaim k) : StandsAt (wakeWait t q (· == .wclaim k)) p f := by
  unfold wakeWait
  refine standsAt_modF (standsAt_modF hs fun g hg => ⟨rfl, rfl, rfl, ?_⟩) fun g hg => ?_
  · simp [List.map_map, Function.comp_def]
  · have hn : g.wait = .none := by
      unfold mapWait modF at hg
      cases hq : getF t q with
      | none => rw [hq] at hg; simp [hq] at hg
      | some x =>
        rw [hq] at hg
        dsimp only at hg
        rw [getF_setF_self] at hg
        obtain rfl := Option.some.inj hg
        simp [hw x hq]
    simp only [hn, bne_self_eq_false, Bool.false_and, Bool.false_eq_true, if_false]
    exact ⟨rfl, rfl, rfl, rfl⟩

theorem standsAt_grantBlock {t : State} {p : Place} {f : Fibre} (core berth slot : Nat) (hs : StandsAt t p f) :
    StandsAt (grantBlock t core berth slot) p f := by
  unfold grantBlock
  extract_lets b wants
  split
  · exact hs
  · split
    · next c hc =>
      have hw : wants c = true := by simpa using List.find?_some hc
      refine standsAt_wakeWait hs fun g hg => ?_
      have hg' : getF t { core, berth, fib := c } = some g := hg
      simpa [wants, hg'] using hw
    · exact hs

theorem standsAt_undoBlocks {t : State} {p q : Place} {f : Fibre} (root : Nat) (l : List (Nat × Bool)) (hs : StandsAt t p f) :
    StandsAt (undoBlocks t q root l).2 p f := by
  unfold undoBlocks
  generalize hi : (([], t) : List Nat × State) = r
  have hr : StandsAt r.2 p f := by rw [← hi]; exact hs
  clear hi
  induction l generalizing r with
  | nil => exact hr
  | cons e l ih =>
    rw [List.foldl_cons]
    refine ih _ ?_
    dsimp only
    split
    · dsimp only
      split
      · exact standsAt_grantBlock _ _ _ hr
      · exact hr
    · split
      · exact hr
      · exact hr

theorem standsAt_restoreUndo {t : State} {p : Place} {f : Fibre} (us : List UndoEnt) (hs : StandsAt t p f) :
    StandsAt (restoreUndo t us) p f := by
  unfold restoreUndo
  generalize us.reverse = l
  induction l generalizing t with
  | nil => exact hs
  | cons e l ih =>
    rw [List.foldl_cons]
    refine ih ?_
    split
    · exact hs
    · split
      · next h => exact standsAt_tput hs h rfl ⟨rfl, rfl, rfl, rfl⟩
      · exact hs
    · split
      · next h => exact standsAt_tput hs h rfl ⟨rfl, rfl, rfl, rfl⟩
      · exact hs

theorem standsAt_dropPends {t : State} {p q : Place} {f : Fibre} (hs : StandsAt t p f) : StandsAt (dropPends t q) p f := by
  unfold dropPends
  split
  · exact hs
  · exact hs

/-- The half to which a rollback returns: the first with a lane, in the entry. -/
theorem headD_filter_of_map_eq {l l' : List Half} {c c' : Half} (h : l.map (fun h => (h.mask, h.pc)) = l'.map fun h => (h.mask, h.pc))
    (hc : (c.mask, c.pc) = (c'.mask, c'.pc)) :
    ((((l.filter fun h => h.mask != 0).headD c).mask, ((l.filter fun h => h.mask != 0).headD c).pc) : Mask × DWord) =
      (((l'.filter fun h => h.mask != 0).headD c').mask, ((l'.filter fun h => h.mask != 0).headD c').pc) := by
  induction l generalizing l' with
  | nil =>
    cases l' with
    | nil => exact hc
    | cons => simp at h
  | cons x l ih =>
    cases l' with
    | nil => simp at h
    | cons y l' =>
      simp only [List.map_cons, List.cons.injEq] at h
      obtain ⟨hxy, ht⟩ := h
      have hm : x.mask = y.mask := congrArg Prod.fst hxy
      by_cases h0 : y.mask = 0
      · simpa [hm, h0] using ih ht
      · have hx : x.mask ≠ 0 := hm ▸ h0
        simp only [List.filter_cons, bne_iff_ne, ne_eq, hx, h0, not_false_eq_true, if_true, List.headD_cons]
        exact hxy

/-- After a rollback the fibre stands at the entry of its span, which is empty again. -/
theorem rollback_stands {s : State} {p : Place} {f : Fibre} (hf : getF s p = some f) :
    ∃ g, getF (rollback s p) p = some g ∧ g.span.hold = [] ∧ g.span.count = 0 ∧ g.span.start = f.span.start ∧
      g.pc = ((f.span.entry.filter fun h => h.mask != 0).headD (curHalf f)).pc ∧
      g.amask = ((f.span.entry.filter fun h => h.mask != 0).headD (curHalf f)).mask := by
  obtain ⟨g, hg, hfg⟩ : StandsAt (dropOp (dropPends (restoreUndo (undoBlocks s p f.root f.span.blk).2
      (f.span.undo.filter fun e => !inLost (undoBlocks s p f.root f.span.blk).1 e.ref)) p) p) p f :=
    standsAt_dropPends (standsAt_restoreUndo _ (standsAt_undoBlocks f.root f.span.blk ⟨f, hf, .refl f⟩))
  unfold rollback
  rw [hf]
  dsimp only
  unfold modF
  rw [hg]
  have he := headD_filter_of_map_eq hfg.entry (c := curHalf g) (c' := curHalf f) (by simp [curHalf, hfg.pc, hfg.amask])
  exact ⟨_, getF_setF_self _ _ _, rfl, rfl, hfg.start, congrArg Prod.snd he, congrArg Prod.fst he⟩

end Sys2Proof.Machine

namespace Sys2Proof.Machine

section
variable {s : State} {p : Place} {f : Fibre}

/-! ### Fetches and limits -/

theorem execInstructionFetchReturn_word {u : State} {fresh : Bool} {w : BitVec 96} (hf : getF s p = some f) (he : eligible s p f = true)
    (hn : f.span.faulted = none) (hc : f.committing = false) (ho : f.op = none) (hz : f.fetched = none)
    (hw : fetchWord s p f fresh = (.ok w, u)) :
    execInstructionFetchReturn p fresh s =
      .next (readied s (modF (farDrop u (ownerFetch p)) p fun g => { g with fetched := some (g.pc, w) }) p.core p.berth) := by
  unfold execInstructionFetchReturn
  simp [hf, he, hn, hc, ho, hz, hw]

theorem execSpanLengthLimit_commits (hf : getF s p = some f) (hl : f.span.limit ≤ f.span.count) (he : eligible s p f = true)
    (ho : f.op = none) : execSpanLengthLimit p s = .next (commitPiece s p).2 := by
  have h : ¬ f.span.count < f.span.limit := by omega
  unfold execSpanLengthLimit
  simp [hf, h, he, ho]

theorem eligible_goes (he : eligible s p f = true) : f.froz = .no ∧ f.dbg.halted = false := by
  unfold eligible at he
  simp only [Bool.and_eq_true, beq_iff_eq, Bool.not_eq_true'] at he
  exact ⟨he.1.1.1.1, he.1.1.1.2⟩

theorem releaseGo_empty (hf : getF s p = some f) (hr : f.relq = []) : releaseGo s p = s := by
  unfold releaseGo
  simp only [hf, hr]
  split <;> rfl

/-- A span with nothing to release that has no debugger and no fault to tell of is followed by the next one. -/
theorem afterCommit_quiet (edge : Bool) (hf : getF s p = some f) (hv : vanished f = 0) (hq : ctxFlag s (cidOf s f) 117 = false) :
    ∃ g, afterCommit s p edge = setF s p g ∧ g.spanNo = (if f.span.count = 0 then f.spanNo else f.spanNo + 1) ∧ g.span = newSpan g ∧
      g.pc = f.pc ∧ g.amask = f.amask ∧ g.pilot.on = (f.pilot.forced.isSome || f.hnd.isSome) := by
  unfold afterCommit
  simp only [hf, hv, bne_self_eq_false, Bool.and_false, Bool.false_eq_true, if_false, hq, Option.isSome_none, Bool.false_and, Bool.or_self]
  exact ⟨_, rfl, rfl, rfl, rfl, rfl, rfl⟩

theorem commitPiece_empty (hf : getF s p = some f) (he : eligible s p f = true) (h0 : 0 < f.span.count) (hh : f.span.hold = [])
    (hn : f.span.faulted = none) (hc : f.committing = false) (hp : hasPend s p = false) (hd : f.dual = none) :
    commitPiece s p = (true, afterCommit (setF s p { f with committing := true, relq := [], relWait := false, scf := false }) p false) := by
  obtain ⟨hz, hb⟩ := eligible_goes he
  have hsc : spanClean f = false := by
    unfold spanClean
    have : f.span.count ≠ 0 := by omega
    simp [this]
  have hst : startCommit s p f = setF s p { f with committing := true, relq := [], relWait := false, scf := false } := by
    unfold startCommit
    simp [hh]
  unfold commitPiece
  simp only [hf, hsc, Bool.false_and, Bool.false_eq_true, if_false]
  unfold commitStep
  simp only [hf, hp, hn, hz, hb, hd, hc, hst, Option.isSome_none, bne_self_eq_false, Bool.or_self, Bool.false_eq_true, if_false]
  rw [releaseGo_empty (getF_setF_self _ _ _) rfl]
  simp [hb]

/-! ### Records of a fibre (R364) -/

/-- Posting a record of a fibre leaves the fibre as it is, but for the records that wait. -/
theorem getF_postFibre {P : Fibre → Prop} (cid : Nat) (r : Record) (hP : ∀ g es, P g → P { g with events := es })
    (h : ∃ g, getF s p = some g ∧ P g) : ∃ g, getF (postFibre s p cid r) p = some g ∧ P g := by
  obtain ⟨g, hg, hgP⟩ := h
  have hu := (outside_flushParts s p.core).getF p
  unfold postFibre
  extract_lets u
  change getF u p = _ at hu
  split
  · exact ⟨g, ((outside_postNow u _ _ _).getF p).trans (hu.trans hg), hgP⟩
  · unfold modF
    rw [hu, hg]
    exact ⟨_, getF_setF_self _ _ _, hP _ _ hgP⟩

theorem getF_dueGates (q : Place) (f : Fibre) : getF (dueGates s q f) p = getF s p := by
  unfold dueGates
  dsimp only
  split <;> rfl

/-! ### Refused commits and gates (R185, R187) -/

theorem refuse_freezes (cls : Nat) :
    ∃ g, getF (refuse s p f cls) p = some g ∧ g.froz = .gated none ∧ g.span.hold = f.span.hold ∧ g.pc = f.pc := by
  unfold refuse
  extract_lets u v w
  have hu : ∃ g, getF u p = some g ∧ g.froz = .gated none ∧ g.span.hold = f.span.hold ∧ g.pc = f.pc :=
    ⟨_, getF_setF_self _ _ _, rfl, rfl, rfl⟩
  have hv : ∃ g, getF v p = some g ∧ g.froz = .gated none ∧ g.span.hold = f.span.hold ∧ g.pc = f.pc := by
    unfold v
    split
    · exact getF_postFibre _ _ (fun _ _ h => h) hu
    · exact hu
  have hw : ∃ g, getF w p = some g ∧ g.froz = .gated none ∧ g.span.hold = f.span.hold ∧ g.pc = f.pc := by
    unfold w
    split
    · obtain ⟨g, hg, h1⟩ := hv
      rw [(outside_haltRec _ _ _ _ _ _ _ _).getF]
      unfold modF
      rw [hg]
      exact ⟨_, getF_setF_self _ _ _, h1⟩
    · exact hv
  rw [getF_dueGates, getF_pass]
  exact hw

theorem twin_none (hd : f.dual = none) : twin f = none := by
  unfold twin
  rw [hd]
  rfl

theorem execSpanCommitRefused_freezes {cls : Nat} (hf : getF s p = some f) (hn : f.span.faulted = some cls) (hz : f.froz = .no)
    (hb : f.dbg.halted = false) (hp : hasPend s p = false) (hd : f.dual = none) :
    execSpanCommitRefused p s = .next (refuse s p f cls) := by
  unfold execSpanCommitRefused
  simp [hf, hn, hz, hb, hp, twin_none hd]

theorem faultPosted_alone (he : f.events = []) (hd : f.dual = none) : faultPosted s f = true := by
  unfold faultPosted recsWait isLead isTrailer
  simp [he, hd]

theorem execGateOpen_free {wt : Option Nat} (hf : getF s p = some f) (hz : f.froz = .gated wt) (hb : f.dbg.halted = false)
    (he : f.events = []) (hd : f.dual = none) (hs : stopped s p f = false) (hg : descGate (descOf s f) = 0) :
    execGateOpen p s = .next (beginPilot s p (f.span.faulted.getD 0)) := by
  unfold execGateOpen
  simp [hf, hz, hb, faultPosted_alone he hd, hs, hg]

theorem beginPilot_stands (cls : Nat) (hf : getF s p = some f) :
    ∃ g, getF (beginPilot s p cls) p = some g ∧ (beginPilot s p cls).mem = s.mem ∧ g.froz = .no ∧ g.pilot.on = true ∧ g.span.faulted = none ∧
      g.span.hold = [] ∧ g.span.count = 0 ∧ g.span.start = f.span.start ∧
      g.pc = ((f.span.entry.filter fun h => h.mask != 0).headD (curHalf f)).pc ∧
      g.amask = ((f.span.entry.filter fun h => h.mask != 0).headD (curHalf f)).mask := by
  obtain ⟨g, hg, h1, h2, h3, h4, h5⟩ := rollback_stands hf
  have hm := rollback_mem s p
  unfold beginPilot
  extract_lets u v
  change getF u p = _ at hg
  change u.mem = _ at hm
  obtain ⟨x, hx, hvm, hv⟩ : ∃ x, getF v p = some x ∧ v.mem = s.mem ∧ x.froz = .no ∧ x.pilot.on = true ∧ x.span.faulted = none ∧
      x.span.hold = [] ∧ x.span.count = 0 ∧ x.span.start = f.span.start ∧ x.pc = g.pc ∧ x.amask = g.amask := by
    unfold v readyNow modF
    rw [hg]
    dsimp only
    rw [getF_setF_self]
    exact ⟨_, getF_setF_self _ _ _, hm, rfl, rfl, rfl, h1, h2, h3, rfl, rfl⟩
  rw [h4, h5] at hv
  split
  · exact ⟨x, hx, hvm, hv⟩
  · exact ⟨x, hx, hvm, hv⟩

/-! ### Records that wait for room, and compares (R364, R418) -/

theorem execEventPost_posts {r : Record} {rest : List Record} (hf : getF s p = some f) (he : f.events = r :: rest)
    (hr : eventRoom s (cidOf s f) = true) (hd : f.dual = none) :
    execEventPost p s = .next
      (let t := postNow (setF s p { f with events := rest }) (cidOf s f) r (clockOf s p.core)
       if rest = [] then readyNow (due t (.gateOpen p)) p else if eventRoom t (cidOf s f) then due t (.eventPost p) else t) := by
  unfold execEventPost
  simp only [hf, he, hr, twin_none hd, dueGates, Bool.not_true, Bool.false_eq_true, if_false]
  cases rest with
  | nil => rfl
  | cons => rfl

theorem pushRelease_empty (hf : getF s p = some f) (hr : f.relq = []) : pushRelease s p = s := by
  unfold pushRelease
  simp [hf, hr]

section
variable {q : Place} {g : Fibre} {d e : Dual} {u v : Uncompared} {us vs : List Uncompared}
variable (hf : getF s p = some f) (hd : f.dual = some d) (hl : d.lead = true) (hq : q = { core := d.core, berth := d.berth, fib := d.fib })
  (hg : getF s q = some g) (he : g.dual = some e) (hr : f.relq = []) (hr' : g.relq = []) (hu : d.unc = u :: us) (hv : e.unc = v :: vs)
include hf hd hl hq hg he hr hr' hu hv

/-- The lowest uncompared spans of a pair whose older ones are released are compared. -/
theorem execSpanCompare_compares : execSpanCompare p s = .next
    (if u.no == v.no && u.own == v.own && u.sig == v.sig then
      (if us.isEmpty || vs.isEmpty then joinPair (equalSpan (equalSpan s p u) q v) p q
       else dueOnce (equalSpan (equalSpan s p u) q v) (.spanCompare p))
     else unequalSpan s p q (if v.no < u.no then v else u) (d.mism + 1)) := by
  have ht : twin f = some q := by
    unfold twin
    rw [hd, hq]
    rfl
  unfold execSpanCompare
  simp only [hf, hd, ht, hl, if_true, pushRelease_empty hf hr, pushRelease_empty hg hr', hg, Option.bind_some, he, hu, hv]

end

/-! ### The resident kernel (R197) -/

theorem execResidentResume_alone {fi : FaultInfo} {inh : Bool} (how : ResumeHow) (hf : getF s p = some f) (hz : f.froz = .resident fi inh)
    (he : f.events = []) (hd : f.dual = none) : execResidentResume p how s = .next (resumeFibre s p f fi how) := by
  have ht : isTrailer f = false := by
    unfold isTrailer
    rw [hd]
  unfold execResidentResume
  simp [hf, hz, he, ht, twin_none hd]

end

end Sys2Proof.Machine

namespace Sys2Proof
open Machine

theorem spanEventsRule : Claim.SpanEventsRule := by
  intro s u p f fresh w cls hf
  refine ⟨fun he hn hc ho hz hw => execInstructionFetchReturn_word hf he hn hc ho hz hw,
    fun hl he ho => execSpanLengthLimit_commits hf hl he ho, fun hl he ho h0 hh hn hc hp hd hv hq => ?_,
    fun hn hz hb hp hd => ⟨execSpanCommitRefused_freezes hf hn hz hb hp hd, refuse_freezes cls⟩, fun wt hz hb he hd hs hg => ?_⟩
  · have hrun := execSpanLengthLimit_commits hf hl he ho
    rw [commitPiece_empty hf he h0 hh hn hc hp hd] at hrun
    obtain ⟨g, ht, h1, h2, h3, h4, h5⟩ := afterCommit_quiet (p := p) false (getF_setF_self s p
      { f with committing := true, relq := [], relWait := false, scf := false }) hv hq
    refine ⟨_, g, hrun, ?_, ?_, h1.trans (if_neg (by change ¬ f.span.count = 0; omega)), h2, h3, h4, h5⟩
    · rw [ht]
      exact getF_setF_self _ _ _
    · rw [ht]
      rfl
  · obtain ⟨g, h⟩ := beginPilot_stands (f.span.faulted.getD 0) hf
    exact ⟨_, g, execGateOpen_free hf hz hb he hd hs hg, h⟩

theorem fibreEventsRule : Claim.FibreEventsRule := by
  intro s p f r rest d q g e u v us vs fi inh ls hf
  refine ⟨fun he hr hd => execEventPost_posts hf he hr hd, fun hd hl hq hg he hr hr' hu hv => ?_, fun hz he hd => ?_⟩
  · have hrun := execSpanCompare_compares hf hd hl hq hg he hr hr' hu hv
    refine ⟨fun heq hus => ?_, fun heq hne => ?_⟩
    · simp only [Prod.mk.injEq] at heq
      obtain ⟨h1, h2, h3⟩ := heq
      refine hrun.trans ?_
      simp [h1, h2, h3, hus]
    · simp only [Prod.mk.injEq] at heq
      obtain ⟨h1, h2⟩ := heq
      refine hrun.trans ?_
      simp [h1, h2, hne]
  · intro goes
    have hrun (how : ResumeHow) := execResidentResume_alone how hf hz he hd
    refine ⟨fun ha how hh => (hrun how).trans ?_, fun ha => (hrun _).trans ?_, fun ha hn => (hrun _).trans ?_, fun x n h ha hn => ?_,
      hrun .killContext⟩
    · simp only [List.mem_cons, List.not_mem_nil, or_false] at hh
      rcases hh with rfl | rfl <;> simp [resumeFibre, resumeFibre.gateAgain, ha]
    · simp only [resumeFibre, ha, if_false]
      rfl
    · simp only [resumeFibre, ha, hn, hf, if_false]
      rfl
    · intro w hw
      refine (hrun _).trans ?_
      simp only [resumeFibre, ha, hn, if_false]
      rw [hw]
      rfl

/-- Settles O38: the frame `Outside` keeps the fibre through the records that are posted; a rollback leaves it standing at the entry of its
span (`rollback_stands`). -/
theorem spanAndFibreEvents : Obligations.SpanAndFibreEvents := ⟨spanEventsRule, fibreEventsRule⟩

end Sys2Proof
end

section
/-! PROOFS. Copy channels, gather engines and the matrix engine of a quay (R259, R280, R281, R289, R291, R309, R322, R323). -/
namespace Sys2Proof.Machine

variable {s : State}

/-! ### Copy channels -/

section
variable {core id : Nat} {ch : BitVec 2} {ids : List Nat} {c : Cmd}
variable (hq : (chanOf (getC s core) ch.toNat).queue = id :: ids) (hc : s.cmds.find? (fun x => x.id == id) = some c)
include hq hc

/-- What a channel does with the command at its head. -/
theorem copyUnit_head :
    copyUnit s core ch.toNat =
      (let u := 4 * c.pos
       let ga := (c.ga + u / c.nb * c.stride + u % c.nb) % 2 ^ 64
       let abandon (t : State) : State := popChan (finishCmd (addCount t core c.grp ch.toNat (c.nb * c.rows - u)) id (some ga)) core ch.toNat
       let after (t : State) : State :=
         let t := setCmd t id fun c => { c with pos := c.pos + 1, begun := true }
         if c.nb * c.rows ≤ u + 4 then popChan (finishCmd t id none) core ch.toNat else due t (.copyCommandExecute core ch)
       if c.done then popChan (finishCmd (addCount s core c.grp ch.toNat (c.nb * c.rows - u)) id none) core ch.toNat
       else if c.out then
         let w := engWrite s c ga (scratchOf s c.grp (c.xa + u) 4)
         if w.1 ≠ 0 then abandon w.2 else after (addCount w.2 core c.grp ch.toNat 4)
       else
         let r := engRead s c ga 4
         match r.1 with
         | .ok b => after (addCount (scratchWr r.2.2 c.grp (c.xa + u) b) core c.grp ch.toNat 4)
         | .fail _ => abandon r.2.2
         | .wait => setCmd r.2.2 id fun c => { c with begun := true }) := by
  have hch : BitVec.ofNat 2 ch.toNat = ch := by simp
  unfold copyUnit
  simp only [hq, hc, hch] <;> rfl

end

/-! ### The gather engine -/

section
variable {core id : Nat} {moved : Mask} {ids : List Nat} {c : Cmd}
variable (hq : (getC s core).gathq = id :: ids) (hc : s.cmds.find? (fun x => x.id == id) = some c) (hd : c.done = false) (hr : c.res = [])
include hq hc hd hr

/-- A command of which no row fails moves the first unit of its first row. -/
theorem gatherHead_moves {w v : State} {k va : Nat} (hb : gathBad (setCmd s id fun c => { c with begun := true }) c = ([], false, w))
    (hn : gathNext c moved = some k) (hu : gathUnit w c k = (.ok [], va, v)) :
    gatherHead s core moved =
      (let res := (List.replicate c.lanes.length 0).set k 1
       let x := setCmd v id fun c => { c with res }
       if (gathNext { c with res } 0).isNone then popGath (finishCmd x id none) core else due x (.gatherCommandExecute core 0)) := by
  have hp : gathPos c k = 0 := by simp [gathPos, hr]
  unfold gatherHead
  simp only [hq, hc, hd, hr, List.isEmpty_nil, Bool.not_true, Bool.and_false, Bool.false_eq_true, if_false, hb, hn, hu, hp, Nat.sub_zero,
    List.length_nil, List.nil_append, Nat.zero_add]

/-- One of which rows fail is abandoned with the lowest failing address. -/
theorem gatherHead_abandons {w : State} {e : Nat × Nat} {es : List (Nat × Nat)}
    (hb : gathBad (setCmd s id fun c => { c with begun := true }) c = (e :: es, false, w)) :
    gatherHead s core 0 = popGath (finishCmd w id (some (es.foldl (fun a x => min a x.2) e.2))) core := by
  unfold gatherHead
  simp only [hq, hc, hd, hr, List.isEmpty_nil, Bool.not_true, Bool.and_false, Bool.false_eq_true, if_false, hb]
  simp

end

theorem gathUnit_reads {c : Cmd} {k : Nat} {b : List Byte} (ho : c.out = false)
    (hr : (engRead s c (((c.lanes.getD k (0, 0)).2 + 4 * gathPos c k) % 2 ^ 64) 4).1 = .ok b) :
    (gathUnit s c k).2.2 =
      scratchWr (engRead s c (((c.lanes.getD k (0, 0)).2 + 4 * gathPos c k) % 2 ^ 64) 4).2.2 c.grp
        (c.xa + (c.lanes.getD k (0, 0)).1 * c.nb + 4 * gathPos c k) b := by
  unfold gathUnit
  simp only [ho, Bool.false_eq_true, if_false, hr]

/-! ### Counting a command that is complete (R259) -/

theorem getF_noteStop (gid : Nat) (p : Place) : getF (noteStop s gid) p = getF s p := by
  unfold noteStop
  repeat' split
  all_goals rfl

theorem noteStop_cmds (gid : Nat) : (noteStop s gid).cmds = s.cmds := by
  unfold noteStop
  repeat' split
  all_goals rfl

theorem getF_groupEnd (gid : Nat) (p : Place) : getF (groupEnd s gid) p = getF s p := by
  unfold groupEnd
  split
  · rfl
  · exact getF_noteStop _ _

theorem groupEnd_cmds (gid : Nat) : (groupEnd s gid).cmds = s.cmds := by
  unfold groupEnd
  split
  · rfl
  · exact noteStop_cmds _

@[simp] theorem modF_cmds (p : Place) (g : Fibre → Fibre) : (modF s p g).cmds = s.cmds := by
  unfold modF
  split <;> rfl

@[simp] theorem pulse_cmds (cid : Nat) : (pulse s cid).cmds = s.cmds := by
  unfold pulse modX
  split <;> rfl

@[simp] theorem wakeWait_cmds (p : Place) (t : Wait → Bool) : (wakeWait s p t).cmds = s.cmds := by
  unfold wakeWait mapWait
  simp

@[simp] theorem countDone_cmds (p : Place) (cls : OcClass) (e : Option EngFail) : (countDone s p cls e).cmds = s.cmds := by
  unfold countDone
  dsimp only
  split <;> simp

theorem getF_modF {p : Place} {f : Fibre} (hf : getF s p = some f) (m : Fibre → Fibre) : getF (modF s p m) p = some (m f) := by
  unfold modF
  rw [hf]
  exact getF_setF_self _ _ _

/-- A fibre that does not wait has one command fewer outstanding, and is changed in no count else. -/
theorem countDone_oc {p : Place} {f : Fibre} (cls : OcClass) (e : Option EngFail) (hf : getF s p = some f) (hw : f.wait = .none)
    (hh : f.halves = []) : ∃ g, getF (countDone s p cls e) p = some g ∧ g.oc = f.oc.set (clsNo cls) (ocOf f cls - 1) := by
  have h1 := getF_modF hf fun f => { f with oc := f.oc.set (clsNo cls) (ocOf f cls - 1), fails := f.fails ++ e.toList }
  unfold countDone
  extract_lets u
  change getF u p = _ at h1
  rw [h1]
  dsimp only
  unfold wakeWait mapWait
  rw [getF_modF (getF_modF h1 _)]
  refine ⟨_, rfl, ?_⟩
  simp [hw, hh]

theorem completeCmd_alone {c : Cmd} {p : Place} {f : Fibre} (hs : s.cmds = [c]) (ho : c.of = none) (hd : cmdDone s c = true)
    (hn : c.fail = none) (hg : (getG s c.grp).bind Group.partner = none) (hp : ownerPlace c.core c.berth c.fib = some p)
    (hf : getF s p = some f) (hw : f.wait = .none) (hh : f.halves = []) (hc : c.counted = false) :
    (completeCmd s c.id).cmds = [] ∧
      ∃ g, getF (completeCmd s c.id) p = some g ∧ g.oc = f.oc.set (clsNo c.cls) (ocOf f c.cls - 1) := by
  have hpn : ((getG s c.grp).any fun g => g.partner.isSome) = false := by
    cases hgg : getG s c.grp with
    | none => rfl
    | some x => simpa [hgg] using hg
  have hcount : countCmds 2 s c.core c.berth c.fib c.cls = countDone (pulse { s with cmds := [] } c.cid) p c.cls none := by
    unfold countCmds
    simp only [hs, List.find?_cons, beq_self_eq_true, Bool.and_self, hc, Bool.not_false, hd, Bool.not_true,
      Bool.false_eq_true, if_false, cmdFail, ho, hn, hpn, hp, Option.isNone_none, if_true, List.filterMap_cons, List.filterMap_nil]
    unfold countCmds
    simp
  have hall : completeCmd s c.id = groupEnd (countDone (pulse { s with cmds := [] } c.cid) p c.cls none) c.grp := by
    unfold completeCmd
    simp [hs, ho, hcount]
  rw [hall, groupEnd_cmds, countDone_cmds, pulse_cmds]
  refine ⟨rfl, ?_⟩
  rw [getF_groupEnd]
  exact countDone_oc c.cls none (((outside_pulse _ _).getF p).trans hf) hw hh

/-! ### The matrix engine -/

section
variable {q k n : Nat} {e : MEnt}

/-- What was read of peers for a command that has lost its grant is dropped. -/
def grantedTo (s : State) (q : Nat) (e : MEnt) : State :=
  match ((getQy s q).run.bind (tfind (getQy s q).ents)).filter fun x => x.id != e.id with
  | some x => farDrop s x.id
  | none => s

/-- The state in which the entry granted makes its move. -/
def begunStep (s : State) (q k n : Nat) (e : MEnt) : State :=
  setQy (grantedTo s q e) q { getQy s q with ents := tput (getQy s q).ents k { e with begun := true }, run := some k, steps := n }

theorem grantedTo_eq : grantedTo s q e =
    match (getQy s q).run.bind (tfind (getQy s q).ents) with
    | some x => if x.id = e.id then s else farDrop s x.id
    | none => s := by
  unfold grantedTo
  cases (getQy s q).run.bind (tfind (getQy s q).ents) with
  | none => rfl
  | some x => by_cases h : x.id = e.id <;> simp [Option.filter, h]

/-- What an engine does after the move of the entry granted. -/
theorem engineStep_granted (hg : grant s q = some (k, e, n)) :
    engineStep s q =
      match runStep (begunStep s q k n e) q { e with begun := true } with
      | (none, t) => t
      | (some e', t) =>
        let qy := getQy t q
        let ended := e'.part.isNone
        let e' := if ended then { e' with lastRun := cycOf t (4 * q), aged := false } else e'
        let t := setQy t q { qy with ents := tput qy.ents k e', steps := if ended then n + 1 else n }
        let t := if ended then farDrop t e.id else t
        let t := if ended && e'.fail.isNone then pulse t e.cid else t
        let t := if e'.done then due t (.engineCommandComplete e.id) else t
        if (grant t q).isSome then due t (.matrixStep q) else t := by
  unfold engineStep begunStep
  rw [grantedTo_eq]
  simp only [hg] <;> rfl

end

end Sys2Proof.Machine

namespace Sys2Proof
open Machine

theorem engineEventsRule : Claim.EngineEventsRule := by
  intro s core ch id ids c moved u ga put got next after
  refine ⟨fun hq hc => ?_, fun hq hc hd hr => ?_, fun k b ho hr => gathUnit_reads ho hr, fun h => ?_, fun p f hs hid ho hd hn hg hp hf hw hh hc => ?_,
    fun h => ?_⟩
  · have hrun : Machine.exec (.copyCommandExecute core ch) s = .next (copyUnit s core ch.toNat) := rfl
    rw [hrun, copyUnit_head hq hc]
    refine ⟨fun hd => ?_, fun hd ho hz => ?_, fun hd ho hz => ?_, fun b hd ho hb => ?_, fun k hd ho hk => ?_⟩
    · simp only [hd, if_true, u]
    · have hz' : (engWrite s c ga (scratchOf s c.grp (c.xa + u) 4)).1 = 0 := hz
      simp only [hd, ho, Bool.false_eq_true, if_false, if_true]
      rw [if_neg (fun h => h hz')]
    · have hz' : (engWrite s c ga (scratchOf s c.grp (c.xa + u) 4)).1 ≠ 0 := hz
      simp only [hd, ho, Bool.false_eq_true, if_false, if_true]
      rw [if_pos hz']
    · have hb' : (engRead s c ga 4).1 = .ok b := hb
      simp only [hd, ho, Bool.false_eq_true, if_false]
      dsimp only [ga, u] at hb'
      rw [hb']
    · have hk' : (engRead s c ga 4).1 = .fail k := hk
      simp only [hd, ho, Bool.false_eq_true, if_false]
      dsimp only [ga, u] at hk'
      rw [hk']
  · intro t
    exact ⟨fun w k va v hb hn hu => congrArg Host.Outcome.next (gatherHead_moves hq hc hd hr hb hn hu),
      fun w e es hb => congrArg Host.Outcome.next (gatherHead_abandons hq hc hd hr hb)⟩
  · exact congrArg Host.Outcome.next (if_pos h)
  · subst hid
    obtain ⟨h1, g, h2, h3⟩ := completeCmd_alone hs ho hd hn hg hp hf hw hh hc
    exact ⟨_, g, congrArg Host.Outcome.next (if_pos (by simp [hs])), h1, h2, h3⟩
  · exact congrArg Host.Outcome.next (if_neg (by simp [h]))

theorem matrixEventsRule : Claim.MatrixEventsRule := by
  intro s q k n e e' t
  refine ⟨fun hg => ?_, fun va hv => ⟨fun ht => ?_, fun ht r u hl => ?_⟩, fun hk hw hd => ?_⟩
  · intro b s0 s1
    have hs1 : begunStep s q k n e = s1 := rfl
    have hrun : Machine.exec (.matrixStep q) s = .next (engineStep s q) := rfl
    rw [hrun, engineStep_granted hg, hs1]
    refine ⟨fun hr => by rw [hr], fun hr hp hd => ?_, fun hr hp => ?_, fun m hm => ⟨?_, rfl⟩, ?_⟩
    · intro r
      have hp' : e'.part.isNone = false := by cases h : e'.part <;> simp_all
      rw [hr]
      simp only [hp', hd, Bool.false_eq_true, if_false, Bool.false_and]
      rfl
    · intro r r1 r2
      have hp' : e'.part.isNone = true := by rw [hp]; rfl
      rw [hr]
      simp only [hp', if_true, Bool.true_and]
      rfl
    · have hb : b.part = some m := hm
      unfold runStep
      rw [hb]
    · unfold nextTile
      rw [hg]
      cases hp : e.part <;> simp [hp]
  · change execWeightPlaneLoad q s = _
    unfold execWeightPlaneLoad
    simp only [hv, ht, Bool.not_false, if_true]
  · change execWeightPlaneLoad q s = _
    unfold execWeightPlaneLoad
    cases r <;> simp only [hv, ht, hl, Bool.not_true, Bool.false_eq_true, if_false]
  · change execMatrixAgePromote q k s = _
    unfold execMatrixAgePromote
    simp only [hk, hw, hd, and_self, if_true]

/-- Settles O40: one lemma for each engine's head command, each clause a branch of it. -/
theorem engines : Obligations.Engines := ⟨engineEventsRule, matrixEventsRule⟩

end Sys2Proof
end

section
/-! PROOFS. The register range: which register some addresses hold, what a read clears and what a write leaves (R429, R439). The
addresses are kept as variables, so that no address comparison is evaluated. -/
namespace Sys2Proof.Machine

/-- The second part of what is known as a pair. -/
theorem snd_of_eq {α β : Type} {x : α × β} {a : α} {b : β} (h : x = (a, b)) : x.2 = b := by rw [h]

/-! ### Addresses -/

theorem regAt_slotStat {a n : Nat} (ha : a = 0x010000000000 + (0x100000 + 0x1000 * n + 8)) (h : n < 1024) :
    regAt a = some (.slotStat n) := by
  have ho : a - 0x010000000000 = 0x100000 + 0x1000 * n + 8 := by omega
  unfold regAt
  extract_lets o d x m y
  have h1 : o = 0x100000 + 0x1000 * n + 8 := ho
  have hm : m = n := by
    change (o - 0x100000) / 0x1000 = n
    omega
  have hy : y = 8 := by
    change o % 0x1000 = 8
    omega
  clear_value m y o
  rw [if_neg (by omega), if_pos (by omega), if_neg (by omega), if_pos hy, hm]

theorem regAt_linkStat {a n : Nat} (ha : a = 0x010000000000 + (0x620000 + 0x40 * n)) (h : n < 36) : regAt a = some (.linkStat n) := by
  have ho : a - 0x010000000000 = 0x620000 + 0x40 * n := by omega
  unfold regAt
  extract_lets o d x m y
  have h1 : o = 0x620000 + 0x40 * n := ho
  have hn : (o - 0x620000) / 0x40 = n := by omega
  clear_value m y o
  rw [if_neg (by omega), if_neg (by omega), if_neg (by omega), if_neg (by omega), if_neg (by omega), if_neg (by omega),
    if_neg (by omega), if_neg (by omega), if_pos (by omega), if_pos (by omega), hn]

theorem regAt_freq {a n : Nat} (ha : a = 0x010000000000 + (0x690008 + 8 * n)) (h : n < 8) : regAt a = some (.freq n) := by
  have ho : a - 0x010000000000 = 0x690008 + 8 * n := by omega
  unfold regAt
  extract_lets o d x m y
  have h1 : o = 0x690008 + 8 * n := ho
  have hn : (o - 0x690008) / 8 = n := by omega
  clear_value m y o
  rw [if_neg (by omega), if_neg (by omega), if_neg (by omega), if_neg (by omega), if_neg (by omega), if_neg (by omega),
    if_neg (by omega), if_neg (by omega), if_neg (by omega), if_neg (by omega), if_neg (by omega), if_neg (by omega),
    if_neg (by omega), if_neg (by omega), if_neg (by omega), if_neg (by omega), if_neg (by omega), if_neg (by omega),
    if_pos (by omega), hn]

theorem regAt_result : regAt resultReg = some .result := by decide
theorem regAt_inject : regAt injAddr = some (.inject false) ∧ regAt (injAddr + 8) = some (.inject true) := by decide

theorem regBits_eight {pa : Nat} (h : pa % 8 = 0) : regBits pa 8 = 2 ^ 64 - 1 := by
  unfold regBits
  rw [h]
  rfl

/-! ### Reads -/

section
variable (s : State)

theorem regRead_pair (pa size : Nat) : ∃ v, regRead s pa size = (v, regClear s (pa / 8 * 8) (regBits pa size)) := ⟨_, rfl⟩

theorem regRead_state (pa size : Nat) : (regRead s pa size).2 = regClear s (pa / 8 * 8) (regBits pa size) := by
  obtain ⟨v, h⟩ := regRead_pair s pa size
  exact snd_of_eq h

theorem regRead_eight {a : Nat} (h : a % 8 = 0) : (regRead s a 8).2 = regClear s a (2 ^ 64 - 1) := by
  have ha : a / 8 * 8 = a := by omega
  rw [regRead_state, ha, regBits_eight h]

variable {a m n : Nat}

theorem regClear_slotStat (ha : regAt a = some (.slotStat n)) (hm : m / 2 ^ 32 ≠ 0) :
    regClear s a m = { s with slotTab := tset Slot.init s.slotTab n { tget Slot.init s.slotTab n with refused := 0 } } := by
  have e : ∃ F, @regClear = F ∧ F s a m =
      { s with slotTab := tset Slot.init s.slotTab n { tget Slot.init s.slotTab n with refused := 0 } } := by
    refine ⟨_, by delta regClear; exact rfl, ?_⟩
    generalize regAt = at_ at ha ⊢
    simp only [ha, hm, if_false]
  obtain ⟨F, hF, h⟩ := e
  rw [hF]
  exact h

theorem regClear_result (ha : regAt a = some .result) (hm : m % 16 ≠ 0) : regClear s a m = setReg s a 0 := by
  have e : ∃ F, @regClear = F ∧ F s a m = setReg s a 0 := by
    refine ⟨_, by delta regClear; exact rfl, ?_⟩
    generalize regAt = at_ at ha ⊢
    simp only [ha, hm, if_false]
  obtain ⟨F, hF, h⟩ := e
  rw [hF]
  exact h

theorem regClear_linkStat (ha : regAt a = some (.linkStat n)) (hm : m / 2 ^ 48 ≠ 0) :
    regClear s a m = { s with links := tset Link.init s.links n { tget Link.init s.links n with resent := 0 } } := by
  have e : ∃ F, @regClear = F ∧ F s a m =
      { s with links := tset Link.init s.links n { tget Link.init s.links n with resent := 0 } } := by
    refine ⟨_, by delta regClear; exact rfl, ?_⟩
    generalize regAt = at_ at ha ⊢
    simp only [ha, hm, if_false]
  obtain ⟨F, hF, h⟩ := e
  rw [hF]
  exact h

/-! ### Writes -/

theorem regMask_freq (ha : regAt a = some (.freq n)) : regMask a = 0x3F := by
  have e : ∃ F, @regMask = F ∧ F a = 0x3F := by
    refine ⟨_, by delta regMask; exact rfl, ?_⟩
    generalize regAt = at_ at ha ⊢
    simp only [ha]
  obtain ⟨F, hF, h⟩ := e
  rw [hF]
  exact h

theorem regMask_inject {hi : Bool} (ha : regAt a = some (.inject hi)) :
    regMask a = if hi then 2 ^ 64 - 1 else 2 ^ 64 - 1 - (2 ^ 49 - 1) + 1 := by
  have e : ∃ F, @regMask = F ∧ F a = if hi then 2 ^ 64 - 1 else 2 ^ 64 - 1 - (2 ^ 49 - 1) + 1 := by
    refine ⟨_, by delta regMask; exact rfl, ?_⟩
    generalize regAt = at_ at ha ⊢
    simp only [ha]
  obtain ⟨F, hF, h⟩ := e
  rw [hF]
  exact h

/-- What the bits that a write names (`bits`) and may change (`mask`) leave of `old`, where `w` is written. -/
def regMixed (old bits mask w : Nat) : Nat := (old &&& (2 ^ 64 - 1 - (bits &&& mask))) ||| (w &&& (bits &&& mask))

/-- The bits that a write of `size` bytes brings, at their place in the 8-byte register. -/
def regShifted (pa size v : Nat) : Nat := v % 2 ^ (8 * size) * 2 ^ (8 * (pa % 8))

theorem regWrite_freq {who : Writer} {pa size v : Nat} (ha : regAt (pa / 8 * 8) = some (.freq n)) :
    regWrite s who pa size v = setReg s (pa / 8 * 8) (BitVec.ofNat 64
      (regMixed (getReg s (pa / 8 * 8)).toNat (regBits pa size) (regMask (pa / 8 * 8)) (regShifted pa size v))) := by
  have e : ∃ F, @regWrite = F ∧ F s who pa size v = setReg s (pa / 8 * 8) (BitVec.ofNat 64
      (regMixed (getReg s (pa / 8 * 8)).toNat (regBits pa size) (regMask (pa / 8 * 8)) (regShifted pa size v))) := by
    refine ⟨_, by delta regWrite; exact rfl, ?_⟩
    generalize regMask = mask_
    generalize regAt = at_ at ha ⊢
    simp only [ha, regMixed, regShifted]
  obtain ⟨F, hF, h⟩ := e
  rw [hF]
  exact h

theorem regWrite_inject {who : Writer} {hi : Bool} {pa size v : Nat} (ha : regAt (pa / 8 * 8) = some (.inject hi)) :
    regWrite s who pa size v =
      if who = .host ∨ (!injOk s) = true then s
      else setReg s (pa / 8 * 8) (BitVec.ofNat 64
        (if (!hi) = true ∧ regShifted pa size v / 2 % 2 = 1 then
          regMixed (getReg s (pa / 8 * 8)).toNat (regBits pa size) (regMask (pa / 8 * 8)) (regShifted pa size v) -
            regMixed (getReg s (pa / 8 * 8)).toNat (regBits pa size) (regMask (pa / 8 * 8)) (regShifted pa size v) / 2 % 2 * 2
         else regMixed (getReg s (pa / 8 * 8)).toNat (regBits pa size) (regMask (pa / 8 * 8)) (regShifted pa size v))) := by
  have e : ∃ F, @regWrite = F ∧ F s who pa size v =
      if who = .host ∨ (!injOk s) = true then s
      else setReg s (pa / 8 * 8) (BitVec.ofNat 64
        (if (!hi) = true ∧ regShifted pa size v / 2 % 2 = 1 then
          regMixed (getReg s (pa / 8 * 8)).toNat (regBits pa size) (regMask (pa / 8 * 8)) (regShifted pa size v) -
            regMixed (getReg s (pa / 8 * 8)).toNat (regBits pa size) (regMask (pa / 8 * 8)) (regShifted pa size v) / 2 % 2 * 2
         else regMixed (getReg s (pa / 8 * 8)).toNat (regBits pa size) (regMask (pa / 8 * 8)) (regShifted pa size v))) := by
    refine ⟨_, by delta regWrite; exact rfl, ?_⟩
    generalize regMask = mask_
    generalize regAt = at_ at ha ⊢
    (simp only [ha, regMixed, regShifted]; rfl)
  obtain ⟨F, hF, h⟩ := e
  rw [hF]
  exact h

end

/-! ### The bits of what a write leaves -/

/-- A write of all 8 bytes: bit `i` is the one written where the mask has it, else the old one. -/
theorem regMixed_testBit {old w mask : Nat} (ho : old < 2 ^ 64) (hm : mask < 2 ^ 64) (i : Nat) :
    (regMixed old (2 ^ 64 - 1) mask w).testBit i = if mask.testBit i then w.testBit i else old.testBit i := by
  have hb : (2 ^ 64 - 1) &&& mask = mask := by
    rw [Nat.and_comm, Nat.and_two_pow_sub_one_eq_mod, Nat.mod_eq_of_lt hm]
  have hs : 2 ^ 64 - 1 - mask = 2 ^ 64 - (mask + 1) := by omega
  unfold regMixed
  rw [hb, hs, Nat.testBit_or, Nat.testBit_and, Nat.testBit_and, Nat.testBit_two_pow_sub_succ hm]
  by_cases hi : i < 64
  · cases mask.testBit i <;> simp [hi]
  · have h1 : old.testBit i = false := Nat.testBit_lt_two_pow (lt_of_lt_of_le ho (Nat.pow_le_pow_right (by decide) (by omega)))
    have h2 : mask.testBit i = false := Nat.testBit_lt_two_pow (lt_of_lt_of_le hm (Nat.pow_le_pow_right (by decide) (by omega)))
    simp [h1, h2]

theorem regMixed_lt {old w mask : Nat} (ho : old < 2 ^ 64) (hm : mask < 2 ^ 64) : regMixed old (2 ^ 64 - 1) mask w < 2 ^ 64 := by
  refine Nat.lt_pow_two_of_testBit _ fun i hi => ?_
  have h1 : old.testBit i = false := Nat.testBit_lt_two_pow (lt_of_lt_of_le ho (Nat.pow_le_pow_right (by decide) hi))
  have h2 : mask.testBit i = false := Nat.testBit_lt_two_pow (lt_of_lt_of_le hm (Nat.pow_le_pow_right (by decide) hi))
  rw [regMixed_testBit ho hm, h1, h2]
  rfl

/-- The six writable bits of a frequency limit. -/
theorem regMixed_freq {old w : Nat} (ho : old < 2 ^ 64) : regMixed old (2 ^ 64 - 1) 0x3F w = old / 64 * 64 + w % 64 := by
  refine Nat.eq_of_testBit_eq fun i => ?_
  have hw : w % 2 ^ 6 < 2 ^ 6 := Nat.mod_lt _ (by decide)
  have hr : old / 64 * 64 + w % 64 = 2 ^ 6 * (old / 2 ^ 6) + w % 2 ^ 6 := by omega
  have hm : (0x3F : Nat) = 2 ^ 6 - 1 := rfl
  rw [regMixed_testBit ho (by decide), hr, Nat.testBit_two_pow_mul_add _ hw, hm, Nat.testBit_two_pow_sub_one, Nat.testBit_mod_two_pow,
    Nat.testBit_div_two_pow]
  by_cases hi : i < 6
  · simp [hi]
  · have h6 : i - 6 + 6 = i := by omega
    simp [hi, h6]

theorem regShifted_eight {a v : Nat} (h : a % 8 = 0) : regShifted a 8 v = v % 2 ^ 64 := by
  unfold regShifted
  rw [h, Nat.mul_zero, Nat.pow_zero, Nat.mul_one]

end Sys2Proof.Machine
end

section
/-! PROOFS. The harbourmaster and graphs. -/
namespace Sys2Proof.Machine

/-! ### Graphs (R346, R347) -/

theorem trigTake_first {s : State} {slot np : Nat} {ps rest} (h : s.trigs = (slot, np, ps) :: rest) :
    trigTake s slot np = (ps, { s with trigs := rest }) := by
  unfold trigTake
  rw [h]
  simp [pick]

/-- What a trigger takes leaves everything but the list of triggers. -/
theorem trigTake_boot {s : State} {slot np : Nat} : (trigTake s slot np).2.boot = s.boot := by
  unfold trigTake
  split <;> rfl

theorem slotOf_tset {s : State} {n : Nat} {v : Slot} (h : tabWf Slot.init s.slotTab = true) :
    slotOf { s with slotTab := tset Slot.init s.slotTab n v } n = v := tget_tset_self n v h

section
variable {s u : State} {slot : Nat} {np : BitVec 7} {ps : List (Nat × Nat)}

theorem execGraphTrigger_starts (h : slot < 1024) (hb : s.boot.crashed = false) (ht : trigTake s slot np.toNat = (ps, u))
    (hr : trigReason u slot none np.toNat = 0) (hp : ps.all (patchOk (slotOf u slot).recs) = true) :
    Machine.exec (.graphTrigger slot np) s = .next (startRun u slot (((slotOf u slot).cid).getD 0) ps u.hostTide) := by
  change execGraphTrigger slot np s = _
  have hu : u.boot = s.boot := by rw [← trigTake_boot (s := s) (slot := slot) (np := np.toNat), ht]
  unfold execGraphTrigger
  simp only [ht]
  rw [if_neg (by omega), hu, hb, hr, hp, if_neg (by simp)]

theorem execGraphTrigger_refused (h : slot < 1024) (ht : trigTake s slot np.toNat = (ps, u))
    (hr : trigReason u slot none np.toNat ≠ 0) : Machine.exec (.graphTrigger slot np) s = .next (trigRefused u slot) := by
  change execGraphTrigger slot np s = _
  unfold execGraphTrigger
  simp only [ht]
  rw [if_neg (by omega), if_pos (by simp [hr])]

end

theorem execGraphRefusedRead_eq {s : State} {slot : Nat} (h : slot < 1024) :
    Machine.exec (.graphRefusedRead slot) s =
      .next { s with slotTab := tset Slot.init s.slotTab slot { slotOf s slot with refused := 0 } } := by
  have e : ∃ a, a = 0x010000000000 + (0x100000 + 0x1000 * slot + 8) ∧
      Machine.exec (.graphRefusedRead slot) s = .next (regRead s a 8).2 := by
    refine ⟨slotBase slot + 8, by unfold slotBase; omega, rfl⟩
  obtain ⟨a, ha, e⟩ := e
  have hm : (2 ^ 64 - 1) / 2 ^ 32 ≠ 0 := by decide
  rw [e, regRead_eight s (by omega), regClear_slotStat s (regAt_slotStat ha h) hm]
  rfl

end Sys2Proof.Machine

namespace Sys2Proof
open Machine

/-- Settles O41: each row is read off by the case that its hypotheses choose. -/
theorem taskEvents : Obligations.TaskEvents := by
  unfold Obligations.TaskEvents
  intro s took u w ps cid q a c x e d slot run np again
  refine ⟨fun hx hq ha hi ht => ⟨fun hk hw hd => ?_, fun hk hw => ?_⟩, ?_, fun rest h => trigTake_first h, ?_, ?_, ?_⟩
  · change execTaskTake cid s = _
    unfold execTaskTake
    simp only [hx, hq, ha, hi, ht, hk, hw, hd, Bool.not_true, Bool.or_self, Bool.false_eq_true, if_false, again]
  · change execTaskTake cid s = _
    unfold execTaskTake
    simp only [hx, hq, ha, hi, ht, hk, hw, Bool.not_true, Bool.or_self, Bool.false_eq_true, if_false, again]
  · exact fun h hb ht hr hp => execGraphTrigger_starts h hb ht hr hp
  · intro h ht hr hw
    exact ⟨_, execGraphTrigger_refused h ht hr, rfl, slotOf_tset hw⟩
  · intro h hw
    exact ⟨_, execGraphRefusedRead_eq h, rfl, slotOf_tset hw⟩
  · intro h
    change execGraphRecordPlace slot run s = _
    unfold execGraphRecordPlace
    rw [if_pos h]

end Sys2Proof
end

section
/-! PROOFS. The context commands. -/
namespace Sys2Proof.Machine

section
variable {s w v : State} {i : Instr} {o : Out} {k : State → State} {cid : Nat} {x : Ctx}

/-- A command acts where no other one is in progress, and waits else. -/
theorem command_acts (he : Machine.exec i s = o) (ho : o = command i s k) (h : s.cmd = none ∨ s.cmd = some i) : Machine.exec i s = .next (k s) := by
  rw [he, ho]
  unfold command
  rw [if_pos (by rcases h with h | h <;> simp [h])]

theorem command_waits (he : Machine.exec i s = o) (ho : o = command i s k) (h : ¬ (s.cmd = none ∨ s.cmd = some i)) : Machine.exec i s = .next s := by
  rw [he, ho]
  unfold command
  rw [if_neg (by simpa [Option.isNone_iff_eq_none] using h)]

theorem liveSt_iff (h : getX s cid = some x) : liveSt (stOf s cid) = true ↔ 1 ≤ x.st ∧ x.st ≤ 4 := by
  unfold stOf liveSt
  simp [h]

theorem stOf_eq (h : getX s cid = some x) : stOf s cid = some x.st := by
  unfold stOf
  rw [h]
  rfl

theorem getX_modX {g : Ctx → Ctx} (h : getX s cid = some x) : getX (modX s cid g) cid = some (g x) := by
  unfold modX
  rw [h]
  exact tfind_tput_self _ _ _

theorem getReg_setResult (h : tabWf 0 s.regs = true) (n : Nat) : getReg (setResult s n) resultReg = BitVec.ofNat 64 n :=
  tget_tset_self _ _ h

/-! ### Control blocks -/

variable {b : BitVec 2048}

theorem execAlloc_malformed (hm : s.cmd = none ∨ s.cmd = some .alloc)
    (h : readBlock s = (none, w) ∨ (readBlock s = (some b, w) ∧ blockBad b = true)) :
    Machine.exec .alloc s = .next (setResult w 2) := by
  refine (command_acts (o := execAlloc s) rfl rfl hm).trans (congrArg Host.Outcome.next ?_)
  rcases h with h | ⟨h, hb⟩
  · simp only [h]
  · simp only [h, hb, Bool.true_or, if_true]

theorem execLoad_malformed (hm : s.cmd = none ∨ s.cmd = some .load)
    (h : readBlock s = (none, w) ∨ (readBlock s = (some b, w) ∧ blockBad b = true)) :
    Machine.exec .load s = .next (setResult w 2) := by
  refine (command_acts (o := execLoad s) rfl rfl hm).trans (congrArg Host.Outcome.next ?_)
  rcases h with h | ⟨h, hb⟩
  · simp only [h]
  · simp only [h, hb, if_true]

theorem execReload_malformed (hm : s.cmd = none ∨ s.cmd = some (.reload cid)) (hl : liveSt (stOf s cid) = true)
    (h : readBlock s = (none, w) ∨ (readBlock s = (some b, w) ∧ blockBad b = true)) :
    Machine.exec (.reload cid) s = .next (setResult w 2) := by
  refine (command_acts (o := execReload cid s) rfl rfl hm).trans (congrArg Host.Outcome.next ?_)
  rcases h with h | ⟨h, hb⟩
  · simp only [h, hl, Bool.not_true, Bool.false_eq_true, if_false]
  · simp only [h, hb, hl, Bool.not_true, Bool.false_eq_true, if_true, if_false]

theorem execAlloc_makes (hm : s.cmd = none ∨ s.cmd = some .alloc) (h : readBlock s = (some b, w)) (hb : blockBad b = false)
    (hn : blk (newCtx b (getReg w cbReg).toNat w.time) 0 64 = 0) (hx : getX w (bitsAt b.toNat 64 12) = none)
    (hl : w.ctxs.length < 4096) (hp : parentOf w (newCtx b (getReg w cbReg).toNat w.time) = none) :
    Machine.exec .alloc s = .next (setResult (clearDebug (setX w (bitsAt b.toNat 64 12)
      (newCtx b (getReg w cbReg).toNat w.time)) (bitsAt b.toNat 64 12)) 1) := by
  refine (command_acts (o := execAlloc s) rfl rfl hm).trans (congrArg Host.Outcome.next ?_)
  have hl' : ¬ 4096 ≤ w.ctxs.length := by omega
  simp [h, hb, hn, hx, hl', hp]

variable {u : BlockUse}

theorem execLoad_bad (hm : s.cmd = none ∨ s.cmd = some .load) (h : readBlock s = (some b, w)) (hb : blockBad b = false)
    (hu : blockUse w ownerLoad (bitsAt b.toNat 64 12) b = .bad v) : Machine.exec .load s = .next (setResult v 2) := by
  refine (command_acts (o := execLoad s) rfl rfl hm).trans (congrArg Host.Outcome.next ?_)
  simp only [h, hb, hu, Bool.false_eq_true, if_false]

theorem execLoad_ok (hm : s.cmd = none ∨ s.cmd = some .load) (h : readBlock s = (some b, w)) (hb : blockBad b = false)
    (hu : blockUse w ownerLoad (bitsAt b.toNat 64 12) b = .ok u v) (hx : getX v (bitsAt b.toNat 64 12) = some x) :
    Machine.exec .load s = .next
      (if x.st ≠ 0 then setResult v 4
       else ((takeBlock v (bitsAt b.toNat 64 12) { x with st := 1, iord := 0, silence := 0, fired := false } b u).map
         (setResult · 1)).getD (setResult v 3)) := by
  refine (command_acts (o := execLoad s) rfl rfl hm).trans (congrArg Host.Outcome.next ?_)
  simp only [h, hb, hu, hx, Bool.false_eq_true, if_false]
  cases takeBlock v (bitsAt b.toNat 64 12) { x with st := 1, iord := 0, silence := 0, fired := false } b u <;> rfl

theorem execReload_bad (hm : s.cmd = none ∨ s.cmd = some (.reload cid)) (hl : liveSt (stOf s cid) = true)
    (h : readBlock s = (some b, w)) (hb : blockBad b = false) (hu : blockUse w (ownerReload cid) cid b = .bad v) :
    Machine.exec (.reload cid) s = .next (setResult v 2) := by
  refine (command_acts (o := execReload cid s) rfl rfl hm).trans (congrArg Host.Outcome.next ?_)
  simp only [h, hb, hl, hu, Bool.not_true, Bool.false_eq_true, if_false]

theorem execReload_ok (hm : s.cmd = none ∨ s.cmd = some (.reload cid)) (hl : liveSt (stOf s cid) = true)
    (h : readBlock s = (some b, w)) (hb : blockBad b = false) (hu : blockUse w (ownerReload cid) cid b = .ok u v)
    (hx : getX v cid = some x) :
    Machine.exec (.reload cid) s = .next
      (((takeBlock v cid { x with noPreempt := [] } b u).map fun t => placeAgain (setResult t 1)).getD (setResult v 3)) := by
  refine (command_acts (o := execReload cid s) rfl rfl hm).trans (congrArg Host.Outcome.next ?_)
  simp only [h, hb, hl, hu, hx, Bool.not_true, Bool.false_eq_true, if_false]
  cases takeBlock v cid { x with noPreempt := [] } b u <;> rfl

theorem execContextResultRead_eq : Machine.exec .contextResultRead s = .next (setReg s resultReg 0) := by
  have hm : (2 ^ 64 - 1) % 16 ≠ 0 := by decide
  refine congrArg Host.Outcome.next ?_
  have e : ∃ a, a = resultReg ∧ a % 8 = 0 ∧ regAt a = some .result := ⟨_, rfl, by decide, regAt_result⟩
  obtain ⟨a, ha, h8, hr⟩ := e
  rw [← ha, regRead_eight s h8, regClear_result s hr hm]

/-! ### Commands on contexts that there are -/

/-- A context with no group and no child: freezing its tree freezes it and nothing else. -/
theorem freezeTree_alone (hx : getX s cid = some x) (hl : liveSt (stOf s cid) = true) (hg : s.groups = []) (ht : subtree s cid = [cid]) :
    ((subtree s cid).filter fun c => liveSt (stOf s c)).foldl (freezeCtx cid) s =
      modX s cid fun y => { y with st := 5, prev := y.st, froot := cid } := by
  have hg' : (modX s cid fun y => { y with st := 5, prev := y.st, froot := cid }).groups = [] := by
    unfold modX
    rw [hx]
    exact hg
  rw [ht, List.filter_cons_of_pos (by exact hl)]
  simp only [List.filter_nil, List.foldl_cons, List.foldl_nil, freezeCtx, hg']

end

end Sys2Proof.Machine

namespace Sys2Proof
open Machine

/-- The first part of O42. -/
theorem contextBlocksRule : Claim.ContextBlocksRule := by
  unfold Claim.ContextBlocksRule
  intro s w v t b cid x u of_ may live
  refine ⟨fun i hi hm => ?_, fun h => ⟨fun hm => execAlloc_malformed hm h, fun hm => execLoad_malformed hm h,
    fun hm hl => execReload_malformed hm hl h⟩, fun h hb => ?_, fun hm hx hst => ?_, fun hw => ?_⟩
  · simp only [List.mem_cons, List.not_mem_nil, or_false] at hi
    rcases hi with rfl | rfl | rfl
    · exact command_waits (o := execAlloc s) rfl rfl hm
    · exact command_waits (o := execLoad s) rfl rfl hm
    · exact command_waits (o := execReload cid s) rfl rfl hm
  · intro new
    refine ⟨fun hm hn hx hl hp => execAlloc_makes hm h hb hn hx hl hp, fun hm hu => ?_, fun hm hu hx => ?_, fun hm hl hu => ?_,
      fun hm hl hu hx => ?_⟩
    · exact execLoad_bad hm h hb hu
    · rw [execLoad_ok hm h hb hu hx]
      exact ⟨fun hst => by rw [if_pos hst], fun hst => ⟨fun hr => by rw [if_neg (by omega), hr]; rfl,
        fun hr => by rw [if_neg (by omega), hr]; rfl⟩⟩
    · exact execReload_bad hm hl h hb hu
    · rw [execReload_ok hm hl h hb hu hx]
      exact ⟨fun hr => by rw [hr]; rfl, fun hr => by rw [hr]; rfl⟩
  · refine (command_acts (o := execReload cid s) rfl rfl hm).trans (congrArg Host.Outcome.next (if_pos ?_))
    simp only [stOf_eq hx, liveSt, Bool.not_eq_true', Bool.and_eq_false_iff, decide_eq_false_iff_not]
    omega
  · exact ⟨_, execContextResultRead_eq, rfl, tget_tset_self _ _ hw, fun a ha => tget_tset_ne _ _ _ ha⟩

/-- The second part of O42. -/
theorem contextCommandsRule : Claim.ContextCommandsRule := by
  unfold Claim.ContextCommandsRule
  intro s cid x hx may
  have hst := stOf_eq hx
  have hlive := liveSt_iff hx
  refine ⟨fun i hi hm => ?_, fun hm h1 h4 => ?_, fun hm h1 h4 hg ht => ?_, fun hm h5 hq => ?_, fun hm h5 hq => ?_, fun hm h6 => ?_,
    fun hm h1 hs => ?_, fun hm h5 => ?_, fun hm h => ?_, fun h5 => ⟨fun hm => ?_, fun hm => ?_⟩, fun hm h7 => ?_, fun hm h => ?_⟩
  · simp only [List.mem_cons, List.not_mem_nil, or_false] at hi
    rcases hi with rfl | rfl | rfl | rfl | rfl
    · exact command_waits (o := execFreeze cid s) rfl rfl hm
    · exact command_waits (o := execThaw cid s) rfl rfl hm
    · exact command_waits (o := execKill cid s) rfl rfl hm
    · exact command_waits (o := execRetire cid s) rfl rfl hm
    · exact command_waits (o := execDump cid s) rfl rfl hm
  · refine (command_acts (o := execFreeze cid s) rfl rfl hm).trans (congrArg Host.Outcome.next (if_neg ?_))
    simp [hlive.2 ⟨h1, h4⟩]
  · have hl := hlive.2 ⟨h1, h4⟩
    refine ⟨_, (command_acts (o := execFreeze cid s) rfl rfl hm).trans (congrArg Host.Outcome.next (if_neg ?_)), ?_⟩
    · simp [hl]
    rw [freezeTree_alone hx hl hg ht]
    refine ⟨getX_modX hx, modX_mem .., fun hw => getReg_setResult ?_ 1⟩
    unfold modX
    rw [hx]
    exact hw
  · refine (command_acts (o := execThaw cid s) rfl rfl hm).trans (congrArg Host.Outcome.next (if_neg ?_))
    simp [hst, h5]
    simpa using hq
  · refine (command_acts (o := execThaw cid s) rfl rfl hm).trans (congrArg Host.Outcome.next (if_pos (Or.inr hq)))
  · refine (command_acts (o := execKill cid s) rfl rfl hm).trans (congrArg Host.Outcome.next ?_)
    simp only [hst, h6, if_true]
  · refine (command_acts (o := execRetire cid s) rfl rfl hm).trans (congrArg Host.Outcome.next (if_neg ?_))
    simp [hst, h1, hs]
  · refine ⟨_, (command_acts (o := execDump cid s) rfl rfl hm).trans (congrArg Host.Outcome.next (if_neg ?_)), ?_, ?_, ?_, ?_⟩
    · simp [hst, h5]
    · rfl
    · rfl
    · exact fun hw => getReg_setResult hw 1
    · rfl
  · refine (command_acts (o := execFreeze cid s) rfl rfl hm).trans (congrArg Host.Outcome.next (if_pos ?_))
    simp only [hst, liveSt, Bool.not_eq_true', Bool.and_eq_false_iff, decide_eq_false_iff_not]
    omega
  · refine (command_acts (o := execThaw cid s) rfl rfl hm).trans (congrArg Host.Outcome.next (if_pos (Or.inl ?_)))
    simpa [hst] using h5
  · refine (command_acts (o := execDump cid s) rfl rfl hm).trans (congrArg Host.Outcome.next (if_pos ?_))
    simpa [hst] using h5
  · refine (command_acts (o := execKill cid s) rfl rfl hm).trans (congrArg Host.Outcome.next ?_)
    simp only [hst]
    rw [if_neg (by omega)]
  · refine (command_acts (o := execRetire cid s) rfl rfl hm).trans (congrArg Host.Outcome.next (if_pos ?_))
    simpa [hst] using h

/-- Settles O42. -/
theorem contextControl : Obligations.ContextControl := ⟨contextBlocksRule, contextCommandsRule⟩

end Sys2Proof
end

section
/-! PROOFS. Dumps, slices, the lighthouse and gangs. -/
namespace Sys2Proof.Machine

section
variable {s u w : State} {cid : Nat} {rest : List Nat} {x : Ctx}

/-! ### Dumps (R382) -/

theorem modX_dumps (g : Ctx → Ctx) : (modX s cid g).dumps = s.dumps := (outside_modX s cid g).dumps

/-- The state in which the dump of a frozen context has started. -/
def dumpStarted (s : State) (cid : Nat) (rest : List Nat) : State :=
  { s with dumps := { s.dumps with queue := rest, cur := some cid, seq := s.dumps.seq + 1, started := s.time } }

theorem execDumpStart_frozen (hc : s.dumps.cur = none) (hb : s.boot.crashed = false) (hq : s.dumps.queue = cid :: rest)
    (hx : getX s cid = some x) (h5 : x.st = 5) :
    Machine.exec .dumpStart s = .next (due (modX (dumpStarted s cid rest) cid fun y => { y with st := 6 }) .dumpWritten) := by
  change execDumpStart s = _
  have hst : stOf s cid = some 5 := by rw [stOf_eq hx, h5]
  unfold execDumpStart
  simp only [hc, hb, hq, hst, Option.isSome_none, Bool.false_or, Bool.false_eq_true, if_false]
  rfl

theorem execDumpWritten_empty (hx : getX s cid = some x) (hc : s.dumps.cur = some cid) (hg : dumpGroups s cid = [])
    (hq : s.dumps.queue = [])
    (hu : u = postFree (putVirt (fun _ => .drop) 10 s 0 cid (blk x 704 64) (dumpHead s cid 0)).2.2 cid
      (mkRec { time := s.time, addr := blk x 704 64, aux := s.dumps.seq, type := 6 })) (hd : u.dumps = s.dumps) :
    Machine.exec .dumpWritten s = .next { modX u cid fun y => { y with st := 5 } with
      dumps := { s.dumps with cur := none, second := tdel s.dumps.second cid } } := by
  change execDumpWritten s = _
  have hp := outside_putVirt s (fun _ => .drop) 10 0 cid (blk x 704 64) (dumpHead s cid 0)
  unfold execDumpWritten
  simp only [hc, hx, hg, List.length_nil, dumpBody, hp.time, hp.dumps, ← hu, modX_dumps, hd, hq, List.isEmpty_nil, if_true]

/-! ### Slices (R374) and the lighthouse (R380) -/

theorem execSliceExpiry_due (hx : getX s cid = some x) (h3 : x.st = 3) (ht : x.sliceStart + sliceOf s x ≤ s.time)
    (hw : sliceWanted s cid = true) :
    Machine.exec (.sliceExpiry cid) s = .next (preemptCtx (modX (dropAfter s cid) cid fun y =>
      { y with after := (y.after ++
          ((cands s).filter fun c => c.cid != cid && c.prio == prioOf s cid && mayPlace s c).map Cand.cid).dedup }) cid) := by
  change execSliceExpiry cid s = _
  unfold execSliceExpiry
  simp only [hx]
  rw [if_pos ⟨h3, ht, hw⟩]

theorem execLighthouseFire_fires (hx : getX s cid = some x) (h3 : x.st = 3) (hb : s.boot.crashed = false) (hf : x.fired = false)
    (hw : windowOf s x ≤ x.silence) :
    Machine.exec (.lighthouseFire cid) s =
      .next (postFree (setX s cid { x with fired := true }) cid (mkRec { time := s.time, type := 5 })) := by
  change execLighthouseFire cid s = _
  unfold execLighthouseFire
  simp only [hx]
  rw [if_neg (by simp [h3, hb, hf, hw])]

theorem execLighthouseFire_quiet (hx : getX s cid = some x) (h : x.st ≠ 3 ∨ x.fired = true) :
    Machine.exec (.lighthouseFire cid) s = .next s := by
  change execLighthouseFire cid s = _
  unfold execLighthouseFire
  simp only [hx]
  rw [if_pos (by rcases h with h | h <;> simp [h])]

/-! ### Gangs (R376) -/

variable {gang src : Nat}

theorem takePacket_keeps {pa : Nat} (h : takePacket s pa = some w) : w.gangs = s.gangs ∧ w.modNo = s.modNo := by
  unfold takePacket at h
  obtain ⟨y, -, rfl⟩ := Option.map_eq_some_iff.1 h
  exact ⟨rfl, rfl⟩

theorem execGangSliceStart_places {t0 : Nat}
    (ht : (tget Gang.init s.gangs gang).start = some t0) (h0 : t0 ≤ s.time)
    (hf : (tget Gang.init s.gangs gang).first = true) (hc : ∀ e ∈ s.ctxs, e.2.st ≠ 3) :
    Machine.exec (.gangSliceStart gang) s = .next (gangCheck (placeAgain
      { s with gangs := tset Gang.init s.gangs gang { tget Gang.init s.gangs gang with first := false } }) gang) := by
  change execGangSliceStart gang s = _
  have hv (q : Nat × Ctx → Bool) : s.ctxs.filter (fun e => e.2.st == 3 && q e) = [] := by
    refine List.filter_eq_nil_iff.2 fun e he => ?_
    simp [hc e he]
  unfold execGangSliceStart
  simp only [ht, hf, Bool.not_true, Bool.false_eq_true, or_false, Bool.and_assoc, hv, List.map_nil, List.foldl_nil]
  rw [if_neg (by omega)]

theorem execGangStartPacket_noted (h : takePacket s 0 = some w) (hm : src ≠ s.modNo)
    (hp : src ∉ (tget Gang.init s.gangs gang).packets) :
    Machine.exec (.gangStartPacket gang src) s = .next { w with
      gangs := tset Gang.init w.gangs gang
        { tget Gang.init s.gangs gang with packets := (tget Gang.init s.gangs gang).packets ++ [src] } } := by
  change execGangStartPacket gang src s = _
  unfold execGangStartPacket
  simp only [h, (takePacket_keeps h).2]
  rw [if_neg (by simp [hm, hp])]

theorem execGangStartPacket_known (h : takePacket s 0 = some w) (hp : src ∈ (tget Gang.init s.gangs gang).packets) :
    Machine.exec (.gangStartPacket gang src) s = .next w := by
  change execGangStartPacket gang src s = _
  unfold execGangStartPacket
  simp only [h]
  rw [if_pos (by simp [hp])]

/-- Every module of the gang has sent its packet, or one is late. -/
theorem all_sent_iff (member sent : Nat → Bool) (l : List Nat) :
    (l.all fun m => !member m || sent m) = !l.any fun m => member m && !sent m := by
  rw [List.not_any_eq_all_not]
  exact congrArg (l.all ·) (funext fun m => by cases member m <;> cases sent m <;> rfl)

end

end Sys2Proof.Machine

namespace Sys2Proof
open Machine

/-- The first part of O43. -/
theorem contextEventsRule : Claim.ContextEventsRule := by
  unfold Claim.ContextEventsRule
  intro s cid rest x hx
  refine ⟨fun hc hb hq h5 => ?_, ?_,
    fun h3 ht hw => execSliceExpiry_due hx h3 ht hw, fun h3 hb hf hw => execLighthouseFire_fires hx h3 hb hf hw,
    fun h => execLighthouseFire_quiet hx h⟩
  case refine_2 =>
    intro hc hg hq u hd
    exact execDumpWritten_empty hx hc hg hq rfl hd
  refine ⟨_, execDumpStart_frozen hc hb hq hx h5, getX_modX (s := dumpStarted s cid rest) hx, modX_mem .., ?_, ?_, ?_, ?_, ?_⟩
  · exact congrArg Dumps.cur (modX_dumps (s := dumpStarted s cid rest) _)
  · exact congrArg Dumps.queue (modX_dumps (s := dumpStarted s cid rest) _)
  · exact congrArg Dumps.seq (modX_dumps (s := dumpStarted s cid rest) _)
  · exact congrArg Dumps.started (modX_dumps (s := dumpStarted s cid rest) _)
  · unfold modX
    split <;> rfl

/-- The second part of O43. -/
theorem gangEventsRule : Claim.GangEventsRule := by
  unfold Claim.GangEventsRule
  intro s gang src v t0 g
  refine ⟨fun h => ?_, fun e he hg hw => ?_, fun ht h0 hf hc => execGangSliceStart_places ht h0 hf hc, fun w h hm hp hw => ?_,
    fun w h hp => execGangStartPacket_known h hp, ?_, fun h => ?_, ?_⟩
  · change execGangStartWrite v s = _
    have hn : (s.ctxs.filterMap fun e => gangOf e.2) = [] := List.filterMap_eq_nil_iff.2 h
    unfold execGangStartWrite
    simp only [hn, List.dedup_nil, List.foldl_nil]
  · have hi : (s.ctxs.filterMap fun e => gangOf e.2).dedup = [gang] := by simp [he, hg]
    refine ⟨_, rfl, ?_⟩
    simp only [hi, List.foldl_cons, List.foldl_nil]
    exact ⟨tget_tset_self _ _ hw, rfl, rfl⟩
  · refine ⟨_, execGangStartPacket_noted h hm hp, rfl, ?_⟩
    exact tget_tset_self _ _ ((takePacket_keeps h).1 ▸ hw)
  · intro ht h0 late mine gs u
    change execGangAbandon gang s = _
    unfold execGangAbandon
    simp only [show (tget Gang.init s.gangs gang).start = some t0 from ht]
    have hs : (s.time < t0 + 50000 ∨ (List.range 512).all (fun m => !Config.gangMember gang m ||
        if m = s.modNo then g.placed else g.packets.contains m) = true) ↔ ¬ (List.range 512).any late = true := by
      have hl : (fun m => Config.gangMember gang m && !(if m = s.modNo then g.placed else g.packets.contains m)) = late := by
        funext m
        exact congrArg (Config.gangMember gang m && ·) (apply_ite (!·) (m = s.modNo) g.placed (g.packets.contains m))
      rw [all_sent_iff, hl, Bool.not_eq_true', Bool.not_eq_true, or_iff_right (by omega)]
    by_cases hl : (List.range 512).any late = true
    · rw [if_pos hl, if_neg fun h => hs.1 h hl]
      rfl
    · rw [if_neg hl, if_pos (hs.2 hl)]
  · change execGangAbandon gang s = _
    unfold execGangAbandon
    rcases h with h | ⟨k, h, hk⟩
    · simp only [show (tget Gang.init s.gangs gang).start = none from h]
    · simp only [show (tget Gang.init s.gangs gang).start = some k from h]
      rw [if_pos (Or.inl hk)]
  · intro gid p f x hx hst hp hf hc ho open_ u hy
    unfold abandonGroup
    simp only [hp, List.foldl_cons, List.foldl_nil, hf, hc, ho, Option.isSome_none, Bool.false_or]
    have hu : modF (if spanClean f = true then s else rollback s p) p (fun f => { f with stop := true }) = u := by
      change _ = modF (if (!spanClean f) = true then rollback s p else s) p _
      cases spanClean f <;> rfl
    rw [hu, if_neg (by simp [hy])]

/-- Settles O43. -/
theorem contextsOverTime : Obligations.ContextsOverTime := ⟨contextEventsRule, gangEventsRule⟩

end Sys2Proof
end

section
/-! PROOFS. Heartbeats, crashes and the boot. -/
namespace Sys2Proof.Machine

/-! ### What leaves the boot's own registers alone -/

section
variable (s : State)

theorem foldl_boot {α : Type} (l : List α) {g : State → α → State} (hg : ∀ t a, (g t a).boot = t.boot) : (l.foldl g s).boot = s.boot := by
  induction l generalizing s with
  | nil => rfl
  | cons a l ih => exact (ih _).trans (hg s a)

theorem modX_boot (cid : Nat) (g : Ctx → Ctx) : (modX s cid g).boot = s.boot := by
  unfold modX
  split <;> rfl

theorem modF_boot (p : Place) (g : Fibre → Fibre) : (modF s p g).boot = s.boot := by
  unfold modF
  split <;> rfl

theorem readyNow_boot (p : Place) : (readyNow s p).boot = s.boot := modF_boot s p _

theorem wakeWait_boot (p : Place) (d : Wait → Bool) : (wakeWait s p d).boot = s.boot :=
  (modF_boot _ p _).trans (modF_boot s p _)

theorem unpark_boot (gid : Nat) : (unpark s gid).boot = s.boot := foldl_boot s _ fun t p => wakeWait_boot t p _

theorem latchStops_boot (gid : Nat) : (latchStops s gid).boot = s.boot := foldl_boot s _ fun t p => modF_boot t p _

theorem freezeCtx_boot (froot cid : Nat) : (freezeCtx froot s cid).boot = s.boot := by
  unfold freezeCtx
  extract_lets t
  exact (foldl_boot t _ fun u (e : Nat × Group) => (latchStops_boot _ _).trans (unpark_boot u e.1)).trans (modX_boot s cid _)

theorem freezeAll_boot : (freezeAll s).boot = s.boot := foldl_boot s _ fun t c => freezeCtx_boot t _ c

theorem kernelDown_boot : (kernelDown s).boot = { s.boot with crashed := true, stage := 1 } := by
  have h := freezeAll_boot s
  unfold kernelDown
  generalize freezeAll s = t at h ⊢
  rw [← h]

/-- With no context there is nothing to freeze. -/
theorem freezeAll_none (h : s.ctxs = []) : freezeAll s = s := by
  unfold freezeAll
  rw [h]
  rfl

/-- A context alone, with no group: it is frozen, and that is all. -/
theorem freezeAll_alone {cid : Nat} {x : Ctx} (h : s.ctxs = [(cid, x)]) (hg : s.groups = []) (h1 : 1 ≤ x.st) (h4 : x.st ≤ 4) :
    freezeAll s = setX s cid { x with st := 5, prev := x.st, froot := rootCtx s cid } := by
  have hx : getX s cid = some x := by
    unfold getX
    rw [h]
    simp [tfind]
  unfold freezeAll
  rw [h, List.filter_cons_of_pos (by simp [h1, h4])]
  simp only [List.filter_nil, List.map_cons, List.map_nil, List.foldl_cons, List.foldl_nil, freezeCtx, modX, hx, setX, hg]

theorem releaseDies_boot : (releaseDies s).boot = { s.boot with stage := 7, lcBusy := false } := by
  unfold releaseDies
  extract_lets freq t
  have ht : t.boot = s.boot := foldl_boot s _ fun u d => by
    split <;> rfl
  exact congrArg (fun b : Boot => { b with stage := 7, lcBusy := false }) ht

end

section
variable {s : State}

/-! ### What a kill does to the dumps (R372, R382) -/

theorem foldl_dumps {α : Type} (l : List α) {g : State → α → State} (hg : ∀ t a, (g t a).dumps = t.dumps) (s : State) :
    (l.foldl g s).dumps = s.dumps := by
  induction l generalizing s with
  | nil => rfl
  | cons a l ih => exact (ih _).trans (hg s a)

theorem dumps_ite {c : Prop} [Decidable c] {a b : State} {d : Dumps} (ha : a.dumps = d) (hb : b.dumps = d) :
    (if c then a else b).dumps = d := by
  split
  · exact ha
  · exact hb

theorem wakeLine_dumps (s : State) (line : Nat) : (wakeLine s line).dumps = s.dumps :=
  foldl_dumps _ (fun t r => show (wake t r).dumps = t.dumps from rfl) s

theorem homeAtomicOp_dumps (s : State) (pa clk major : Nat) (t : Ty) (lane : Nat) (pc : DWord) (b c : Nat) :
    (homeAtomicOp s pa clk major t lane pc b c).2.dumps = s.dumps := by
  have hc : (collect (crossLine s (lineNo pa)) (lineNo pa)).dumps = s.dumps :=
    (outside_collect _ _).dumps.trans (outside_cross s _).dumps
  unfold homeAtomicOp
  extract_lets line u n old
  have hu : u.dumps = s.dumps := hc
  split
  · exact hu
  · split
    · exact hu
    · exact (outside_homeWrite u _ _ _ _).dumps.trans hu

theorem doneAdd_dumps (s : State) (core cid addr clk inst : Nat) : (doneAdd s core cid addr clk inst).2.dumps = s.dumps := by
  unfold doneAdd
  extract_lets q a
  have ha : a.2.2.dumps = s.dumps := (outside_accessNow s _ _ _ _).dumps
  split
  · exact ha
  · split
    · exact ha
    · split
      · exact (wakeLine_dumps _ _).trans ((homeAtomicOp_dumps _ _ _ _ _ _ _ _ _).trans ((outside_recallNow _ _).dumps.trans ha))
      · exact (outside_sendReq _ _ _ _ _ _ _ _ _).dumps.trans ha

theorem postFree_dumps (s : State) (cid : Nat) (r : Record) : (postFree s cid r).dumps = s.dumps :=
  dumps_ite (outside_postNow s _ _ _).dumps (modX_dumps _)

theorem endRecs_dumps (s : State) (run : Option Nat) (n : Nat) : (endRecs s run n).dumps = s.dumps := by
  unfold endRecs
  split <;> rfl

theorem tellTasks_dumps (s : State) : (tellTasks s).dumps = s.dumps :=
  foldl_dumps _ (by
    intros
    exact dumps_ite rfl rfl) s

theorem endInst_dumps (s : State) (id : Nat) (i : Inst) (core : Nat) : (endInst s id i core).dumps = s.dumps := by
  unfold endInst
  extract_lets t u r v w
  have hu : u.dumps = s.dumps := tellTasks_dumps t
  have hr : r.2.dumps = s.dumps := (doneAdd_dumps u _ _ _ _ _).trans hu
  have hv : v.dumps = s.dumps := dumps_ite hu (dumps_ite hr ((postFree_dumps _ _ _).trans hr))
  have hw : w.dumps = s.dumps := (endRecs_dumps v _ _).trans hv
  exact dumps_ite hw ((modX_dumps _).trans hw)

theorem clearBerths_dumps (s : State) (core : Nat) (berths : List Nat) : (clearBerths s core berths).dumps = s.dumps :=
  foldl_dumps _ (fun t b => show (setB t core b Berth.init).dumps = t.dumps from rfl) _

theorem killGroup_dumps (s : State) (gid : Nat) : (killGroup s gid).dumps = s.dumps := by
  unfold killGroup
  split
  · rfl
  · extract_lets ps t u v
    have ht : t.dumps = s.dumps := foldl_dumps _ (fun t p => show (orphan t p).dumps = t.dumps from rfl) s
    exact dumps_ite (c := _) ht ((clearBerths_dumps t _ _).trans ht)

theorem closeQueues_dumps (s : State) (cid : Nat) : (closeQueues s cid).dumps = s.dumps :=
  foldl_dumps _ (fun t _ => foldl_dumps _ (fun t _ => foldl_dumps _ (fun t _ => endRecs_dumps t _ _) t) t) s

theorem sendPeers_dumps (s : State) : (sendPeers s).dumps = s.dumps := foldl_dumps _ (fun t _ => (outside_sendPacket t _ _).dumps) s

theorem placeAgain_dumps (s : State) : (placeAgain s).dumps = s.dumps :=
  foldl_dumps _ (fun t (c : Cand) => show (due t (.groupPlace c.key)).dumps = t.dumps from rfl) s

theorem ctxGone_dumps (s : State) (cid : Nat) : (ctxGone s cid).dumps = s.dumps := dumps_ite rfl rfl

/-- With no dump queued, a kill leaves none queued. -/
theorem killCtx_queue {cid : Nat} (h : s.dumps.queue = []) : (killCtx s cid).dumps.queue = [] := by
  unfold killCtx
  extract_lets s1 s2 s3 s4 d s5 s6
  have h2 : s2.dumps = s.dumps := foldl_dumps _ (fun t e => killGroup_dumps t _) s1
  have h3 : s3.dumps = s2.dumps := foldl_dumps _ (fun t e => endInst_dumps t _ _ _) s2
  have h4 : s4.dumps = s3.dumps := (sendPeers_dumps _).trans (closeQueues_dumps s3 _)
  have h5 : s5.dumps.queue = [] := by
    have hq : s5.dumps.queue = s4.dumps.queue.filter (· != cid) := by
      unfold s5
      clear_value s4
      rfl
    rw [hq, h4, h3, h2, h, List.filter_nil]
  have h6 : s6.dumps = s5.dumps := dumps_ite (dumps_ite rfl rfl) rfl
  rw [placeAgain_dumps, ctxGone_dumps, modX_dumps, h6, h5]

/-! ### Heartbeats (R384) -/

theorem execHeartbeatWrite_running (v : DWord) (hc : s.boot.crashed = false) (h5 : 5 ≤ s.boot.stage) :
    Machine.exec (.heartbeatWrite v) s = .next
      (if s.boot.stage = 5 ∧ linksDown s = true then releaseDies { setReg s beatReg v with boot := { s.boot with lastBeat := some s.time } }
       else { setReg s beatReg v with boot := { s.boot with lastBeat := some s.time } }) := by
  have e : ∃ a, a = beatReg ∧ Machine.exec (.heartbeatWrite v) s = execHeartbeatWrite v s := ⟨_, rfl, rfl⟩
  obtain ⟨a, ha, e⟩ := e
  rw [e]
  unfold execHeartbeatWrite
  rw [← ha]
  refine congrArg Host.Outcome.next ((if_neg ?_).trans rfl)
  simp only [Bool.or_eq_true, decide_eq_true_eq, not_or, not_lt]
  exact ⟨by rw [show (setReg s a v).boot = s.boot from rfl, hc]; exact Bool.false_ne_true, h5⟩

theorem crash_eq (h5 : 5 ≤ s.boot.stage) : crash s = { kernelDown s with boot := { s.boot with
    crashed := true, stage := 1, bfail := s.boot.bfail || s.boot.lastBeat.isNone, warm := s.boot.stage == 7
    wcount := if s.boot.lastBeat.isSome || s.boot.stage == 7 then s.boot.wcount + 1 else s.boot.wcount } } := by
  unfold crash
  rw [if_neg (by omega)]
  simp only [kernelDown_boot]

/-! ### Images, reboots, quotes and the life cycle (R431 to R435) -/

theorem lcNext_iff (a b : BitVec 2) : lcNext a b = true ↔ (a, b) = (0, 1) ∨ (a, b) = (1, 2) ∨ (a, b) = (2, 3) ∨ (a, b) = (3, 1) := by
  revert a b
  decide

theorem length_bytesOf (n v : Nat) : (bytesOf n v).length = n := by
  unfold bytesOf
  rw [List.length_map, List.length_range]

/-- A quote is 2,532 bytes, and begins with the nonce, the measurement, the version and the life-cycle state. -/
theorem quoteBytes_shape (nonce meas ver lcs q : Nat) :
    (bytesOf 32 nonce ++ bytesOf 32 meas ++ bytesOf 4 ver ++ bytesOf 1 lcs ++ bytesOf 43 0 ++ bytesOf 2420 q).length = 2532 ∧
      (bytesOf 32 nonce ++ bytesOf 32 meas ++ bytesOf 4 ver ++ bytesOf 1 lcs ++ bytesOf 43 0 ++ bytesOf 2420 q).take 69 =
        bytesOf 32 nonce ++ bytesOf 32 meas ++ bytesOf 4 ver ++ bytesOf 1 lcs := by
  refine ⟨by simp only [List.length_append, length_bytesOf], ?_⟩
  rw [List.append_assoc]
  exact List.take_left' (by simp only [List.length_append, length_bytesOf])

end

end Sys2Proof.Machine

namespace Sys2Proof
open Machine

/-- Settles O44. -/
theorem heartbeats : Obligations.Heartbeats := by
  unfold Obligations.Heartbeats
  intro s v
  refine ⟨fun hc h5 h => ?_, fun hc h5 hl => ?_, fun h5 ht => ?_, fun ht => ?_, fun h5 => ?_⟩
  · rw [execHeartbeatWrite_running v hc h5, if_neg]
    rintro ⟨h', hl⟩
    rcases h with hn | hn
    · exact hn h'
    · rw [hl] at hn
      exact Bool.false_ne_true hn.symm
  · refine ⟨_, (execHeartbeatWrite_running v hc (by omega)).trans (by rw [if_pos ⟨h5, hl⟩]), ?_, ?_, ?_⟩
    · rw [releaseDies_boot]
    · rw [releaseDies_boot]
    · rw [releaseDies_mem]
      rfl
  · change execHeartbeatMiss s = execControlCoreException s
    unfold execHeartbeatMiss
    rw [if_pos ⟨h5, ht⟩]
    rfl
  · change execHeartbeatMiss s = _
    unfold execHeartbeatMiss
    rw [if_neg (by omega)]
  · refine ⟨_, (show Machine.exec .controlCoreException s = .next (crash s) from rfl).trans (congrArg _ (crash_eq h5)), rfl, ?_, ?_, rfl⟩
    · intro h
      have hk : (kernelDown s).ctxs = s.ctxs ∧ (kernelDown s).mem = s.mem ∧ (kernelDown s).regs = s.regs := by
        unfold kernelDown
        rw [freezeAll_none s h]
        exact ⟨rfl, rfl, rfl⟩
      obtain ⟨hx, hm, hr⟩ := hk
      exact ⟨hx.trans h, hm, hr⟩
    · intro cid x h hg h1 h4
      have hk : getX (kernelDown s) cid = some { x with st := 5, prev := x.st, froot := rootCtx s cid } := by
        unfold kernelDown
        rw [freezeAll_alone s h hg h1 h4]
        exact tfind_tput_self _ _ _
      exact hk

/-- Settles O48. -/
theorem bootEvents : Obligations.BootEvents := by
  unfold Obligations.BootEvents
  intro s img ver nonce target sig
  refine ⟨⟨_, rfl, rfl, rfl, rfl, rfl, rfl, rfl, rfl, rfl, rfl, rfl, rfl⟩, ?_, ?_, ?_, ?_, ?_, ?_, ?_, ?_, ?_⟩
  · intro h
    change execFirmwareImageReceive img ver s = _
    unfold execFirmwareImageReceive
    extract_lets dig b
    rcases h with h | h
    · rw [if_pos (Or.inr (Or.inr h))]
    · rw [if_pos h, ite_self]
  · intro h1 h2 hv hf dig
    change execFirmwareImageReceive img ver s = _
    unfold execFirmwareImageReceive
    extract_lets b
    have hs : ¬ (s.boot.stage = 0 ∨ 2 < s.boot.stage ∨ ver ≠ Config.imageVersion img) := by
      rintro (h | h | h)
      · omega
      · omega
      · exact h hv
    have ho : imageOk img = Config.sigOk 0 (bytesOf 32 dig.toNat) img := rfl
    rw [if_neg hs, hf, if_neg Bool.false_ne_true, ho]
    cases Config.sigOk 0 (bytesOf 32 dig.toNat) img with
    | false => rfl
    | true =>
      cases hw : s.boot.warm with
      | false =>
        simp only [b, Bool.not_true, Bool.false_eq_true, if_false, if_true]
        rfl
      | true =>
        simp only [b, Bool.not_true, Bool.false_eq_true, if_false, if_true]
        rfl
  · intro hx hd
    unfold adopt
    simp only [hx, hd, List.filter_nil, List.map_nil, List.foldl_nil, List.isEmpty_nil, if_true]
  · intro cid x hx hr hd
    unfold adopt
    have hk : (s.ctxs.filter fun e => regDamaged e.2) = [(cid, x)] := by
      rw [hx, List.filter_cons_of_pos (by exact hr), List.filter_nil]
    simp only [hk, List.map_cons, List.map_nil, List.foldl_cons, List.foldl_nil, killCtx_queue hd, List.isEmpty_nil, if_true]
  · intro h5
    have e : Machine.exec (.warmRebootRequest .controlCore) s = .next { kernelDown s with boot := { (kernelDown s).boot with
        wreq := true, wcount := (kernelDown s).boot.wcount + 1, warm := s.boot.stage == 7 } } := by
      change execWarmRebootRequest .controlCore s = _
      unfold execWarmRebootRequest
      rw [if_neg (by simp [h5])]
    rw [kernelDown_boot] at e
    exact ⟨_, e, rfl, rfl⟩
  · change execWarmRebootRequest .host s = _
    unfold execWarmRebootRequest
    rw [if_pos (Or.inl rfl)]
  · refine ⟨_, rfl, rfl, fun h => if_pos h, fun h => ?_⟩
    have e : (s.boot.lcs = 0) = False := eq_false h
    simp only [e, if_false]
    exact quoteBytes_shape _ _ _ _ _
  · intro hb hs
    change execLifecycleTransition target sig s = _
    unfold execLifecycleTransition
    rw [if_pos (by simp [hb, hs])]
  · intro hb
    have e : Machine.exec (.lifecycleTransition target sig) s = .next
        (if lcNext s.boot.lcs target = true ∧ Config.sigOk 1 (bytesOf 1 target.toNat) sig = true then
          reboot s target (if target = 1 then s.boot.keyNo + 1 else s.boot.keyNo) true else s) := by
      change execLifecycleTransition target sig s = _
      unfold execLifecycleTransition
      cases lcNext s.boot.lcs target <;> cases Config.sigOk 1 (bytesOf 1 target.toNat) sig <;> simp [hb]
    refine ⟨_, e, ?_⟩
    by_cases h : lcNext s.boot.lcs target = true ∧ Config.sigOk 1 (bytesOf 1 target.toNat) sig = true
    · rw [if_pos h, if_pos ⟨h.2, (lcNext_iff _ _).1 h.1⟩]
      refine ⟨rfl, rfl, ?_, rfl, rfl, rfl⟩
      change (if target = 1 then s.boot.keyNo + 1 else s.boot.keyNo) = _
      split <;> rfl
    · rw [if_neg h, if_neg fun k => h ⟨(lcNext_iff _ _).2 k.2, k.1⟩]

end Sys2Proof
end

section
/-! PROOFS. Links and their flits. -/
namespace Sys2Proof.Machine

section
variable {s : State} {n k peer seq dst pa : Nat} {l : Link}

theorem linkUp_iff (l : Link) : linkUp l = true ↔ l.st = 2 ∨ l.st = 3 := by
  unfold linkUp
  simp

/-! ### The state of a link (R404) -/

theorem execLinkTrained_up (h : (getL s n).st = 1) (hk : k = 8 ∨ k = 4 ∨ k = 2) (ht : s.time ≤ (getL s n).since + 100000000) :
    Machine.exec (.linkTrained n k peer) s = .next (pumpAll { setL s n (pumpTx
      { getL s n with st := if k = 8 then 2 else 3, width := k, peer := peer % 512 }) with unreach := [] }) := by
  change execLinkTrained n k peer s = _
  unfold execLinkTrained trainLimit
  extract_lets l
  have hn : ¬ (k < 2 ∨ l.since + 100000000 < s.time) := not_or.2 ⟨by omega, not_lt.2 ht⟩
  rw [if_neg (not_not.2 h), if_neg hn, if_pos hk]

theorem execLinkTrained_down (h : (getL s n).st = 1) (hk : k < 2 ∨ (getL s n).since + 100000000 < s.time) :
    Machine.exec (.linkTrained n k peer) s = .next (dropLink s n 4) := by
  change execLinkTrained n k peer s = _
  unfold execLinkTrained trainLimit
  extract_lets l
  rw [if_neg (not_not.2 h), if_pos hk]

theorem execLinkLaneFail_down (h : linkUp (getL s n) = true) (hk : k < 2) :
    Machine.exec (.linkLaneFail n k) s = .next (dropLink s n 4) := by
  change execLinkLaneFail n k s = _
  unfold execLinkLaneFail
  simp only [h, Bool.not_true, Bool.false_eq_true, if_false, if_pos hk]

theorem execLinkLaneFail_narrow (h : linkUp (getL s n) = true) (hk : 2 ≤ k) (hw : k < (getL s n).width) :
    Machine.exec (.linkLaneFail n k) s =
      .next (resendAll s n { getL s n with st := 3, width := min (getL s n).width (if 4 ≤ k then 4 else 2) }) := by
  change execLinkLaneFail n k s = _
  unfold execLinkLaneFail
  simp only [h, Bool.not_true, Bool.false_eq_true, if_false]
  rw [if_neg (by omega), if_neg (by omega)]

/-- What is in flight is sent again: none of it for the sixteenth time. -/
theorem resendAll_counts (h : ∀ f ∈ l.replay, f.resends < 15) : resendAll s n l = setL s n { l with
    replay := l.replay.map (fun (f : Flit) => ({ f with resends := f.resends + 1 } : Flit)), resent := l.resent + l.replay.length } := by
  unfold resendAll
  refine if_neg ?_
  rw [List.any_map, Bool.not_eq_true, List.any_eq_false]
  intro f hf
  have := h f hf
  simp only [Function.comp_apply, decide_eq_true_eq]
  omega

/-- What is in flight is sent again, one flit for the sixteenth time: the link goes down. -/
theorem resendAll_drops (h : ∃ f ∈ l.replay, 15 ≤ f.resends) : resendAll s n l = dropLink (setL s n { l with
    replay := l.replay.map (fun (f : Flit) => ({ f with resends := f.resends + 1 } : Flit)), resent := l.resent + l.replay.length }) n 4 := by
  unfold resendAll
  refine if_pos ?_
  obtain ⟨f, hf, h15⟩ := h
  rw [List.any_map, List.any_eq_true]
  refine ⟨f, hf, ?_⟩
  simp only [Function.comp_apply, decide_eq_true_eq]
  omega

theorem execLinkStatusRead_eq (h : n < 36) : Machine.exec (.linkStatusRead n) s =
    .next { s with links := tset Link.init s.links n { getL s n with resent := 0 } } := by
  have e : ∃ a, a = 0x010000000000 + (0x620000 + 0x40 * n) ∧ Machine.exec (.linkStatusRead n) s = .next (regRead s a 8).2 :=
    ⟨0x010000620000 + 0x40 * n, by omega, rfl⟩
  obtain ⟨a, ha, e⟩ := e
  have hm : (2 ^ 64 - 1) / 2 ^ 48 ≠ 0 := by decide
  rw [e, regRead_eight s (by omega), regClear_linkStat s (regAt_linkStat ha h) hm]
  rfl

/-! ### Flits (R402, R403, R406, R408) -/

theorem execFlitReceive_taken (h : linkUp (getL s n) = true) (hs : seq = (getL s n).rxSeq) (hl : (getL s n).rxq.length < 128) :
    Machine.exec (.flitReceive n seq true dst pa) s = .next
      (if dst = s.modNo then { setL s n { getL s n with rxSeq := (getL s n).rxSeq + 1 } with inbox := s.inbox ++ [pa] }
       else noteRx (pumpRx 128 (setL s n { getL s n with
         rxSeq := (getL s n).rxSeq + 1, rxq := (getL s n).rxq ++ [(dst, pa)] }) n) n) := by
  change execFlitReceive n seq true dst pa s = _
  unfold execFlitReceive
  refine congrArg Host.Outcome.next (if_neg ?_)
  simp [h, hs, hl]

theorem execFlitReceive_refused {ok : Bool} (h : ok = false ∨ seq ≠ (getL s n).rxSeq) :
    Machine.exec (.flitReceive n seq ok dst pa) s = .next s := by
  change execFlitReceive n seq ok dst pa s = _
  unfold execFlitReceive
  refine congrArg Host.Outcome.next (if_pos ?_)
  rcases h with h | h <;> simp [h]

theorem execFlitResendTimeout_eq (h : linkUp (getL s n) = true) (hr : (getL s n).replay ≠ []) :
    Machine.exec (.flitResendTimeout n) s = .next (resendAll s n (getL s n)) := by
  change execFlitResendTimeout n s = _
  unfold execFlitResendTimeout
  refine congrArg Host.Outcome.next (if_neg ?_)
  simp [h, hr]

theorem lowNeighbour_iff : lowNeighbour s n = true ↔
    n < 36 ∧ linkUp (getL s n) = true ∧ ∀ j, j < 36 → linkUp (getL s j) = true → (getL s n).peer ≤ (getL s j).peer := by
  unfold lowNeighbour
  simp only [Bool.and_eq_true, decide_eq_true_eq, List.all_eq_true, List.mem_range, Bool.or_eq_true, Bool.not_eq_true', and_assoc,
    ← imp_iff_not_or, ← Bool.not_eq_true]

end

end Sys2Proof.Machine

namespace Sys2Proof
open Machine

/-- The first part of O45. -/
theorem linkStatesRule : Claim.LinkStatesRule := by
  unfold Claim.LinkStatesRule
  intro s n k peer l down
  have hd (st : Nat) : dropLink s n st = down st := rfl
  refine ⟨fun hn h => congrArg Host.Outcome.next (if_pos ⟨hn, h⟩), fun hn h => congrArg Host.Outcome.next (if_neg ?_),
    fun hn h => congrArg Host.Outcome.next (if_pos ⟨hn, h⟩), fun hn h => congrArg Host.Outcome.next (if_neg fun k => k.2 h),
    fun h hk ht => execLinkTrained_up h hk ht, fun h hk => execLinkTrained_down h hk,
    fun h ht => congrArg Host.Outcome.next (if_pos ⟨h, ht⟩), fun h hk => execLinkLaneFail_down ((linkUp_iff _).2 h) hk, ?_, ?_⟩
  · rintro ⟨-, h'⟩
    change l.st = 0 ∨ l.st = 3 ∨ l.st = 4 at h'
    omega
  · intro h hk hw t
    have e := execLinkLaneFail_narrow ((linkUp_iff _).2 h) hk hw
    refine ⟨fun hf => e.trans ?_, fun hf => e.trans ?_⟩
    · exact congrArg _ (resendAll_counts hf)
    · exact congrArg _ (resendAll_drops hf)
  · intro hn hw
    exact ⟨_, execLinkStatusRead_eq hn, rfl, tget_tset_self _ _ hw, fun j hj => tget_tset_ne _ _ _ hj⟩

/-- The second part of O45. -/
theorem linkFlitsRule : Claim.LinkFlitsRule := by
  unfold Claim.LinkFlitsRule
  intro s n seq dst pa ok v l
  refine ⟨fun h => ?_, rfl⟩
  have hu := (linkUp_iff _).2 h
  refine ⟨fun ho hs hl hd => ?_, fun ho hs hl hd => ?_, fun h => execFlitReceive_refused h, fun hr => ?_,
    congrArg Host.Outcome.next (if_pos hu), congrArg Host.Outcome.next (if_pos hu), fun hs hn hp => ?_⟩
  · subst ho
    rw [execFlitReceive_taken hu hs hl, if_pos hd]
  · subst ho
    rw [execFlitReceive_taken hu hs hl, if_neg hd]
  · have e := execFlitResendTimeout_eq hu hr
    intro t
    refine ⟨fun hf => e.trans ?_, fun hf => e.trans ?_⟩
    · exact congrArg _ (resendAll_counts hf)
    · exact congrArg _ (resendAll_drops hf)
  · exact congrArg Host.Outcome.next (if_pos ⟨hs, lowNeighbour_iff.2 ⟨hn, hu, hp⟩⟩)

/-- Settles O45. -/
theorem links : Obligations.Links := ⟨linkStatesRule, linkFlitsRule⟩

end Sys2Proof
end

section
/-! PROOFS. Walks and collectives. -/
namespace Sys2Proof.Machine

section
variable {s : State} {die : Nat} {k w : Walk} {ks ws : List Walk}

/-! ### Walks (R397, R398) -/

theorem execWalkDispatch_alone (hq : (getD s die).missq = k :: ks)
    (h : ∀ w ∈ (getD s die).walks, w.cid = k.cid → w.vpn = k.vpn → 256 ≤ w.misses.length) :
    Machine.exec (.walkDispatch die) s = .next
      (if 64 ≤ (getD s die).walks.length then s
       else
         let t := due (setD s die { getD s die with walks := (getD s die).walks ++ [k], missq := ks })
           (.walkComplete die (getD s die).walks.length)
         if ks.isEmpty then t else due t (.walkDispatch die)) := by
  change execWalkDispatch die s = _
  have hn : ((getD s die).walks.find? fun w => w.cid == k.cid && w.vpn == k.vpn && w.misses.length < 256) = none := by
    rw [List.find?_eq_none]
    intro w hw
    simp only [Bool.and_eq_true, beq_iff_eq, decide_eq_true_eq]
    rintro ⟨⟨hc, hv⟩, hl⟩
    exact absurd (h w hw hc hv) (not_le.2 hl)
  unfold execWalkDispatch
  simp only [hq, hn]

theorem execWalkDispatch_joins (hq : (getD s die).missq = k :: ks) (hw : (getD s die).walks = w :: ws) (hc : w.cid = k.cid)
    (hv : w.vpn = k.vpn) (hl : w.misses.length < 256) :
    Machine.exec (.walkDispatch die) s = .next
      (let t := setD s die { getD s die with walks := { w with misses := w.misses ++ k.misses } :: ws, missq := ks }
       if ks.isEmpty then t else due t (.walkDispatch die)) := by
  change execWalkDispatch die s = _
  have hf : ((w :: ws).find? fun w => w.cid == k.cid && w.vpn == k.vpn && w.misses.length < 256) = some w :=
    List.find?_cons_of_pos (by simp [hc, hv, hl])
  unfold execWalkDispatch
  simp only [hq, hw, hf, swapFirst, BEq.rfl, if_true]

/-- The walk that is alone completes with the translation `x`, where reading it leaves the state `u`. -/
theorem execWalkComplete_alone {x : Xlat} {u : State} (hw : (getD s die).walks = [k])
    (hx : (if rootOf s k.cid % 2 = 0 ∨ 2 ^ 44 ≤ k.vpn then (({ vpn := k.vpn, cls := 4, level := 0, pte := 0 } : Xlat), s)
      else ({ vpn := k.vpn, cls := (walkNow s die k.cid k.vpn).1.cls, level := (walkNow s die k.cid k.vpn).1.level,
              pte := BitVec.ofNat 64 (walkNow s die k.cid k.vpn).1.pte }, (walkNow s die k.cid k.vpn).2)) = (x, u))
    (hu : (getD u die).walks = [k]) (hm : (getD u die).missq = []) :
    Machine.exec (.walkComplete die 0) s = .next (k.misses.foldl (fun t p => giveXlat t k.cid x p)
      (setD u die { getD u die with walks := [] })) := by
  change execWalkComplete die 0 s = _
  unfold execWalkComplete
  simp only [hw, walkAt, List.length_singleton, Nat.sub_self, Nat.min_self, List.getElem?_cons_zero, hx, hu, pick, BEq.rfl, if_true, hm,
    List.isEmpty_nil]

end

/-! ### Collectives (R410, R412 to R414) -/

section
variable {s : State} {id : Nat} {parts : List CollPart} {c : Cmd}

/-- The address at which a participant has abandoned the collective, where one has. -/
def collFailed (s : State) (c : Cmd) (parts : List CollPart) : Option Nat :=
  (parts.filter fun q => q.seq == c.seq && commHas s c.comm q.module && q.module != s.modNo).findSome? CollPart.fail

/-- Modules of the collective but for this one. -/
def collOthers (s : State) (c : Cmd) : List Nat := (commMembers s c.comm).filter (· != s.modNo)

/-- What becomes of a collective for which every other participant has called, where its source reads as `r`. -/
def collBegun (s : State) (c : Cmd) (id : Nat) (parts : List CollPart) (r : Got × Nat × State) : State :=
  match r.1 with
  | .wait => r.2.2
  | .fail _ => finishCmd r.2.2 id (some r.2.1)
  | .ok b =>
    let srcs := (commMembers s c.comm).map fun m =>
      if m = s.modNo then (m, (List.range c.nb).map fun i => natOf ((b.drop (4 * c.ty.regs * i)).take (4 * c.ty.regs)))
      else (m, ((parts.find? fun q => q.module == m).map fun q => q.elems.map BitVec.toNat).getD [])
    due (setCmd r.2.2 id fun d => { d with
      begun := true, res := collResult d srcs, clk := parts.foldl (fun k q => max k q.ctide) c.clk }) (.collComplete id)

section
variable (hf : s.cmds.find? (fun c => c.id == id && c.cls == .coll && c.of.isNone && !c.done) = some c)
include hf

theorem execCollStart_begun (hb : c.begun = true) : Machine.exec (.collStart id parts) s = .next (match collFailed s c parts with
    | some va => abandonColl s c va
    | none => s) := by
  change execCollStart id parts s = _
  unfold execCollStart
  simp only [hf, hb, if_true]
  rfl

theorem execCollStart_waits (hb : c.begun = false) (ht : collTurn s id = false) :
    Machine.exec (.collStart id parts) s = .next s := by
  change execCollStart id parts s = _
  unfold execCollStart
  simp only [hf, hb, ht, Bool.false_eq_true, if_false, Bool.not_false, if_true]

theorem execCollStart_cut (hb : c.begun = false) (ht : collTurn s id = true) (hc : collCut s c = true) :
    Machine.exec (.collStart id parts) s = .next (finishCmd s id (some 0)) := by
  change execCollStart id parts s = _
  unfold execCollStart
  simp only [hf, hb, ht, hc, Bool.false_eq_true, if_false, Bool.not_true, if_true]

/-- Each other participant has called once. -/
theorem execCollStart_called (hb : c.begun = false) (ht : collTurn s id = true) (hc : collCut s c = false)
    (hn : ∀ m ∈ collOthers s c, parts.countP (fun q => q.module == m) = 1) (hl : parts.length = (collOthers s c).length) :
    Machine.exec (.collStart id parts) s = .next
      (if (parts.any fun q => q.seq != c.seq) = true then s
       else if (parts.any fun q => !q.agrees) = true then finishCmd s id (some 0)
       else if (collFailed s c parts).isSome = true then finishCmd s id (collFailed s c parts)
       else collBegun s c id parts (collSource s c)) := by
  change execCollStart id parts s = _
  have ha : ((collOthers s c).all fun m => (parts.countP fun q => q.module == m) == 1) = true :=
    List.all_eq_true.2 fun m hm => beq_iff_eq.2 (hn m hm)
  unfold collOthers at ha hl
  unfold execCollStart
  simp only [hf, hb, ht, hc, ha, hl, Bool.false_eq_true, if_false, Bool.not_true, ne_eq, not_true_eq_false, decide_false, Bool.false_or]
  rfl

end

theorem any_ne_seq (h : ∀ q ∈ parts, q.seq = c.seq) : (parts.any fun q => q.seq != c.seq) = false :=
  List.any_eq_false.2 fun q hq => by simp [h q hq]

theorem any_not_agrees (h : ∀ q ∈ parts, q.agrees = true) : (parts.any fun q => !q.agrees) = false :=
  List.any_eq_false.2 fun q hq => by simp [h q hq]

theorem execCollComplete_eq (hf : s.cmds.find? (fun c => c.id == id && c.cls == .coll && c.begun && !c.done) = some c) :
    Machine.exec (.collComplete id) s = .next
      (if collCut s c = true then abandonColl s c 0
       else match c.res[c.pos]? with
        | none => finishCmd (raiseClock s c.core c.clk) id none
        | some v =>
          let w := engWrite s c (c.xa + 4 * c.ty.regs * c.pos) (bytesOf (4 * c.ty.regs) v)
          if w.1 ≠ 0 then abandonColl w.2 c (c.xa + 4 * c.ty.regs * c.pos)
          else
            let u := setCmd w.2 id fun d => { d with pos := d.pos + 1 }
            if c.pos + 1 < c.res.length then due u (.collComplete id) else finishCmd (raiseClock u c.core c.clk) id none) := by
  change execCollComplete id s = _
  unfold execCollComplete
  simp only [hf]
  rfl

end

theorem collCombine_add (a b : Word) : collCombine .add .i32 [a.toNat, b.toNat] = (a + b).toNat := by
  have h := wrapI_ofNat_add a b
  change wrapI 32 ((a.toNat : Int) + ((b.toNat : Int) + 0)) = _
  rwa [Int.add_zero]

theorem collCombine_min (a b : Word) : collCombine .min .i32 [a.toNat, b.toNat] = (if b.slt a then b else a).toNat := by
  change (if elemI .i32 0 b.toNat < elemI .i32 0 (if elemI .i32 0 a.toNat < elemI .i32 0 a.toNat then a.toNat else a.toNat) then b.toNat
    else (if elemI .i32 0 a.toNat < elemI .i32 0 a.toNat then a.toNat else a.toNat)) = _
  rw [ite_self, elemI_i32, elemI_i32, ← apply_ite BitVec.toNat]
  simp only [BitVec.slt, decide_eq_true_eq]

theorem collCombine_max (a b : Word) : collCombine .max .i32 [a.toNat, b.toNat] = (if a.slt b then b else a).toNat := by
  change (if elemI .i32 0 (if elemI .i32 0 a.toNat < elemI .i32 0 a.toNat then a.toNat else a.toNat) < elemI .i32 0 b.toNat then b.toNat
    else (if elemI .i32 0 a.toNat < elemI .i32 0 a.toNat then a.toNat else a.toNat)) = _
  rw [ite_self, elemI_i32, elemI_i32, ← apply_ite BitVec.toNat]
  simp only [BitVec.slt, decide_eq_true_eq]

end Sys2Proof.Machine

namespace Sys2Proof
open Machine

/-- The first part of O46. -/
theorem walkEventsRule : Claim.WalkEventsRule := by
  unfold Claim.WalkEventsRule
  intro s die k ks d again
  have ha (t : State) : again t = if ks.isEmpty then t else due t (.walkDispatch die) := by
    cases ks <;> rfl
  refine ⟨fun hq h => ⟨fun hl => ?_, fun hl => ?_⟩, fun w ws hq hw hc hv hl => ?_, ?_, fun hw hm hr => ?_⟩
  · rw [execWalkDispatch_alone hq h, if_neg (not_le.2 hl), ha]
  · rw [execWalkDispatch_alone hq h, if_pos hl]
  · rw [execWalkDispatch_joins hq hw hc hv hl, ha]
  · intro hw hm hr hv r e he hq
    exact execWalkComplete_alone hw (if_neg (by omega)) he hq
  · exact execWalkComplete_alone hw (if_pos (Or.inl hr)) hw hm

/-- The second part of O46. -/
theorem collectivesRule : Claim.CollectivesRule := by
  unfold Claim.CollectivesRule
  intro s id parts c es others failed start
  refine ⟨fun hf => ⟨fun hb => execCollStart_begun hf hb, fun hb ht => execCollStart_waits hf hb ht,
    fun hb ht hc => execCollStart_cut hf hb ht hc, fun hb ht hc hn hl => ?_⟩, rfl, fun hf => ?_,
    fun a b => ⟨collCombine_add a b, collCombine_min a b, collCombine_max a b⟩⟩
  · have e := execCollStart_called hf hb ht hc hn hl
    refine ⟨fun ⟨q, hq, hs⟩ => e.trans ?_, fun hs => ⟨fun ⟨q, hq, hg⟩ => e.trans ?_, fun hg => ⟨fun va hv => e.trans ?_, ?_⟩⟩⟩
    · have ha : (parts.any fun q => q.seq != c.seq) = true := List.any_eq_true.2 ⟨q, hq, bne_iff_ne.2 hs⟩
      rw [if_pos ha]
    · rw [any_ne_seq hs, if_neg Bool.false_ne_true, if_pos (List.any_eq_true.2 ⟨q, hq, by simp [hg]⟩)]
    · have hv' : collFailed s c parts = some va := hv
      rw [any_ne_seq hs, if_neg Bool.false_ne_true, any_not_agrees hg, if_neg Bool.false_ne_true, hv', Option.isSome_some, if_pos rfl]
    · intro hv r a w hw
      have hv' : collFailed s c parts = none := hv
      refine e.trans ?_
      rw [any_ne_seq hs, if_neg Bool.false_ne_true, any_not_agrees hg, if_neg Bool.false_ne_true, hv', Option.isSome_none,
        if_neg Bool.false_ne_true, hw]
      cases r <;> rfl
  · have e := execCollComplete_eq hf
    refine ⟨fun hc => e.trans (by rw [if_pos hc]), fun hc hr => e.trans ?_, ?_⟩
    · rw [hc, if_neg Bool.false_ne_true, hr]
    · intro v hc hr va w u
      refine ⟨fun h0 => e.trans ?_, fun h0 => e.trans ?_⟩
      · rw [hc, if_neg Bool.false_ne_true, hr]
        exact congrArg _ (if_pos h0)
      · rw [hc, if_neg Bool.false_ne_true, hr]
        exact congrArg _ (if_neg (not_not.2 h0))

/-- Settles O46. -/
theorem walksAndCollectives : Obligations.WalksAndCollectives := ⟨walkEventsRule, collectivesRule⟩

end Sys2Proof
end

section
/-! PROOFS. The debugger, samples, replay and fault injection. -/
namespace Sys2Proof.Machine

section
variable {s : State} {cid : Nat} {p : Place} {f : Fibre}

/-! ### Halts (R422, R423) -/

/-- The debugger of the context acts on its fibre. -/
theorem onFibre_eq (hf : getF s p = some f) (hc : cidOf s f = cid) (hd : ctxFlag s cid 117 = true) (g : State → Place → Fibre → State) :
    onFibre s cid p g = g s p f := by
  have h : dbgFibre s cid p = some f := by
    unfold dbgFibre
    simp [hf, hc, hd]
  unfold onFibre
  rw [h]

/-- The fibre halts, with its record. -/
def haltedAt (s : State) (p : Place) (f : Fibre) (aux data addr : Nat) : State :=
  haltRec (setF s p { f with dbg := { f.dbg with halted := true, want := 0 } }) p f 1 aux data addr (nextPc f)

theorem haltFibre_now (hh : f.dbg.halted = false) (h : f.wait ≠ .none ∨ (f.pilot.on = true ∧ f.op = none ∧ f.committing = false ∧
    hasPend s p = false)) (hz : f.froz = .no) : haltFibre s p f = haltedAt s p f 0 0 0 := by
  have hn : haltNow s p f = haltedAt s p f 0 0 0 := by
    unfold haltNow
    extract_lets t
    rw [hz]
    rfl
  unfold haltFibre
  rw [hh, if_neg Bool.false_ne_true, hn]
  refine if_pos ?_
  rcases h with h | ⟨h1, h2, h3, h4⟩
  · simp [h]
  · simp [h1, h2, h3, h4]

theorem haltFibre_frozen {fi : FaultInfo} {nest : Bool} (hh : f.dbg.halted = false) (hz : f.froz = .resident fi nest) :
    haltFibre s p f = haltedAt s p f fi.cls (faultWord f fi nest).toNat (lowAddr fi) := by
  have hn : haltNow s p f = haltedAt s p f fi.cls (faultWord f fi nest).toNat (lowAddr fi) := by
    unfold haltNow
    extract_lets t
    rw [hz]
    rfl
  unfold haltFibre
  rw [hh, if_neg Bool.false_ne_true, hn]
  exact if_pos (by simp [hz])

/-- The fibre is asked to halt at its next commit point. -/
theorem haltFibre_asked (hh : f.dbg.halted = false) (hz : f.froz = .no) (hw : f.wait = .none)
    (h : (f.pilot.on = false ∧ f.hnd = none) ∨ hasPend s p = true) :
    haltFibre s p f = setF s p { f with dbg := { f.dbg with want := 1 } } := by
  unfold haltFibre
  rw [hh, if_neg Bool.false_ne_true]
  refine if_neg ?_
  rcases h with ⟨h1, h2⟩ | h
  · simp [hz, hw, h1, h2]
  · simp [hz, hw, h]

theorem groupOf_readyNow (g : Fibre) : groupOf (readyNow (setF s p g) p) f = groupOf s f := by
  unfold readyNow modF
  split <;> rfl

theorem resumeHalted_runs (hh : f.dbg.halted = true) (hn : f.dbg.fault = none) (hz : f.froz = .no)
    (hg : ((groupOf s f).any fun g => g.deferred) = false) :
    resumeHalted s p f = readyNow (setF s p { f with dbg := { halted := false, want := 0, step := false, fault := none } }) p := by
  unfold resumeHalted
  simp only [hh, hn, hz, Bool.not_true, Bool.false_eq_true, if_false, Option.isSome_none, Bool.false_and]
  unfold afterResume
  rw [groupOf_readyNow, hg, Bool.false_and, if_neg Bool.false_ne_true]

theorem stepFibre_runs (hh : f.dbg.halted = true) (hn : f.dbg.fault = none) (hz : f.froz = .no) :
    stepFibre s p f = readyNow (setF s p { f with
      dbg := { halted := false, want := 0, step := true, fault := none }, pilot := { f.pilot with on := true } }) p := by
  unfold stepFibre
  simp only [hh, hn, hz, Bool.not_true, Bool.false_eq_true, if_false, if_true]

/-! ### Samples (R425) -/

theorem modX_eq {x : Ctx} (hx : getX s cid = some x) (g : Ctx → Ctx) : modX s cid g = setX s cid (g x) := by
  unfold modX
  rw [hx]

theorem setX_setX (x y : Ctx) : setX (setX s cid x) cid y = setX s cid y := by
  unfold setX
  simp only [tput_tput]

theorem getX_setX (x : Ctx) : getX (setX s cid x) cid = some x := tfind_tput_self _ _ _

end

/-! ### Fault injection (R429) -/

/-- Bits that a write of the low half of the injection register may change: ARM, and those from 49 on. -/
theorem testBit_injMask (i : Nat) : (2 ^ 64 - 1 - (2 ^ 49 - 1) + 1).testBit i = decide (i = 0 ∨ (49 ≤ i ∧ i < 64)) := by
  by_cases h : i < 64
  · have hd : ∀ i : Fin 64, (2 ^ 64 - 1 - (2 ^ 49 - 1) + 1).testBit i.val = decide (i.val = 0 ∨ (49 ≤ i.val ∧ i.val < 64)) := by decide
    exact hd ⟨i, h⟩
  · rw [Nat.testBit_lt_two_pow (lt_of_lt_of_le (by decide) (Nat.pow_le_pow_right (by decide) (not_lt.1 h)))]
    simp only [false_eq_decide_iff]
    omega

section
variable {s : State} {a w : Nat}

/-- What a write of all of `w` leaves in the low half of the injection register. -/
def injMixed (old w : Nat) : Nat := regMixed old (2 ^ 64 - 1) (2 ^ 64 - 1 - (2 ^ 49 - 1) + 1) w

theorem injMixed_testBit {old : Nat} (ho : old < 2 ^ 64) (i : Nat) :
    (injMixed old w).testBit i = if i = 0 ∨ (49 ≤ i ∧ i < 64) then w.testBit i else old.testBit i := by
  unfold injMixed
  rw [regMixed_testBit ho (by decide), testBit_injMask]
  simp only [decide_eq_true_eq]

theorem injMixed_lt {old : Nat} (ho : old < 2 ^ 64) : injMixed old w < 2 ^ 64 := regMixed_lt ho (by decide)

theorem regWrite_injHigh (ha : a % 8 = 0) (hr : regAt a = some (.inject true)) (hk : injOk s = true) (hw : w < 2 ^ 64) :
    regWrite s .controlCore a 8 w = setReg s a (BitVec.ofNat 64 w) := by
  have h8 : a / 8 * 8 = a := by omega
  have hm : regMixed (getReg s a).toNat (2 ^ 64 - 1) (2 ^ 64 - 1) w = w := by
    refine Nat.eq_of_testBit_eq fun i => ?_
    rw [regMixed_testBit (getReg s a).isLt (by decide), Nat.testBit_two_pow_sub_one]
    by_cases hi : i < 64
    · simp [hi]
    · have hp : 2 ^ 64 ≤ 2 ^ i := Nat.pow_le_pow_right (by decide) (not_lt.1 hi)
      rw [if_neg (by simpa using hi), Nat.testBit_lt_two_pow (lt_of_lt_of_le (getReg s a).isLt hp), Nat.testBit_lt_two_pow (lt_of_lt_of_le hw hp)]
  rw [regWrite_inject s (hi := true) (h8.symm ▸ hr), h8, regMask_inject hr, regBits_eight ha, regShifted_eight ha, Nat.mod_eq_of_lt hw, hk,
    if_neg (by simp), if_neg (by simp), if_pos rfl, hm]

theorem regWrite_injLow (ha : a % 8 = 0) (hr : regAt a = some (.inject false)) (hk : injOk s = true) (hw : w < 2 ^ 64) :
    regWrite s .controlCore a 8 w = setReg s a (BitVec.ofNat 64
      (if w / 2 % 2 = 1 then injMixed (getReg s a).toNat w - injMixed (getReg s a).toNat w / 2 % 2 * 2
       else injMixed (getReg s a).toNat w)) := by
  have h8 : a / 8 * 8 = a := by omega
  rw [regWrite_inject s (hi := false) (h8.symm ▸ hr), h8, regMask_inject hr, regBits_eight ha, regShifted_eight ha, Nat.mod_eq_of_lt hw, hk,
    if_neg (by simp), if_neg Bool.false_ne_true]
  simp only [Bool.not_false, true_and]
  rfl

theorem regWrite_injRefused {hi : Bool} (ha : a % 8 = 0) (hr : regAt a = some (.inject hi)) (hk : injOk s = false) :
    regWrite s .controlCore a 8 w = s := by
  have h8 : a / 8 * 8 = a := by omega
  rw [regWrite_inject s (hi := hi) (h8.symm ▸ hr), hk, if_pos (by simp)]

/-- The registers of fault injection, as two addresses. -/
theorem injRegs : ∃ a, a = injAddr ∧ a % 8 = 0 ∧ regAt a = some (.inject false) ∧ regAt (a + 8) = some (.inject true) :=
  ⟨_, rfl, by decide, regAt_inject.1, regAt_inject.2⟩

/-- The value with which a write arms the register: ARM, no DONE, and the bits from 49 on. -/
theorem armWord_testBit (v i : Nat) : (v % 2 ^ 64 / 2 ^ 49 * 2 ^ 49 + 1).testBit i =
    if i = 0 then true else decide (49 ≤ i) && (v % 2 ^ 64).testBit i := by
  rw [Nat.mul_comm, Nat.testBit_two_pow_mul_add _ (by decide), Nat.testBit_div_two_pow]
  by_cases h0 : i = 0
  · subst h0
    rfl
  · by_cases hi : i < 49
    · have h1 : Nat.testBit 1 i = false := Bool.eq_false_iff.2 fun h => h0 (Nat.testBit_one_eq_true_iff_self_eq_zero.1 h)
      rw [if_pos hi, if_neg h0, h1, decide_eq_false (not_le.2 hi), Bool.false_and]
    · rw [if_neg hi, if_neg h0, Nat.sub_add_cancel (not_lt.1 hi), decide_eq_true (not_lt.1 hi), Bool.true_and]

/-- Clearing bit 1. -/
theorem ofNat_sub_bit1 (x : DWord) : BitVec.ofNat 64 (x.toNat - x.toNat / 2 % 2 * 2) = x &&& ~~~(2 : DWord) := by
  have hd : x.toNat - x.toNat / 2 % 2 * 2 = 2 ^ 2 * (x.toNat / 2 ^ 2) + x.toNat % 2 ^ 1 := by omega
  refine BitVec.eq_of_getLsbD_eq fun i hi => ?_
  have h2 : (2 : DWord).getLsbD i = decide (i = 1) := by
    have : ∀ i : Fin 64, (2 : DWord).getLsbD i.val = decide (i.val = 1) := by decide
    exact this ⟨i, hi⟩
  rw [hd, BitVec.getLsbD_and, BitVec.getLsbD_not, h2, BitVec.getLsbD_ofNat, Nat.testBit_two_pow_mul_add _ (by omega),
    Nat.testBit_div_two_pow, Nat.testBit_mod_two_pow, BitVec.testBit_toNat]
  by_cases h : i < 2
  · obtain rfl | rfl : i = 0 ∨ i = 1 := by omega
    · simp
    · simp
  · have h1 : i ≠ 1 := by omega
    have h2 : i - 2 + 2 = i := by omega
    rw [if_neg h, h2, BitVec.testBit_toNat, decide_eq_false h1]
    simp [hi]

section
variable (ha : a = injAddr) (h8 : a % 8 = 0) (hr : regAt a = some (.inject false)) (hr' : regAt (a + 8) = some (.inject true))
include ha h8 hr

include hr' in
theorem execFaultInjectArm_eq (hk : injOk s = true) (v : BitVec 128) : Machine.exec (.faultInjectArm v) s = .next
    (setReg (setReg s (a + 8) (v.extractLsb' 64 64)) a
      (BitVec.ofNat 64 (injMixed (getReg s a).toNat (v.toNat % 2 ^ 64 / 2 ^ 49 * 2 ^ 49 + 1)))) := by
  have e : Machine.exec (.faultInjectArm v) s = .next (regWrite (regWrite s .controlCore (a + 8) 8 (v.toNat / 2 ^ 64)) .controlCore a 8
      (v.toNat % 2 ^ 64 / 2 ^ 49 * 2 ^ 49 + 1)) := by
    rw [ha]
    rfl
  have hv := v.isLt
  have hx : BitVec.ofNat 64 (v.toNat / 2 ^ 64) = v.extractLsb' 64 64 := by
    refine BitVec.eq_of_toNat_eq ?_
    simp [Nat.shiftRight_eq_div_pow]
  have hg : getReg (setReg s (a + 8) (v.extractLsb' 64 64)) a = getReg s a := tget_tset_ne _ _ _ (by omega)
  rw [e, regWrite_injHigh (by omega) hr' hk (by omega), hx, regWrite_injLow h8 hr (by exact hk) (by omega), hg, if_neg (by omega)]

theorem execFaultInjectDoneClear_eq (hk : injOk s = true) :
    Machine.exec .faultInjectDoneClear s = .next (setReg s a (getReg s a &&& ~~~(2 : DWord))) := by
  have e : Machine.exec .faultInjectDoneClear s = .next (regWrite s .controlCore a 8 ((getReg s a).toNat ||| 2)) := by
    rw [ha]
    rfl
  have hlt : (getReg s a).toNat ||| 2 < 2 ^ 64 := Nat.or_lt_two_pow (getReg s a).isLt (by decide)
  have hb : ((getReg s a).toNat ||| 2) / 2 % 2 = 1 := by
    have hb : ((getReg s a).toNat ||| 2).testBit 1 = true := by
      rw [Nat.testBit_or]
      exact Bool.or_true _
    rwa [Nat.testBit_eq_decide_div_mod_eq, decide_eq_true_eq] at hb
  have hm : injMixed (getReg s a).toNat ((getReg s a).toNat ||| 2) = (getReg s a).toNat := by
    refine Nat.eq_of_testBit_eq fun i => ?_
    rw [injMixed_testBit (getReg s a).isLt, Nat.testBit_or]
    split
    · next h =>
      have h2 : Nat.testBit 2 i = false := by
        rcases h with rfl | ⟨h49, -⟩
        · rfl
        · exact Nat.testBit_lt_two_pow (lt_of_lt_of_le (by decide : 2 < 2 ^ 49) (Nat.pow_le_pow_right (by decide) h49))
      rw [h2, Bool.or_false]
    · rfl
  rw [e, regWrite_injLow h8 hr hk hlt, if_pos hb, hm, ofNat_sub_bit1]

include hr' in
theorem faultInject_refused (hk : injOk s = false) (v : BitVec 128) :
    Machine.exec (.faultInjectArm v) s = .next s ∧ Machine.exec .faultInjectDoneClear s = .next s := by
  have e : Machine.exec (.faultInjectArm v) s = .next (regWrite (regWrite s .controlCore (a + 8) 8 (v.toNat / 2 ^ 64)) .controlCore a 8
      (v.toNat % 2 ^ 64 / 2 ^ 49 * 2 ^ 49 + 1)) := by
    rw [ha]
    rfl
  have e' : Machine.exec .faultInjectDoneClear s = .next (regWrite s .controlCore a 8 ((getReg s a).toNat ||| 2)) := by
    rw [ha]
    rfl
  exact ⟨by rw [e, regWrite_injRefused (by omega) hr' hk, regWrite_injRefused h8 hr hk], by rw [e', regWrite_injRefused h8 hr hk]⟩

end

/-- The sample of a fibre, as it is recorded. -/
def sampleRec (w : State) (p : Place) (f : Fibre) : RecF :=
  { time := w.time, addr := (sampleOf w p f).2.2, pc := (sampleOf w p f).2.1, rgn := rgnWord f.regions
    inst := ((groupOf w f).map Group.inst).getD 0, mask := f.amask.toNat, place := placeWord w p, type := 0x13
    cls := (sampleOf w p f).1 }

theorem execSampleTick_samples {cid k : Nat} {x : Ctx} {f : Fibre} (hx : getX s cid = some x)
    (h0 : (getReg s (dbgAddr cid + 0x18)).toNat % 2 ^ 32 ≠ 0)
    (ht : x.sampleAt + (getReg s (dbgAddr cid + 0x18)).toNat % 2 ^ 32 ≤ s.time)
    (hn : nextSample (sampleKeys (setX s cid { x with sampleAt := s.time }) cid) x.lastSample = some k)
    (hf : getF s (placeOf k) = some f) :
    Machine.exec (.sampleTick cid) s = .next (trace (setX s cid { x with sampleAt := s.time, lastSample := k + 1 }) (placeOf k).core cid
      (mkRec (sampleRec (setX s cid { x with sampleAt := s.time, lastSample := k + 1 }) (placeOf k) f))) := by
  change execSampleTick cid s = _
  have hf' : getF (setX s cid { x with sampleAt := s.time, lastSample := k + 1 }) (placeOf k) = some f := hf
  unfold execSampleTick
  simp only [hx, modX_eq hx, hn, modX_eq (getX_setX _), setX_setX, hf']
  rw [if_neg (by omega)]
  rfl

/-- A record that names the fibre at `who`, where one waits there. -/
def namingFibre (s : State) (x : RecF) : Option (Place × Fibre) → RecF
  | some (p, f) =>
    { x with rgn := rgnWord f.regions, inst := ((groupOf s f).map Group.inst).getD 0, mask := f.amask.toNat, place := placeWord s p }
  | none => x

/-- An operation held for 1,000,000 ticks under enforcement: the record names the fibre at `who`, where one waits there. -/
theorem execReplayDivergence_eq {id : Nat} {r : Req} (hr : findReq s id = some r) (hh : r.held ≠ 0) (ht : r.held + 1000000 ≤ s.time + 1)
    (hm : replayMode s r.cid = 2) (who : Option (Place × Fibre))
    (hw : ((match r.cont with
      | .op p | .hold p => some p
      | _ => none : Option Place).bind fun p => (getF s p).map fun f => (p, f)) = who) :
    Machine.exec (.replayDivergence id) s = .next
      (let k := servingSlice s r
       let x : RecF := { time := s.time, addr := r.pa, aux := k, type := 0x15 }
       wakeSlice (setSl (trace s r.core r.cid (mkRec (namingFibre s x who))) k { getSl s k with
         free := if (getSl s k).free.contains r.cid then (getSl s k).free else (getSl s k).free ++ [r.cid] }) k r.cid) := by
  change execReplayDivergence id s = _
  unfold execReplayDivergence
  simp only [hr]
  rw [if_neg (by omega)]
  erw [hw]
  cases who <;> rfl

end

end Sys2Proof.Machine

namespace Sys2Proof
open Machine

/-- The first part of O47. -/
theorem haltsRule : Claim.HaltsRule := by
  unfold Claim.HaltsRule
  intro s cid p f hf hc hd at_
  have ha (aux data addr : Nat) : haltedAt s p f aux data addr = at_ aux data addr := rfl
  have hon := onFibre_eq hf hc hd
  have halt : Machine.exec (.halt cid p) s = .next (haltFibre s p f) := congrArg Host.Outcome.next (hon haltFibre)
  refine ⟨fun hh hz hw hp hn => ?_, fun hh hz hw => ?_, fun hh hz hp ho hm hq => ?_, fun hh hz hw hp => ?_, fun fi nest hh hz => ?_,
    fun hw => ?_, fun hh hw => ?_, fun hh hn hz => ⟨fun hg => ?_, ?_⟩, rfl, rfl⟩
  · rw [halt, haltFibre_asked hh hz hw (Or.inl ⟨hp, hn⟩)]
  · rw [halt, haltFibre_now hh (Or.inl hw) hz, ha]
  · rw [halt, haltFibre_now hh (Or.inr ⟨hp, ho, hm, hq⟩) hz, ha]
  · rw [halt, haltFibre_asked hh hz hw (Or.inr hp)]
  · rw [halt, haltFibre_frozen hh hz, ha]
  · refine congrArg Host.Outcome.next ((hon _).trans (if_pos ?_))
    simp [hw]
  · refine congrArg Host.Outcome.next ((hon _).trans (if_neg ?_))
    simp [hw, hh]
  · exact congrArg Host.Outcome.next ((hon _).trans (resumeHalted_runs hh hn hz hg))
  · exact congrArg Host.Outcome.next ((hon _).trans (stepFibre_runs hh hn hz))

/-- The second part of O47. -/
theorem debugEventsRule : Claim.DebugEventsRule := by
  unfold Claim.DebugEventsRule
  intro s cid id k x f r v period
  refine ⟨fun hx => ⟨fun h => ?_, ?_⟩, fun hr hh ht hm => ?_, fun hl hw => ⟨?_, ?_⟩, fun hl => ?_⟩
  · change execSampleTick cid s = _
    unfold execSampleTick
    simp only [hx]
    exact congrArg _ (if_pos h)
  · intro h0 ht u w hn hf
    exact execSampleTick_samples hx h0 ht hn hf
  · intro k free go y
    have e := execReplayDivergence_eq hr hh ht hm
    refine ⟨fun hp => (e none ?_).trans rfl, fun p g hp hg => (e (some (p, g)) ?_).trans rfl⟩
    · split
      · next p hc => exact absurd hc (hp p).1
      · next p hc => exact absurd hc (hp p).2
      · rfl
    · rcases hp with hp | hp
      · rw [hp]
        simp [hg]
      · rw [hp]
        simp [hg]
  · obtain ⟨a, ha, h8, hr, hr'⟩ := injRegs
    have hk : injOk s = true := by rcases hl with h | h <;> simp [injOk, h]
    have hlt := injMixed_lt (w := v.toNat % 2 ^ 64 / 2 ^ 49 * 2 ^ 49 + 1) (getReg s a).isLt
    refine ⟨_, execFaultInjectArm_eq ha h8 hr hr' hk v, rfl, ?_⟩
    have hg : getReg (setReg (setReg s (a + 8) (v.extractLsb' 64 64)) a (BitVec.ofNat 64
        (injMixed (getReg s a).toNat (v.toNat % 2 ^ 64 / 2 ^ 49 * 2 ^ 49 + 1)))) a = BitVec.ofNat 64
        (injMixed (getReg s a).toNat (v.toNat % 2 ^ 64 / 2 ^ 49 * 2 ^ 49 + 1)) := tget_tset_self _ _ (tabWf_tset _ _ hw)
    rw [← ha, hg]
    refine ⟨?_, ?_, fun i h49 hi => ?_, ?_⟩
    · rw [BitVec.getLsbD_ofNat, injMixed_testBit (getReg s a).isLt, armWord_testBit]
      rfl
    · rw [BitVec.getLsbD_ofNat, injMixed_testBit (getReg s a).isLt, if_neg (by omega), BitVec.testBit_toNat]
      rfl
    · rw [BitVec.getLsbD_ofNat, injMixed_testBit (getReg s a).isLt, armWord_testBit, if_pos (Or.inr ⟨h49, hi⟩), if_neg (by omega),
        Nat.testBit_mod_two_pow, BitVec.testBit_toNat]
      simp [hi, h49]
    · exact (tget_tset_ne _ _ _ (by omega)).trans (tget_tset_self _ _ hw)
  · obtain ⟨a, ha, h8, hr, hr'⟩ := injRegs
    have hk : injOk s = true := by rcases hl with h | h <;> simp [injOk, h]
    refine ⟨_, execFaultInjectDoneClear_eq ha h8 hr hk, rfl, ?_⟩
    rw [← ha]
    exact tget_tset_self _ _ hw
  · obtain ⟨a, ha, h8, hr, hr'⟩ := injRegs
    have hk : injOk s = false := by rcases hl with h | h <;> simp [injOk, h]
    exact faultInject_refused ha h8 hr hr' hk v

/-- Settles O47. -/
theorem debugger : Obligations.Debugger := ⟨haltsRule, debugEventsRule⟩

end Sys2Proof
end

section
/-! PROOFS. Frequencies and register writes. -/
namespace Sys2Proof.Machine

section
variable {s : State} {die fmul c0 : Nat}

/-! ### Frequencies (R31, R32, R438) -/

theorem freqNext_bounds (s : State) (die : Nat) : 12 ≤ freqNext s die ∧ freqNext s die ≤ 33 := by
  unfold freqNext freqMax
  omega

theorem getD_setD (h : tabWf Die.init s.dies = true) (d : Die) : getD (setD s die d) die = d := tget_tset_self _ _ h

section
variable (h8 : die < 8) (hr : (getD s die).running = true) (hl : (getD s die).relock = none)
include h8 hr hl

theorem execFrequencyStep_waits (hf : fmul = freqNext s die) (ht : s.tickStart = false) :
    Machine.exec (.frequencyStep die fmul) s = .next (due s (.frequencyStep die fmul)) := by
  change execFrequencyStep die fmul s = _
  unfold execFrequencyStep
  refine congrArg Host.Outcome.next ((if_neg ?_).trans (if_pos ?_))
  · simp [hr, hl, hf, h8]
  · simp [ht]

theorem execFrequencyStep_stops (hf : fmul = freqNext s die) (ht : s.tickStart = true) :
    Machine.exec (.frequencyStep die fmul) s = .next
      (due (setD s die { getD s die with relock := some (fmul, dieCyc (getD s die) s.time) }) (.pllRelockDone die)) := by
  change execFrequencyStep die fmul s = _
  unfold execFrequencyStep
  refine congrArg Host.Outcome.next ((if_neg ?_).trans (if_neg ?_))
  · simp [hr, hl, hf, h8]
  · simp [ht]

end

theorem execFrequencyStep_other (hf : fmul ≠ freqNext s die) : Machine.exec (.frequencyStep die fmul) s = .next s := by
  change execFrequencyStep die fmul s = _
  unfold execFrequencyStep
  refine congrArg Host.Outcome.next (if_pos ?_)
  simp [hf]

theorem execPllRelockDone_eq (hl : (getD s die).relock = some (fmul, c0)) : Machine.exec (.pllRelockDone die) s = .next
    (if s.tickStart = true then setD s die { getD s die with
        relock := none, log := ({ fmul, cyc0 := c0, time0 := s.time } :: (getD s die).log).take 64, logCount := (getD s die).logCount + 1 }
     else due s (.pllRelockDone die)) := by
  change execPllRelockDone die s = _
  unfold execPllRelockDone
  simp only [hl]
  cases s.tickStart <;> rfl

/-! ### Register writes (R409, R439) -/

variable {pa size : Nat} {v : DWord} {who : Agent} {r : RegId}

theorem execRegisterWrite_hole (h : regAt (pa / 8 * 8) = none) : Machine.exec (.registerWrite who pa size v) s = .next s := by
  change execRegisterWrite who pa size v s = _
  unfold execRegisterWrite
  extract_lets ok
  have ho : ok = false := by
    unfold ok
    rw [h]
  rw [ho, if_pos (by simp)]

/-- A write of another size, or misaligned. -/
theorem execRegisterWrite_shape (h : (size ≠ 4 ∧ size ≠ 8) ∨ pa % size ≠ 0) : Machine.exec (.registerWrite who pa size v) s = .next s := by
  change execRegisterWrite who pa size v s = _
  unfold execRegisterWrite
  extract_lets ok
  refine congrArg Host.Outcome.next (if_pos ?_)
  rcases h with ⟨h4, h8⟩ | h
  · simp [h4, h8]
  · simp [h]

/-- What lets the host write: the register is not the kernel's alone, and lies in what the kernel has opened. -/
theorem execRegisterWrite_closed (h : ∀ r, regAt (pa / 8 * 8) = some r → kernelOnly r = true ∨
      ∀ e ∈ s.hostRegs, ¬ (e.1 ≤ pa ∧ pa + size ≤ e.1 + e.2)) : Machine.exec (.registerWrite .host pa size v) s = .next s := by
  change execRegisterWrite .host pa size v s = _
  unfold execRegisterWrite
  extract_lets ok
  have ho : ok = false := by
    unfold ok
    split
    · next r hr =>
      rcases h r hr with hk | hn
      · rw [hk]
        rfl
      · have ha : (s.hostRegs.any fun e => e.1 ≤ pa && pa + size ≤ e.1 + e.2) = false :=
          List.any_eq_false.2 fun e he => by simpa using hn e he
        rw [ha, Bool.and_false]
        rfl
    · rfl
  rw [ho, if_pos (by simp)]

theorem execRegisterWrite_open (hr : regAt (pa / 8 * 8) = some r) (hk : kernelOnly r = false) (hs : size = 4 ∨ size = 8)
    (hp : pa % size = 0) (he : ∃ e ∈ s.hostRegs, e.1 ≤ pa ∧ pa + size ≤ e.1 + e.2) :
    Machine.exec (.registerWrite .host pa size v) s = .next (regWrite s .host pa size v.toNat) := by
  change execRegisterWrite .host pa size v s = _
  unfold execRegisterWrite
  extract_lets ok
  have ho : ok = true := by
    have ha : (s.hostRegs.any fun e => e.1 ≤ pa && pa + size ≤ e.1 + e.2) = true := by
      obtain ⟨e, he, h⟩ := he
      exact List.any_eq_true.2 ⟨e, he, by simpa using h⟩
    unfold ok
    rw [hr]
    simp only [ha, hk]
    rfl
  refine congrArg Host.Outcome.next (if_neg ?_)
  rcases hs with rfl | rfl <;> simp [ho, hp]

theorem execRegisterWrite_core (hr : regAt (pa / 8 * 8) = some r) (hs : size = 4 ∨ size = 8) (hp : pa % size = 0) :
    Machine.exec (.registerWrite .controlCore pa size v) s = .next (regWrite s .controlCore pa size v.toNat) := by
  change execRegisterWrite .controlCore pa size v s = _
  unfold execRegisterWrite
  extract_lets ok
  have ho : ok = true := by
    unfold ok
    rw [hr]
    rfl
  refine congrArg Host.Outcome.next (if_neg ?_)
  rcases hs with rfl | rfl <;> simp [ho, hp]

/-- A control core writes the frequency limit of a die: six bits of it. -/
theorem execRegisterWrite_freq {a : Nat} (ha : a = 0x010000690008 + 8 * die) (h8 : die < 8) :
    Machine.exec (.registerWrite .controlCore a 8 v) s = .next (setReg s a (BitVec.ofNat 64
      ((getReg s a).toNat / 64 * 64 + v.toNat % 64))) := by
  have hm : a % 8 = 0 := by omega
  have ha8 : a / 8 * 8 = a := by omega
  have hr : regAt a = some (.freq die) := regAt_freq (by omega) h8
  have hr' : regAt (a / 8 * 8) = some (.freq die) := ha8.symm ▸ hr
  rw [execRegisterWrite_core hr' (Or.inr rfl) hm, regWrite_freq s hr', ha8, regBits_eight hm, regMask_freq hr, regShifted_eight hm,
    regMixed_freq (getReg s a).isLt, Nat.mod_eq_of_lt v.isLt]

end

end Sys2Proof.Machine

namespace Sys2Proof
open Machine

/-- The first part of O49. -/
theorem frequencyEventsRule : Claim.FrequencyEventsRule := by
  unfold Claim.FrequencyEventsRule
  intro s die fmul c0 h8 hw d step
  obtain ⟨h12, h33⟩ := freqNext_bounds s die
  refine ⟨h12, h33, min_le_left _ _, fun hr hl hf ht => execFrequencyStep_waits h8 hr hl hf ht, fun hr hl hf ht => ?_,
    fun hf => execFrequencyStep_other hf, fun hl ht => ?_, fun hl ht => ?_⟩
  · have hg := getD_setD (die := die) hw { d with relock := some (fmul, dieCyc d s.time) }
    refine ⟨_, execFrequencyStep_stops h8 hr hl hf ht, rfl, hg, fun now => ?_⟩
    exact congrArg (dieCyc · now) hg
  · rw [execPllRelockDone_eq hl, ht, if_neg Bool.false_ne_true]
  · have hg := getD_setD (die := die) hw { d with
      relock := none, log := ({ fmul, cyc0 := c0, time0 := s.time } :: d.log).take 64, logCount := d.logCount + 1 }
    refine ⟨_, (execPllRelockDone_eq hl).trans (by rw [if_pos ht]), rfl, ?_⟩
    rw [hg]
    refine ⟨rfl, rfl, rfl, List.length_take_le _ _, ?_⟩
    simp [dieCyc]

/-- The second part of O49. -/
theorem registerWritesRule : Claim.RegisterWritesRule := by
  unfold Claim.RegisterWritesRule
  intro s pa size v die
  refine ⟨fun h => execRegisterWrite_hole h, fun h => execRegisterWrite_shape (Or.inr h),
    fun h4 h8 => execRegisterWrite_shape (Or.inl ⟨h4, h8⟩), fun h8 hw => ?_, fun r hr hk => ?_, fun he => ?_,
    fun r hr hk hs hp he => execRegisterWrite_open hr hk hs hp he⟩
  · obtain ⟨a, ha⟩ : ∃ a, a = 0x010000690008 + 8 * die := ⟨_, rfl⟩
    rw [← ha]
    refine ⟨_, execRegisterWrite_freq ha h8, rfl, ?_, fun b hb => tget_tset_ne _ _ _ hb⟩
    rw [show getReg (setReg s a (BitVec.ofNat 64 ((getReg s a).toNat / 64 * 64 + v.toNat % 64))) a = _ from tget_tset_self _ _ hw,
      BitVec.toNat_ofNat, Nat.mod_eq_of_lt]
    have := (getReg s a).isLt
    omega
  · refine execRegisterWrite_closed fun r' hr' => Or.inl ?_
    rw [hr] at hr'
    cases hr'
    exact hk
  · exact execRegisterWrite_closed fun _ _ => Or.inr he

/-- Settles O49. -/
theorem powerAndRegisters : Obligations.PowerAndRegisters := ⟨frequencyEventsRule, registerWritesRule⟩

end Sys2Proof
end

section
/-! PROOFS. Instructions that complete and then fault (R100, R128, R188). -/
namespace Sys2Proof.Machine

section
variable {i : Instr} {s : State} {f : Fibre}

theorem acts_unfaulted (h : acts i s f = true) : f.span.faulted = none := by
  simp only [acts, Bool.and_eq_true, Option.isNone_iff_eq_none] at h
  obtain ⟨⟨⟨⟨-, hf⟩, -⟩, -⟩, -⟩ := h
  exact hf

/-- A fault at speed of a fibre with none latched: its class is latched, and the pc stays (R185). -/
theorem spanFault_latches {p : Place} {cls : Nat} (hf : getF s p = some f) (hn : f.span.faulted = none) :
    ∃ k, getF (spanFault s p cls) p = some k ∧ k.span.faulted = some cls ∧ k.pc = f.pc ∧ k.scal = f.scal ∧
      (spanFault s p cls).vregs = s.vregs ∧ (spanFault s p cls).mem = s.mem := by
  obtain ⟨k, hk, hl, hp, hc⟩ : ∃ k : Fibre, (if f.span.faulted.isSome then f else
      { f with span := { f.span with faulted := some cls }, fetched := none, emptyAt := false, xlat := [], op := none }) = k ∧
      k.span.faulted = some cls ∧ k.pc = f.pc ∧ k.scal = f.scal := by
    rw [hn, Option.isSome_none, if_neg Bool.false_ne_true]
    exact ⟨_, rfl, rfl, rfl, rfl⟩
  have hm : spanFault s p cls = dueOnce (dropOp (setF s p k) p) (.spanCommitRefused p) := by
    unfold spanFault modF
    rw [hf, ← hk]
  have ho := (outside_dropOp (setF s p k) p).trans (outside_dueOnce _ (.spanCommitRefused p))
  refine ⟨k, ?_, hl, hp, hc, ?_, ?_⟩
  · rw [hm, ho.getF]
    exact getF_setF_self _ _ _
  · rw [hm, ho.vregs]
    rfl
  · rw [hm, dueOnce_mem]
    rfl

theorem modF_setF (p : Place) (g : Fibre) (m : Fibre → Fibre) : modF (setF s p g) p m = setF s p (m g) := by
  unfold modF
  rw [getF_setF_self]
  exact setF_setF _ _ _ _

/-- What `completeFault` does after its registers are written: the instruction is counted, and the fault follows. -/
theorem completeFault_setF {dst : Option (Opnd × Nat)} {cls : Nat} {m : Mask} (g : Fibre) :
    completeFault (setF s s.here g) f dst cls m =
      faultAt (setF s s.here { g with span := { g.span with count := g.span.count + 1 } }) s.here false
        { faultInfo f dst with cls, mask := m, retry := false } := by
  unfold completeFault
  rw [show (setF s s.here g).here = s.here from rfl, modF_setF]
  rfl

/-- An instruction that writes its registers and then completes with a fault traps as the claim says. -/
theorem traps_of_complete {h : Hdr} {d : Opnd} {n cls : Nat} {v : Nat → Nat} {z : List Nat} (k : State → Fibre → State) (hn : n ≤ 256)
    (hi : exec i s = run i s k) (hk : k s f = completeFault (writeReg s s.here d n (laneVals s f h d v) true) f (some (d, n)) cls (maskOf z)) :
    Claim.Traps i s f h d n v cls z := by
  intro ha
  obtain ⟨hr, hv, hc⟩ := acts_tidy ha
  have hf := acts_getF ha
  obtain ⟨V, E, C, x, u, hw, -, -, hwr⟩ := writeReg_spec d n (laneVals s f h d v) true hr hf hv hc hn (acts_quiet ha).2
  obtain ⟨g, hg⟩ : ∃ g : Fibre, g = { f with scal := C, fp4x := x, span := { f.span with count := f.span.count + 1, undo := u } } := ⟨_, rfl⟩
  obtain ⟨S, hS⟩ : ∃ S : State, S = setF { s with vregs := V, emptied := E } s.here g := ⟨_, rfl⟩
  have hSg : getF S s.here = some g := hS ▸ getF_setF_self _ _ _
  have he : exec i s = .next (faultAt S s.here false { faultInfo f (some (d, n)) with cls, mask := maskOf z, retry := false }) := by
    rw [hi, run_acts k ha, hk, hw, hS, hg]
    exact congrArg Host.Outcome.next (completeFault_setF (s := { s with vregs := V, emptied := E }) _)
  have hon : OnlyFibre s S s.here := by
    rw [hS]
    exact ⟨rfl, fun j hj => tfind_tput_ne _ _ hj, fun _ _ => rfl⟩
  have hwr' : Wrote s S s.here f g d n (laneVals s f h d v) := by
    rw [hS, hg]
    cases d <;> exact hwr
  refine ⟨S, g, hon, hSg, hwr', by rw [hg], fun hp => ?_, fun hp => ?_⟩
  · have hgp : g.pilot.on = false := by rw [hg]; exact hp
    have hgf : g.span.faulted = none := hg ▸ (acts_unfaulted ha : f.span.faulted = none)
    obtain ⟨k, hk, hl, hpc, hsc, hvr, hm⟩ := spanFault_latches (cls := cls) hSg hgf
    refine ⟨_, k, he.trans (congrArg _ ?_), hk, hl, by rw [hpc, hg], hsc, hvr, ?_⟩
    · unfold faultAt
      simp only [hSg, hgp, Bool.false_eq_true, if_false]
    · rw [hm, hS]
      rfl
  · have hgp : g.pilot.on = true := by rw [hg]; exact hp
    refine he.trans (congrArg _ ?_)
    unfold faultAt
    simp only [hSg, hgp, Bool.false_eq_true, if_false, if_true]

/-! ### div and rem (R100) -/

theorem divide2_plain {y : Op2} (g : Nat → Nat → Nat) (h : descDiv0 (descOf s f) = false ∨ zeroDivs s f y = []) :
    divide2 s f y g = alu2 s f y g := by
  unfold divide2
  refine if_neg ?_
  rcases h with h | h <;> simp [h]

theorem divide2_traps {y : Op2} (g : Nat → Nat → Nat) (h : descDiv0 (descOf s f) = true) (hz : zeroDivs s f y ≠ []) :
    divide2 s f y g = completeFault (writeReg s s.here y.d y.t.regs
        (laneVals s f y.h y.d fun l => wide1 y.d y.t y.t.regs (g (valA2 s f y y.t.regs l) (valB2 s f y y.t.regs l))) true)
      f (some (y.d, y.t.regs)) 9 (maskOf (zeroDivs s f y)) := by
  unfold divide2
  exact if_pos (by simp [h, hz])

/-- `div` and `rem` where nothing traps: as an instruction of two sources. -/
theorem computes_of_divide2 {mk : Op2 → Instr} {y : Op2} {g : Nat → Nat → Nat} (hi : exec (mk y) s = run (mk y) s fun s f => divide2 s f y g)
    (h : descDiv0 (descOf s f) = false ∨ zeroDivs s f y = []) : Claim.Binary mk s f y g := by
  intro ha
  rw [hi]
  exact writes_of_run y.d y.t.regs _ _ ha (divide2_plain g h) (regs_le_256 y.t)

/-! ### Floating-point results (R128) -/

variable {h : Hdr} {d : Opnd} {v : Nat → Nat × Bool}

theorem fresult_plain (hm : descFpInv (descOf s f) = true → marked s f h d v = []) :
    fresult s f h d v = result s f h d 1 .f32 fun l => (v l).1 := by
  unfold fresult
  refine if_neg ?_
  simpa using hm

theorem fresult_traps (hi : descFpInv (descOf s f) = true) (hm : marked s f h d v ≠ []) :
    fresult s f h d v = completeFault (writeReg s s.here d 1 (laneVals s f h d fun l => (v l).1) true) f (some (d, 1)) 0x0A
      (maskOf (marked s f h d v)) := by
  unfold fresult
  exact if_pos (by simp [hi, hm])

/-- An instruction whose floating-point results may be invalid: it computes them, and traps where the kernel says so. -/
theorem claims_of_fresult {k : State → Fibre → Nat → Nat × Bool} (he : exec i s = run i s fun s f => fresult s f h d (k s f)) :
    ((descFpInv (descOf s f) = true → ¬ Claim.invalid s f h d (k s f)) →
        Claim.Computes i s f h d 1 fun l => wide1 d .f32 1 (k s f l).1) ∧
      (descFpInv (descOf s f) = true → Claim.invalid s f h d (k s f) →
        Claim.Traps i s f h d 1 (fun l => (k s f l).1) 0x0A (marked s f h d (k s f))) := by
  refine ⟨fun hn ha => ?_, fun hi hm => traps_of_complete _ (by decide) he (fresult_traps hi hm)⟩
  rw [he]
  exact writes_of_run d 1 _ _ ha (fresult_plain fun hi => not_not.1 (hn hi)) (by decide)

end

end Sys2Proof.Machine

namespace Sys2Proof
open Machine

/-- Settles O2. -/
theorem division : Obligations.Division := by
  unfold Obligations.Division
  intro s f y traps
  refine ⟨fun h => ⟨computes_of_divide2 rfl h, computes_of_divide2 rfl h⟩, fun h hz => ⟨?_, ?_⟩⟩
  · exact traps_of_complete _ (regs_le_256 y.t) rfl (divide2_traps (divF y.t) h hz)
  · exact traps_of_complete _ (regs_le_256 y.t) rfl (divide2_traps (remF y.t) h hz)

/-- Settles O7. -/
theorem floatArithmetic : Obligations.FloatArithmetic := by
  unfold Obligations.FloatArithmetic
  intro s f y z r A B P Q C claim
  exact ⟨claims_of_fresult (k := fun s f l => faddF y.t false r (nanLane y.d l) f.pc (valA2 s f y 1 l) (valB2 s f y 1 l)) rfl,
    claims_of_fresult (k := fun s f l => faddF y.t true r (nanLane y.d l) f.pc (valA2 s f y 1 l) (valB2 s f y 1 l)) rfl,
    claims_of_fresult (k := fun s f l => fmulF y.t r (nanLane y.d l) f.pc (valA2 s f y 1 l) (valB2 s f y 1 l)) rfl,
    claims_of_fresult (k := fun s f l => fmaF z.t r (nanLane z.d l) f.pc (valO s f z.a 1 l) (valO s f z.b 1 l) (valO s f z.c 1 l)) rfl,
    claims_of_fresult (k := fun s f l => fdot2F z.t r (nanLane z.d l) f.pc (valO s f z.a 1 l) (valO s f z.b 1 l) (valO s f z.c 1 l)) rfl⟩

end Sys2Proof
end

section
/-! PROOFS. Reads of status (R209, R210, R214, R335), and branches (R60, R166, R167). -/
namespace Sys2Proof.Machine

section
variable {i : Instr} {s : State} {f : Fibre} {h : Hdr} {tgt : DWord}

/-! ### Branches (R166, R167) -/

theorem onlyFibre_modF (s : State) (p : Place) (m : Fibre → Fibre) : OnlyFibre s (modF s p m) p := by
  unfold modF
  split
  · exact onlyFibre_setF _ _ _
  · exact ⟨rfl, fun _ _ => rfl, fun _ _ => rfl⟩

theorem modF_vregs (s : State) (p : Place) (m : Fibre → Fibre) : (modF s p m).vregs = s.vregs := by
  unfold modF
  split <;> rfl

theorem suppressed_false (hn : passLanes s f s.here h.guard ≠ []) : suppressed s f h = false := by
  unfold suppressed
  simpa using hn

theorem suppressed_true (hn : ¬ passLanes s f s.here h.guard ≠ []) : suppressed s f h = true := by
  unfold suppressed
  simpa using hn

/-- An instruction that no lane passes, as its meaning has it, falls through. -/
theorem falls_of_run (k : State → Fibre → State) (hi : exec i s = run i s k) (hk : k s f = next s s.here) : Claim.Falls i s f :=
  fun ha => hi ▸ falls k ha hk

theorem branchTo_good (hb : targetCls tgt = 0) (before : State → State) : branchTo s f tgt before = goTo (before s) s.here tgt := by
  unfold branchTo
  rw [if_neg (not_not.2 hb)]

theorem branchTo_bad (hb : targetCls tgt ≠ 0) (before : State → State) : branchTo s f tgt before = targetFault s f tgt := by
  unfold branchTo
  rw [if_pos hb]

theorem branches_of_goTo (k : State → Fibre → State) (hi : exec i s = run i s k) (hk : k s f = goTo s s.here tgt) :
    Claim.Branches i s f tgt [] :=
  fun ha _ => hi ▸ branches k tgt ha hk

/-- A branch that is taken. -/
theorem branches_of_run (k : State → Fibre → State) (hi : exec i s = run i s k) (hk : k s f = branchTo s f tgt id) :
    Claim.Branches i s f tgt [] :=
  fun ha hb => hi ▸ branches k tgt ha (hk.trans (branchTo_good hb id))

/-- A call that is taken. -/
theorem links_of_run (k : State → Fibre → State) (hi : exec i s = run i s k) (hk : k s f = branchTo s f tgt (linkTo f)) :
    Claim.Branches i s f tgt [(0, (f.pc + 12).toNat)] :=
  fun ha hb => hi ▸ links k tgt ha (hk.trans (branchTo_good hb _))

theorem brcTaken_none {c : Cond} {a : Opnd} (o : BitVec 27) (tok : BitVec 5) (ht : brcTaken s f h c a = 0) :
    Claim.Falls (.brc h c a o tok) s f := by
  refine falls_of_run _ rfl ?_
  simp only [ht, if_true]

/-! ### Targets that break R60 -/

/-- The class of a bad target, as the claim says it. -/
theorem targetCls_bad (hb : targetCls tgt ≠ 0) : targetCls tgt = if tgt.toNat % 4 ≠ 0 then 6 else 4 := by
  unfold targetCls at hb ⊢
  split
  · rfl
  · next h4 =>
    rw [if_neg h4] at hb
    split
    · rfl
    · next h60 => exact absurd (if_neg h60) hb

/-- At speed a bad target latches its class in the span, and nothing else changes. -/
theorem targetFault_latches (k : State → Fibre → State) (hi : exec i s = run i s k) (ha : acts i s f = true)
    (hk : k s f = targetFault s f tgt) (hb : targetCls tgt ≠ 0) (hp : f.pilot.on = false) :
    ∃ t g, exec i s = .next t ∧ getF t s.here = some g ∧ g.pc = f.pc ∧ t.mem = s.mem ∧ t.vregs = s.vregs ∧ g.scal = f.scal ∧
      g.span.faulted = some (if tgt.toNat % 4 ≠ 0 then 6 else 4) := by
  have hf := acts_getF ha
  obtain ⟨g, hg, hl, hpc, hsc, hvr, hm⟩ := spanFault_latches (cls := targetCls tgt) hf (acts_unfaulted ha)
  have ht : targetFault s f tgt = spanFault s s.here (targetCls tgt) := by
    unfold targetFault faultAt
    simp only [hf, hp, Bool.false_eq_true, if_false]
  refine ⟨_, g, ?_, hg, hpc, hm, hvr, hsc, ?_⟩
  · rw [hi, run_acts k ha, hk, ht]
  · rw [hl, targetCls_bad hb]

theorem brcTaken_some {c : Cond} {a : Opnd} (he : ∃ l ∈ passLanes s f s.here h.guard, l < 32 ∧
    zTest c (opVal s f s.here a 1 l % 2 ^ 32) = true) : brcTaken s f h c a ≠ 0 := by
  obtain ⟨l, hl, -, hz⟩ := he
  unfold brcTaken
  generalize hls : (passLanes s f s.here h.guard).filter (fun l => zTest c (opVal s f s.here a 1 l % 2 ^ 32)) = ls
  have hsub : ls.Sublist (List.range 32) := hls ▸ List.filter_sublist.trans List.filter_sublist
  have hmem : l ∈ ls := hls ▸ List.mem_filter.2 ⟨hl, hz⟩
  intro h0
  have hsum : (ls.map fun l => 2 ^ l).sum = 0 := by rw [← maskOf_toNat hsub, h0]; rfl
  have := List.single_le_sum (fun _ _ => Nat.zero_le _) _ (List.mem_map_of_mem (f := fun l => 2 ^ l) hmem)
  have hpos : 0 < 2 ^ l := Nat.two_pow_pos l
  omega

/-! ### A branch whose lanes disagree (R158, R159, R163) -/

/-- What `brc` does where some lanes take it and the target is good. -/
theorem execBrc_taken {c : Cond} {a : Opnd} {o27 : BitVec 27} {tok : BitVec 5} (ha : acts (.brc h c a o27 tok) s f = true)
    (ht : brcTaken s f h c a ≠ 0) (hb : targetCls (f.pc + (o27 ++ (0 : BitVec 2)).signExtend 64) = 0) :
    exec (.brc h c a o27 tok) s = .next
      (if f.amask &&& ~~~(brcTaken s f h c a) = 0 then goTo s s.here (f.pc + (o27 ++ (0 : BitVec 2)).signExtend 64)
       else if 64 ≤ f.splits.length then faultAt s s.here false { faultInfo f none with cls := 0x0C, code := 0xFFF2, retry := false }
       else if s.pends.any (fun q => ofPiece s.here f q && q.scalar) then stall s s.here h
       else
        let d := divide s s.here (brcTaken s f h c a) (f.pc + (o27 ++ (0 : BitVec 2)).signExtend 64) (f.pc + 12) tok
        match getF d s.here with
        | some g =>
          let r := retireAt d s.here f.pc g.pc false (rot := g.pc.toNat ≤ f.pc.toNat)
          if g.halves.length = f.halves.length then r else modF r s.here fun g => { g with halfCount := 0 }
        | none => d) := by
  refine (run_acts _ ha).trans (congrArg Host.Outcome.next ?_)
  exact (if_neg ht).trans (if_neg (not_not.2 hb))

/-- What `brc` does where the lanes disagree and nothing is in its way: the half that begins to run has issued nothing. -/
theorem execBrc_divides {c : Cond} {a : Opnd} {o27 : BitVec 27} {tok : BitVec 5} (ha : acts (.brc h c a o27 tok) s f = true)
    (ht : brcTaken s f h c a ≠ 0) (hb : targetCls (f.pc + (o27 ++ (0 : BitVec 2)).signExtend 64) = 0)
    (hn : f.amask &&& ~~~(brcTaken s f h c a) ≠ 0) (h64 : f.splits.length < 64)
    (hs : s.pends.any (fun q => ofPiece s.here f q && q.scalar) = false) {d : State} {g : Fibre}
    (hd : divide s s.here (brcTaken s f h c a) (f.pc + (o27 ++ (0 : BitVec 2)).signExtend 64) (f.pc + 12) tok = d)
    (hg : getF d s.here = some g) :
    exec (.brc h c a o27 tok) s = .next
      (if g.halves.length = f.halves.length then retireAt d s.here f.pc g.pc false (rot := g.pc.toNat ≤ f.pc.toNat)
       else modF (retireAt d s.here f.pc g.pc false (rot := g.pc.toNat ≤ f.pc.toNat)) s.here fun g => { g with halfCount := 0 }) := by
  refine (execBrc_taken ha ht hb).trans (congrArg Host.Outcome.next ?_)
  rw [if_neg hn, if_neg (not_le.2 h64), hs, if_neg Bool.false_ne_true, hd]
  simp only [hg]

/-- The piece that keeps its context where `minor` detaches into context `k` (R159). -/
def parentPiece (p : Place) (f : Fibre) (major : Mask) (jpc : DWord) (sp : Split) : Fibre :=
  { f with
    pc := jpc, amask := major, splits := sp :: f.splits, fetched := none, emptyAt := false, xlat := []
    span := cutSpan (major ||| f.halves.foldl (fun m h => m ||| h.mask) 0) true p sp f.span }

/-- The fragment that detaches into context `k` (R159). -/
def fragmentPiece (s : State) (p : Place) (f : Fibre) (k : Nat) (minor : Mask) (mpc : DWord) (sp : Split) : Fibre :=
  { f with
    pc := mpc, amask := minor, splits := sp :: f.splits, halves := [], halfCount := 0, elders := eldersOf p f minor
    relq := [], relWait := false
    span := { cutSpan minor false { p with fib := k } sp f.span with count := f.span.count + 1 }
    fetched := none, emptyAt := false, xlat := [], op := none, wait := .none, stop := false, events := []
    oc := [0, 0, 0, 0], issued := [0, 0, 0, 0], fails := [], readySince := cycOf s p.core, spin := (0, 0, 0)
    dual := f.dual.map fun (d : Dual) =>
      ({ d with fib := k, unc := [], loads := [], cleared := [], results := [], pil := [], mism := 0 } : Dual) }

theorem pkey_ne {p : Place} {k : Nat} (h : k ≠ p.fib) : pkey { p with fib := k } ≠ pkey p := by
  change bkey p.core p.berth * 8 + k ≠ bkey p.core p.berth * 8 + p.fib
  omega

/-- The context that a fragment takes is free. -/
theorem fragCtx_ne {p : Place} {k : Nat} (hf : getF s p = some f) (hk : fragCtx s p f = some k) : k ≠ p.fib := by
  have hfree : getF s { p with fib := k } = none := by
    have := List.find?_some hk
    simpa [freeCtx] using this
  rintro rfl
  rw [show ({ p with fib := p.fib } : Place) = p from rfl, hf] at hfree
  cases hfree

/-- A divergent branch with a free context, at speed. -/
theorem divide_detaches {p : Place} {tk : Mask} {fall : DWord} {tok : BitVec 5} {k : Nat} (hf : getF s p = some f) (hp : f.pilot.on = false)
    (hk : fragCtx s p f = some k) :
    let nt := f.amask &&& ~~~tk
    let low : Bool := popMask tk ≤ popMask nt
    let sp : Split := { id := s.nextId, tok, lanes := f.amask, parent := p.fib, committed := false }
    ∃ d, divide s p tk tgt fall tok = d ∧
      getF d p = some (parentPiece p f (if low then nt else tk) (if low then fall else tgt) sp) ∧
      getF d { p with fib := k } = some (fragmentPiece s p f k (if low then tk else nt) (if low then tgt else fall) sp) ∧
      d.vregs = s.vregs ∧ d.mem = s.mem ∧ ctxFlag d = ctxFlag s ∧ cidOf d = cidOf s := by
  intro nt low sp
  have hne := fragCtx_ne hf hk
  have hk' : fragCtx { s with nextId := s.nextId + 1 } p f = some k := hk
  unfold divide
  simp only [hf, hp, hk', Bool.false_eq_true, if_false]
  refine ⟨_, rfl, ?_, ?_, rfl, rfl, rfl, rfl⟩
  · exact (tfind_tput_ne _ _ (pkey_ne hne).symm).trans (tfind_tput_self _ _ _)
  · exact tfind_tput_self _ _ _

/-- A divergent branch in pilot gear, or with no free context: the smaller part is deferred in place (R163). -/
theorem divide_defers {p : Place} {tk : Mask} {fall : DWord} {tok : BitVec 5} (hf : getF s p = some f)
    (hk : f.pilot.on = true ∨ fragCtx s p f = none) :
    let nt := f.amask &&& ~~~tk
    let low : Bool := popMask tk ≤ popMask nt
    let sp : Split := { id := s.nextId, tok, lanes := f.amask, parent := p.fib, committed := false }
    divide s p tk tgt fall tok = setF { s with nextId := s.nextId + 1 } p { f with
      pc := if low then fall else tgt, amask := if low then nt else tk, splits := sp :: f.splits
      halves := f.halves ++ [{ mask := if low then tk else nt, pc := if low then tgt else fall, splits := sp :: f.splits, wait := .none }]
      halfCount := 0, fetched := none, emptyAt := false, xlat := [] } := by
  intro nt low sp
  have hn : (if f.pilot.on then none else fragCtx { s with nextId := s.nextId + 1 } p f) = none := by
    rcases hk with h | h
    · rw [h, if_pos rfl]
    · rw [show fragCtx { s with nextId := s.nextId + 1 } p f = none from h, ite_self]
  unfold divide
  simp only [hf, hn]
  rfl

/-- The piece that goes on after a division: counted, at its own pc, and rotated where that lies behind. -/
theorem divided_goes {d : State} {p : Place} {g : Fibre} (ipc : DWord) (hg : getF d p = some g) (hq : ctxFlag d (cidOf d g) 117 = false) :
    ∃ k, getF (retireAt d p ipc g.pc false (rot := g.pc.toNat ≤ ipc.toNat)) p =
        some (if g.pc.toNat ≤ ipc.toNat then rotate k else k) ∧
      OnlyFibre d (retireAt d p ipc g.pc false (rot := g.pc.toNat ≤ ipc.toNat)) p ∧ k.amask = g.amask ∧ k.pc = g.pc ∧
      k.splits = g.splits ∧ k.halves = g.halves ∧ k.scal = g.scal ∧
      (retireAt d p ipc g.pc false (rot := g.pc.toNat ≤ ipc.toNat)).vregs = d.vregs ∧
      (retireAt d p ipc g.pc false (rot := g.pc.toNat ≤ ipc.toNat)).mem = d.mem := by
  obtain ⟨k, h1, h2, h3, -, ⟨hv, hs, -, -⟩, hm⟩ := retireAt_spec ipc g.pc false (decide (g.pc.toNat ≤ ipc.toNat)) hg hq (by simp)
  have hw := h3 rfl
  unfold WentOn at hw
  refine ⟨k, ?_, h2, by rw [hw], by rw [hw], by rw [hw], by rw [hw], hs, hv, hm⟩
  rw [h1]
  simp only [decide_eq_true_eq]

end

end Sys2Proof.Machine

namespace Sys2Proof
open Machine

/-- Settles O8. -/
theorem statusReads : Obligations.StatusReads := by
  unfold Obligations.StatusReads
  intro s f h d k m t a
  refine ⟨fun ha => writes_of_run d 2 _ _ ha rfl (by decide), fun ha => writes_of_run d 2 _ _ ha rfl (by decide),
    fun ha => writes_of_run d 2 _ _ ha rfl (by decide), fun hn => ?_, fun hn => ?_, fun o n vs ha hv hn => ?_⟩
  · refine falls_of_run _ rfl ?_
    simp only [hn]
  · unfold fltVals
    rw [hn]
  · refine writes_of_run o n vs _ ha ?_ hn
    simp only [hv]

/-- The first part of O9. -/
theorem branchesRule : Claim.BranchesRule := by
  unfold Claim.BranchesRule
  intro s f h c a off o27 tok src on rel reg link taken
  refine ⟨falls_of_run _ rfl rfl, fun ⟨hn, hz⟩ => ?_, fun hz => ?_, fun hn => ?_, fun hn => ?_, fun hn => ?_, fun hn => ?_, fun hn => ?_,
    fun hn => ?_, fun hn => ?_, fun hn => ?_, fun ht => brcTaken_none o27 tok ht, fun ht hm => ?_⟩
  · refine branches_of_run _ rfl ?_
    simp only [suppressed_false hn, hz, Bool.not_false, Bool.and_self, if_true]
    rfl
  · refine falls_of_run _ rfl (if_neg ?_)
    simpa [suppressed] using hz
  · refine branches_of_run _ rfl ?_
    simp only [suppressed_false hn, Bool.false_eq_true, if_false]
  · refine falls_of_run _ rfl ?_
    simp only [suppressed_true hn, if_true]
  · refine links_of_run _ rfl ?_
    simp only [suppressed_false hn, Bool.false_eq_true, if_false]
    rfl
  · refine falls_of_run _ rfl ?_
    simp only [suppressed_true hn, if_true]
  · refine links_of_run _ rfl ?_
    simp only [suppressed_false hn, Bool.false_eq_true, if_false]
    rfl
  · refine falls_of_run _ rfl ?_
    simp only [suppressed_true hn, if_true]
  · refine branches_of_run _ rfl ?_
    simp only [suppressed_false hn, Bool.false_eq_true, if_false]
    rfl
  · refine falls_of_run _ rfl ?_
    simp only [suppressed_true hn, if_true]
  · intro ha hb
    refine branches_of_goTo _ rfl ?_ ha hb
    have ht' : brcTaken s f h c a ≠ 0 := ht
    have hm' : f.amask &&& ~~~(brcTaken s f h c a) = 0 := hm
    dsimp only
    rw [if_neg ht', if_neg (not_not.2 hb), if_pos hm']

/-- The second part of O9. -/
theorem badTargetFaultsRule : Claim.BadTargetFaultsRule := by
  unfold Claim.BadTargetFaultsRule
  intro s f h c a off o27 tok src on rel reg bad
  refine ⟨fun hn => ⟨fun ha hb hp => ?_, fun ha hb hp => ?_, fun ha hb hp => ?_, fun ha hb hp => ?_⟩, fun hn hz ha hb hp => ?_,
    fun he ha hb hp => ?_⟩
  · refine targetFault_latches _ rfl ha ?_ hb hp
    simp only [suppressed_false hn, Bool.false_eq_true, if_false, branchTo_bad hb]
  · refine targetFault_latches _ rfl ha ?_ hb hp
    simp only [suppressed_false hn, Bool.false_eq_true, if_false]
    exact branchTo_bad hb _
  · refine targetFault_latches _ rfl ha ?_ hb hp
    simp only [suppressed_false hn, Bool.false_eq_true, if_false]
    exact branchTo_bad hb _
  · refine targetFault_latches _ rfl ha ?_ hb hp
    simp only [suppressed_false hn, Bool.false_eq_true, if_false]
    exact branchTo_bad hb _
  · refine targetFault_latches _ rfl ha ?_ hb hp
    simp only [suppressed_false hn, hz, Bool.not_false, Bool.and_self, if_true]
    exact branchTo_bad hb _
  · refine targetFault_latches _ rfl ha ?_ hb hp
    simp only [brcTaken_some he, if_false]
    exact if_pos hb

/-- The third part of O9. -/
theorem divergesRule : Claim.DivergesRule := by
  unfold Claim.DivergesRule
  intro s f h c a o27 tok p tk nt tgt takenMinor minor major mpc jpc sp rotated ha ht hn hb h64 hps
  have hf := acts_getF ha
  have hq := (acts_quiet ha).1
  refine ⟨fun k hp hk => ?_, fun hk => ?_⟩
  · obtain ⟨d, hd, hg, hfr, hv, hm, hx, hc⟩ := divide_detaches (tgt := tgt) (tk := tk) (fall := f.pc + 12) (tok := tok) hf hp hk
    have hqd : ctxFlag d (cidOf d (parentPiece p f major jpc sp)) 117 = false := by
      rw [hx, hc]
      exact hq
    have e := execBrc_divides ha ht hb hn h64 hps hd hg
    obtain ⟨g, h1, h2, ham, hpc, hsp, hha, hsc, hvr, hmr⟩ := divided_goes (g := parentPiece p f major jpc sp) f.pc hg hqd
    exact ⟨_, g, _, e.trans (congrArg _ (if_pos rfl)), hmr.trans hm, hvr.trans hv, h1, ham, hpc, hsp, hha, hsc,
      (h2.2.1 _ (pkey_ne (fragCtx_ne hf hk))).trans hfr, rfl, rfl, rfl, rfl, rfl, rfl, rfl, rfl, rfl⟩
  · have hd := divide_defers (tgt := tgt) (tk := tk) (fall := f.pc + 12) (tok := tok) hf hk
    have hg := getF_setF_self { s with nextId := s.nextId + 1 } p { f with
      pc := jpc, amask := major, splits := sp :: f.splits
      halves := f.halves ++ [{ mask := minor, pc := mpc, splits := sp :: f.splits, wait := .none }]
      halfCount := 0, fetched := none, emptyAt := false, xlat := [] }
    have e := execBrc_divides ha ht hb hn h64 hps hd hg
    obtain ⟨g, h1, h2, ham, hpc, hsp, hha, hsc, hvr, hmr⟩ := divided_goes f.pc hg hq
    have hl : ¬ (f.halves ++ [({ mask := minor, pc := mpc, splits := sp :: f.splits, wait := .none } : Half)]).length = f.halves.length := by
      rw [List.length_append, List.length_singleton]
      omega
    refine ⟨_, g, e.trans (congrArg _ (if_neg hl)), ?_, ?_, ?_, ham, hpc, hsp, hha, hsc⟩
    · exact onlyFibre_trans (onlyFibre_trans (onlyFibre_setF _ _ _) h2) (onlyFibre_modF _ _ _)
    · exact (modF_vregs _ _ _).trans hvr
    · exact getF_modF h1 _

/-- Settles O9. -/
theorem jumps : Obligations.Jumps := ⟨branchesRule, badTargetFaultsRule, divergesRule⟩

end Sys2Proof
end

section
/-! PROOFS. Row 0x1_: regions, handlers, breakpoints and gears (R175, R177, R194 to R197, R205 to R208, R215, R218). -/
namespace Sys2Proof.Machine

section
variable {i : Instr} {s : State} {f g : Fibre} {p : Place}

/-! ### Going on with a fibre that the instruction has changed -/

/-- An ordinary instruction that sets its fibre to `g` goes on from there. -/
theorem next_setF (hq : ctxFlag s (cidOf s g) 117 = false) :
    ∃ k, getF (next (setF s s.here g) s.here) s.here = some k ∧ OnlyFibre s (next (setF s s.here g) s.here) s.here ∧
      WentOn g k (g.pc + 12) ∧ SameRegs s (next (setF s s.here g) s.here) g k := by
  obtain ⟨k, h1, h2, h3, h4⟩ := next_spec (s := setF s s.here g) (getF_setF_self s s.here g) hq
  exact ⟨k, h1, onlyFibre_trans (onlyFibre_setF s s.here g) h2, h3, h4⟩

/-- A commit-point instruction that sets its fibre to `g` goes on from there in a new span. -/
theorem nextX_setF (hq : ctxFlag s (cidOf s g) 117 = false) (hc : g.committing = false) :
    ∃ k, getF (nextX (setF s s.here g) s.here) s.here = some k ∧ OnlyFibre s (nextX (setF s s.here g) s.here) s.here ∧
      WentOnX g k (g.pc + 12) ∧ SameRegs s (nextX (setF s s.here g) s.here) g k := by
  obtain ⟨k, h1, h2, h3, h4⟩ := nextX_spec (s := setF s s.here g) (getF_setF_self s s.here g) hq hc
  exact ⟨k, h1, onlyFibre_trans (onlyFibre_setF s s.here g) h2, h3, h4⟩

/-- Whether a debugger attends is as it was after an instruction that changes its own fibre only. -/
theorem ctxFlag_onlyFibre {t : State} (n : Nat) (ho : OnlyFibre s t p) (hg : g.grp = f.grp) :
    ctxFlag t (cidOf t g) n = ctxFlag s (cidOf s f) n := by
  have hs := ho.1
  generalize t.vregs = V, t.emptied = E, t.fibres = F, t.berths = B at hs
  subst hs
  simp only [cidOf, instOf, groupOf, hg]
  rfl

/-- A change of the fibre that leaves no halt due. -/
theorem settleHalt_modF {m : Fibre → Fibre} (hf : getF s p = some f) (hq : ctxFlag s (cidOf s (m f)) 117 = false)
    (he : (m f).dbg.ended = false) : settleHalt (modF s p m) p = setF s p (m f) := by
  have hm : modF s p m = setF s p (m f) := by
    unfold modF
    rw [hf]
  rw [hm]
  exact settleHalt_quiet (getF_setF_self _ _ _) hq he

/-! ### Precise faults (R194, R197) -/

/-- The fibre as a precise fault finds it: nothing fetched, no operation under way. -/
def faulting (f : Fibre) : Fibre := { f with fetched := none, emptyAt := false, xlat := [], op := none, pilot := { f.pilot with met := true } }

/-- With no debugger's halt or step, a precise fault is delivered. -/
theorem raise_delivers {fi : FaultInfo} (hf : getF s p = some f) (hw : f.dbg.want ≠ 1) (hs : stepping s f = false) :
    raise s p fi = deliverFault s p (faulting f) fi := by
  have hs' : stepping s (faulting f) = false := hs
  unfold faulting at hs' ⊢
  unfold raise
  simp only [hf, hs', Bool.or_false, beq_iff_eq, hw, if_false]

/-- A handler that is registered and aligned is entered where no handler is open (R194, R381). -/
theorem deliverFault_enters {fi : FaultInfo} (hh : f.hnd = none) (hk : kernelClass fi.cls = false) (ha : fi.acc ≠ 6)
    (h0 : (handlerOf s f fi.cls).1 ≠ 0) (h4 : (handlerOf s f fi.cls).1.toNat % 4 = 0) :
    deliverFault s p f fi = enterHandler s p f fi (handlerOf s f fi.cls).1 (handlerOf s f fi.cls).2 := by
  unfold deliverFault
  simp only [hh, hk, beq_eq_false_iff_ne.2 ha, beq_eq_false_iff_ne.2 h0, h4, Option.isSome_none, Bool.or_self, Bool.false_eq_true, if_false,
    not_true_eq_false, ne_eq]

/-- What `sget` reads after scalar `k` is set. -/
theorem sget_tset_self {k : Nat} {v : DWord} (hk : k ≠ 0) (hw : tabWf 0 f.scal = true) : sget { f with scal := tset 0 f.scal k v } k = v := by
  unfold sget
  rw [if_neg hk]
  exact tget_tset_self k v hw

theorem sget_tset_ne {k n : Nat} (v : DWord) (hn : n ≠ k) : sget { f with scal := tset 0 f.scal k v } n = sget f n := by
  unfold sget
  split
  · rfl
  · exact tget_tset_ne 0 f.scal v hn

/-- A handler's entry (R194): what the frame keeps, and what the fibre has become. -/
theorem enterHandler_keeps {fi : FaultInfo} {addr arg : DWord} (hw : tabWf 0 f.scal = true) :
    ∃ g h, enterHandler s p f fi addr arg = setF s p g ∧ g.hnd = some h ∧ g.pc = addr ∧ sget g 60 = arg ∧
      (∀ n, n ≠ 60 → sget g n = sget f n) ∧ g.amask = f.amask ∧ g.pilot.on = true ∧ g.regions = f.regions ∧ g.splits = f.splits ∧
      h.s60 = sget f 60 ∧ h.s61 = sget f 61 ∧ h.s62 = sget f 62 ∧ h.s63 = sget f 63 ∧ h.amask = f.amask ∧
      h.resume = resumeAt fi ∧ h.tmask = fi.mask ∧ h.tpc = fi.pc ∧ h.addrs = fi.addrs ∧ h.dst = fi.dst ∧
      h.code = fi.code ∧ h.word = faultWord f fi false := by
  unfold enterHandler
  extract_lets h pil g
  have h60 : sget g 60 = arg := sget_tset_self (f := f) (by decide) hw
  have hne (n : Nat) (hn : n ≠ 60) : sget g n = sget f n := sget_tset_ne (f := f) arg hn
  cases spanClean g
  · exact ⟨g, h, rfl, rfl, rfl, h60, hne, rfl, rfl, rfl, rfl, rfl, rfl, rfl, rfl, rfl, rfl, rfl, rfl, rfl, rfl, rfl, rfl⟩
  · exact ⟨{ g with span := newSpan g }, h, rfl, rfl, rfl, h60, hne, rfl, rfl, rfl, rfl, rfl, rfl, rfl, rfl, rfl, rfl, rfl, rfl, rfl, rfl,
      rfl, rfl⟩

theorem getF_secondary (cid : Nat) (r : Record) (p : Place) : getF (secondary s cid r) p = getF s p := by
  unfold secondary
  split <;> rfl

/-- A fault of a class that no user handler takes freezes the fibre for the resident kernel (R197). -/
theorem toResident_freezes {fi : FaultInfo} (nest : Bool) (hd : f.dual = none) :
    ∃ g, getF (toResident s p f fi nest) p = some g ∧ g.froz = .resident fi nest ∧ g.pc = f.pc := by
  unfold toResident
  simp only [hd, if_true]
  simp only [getF_pass]
  refine getF_postFibre (P := fun g => g.froz = .resident fi nest ∧ g.pc = f.pc) _ _ (fun g es hg => hg)
    ⟨_, (getF_secondary _ _ _).trans (getF_setF_self _ _ _), rfl, rfl⟩

/-! ### Return from a handler (R196) -/

theorem tabWf_leaveHandler (x : Handling) (skip : Bool) (hw : tabWf 0 f.scal = true) : tabWf 0 (leaveHandler f x skip).scal = true :=
  tabWf_tset _ _ (tabWf_tset _ _ (tabWf_tset _ _ (tabWf_tset _ _ hw)))

/-- The scalars that come back from a handler, and those that stay. -/
theorem sget_leaveHandler (x : Handling) (skip : Bool) (hw : tabWf 0 f.scal = true) :
    sget (leaveHandler f x skip) 60 = x.s60 ∧ sget (leaveHandler f x skip) 61 = x.s61 ∧ sget (leaveHandler f x skip) 62 = x.s62 ∧
      sget (leaveHandler f x skip) 63 = x.s63 ∧ ∀ n, n < 60 → sget (leaveHandler f x skip) n = sget f n := by
  have hw60 := tabWf_tset 60 x.s60 hw
  have hw61 := tabWf_tset 61 x.s61 hw60
  have hw62 := tabWf_tset 62 x.s62 hw61
  unfold sget leaveHandler
  refine ⟨?_, ?_, ?_, ?_, fun n hn => ?_⟩
  · simp only [OfNat.ofNat_ne_zero, if_false]
    rw [tget_tset_ne _ _ _ (by decide), tget_tset_ne _ _ _ (by decide), tget_tset_ne _ _ _ (by decide), tget_tset_self _ _ hw]
  · simp only [OfNat.ofNat_ne_zero, if_false]
    rw [tget_tset_ne _ _ _ (by decide), tget_tset_ne _ _ _ (by decide), tget_tset_self _ _ hw60]
  · simp only [OfNat.ofNat_ne_zero, if_false]
    rw [tget_tset_ne _ _ _ (by decide), tget_tset_self _ _ hw61]
  · simp only [OfNat.ofNat_ne_zero, if_false]
    rw [tget_tset_self _ _ hw62]
  · dsimp only
    rw [tget_tset_ne _ _ _ (by omega), tget_tset_ne _ _ _ (by omega), tget_tset_ne _ _ _ (by omega), tget_tset_ne _ _ _ (by omega)]

/-! ### What a commit does with a breakpoint and a gear (R208, R218) -/

/-- A commit with a breakpoint in its span halts the fibre where a debugger attends. -/
theorem afterCommit_halts (edge : Bool) {b : DWord × BitVec 16 × Nat} (hf : getF s p = some f) (hv : vanished f = 0)
    (hb : f.span.brk = some b) (hq : ctxFlag s (cidOf s f) 117 = true) :
    ∃ g, getF (afterCommit s p edge) p = some g ∧ g.dbg.halted = true ∧ g.span = newSpan g ∧ g.pc = f.pc := by
  unfold afterCommit
  simp only [hf, hv, bne_self_eq_false, Bool.and_false, Bool.false_eq_true, if_false, hq, if_true, hb, Option.isSome_some, Bool.true_or]
  simp only [getF_pass, (outside_haltRec _ _ _ _ _ _ _ _).getF, getF_setF_self]
  exact ⟨_, rfl, rfl, rfl, rfl⟩

end

end Sys2Proof.Machine

namespace Sys2Proof
open Machine

/-- Settles O12. -/
theorem regions : Obligations.Regions := by
  unfold Obligations.Regions
  intro s f h id idem
  refine ⟨fun ha ho hl => ?_, fun ha ho hl => ?_, fun ha ho hr => ?_, fun r rs ha ho hr => ?_⟩
  · obtain ⟨g, h1, h2, h3, h4⟩ := nextX_setF (s := s) (g := { f with regions := { id, idem, entry := f.pc + 12 } :: f.regions })
      (acts_quiet ha).1 (show f.committing = false from acts_committing ha ho)
    exact ⟨_, g, (run_acts _ ha).trans (congrArg _ (if_neg (not_le.2 hl))), h1, h2, h4, h3⟩
  · exact (run_acts _ ha).trans (congrArg _ (if_pos hl))
  · refine (run_acts _ ha).trans (congrArg _ ?_)
    simp only [hr] <;> rfl
  · obtain ⟨g, h1, h2, h3, h4⟩ := nextX_setF (s := s) (g := { f with
      regions := rs
      pilot := { f.pilot with forced := f.pilot.forced.bind fun d => if rs.length < d then none else some d } })
      (acts_quiet ha).1 (show f.committing = false from acts_committing ha ho)
    refine ⟨_, g, (run_acts _ ha).trans (congrArg _ ?_), h1, h2, h4, h3⟩
    simp only [hr]

/-- The first part of O13. -/
theorem handlerEntryRule : Claim.HandlerEntryRule := by
  unfold Claim.HandlerEntryRule
  intro s p f fi hf hw hs hh hk ha h0 h4 hwf
  rw [raise_delivers hf hw hs]
  have hd := deliverFault_enters (s := s) (p := p) (f := faulting f) hh hk ha h0 h4
  rw [hd]
  exact enterHandler_keeps (f := faulting f) hwf

/-- The second part of O13. -/
theorem residentFaultFreezesRule : Claim.ResidentFaultFreezesRule := by
  unfold Claim.ResidentFaultFreezesRule
  intro s p f fi hf hw hs hh hk hd
  have hh' : (faulting f).hnd = none := hh
  rw [raise_delivers hf hw hs]
  unfold deliverFault
  simp only [hh', hk, Option.isSome_none, Bool.false_eq_true, if_false, Bool.true_or, if_true]
  exact toResident_freezes (f := faulting f) false hd

/-- Settles O13. -/
theorem takingAnException : Obligations.TakingAnException := ⟨handlerEntryRule, residentFaultFreezesRule⟩

/-- Settles O14. -/
theorem softwareTrap : Obligations.SoftwareTrap := by
  unfold Obligations.SoftwareTrap
  intro s f h code ha ho m
  refine ⟨fun hm _ _ => ?_, fun hm hw hs hh h0 h4 => ?_⟩
  · have hm' : maskOf (passLanes s f s.here h.guard) = 0 := hm
    exact fallsX _ ha ho (if_pos hm')
  · have hm' : ¬ maskOf (passLanes s f s.here h.guard) = 0 := hm
    obtain ⟨-, -, hwf⟩ := acts_tidy ha
    obtain ⟨g, x, hr, hx, hpc, -, -, -, -, -, -, -, -, -, -, -, hres, hm, ht, -, -, hc, -⟩ :=
      handlerEntryRule s s.here f { faultInfo f none with cls := 0x0C, code, mask := m, retry := false, pos := 0 }
        (acts_getF ha) hw hs hh (show kernelClass 0x0C = false by decide) (show (0 : Nat) ≠ 6 by decide) h0 h4 hwf
    refine ⟨_, g, x, (run_acts _ ha).trans (congrArg _ ((if_neg hm').trans hr)), getF_setF_self _ _ _, hx, hpc, hc, hm, ht, hres, rfl, rfl⟩

/-- Settles O15. -/
theorem handlerReturn : Obligations.HandlerReturn := by
  unfold Obligations.HandlerReturn
  intro s f h skip x ha hx
  obtain ⟨-, -, hwf⟩ := acts_tidy ha
  obtain ⟨b60, b61, b62, b63, bl⟩ := sget_leaveHandler (f := f) x skip hwf
  obtain ⟨g, h1, h2, h3, -, ⟨hv, hsc, hfp, -⟩, -⟩ := retireAt_spec (s := setF s s.here (leaveHandler f x skip)) f.pc (leaveHandler f x skip).pc
    false false (getF_setF_self s s.here (leaveHandler f x skip)) (acts_quiet ha).1 (by simp)
  have hw := h3 rfl
  have hg (n : Nat) : sget g n = sget (leaveHandler f x skip) n := by
    unfold sget
    rw [hsc]
  unfold WentOn at hw
  refine ⟨_, g, (run_acts _ ha).trans (congrArg _ ?_), h1, onlyFibre_trans (onlyFibre_setF s s.here _) h2, hv, ?_⟩
  · simp only [hx]
  · refine ⟨by rw [hw]; rfl, by rw [hw]; rfl, by rw [hw]; rfl, by rw [hw]; rfl, (hg _).trans b60, (hg _).trans b61, (hg _).trans b62,
      (hg _).trans b63, fun n hn => (hg n).trans (bl n hn), hfp, by rw [hw]; rfl, by rw [hw]; rfl⟩

/-- The first part of O16. -/
theorem breakpointRule : Claim.BreakpointRule := by
  unfold Claim.BreakpointRule
  intro s f h tag b edge
  refine ⟨fun ha => ?_, fun hf _ hv hb hq => afterCommit_halts edge hf hv hb hq⟩
  obtain ⟨g, h1, h2, h3, h4⟩ := next_setF (s := s) (g := { f with span := { f.span with brk := some (f.pc, tag, f.span.count) } })
    (acts_quiet ha).1
  exact ⟨_, g, run_acts _ ha, h1, h2, h4, h3⟩

/-- The second part of O16. -/
theorem limitAndGearRule : Claim.LimitAndGearRule := by
  unfold Claim.LimitAndGearRule
  intro s f h a on v n
  refine ⟨fun ha => ?_, fun ha => ?_, fun hf _ hv hb hq hfo hh => ?_⟩
  · obtain ⟨g, h1, h2, h3, h4⟩ := next_setF (s := s) (g := { f with span := { f.span with nextLimit := n } }) (acts_quiet ha).1
    refine ⟨_, g, run_acts _ ha, h1, h2, h4, h3, ?_⟩
    unfold WentOn at h3
    rw [h3]
    rfl
  · obtain ⟨g, h1, h2, h3, h4⟩ := next_spec (acts_getF ha) (acts_quiet ha).1
    unfold WentOn at h3
    have e := settleHalt_modF (m := fun g => { g with
        pilot := if on then { f.pilot with on := true, forced := some f.regions.length } else { f.pilot with forced := none } }) h1
      ((ctxFlag_onlyFibre (f := f) 117 h2 (by rw [h3])).trans (acts_quiet ha).1) (by rw [h3])
    refine ⟨_, _, (run_acts _ ha).trans (congrArg _ e), getF_setF_self _ _ _, onlyFibre_trans h2 (onlyFibre_setF _ _ _), h4, ?_⟩
    unfold WentOn
    rw [h3]
  · obtain ⟨g, hg, -, -, -, -, hp⟩ := afterCommit_quiet on hf hv hq
    refine ⟨g, by rw [hg]; exact getF_setF_self _ _ _, ?_⟩
    rw [hp, hfo, hh]
    rfl

/-- Settles O16. -/
theorem spanControls : Obligations.SpanControls := ⟨breakpointRule, limitAndGearRule⟩

end Sys2Proof
end

section
/-! PROOFS. The beginning and the end of fibres (R146, R169, R172). -/
namespace Sys2Proof.Machine

section
variable {i : Instr} {s : State} {f : Fibre} {p : Place}

/-! ### A register is written at a commit point -/

/-- What an operand took depends on the registers alone. -/
theorem wrote_congr {t u : State} {g k : Fibre} {d : Opnd} {n : Nat} {vs : List (Nat × Nat)} (h : Wrote s t p f g d n vs)
    (hv : u.vregs = t.vregs) (he : u.emptied = t.emptied) (hs : k.scal = g.scal) (hx : k.fp4x = g.fp4x) : Wrote s u p f k d n vs := by
  unfold Wrote vget at h ⊢
  unfold sget at h ⊢
  rw [hv, he, hs, hx]
  exact h

/-- A scalar destination changes no vector register, and holds the value afterwards. -/
theorem wrote_scalarDst {t : State} {g : Fibre} {d : Opnd} {v : Nat} (hd : d.isScalarDst = true) (h : Wrote s t p f g d 2 [(0, v)]) :
    t.vregs = s.vregs ∧ ∀ k, d = .s k → k.toNat ≠ 0 → sget g k.toNat = BitVec.ofNat 64 v := by
  cases d with
  | v k => simp [Opnd.isScalarDst, Opnd.isScalar] at hd
  | s k =>
    obtain ⟨-, hv, -, hw, -⟩ := h
    refine ⟨hv, fun j hj hk0 => ?_⟩
    cases hj
    have := hw 0 (by decide)
    simpa [hk0] using this
  | sp r =>
    obtain ⟨-, hv, -⟩ := h
    exact ⟨hv, fun j hj => (by cases hj)⟩

/-- Writing a register and going on at the next word in a new span. -/
theorem write_nextX (d : Opnd) (n : Nat) (vs : List (Nat × Nat)) (log : Bool) (hf : getF s s.here = some f) (hr : tabRises s.fibres = true)
    (hv : tabWf zeroLanes s.vregs = true) (hc : tabWf 0 f.scal = true) (hi : (getReg s injAddr).toNat % 2 = 0)
    (hq : ctxFlag s (cidOf s f) 117 = false) (hn : n ≤ 256) (hm : f.committing = false) :
    ∃ g, getF (nextX (writeReg s s.here d n vs log) s.here) s.here = some g ∧
      OnlyFibre s (nextX (writeReg s s.here d n vs log) s.here) s.here ∧ WentOnX f g (f.pc + 12) ∧
      Wrote s (nextX (writeReg s s.here d n vs log) s.here) s.here f g d n vs := by
  obtain ⟨V, E, C, x, u, hw, -, -, hwr⟩ := writeReg_spec d n vs log hr hf hv hc hn hi
  rw [hw]
  obtain ⟨g, h1, h2, h3, hvr, hsc, hfp, he⟩ := nextX_setF (s := { s with vregs := V, emptied := E })
    (g := { f with scal := C, fp4x := x, span := { f.span with undo := u } }) hq hm
  have ho : OnlyFibre s { s with vregs := V, emptied := E } s.here := ⟨rfl, fun _ _ => rfl, fun _ _ => rfl⟩
  refine ⟨g, h1, onlyFibre_trans ho h2, ?_, wrote_congr hwr hvr he hsc hfp⟩
  obtain ⟨hg, hs⟩ := h3
  exact ⟨hg, hs⟩

/-! ### The registers of a new fibre (R146, R172) -/

theorem tget_foldl_zero {α : Type} [DecidableEq α] {d : α} (keys : List Nat) {t : Tab α} (hw : tabWf d t = true) :
    tabWf d (keys.foldl (fun t k => tset d t k d) t) = true ∧
      ∀ q, tget d (keys.foldl (fun t k => tset d t k d) t) q = if q ∈ keys then d else tget d t q := by
  induction keys generalizing t with
  | nil => exact ⟨hw, fun q => by simp⟩
  | cons k keys ih =>
    obtain ⟨h1, h2⟩ := ih (tabWf_tset k d hw)
    refine ⟨h1, fun q => ?_⟩
    rw [List.foldl_cons, h2 q]
    by_cases hq : q = k
    · subst hq
      simp [tget_tset_self q d hw]
    · simp [hq, tget_tset_ne d t d hq]

/-- The registers of an unshared block. -/
def blockKeys (d : BitVec 1024) (core berth root k : Nat) : List Nat := (List.range 16).map fun r => vkey d core berth root (16 * k + r)

theorem zeroBlock_vregs (d : BitVec 1024) (core berth root k : Nat) : (zeroBlock s d core berth root k).vregs =
    (blockKeys d core berth root k).foldl (fun t k => tset zeroLanes t k zeroLanes) s.vregs := by
  unfold zeroBlock blockKeys
  rw [List.foldl_map]

/-- The unshared blocks of a list are zeroed, and no other register. -/
theorem zeroBlocks_vregs (d : BitVec 1024) (core berth root : Nat) (l : List Nat) {t : State} (hw : tabWf zeroLanes t.vregs = true) :
    tabWf zeroLanes (l.foldl (fun s k => if descKind d k = 1 then zeroBlock s d core berth root k else s) t).vregs = true ∧
      ∀ q, vget (l.foldl (fun s k => if descKind d k = 1 then zeroBlock s d core berth root k else s) t) q =
        if ∃ k ∈ l, descKind d k = 1 ∧ q ∈ blockKeys d core berth root k then zeroLanes else vget t q := by
  induction l generalizing t with
  | nil => exact ⟨hw, fun q => by simp⟩
  | cons k l ih =>
    rw [List.foldl_cons]
    by_cases hk : descKind d k = 1
    · rw [if_pos hk]
      have hz := zeroBlock_vregs (s := t) d core berth root k
      obtain ⟨z1, z2⟩ := tget_foldl_zero (blockKeys d core berth root k) hw
      rw [← hz] at z1
      obtain ⟨h1, h2⟩ := ih z1
      refine ⟨h1, fun q => ?_⟩
      rw [h2 q]
      have e : vget (zeroBlock t d core berth root k) q = if q ∈ blockKeys d core berth root k then zeroLanes else vget t q := by
        unfold vget
        rw [hz]
        exact z2 q
      rw [e]
      by_cases hl : ∃ k ∈ l, descKind d k = 1 ∧ q ∈ blockKeys d core berth root k
      · simp [hl]
      · simp [hl, hk]
    · rw [if_neg hk]
      obtain ⟨h1, h2⟩ := ih hw
      refine ⟨h1, fun q => ?_⟩
      rw [h2 q]
      simp [hk]

/-- Where a fibre starts, its own registers are zero, and the others are as they were (R146). -/
theorem zeroPrivate_spec (d : BitVec 1024) (core berth root : Nat) (hw : tabWf zeroLanes s.vregs = true) :
    tabWf zeroLanes (zeroPrivate s d core berth root).vregs = true ∧
      ∀ q, vget (zeroPrivate s d core berth root) q =
        if ∃ k ∈ List.range 16, descKind d k = 1 ∧ q ∈ blockKeys d core berth root k then zeroLanes else vget s q := by
  unfold zeroPrivate
  extract_lets k t
  exact zeroBlocks_vregs d core berth root (List.range 16) (t := t) hw

/-- Only registers and which of them are full change where a fibre's registers are made ready. -/
def RegsOnly (s t : State) : Prop := t = { s with vregs := t.vregs, emptied := t.emptied }

theorem RegsOnly.trans {t u : State} (h1 : RegsOnly s t) (h2 : RegsOnly t u) : RegsOnly s u := by
  unfold RegsOnly at h1 h2 ⊢
  exact h2.trans (by rw [h1])

theorem regsOnly_mk (V : Tab Lanes) (E : List RegRef) : RegsOnly s { s with vregs := V, emptied := E } := rfl

theorem zeroBlock_regsOnly (d : BitVec 1024) (core berth root k : Nat) : RegsOnly s (zeroBlock s d core berth root k) :=
  regsOnly_mk _ _

theorem zeroPrivate_regsOnly (d : BitVec 1024) (core berth root : Nat) : RegsOnly s (zeroPrivate s d core berth root) := by
  unfold zeroPrivate
  extract_lets k t
  have ht : RegsOnly s t := rfl
  generalize t = t at ht
  induction List.range 16 generalizing t with
  | nil => exact ht
  | cons k l ih =>
    rw [List.foldl_cons]
    refine ih _ ?_
    split
    · exact ht.trans (zeroBlock_regsOnly _ _ _ _ _)
    · exact ht

/-- An unshared register of one fibre is none of another's, and none of a shared block. -/
theorem vkey_ne_of_root {d : BitVec 1024} {core berth r c m n : Nat} (hm : m < 256) (hn : n < 256) (hc : c < 8) (hrc : r ≠ c)
    (hk : descKind d (n / 16) = 1) : vkey d core berth r m ≠ vkey d core berth c n := by
  unfold vkey
  rw [hk]
  split <;> simp only [OfNat.one_ne_ofNat, if_false] <;> omega

theorem mem_blockKeys {d : BitVec 1024} {core berth root k q : Nat} (hk : k < 16) (h : q ∈ blockKeys d core berth root k) :
    ∃ m, m < 256 ∧ m / 16 = k ∧ q = vkey d core berth root m := by
  obtain ⟨r, hr, rfl⟩ := List.mem_map.1 h
  have := List.mem_range.1 hr
  exact ⟨16 * k + r, by omega, by omega, rfl⟩

/-- Making the unshared registers of a fibre zero leaves those of another root. -/
theorem zeroPrivate_others {d : BitVec 1024} {core berth r c m : Nat} (hw : tabWf zeroLanes s.vregs = true) (hm : m < 256) (hc : c < 8)
    (hrc : r ≠ c) : vget (zeroPrivate s d core berth c) (vkey d core berth r m) = vget s (vkey d core berth r m) := by
  rw [(zeroPrivate_spec d core berth c hw).2, if_neg]
  rintro ⟨k, hk, hk1, hq⟩
  obtain ⟨n, hn, hnk, he⟩ := mem_blockKeys (List.mem_range.1 hk) hq
  exact vkey_ne_of_root hm hn hc hrc (hnk ▸ hk1) he

/-- An unshared register is zero where its fibre starts. -/
theorem zeroPrivate_zero {d : BitVec 1024} {core berth c n : Nat} (hw : tabWf zeroLanes s.vregs = true) (hn : n < 256)
    (hk : descKind d (n / 16) = 1) : vget (zeroPrivate s d core berth c) (vkey d core berth c n) = zeroLanes := by
  rw [(zeroPrivate_spec d core berth c hw).2, if_pos]
  refine ⟨n / 16, List.mem_range.2 (by omega), hk, List.mem_map.2 ⟨n % 16, List.mem_range.2 (by omega), ?_⟩⟩
  rw [Nat.div_add_mod]

theorem tget_foldl_tset {α : Type} [DecidableEq α] {d : α} (key : Nat → Nat) (val : Nat → α) (n : Nat) {t : Tab α} (hw : tabWf d t = true)
    (hinj : ∀ i j, i < n → j < n → key i = key j → i = j) :
    tabWf d ((List.range n).foldl (fun t j => tset d t (key j) (val j)) t) = true ∧
      (∀ j, j < n → tget d ((List.range n).foldl (fun t j => tset d t (key j) (val j)) t) (key j) = val j) ∧
      ∀ q, (∀ j, j < n → q ≠ key j) → tget d ((List.range n).foldl (fun t j => tset d t (key j) (val j)) t) q = tget d t q := by
  induction n with
  | zero => exact ⟨hw, fun j hj => absurd hj (Nat.not_lt_zero j), fun _ _ => rfl⟩
  | succ n ih =>
    obtain ⟨h1, h2, h3⟩ := ih fun i j hi hj => hinj i j (by omega) (by omega)
    rw [List.range_succ, List.foldl_append, List.foldl_cons, List.foldl_nil]
    refine ⟨tabWf_tset _ _ h1, fun j hj => ?_, fun q hq => ?_⟩
    · by_cases e : j = n
      · subst e
        exact tget_tset_self _ _ h1
      · rw [tget_tset_ne _ _ _ fun he => e (hinj _ _ hj (by omega) he), h2 j (by omega)]
    · rw [tget_tset_ne _ _ _ (hq n (by omega)), h3 q fun j hj => hq j (by omega)]

theorem spawnRegs_regsOnly (c : Nat) (blk : Opnd) : RegsOnly s (spawnRegs s f c blk) := by
  cases blk <;> rfl

/-- `v0` to `v7` of the new fibre hold the source registers, in its lanes; no other register changes (R172). -/
theorem spawnRegs_spec {c : Nat} (n : BitVec 8) (hw : tabWf zeroLanes s.vregs = true) :
    tabWf zeroLanes (spawnRegs s f c (.v n)).vregs = true ∧
      (∀ j, j < 8 → vget (spawnRegs s f c (.v n)) (vkey (descOf s f) s.here.core s.here.berth c j) =
        mixLanes f.amask (vget s (vkey (descOf s f) s.here.core s.here.berth f.root (n.toNat + j))) zeroLanes) ∧
      ∀ q, (∀ j, j < 8 → q ≠ vkey (descOf s f) s.here.core s.here.berth c j) → vget (spawnRegs s f c (.v n)) q = vget s q :=
  tget_foldl_tset (fun j => vkey (descOf s f) s.here.core s.here.berth c j)
    (fun j => mixLanes f.amask (vget s (vkey (descOf s f) s.here.core s.here.berth f.root (n.toNat + j))) zeroLanes) 8 hw fun i j hi hj he => vkey_inj (k := 0) (by omega) (by omega) (by simpa using he)

/-! ### The fibre that a spawn starts (R146) -/

/-- A fibre at its start, in the redundant pair of its parent. -/
def spawned (s : State) (f : Fibre) (param : DWord) (core c : Nat) (pc : DWord) : Fibre :=
  { startFibre s f.grp param core c pc f.amask with
    dual := f.dual.map fun (x : Dual) =>
      ({ x with fib := c, unc := [], loads := [], nload := 0, cleared := [], results := [], pil := [], mism := 0 } : Dual) }

theorem spawned_starts (param : DWord) (core c : Nat) (pc : DWord) {g : Fibre} (hg : g = spawned s f param core c pc) :
    g.pc = pc ∧ g.amask = f.amask ∧ g.root = c ∧ g.grp = f.grp ∧ sget g 1 = param ∧ (∀ k, k ≠ 1 → sget g k = 0) ∧
      g.fp4x = 0x8000 ∧ g.regions = [] ∧ g.splits = [] ∧ g.halves = [] ∧ g.hnd = none ∧ g.wait = .none ∧ g.froz = .no ∧
      g.pilot.on = false ∧ g.span = newSpan g := by
  subst hg
  refine ⟨rfl, rfl, rfl, rfl, ?_, fun k hk => ?_, rfl, rfl, rfl, rfl, rfl, rfl, rfl, rfl, ?_⟩
  · exact (if_neg one_ne_zero).trans (tget_tset_self 1 _ rfl)
  · unfold sget
    split
    · rfl
    · exact tget_tset_ne 0 [] _ hk
  · unfold spawned
    cases f.dual <;> rfl

/-- The state in which a fibre has been started in context `c`, before the parent goes on (R172). -/
def afterSpawn (s u : State) (f : Fibre) (c : Nat) (pc : DWord) : State :=
  let b := getB u s.here.core s.here.berth
  setB (setF u { s.here with fib := c } (spawned u f (BitVec.ofNat 64 (descParam (descOf s f))) s.here.core c pc)) s.here.core s.here.berth
    { b with exits := tdel b.exits c, ords := tdel b.ords c }

theorem execSpawn_starts {h : Hdr} {d blk : Opnd} {tgt : Src} {c : Nat} (ha : acts (.spawn h d blk tgt) s f = true)
    (hk : ((List.range (descFibres (descOf s f))).find? fun c => freeRoot s s.here.core s.here.berth c) = some c) :
    exec (.spawn h d blk tgt) s = .next (nextX (writeReg (afterSpawn s
      (spawnRegs (zeroPrivate s (descOf s f) s.here.core s.here.berth c) f c blk) f c (srcTarget s f tgt)) s.here d 2 [(0, c)] false) s.here) := by
  refine (run_acts _ ha).trans (congrArg Host.Outcome.next ?_)
  dsimp only
  rw [hk]
  rfl

theorem RegsOnly.here {t : State} (h : RegsOnly s t) : t.here = s.here := by
  unfold RegsOnly at h
  rw [h]

theorem RegsOnly.descOf {t : State} (h : RegsOnly s t) (f : Fibre) : Machine.descOf t f = Machine.descOf s f := by
  unfold RegsOnly at h
  rw [h]
  rfl

/-- The new fibre stands in its context, and the parent as it was. -/
theorem afterSpawn_spec {u : State} {c : Nat} (pc : DWord) (hu : RegsOnly s u) (hf : getF s s.here = some f) (hr : tabRises s.fibres = true)
    (hne : c ≠ s.here.fib) :
    afterSpawn s u f c pc = { s with
      vregs := u.vregs, emptied := u.emptied, fibres := (afterSpawn s u f c pc).fibres, berths := (afterSpawn s u f c pc).berths } ∧
    getF (afterSpawn s u f c pc) { s.here with fib := c } =
      some (spawned u f (BitVec.ofNat 64 (descParam (descOf s f))) s.here.core c pc) ∧
    getF (afterSpawn s u f c pc) s.here = some f ∧ tabRises (afterSpawn s u f c pc).fibres = true := by
  unfold RegsOnly at hu
  have hfu : u.fibres = s.fibres := by rw [hu]
  refine ⟨?_, tfind_tput_self _ _ _, ?_, ?_⟩
  · unfold afterSpawn
    rw [hu]
    rfl
  · refine (tfind_tput_ne _ _ (pkey_ne hne).symm).trans ?_
    rw [hfu]
    exact hf
  · refine rises_tput _ _ ?_
    rw [hfu]
    exact hr

/-- The registers of the two fibres once a `spawn` has copied its block (R172). -/
theorem spawnRegs_zeroPrivate {c : Nat} {blk : Opnd} (hw : tabWf zeroLanes s.vregs = true) (hc : c < 8) (hroot : f.root ≠ c)
    (hal : blk.aligned 8 = true) :
    tabWf zeroLanes (spawnRegs (zeroPrivate s (descOf s f) s.here.core s.here.berth c) f c blk).vregs = true ∧
      (∀ n : BitVec 8, blk = .v n → ∀ j, j < 8 →
        vget (spawnRegs (zeroPrivate s (descOf s f) s.here.core s.here.berth c) f c blk) (vkey (descOf s f) s.here.core s.here.berth c j) =
          mixLanes f.amask (vget s (vkey (descOf s f) s.here.core s.here.berth f.root (n.toNat + j))) zeroLanes) ∧
      ∀ k, 8 ≤ k → k < 256 → descKind (descOf s f) (k / 16) = 1 →
        vget (spawnRegs (zeroPrivate s (descOf s f) s.here.core s.here.berth c) f c blk) (vkey (descOf s f) s.here.core s.here.berth c k) =
          zeroLanes := by
  have hz0 := (zeroPrivate_spec (descOf s f) s.here.core s.here.berth c hw).1
  have hzs := zeroPrivate_regsOnly (s := s) (descOf s f) s.here.core s.here.berth c
  cases blk with
  | v n =>
    obtain ⟨h1, h2, h3⟩ := spawnRegs_spec (f := f) (c := c) n hz0
    rw [hzs.here, hzs.descOf] at h2 h3
    refine ⟨h1, fun m hm j hj => ?_, fun k hk8 hk hk1 => ?_⟩
    · cases hm
      rw [h2 j hj, zeroPrivate_others hw ?_ hc hroot]
      have : n.toNat % 8 = 0 := by simpa [Opnd.aligned] using hal
      have := n.isLt
      omega
    · rw [h3 _ fun j hj he => ?_, zeroPrivate_zero hw hk hk1]
      have := vkey_inj (k := 0) (by omega) (by omega) (show vkey _ _ _ _ (0 + k) = vkey _ _ _ _ (0 + j) by simpa using he)
      omega
  | s n => exact ⟨hz0, fun m hm => (by cases hm), fun k _ hk hk1 => zeroPrivate_zero hw hk hk1⟩
  | sp r => exact ⟨hz0, fun m hm => (by cases hm), fun k _ hk hk1 => zeroPrivate_zero hw hk hk1⟩

/-- A `spawn` that acts has its operands in their places (R172). -/
theorem acts_spawn {h : Hdr} {d blk : Opnd} {tgt : Src} (ha : acts (.spawn h d blk tgt) s f = true) (ho : f.op = none) :
    d.isScalarDst = true ∧ blk.aligned 8 = true := by
  have hw := acts_wf ha ho
  simp only [Instr.wf, Bool.and_eq_true] at hw
  obtain ⟨⟨⟨⟨-, hd⟩, -⟩, hal⟩, -⟩ := hw
  exact ⟨hd, hal⟩

/-- The context that a spawn takes is the root of no fibre. -/
theorem freeRoot_ne_root {c : Nat} (hf : getF s p = some f) (hp : p.fib < 8) (hfree : freeRoot s p.core p.berth c = true) : f.root ≠ c := by
  rintro rfl
  have he : family s p.core p.berth f.root = [] := by
    unfold freeRoot at hfree
    obtain ⟨-, he⟩ := (Bool.and_eq_true _ _).mp hfree
    exact List.isEmpty_iff.1 he
  have hm : p.fib ∈ family s p.core p.berth f.root := by
    unfold family
    refine List.mem_filter.2 ⟨List.mem_range.2 hp, ?_⟩
    have hf' : tfind s.fibres (bkey p.core p.berth * 8 + p.fib) = some f := hf
    simp [hf']
  rw [he] at hm
  cases hm

end

end Sys2Proof.Machine

namespace Sys2Proof
open Machine

/-- The first part of O11. -/
theorem spawnRule : Claim.SpawnRule := by
  unfold Claim.SpawnRule
  intro s f h d blk tgt ha ho
  have hf := acts_getF ha
  obtain ⟨hr, hv, hc⟩ := acts_tidy ha
  obtain ⟨hq, hi⟩ := acts_quiet ha
  have hm := acts_committing ha ho
  cases hk : (List.range (descFibres (descOf s f))).find? fun c => freeRoot s s.here.core s.here.berth c with
  | none =>
    obtain ⟨g, h1, h2, h3, h4⟩ := write_nextX d 2 [(0, 2 ^ 64 - 1)] false hf hr hv hc hi hq (by decide) hm
    refine ⟨_, g, (run_acts _ ha).trans (congrArg _ ?_), h1, h2, h3, h4⟩
    dsimp only
    rw [hk]
  | some c =>
    intro hne hc8 hf8 hr8
    have hroot : f.root ≠ c := freeRoot_ne_root hf hf8 (List.find?_some hk)
    obtain ⟨z, hz⟩ : ∃ z, z = zeroPrivate s (descOf s f) s.here.core s.here.berth c := ⟨_, rfl⟩
    obtain ⟨u, hu⟩ : ∃ u, u = spawnRegs z f c blk := ⟨_, rfl⟩
    have hex := execSpawn_starts ha hk
    rw [← hz, ← hu] at hex
    have hzs : RegsOnly s z := hz ▸ zeroPrivate_regsOnly _ _ _ _
    have hus : RegsOnly s u := hzs.trans (hu ▸ spawnRegs_regsOnly c blk)
    obtain ⟨hd, hal⟩ := acts_spawn ha ho
    obtain ⟨hvu, hregs, hzero⟩ := spawnRegs_zeroPrivate hv hc8 hroot hal
    rw [← hz, ← hu] at hvu hregs hzero
    obtain ⟨hSs, hSq, hSf, hSr⟩ := afterSpawn_spec (srcTarget s f tgt) hus hf hr hne
    obtain ⟨g0, hg0⟩ : ∃ g, g = spawned u f (BitVec.ofNat 64 (descParam (descOf s f))) s.here.core c (srcTarget s f tgt) := ⟨_, rfl⟩
    obtain ⟨S, hS⟩ : ∃ S, S = afterSpawn s u f c (srcTarget s f tgt) := ⟨_, rfl⟩
    rw [← hS] at hex hSs hSq hSf hSr
    rw [← hg0] at hSq
    have hSh : S.here = s.here := by rw [hSs]
    have hSv : S.vregs = u.vregs := by rw [hSs]
    obtain ⟨g, h1, h2, h3, h4⟩ := write_nextX (s := S) (f := f) d 2 [(0, c)] false (by rw [hSh]; exact hSf) hSr (by rw [hSv]; exact hvu) hc
      (by rw [hSs]; exact hi) (by rw [hSs]; exact hq) (by decide) hm
    rw [hSh] at h1 h2 h4
    obtain ⟨hvr, hsg⟩ := wrote_scalarDst hd h4
    generalize nextX (writeReg S s.here d 2 [(0, c)] false) s.here = t at h1 h2 hvr hex
    have hvt (q : Nat) : vget t q = vget u q := by
      unfold vget
      rw [hvr, hSv]
    obtain ⟨gpc, gam, gro, ggr, gs1, gsk, gfp, grg, gsp, gha, ghn, gwa, gfz, gpi, gsn⟩ := spawned_starts _ _ _ _ hg0
    refine ⟨t, g, g0, hex, h1, h3, hsg, (h2.2.1 _ (pkey_ne hne)).trans hSq, gpc, gam, gro, ggr, gs1, ?_, gsk, gfp, grg, gsp, gha, ghn, gwa,
      gfz, gpi, gsn, fun n hn j hj => (hvt _).trans (hregs n hn j hj), fun k hk8 hk hk1 => (hvt _).trans (hzero k hk8 hk hk1)⟩
    rw [h2.1, hSs]

/-- The second part of O11. -/
theorem exitRule : Claim.ExitRule := by
  unfold Claim.ExitRule
  intro s f h ha ho e
  refine ⟨fun he _ _ => ?_, fun he hx => ⟨_, run_acts _ ha, fun hl => ?_, fun hl hh => ?_, ?_⟩⟩
  · exact fallsX _ ha ho (if_pos he)
  · have he' : maskOf (passLanes s f s.here h.guard) ≠ 0 := he
    dsimp only
    rw [if_neg he', hx]
    exact if_pos hl
  · have he' : maskOf (passLanes s f s.here h.guard) ≠ 0 := he
    have hl' : ¬ f.amask &&& ~~~maskOf (passLanes s f s.here h.guard) ≠ 0 := not_not.2 hl
    dsimp only
    rw [if_neg he', hx]
    simp only [commitPieces, List.foldl_nil, hl', hh, Bool.not_true, Bool.false_eq_true, if_false, List.isEmpty_nil, if_true]
  · intro hl hh g
    have he' : maskOf (passLanes s f s.here h.guard) ≠ 0 := he
    have hl' : ¬ f.amask &&& ~~~maskOf (passLanes s f s.here h.guard) ≠ 0 := not_not.2 hl
    have hh' : f.halves.isEmpty = false := by simpa using hh
    dsimp only
    rw [if_neg he', hx]
    simp only [commitPieces, List.foldl_nil, hl', hh', Bool.not_true, Bool.false_eq_true, if_false]
    rfl

/-- Settles O11. -/
theorem fibresBeginAndEnd : Obligations.FibresBeginAndEnd := ⟨spawnRule, exitRule⟩

end Sys2Proof
end

section
/-! PROOFS. A shared block given up, in a berth that is listed twice (R157, R173). -/
namespace Sys2Proof.Machine

/-- A machine whose berth 0 of core 0 is listed twice. The first entry differs from a berth that was never used in its holder of slot
15 alone, which is fibre context 0; in the second every block is held by context 3. The fibre in context 0 stands at a word, and slot 15
of its kernel is shared. -/
def twiceListed : State :=
  let s := State.reset.withFetchWord 96 0x0100_0780_0000_0000_0000_0000
  { s with
    here := { core := 0, berth := 0, fib := 0 }
    sched := []
    insts := s.insts.map fun (e : Nat × Inst) => (e.1, { e.2 with desc := BitVec.ofNat 1024 (e.2.desc.toNat + 2 ^ 446) })
    berths := [(bkey 0 0, { Berth.init with holder := List.replicate 15 8 ++ [0] }), (bkey 0 0, { Berth.init with holder := List.replicate 16 3 })] }

/-- The fibre of `twiceListed`. -/
def twiceListedFibre : Fibre := (getF twiceListed twiceListed.here).getD (startFibre twiceListed 0 0 0 0 0 0)

def plainHdr : Hdr := { guard := .always, sos := false, dist := 15, reuse := 0, trapA := false, trapB := false, trapC := false }

def giveBlock : Instr := .wgive plainHdr 15

/-- `wgive` acts there: the fibre is one piece, the block is its own, and no fibre waits for it. -/
theorem giveBlock_acts : acts giveBlock twiceListed twiceListedFibre = true ∧ blockOk twiceListed twiceListedFibre 15 = true ∧
    twiceListedFibre.root = 0 ∧ (getB twiceListed 0 0).holder = List.replicate 15 8 ++ [0] ∧
    ∀ c : Fin 8, (getF twiceListed { core := 0, berth := 0, fib := c }).all (fun g => g.wait != .wclaim 15) = true := by
  decide +kernel

/-- With the block free the first entry reads as a berth that was never used, and goes; the second is read from then on. -/
theorem giveBlock_uncovers :
    (match exec giveBlock twiceListed with
     | .next t => (getB t 0 0).holder
     | _ => []) = List.replicate 16 3 := by
  decide +kernel

end Sys2Proof.Machine

namespace Sys2Proof
open Machine

/-- Refutes O10, in its clause of a `wgive` that no fibre waits for. Nothing in the statement says that a berth is listed once, and a
table removes an entry that takes the value of an absent one: where the berth is listed again behind it, as in `twiceListed`, that
second entry is read afterwards, and its holders are not those that the clause names. In a table with rising keys the clause has no
such exception. -/
theorem not_fibreControl : ¬ Obligations.FibreControl := by
  unfold Obligations.FibreControl Claim.SharedBlocksRule
  rintro ⟨-, -, -, hshared, -⟩
  obtain ⟨hacts, hok, hroot, hhold, hnone⟩ := giveBlock_acts
  obtain ⟨hgives, -⟩ := hshared twiceListed twiceListedFibre plainHdr 15
  have hlen : (15 : BitVec 4).toNat < (getB twiceListed 0 0).holder.length := by rw [hhold]; decide
  have hk : (getB twiceListed 0 0).holder.getD (15 : BitVec 4).toNat 8 = twiceListedFibre.root := by rw [hhold, hroot]; decide
  obtain ⟨t, g, he, -, -, -, -, hholder⟩ := (hgives hok hlen (by rw [hroot]; decide)).1 hk hacts fun c g hc hg hw => by
    have hc' := hnone ⟨c, hc⟩
    have hg' : getF twiceListed { core := 0, berth := 0, fib := c } = some g := hg
    simp only [hg', Option.all_some, bne_iff_ne, ne_eq] at hc'
    exact hc' hw
  have hu := giveBlock_uncovers
  have he' : exec giveBlock twiceListed = .next t := he
  have hholder' : (getB t 0 0).holder = (getB twiceListed 0 0).holder.set (15 : BitVec 4).toNat 8 := hholder
  simp only [he'] at hu
  rw [hholder', hhold] at hu
  exact absurd hu (by decide)

end Sys2Proof
end

section
/-! PROOFS. Held commands, stores and fences inside a span (R182, R212, R213, R216, R231, R239, R241, R334). -/
namespace Sys2Proof.Machine

section
variable {i : Instr} {s : State} {f : Fibre} {p : Place} {x : MemOp}

/-- The results on their way once a release or an acquire orders those of a piece (R241). -/
def ordered (p : Place) (f : Fibre) (l : List Pend) : List Pend := l.map fun q => if ofPiece p f q then { q with acq := true } else q

theorem modF_eq {m : Fibre → Fibre} (hf : getF s p = some f) : modF s p m = setF s p (m f) := by
  unfold modF
  rw [hf]

theorem markAcq_eq (hf : getF s p = some f) : markAcq s p = { s with pends := ordered p f s.pends } := by
  unfold markAcq
  rw [hf]
  rfl

theorem relStore_eq (o : Order) (hf : getF s p = some f) :
    relStore s p o = { s with pends := if o = .plain then s.pends else ordered p f s.pends } := by
  unfold relStore
  split
  · rfl
  · exact markAcq_eq hf

theorem holdPut_eq (e : HoldEnt) (hf : getF s p = some f) :
    holdPut s p e = setF s p { f with span := { f.span with hold := f.span.hold ++ [e] } } :=
  modF_eq hf

theorem cores_foldl {α : Type} (l : List α) (g : State → α → State) (hg : ∀ t a, ∃ C, g t a = { t with cores := C }) (s : State) :
    ∃ C, l.foldl g s = { s with cores := C } := by
  induction l generalizing s with
  | nil => exact ⟨s.cores, rfl⟩
  | cons a l ih =>
    obtain ⟨C, hC⟩ := hg s a
    obtain ⟨D, hD⟩ := ih { s with cores := C }
    exact ⟨D, by rw [List.foldl_cons, hC, hD]⟩

/-- The entries of translations that an access takes are in its core alone. -/
theorem fillTlb_cores (cid : Nat) (ls : List OpLane) : ∃ C, fillTlb s p f cid ls = { s with cores := C } := by
  unfold fillTlb
  refine cores_foldl _ _ (fun t v => ?_) s
  split
  · split
    · exact ⟨_, rfl⟩
    · exact ⟨t.cores, rfl⟩
  · exact ⟨t.cores, rfl⟩

/-- With no debugger no watch acts. -/
theorem watchLanes_none (rd wr : Bool) (n : Nat) (ls : List (Nat × Nat)) (hq : ctxFlag s (cidOf s f) 117 = false) :
    watchLanes s f rd wr n ls = [] := by
  unfold watchLanes watched
  simp only [hq, Bool.false_and, List.filter_false]

/-- The bytes of a store: of a packed six-bit element those of its elements (R40). -/
theorem dataBytes_eq (r : Opnd) (t : Ty) (l : Nat) : dataBytes s f r t l =
    bytesOf (accessSize t) (if t = .t6x5 then opVal s f s.here r 1 l % 2 ^ 30 else opVal s f s.here r t.regs l) := by
  unfold dataBytes
  split
  · next h => subst h; rfl
  · rfl

/-- An entry goes into the hold, and the fibre goes on; what the access has changed of its core and of the results on their way stays. -/
theorem next_held {C : Tab Core} {P : List Pend} (e : HoldEnt) (hf : getF s s.here = some f) (hq : ctxFlag s (cidOf s f) 117 = false) :
    ∃ t g, next (holdPut { s with cores := C, pends := P } s.here e) s.here = t ∧ getF t s.here = some g ∧ SameRegs s t f g ∧
      OnlyFibre { s with cores := C, pends := P } t s.here ∧
      WentOn { f with span := { f.span with hold := f.span.hold ++ [e] } } g (f.pc + 12) := by
  obtain ⟨g, h1, h2, h3, h4⟩ := next_setF (s := { s with cores := C, pends := P })
    (g := { f with span := { f.span with hold := f.span.hold ++ [e] } }) hq
  exact ⟨_, g, by rw [holdPut_eq (s := { s with cores := C, pends := P }) e hf], h1, h4, h2, h3⟩

/-- A command that is held, as its meaning has it. -/
theorem holds_of_run {o : Order} {e : HoldEnt} (k : State → Fibre → State) (hi : exec i s = run i s k)
    (hk : k s f = next (holdPut (relStore s s.here o) s.here e) s.here) : Claim.Holds i s f o e := by
  intro ha
  have hf := acts_getF ha
  obtain ⟨t, g, h1, h2⟩ := next_held (C := s.cores) (P := if o = .plain then s.pends else ordered s.here f s.pends) e hf (acts_quiet ha).1
  refine ⟨t, g, ?_, h2⟩
  rw [hi, run_acts k ha, hk, relStore_eq o hf, ← h1]

/-! ### Fences (R241) -/

/-- The fibre once loads go to the home, where the order is sc (R241). -/
def fencedBy (o : Order) (f : Fibre) : Fibre := if o = .sc then { f with scf := true } else f

theorem fencedBy_keeps (o : Order) (f : Fibre) : (fencedBy o f).pc = f.pc ∧ (fencedBy o f).grp = f.grp ∧ (fencedBy o f).scal = f.scal ∧
    (fencedBy o f).fp4x = f.fp4x ∧ (fencedBy o f).committing = f.committing := by
  unfold fencedBy
  split <;> exact ⟨rfl, rfl, rfl, rfl, rfl⟩

theorem setSc_eq (o : Order) (hr : tabRises s.fibres = true) (hf : getF s s.here = some f) : setSc s o = setF s s.here (fencedBy o f) := by
  unfold setSc fencedBy
  split
  · exact modF_eq hf
  · exact (setF_same hr hf).symm

theorem cidOf_grp {g : Fibre} (h : g.grp = f.grp) : cidOf s g = cidOf s f := by
  simp only [cidOf, instOf, groupOf, h]

end

end Sys2Proof.Machine

namespace Sys2Proof
open Machine

/-- Settles O19. -/
theorem heldCommands : Obligations.HeldCommands := by
  unfold Obligations.HeldCommands
  intro s f x h d a b col cnt off sc m v t ls pass row at_
  refine ⟨fun hn hb => ?_, fun hn hb => ?_, fun hn hb => ?_, fun hn => ?_, holds_of_run _ rfl rfl, holds_of_run _ rfl rfl, fun hc => ?_⟩
  · refine holds_of_run _ rfl ?_
    obtain ⟨l, ls', hl⟩ := List.exists_cons_of_ne_nil hn
    have hl' : memLanes s f x.h x.r.isV x.base x.off (accessSize x.t) = l :: ls' := hl
    have hb' : scratchBad s f (accessSize x.t) (l :: ls') = [] := hl ▸ hb
    simp only [hl', hb', dataBytes_eq, hl]
  · refine holds_of_run _ rfl ?_
    obtain ⟨l, ls', hl⟩ := List.exists_cons_of_ne_nil hn
    have hl' : passLanes s f s.here h.guard = l :: ls' := hl
    have hb' : rowBad s f (opVal s f s.here a 2 0) 0 (l :: ls') = [] := hl ▸ hb
    simp only [hl', hb', hl] <;> rfl
  · refine holds_of_run _ rfl ?_
    obtain ⟨l, ls', hl⟩ := List.exists_cons_of_ne_nil hn
    have hl' : passLanes s f s.here h.guard = l :: ls' := hl
    have hb' : rowBad s f (opVal s f s.here a 2 0) (32 * cnt.toNat) (l :: ls') = [] := hl ▸ hb
    simp only [hl', hb', hl] <;> rfl
  · refine holds_of_run _ rfl ?_
    obtain ⟨l, ls', hl⟩ := List.exists_cons_of_ne_nil hn
    simp only [hl] <;> rfl
  · refine holds_of_run _ rfl ?_
    exact if_neg (not_not.2 hc)

/-- Settles O20. -/
theorem globalStore : Obligations.GlobalStore := by
  unfold Obligations.GlobalStore
  intro s f x ha hsc ls r hn hm hb
  have hf := acts_getF ha
  have hq := (acts_quiet ha).1
  obtain ⟨C, hC⟩ := fillTlb_cores (s := s) (p := s.here) (f := f) (cidOf s f) r.ok
  obtain ⟨l, ls', hl⟩ := List.exists_cons_of_ne_nil hn
  have hl' : memLanes s f x.h x.r.isV x.base x.off (accessSize x.t) = l :: ls' := hl
  have hr : laneChecks s s.here f (cidOf s f) (accessSize x.t) (globalAsk s f (Ask.store (accessSize x.t))) x.cpol (l :: ls') = r := by
    rw [← hl]
  have hu : relStore { s with cores := C } s.here x.ord =
      { s with cores := C, pends := if x.ord = .plain then s.pends else ordered s.here f s.pends } :=
    relStore_eq (s := { s with cores := C }) x.ord hf
  obtain ⟨t, g, h1, h2, h3, h4, h5⟩ := next_held (C := C) (P := if x.ord = .plain then s.pends else ordered s.here f s.pends)
    (storeEnt f .stG x x.r.isV (r.ok.map (holdLane s f x))) hf hq
  refine ⟨t, g, _, (run_acts _ ha).trans (congrArg _ ?_), h2, by rw [h4.1], h3, h5, rfl, rfl, rfl, ?_⟩
  · rw [if_neg hsc]
    unfold storeG
    simp only [hl', hr, hm, hb, hC, hu, List.isEmpty_cons, List.isEmpty_nil, Bool.not_true, Bool.false_eq_true, if_false]
    rw [watchLanes_none]
    · exact h1
    · rw [holdPut_eq (s := { s with cores := C, pends := if x.ord = .plain then s.pends else ordered s.here f s.pends }) _ hf]
      exact hq
  · unfold storeEnt
    dsimp only
    cases x.r.isV
    · simp only [Bool.false_eq_true, if_false, List.map_map]
      refine List.map_congr_left fun l _ => ?_
      simp only [Function.comp_apply, holdLane, dataBytes_eq]
    · simp only [if_true, List.map_map]
      refine List.map_congr_left fun l _ => ?_
      simp only [Function.comp_apply, holdLane, dataBytes_eq]

/-- Settles O23. -/
theorem fences : Obligations.Fences := by
  unfold Obligations.Fences
  intro s f h o sc ha
  obtain ⟨hr, -, -⟩ := acts_tidy ha
  have hf := acts_getF ha
  have hq := (acts_quiet ha).1
  obtain ⟨hpc, hgrp, hsc, hfp, hcm⟩ := fencedBy_keeps o f
  refine ⟨fun hw => ?_, fun hw ho hd => ?_⟩
  · obtain ⟨g, h1, h2, h3, hv, hs, hx, he⟩ := next_setF (s := { s with pends := ordered s.here f s.pends }) (g := fencedBy o f)
      (by rw [cidOf_grp (s := { s with pends := ordered s.here f s.pends }) hgrp]; exact hq)
    rw [hpc] at h3
    refine ⟨_, g, (run_acts _ ha).trans (congrArg _ ?_), h1, ⟨hv, hs.trans hsc, hx.trans hfp, he⟩, h2, h3⟩
    have hs2 := setSc_eq (s := { s with pends := ordered s.here f s.pends }) o hr hf
    dsimp only
    rw [hw, Bool.not_false, if_pos rfl, markAcq_eq hf, hs2]
  · have hm : mustWaitDrain s o sc = false := by
      unfold mustWaitDrain
      cases hdr : drains o
      · rfl
      · rw [hd hdr]
        rfl
    obtain ⟨g, h1, h2, h3, hv, hs, hx, he⟩ := nextX_setF (s := s) (g := fencedBy o f) (by rw [cidOf_grp hgrp]; exact hq)
      (hcm.trans (acts_committing ha ho))
    rw [hpc] at h3
    refine ⟨_, g, (run_acts _ ha).trans (congrArg _ ?_), h1, h2, ⟨hv, hs.trans hsc, hx.trans hfp, he⟩, h3⟩
    dsimp only
    rw [hw, hm, setSc_eq o hr hf]
    rfl

end Sys2Proof
end

section
/-! PROOFS. Operations at a home: how they begin, and how they end once they are answered (R241, R242, R244, R245, R304, R305, R366). -/
namespace Sys2Proof.Machine

section
variable {i : Instr} {s : State} {f : Fibre} {p : Place}

/-! ### The last step of an operation -/

/-- A fibre in no redundant pair whose operation is answered: its registers written, its span counted, sc noted, it goes on. -/
theorem nextX_ends {V : Tab Lanes} {E : List RegRef} {C : Tab DWord} {x : BitVec 16} {u : List UndoEnt} {n : Nat} {b : Bool} {d : Opnd}
    {k : Nat} {vs : List (Nat × Nat)} (hq : ctxFlag s (cidOf s f) 117 = false) (hc : f.committing = false)
    (hw : Wrote s { s with vregs := V, emptied := E } s.here f { f with scal := C, fp4x := x, span := { f.span with undo := u } } d k vs) :
    ∃ t g, nextX (setF { s with vregs := V, emptied := E } s.here
        { f with scal := C, fp4x := x, span := { f.span with undo := u }, spanNo := n, scf := b }) s.here = t ∧
      getF t s.here = some g ∧ OnlyFibre s t s.here ∧ WentOnX { f with scf := g.scf } g (f.pc + 12) ∧ Wrote s t s.here f g d k vs := by
  obtain ⟨g, h1, h2, h3, hv, hsc, hfp, he⟩ := nextX_setF (s := { s with vregs := V, emptied := E })
    (g := { f with scal := C, fp4x := x, span := { f.span with undo := u }, spanNo := n, scf := b }) hq hc
  have ho : OnlyFibre s { s with vregs := V, emptied := E } s.here := ⟨rfl, fun _ _ => rfl, fun _ _ => rfl⟩
  refine ⟨_, g, rfl, h1, onlyFibre_trans ho h2, ?_, wrote_congr hw hv he hsc hfp⟩
  obtain ⟨hg, hs⟩ := h3
  have hb : g.scf = b := by rw [hg]
  refine ⟨?_, hs⟩
  rw [hb]
  exact hg

/-- An order of sc is noted in a fibre that has been set. -/
theorem setSc_setF (o : Order) (g : Fibre) (hp : s.here = p) : setSc (setF s p g) o = setF s p (fencedBy o g) := by
  subst hp
  unfold setSc fencedBy
  split
  · exact (modF_eq (getF_setF_self _ _ _)).trans (setF_setF _ _ _ _)
  · rfl

/-- An instruction that formed a span of its own, in no redundant pair (R180). -/
theorem ownDone_setF (g : Fibre) (got : List (Nat × Nat)) (aux : Nat) (hd : f.dual = none) (hp : s.here = p) :
    ownDone (setF s p g) f got aux = setF s p { g with spanNo := g.spanNo + 1 } := by
  subst hp
  unfold ownDone
  rw [hd]
  exact (modF_eq (getF_setF_self _ _ _)).trans (setF_setF _ _ _ _)

/-- The result of an answered operation is written, and the fibre goes on in a new span. -/
theorem answer_ends {d : Opnd} {n : Nat} {vs : List (Nat × Nat)} (got : List (Nat × Nat)) (aux : Nat) (o : Order)
    (ha : acts i s f = true) (hd : f.dual = none) (hc : f.committing = false) (hn : n ≤ 256) :
    ∃ t g, nextX (setSc (ownDone (writeReg s s.here d n vs false) f got aux) o) s.here = t ∧ getF t s.here = some g ∧ OnlyFibre s t s.here ∧
      WentOnX { f with scf := g.scf } g (f.pc + 12) ∧ Wrote s t s.here f g d n vs := by
  obtain ⟨hr, hv, hcs⟩ := acts_tidy ha
  obtain ⟨hq, hi⟩ := acts_quiet ha
  obtain ⟨V, E, C, x, u, hw, -, -, hwr⟩ := writeReg_spec d n vs false hr (acts_getF ha) hv hcs hn hi
  rw [hw, ownDone_setF _ got aux hd rfl, setSc_setF _ _ rfl]
  unfold fencedBy
  split
  · exact nextX_ends (n := f.spanNo + 1) (b := true) hq hc hwr
  · exact nextX_ends (n := f.spanNo + 1) (b := f.scf) hq hc hwr

/-- No debugger attends once the result is written. -/
theorem answered_quiet {d : Opnd} {n : Nat} {vs : List (Nat × Nat)} (got : List (Nat × Nat)) (aux : Nat) (o : Order)
    (ha : acts i s f = true) (hd : f.dual = none) (hn : n ≤ 256) :
    ctxFlag (setSc (ownDone (writeReg s s.here d n vs false) f got aux) o)
      (cidOf (setSc (ownDone (writeReg s s.here d n vs false) f got aux) o) f) 117 = false := by
  obtain ⟨hr, hv, hcs⟩ := acts_tidy ha
  obtain ⟨hq, hi⟩ := acts_quiet ha
  obtain ⟨V, E, C, x, u, hw, -, -, -⟩ := writeReg_spec d n vs false hr (acts_getF ha) hv hcs hn hi
  rw [hw, ownDone_setF _ got aux hd rfl, setSc_setF _ _ rfl]
  exact hq

/-- The same where the order of the operation is none of its own. -/
theorem answer_ends_plain {d : Opnd} {n : Nat} {vs : List (Nat × Nat)} (got : List (Nat × Nat)) (aux : Nat)
    (ha : acts i s f = true) (hd : f.dual = none) (hc : f.committing = false) (hn : n ≤ 256) :
    ∃ t g, nextX (ownDone (writeReg s s.here d n vs false) f got aux) s.here = t ∧ getF t s.here = some g ∧ OnlyFibre s t s.here ∧
      WentOnX { f with scf := g.scf } g (f.pc + 12) ∧ Wrote s t s.here f g d n vs :=
  answer_ends got aux .plain ha hd hc hn

/-- An answered operation that writes `d`, as its meaning has it. -/
theorem ends_of_run {d : Opnd} {n : Nat} {vs : List (Nat × Nat)} (k : State → Fibre → State) (got : List (Nat × Nat)) (aux : Nat) (o : Order)
    (hi : exec i s = run i s k) (hk : k s f = nextX (setSc (ownDone (writeReg s s.here d n vs false) f got aux) o) s.here)
    (hd : f.dual = none) (hc : f.committing = false) (hn : n ≤ 256) : Claim.Ends i s f d n vs := by
  intro ha
  obtain ⟨t, g, h1, h2⟩ := answer_ends got aux o ha hd hc hn
  exact ⟨t, g, by rw [hi, run_acts k ha, hk, h1], h2⟩

/-- A list with no values writes nothing. -/
theorem writeReg_nil (d : Opnd) (n : Nat) (log : Bool) : writeReg s p d n [] log = s := by
  unfold writeReg
  cases getF s p <;> rfl

theorem forwarded_none (hd : f.dual = none) : forwarded f = none := by
  unfold forwarded
  rw [hd]
  rfl

theorem isTrailer_none (hd : f.dual = none) : isTrailer f = false := by
  unfold isTrailer
  rw [hd]

/-! ### Atomics (R244, R245) -/

variable {x : AtomOp} {o : OpRun}

/-- The atomics, each a step of its operation at the home. -/
theorem exec_atomic {c : Opnd} (hi : i ∈ [Instr.atomAdd x, .atomSub x, .atomMin x, .atomMax x, .atomAnd x, .atomOr x, .atomXor x, .atomXchg x,
    .atomCas x c, .atomInc x, .atomDec x, .atomFadd x]) :
    ∃ c' major, exec i s = run i s fun s f => atomStep s f x c' major := by
  simp only [List.mem_cons, List.not_mem_nil, or_false] at hi
  rcases hi with rfl | rfl | rfl | rfl | rfl | rfl | rfl | rfl | rfl | rfl | rfl | rfl
  exacts [⟨none, _, rfl⟩, ⟨none, _, rfl⟩, ⟨none, _, rfl⟩, ⟨none, _, rfl⟩, ⟨none, _, rfl⟩, ⟨none, _, rfl⟩, ⟨none, _, rfl⟩, ⟨none, _, rfl⟩,
    ⟨some c, _, rfl⟩, ⟨none, _, rfl⟩, ⟨none, _, rfl⟩, ⟨none, _, rfl⟩]

/-- The last step of an atomic: with every lane answered, the results are written. -/
theorem atomStep_ends (c : Option Opnd) (major : Nat) (h : Claim.Answered s f o) (hm : mustWaitDrain s x.ord x.sc = false)
    (hi : exec i s = run i s fun s f => atomStep s f x c major) :
    Claim.Ends i s f x.d x.t.regs (o.got.map fun e => (e.1, wide1 x.d x.t x.t.regs e.2)) := by
  obtain ⟨ho, hout, hl, hb, hc, hd, -⟩ := h
  intro ha
  obtain ⟨t, g, h1, h2⟩ := answer_ends (d := x.d) (n := x.t.regs) (vs := o.got.map fun e => (e.1, wide1 x.d x.t x.t.regs e.2))
    o.got 0 x.ord ha hd hc (regs_le_256 x.t)
  refine ⟨t, g, ?_, h2⟩
  rw [hi, run_acts _ ha, ← h1]
  congr 1
  unfold atomStep
  simp only [ho, hout, hm, hl, hb, Bool.false_eq_true, if_false]
  unfold atomFin
  simp only [List.any_nil, Bool.false_eq_true, if_false, List.map_nil, pickFault, List.filter_nil, List.isEmpty_nil, if_true, List.foldl_nil,
    Option.map_none]
  rw [watchLanes_none]
  exact answered_quiet _ _ _ ha hd (regs_le_256 x.t)

/-- The first step of an atomic: the fibre holds the operation, with the data of its lanes. -/
theorem atomStep_begins (c : Option Opnd) (major : Nat) (ho : f.op = none) (hd : f.dual = none)
    (hi : exec i s = run i s fun s f => atomStep s f x c major) (ha : acts i s f = true)
    (hm : (laneChecks s s.here f (cidOf s f) (4 * x.t.regs) (Ask.both (4 * x.t.regs)) .normal
      (memLanes s f x.h x.d.isV x.base (.imm 0) 0)).miss = [])
    (hb : (laneChecks s s.here f (cidOf s f) (4 * x.t.regs) (Ask.both (4 * x.t.regs)) .normal
      (memLanes s f x.h x.d.isV x.base (.imm 0) 0)).bad = []) :
    ∃ t g o, exec i s = .next t ∧ getF t s.here = some g ∧ g.op = some o ∧ g.pc = f.pc ∧ t.mem = s.mem ∧
      SameRegs s t f g ∧ t.reqs = s.reqs ∧
      o.lanes.map (fun l => (l.lane, l.pa, l.b)) = (laneChecks s s.here f (cidOf s f) (4 * x.t.regs) (Ask.both (4 * x.t.regs)) .normal
        (memLanes s f x.h x.d.isV x.base (.imm 0) 0)).ok.map fun l => (l.lane, l.pa, opVal s f s.here x.b x.t.regs l.lane) := by
  obtain ⟨C, hC⟩ := fillTlb_cores (s := s) (p := s.here) (f := f) (cidOf s f) (laneChecks s s.here f (cidOf s f) (4 * x.t.regs)
    (Ask.both (4 * x.t.regs)) .normal (memLanes s f x.h x.d.isV x.base (.imm 0) 0)).ok
  have hk := run_acts (fun s f => atomStep s f x c major) ha
  unfold atomStep at hk
  simp only [ho, hm, hb, forwarded_none hd, hC, List.isEmpty_nil, Bool.not_true, Bool.false_eq_true, if_false] at hk
  refine ⟨_, _, _, hi.trans hk, getF_setF_self _ _ _, rfl, rfl, rfl, ⟨rfl, rfl, rfl, rfl⟩, rfl, ?_⟩
  rw [List.map_map]
  rfl

end

end Sys2Proof.Machine

namespace Sys2Proof
open Machine

/-- Settles O24. -/
theorem atomics : Obligations.Atomics := by
  unfold Obligations.Atomics
  intro s f x c o ho hm i hi
  obtain ⟨c', major, he⟩ := exec_atomic (s := s) hi
  exact atomStep_ends c' major ho hm he

/-- Settles O26. -/
theorem atomicBegins : Obligations.AtomicBegins := by
  unfold Obligations.AtomicBegins
  intro s f x c ho hd i hi ha r hm hb
  obtain ⟨c', major, he⟩ := exec_atomic (s := s) hi
  exact atomStep_begins c' major ho hd he ha hm hb

end Sys2Proof
end

section
/-! PROOFS. Ordered loads and stores, promotions, memory barriers and queue operations, once they are answered (R241, R242, R304, R305,
R366). -/
namespace Sys2Proof.Machine

section
variable {i : Instr} {s : State} {f : Fibre} {o : OpRun}

/-! ### One request, answered -/

/-- An operation of one address whose answer is in does what follows the answer. -/
theorem homeOp_answered {h : Hdr} {dst : Option (Opnd × Nat)} {va align size : Nat} {rel : Bool} {sc : Scope} {op : HomeOp}
    {fin : State → Fibre → OpRun → State} {sy : Option Scope} (ha : Claim.Answered s f o) :
    homeOp s f h dst va align size rel sc op fin sy = fin s f o := by
  obtain ⟨ho, hout, hl, hb, -, -, hst⟩ := ha
  have h0 : (o.stage = 0) = False := eq_false (by omega)
  unfold homeOp
  simp only [ho, hout, hl, hb, h0, decide_false, Bool.false_and, Bool.false_eq_true, if_false]

/-- A queue operation that brings no record: its status is written. -/
theorem queueFin_plain (x : QOp) (st : Nat) :
    queueFin s f x [] st = nextX (setSc (ownDone (writeReg s s.here x.d 2 [(0, st)] false) f [] st) .plain) s.here := by
  unfold queueFin
  cases x.blk <;> rfl

/-- A queue operation, answered: as its meaning has it. -/
theorem queue_ends {x : QOp} {k : State → Fibre → State} (ha : Claim.Answered s f o) (hi : exec i s = run i s k)
    (hk : k s f = queueFin s f x [] o.aux) : Claim.Ends i s f x.d 2 [(0, o.aux)] := by
  obtain ⟨-, -, -, -, hc, hd, -⟩ := ha
  exact ends_of_run k [] o.aux .plain hi (hk.trans (queueFin_plain x o.aux)) hd hc (by decide)

/-! ### Ordered loads and stores (R241) -/

variable {x : MemOp}

/-- A change that leaves the fibre as it was leaves the machine as it was. -/
theorem modF_same {p : Place} {m : Fibre → Fibre} (hr : tabRises s.fibres = true) (hf : getF s p = some f) (hm : m f = f) :
    modF s p m = s := by
  rw [modF_eq hf, hm]
  exact setF_same hr hf

/-- In no redundant pair nothing is logged late. -/
theorem logLate_none {p : Place} (d : Opnd) (n : Nat) (hr : tabRises s.fibres = true) (hf : getF s p = some f) (hd : f.dual = none) :
    logLate s p d n = s := by
  have e : ({ f with dual := none } : Fibre) = f := by rw [← hd]
  unfold logLate
  simp only [hf, hd, Option.map_none]
  rw [e]
  exact setF_same hr hf

/-- An ordered load whose lanes are all answered. -/
theorem loadSc_ends (ha : Claim.Answered s f o) (hord : x.ord = .sc) (hw : wide x.sc = true) (hm : mustWaitDrain s x.ord x.sc = false)
    (hn : memLanes s f x.h x.r.isV x.base x.off (accessSize x.t) ≠ []) :
    Claim.Ends (.ldG x) s f x.r x.t.regs (o.got.map fun e => (e.1, loadVal x.t x.r e.2)) := by
  obtain ⟨ho, hout, hl, hb, hc, hd, -⟩ := ha
  intro hact
  have hf := acts_getF hact
  obtain ⟨hr, hv, hcs⟩ := acts_tidy hact
  obtain ⟨hq, hi⟩ := acts_quiet hact
  have hn' : (memLanes s f x.h x.r.isV x.base x.off (accessSize x.t)).isEmpty = false := by simpa using hn
  obtain ⟨V, E, C, fx, u, hwr, -, -, hwrote⟩ := writeReg_spec x.r x.t.regs (o.got.map fun e => (e.1, loadVal x.t x.r e.2)) false hr hf hv hcs
    (regs_le_256 x.t) hi
  have hsc := setSc_setF (s := { s with vregs := V, emptied := E }) x.ord { f with scal := C, fp4x := fx, span := { f.span with undo := u } }
    (rfl : s.here = s.here)
  obtain ⟨t, g, h1, h2⟩ := nextX_ends (n := f.spanNo) (b := true) hq hc hwrote
  refine ⟨t, g, (run_acts _ hact).trans (congrArg _ ?_), h2⟩
  rw [if_pos ⟨hord, hw⟩]
  unfold loadSc
  simp only [ho, hout, hm, hl, hb, hn', hd, Option.isSome_none, List.isEmpty_nil, Bool.not_true, Bool.false_eq_true, if_false]
  rw [modF_same hr hf (by rw [hd, Option.map_none, ← hd]), logLate_none _ _ hr hf hd, hwr, hsc, watchLanes_none]
  · rw [hord]
    exact h1
  · rw [hord]
    exact hq

/-- What a pulse makes of a context's block: nothing (R379). -/
theorem ctxFlag_pulse (cid c n : Nat) : ctxFlag (pulse s cid) c n = ctxFlag s c n := by
  unfold pulse modX
  split
  · next x hx =>
    by_cases hcc : c = cid
    · subst hcc
      have h1 : getX (setX s c { x with silence := 0, fired := false }) c = some { x with silence := 0, fired := false } :=
        tfind_tput_self _ _ _
      unfold ctxFlag
      rw [h1, hx]
      rfl
    · have h1 : getX (setX s cid { x with silence := 0, fired := false }) c = getX s c := tfind_tput_ne _ _ hcc
      unfold ctxFlag
      rw [h1]
  · rfl

/-- An ordered store whose lanes are all answered: progress of its context (R379). -/
theorem storeSc_ends (ha : Claim.Answered s f o) (hord : x.ord = .sc) (hw : wide x.sc = true) (hm : mustWaitDrain s x.ord x.sc = false)
    (hn : memLanes s f x.h x.r.isV x.base x.off (accessSize x.t) ≠ []) (hact : acts (.stG x) s f = true) :
    ∃ t g, exec (.stG x) s = .next t ∧ getF t s.here = some g ∧ OnlyFibre (pulse s (cidOf s f)) t s.here ∧
      WentOnX { f with scf := g.scf } g (f.pc + 12) ∧ SameRegs s t f g := by
  obtain ⟨ho, hout, hl, hb, hc, hd, -⟩ := ha
  have hf := acts_getF hact
  obtain ⟨hr, -, -⟩ := acts_tidy hact
  have hn' : (memLanes s f x.h x.r.isV x.base x.off (accessSize x.t)).isEmpty = false := by simpa using hn
  have hp := outside_pulse s (cidOf s f)
  generalize hP : pulse s (cidOf s f) = P at hp
  have hcid : cidOf P f = cidOf s f := by
    unfold cidOf instOf groupOf getG getI
    rw [hp.groups, hp.insts]
  have hqP : ctxFlag P (cidOf P f) 117 = false := by
    rw [hcid, ← hP, ctxFlag_pulse]
    exact (acts_quiet hact).1
  have hfP : getF P P.here = some f := by
    rw [hp.here, hp.getF]
    exact hf
  have hrP : tabRises P.fibres = true := by
    rw [hp.fibres]
    exact hr
  have hown : ownDone P f [] 0 = setF P P.here { f with spanNo := f.spanNo + 1 } := by
    have h := ownDone_setF (s := P) (f := f) f [] 0 hd rfl
    rwa [setF_same hrP hfP] at h
  obtain ⟨g, h1, h2, h3, hvr, hsc, hfp, he⟩ := nextX_setF (s := P) (g := { f with spanNo := f.spanNo + 1, scf := true }) hqP hc
  rw [hp.here] at h1 h2 hvr he
  generalize ht : nextX (setF P s.here { f with spanNo := f.spanNo + 1, scf := true }) s.here = t at h1 h2 hvr he
  refine ⟨t, g, (run_acts _ hact).trans (congrArg _ ?_), h1, h2, ?_, hvr.trans hp.vregs, hsc, hfp, he.trans hp.emptied⟩
  · rw [if_pos ⟨hord, hw⟩]
    unfold storeSc
    simp only [ho, hout, hm, hl, hb, hn', isTrailer_none hd, hP, Bool.or_self, List.isEmpty_nil, Bool.false_eq_true, if_false, if_true]
    rw [hown, setSc_setF _ _ rfl, hp.here, hord, watchLanes_none]
    · exact ht
    · exact hqP
  · obtain ⟨hg, hs⟩ := h3
    have hb : g.scf = true := by rw [hg]
    refine ⟨?_, hs⟩
    rw [hb]
    exact hg

/-! ### Queue operations that take (R360, R366) -/

/-- The record that a take brings. -/
def taken (o : OpRun) : List (Nat × Nat) := if o.aux = 0 then [] else [(0, o.rcd.toNat)]

theorem exec_take {q : QOp} (hi : i ∈ [Instr.qpop q, .dqPop q, .dqSteal q]) :
    ∃ major, exec i s = run i s fun s f => queueTake s f q major := by
  simp only [List.mem_cons, List.not_mem_nil, or_false] at hi
  rcases hi with rfl | rfl | rfl
  exacts [⟨_, rfl⟩, ⟨_, rfl⟩, ⟨_, rfl⟩]

/-- The block of a take is written with the record that it brought. -/
def blockWritten (s : State) (blk : Option Opnd) (got : List (Nat × Nat)) : State :=
  match blk, got with
  | some d, [(_, v)] => writeReg s s.here d 16 [(0, v)] false
  | _, _ => s

theorem queueFin_eq (x : QOp) (got : List (Nat × Nat)) (st : Nat) : queueFin s f x got st =
    nextX (ownDone (writeReg (blockWritten s x.blk got) (blockWritten s x.blk got).here x.d 2 [(0, st)] false) f got st)
      (blockWritten s x.blk got).here :=
  rfl

/-- What scalar `n` holds once a take has brought its record to block `b`. -/
def takenScalar (f : Fibre) (o : OpRun) (b : Option (BitVec 6)) (n : Nat) : DWord :=
  match b with
  | some b => if o.aux ≠ 0 ∧ b.toNat ≤ n ∧ n < b.toNat + 8 ∧ n ≠ 0 then BitVec.ofNat 64 (o.rcd.toNat / 2 ^ (64 * (n - b.toNat))) else sget f n
  | none => sget f n

/-- The scalars of a block once a take has brought its record, or none. -/
theorem writeReg_taken {b : Option (BitVec 6)} (hr : tabRises s.fibres = true) (hv : tabWf zeroLanes s.vregs = true)
    (hc : tabWf 0 f.scal = true) (hf : getF s s.here = some f) (hi : (getReg s injAddr).toNat % 2 = 0) :
    ∃ E C u, blockWritten s (b.map Opnd.s) (taken o) = setF { s with emptied := E } s.here { f with scal := C, span := { f.span with undo := u } } ∧ tabWf 0 C = true ∧
      ∀ n, sget { f with scal := C } n = takenScalar f o b n := by
  have hsame : s = setF { s with emptied := s.emptied } s.here { f with scal := f.scal, span := { f.span with undo := f.span.undo } } :=
    (setF_same hr hf).symm
  unfold blockWritten taken takenScalar
  cases b with
  | none => exact ⟨s.emptied, f.scal, f.span.undo, hsame, hc, fun n => rfl⟩
  | some b =>
    by_cases h0 : o.aux = 0
    · refine ⟨s.emptied, f.scal, f.span.undo, ?_, hc, fun n => ?_⟩
      · rw [if_pos h0]
        exact hsame
      · simp only [h0, ne_eq, not_true_eq_false, false_and, if_false]
    · obtain ⟨V, E, C, x, u, hw, -, hC, -, hvr, hfp, hin, hout⟩ := writeReg_spec (.s b) 16 [(0, o.rcd.toNat)] false hr hf hv hc (by decide) hi
      have hvr' : V = s.vregs := hvr
      have hfp' : x = f.fp4x := hfp
      subst hvr' hfp'
      refine ⟨E, C, u, ?_, hC, fun n => ?_⟩
      · rw [if_neg h0]
        exact hw
      · dsimp only
        by_cases hn : b.toNat ≤ n ∧ n < b.toNat + 8
        · have h := hin (n - b.toNat) (by show n - b.toNat < 8; omega)
          rw [show b.toNat + (n - b.toNat) = n by omega] at h
          by_cases hz : n = 0
          · subst hz
            simp only [ne_eq, not_true_eq_false, and_false, if_false]
            rfl
          · rw [if_pos ⟨h0, hn.1, hn.2, hz⟩]
            exact h.trans (if_neg hz)
        · rw [if_neg (fun hh => hn ⟨hh.2.1, hh.2.2.1⟩)]
          exact hout n fun j hj => (by have : j < 8 := hj; omega)

/-- A take that is answered: the record, then the status. -/
theorem queueTake_ends {q : QOp} {b : Option (BitVec 6)} {major : Nat} (ha : Claim.Answered s f o) (hsup : suppressed s f q.h = false)
    (hact : acts i s f = true) (hi : exec i s = run i s fun s f => queueTake s f q major) (hdv : q.d.isV = false)
    (hb : q.blk = b.map Opnd.s) :
    ∃ t g, exec i s = .next t ∧ getF t s.here = some g ∧ OnlyFibre s t s.here ∧ WentOnX { f with scf := g.scf } g (f.pc + 12) ∧
      t.vregs = s.vregs ∧ g.fp4x = (if q.d = .sp .fp4x then BitVec.ofNat 16 o.aux else f.fp4x) ∧
      (∀ k, q.d = .s k → sget g k.toNat = if k.toNat = 0 then sget f 0 else BitVec.ofNat 64 o.aux) ∧
      ∀ n, (∀ k, q.d = .s k → n ≠ k.toNat) → sget g n = takenScalar f o b n := by
  obtain ⟨-, -, -, -, hcm, hd, -⟩ := id ha
  obtain ⟨hr, hv, hc⟩ := acts_tidy hact
  obtain ⟨hq, hinj⟩ := acts_quiet hact
  obtain ⟨E, C, u, hblk, hC, hget⟩ := writeReg_taken (o := o) (b := b) hr hv hc (acts_getF hact) hinj
  obtain ⟨f1, hf1⟩ : ∃ f1 : Fibre, f1 = { f with scal := C, span := { f.span with undo := u } } := ⟨_, rfl⟩
  obtain ⟨S, hS⟩ : ∃ S : State, S = setF { s with emptied := E } s.here f1 := ⟨_, rfl⟩
  have hSh : S.here = s.here := by rw [hS]; rfl
  have hSf : getF S S.here = some f1 := by rw [hSh, hS]; exact getF_setF_self _ _ _
  obtain ⟨V, E', C', x, u', hw, -, -, hwr⟩ := writeReg_spec (s := S) q.d 2 [(0, o.aux)] false (by rw [hS]; exact rises_tput _ _ hr) hSf
    (by rw [hS]; exact hv) (by rw [hf1]; exact hC) (by decide) (by rw [hS]; exact hinj)
  obtain ⟨U, hU⟩ : ∃ U : State, U = { S with vregs := V, emptied := E' } := ⟨_, rfl⟩
  have hUh : U.here = s.here := by rw [hU]; exact hSh
  rw [← hU] at hw hwr
  obtain ⟨g, h1, h2, ⟨hg, hsp⟩, hvr, hsc, hfp, -⟩ := nextX_setF (s := U)
    (g := { f1 with scal := C', fp4x := x, span := { f1.span with undo := u' }, spanNo := f1.spanNo + 1 }) (by rw [hU, hS, hf1]; exact hq)
    (by rw [hf1]; exact hcm)
  rw [hUh] at h1 h2 hvr
  have hex : exec i s = .next (nextX (setF U s.here
      { f1 with scal := C', fp4x := x, span := { f1.span with undo := u' }, spanNo := f1.spanNo + 1 }) s.here) := by
    rw [hi, run_acts _ hact]
    refine congrArg Host.Outcome.next ?_
    unfold queueTake
    simp only [hsup, forwarded_none hd, homeOp_answered ha, Bool.false_eq_true, if_false]
    rw [show (if o.aux = 0 then [] else [(0, o.rcd.toNat)]) = taken o from rfl, queueFin_eq, hb, hblk, ← hf1, ← hS, hw,
      ownDone_setF _ _ _ hd (hUh.trans hSh.symm), hSh]
  have hon : OnlyFibre s U s.here := by
    rw [hU, hS]
    exact ⟨rfl, fun j hj => tfind_tput_ne _ _ hj, fun _ _ => rfl⟩
  have hgs (n : Nat) : sget g n = sget { f1 with scal := C', fp4x := x, span := { f1.span with undo := u' } } n := by
    unfold sget
    rw [hsc]
  have hf1s (n : Nat) : sget f1 n = sget { f with scal := C } n := by rw [hf1]; rfl
  have hwent : WentOnX { f with scf := g.scf } g (f.pc + 12) := by
    have hb : g.scf = f.scf := by rw [hg, hf1]
    refine ⟨?_, hsp⟩
    rw [hb]
    rw [hf1] at hg
    exact hg
  refine ⟨_, g, hex, h1, onlyFibre_trans hon h2, hwent, ?_⟩
  cases hqd : q.d with
  | v k => rw [hqd] at hdv; cases hdv
  | s k =>
    rw [hqd] at hwr
    obtain ⟨-, hvr', hfp', hin, hout⟩ := hwr
    refine ⟨hvr.trans (hvr'.trans (by rw [hS]; rfl)), ?_, fun j hj => ?_, fun n hn => ?_⟩
    · rw [hfp]
      exact hfp'.trans (by rw [hf1]; rfl)
    · cases hj
      rw [hgs]
      have h := hin 0 (by decide)
      simp only [Nat.add_zero, Nat.mul_zero, Nat.pow_zero, Nat.div_one] at h
      refine h.trans ?_
      split
      · rfl
      · rfl
    · rw [hgs, ← hget n, ← hf1s]
      exact hout n fun j hj => (by
        have hj0 : j = 0 := by have : j < 1 := hj; omega
        rw [hj0]
        exact hn k rfl)
  | sp r =>
    rw [hqd] at hwr
    obtain ⟨-, hvr', hsc', hfp'⟩ := hwr
    refine ⟨hvr.trans (hvr'.trans (by rw [hS]; rfl)), ?_, fun j hj => (by cases hj), fun n _ => ?_⟩
    · rw [hfp]
      refine hfp'.trans ?_
      rw [hf1]
      cases r <;> rfl
    · rw [hgs, ← hget n, ← hf1s]
      unfold sget
      rw [hsc']


end

end Sys2Proof.Machine

namespace Sys2Proof
open Machine

/-- Settles O25. -/
theorem homeOperations : Obligations.HomeOperations := by
  unfold Obligations.HomeOperations
  intro s f x q h sc d a b o ha ls
  obtain ⟨-, -, -, -, hc, hd, -⟩ := id ha
  have hfw := forwarded_none hd
  refine ⟨fun hord hw hm hn => ⟨loadSc_ends ha hord hw hm hn, storeSc_ends ha hord hw hm hn⟩, ?_, ?_, ?_, fun hne => ?_, fun hsup =>
    ⟨?_, ?_, fun hdep => ?_, ?_⟩⟩
  · obtain ⟨ho, hout, -, hb, -⟩ := id ha
    refine ends_of_run _ [] o.aux .plain rfl ?_ hd hc (by decide)
    simp only [ho, hout, hb, List.isEmpty_nil, Bool.not_true, Bool.false_eq_true, if_false]
    rfl
  · refine ends_of_run _ [] 0 .plain rfl ?_ hd hc (by decide)
    simp only [hfw, homeOp_answered ha, writeReg_nil]
    rfl
  · refine ends_of_run _ [] o.aux .plain rfl ?_ hd hc (by decide)
    simp only [hfw, homeOp_answered ha]
    rfl
  · refine ends_of_run _ [] 0 .plain rfl ?_ hd hc (by decide)
    simp only [hfw, homeOp_answered ha, writeReg_nil, hne, ne_eq, not_false_eq_true, if_true]
    rfl
  · refine queue_ends ha rfl ?_
    simp only [hsup, hfw, Bool.false_eq_true, if_false]
    unfold queuePush
    exact homeOp_answered ha
  · refine queue_ends ha rfl ?_
    simp only [hsup, hfw, homeOp_answered ha, Bool.false_eq_true, if_false]
  · refine queue_ends ha rfl ?_
    simp only [hsup, hfw, Bool.false_eq_true, if_false]
    by_cases hr : recDep (blockRec f q.blk) = 0 ∨ recBad 0xC6 (blockRec f q.blk) = true
    · rw [if_pos hr]
      unfold queuePush
      exact homeOp_answered ha
    · rw [if_neg hr, homeOp_answered ha]
      exact if_pos (hdep.resolve_left fun h0 => hr (.inl h0))
  · intro i hi hact hdv b hb
    obtain ⟨major, he⟩ := exec_take (s := s) hi
    exact queueTake_ends ha hsup hact he hdv hb

end Sys2Proof
end

section
/-! PROOFS. Results of long latency: sent, and written back (R95, R117, R119, R137, R139, R151, R211, R217, R238, R333). -/
namespace Sys2Proof.Machine

section
variable {i : Instr} {s : State} {f : Fibre} {p : Place}

/-! ### A result goes out (R151) -/

/-- The result that an instruction sends. -/
def pendOf (s : State) (f : Fibre) (d : Opnd) (n : Nat) (t : Ty) (vs : List (Nat × Nat)) : Pend :=
  { id := s.nextId, core := s.here.core, berth := s.here.berth, fib := s.here.fib, root := f.root, pc := f.pc, pos := f.span.count, dst := d
    refs := refsOf s f s.here d n, mask := maskOf (vs.map Prod.fst), scalar := !d.isV, ty := t, size := 4 * n, lanes := [], asked := []
    pilot := f.pilot.on, scratch := false, vals := vs, bad := [], acq := false, wat := [], post := none, seq := 0 }

/-- The machine with one more result on its way, due to be written back. -/
def awaiting (s : State) (q : Pend) : State :=
  { s with pends := s.pends ++ [q], nextId := s.nextId + 1, agenda := s.agenda ++ [.resultWriteback s.nextId] }

theorem sendPend_eq {d : Opnd} {n : Nat} {t : Ty} {vs : List (Nat × Nat)} (hr : tabRises s.fibres = true) (hf : getF s s.here = some f) :
    ∃ u, sendPend s f d n t vs =
      (pendOf s f d n t vs, setF { s with nextId := s.nextId + 1 } s.here { f with span := { f.span with undo := u } }) := by
  obtain ⟨u, hu⟩ := logOpnd_spec d n hr hf
  refine ⟨u, ?_⟩
  unfold sendPend
  dsimp only
  rw [hu]
  rfl

/-- A result that is on its way: the fibre goes on at the next word. -/
theorem awaiting_next {u : List UndoEnt} (q : Pend) (hid : q.id = s.nextId) (hq : ctxFlag s (cidOf s f) 117 = false) :
    ∃ t g, next (addPend (q, setF { s with nextId := s.nextId + 1 } s.here { f with span := { f.span with undo := u } })) s.here = t ∧
      getF t s.here = some g ∧ WentOn f g (f.pc + 12) ∧ SameRegs s t f g ∧
      t = { s with
        fibres := t.fibres, berths := t.berths, pends := s.pends ++ [q], nextId := s.nextId + 1
        agenda := s.agenda ++ [.resultWriteback s.nextId] } := by
  obtain ⟨g, h1, h2, h3, hv, hs, hx, he⟩ := next_setF (s := awaiting s q) (g := { f with span := { f.span with undo := u } }) hq
  have ha : addPend (q, setF { s with nextId := s.nextId + 1 } s.here { f with span := { f.span with undo := u } }) =
      setF (awaiting s q) s.here { f with span := { f.span with undo := u } } := by
    unfold addPend awaiting
    rw [← hid]
    rfl
  refine ⟨_, g, congrArg (next · s.here) ha, h1, h3, ⟨hv, hs, hx, he⟩, ?_⟩
  have ho := h2.1
  rw [hv, he] at ho
  exact ho

/-- An instruction that sends a result, as its meaning has it: what is on its way, and that the fibre goes on. -/
theorem sent_of_run {d : Opnd} {n : Nat} {t : Ty} {vs : List (Nat × Nat)} (k : State → Fibre → State) (m : Pend → Pend)
    (hi : exec i s = run i s k) (ha : acts i s f = true)
    (hk : k s f = next (addPend (m (sendPend s f d n t vs).1, (sendPend s f d n t vs).2)) s.here) (hm : (m (pendOf s f d n t vs)).id = s.nextId) :
    ∃ u g q, exec i s = .next u ∧ getF u s.here = some g ∧ WentOn f g (f.pc + 12) ∧ SameRegs s u f g ∧
      u = { s with
        fibres := u.fibres, berths := u.berths, pends := s.pends ++ [q], nextId := s.nextId + 1
        agenda := s.agenda ++ [.resultWriteback s.nextId] } ∧ q = m (pendOf s f d n t vs) := by
  have hf := acts_getF ha
  obtain ⟨hr, -, -⟩ := acts_tidy ha
  obtain ⟨u, hu⟩ := sendPend_eq (d := d) (n := n) (t := t) (vs := vs) hr hf
  obtain ⟨w, g, h1, h2, h3, h4, h5⟩ := awaiting_next (u := u) (m (pendOf s f d n t vs)) hm (acts_quiet ha).1
  refine ⟨w, g, _, ?_, h2, h3, h4, h5, rfl⟩
  rw [hi, run_acts k ha, hk, hu, ← h1]

/-- An instruction that sends the values `vs`, as its meaning has it. -/
theorem sends_of_run {d : Opnd} {n : Nat} {t : Ty} {vs : List (Nat × Nat)} (k : State → Fibre → State) (m : Pend → Pend)
    (hi : exec i s = run i s k) (hk : vs ≠ [] → k s f = next (addPend (m (sendPend s f d n t vs).1, (sendPend s f d n t vs).2)) s.here)
    (hm : ∀ q, (m q).id = q.id ∧ (m q).dst = q.dst ∧ (m q).refs = q.refs ∧ (m q).pc = q.pc ∧ (m q).vals = q.vals ∧ (m q).lanes = q.lanes ∧
      (m q).bad = q.bad) : Claim.Sends i s f d n vs := by
  intro ha hn
  obtain ⟨m1, m2, m3, m4, m5, m6, m7⟩ := hm (pendOf s f d n t vs)
  obtain ⟨w, g, q, h1, h2, h3, h4, h5, rfl⟩ := sent_of_run k m hi ha (hk hn) m1
  exact ⟨w, g, _, h1, h2, h3, h4, h5, m1, m2, m3, m4, m5, m6, m7⟩

/-- An instruction whose long-latency result is its values. -/
theorem sends_of_longResult {d : Opnd} {n : Nat} {t : Ty} {h : Hdr} {v : State → Fibre → Nat → Nat}
    (hi : exec i s = run i s fun s f => longResult s f h d n t (v s f)) : Claim.Sends i s f d n (laneVals s f h d (v s f)) := by
  refine sends_of_run (t := t) _ id hi (fun hn => ?_) fun q => ⟨rfl, rfl, rfl, rfl, rfl, rfl, rfl⟩
  obtain ⟨e, l, hl⟩ := List.exists_cons_of_ne_nil hn
  unfold longResult
  simp only [hl]
  rfl

/-- The same for one whose result may be invalid: the fault follows the result (R126). -/
theorem sends_of_flong {d : Opnd} {t : Ty} {h : Hdr} {v : State → Fibre → Nat → Nat × Bool}
    (hi : exec i s = run i s fun s f => flong s f h d t (v s f)) : Claim.Sends i s f d 1 (laneVals s f h d fun l => (v s f l).1) := by
  refine sends_of_run (t := t) _ (fun q => { q with
    post := if descFpInv (descOf s f) && !(marked s f h d (v s f)).isEmpty then some (0x0A, maskOf (marked s f h d (v s f))) else none }) hi
    (fun hn => ?_) fun q => ⟨rfl, rfl, rfl, rfl, rfl, rfl, rfl⟩
  obtain ⟨e, l, hl⟩ := List.exists_cons_of_ne_nil hn
  unfold flong
  simp only [hl]

/-! ### A result is written back (R151) -/

/-- A fibre in no redundant pair stands at `p`. -/
def Unpaired (s : State) (p : Place) : Prop := tabRises s.fibres = true ∧ ∃ g, getF s p = some g ∧ g.dual = none

/-- Putting a value into a register changes the registers of a fibre, and its redundant pair in nothing. -/
theorem unpaired_putRef (r : RegRef) (vs : List (Nat × Nat)) (sh : Nat) (h : Unpaired s p) : Unpaired (putRef s r vs sh) p := by
  have hput (k : Nat) (g g' : Fibre) (hk : tfind s.fibres k = some g) (hd : g'.dual = g.dual) :
      Unpaired { s with fibres := tput s.fibres k g' } p := by
    obtain ⟨hr, f, hf, hfd⟩ := h
    refine ⟨rises_tput _ _ hr, ?_⟩
    by_cases hkp : pkey p = k
    · subst hkp
      have hfg : some f = some g := hf.symm.trans hk
      injection hfg with hfg
      exact ⟨g', tfind_tput_self _ _ _, hd.trans (hfg ▸ hfd)⟩
    · exact ⟨f, (tfind_tput_ne _ _ hkp).trans hf, hfd⟩
  unfold putRef
  split
  · exact h
  · split
    · next hk => exact hput _ _ _ hk rfl
    · exact h
  · split
    · next hk => exact hput _ _ _ hk rfl
    · exact h

theorem unpaired_putRefs (o : Opnd) (n : Nat) (rs : List RegRef) (vs : List (Nat × Nat)) (h : Unpaired s p) :
    Unpaired (putRefs s o n rs vs) p := by
  unfold putRefs
  generalize rs.zip (refShifts o n) = l
  have h0 : Unpaired { s with emptied := s.emptied.filter fun r => !rs.contains r } p := h
  generalize ({ s with emptied := s.emptied.filter fun r => !rs.contains r } : State) = t at h0
  induction l generalizing t with
  | nil => exact h0
  | cons e l ih => exact ih _ (unpaired_putRef _ _ _ h0)

theorem putRef_pends (r : RegRef) (vs : List (Nat × Nat)) (sh : Nat) : (putRef s r vs sh).pends = s.pends := by
  unfold putRef
  split
  · rfl
  · split <;> rfl
  · split <;> rfl

theorem putRefs_pends (o : Opnd) (n : Nat) (rs : List RegRef) (vs : List (Nat × Nat)) : (putRefs s o n rs vs).pends = s.pends := by
  unfold putRefs
  generalize rs.zip (refShifts o n) = l
  have h0 : ({ s with emptied := s.emptied.filter fun r => !rs.contains r } : State).pends = s.pends := rfl
  generalize ({ s with emptied := s.emptied.filter fun r => !rs.contains r } : State) = t at h0
  induction l generalizing t with
  | nil => exact h0
  | cons e l ih =>
    exact ih _ ((putRef_pends _ _ _).trans h0)

/-- Fibres that become ready wait from now on; nothing else changes (R149). -/
theorem readied_keeps (s t : State) (core berth : Nat) : (readied s t core berth).pends = t.pends ∧
    (readied s t core berth).vregs = t.vregs ∧ (readied s t core berth).emptied = t.emptied := by
  unfold readied
  have hg (u : State) (c : Nat) : ∃ F, (if readyFib t { core, berth, fib := c } && !readyFib s { core, berth, fib := c } then
      modF u { core, berth, fib := c } fun f => { f with readySince := cycOf t core } else u) = { u with fibres := F } := by
    split
    · unfold modF
      split
      · exact ⟨_, rfl⟩
      · exact ⟨u.fibres, rfl⟩
    · exact ⟨u.fibres, rfl⟩
  have hl (l : List Nat) (u : State) : ∃ F, l.foldl (fun u c => if readyFib t { core, berth, fib := c } &&
      !readyFib s { core, berth, fib := c } then modF u { core, berth, fib := c } fun f => { f with readySince := cycOf t core } else u) u =
      { u with fibres := F } := by
    induction l generalizing u with
    | nil => exact ⟨u.fibres, rfl⟩
    | cons c l ih =>
      obtain ⟨F, hF⟩ := hg u c
      obtain ⟨G, hG⟩ := ih { u with fibres := F }
      exact ⟨G, by rw [List.foldl_cons, hF, hG]⟩
  obtain ⟨F, hF⟩ := hl (List.range 8) t
  dsimp only
  rw [hF]
  exact ⟨rfl, rfl, rfl⟩

/-- Of a complete result with no failure the registers are written, and nothing else. -/
theorem writeback_plain {q : Pend} (hu : Unpaired s p) (hi : (getReg s injAddr).toNat % 2 = 0) (hb : q.bad = []) (hpo : q.post = none)
    (hw : q.wat = []) : writeback s q p f = putRefs s q.dst (pendRegs q) q.refs (q.vals.map fun e => (e.1, loadVal q.ty q.dst e.2)) := by
  obtain ⟨hr, g, hg, hd⟩ := unpaired_putRefs (p := p) q.dst (pendRegs q) q.refs (q.vals.map fun e => (e.1, loadVal q.ty q.dst e.2)) hu
  have hpick : pickFault q.bad = none := by rw [hb]; rfl
  unfold writeback
  simp only [hpick, inject_off p f q.dst (pendRegs q) _ hi, hpo, hw]
  exact modF_same hr hg (by rw [hd, Option.map_none, ← hd])

/-- The lanes of an `ld.x` are all filled at once. -/
theorem performLane_scratch {q : Pend} (hs : q.scratch = true) (ls : List OpLane) (r : Perform) :
    ls.foldl (performLane f q) r = { r with vals := r.vals ++ ls.map fun l => (l.lane, scratchSeen r.s f l q.size) } := by
  induction ls generalizing r with
  | nil => simp
  | cons l ls ih =>
    have e : performLane f q r l = { r with vals := r.vals ++ [(l.lane, scratchSeen r.s f l q.size)] } := by
      unfold performLane
      simp only [hs, if_true]
    rw [List.foldl_cons, e, ih]
    simp

/-- What a result with only bytes of the scratchpad to read, or with nothing to read, is once it is performed. -/
theorem performLoad_scratch {q : Pend} (ha : q.acc = false) (hb : q.bad = []) (hs : q.scratch = true ∨ q.lanes = []) :
    performLoad s p f q = ({ q with lanes := [], vals := q.vals ++ q.lanes.map fun l => (l.lane, scratchSeen s f l q.size) }, s) := by
  unfold performLoad performLoad.readRegs
  rcases hs with hs | hl
  · simp only [ha, hs, performLane_scratch hs, Bool.not_true, Bool.false_and, Bool.false_eq_true, if_false, Bool.true_or, if_true,
      List.nil_append]
  · have hc : countSpin s p [] true = s := by
      unfold countSpin
      cases getF s p <;> rfl
    simp only [ha, hb, hl, List.any_nil, List.foldl_nil, List.all_nil, List.isEmpty_nil, List.map_nil, hc, Bool.and_false, Bool.false_and,
      Bool.not_true, Bool.or_false, Bool.false_eq_true, if_false, ite_self]

/-- RESULT_WRITEBACK of a result that is complete, or of which only bytes of the scratchpad are to be read. -/
theorem execResultWriteback_plain {q : Pend} (hq : s.pends.find? (fun x => x.id == q.id) = some q) (hp : pendOwner s q = some p)
    (hf : getF s p = some f) (hu : Unpaired { s with pends := s.pends.filter fun x => x.id != q.id } p)
    (hi : (getReg s injAddr).toNat % 2 = 0) (ha : q.acc = false) (hb : q.bad = []) (hpo : q.post = none) (hw : q.wat = [])
    (hs : q.scratch = true ∨ q.lanes = []) {r : State}
    (hr : r = readied s (putRefs { s with pends := s.pends.filter fun x => x.id != q.id } q.dst (pendRegs q) q.refs
      ((q.vals ++ q.lanes.map fun l => (l.lane, scratchSeen s f l q.size)).map fun e => (e.1, loadVal q.ty q.dst e.2))) p.core p.berth) :
    exec (.resultWriteback q.id) s = .next (if f.dbg.ended || f.dbg.want == 1 then settleHalt r p else r) := by
  have hwb := writeback_plain (s := { s with pends := s.pends.filter fun x => x.id != q.id }) (f := f)
    (q := { q with lanes := [], vals := q.vals ++ q.lanes.map fun l => (l.lane, scratchSeen s f l q.size) }) hu hi hb hpo hw
  change execResultWriteback q.id s = _
  unfold execResultWriteback
  simp only [hq, hp, hf, performLoad_scratch ha hb hs, hwb, List.isEmpty_nil, if_true]
  rw [hr]
  rfl

/-- One element of an `accld` is read (R324, R333). -/
theorem performLoad_acc {q : Pend} {g : Group} {l : OpLane} {ls : List OpLane} (ha : q.acc = true) (hg : groupOf s f = some g)
    (hl : q.lanes = l :: ls) : performLoad s p f q = ({ q with
      lanes := ls
      vals := (q.vals.filter fun e => e.1 != l.lane) ++ [(l.lane, ((q.vals.find? fun e => e.1 == l.lane).map Prod.snd).getD 0 +
        (if l.fwd = [] then (accGet g l.va l.pa).toNat else natOf (l.fwd.filterMap id)) * 2 ^ (32 * l.b))] }, s) := by
  unfold performLoad performElem
  simp only [ha, hl, hg, if_true, List.isEmpty_iff]

end

end Sys2Proof.Machine

namespace Sys2Proof
open Machine

/-- The first part of O17. -/
theorem longLatencyRule : Claim.LongLatencyRule := by
  unfold Claim.LongLatencyRule
  intro s f x y r op h d a m col cnt t off A sends j ls row pass els
  refine ⟨fun ha hp hc => ?_, ?_, ?_, ?_, ?_, ?_, ?_, ?_, ?_, ?_, ?_, ?_, fun he => ?_, fun hord hb hn hss ha => ?_, fun hn hb hsa ha => ?_⟩
  · refine (run_acts _ ha).trans (congrArg _ ?_)
    dsimp only
    rw [hp, if_neg Bool.false_ne_true]
    exact if_neg (not_not.2 hc)
  · exact sends_of_longResult (v := fun s f _ => if f.amask.getLsbD (valB2 s f y 1 0 % 32) then valA2 s f y y.t.regs (valB2 s f y 1 0 % 32) else 0) rfl
  · exact sends_of_longResult (v := fun s f _ => reduce op x.t ((passLanes s f s.here x.h.guard).map fun l => valA1 s f x x.t.regs l)) rfl
  · exact sends_of_flong (v := fun s f l => sfunF .rcp x.t r (nanLane x.d l) f.pc (valA1 s f x 1 l)) rfl
  · exact sends_of_flong (v := fun s f l => sfunF .rsq x.t r (nanLane x.d l) f.pc (valA1 s f x 1 l)) rfl
  · exact sends_of_flong (v := fun s f l => sfunF .sqrt x.t r (nanLane x.d l) f.pc (valA1 s f x 1 l)) rfl
  · exact sends_of_flong (v := fun s f l => sfunF .exp2 x.t r (nanLane x.d l) f.pc (valA1 s f x 1 l)) rfl
  · exact sends_of_flong (v := fun s f l => sfunF .log2 x.t r (nanLane x.d l) f.pc (valA1 s f x 1 l)) rfl
  · exact sends_of_flong (v := fun s f l => sfunF .sinpi x.t r (nanLane x.d l) f.pc (valA1 s f x 1 l)) rfl
  · exact sends_of_flong (v := fun s f l => sfunF .cospi x.t r (nanLane x.d l) f.pc (valA1 s f x 1 l)) rfl
  · exact sends_of_flong (v := fun s f l => sfunF .tanh x.t r (nanLane x.d l) f.pc (valA1 s f x 1 l)) rfl
  · exact sends_of_flong (v := fun s f l => fdivF y.t r (nanLane y.d l) f.pc (valA2 s f y 1 l) (valB2 s f y 1 l)) rfl
  · refine sends_of_run (t := .b64) _ id rfl (fun _ => ?_) fun q => ⟨rfl, rfl, rfl, rfl, rfl, rfl, rfl⟩
    have hany : (foldRefs s f s.here).any (emptyRef s) = false := by
      rw [List.any_eq_false]
      intro q hq
      rw [he q hq]
      exact Bool.false_ne_true
    simp only [hany, Bool.false_eq_true, if_false]
    rfl
  · obtain ⟨e, l, hl⟩ := List.exists_cons_of_ne_nil hn
    have hl' : memLanes s f m.h m.r.isV m.base m.off (accessSize m.t) = e :: l := hl
    have hb' : scratchBad s f (accessSize m.t) (e :: l) = [] := hl ▸ hb
    have hss' : sameScratch s f (e :: l) (accessSize m.t) = false := hl ▸ hss
    have hpl : (m.ord != .plain) = false := by rw [hord]; rfl
    obtain ⟨u, g, q, h1, h2, h3, h4, h5, rfl⟩ := sent_of_run (d := m.r) (n := m.t.regs) (t := m.t) (vs := []) _ (fun q => { q with
      mask := if m.r.isV then maskOf (ls.map Prod.fst) else maskOf (passLanes s f s.here m.h.guard)
      size := accessSize m.t, acq := m.ord != .plain, scratch := true
      lanes := ls.map fun l =>
        { lane := l.1, va := l.2, pa := l.2, trk := false, pol := .normal, comm := none
          fwd := heldBytes s s.here f false l.2 (accessSize m.t), b := 0, c := 0 } }) rfl ha (by
        simp only [hl', hb', hss', hl, hpl, Bool.false_eq_true, if_false]) rfl
    exact ⟨u, g, _, h1, h2, h3, h4, h5, rfl, rfl, rfl, rfl, rfl, rfl, rfl, rfl, rfl⟩
  · obtain ⟨e, l, hl⟩ := List.exists_cons_of_ne_nil hn
    have hl' : passLanes s f s.here h.guard = e :: l := hl
    have hb' : rowBad s f (opVal s f s.here a 2 0) 0 (e :: l) = [] := hl ▸ hb
    have hels : ((e :: l).flatMap fun l => (List.range (cnt.toNat + 1)).map fun j =>
        accLane s s.here f l (opVal s f s.here a 2 0 + l) (col.toNat + j) j) = els := by rw [← hl]
    obtain ⟨u, g, q, h1, h2, h3, h4, h5, rfl⟩ := sent_of_run (d := d) (n := cnt.toNat + 1) (t := .b32) (vs := []) _ (fun q => { q with
      mask := maskOf pass, scratch := true, acc := true, lanes := els }) rfl ha (by
        simp only [hl', hb', hels, hsa, hl, Bool.false_eq_true, if_false]) rfl
    exact ⟨u, g, _, h1, h2, h3, h4, h5, rfl, rfl, rfl, rfl, rfl, rfl, rfl, rfl, rfl⟩

/-- The second part of O17. -/
theorem resultWritebackRule : Claim.ResultWritebackRule := by
  unfold Claim.ResultWritebackRule
  intro s q p f hq hp hf hd hr hi rest vals w r
  refine ⟨fun ha hb hpo hwa hs => ?_, ?_⟩
  · have hu : Unpaired { s with pends := rest } p := ⟨hr, f, hf, hd⟩
    refine ⟨_, execResultWriteback_plain hq hp hf hu hi ha hb hpo hwa hs rfl, rfl, fun he hwt => ?_⟩
    rw [if_neg (by simp [he, hwt])]
    refine ⟨(readied_keeps _ _ _ _).1.trans (putRefs_pends _ _ _ _), ?_, (readied_keeps _ _ _ _).2.1, (readied_keeps _ _ _ _).2.2⟩
    rw [readied_mem, putRefs_mem]
  · intro g l k ls ha hg hl seen old
    refine congrArg Host.Outcome.next ?_
    simp only [hq, hp, hf, performLoad_acc ha hg hl, ha, List.isEmpty_cons, Bool.false_eq_true, if_false, if_true]
    rfl

/-- Settles O17. -/
theorem longLatencyResults : Obligations.LongLatencyResults := ⟨longLatencyRule, resultWritebackRule⟩

end Sys2Proof
end

section
/-! PROOFS. Instructions that may wait: `wait` and `waitp` (R281, R292, R293), and the barriers of a group (R301 to R303). -/
namespace Sys2Proof.Machine

section
variable {s : State} {f : Fibre} {p : Place} {w : Wait}

/-! ### Waiting (R163) -/

/-- The half that runs begins to wait. -/
def withWait (w : Wait) (f : Fibre) : Fibre := { f with wait := w, fetched := none, emptyAt := false, xlat := [] }

theorem setWait_eq (w : Wait) (hf : getF s p = some f) : setWait s p w = setF s p (withWait w f) := modF_eq hf

theorem passBerth_regs (s : State) (p : Place) :
    (passBerth s p.core p.berth).vregs = s.vregs ∧ (passBerth s p.core p.berth).emptied = s.emptied := by
  unfold passBerth
  simp only
  split <;> exact ⟨rfl, rfl⟩

/-- A fibre that waits gives way to its next half that can run, or its berth to the next fibre. -/
theorem settle_setF (g : Fibre) (hw : (g.wait == .none) = false) :
    getF (settle (setF s p g) p) p = some (if g.halves.any (fun h => h.wait == .none) then rotate g else g) ∧
      OnlyFibre s (settle (setF s p g) p) p ∧ (settle (setF s p g) p).vregs = s.vregs ∧ (settle (setF s p g) p).emptied = s.emptied := by
  unfold settle
  simp only [getF_setF_self, hw, Bool.false_eq_true, if_false]
  split
  · rw [setF_setF]
    exact ⟨getF_setF_self _ _ _, onlyFibre_setF _ _ _, rfl, rfl⟩
  · refine ⟨?_, onlyFibre_trans (onlyFibre_setF s p g) (onlyFibre_pass _ p), passBerth_regs _ p⟩
    rw [getF_pass, getF_setF_self]

/-- An instruction whose piece waits at it. -/
theorem block_waits (w : Wait) (hf : getF s p = some f) (hw : (w == .none) = false) :
    getF (block s p w) p = some (Claim.waiting f w) ∧ OnlyFibre s (block s p w) p ∧ (block s p w).vregs = s.vregs := by
  unfold block
  rw [setWait_eq w hf]
  obtain ⟨h1, h2, h3, -⟩ := settle_setF (s := s) (p := p) (withWait w f) hw
  exact ⟨h1, h2, h3⟩

/-- A piece that waits behind the instruction, in a span that has just begun: a rollback of the span returns it to its wait. -/
theorem setWaitX_eq (w : Wait) (hf : getF s p = some f) (hc : spanClean f = true) :
    setWaitX s p w = setF s p { withWait w f with span := { f.span with entry := curHalf { f with wait := w } :: f.halves } } := by
  unfold setWaitX
  rw [setWait_eq w hf, modF_eq (getF_setF_self _ _ _), setF_setF]
  exact congrArg (setF s p) (if_pos hc)

theorem spanClean_newSpan {pc : DWord} (h : WentOnX f g pc) : spanClean g = true := by
  unfold spanClean
  rw [h.2]
  rfl

end

section
variable {s : State} {f : Fibre}

/-! ### `wait` and `waitp` (R292, R293) -/

/-- What `wait` does. -/
theorem exec_wait {h : Hdr} {cls : OcClass} {n : Src} (ha : acts (.wait h cls n) s f = true) :
    exec (.wait h cls n) s = .next (match takeFail f cls (waitVal s f n) with
      | some (e, g) =>
        raise (setF s s.here g) s.here { faultInfo g none with cls := 0x0B, addrs := [(lowLane g, e.va)], acc := 5, retry := false }
      | none => if ocOf f cls ≤ waitVal s f n then next s s.here else block s s.here (.wait cls (BitVec.ofNat 64 (waitVal s f n)))) :=
  run_acts _ ha

/-- What `waitp` does. -/
theorem exec_waitp {h : Hdr} {ch : BitVec 2} {n : Src} (ha : acts (.waitp h ch n) s f = true) :
    exec (.waitp h ch n) s = .next (if waitVal s f n ≤ cwp s f s.here ch.toNat then next s s.here
      else block s s.here (.waitp ch.toNat (BitVec.ofNat 64 (waitVal s f n)))) :=
  run_acts _ ha

end

end Sys2Proof.Machine

namespace Sys2Proof
open Machine

/-- Settles O29: a count that is met goes on; one that is not blocks the piece, which gives way to its next half that can run. -/
theorem waits : Obligations.Waits := by
  unfold Obligations.Waits
  intro s f h cls n ch v
  have hv : v = waitVal s f n := rfl
  clear_value v
  subst hv
  refine ⟨fun hn hle => falls_of_run _ rfl ?_, fun hle => falls_of_run _ rfl (if_pos hle), fun e g ha hs => ?_, fun ha hn hlt => ?_,
    fun ha hlt => ?_⟩
  · simp only [hn, hle, if_true]
  · rw [exec_wait ha, hs]
  · refine ⟨_, ?_, block_waits _ (acts_getF ha) rfl⟩
    rw [exec_wait ha, hn]
    exact congrArg Host.Outcome.next (if_neg (not_le.2 hlt))
  · refine ⟨_, ?_, block_waits _ (acts_getF ha) rfl⟩
    rw [exec_waitp ha, if_neg (not_le.2 hlt)]

end Sys2Proof

namespace Sys2Proof.Machine

section
variable {s : State} {f : Fibre} {g : Group}

/-! ### `bar`, `bar.arr`, `bar.wt` (R301 to R303) -/

/-- A piece that arrives with its drains done, outside replay, waits for its family, or arrives for it. -/
theorem barStep_arrives {h : Hdr} {sc : Scope} {b n : Nat} {dst : Option Opnd} (hg : groupOf s f = some g)
    (hb : (barOf g b).arrived.contains (rootNo s.here.berth f.root) = false) (hd : drained s s.here.core sc = true)
    (hr : ctxFlag s (cidOf s f) 115 = false) {t : State} (ht : setWaitX (nextX s s.here) s.here (.barJoin b n dst f.pc) = t) :
    barStep s f h sc b n dst =
      settle (if famAt t s.here f.root (atBarJoin b f.pc) then barArrive t s.here f b n f.pc else t) s.here := by
  subst ht
  unfold barStep
  simp only [hg, hb, hd, hr, Bool.false_eq_true, if_false, Bool.not_true, Bool.false_and]

/-- What `bar.wt` does. -/
theorem exec_barWt {h : Hdr} {sc : Scope} {a : Opnd} {b : BitVec 4} (ha : acts (.barWt h sc a b) s f = true) (hg : groupOf s f = some g) :
    exec (.barWt h sc a b) s = .next (if (barOf g b.toNat).gen ≠ opVal s f s.here a 1 0 then nextX s s.here
      else settle (setWaitX (nextX s s.here) s.here (.barWt b.toNat (opVal s f s.here a 1 0))) s.here) := by
  refine (run_acts _ ha).trans (congrArg Host.Outcome.next ?_)
  simp only [hg]

/-- A piece that waits behind a commit point. -/
theorem waits_behind (w : Wait) (hw : (w == .none) = false) (hf : getF s s.here = some f) (hq : ctxFlag s (cidOf s f) 117 = false)
    (hc : f.committing = false) :
    ∃ t u, settle (setWaitX (nextX s s.here) s.here w) s.here = t ∧ OnlyFibre s t s.here ∧ SameRegs s t f u ∧ WentOnX f u (f.pc + 12) ∧
      getF t s.here = some (Claim.waitingX u w) := by
  obtain ⟨u, hu, ho, hx, hv, hsc, hfp, he⟩ := nextX_spec hf hq hc
  rw [setWaitX_eq w hu (spanClean_newSpan hx)]
  obtain ⟨h1, h2, h3, h4⟩ := settle_setF (s := nextX s s.here) (p := s.here)
    { withWait w u with span := { u.span with entry := curHalf { u with wait := w } :: u.halves } } hw
  exact ⟨_, u, rfl, onlyFibre_trans ho h2, ⟨h3.trans hv, hsc, hfp, h4.trans he⟩, hx, h1⟩

end

end Sys2Proof.Machine

namespace Sys2Proof
open Machine

/-- Settles O31: arriving is the same step for `bar` and `bar.arr`; a `bar.wt` goes on where its generation has passed, and else waits in
the span that begins at the next word. -/
theorem groupBarriers : Obligations.GroupBarriers := by
  unfold Obligations.GroupBarriers
  intro s f g h sc b n d a hg
  refine ⟨fun ha hb hd hr => ?_, fun ha hb hd hr => ?_, fun hne ha ho => ?_, fun ha ho heq => ?_⟩
  · exact (run_acts _ ha).trans (congrArg Host.Outcome.next (barStep_arrives hg hb hd hr rfl))
  · exact (run_acts _ ha).trans (congrArg Host.Outcome.next (barStep_arrives hg hb hd hr rfl))
  · obtain ⟨k, h1, h2, h3, h4⟩ := nextX_spec (acts_getF ha) (acts_quiet ha).1 (acts_committing ha ho)
    exact ⟨_, k, (exec_barWt ha hg).trans (congrArg Host.Outcome.next (if_pos hne)), h1, h2, h3, h4⟩
  · obtain ⟨t, u, ht, h1, h2, h3, h4⟩ := waits_behind (.barWt b.toNat (barOf g b.toNat).gen) rfl (acts_getF ha) (acts_quiet ha).1
      (acts_committing ha ho)
    refine ⟨t, u, ?_, h1, h2, h3, h4⟩
    rw [exec_barWt ha hg, if_neg (not_not.2 heq), ← heq, ht]

end Sys2Proof
end

section
/-! PROOFS. Commands of the engines, as they are issued: copies, gathers, collectives and matrix commands (R289, R290, R331, R332, R412). -/
namespace Sys2Proof.Machine

section
variable {s : State} {f : Fibre} {cls : OcClass}

theorem wentOnX_pc {g : Fibre} {pc : DWord} (h : WentOnX f g pc) : g.pc = pc := (congrArg Fibre.pc h.1 :)

theorem wentOnX_oc {g : Fibre} {pc : DWord} (h : WentOnX f g pc) : g.oc = f.oc := (congrArg Fibre.oc h.1 :)

/-! ### Commands of the core's engines (R259, R288) -/

/-- What the start of a command changes beside its fibre and the list of commands: the queues, the counts and the agenda. -/
def StartsOnly (start : State → State) : Prop :=
  ∀ u, ∃ C A K, start u = { u with cores := C, agenda := A, collCount := K }

/-- An instruction that formed a span of its own, in no redundant pair (R180). -/
theorem ownDone_eq (id : Nat) (hd : f.dual = none) (hf : getF s s.here = some f) :
    ownDone s f [] id = setF s s.here { f with spanNo := f.spanNo + 1 } := by
  have ho : ownDone s f [] id = modF s s.here fun g => { g with spanNo := g.spanNo + 1 } := by
    unfold ownDone
    rw [hd]
  exact ho.trans (modF_eq hf)

/-- An instruction that issues a command, of a fibre in no redundant pair: the command is the last of those outstanding. -/
theorem issueCmd_issues {c : Cmd} {start : State → State} (hf : getF s s.here = some f) (hq : ctxFlag s (cidOf s f) 117 = false)
    (hc : f.committing = false) (hd : f.dual = none) (hs : StartsOnly start) :
    ∃ t g, issueCmd s f c start = t ∧ getF t s.here = some g ∧ g.pc = f.pc + 12 ∧ SameRegs s t f g ∧ t.mem = s.mem ∧
      t.cmds = s.cmds ++ [c] ∧ g.oc = (countIssue f c.cls).oc := by
  have ha : addCmd (ownDone s f [] c.id) c =
      setF { s with cmds := s.cmds ++ [c], nextId := s.nextId + 1 } s.here (countIssue { f with spanNo := f.spanNo + 1 } c.cls) := by
    unfold addCmd
    rw [ownDone_eq c.id hd hf]
    exact (modF_eq (getF_setF_self _ _ _)).trans (setF_setF { s with cmds := s.cmds ++ [c], nextId := s.nextId + 1 } _ _ _)
  obtain ⟨C, A, K, hst⟩ := hs (addCmd (ownDone s f [] c.id) c)
  have hst' : start (addCmd (ownDone s f [] c.id) c) =
      setF { s with cmds := s.cmds ++ [c], nextId := s.nextId + 1, cores := C, agenda := A, collCount := K } s.here
        (countIssue { f with spanNo := f.spanNo + 1 } c.cls) := by
    rw [hst, ha]
    rfl
  obtain ⟨k, h1, h2, h3, hv, hsc, hfp, he⟩ := nextX_setF
    (s := { s with cmds := s.cmds ++ [c], nextId := s.nextId + 1, cores := C, agenda := A, collCount := K })
    (g := countIssue { f with spanNo := f.spanNo + 1 } c.cls) hq hc
  refine ⟨_, k, congrArg (nextX · s.here) hst', h1, ?_, ⟨hv, hsc, hfp, he⟩, ?_, ?_, ?_⟩
  · exact wentOnX_pc h3
  · rw [h2.1]
  · rw [h2.1]
  · exact wentOnX_oc h3

/-- An instruction whose meaning, where it acts, is to issue a command of these operands. -/
theorem issues_of_run {i : Instr} {c : Cmd} {start : State → State} {P : Cmd → Prop} (k : State → Fibre → State)
    (hi : exec i s = run i s k) (hk : f.dual = none → k s f = issueCmd s f c start) (hs : StartsOnly start)
    (hcls : c.cls = cls) (hfib : c.fib = s.here.fib) (hcore : c.core = s.here.core) (hdone : c.done = false) (hP : P c) :
    Claim.Issues i s f cls P := by
  intro ha ho hd
  obtain ⟨t, g, ht, hg, hpc, hr, hm, hcm, hoc⟩ :=
    issueCmd_issues (c := c) (acts_getF ha) (acts_quiet ha).1 (acts_committing ha ho) hd hs
  exact ⟨t, g, c, by rw [hi, run_acts k ha, hk hd, ht], hg, hpc, hr, hm, hcm, hcls, hfib, hcore, hdone, hP, hcls ▸ hoc⟩

/-- The start of a command that joins a queue of its core, whose engine is set going where the queue was empty. -/
theorem startsOnly_queue (b : State → Bool) (core : Nat) (m : State → Core) (i : Instr) :
    StartsOnly fun u => if b u then due (setC u core (m u)) i else setC u core (m u) := by
  intro u
  dsimp only
  split
  · exact ⟨_, _, _, rfl⟩
  · exact ⟨_, _, _, rfl⟩

/-- The command that a `copy` issues. -/
def copyCmd (s : State) (f : Fibre) (pol : CPol) (out : Bool) (ch : BitVec 2) (a b c d : Opnd) : Cmd :=
  { newCmd s f .copy pol with
    out, ch := ch.toNat, xa := opVal s f s.here a 2 0, ga := opVal s f s.here b 2 0, nb := opVal s f s.here c 2 0 % 2 ^ 32
    rows := opVal s f s.here c 2 0 / 2 ^ 32 % 2 ^ 16, stride := opVal s f s.here d 2 0 }

/-- It joins the queue of its channel. -/
def copyStart (core : Nat) (ch : BitVec 2) (id : Nat) (u : State) : State :=
  let x := getC u core
  let q := chanOf x ch.toNat
  if q.queue.isEmpty then due (setC u core { x with chans := x.chans.set ch.toNat { q with queue := q.queue ++ [id] } }) (.copyCommandExecute core ch)
  else setC u core { x with chans := x.chans.set ch.toNat { q with queue := q.queue ++ [id] } }

/-- The command that a `gath` or a `scat` issues. -/
def gatherNew (s : State) (f : Fibre) (pol : CPol) (out : Bool) (h : Hdr) (a b c : Opnd) : Cmd :=
  { newCmd s f .gath pol with
    out, xa := opVal s f s.here a 2 0, nb := opVal s f s.here c 2 0
    lanes := (passLanes s f s.here h.guard).map fun l => (l, opVal s f s.here b 2 l) }

/-- It joins the queue of the core's gather engine. -/
def gatherStart (core id : Nat) (u : State) : State :=
  let x := getC u core
  if x.gathq.isEmpty then due (setC u core { x with gathq := x.gathq ++ [id] }) (.gatherCommandExecute core 0)
  else setC u core { x with gathq := x.gathq ++ [id] }

/-- `gath` and `scat` of rows that pass their checks, while the queue has room. -/
theorem gatherCmd_issues {h : Hdr} {pol : CPol} {out : Bool} {a b c : Opnd} (hd : f.dual = none)
    (hl : passLanes s f s.here h.guard ≠ []) (h4 : opVal s f s.here c 2 0 % 4 = 0) (hmax : opVal s f s.here c 2 0 ≤ 65536)
    (h0 : opVal s f s.here c 2 0 ≠ 0)
    (hrow : ∀ l ∈ passLanes s f s.here h.guard, opVal s f s.here b 2 l % 4 = 0 ∧
      opVal s f s.here a 2 0 + (l + 1) * opVal s f s.here c 2 0 ≤ scratchSize s f)
    (hq : (getC s s.here.core).gathq.length < queueLen) :
    gatherCmd s f h pol out a b c = issueCmd s f (gatherNew s f pol out h a b c) (gatherStart s.here.core s.nextId) := by
  have hbad : ((passLanes s f s.here h.guard).map fun l => (l, opVal s f s.here b 2 l)).filterMap (fun e =>
      if e.2 % 4 ≠ 0 then some (e.1, 6, e.2)
      else if scratchSize s f < opVal s f s.here a 2 0 + (e.1 + 1) * opVal s f s.here c 2 0
        then some (e.1, 7, opVal s f s.here a 2 0 + e.1 * opVal s f s.here c 2 0) else none) = [] := by
    refine List.filterMap_eq_nil_iff.2 fun e he => ?_
    obtain ⟨l, hl, rfl⟩ := List.mem_map.1 he
    obtain ⟨hb, hs⟩ := hrow l hl
    rw [if_neg (not_not.2 hb), if_neg (not_lt.2 hs)]
  have hpick : pickFault [] = none := rfl
  unfold gatherCmd
  simp only [forwarded_none hd]
  rw [if_neg (not_not.2 h4), if_neg (not_lt.2 hmax), hbad, hpick]
  simp only
  rw [if_neg (not_or.2 ⟨h0, hl⟩), if_neg (not_le.2 hq)]
  rfl

/-- `copy` of at least one byte, that passes its checks, while its channel's queue has room. -/
theorem copy_issues {h : Hdr} {pol : CPol} {out : Bool} {ch : BitVec 2} {a b c d : Opnd}
    (hm : maskOf (passLanes s f s.here h.guard) ≠ 0) (hc : opVal s f s.here c 2 0 / 2 ^ 48 = 0)
    (h4 : opVal s f s.here c 2 0 % 2 ^ 32 % 4 = 0) (ha : opVal s f s.here a 2 0 % 4 = 0) (hb : opVal s f s.here b 2 0 % 4 = 0)
    (hd : opVal s f s.here d 2 0 % 4 = 0) (h0 : opVal s f s.here c 2 0 % 2 ^ 32 ≠ 0) (hr : opVal s f s.here c 2 0 / 2 ^ 32 % 2 ^ 16 ≠ 0)
    (hs : opVal s f s.here a 2 0 + opVal s f s.here c 2 0 / 2 ^ 32 % 2 ^ 16 * (opVal s f s.here c 2 0 % 2 ^ 32) ≤ scratchSize s f)
    (hq : (chanOf (getC s s.here.core) ch.toNat).queue.length < queueLen) :
    Claim.Issues (.copy h pol out ch a b c d) s f .copy fun x =>
      x.xa = opVal s f s.here a 2 0 ∧ x.ga = opVal s f s.here b 2 0 ∧ x.nb = opVal s f s.here c 2 0 % 2 ^ 32 ∧
        x.rows = opVal s f s.here c 2 0 / 2 ^ 32 % 2 ^ 16 ∧ x.stride = opVal s f s.here d 2 0 ∧ x.out = out ∧ x.ch = ch.toNat := by
  refine issues_of_run (c := copyCmd s f pol out ch a b c d) (start := copyStart s.here.core ch s.nextId) _ rfl (fun hn => ?_)
    (startsOnly_queue _ _ _ _) rfl rfl rfl rfl ⟨rfl, rfl, rfl, rfl, rfl, rfl, rfl⟩
  simp only [forwarded_none hn]
  rw [if_neg hm, if_neg (not_not.2 hc), if_neg (by omega), if_neg (by omega), if_neg (by omega), if_neg (not_le.2 hq)]
  rfl

/-- The command that a `coll` issues: the next call of its communicator. -/
def collCmd (s : State) (f : Fibre) (t : Ty) (k : CollKind) (op : CollOp) (a b c : Opnd) : Cmd :=
  let v := opVal s f s.here c 2 0
  { newCmd s f .coll .normal with
    ga := opVal s f s.here a 2 0, xa := opVal s f s.here b 2 0, nb := v % 2 ^ 32, ty := t, kind := k, cop := op, comm := bitsAt v 48 8
    root := bitsAt v 32 9, seq := tget 0 s.collCount (bitsAt v 48 8) }

/-- It counts as a call of its communicator `cm`. -/
def collStart (s : State) (cm : Nat) (u : State) : State :=
  { u with collCount := tset 0 u.collCount cm (tget 0 s.collCount cm + 1) }

/-- `coll` of at least one element, that passes its checks, once the drains of its scope are done. -/
theorem coll_issues {h : Hdr} {t : Ty} {sc : Scope} {k : CollKind} {op : CollOp} {a b c : Opnd} {A B C : Nat} {dn : Nat}
    (hA : opVal s f s.here a 2 0 = A) (hB : opVal s f s.here b 2 0 = B) (hC : opVal s f s.here c 2 0 = C)
    (hdn : dn = if k = .ag then C % 2 ^ 32 * (commMembers s (bitsAt C 48 8)).length * (4 * t.regs) else C % 2 ^ 32 * (4 * t.regs))
    (hm : maskOf (passLanes s f s.here h.guard) ≠ 0) (h41 : bitsAt C 41 7 = 0) (h56 : bitsAt C 56 8 = 0)
    (hw : bitsAt (commWord s (bitsAt C 48 8) 8) 16 1 = 1) (hcid : bitsAt (commWord s (bitsAt C 48 8) 8) 0 12 = cidOf s f)
    (hin : commHas s (bitsAt C 48 8) s.modNo = true) (hroot : k = .bc → commHas s (bitsAt C 48 8) (bitsAt C 32 9) = true)
    (hal : A % (4 * t.regs) = 0) (hbl : B % (4 * t.regs) = 0) (h0 : C % 2 ^ 32 ≠ 0)
    (hapart : A + C % 2 ^ 32 * (4 * t.regs) ≤ B ∨ B + dn ≤ A ∨ (A = B ∧ C % 2 ^ 32 * (4 * t.regs) = dn))
    (hdr : drained s s.here.core sc = true) :
    Claim.Issues (.coll h t sc k op a b c) s f .coll fun x =>
      x.ga = A ∧ x.xa = B ∧ x.nb = C % 2 ^ 32 ∧ x.ty = t ∧ x.kind = k ∧ x.cop = op ∧ x.comm = bitsAt C 48 8 ∧ x.root = bitsAt C 32 9 := by
  subst hA hB hC
  refine issues_of_run (c := collCmd s f t k op a b c) (start := collStart s (bitsAt (opVal s f s.here c 2 0) 48 8)) _ rfl (fun hn => ?_)
    (fun u => ⟨_, _, _, rfl⟩) rfl rfl rfl rfl ⟨rfl, rfl, rfl, rfl, rfl, rfl, rfl, rfl⟩
  have hcomm : ¬ (bitsAt (commWord s (bitsAt (opVal s f s.here c 2 0) 48 8) 8) 16 1 = 0 ∨
      bitsAt (commWord s (bitsAt (opVal s f s.here c 2 0) 48 8) 8) 0 12 ≠ cidOf s f ∨
      commHas s (bitsAt (opVal s f s.here c 2 0) 48 8) s.modNo = false ∨
      (k = .bc ∧ commHas s (bitsAt (opVal s f s.here c 2 0) 48 8) (bitsAt (opVal s f s.here c 2 0) 32 9) = false)) := by
    rintro (h | h | h | ⟨hk, h⟩)
    · omega
    · exact h hcid
    · rw [hin] at h
      exact Bool.noConfusion h
    · rw [hroot hk] at h
      exact Bool.noConfusion h
  simp only [forwarded_none hn]
  rw [if_neg hm, if_neg (by omega), if_neg hcomm, if_neg (by omega), ← hdn, if_neg (by tauto), if_neg h0, hdr]
  rfl

end

end Sys2Proof.Machine

namespace Sys2Proof
open Machine

/-- Settles O28: where the operands pass every check, each instruction is the issue of one command. -/
theorem engineCommands : Obligations.EngineCommands := by
  unfold Obligations.EngineCommands
  intro s f h pol out ch a b c d t sc k op ls A B C D es n cm dn
  refine ⟨fun hm hc h4 ha hb hd h0 hr hs hq => copy_issues hm hc h4 ha hb hd h0 hr hs hq, fun hl h4 hmax h0 hrow hq => ⟨?_, ?_⟩,
    fun hm h41 h56 hw hcid hin hroot hal hbl h0 hapart hdr =>
      coll_issues rfl rfl rfl rfl hm h41 h56 hw hcid hin hroot hal hbl h0 hapart hdr⟩
  · exact issues_of_run (c := gatherNew s f pol false h a b c) (start := gatherStart s.here.core s.nextId) _ rfl
      (fun hn => gatherCmd_issues hn hl h4 hmax h0 hrow hq) (startsOnly_queue _ _ _ _) rfl rfl rfl rfl ⟨rfl, rfl, rfl, rfl⟩
  · exact issues_of_run (c := gatherNew s f pol true h a b c) (start := gatherStart s.here.core s.nextId) _ rfl
      (fun hn => gatherCmd_issues hn hl h4 hmax h0 hrow hq) (startsOnly_queue _ _ _ _) rfl rfl rfl rfl ⟨rfl, rfl, rfl, rfl⟩

end Sys2Proof
end

section
/-! PROOFS. Matrix commands as they are issued (R321, R331, R332). -/
namespace Sys2Proof.Machine

section
variable {s u : State} {f : Fibre}

/-- The entry of the reservation table that a matrix command of the berth fills. -/
def newEntry (s : State) (f : Fibre) (kind : Nat) (pol : CPol) (addr : Nat) (card : BitVec 1024) (mask : Mask) : MEnt :=
  { id := s.nextId, kind, core := s.here.core, berth := s.here.berth, fib := s.here.fib, grp := f.grp, cid := cidOf s f
    prio := prioOf s (cidOf s f), pol, card, addr, mask, fill := cycOf s s.here.core, lastRun := cycOf s s.here.core, aged := false, pos := 0
    kgrp := 0, num := issuedOf f .matrix + 1, begun := false, part := none, done := false, fail := none }

/-- The matrix engine with that entry filled. -/
def filledQuay (s : State) (e : MEnt) : Quay :=
  { getQy s (quayOf s.here.core) with ents := tput (getQy s (quayOf s.here.core)).ents (entryNo s.here) e }

theorem fillEntry_eq (kind : Nat) (pol : CPol) (addr : Nat) (card : BitVec 1024) (mask : Mask) (hf : getF s s.here = some f) :
    fillEntry s f kind pol addr card mask =
      setF { s with
        nextId := s.nextId + 1
        quays := tset Quay.init s.quays (quayOf s.here.core) (filledQuay s (newEntry s f kind pol addr card mask))
        agenda := s.agenda ++ [.matrixStep (quayOf s.here.core)] } s.here (countIssue f .matrix) := by
  have hm := modF_eq (s := setQy { s with nextId := s.nextId + 1 } (quayOf s.here.core)
    (filledQuay s (newEntry s f kind pol addr card mask))) (m := fun f => countIssue f .matrix) hf
  unfold fillEntry
  exact congrArg (due · (.matrixStep (quayOf s.here.core))) hm

/-- A matrix command of a fibre in no redundant pair that fills its berth's entry and goes on in a new span. -/
theorem fills_entry (kind : Nat) (pol : CPol) (addr : Nat) (card : BitVec 1024) (mask : Mask) (hf : getF s s.here = some f)
    (hq : ctxFlag s (cidOf s f) 117 = false) (hc : f.committing = false) (hd : f.dual = none) (hw : tabWf Quay.init s.quays = true) :
    ∃ t g, nextX (ownDone (fillEntry s f kind pol addr card mask) f [] 0) s.here = t ∧ getF t s.here = some g ∧ g.pc = f.pc + 12 ∧
      g.scal = f.scal ∧ t.vregs = s.vregs ∧ g.oc = (countIssue f .matrix).oc ∧
      tfind (getQy t (quayOf s.here.core)).ents (entryNo s.here) = some (newEntry s f kind pol addr card mask) ∧ t.mem = s.mem := by
  generalize he : newEntry s f kind pol addr card mask = e
  have ho : ownDone (fillEntry s f kind pol addr card mask) f [] 0 = setF { s with
      nextId := s.nextId + 1
      quays := tset Quay.init s.quays (quayOf s.here.core) (filledQuay s e)
      agenda := s.agenda ++ [.matrixStep (quayOf s.here.core)] } s.here
      { countIssue f .matrix with spanNo := f.spanNo + 1 } := by
    rw [fillEntry_eq kind pol addr card mask hf, he]
    exact ownDone_setF _ [] 0 hd rfl
  obtain ⟨k, h1, h2, h3, hv, hsc, -, -⟩ := nextX_setF
    (s := { s with
      nextId := s.nextId + 1
      quays := tset Quay.init s.quays (quayOf s.here.core) (filledQuay s e)
      agenda := s.agenda ++ [.matrixStep (quayOf s.here.core)] })
    (g := { countIssue f .matrix with spanNo := f.spanNo + 1 }) hq hc
  refine ⟨_, k, congrArg (nextX · s.here) ho, h1, ?_, hsc, hv, ?_, ?_, ?_⟩
  · exact wentOnX_pc h3
  · exact wentOnX_oc h3
  · rw [h2.1]
    unfold getQy
    rw [tget_tset_self _ _ hw]
    exact tfind_tput_self _ _ _
  · rw [h2.1]

/-! ### What a read of the card leaves (R332) -/

theorem sameFibres_inst (h : Claim.SameFibres s u) : instOf u f = instOf s f := by
  obtain ⟨-, -, hg, hi, -, -⟩ := h
  unfold instOf groupOf getG getI
  rw [hg, hi]

theorem sameFibres_cid (h : Claim.SameFibres s u) : cidOf u f = cidOf s f := by
  unfold cidOf
  rw [sameFibres_inst h]

theorem sameFibres_desc (h : Claim.SameFibres s u) : descOf u f = descOf s f := by
  unfold descOf
  rw [sameFibres_inst h]

theorem sameFibres_flag (h : Claim.SameFibres s u) (n : Nat) : ctxFlag u (cidOf u f) n = ctxFlag s (cidOf s f) n := by
  rw [sameFibres_cid h]
  obtain ⟨-, -, -, -, hx, -⟩ := h
  unfold ctxFlag getX
  rw [hx]

/-- `mpass` and `mtab` of a legal card, with the berth's entry empty. -/
theorem cardCmd_fills {h : Hdr} {kind : Nat} {pol : CPol} {a : Opnd} {x : Nat} {b : List Byte} {s1 : State}
    (hb : maskOf (passLanes s f s.here h.guard) ≠ 0) (he : entryFull s s.here = false) (hva : opVal s f s.here a 2 0 % 128 = 0)
    (hl : engLoad s (ownerCard s.here) s.here.core (cidOf s f) pol (opVal s f s.here a 2 0) 128 = (.ok b, x, s1))
    (hd : descOf (farDrop s1 (ownerCard s.here)) f = descOf s f) (hbad : cardBad (BitVec.ofNat 1024 (natOf b)) (kind == 3) = false)
    (hcls : cardCls (BitVec.ofNat 1024 (natOf b)) (64 * partAcc (descOf s f)) (65536 * partScr (descOf s f)) = 0) :
    cardCmd s f h kind pol a = nextX (ownDone (fillEntry (farDrop s1 (ownerCard s.here)) f kind pol (opVal s f s.here a 2 0)
      (BitVec.ofNat 1024 (natOf b)) (maskOf (passLanes s f s.here h.guard))) f [] 0) s.here := by
  unfold cardCmd
  simp only
  rw [if_neg hb, he, if_neg Bool.false_ne_true, if_neg (not_not.2 hva), hl]
  simp only [hbad, hd]
  rw [if_neg Bool.false_ne_true, if_neg (not_not.2 hcls)]

end

end Sys2Proof.Machine

namespace Sys2Proof
open Machine

/-- Settles O30: each command is `fillEntry`, in the state itself or in the one that the read of the card left. -/
theorem matrixCommands : Obligations.MatrixCommands := by
  unfold Obligations.MatrixCommands
  intro s f h pol a va q fills he hva ho hd hw
  constructor
  · intro ha
    obtain ⟨t, g, ht, hg, hpc, hsc, hv, hoc, hent, hmem⟩ := fills_entry 1 pol va 0 f.amask (acts_getF ha) (acts_quiet ha).1
      (acts_committing ha ho) hd hw
    refine ⟨t, g, _, (run_acts _ ha).trans (congrArg Host.Outcome.next ?_), hg, hpc, hsc, hv, hoc, hent, rfl, rfl, rfl, rfl, rfl, hmem⟩
    simp only [he, Bool.false_eq_true, if_false]
    exact (if_neg (not_not.2 hva)).trans ht
  · intro x b s1 hl u hu hm hcls
    have hcard : ∀ kind, getF s s.here = some f → ctxFlag s (cidOf s f) 117 = false → f.committing = false →
        cardBad (BitVec.ofNat 1024 (natOf b)) (kind == 3) = false →
        ∃ t g e, cardCmd s f h kind pol a = t ∧ getF t s.here = some g ∧ g.pc = f.pc + 12 ∧ g.scal = f.scal ∧ t.vregs = u.vregs ∧
          g.oc = (countIssue f .matrix).oc ∧ tfind (getQy t q).ents (entryNo s.here) = some e ∧ e.kind = kind ∧ e.addr = va ∧
          e.cid = cidOf s f ∧ e.done = false ∧ e.card = BitVec.ofNat 1024 (natOf b) ∧ t.mem = u.mem := by
      intro kind hf hq hc hbad
      obtain ⟨hhere, hfib, -, -, -, hquay⟩ := id hu
      have hfu : getF u u.here = some f := by
        unfold getF
        rw [hhere, hfib]
        exact hf
      obtain ⟨t, g, ht, hg, hpc, hsc, hv, hoc, hent, hmem⟩ := fills_entry kind pol va (BitVec.ofNat 1024 (natOf b))
        (maskOf (passLanes s f s.here h.guard)) hfu ((sameFibres_flag hu 117).trans hq) hc hd (hquay ▸ hw)
      rw [hhere] at ht hg hent
      exact ⟨t, g, _, (cardCmd_fills hm he hva hl (sameFibres_desc hu) hbad hcls).trans ht, hg, hpc, hsc, hv, hoc, hent, rfl, rfl,
        sameFibres_cid hu, rfl, rfl, hmem⟩
    refine ⟨fun ha hbad => ?_, fun ha hbad => ?_⟩
    · obtain ⟨t, g, e, ht, hrest⟩ := hcard 2 (acts_getF ha) (acts_quiet ha).1 (acts_committing ha ho) hbad
      obtain ⟨hg, hpc, hsc, hv, hoc, hent, hk, had, hcid, hdn, hP, hmem⟩ := hrest
      exact ⟨t, g, e, (run_acts _ ha).trans (congrArg Host.Outcome.next ht), hg, hpc, hsc, hv, hoc, hent, hk, had, hcid, hdn, hP, hmem⟩
    · obtain ⟨t, g, e, ht, hrest⟩ := hcard 3 (acts_getF ha) (acts_quiet ha).1 (acts_committing ha ho) hbad
      obtain ⟨hg, hpc, hsc, hv, hoc, hent, hk, had, hcid, hdn, hP, hmem⟩ := hrest
      exact ⟨t, g, e, (run_acts _ ha).trans (congrArg Host.Outcome.next ht), hg, hpc, hsc, hv, hoc, hent, hk, had, hcid, hdn, hP, hmem⟩

end Sys2Proof
end

section
/-! PROOFS. Contributions to commutative lines (R234, R243). -/
namespace Sys2Proof.Machine

section
variable {s t u : State} {core : Nat}

/-! ### Steps that change one core and send requests -/

/-- What an object that is no default reads as where it was just written, in any table. -/
theorem tget_tset_value {α : Type} [DecidableEq α] {d v : α} (k : Nat) (h : v ≠ d) (t : Tab α) : tget d (tset d t k v) k = v := by
  induction t with
  | nil => simp only [tset, if_neg h, tget, if_true]
  | cons e t ih =>
    obtain ⟨a, w⟩ := e
    simp only [tset, if_neg h]
    split
    · simp only [tget, if_true]
    · split
      · next hk => simp only [tget, hk, if_true]
      · next hk => simp only [tget, if_neg (Ne.symm hk), ih]

/-- `t` is `s` but for core `core`, the requests and packets sent and the rows due. -/
def CoreOnly (core : Nat) (s t : State) : Prop :=
  (∃ N R A L, t = { s with nextId := N, reqs := R, agenda := A, links := L, cores := t.cores }) ∧ ∀ c, c ≠ core → getC t c = getC s c

namespace CoreOnly

theorem refl (s : State) : CoreOnly core s s := ⟨⟨_, _, _, _, rfl⟩, fun _ _ => rfl⟩

theorem trans (h : CoreOnly core s t) (k : CoreOnly core t u) : CoreOnly core s u := by
  obtain ⟨⟨N, R, A, L, h1⟩, h2⟩ := h
  obtain ⟨⟨N', R', A', L', k1⟩, k2⟩ := k
  refine ⟨⟨N', R', A', L', ?_⟩, fun c hc => (k2 c hc).trans (h2 c hc)⟩
  generalize u.cores = C at k1
  rw [k1, h1]

theorem foldl {α : Type} (l : List α) {g : State → α → State} (hg : ∀ t a, CoreOnly core t (g t a)) (s : State) :
    CoreOnly core s (l.foldl g s) := by
  induction l generalizing s with
  | nil => exact refl s
  | cons a l ih => exact (hg s a).trans (ih _)

theorem outside (h : CoreOnly core s t) : Outside s t := by
  obtain ⟨⟨N, R, A, L, h1⟩, -⟩ := h
  rw [h1]
  exact ⟨rfl, rfl, rfl, rfl, rfl, rfl, rfl, rfl, rfl, rfl⟩

theorem mem (h : CoreOnly core s t) : t.mem = s.mem := by
  obtain ⟨⟨N, R, A, L, h1⟩, -⟩ := h
  rw [h1]

theorem flag (h : CoreOnly core s t) (cid n : Nat) : ctxFlag t cid n = ctxFlag s cid n := by
  obtain ⟨⟨N, R, A, L, h1⟩, -⟩ := h
  rw [h1]
  rfl

end CoreOnly

theorem coreOnly_setC (s : State) (core : Nat) (x : Core) : CoreOnly core s (setC s core x) :=
  ⟨⟨_, _, _, _, rfl⟩, fun _ hc => tget_tset_ne _ _ _ hc⟩

/-- The request that is sent, and the packet or the row that carries it. -/
theorem sendReq_eq (s : State) (core cid pa : Nat) (op : HomeOp) (cont : Cont) (tag : Nat × Nat × Nat × Nat × Nat) (stamp : Nat)
    (sy : Option Scope) : ∃ A L, sendReq s core cid pa op cont tag stamp sy = { s with
      nextId := s.nextId + 1
      reqs := s.reqs ++ [{ id := s.nextId, core, cid, pa, clk := clockOf s core, op, cont, sent := s.time, port := false, tag, held := 0, stamp, sy }]
      agenda := A, links := L } := by
  unfold sendReq
  simp only
  split
  · exact ⟨_, _, rfl⟩
  · unfold sendPacket
    split
    · exact ⟨_, _, rfl⟩
    · exact ⟨_, _, rfl⟩

theorem coreOnly_sendReq (s : State) (c cid pa : Nat) (op : HomeOp) (cont : Cont) (tag : Nat × Nat × Nat × Nat × Nat) (stamp : Nat)
    (sy : Option Scope) : CoreOnly core s (sendReq s c cid pa op cont tag stamp sy) := by
  obtain ⟨A, L, h⟩ := sendReq_eq s c cid pa op cont tag stamp sy
  rw [h]
  exact ⟨⟨_, _, _, _, rfl⟩, fun _ _ => rfl⟩

theorem sendReq_cores (s : State) (c cid pa : Nat) (op : HomeOp) (cont : Cont) (tag : Nat × Nat × Nat × Nat × Nat) (stamp : Nat)
    (sy : Option Scope) : (sendReq s c cid pa op cont tag stamp sy).cores = s.cores := by
  obtain ⟨A, L, h⟩ := sendReq_eq s c cid pa op cont tag stamp sy
  rw [h]

theorem coreOnly_sendLine (s : State) (core line : Nat) : CoreOnly core s (sendLine s core line) := by
  unfold sendLine
  simp only
  split
  · exact .refl s
  · exact (coreOnly_setC s core _).trans (coreOnly_sendReq _ _ _ _ _ _ _ _ _)

/-- The state in which a lane contributes: the core's partial of the line, if it is of another operation, has left. -/
def cleared (core cop line : Nat) (s : State) : State :=
  match tfind (getC s core).parts line with
  | some q => if q.cop = cop then s else sendLine s core line
  | none => s

/-- The elements of the core's partial of a line. -/
def partElems (s : State) (core line : Nat) : Tab PElem :=
  match tfind (getC s core).parts line with
  | some q => q.elems
  | none => []

/-- The elements into which a lane's data are cut. -/
def laneElems (cop n : Nat) (l : OpLane) : Tab PElem :=
  (List.range (n / copSize cop)).map fun j =>
    (l.pa % 128 + j * copSize cop, contribute cop (l.b / 2 ^ (8 * copSize cop * j) % 2 ^ (8 * copSize cop)))

theorem contributeLane_eq (core cop n : Nat) (s : State) (l : OpLane) :
    contributeLane core cop n s l =
      setC (cleared core cop (lineNo l.pa) s) core { getC (cleared core cop (lineNo l.pa) s) core with
        parts := tput (getC (cleared core cop (lineNo l.pa) s) core).parts (lineNo l.pa)
          { cop, elems := mergeElems cop (partElems (cleared core cop (lineNo l.pa) s) core (lineNo l.pa)) (laneElems cop n l) } } := rfl

theorem coreOnly_cleared (core cop line : Nat) (s : State) : CoreOnly core s (cleared core cop line s) := by
  unfold cleared
  split
  · split
    · exact .refl s
    · exact coreOnly_sendLine s core _
  · exact .refl s

theorem coreOnly_contributeLane (core cop n : Nat) (s : State) (l : OpLane) : CoreOnly core s (contributeLane core cop n s l) := by
  rw [contributeLane_eq]
  exact (coreOnly_cleared core cop _ s).trans (coreOnly_setC _ core _)

theorem coreOnly_fillTlb (s : State) (p : Place) (f : Fibre) (cid : Nat) (ls : List OpLane) : CoreOnly p.core s (fillTlb s p f cid ls) := by
  unfold fillTlb
  refine CoreOnly.foldl _ (fun t v => ?_) s
  split
  · split
    · exact coreOnly_setC _ _ _
    · exact .refl t
  · exact .refl t

/-! ### What a core keeps while its lanes contribute -/

/-- A core whose TLB holds an entry is no default: what is written to it is read back, in any table of cores. -/
theorem getC_setC_tlb {x : Core} (c : Nat) (h : x.tlb ≠ []) : getC (setC s c x) c = x := by
  refine tget_tset_value c (fun hx => h ?_) s.cores
  rw [hx]
  rfl

theorem sendLine_core (line : Nat) (h : (getC s core).tlb ≠ []) : ∃ P, getC (sendLine s core line) core = { getC s core with parts := P } := by
  unfold sendLine
  simp only
  split
  · exact ⟨_, rfl⟩
  · refine ⟨tdel (getC s core).parts line, ?_⟩
    unfold getC at h ⊢
    rw [sendReq_cores]
    exact getC_setC_tlb (s := s) core h

theorem cleared_core (cop line : Nat) (h : (getC s core).tlb ≠ []) :
    ∃ P, getC (cleared core cop line s) core = { getC s core with parts := P } := by
  unfold cleared
  split
  · split
    · exact ⟨_, rfl⟩
    · exact sendLine_core _ h
  · exact ⟨_, rfl⟩

theorem contributeLane_core (cop n : Nat) (l : OpLane) (h : (getC s core).tlb ≠ []) :
    ∃ P, getC (contributeLane core cop n s l) core = { getC s core with parts := P } := by
  obtain ⟨P, hP⟩ := cleared_core cop (lineNo l.pa) h
  rw [contributeLane_eq]
  generalize cleared core cop (lineNo l.pa) s = c at hP
  rw [hP]
  exact ⟨_, getC_setC_tlb core h⟩

theorem tlbPut_core (e : TlbEnt) : ∃ T, T ≠ [] ∧ getC (tlbPut s core e) core = { getC s core with tlb := T } := by
  have hT : (e :: (getC s core).tlb.filter (· != e)).take 128 ≠ [] := List.cons_ne_nil _ _
  exact ⟨_, hT, getC_setC_tlb (x := { getC s core with tlb := (e :: (getC s core).tlb.filter (· != e)).take 128 }) core hT⟩

section
variable {p : Place} {f : Fibre} {cid : Nat}

/-- A lane that passes its checks has a translation. -/
theorem laneCheck_ok {align : Nat} {q : Ask} {pol : CPol} {r : LaneRes} {a : Nat × Nat} (P : OpLane → Prop) (hr : ∀ l ∈ r.ok, P l)
    (hl : ∀ x pa trk pl comm, fibXlat s p f cid (a.2 / 2 ^ 16) = some x → x.cls = 0 →
      P { lane := a.1, va := a.2, pa, trk, pol := pl, comm, fwd := [], b := 0, c := 0 }) :
    ∀ l ∈ (laneCheck s p f cid align q pol r a).ok, P l := by
  unfold laneCheck
  simp only
  split
  · exact hr
  · split
    · exact hr
    · split
      · exact hr
      · next x hx =>
        split
        · exact hr
        · next hc =>
          split
          · exact hr
          · split
            · exact hr
            · split
              · exact hr
              · intro l' hl'
                rcases List.mem_append.1 hl' with h | h
                · exact hr l' h
                · rw [List.mem_singleton.1 h]
                  exact hl x _ _ _ _ hx (not_not.1 hc)

theorem laneChecks_xlat {align : Nat} {q : Ask} {pol : CPol} (ls : List (Nat × Nat)) :
    ∀ l ∈ (laneChecks s p f cid align q pol ls).ok, ∃ x, fibXlat s p f cid (l.va / 2 ^ 16) = some x ∧ x.cls = 0 := by
  unfold laneChecks
  suffices h : ∀ r : LaneRes, (∀ l ∈ r.ok, ∃ x, fibXlat s p f cid (l.va / 2 ^ 16) = some x ∧ x.cls = 0) →
      ∀ l ∈ (ls.foldl (laneCheck s p f cid align q pol) r).ok, ∃ x, fibXlat s p f cid (l.va / 2 ^ 16) = some x ∧ x.cls = 0 from
    h _ fun l hl => absurd hl List.not_mem_nil
  induction ls with
  | nil => exact fun r hr => hr
  | cons a ls ih => exact fun r hr => ih _ (laneCheck_ok _ hr fun x _ _ _ _ hx hc => ⟨x, hx, hc⟩)

/-- The step of `fillTlb` for one page. -/
def fillPage (p : Place) (f : Fibre) (cid : Nat) (s : State) (vpn : Nat) : State :=
  match fibXlat s p f cid vpn with
  | some x => if x.cls = 0 then tlbPut s p.core { cid, vpn, level := x.level, pte := x.pte } else s
  | none => s

theorem fillPage_core (vpn : Nat) (h : (getC s p.core).tlb ≠ []) :
    ∃ T, T ≠ [] ∧ getC (fillPage p f cid s vpn) p.core = { getC s p.core with tlb := T } := by
  unfold fillPage
  split
  · split
    · exact tlbPut_core _
    · exact ⟨_, h, rfl⟩
  · exact ⟨_, h, rfl⟩

theorem fillPages_core (vs : List Nat) (h : (getC s p.core).tlb ≠ []) :
    ∃ T, T ≠ [] ∧ getC (vs.foldl (fillPage p f cid) s) p.core = { getC s p.core with tlb := T } := by
  induction vs generalizing s with
  | nil => exact ⟨_, h, rfl⟩
  | cons v vs ih =>
    obtain ⟨T, hT, hg⟩ := fillPage_core (f := f) (cid := cid) v h
    obtain ⟨T', hT', hg'⟩ := ih (s := fillPage p f cid s v) (by rw [hg]; exact hT)
    exact ⟨T', hT', by rw [List.foldl_cons, hg', hg]⟩

/-- Once a lane that passed its checks has filled it, the TLB holds an entry. -/
theorem fillTlb_core {ls : List OpLane} (hn : ls ≠ []) (hx : ∀ l ∈ ls, ∃ x, fibXlat s p f cid (l.va / 2 ^ 16) = some x ∧ x.cls = 0) :
    ∃ T, T ≠ [] ∧ getC (fillTlb s p f cid ls) p.core = { getC s p.core with tlb := T } := by
  have hfold : fillTlb s p f cid ls = (ls.map fun l => l.va / 2 ^ 16).dedup.foldl (fillPage p f cid) s := rfl
  rw [hfold]
  have hpage : ∀ v ∈ (ls.map fun l => l.va / 2 ^ 16).dedup, ∃ x, fibXlat s p f cid v = some x ∧ x.cls = 0 := by
    intro v hv
    obtain ⟨l, hl, rfl⟩ := List.mem_map.1 (List.mem_dedup.1 hv)
    exact hx l hl
  cases hd : (ls.map fun l => l.va / 2 ^ 16).dedup with
  | nil => exact absurd (List.map_eq_nil_iff.1 ((List.dedup_eq_nil _).1 hd)) hn
  | cons v vs =>
    obtain ⟨x, hx, hc⟩ := hpage v (hd ▸ List.mem_cons_self)
    have hv : fillPage p f cid s v = tlbPut s p.core { cid, vpn := v, level := x.level, pte := x.pte } := by
      unfold fillPage
      simp only [hx, hc, if_true]
    obtain ⟨T, hT, hg⟩ := tlbPut_core (s := s) (core := p.core) { cid, vpn := v, level := x.level, pte := x.pte }
    obtain ⟨T', hT', hg'⟩ := fillPages_core (s := fillPage p f cid s v) (p := p) (f := f) (cid := cid) vs (by rw [hv, hg]; exact hT)
    exact ⟨T', hT', by rw [List.foldl_cons, hg', hv, hg]⟩

/-! ### Operands, while the lanes contribute -/

/-- An operand reads no part of a core but its clock and the counts of its channels. -/
theorem opVal_coreOnly {t : State} (h : CoreOnly p.core s t) (hc : (getC t p.core).ctide = (getC s p.core).ctide)
    (hch : (getC t p.core).chans = (getC s p.core).chans) (o : Opnd) (n l : Nat) : opVal t f p o n l = opVal s f p o n l := by
  obtain ⟨⟨N, R, A, L, ht⟩, -⟩ := h
  cases o with
  | v k => rw [ht]; rfl
  | s k => rfl
  | sp r =>
    have hs : specialVal t f p r l = specialVal s f p r l := by
      have hcwp : ∀ k, cwp t f p k = cwp s f p k := by
        intro k
        unfold cwp
        rw [hch]
        generalize t.cores = C at ht
        rw [ht]
        rfl
      unfold specialVal
      rw [hc, hcwp, hcwp, hcwp, hcwp]
      generalize t.cores = C at ht
      rw [ht]
      cases r <;> rfl
    exact congrArg (· % 2 ^ (32 * n)) hs

/-- A lane contributes what operand `data` reads in `r u`, where `u` is what the lanes below it have left. -/
def laneStep (r : State → State) (p : Place) (f : Fibre) (cop : Nat) (ty : Ty) (data : Opnd) (u : State) (l : OpLane) : State :=
  contributeLane p.core cop (accessSize ty) u { l with b := opVal (r u) f p data ty.regs l.lane }

/-- The lanes of `ls` contribute, in ascending order, what operand `data` reads in `r`. -/
def contributed (r : State) (p : Place) (f : Fibre) (cop : Nat) (ty : Ty) (data : Opnd) (u : State) (ls : List OpLane) : State :=
  ls.foldl (laneStep (fun _ => r) p f cop ty data) u

theorem coreOnly_contributed {cop : Nat} {ty : Ty} {data : Opnd} (ls : List OpLane) (r u : State) :
    CoreOnly p.core u (contributed r p f cop ty data u ls) :=
  .foldl ls (fun _ _ => coreOnly_contributeLane _ _ _ _ _) u

theorem laneStep_operand {cop : Nat} {ty : Ty} {data : Opnd} {u : State} {l : OpLane}
    (h : opVal u f p data ty.regs l.lane = opVal s f p data ty.regs l.lane) :
    laneStep id p f cop ty data u l = laneStep (fun _ => s) p f cop ty data u l := by
  unfold laneStep
  exact congrArg (fun b => contributeLane p.core cop (accessSize ty) u { l with b := b }) h

theorem laneStep_core {cop : Nat} {ty : Ty} {data : Opnd} {u : State} (r : State → State) (l : OpLane) (h : (getC u p.core).tlb ≠ []) :
    ∃ P, getC (laneStep r p f cop ty data u l) p.core = { getC u p.core with parts := P } := contributeLane_core _ _ _ h

/-- What a lane contributes is the operand as it was before the lanes below it contributed. -/
theorem contributed_operand {cop : Nat} {ty : Ty} {data : Opnd} (ls : List OpLane) {u : State} (hu : CoreOnly p.core s u)
    (ht : (getC u p.core).tlb ≠ []) (hc : (getC u p.core).ctide = (getC s p.core).ctide)
    (hch : (getC u p.core).chans = (getC s p.core).chans) :
    ls.foldl (laneStep id p f cop ty data) u = contributed s p f cop ty data u ls := by
  unfold contributed
  induction ls generalizing u with
  | nil => rw [List.foldl_nil, List.foldl_nil]
  | cons l ls ih =>
    rw [List.foldl_cons, List.foldl_cons, laneStep_operand (opVal_coreOnly hu hc hch data ty.regs l.lane)]
    obtain ⟨P, hP⟩ := laneStep_core (p := p) (f := f) (cop := cop) (ty := ty) (data := data) (fun _ => s) l ht
    have hs : CoreOnly p.core u (laneStep (fun _ => s) p f cop ty data u l) := coreOnly_contributeLane _ _ _ _ _
    generalize laneStep (fun _ => s) p f cop ty data u l = v at hP hs
    refine ih (hu.trans hs) ?_ ?_ ?_
    · rw [hP]; exact ht
    · rw [hP]; exact hc
    · rw [hP]; exact hch

end

/-! ### The contribution of a fibre -/

section
variable {f : Fibre} {h : Hdr} {ty : Ty} {cop : Nat} {data base : Opnd} {off : Src}

/-- The state in which the lanes of a contribution have contributed, and its context's watchdog has started again (R379). -/
def contributedAll (s : State) (f : Fibre) (ty : Ty) (cop : Nat) (data : Opnd) (ls : List OpLane) : State :=
  let u := contributed s s.here f cop ty data (fillTlb s s.here f (cidOf s f) ls) ls
  if ls.isEmpty then u else pulse u (cidOf u f)

theorem contributeAll_goes {r : LaneRes} (hd : f.dual = none)
    (hr : laneChecks s s.here f (cidOf s f) (accessSize ty) { Ask.both (accessSize ty) with wantCop := some cop } .normal
      (memLanes s f h data.isV base off (accessSize ty)) = r) (hm : r.miss = []) (hb : r.bad = []) {P : State}
    (hP : contributedAll s f ty cop data r.ok = P) (hqP : ctxFlag (ownDone P f [] 0) (cidOf (ownDone P f [] 0) f) 117 = false) :
    contributeAll s f h ty cop data base off = nextX (ownDone P f [] 0) s.here := by
  have hfold : r.ok.foldl (laneStep id s.here f cop ty data) (fillTlb s s.here f (cidOf s f) r.ok) = contributed s s.here f cop ty data (fillTlb s s.here f (cidOf s f) r.ok) r.ok := by
    by_cases hn : r.ok = []
    · unfold contributed
      rw [hn, List.foldl_nil, List.foldl_nil]
    · obtain ⟨T, hT, hg⟩ := fillTlb_core hn (hr ▸ laneChecks_xlat _)
      refine contributed_operand r.ok (coreOnly_fillTlb _ _ _ _ _) ?_ ?_ ?_
      · rw [hg]; exact hT
      · rw [hg]
      · rw [hg]
  have hP' : (if r.ok.isEmpty = true then r.ok.foldl (laneStep id s.here f cop ty data) (fillTlb s s.here f (cidOf s f) r.ok)
      else pulse (r.ok.foldl (laneStep id s.here f cop ty data) (fillTlb s s.here f (cidOf s f) r.ok))
        (cidOf (r.ok.foldl (laneStep id s.here f cop ty data) (fillTlb s s.here f (cidOf s f) r.ok)) f)) = P := by
    rw [hfold]
    exact hP
  unfold contributeAll
  simp only [hr, hm, hb, isTrailer_none hd, List.isEmpty_nil, Bool.not_true, Bool.false_eq_true, if_false, Bool.or_false]
  unfold laneStep id at hP'
  rw [hP', watchLanes_none _ _ _ _ hqP]

/-- What the contribution of all lanes leaves as it was. -/
theorem contributedAll_keeps (ls : List OpLane) (hq : ctxFlag s (cidOf s f) 117 = false) {P : State}
    (hP : contributedAll s f ty cop data ls = P) :
    Outside s P ∧ P.mem = s.mem ∧ ctxFlag P (cidOf P f) 117 = false ∧
      P.cores = (contributed s s.here f cop ty data (fillTlb s s.here f (cidOf s f) ls) ls).cores ∧
      ∀ c, c ≠ s.here.core → getC P c = getC s c := by
  have hu : CoreOnly s.here.core s (contributed s s.here f cop ty data (fillTlb s s.here f (cidOf s f) ls) ls) :=
    (coreOnly_fillTlb s s.here f _ ls).trans (coreOnly_contributed ls s _)
  unfold contributedAll at hP
  generalize contributed s s.here f cop ty data (fillTlb s s.here f (cidOf s f) ls) ls = u at hu hP
  have hcid : ∀ {v : State}, Outside s v → cidOf v f = cidOf s f := by
    intro v hv
    unfold cidOf instOf groupOf getG getI
    rw [hv.groups, hv.insts]
  have hqu : ctxFlag u (cidOf u f) 117 = false := by
    rw [hu.flag, hcid hu.outside]
    exact hq
  have hpc : (pulse u (cidOf u f)).cores = u.cores := by
    unfold pulse modX
    split <;> rfl
  by_cases hn : ls.isEmpty = true
  · simp only [hn, if_true] at hP
    subst hP
    exact ⟨hu.outside, hu.mem, hqu, rfl, hu.2⟩
  · rw [if_neg hn] at hP
    subst hP
    have ho := hu.outside.trans (outside_pulse u (cidOf u f))
    refine ⟨ho, (pulse_mem u _).trans hu.mem, ?_, hpc, fun c hc => ?_⟩
    · rw [hcid ho, ← hcid hu.outside, ctxFlag_pulse]
      exact hqu
    · rw [← hu.2 c hc]
      unfold getC
      exact congrArg (tget Core.init · c) hpc

/-- A contribution of a fibre in no redundant pair, whose lanes pass their checks. -/
theorem contributes {r : LaneRes} (hf : getF s s.here = some f) (hrs : tabRises s.fibres = true)
    (hq : ctxFlag s (cidOf s f) 117 = false) (hc : f.committing = false) (hd : f.dual = none)
    (hr : laneChecks s s.here f (cidOf s f) (accessSize ty) { Ask.both (accessSize ty) with wantCop := some cop } .normal
      (memLanes s f h data.isV base off (accessSize ty)) = r) (hm : r.miss = []) (hb : r.bad = []) :
    ∃ u g, contributeAll s f h ty cop data base off = u ∧ getF u s.here = some g ∧ WentOnX f g (f.pc + 12) ∧ SameRegs s u f g ∧
      u.mem = s.mem ∧ (∀ c, c ≠ s.here.core → getC u c = getC s c) ∧
      u.cores = (contributed s s.here f cop ty data (fillTlb s s.here f (cidOf s f) r.ok) r.ok).cores := by
  have hgo := fun P hP hqP => contributeAll_goes (P := P) hd hr hm hb hP hqP
  obtain ⟨ho, hmem, hqP, hcores, hother⟩ := contributedAll_keeps (ty := ty) (cop := cop) (data := data) r.ok hq rfl
  generalize contributedAll s f ty cop data r.ok = P at hgo ho hmem hqP hcores hother
  have hown : ownDone P f [] 0 = setF P s.here { f with spanNo := f.spanNo + 1 } := by
    have h := ownDone_setF (s := P) (p := s.here) f [] 0 hd ho.here
    rwa [setF_same (by rw [ho.fibres]; exact hrs) ((ho.getF _).trans hf)] at h
  obtain ⟨g, h1, h2, h3, hv, hsc, hfp, he⟩ := nextX_setF (s := P) (g := { f with spanNo := f.spanNo + 1 }) hqP hc
  rw [ho.here] at h1 h2 hv he
  have hgo' : contributeAll s f h ty cop data base off = nextX (setF P s.here { f with spanNo := f.spanNo + 1 }) s.here := by
    rw [hgo P rfl (by rw [hown]; exact hqP), hown]
  have h21 := h2.1
  generalize nextX (setF P s.here { f with spanNo := f.spanNo + 1 }) s.here = u at hgo' h1 h21 hv he
  have hu : u.mem = P.mem ∧ u.cores = P.cores := by
    rw [h21]
    exact ⟨rfl, rfl⟩
  refine ⟨u, g, hgo', h1, h3, ⟨hv.trans ho.vregs, hsc, hfp, he.trans ho.emptied⟩, hu.1.trans hmem, fun c hn => ?_, hu.2.trans hcores⟩
  rw [← hother c hn]
  unfold getC
  rw [hu.2]

end

/-! ### The partial of one line (R234) -/

theorem tfind_tdel_self {α : Type} {t : Tab α} (k : Nat) (hr : tabRises t = true) : tfind (tdel t k) k = none := by
  induction t with
  | nil => rfl
  | cons e t ih =>
    obtain ⟨a, v⟩ := e
    obtain ⟨ha, hr'⟩ := tabRises_cons.1 hr
    simp only [tdel]
    split
    · next hk => exact tfind_above ha (le_of_eq hk.symm)
    · next hk => simp only [tfind, if_neg hk, ih hr']

/-- After a partial has been sent to its home its core has none for the line. -/
theorem sendLine_parts {line : Nat} (hw : tabWf Core.init s.cores = true) (hr : tabRises (getC s core).parts = true) :
    tfind (getC (sendLine s core line) core).parts line = none := by
  unfold sendLine
  simp only
  split
  · next h => exact h
  · next q hq =>
    unfold getC
    rw [sendReq_cores]
    change tfind (tget Core.init (tset Core.init s.cores core _) core).parts line = none
    rw [tget_tset_self _ _ hw]
    exact tfind_tdel_self line hr

/-- What a lane's elements are folded into. -/
theorem partElems_cleared {cop line : Nat} (hw : tabWf Core.init s.cores = true) (hr : tabRises (getC s core).parts = true) :
    partElems (cleared core cop line s) core line =
      match tfind (getC s core).parts line with
      | some y => if y.cop = cop then y.elems else []
      | none => [] := by
  unfold cleared partElems
  cases hq : tfind (getC s core).parts line with
  | none => simp only [hq]
  | some q =>
    by_cases hc : q.cop = cop
    · simp only [hc, if_true, hq]
    · simp only [if_neg hc, sendLine_parts hw hr]

theorem contributeLane_parts (cop n : Nat) (l : OpLane) :
    tfind (getC (contributeLane core cop n s l) core).parts (lineNo l.pa) = some
      { cop, elems := mergeElems cop (partElems (cleared core cop (lineNo l.pa) s) core (lineNo l.pa)) (laneElems cop n l) } := by
  rw [contributeLane_eq]
  generalize mergeElems cop _ _ = E
  generalize cleared core cop (lineNo l.pa) s = c
  have hne : { getC c core with parts := tput (getC c core).parts (lineNo l.pa) { cop, elems := E } } ≠ Core.init := by
    intro h
    have hp := tfind_tput_self (getC c core).parts (lineNo l.pa) { cop, elems := E }
    rw [show tput (getC c core).parts (lineNo l.pa) { cop, elems := E } = Core.init.parts from congrArg Core.parts h] at hp
    exact absurd hp (by simp [Core.init, tfind])
  unfold setC getC at *
  rw [tget_tset_value core hne]
  exact tfind_tput_self _ _ _

end

end Sys2Proof.Machine

namespace Sys2Proof
open Machine

/-- Settles O27: the lanes' data are what the operand read before any of them contributed, since a contribution changes neither the
clock nor the counts of its core. -/
theorem contributions : Obligations.Contributions := by
  unfold Obligations.Contributions
  intro s f h t data base off e he n core r fold ha ho hd hm hb
  have hexec : exec e.1 s = .next (contributeAll s f h t e.2 data base off) := by
    simp only [List.mem_cons, List.not_mem_nil, or_false] at he
    rcases he with rfl | rfl | rfl
    · exact run_acts _ ha
    · exact run_acts _ ha
    · exact run_acts _ ha
  constructor
  · obtain ⟨u, g, hu, hrest⟩ := contributes (h := h) (ty := t) (cop := e.2) (data := data) (base := base) (off := off) (acts_getF ha)
      (acts_tidy ha).1 (acts_quiet ha).1 (acts_committing ha ho) hd rfl hm hb
    exact ⟨u, g, hexec.trans (congrArg Host.Outcome.next hu), hrest⟩
  · intro l hw hr line w v
    have hp := contributeLane_parts (s := s) (core := core) e.2 n { l with b := opVal s f s.here data t.regs l.lane }
    rw [partElems_cleared hw hr] at hp
    exact hp

end Sys2Proof
end

section
/-! PROOFS. A prefetch in an L1 that lists a line twice (R225, R240). -/
namespace Sys2Proof.Machine

/-- A machine whose core 0 lists line 0x801 twice: the first copy is a lease that has run out, the second is owned. Its copy of line
0x800 is usable, with a write tide from which the L1's base moves (R225). The fibre stands at a word, and its lane 0 addresses the first
line, every other lane the second. -/
def lineTwice : State :=
  let s := State.reset.withFetchWord 96 0x0100_0780_0000_0000_0000_0000
  let copy (owned : Bool) (wt : Nat) : Copy := { owned, data := 0, wt, lt := 0, dirty := 0 }
  let x := getC s 0
  setC { s with
    here := { core := 0, berth := 0, fib := 0 }
    sched := []
    vregs := [(vkey (oneDesc 0x30000) 0 0 0 2, 0x40000 :: List.replicate 31 0x40080)] } 0
    { x with
      ctide := 1
      tlb := x.tlb ++ [{ cid := 1, vpn := 4, level := 0, pte := 0x400B3 }]
      l1 := [(0x800, copy true (2 ^ 23)), (0x801, copy false 0), (0x801, copy true 0)] }

/-- The fibre of `lineTwice`. -/
def lineTwiceFibre : Fibre := (getF lineTwice lineTwice.here).getD (startFibre lineTwice 0 0 0 0 0 0)

def prefetchBoth : Instr := .pf plainHdr .normal (.v 2) (.imm 0)

/-- What the lanes of the prefetch come to. -/
def lineTwiceLanes : LaneRes :=
  laneChecks lineTwice lineTwice.here lineTwiceFibre (cidOf lineTwice lineTwiceFibre) 1 (Ask.load 1) .normal
    (memLanes lineTwice lineTwiceFibre plainHdr true (.v 2) (.imm 0) 0)

/-- The prefetch acts there, no lane misses its translation, and lane 1 is of a tracked line of which no usable copy is found. -/
theorem prefetchBoth_acts : acts prefetchBoth lineTwice lineTwiceFibre = true ∧ lineTwiceLanes.miss = [] ∧
    tabWf Core.init lineTwice.cores = true ∧
    lineTwiceLanes.ok.any (fun l => l.trk && l.pol != .noL1 && (hitCopy lineTwice 0 l).isNone) = true := by
  decide +kernel

/-- Moving the base removes the lease that has run out; the owned copy behind it is found instead, and nothing is asked for. -/
theorem prefetchBoth_asks :
    (match exec prefetchBoth lineTwice with
     | .next t => t.reqs.isEmpty
     | _ => false) = true := by
  decide +kernel

end Sys2Proof.Machine

namespace Sys2Proof
open Machine

/-- Refutes O22. Nothing in the statement says that an L1 lists a line once. Where it lists one twice, as in `lineTwice`, a clock that
rises past the base's reach for an earlier lane removes the first copy, the second is usable, and the line is not asked for. In an L1
with rising line numbers there is no such exception. -/
theorem not_prefetch : ¬ Obligations.Prefetch := by
  unfold Obligations.Prefetch
  intro h
  obtain ⟨hacts, hmiss, hwf, hany⟩ := prefetchBoth_acts
  obtain ⟨l, hl, hp⟩ := List.any_eq_true.1 hany
  simp only [Bool.and_eq_true, bne_iff_ne, Option.isNone_iff_eq_none] at hp
  obtain ⟨⟨htrk, hpol⟩, hnone⟩ := hp
  obtain ⟨t, g, he, -, -, -, -, hasked⟩ := h lineTwice lineTwiceFibre plainHdr .normal (.v 2) (.imm 0) 0 prefetchBoth List.mem_cons_self
    hacts hmiss
  obtain ⟨q, hq, -⟩ := hasked l hl htrk (.inl hpol) hwf hnone
  have hu := prefetchBoth_asks
  have he' : exec prefetchBoth lineTwice = .next t := he
  simp only [he', List.isEmpty_iff] at hu
  rw [hu] at hq
  exact absurd hq List.not_mem_nil

end Sys2Proof
end

section
/-! PROOFS. Held stores that are released (R182, R183). -/
namespace Sys2Proof.Machine

section
variable {s : State} {c line t : Nat} {cp : Copy}

/-! ### An owned copy, while the tides of its L1 move (R225) -/

theorem getC_setC (c : Nat) (x : Core) (hw : tabWf Core.init s.cores = true) : getC (setC s c x) c = x := tget_tset_self _ _ hw

theorem wf_setC (c : Nat) (x : Core) (hw : tabWf Core.init s.cores = true) : tabWf Core.init (setC s c x).cores = true :=
  tabWf_tset _ _ hw

/-- Core `c` owns `line`, with these data. -/
def Owns (s : State) (c line : Nat) (d : Line) : Prop :=
  tabWf Core.init s.cores = true ∧ ∃ cp, getCopy s c line = some cp ∧ cp.owned = true ∧ cp.data = d

theorem tfind_filter_map {α : Type} {l : Tab α} {k : Nat} {v : α} (keep : Nat × α → Bool) (g : α → α) (h : tfind l k = some v)
    (hk : ∀ a, keep (a, v) = true) : tfind ((l.filter keep).map fun e => (e.1, g e.2)) k = some (g v) := by
  induction l with
  | nil => exact absurd h (by simp [tfind])
  | cons e l ih =>
    obtain ⟨a, w⟩ := e
    simp only [tfind] at h
    by_cases ha : a = k
    · rw [if_pos ha] at h
      obtain rfl := Option.some.inj h
      subst ha
      rw [List.filter_cons, if_pos (hk a), List.map_cons, tfind, if_pos rfl]
    · rw [if_neg ha] at h
      simp only [List.filter_cons]
      split
      · simp only [List.map_cons, tfind, if_neg ha, ih h]
      · exact ih h

theorem owns_setC {d : Line} {x : Core} (ho : Owns s c line d) (hx : ∃ cp, tfind x.l1 line = some cp ∧ cp.owned = true ∧ cp.data = d) :
    Owns (setC s c x) c line d := by
  obtain ⟨hw, -⟩ := ho
  refine ⟨wf_setC c x hw, ?_⟩
  unfold getCopy
  rw [getC_setC c x hw]
  exact hx

theorem owns_rebaseL1 {d : Line} (t : Nat) (ho : Owns s c line d) : Owns (rebaseL1 s c t) c line d := by
  unfold rebaseL1
  generalize t - 2 ^ 22 = b
  simp only
  split
  · exact ho
  · obtain ⟨cp, hcp, hown, hd⟩ := ho.2
    have hkept := tfind_filter_map (fun e : Nat × Copy => e.2.owned || decide (b ≤ e.2.lt))
      (fun v => { v with wt := max v.wt b, lt := max v.lt b }) hcp fun a => by simp only [hown, Bool.true_or]
    exact owns_setC ho ⟨_, hkept, hown, hd⟩

theorem owns_ctide {d : Line} (t n : Nat) (ho : Owns s c line d) : Owns (setC s c { getC s c with ctide := t, lastClock := n }) c line d :=
  owns_setC ho ho.2

/-- A clock that is raised to a tide that it can hold. -/
def raised (s : State) (c t : Nat) : State :=
  if t ≤ (getC s c).ctide then s
  else
    let u := rebaseL1 s c t
    setC u c { getC u c with ctide := t, lastClock := cycOf u c }

theorem raiseClock_eq (s : State) (c t : Nat) : raiseClock s c t = raised s c (capTide t) := rfl

theorem owns_raised {d : Line} (t : Nat) (ho : Owns s c line d) : Owns (raised s c t) c line d := by
  unfold raised
  split
  · exact ho
  · exact owns_ctide _ _ (owns_rebaseL1 t ho)

theorem owns_seeTide {d : Line} (t : Nat) (ho : Owns s c line d) : Owns (seeTide s c t) c line d := by
  unfold seeTide
  rw [raiseClock_eq]
  exact owns_raised _ ho

theorem wf_rebaseL1 (t : Nat) (hw : tabWf Core.init s.cores = true) : tabWf Core.init (rebaseL1 s c t).cores = true := by
  unfold rebaseL1
  simp only
  split
  · exact hw
  · exact wf_setC _ _ hw

/-- A copy that is put into an L1 as owned. -/
theorem owns_putCopy (hw : tabWf Core.init s.cores = true) (ho : cp.owned = true) : Owns (putCopy s c line cp) c line cp.data := by
  have h := wf_rebaseL1 (c := c) (max cp.wt cp.lt) hw
  unfold putCopy
  generalize rebaseL1 s c (max cp.wt cp.lt) = u at h
  refine ⟨wf_setC _ _ h, { cp with wt := max cp.wt (getC u c).base, lt := max cp.lt (getC u c).base }, ?_, ho, rfl⟩
  unfold getCopy
  rw [getC_setC _ _ h]
  exact tfind_tput_self _ _ _

/-- A store into an owned copy. -/
theorem owns_storeOwned (off : Nat) (b : List Byte) (w : Nat) (hw : tabWf Core.init s.cores = true) (ho : cp.owned = true) :
    Owns (storeOwned s c line cp off b w) c line (lineWr cp.data off b) :=
  owns_seeTide cp.wt (owns_putCopy (cp := { cp with data := lineWr cp.data off b, dirty := _ }) hw ho)

theorem modG_eq {gid : Nat} {g : Group} (m : Group → Group) (hg : getG s gid = some g) : modG s gid m = setG s gid (m g) := by
  unfold modG
  rw [hg]

theorem getG_setG_self (gid : Nat) (g : Group) : getG (setG s gid g) gid = some g := tfind_tput_self _ _ _

end

end Sys2Proof.Machine

namespace Sys2Proof
open Machine

/-- Settles O21: a store of the scratchpad is written to the group's, and one of a line that the core owns to its copy. -/
theorem heldStoreReleases : Obligations.HeldStoreReleases := by
  unfold Obligations.HeldStoreReleases
  intro s p f e l g cp
  refine ⟨fun hk hl hg => ?_, fun hr hreach hregs ht hp hown hcp ho hw => ?_⟩
  · have hm := modG_eq (fun g => { g with scratch := (e.lanes.take 1).foldl (fun m l => memWr m l.va l.bytes) g.scratch }) hg
    rw [hl] at hm
    refine ⟨setG s f.grp { g with scratch := memWr g.scratch l.va l.bytes }, _, ?_, getG_setG_self _ _, rfl, rfl⟩
    unfold releaseHead
    simp only [hk, hl]
    exact congrArg Rel.done hm
  · obtain ⟨-, c, hc, hcown, hcd⟩ := owns_storeOwned (s := s) (c := p.core) (line := lineNo l.pa) (l.pa % 128) l.bytes e.since hw ho
    refine ⟨_, c, ?_, hc, hcown, hcd, storeOwned_mem _ _ _ _ _ _ _⟩
    have hpol : (l.pol != .noL1) = true := bne_iff_ne.2 hp
    unfold releaseStore
    simp only [hr, hreach, ht, hown, hcp, ho, hpol, if_neg hregs, Bool.false_eq_true, if_false, Bool.not_true, Bool.and_self, if_true,
      ne_eq, not_true_eq_false]

end Sys2Proof
end

section
/-! PROOFS. Loads of global memory: issued, and performed (R182, R186, R222, R227, R229, R238, R241). -/
namespace Sys2Proof.Machine

section
variable {s : State} {f g : Fibre} {p : Place} {x : MemOp}

/-! ### The held stores that a load sees (R182) -/

/-- `g` holds what `f` holds, in the same piece and span. -/
def SameHold (f g : Fibre) : Prop :=
  g.root = f.root ∧ g.spanNo = f.spanNo ∧ g.span.hold = f.span.hold ∧ g.committing = f.committing ∧ g.relq = f.relq ∧ g.dual = f.dual ∧
    g.elders = f.elders

theorem elderEnt_setF {h : Fibre} (e : Elder) (hf : getF s p = some f) (hg : SameHold f g) (hh : SameHold f h) :
    elderEnt (setF s p g) p h e = elderEnt s p f e := by
  obtain ⟨hroot, hno, hhold, hcom, hrel, hdual, -⟩ := hg
  have hr : h.root = f.root := hh.1
  unfold elderEnt
  by_cases he : e.fib = p.fib
  · have hp : ({ p with fib := e.fib } : Place) = p := by rw [he]
    rw [hp, getF_setF_self, hf]
    simp only [hroot, hno, hhold, hcom, hrel, hdual, hr]
  · have hk : getF (setF s p g) { p with fib := e.fib } = getF s { p with fib := e.fib } := tfind_setF_ne s p g (pkey_ne he)
    rw [hk, hr]

/-- The entries that a load sees do not change with what else the fibre notes of itself. -/
theorem heldEnts_setF {h : Fibre} (hf : getF s p = some f) (hg : SameHold f g) (hh : SameHold f h) :
    heldEnts (setF s p g) p h = heldEnts s p f := by
  have he : elderEnt (setF s p g) p h = elderEnt s p f := funext fun e => elderEnt_setF e hf hg hh
  obtain ⟨-, hno, hhold, -, hrel, hdual, hel⟩ := hh
  unfold heldEnts
  simp only [he, hno, hhold, hrel, hdual, hel]

theorem loadOrder_setF {h : Fibre} (n : Nat) (ls : List OpLane) (hf : getF s p = some f) (hg : SameHold f g) (hh : SameHold f h) :
    loadOrder (setF s p g) p h n ls = loadOrder s p f n ls := by
  have hr : isReg (setF s p g) = isReg s := rfl
  unfold loadOrder heldBytes
  rw [hr, heldEnts_setF hf hg hh]

theorem sameHold_fencedBy (o : Order) (u : List UndoEnt) :
    SameHold f { fencedBy o f with span := { (fencedBy o f).span with undo := u } } := by
  unfold fencedBy
  split <;> exact ⟨rfl, rfl, rfl, rfl, rfl, rfl, rfl⟩

theorem fencedBy_sameHold (o : Order) : SameHold f (fencedBy o f) := by
  unfold fencedBy
  split <;> exact ⟨rfl, rfl, rfl, rfl, rfl, rfl, rfl⟩

/-! ### A load goes out (R238) -/

/-- The result that a load sends. -/
def loadPend (s : State) (f : Fibre) (x : MemOp) (ls order : List OpLane) : Pend :=
  { pendOf s f x.r x.t.regs x.t [] with
    mask := if x.r.isV then maskOf (ls.map OpLane.lane) else maskOf (passLanes s f s.here x.h.guard)
    size := accessSize x.t, acq := x.ord != .plain, wat := watchLanes s f true false (accessSize x.t) (ls.map fun l => (l.lane, l.va))
    lanes := order }

/-- The results on their way with that of a load: with an order none younger performs before it. -/
def loadPends (p : Place) (f : Fibre) (o : Order) (l : List Pend) : List Pend := if (o != .plain) = true then ordered p f l else l

theorem mem_loadPends {o : Order} {l : List Pend} {q : Pend} (hq : q ∈ l) (ha : q.acq = (o != .plain)) : q ∈ loadPends p f o l := by
  unfold loadPends
  split
  · next ho =>
    refine List.mem_map.2 ⟨q, hq, ?_⟩
    rw [ho] at ha
    split
    · rw [← ha]
    · rfl
  · exact hq

/-- The machine with the load on its way. -/
def sentLoad (s : State) (f : Fibre) (o : Order) (q : Pend) : State :=
  { awaiting s q with pends := loadPends s.here f o (s.pends ++ [q]) }

/-- A load of a fibre in no redundant pair, all of whose lanes pass their checks. -/
theorem issueLoad_goes (ls : List OpLane) (hr : tabRises s.fibres = true) (hf : getF s s.here = some f)
    (hq : ctxFlag s (cidOf s f) 117 = false) (hd : f.dual = none) :
    ∃ u t g q, issueLoad s f x x.r.isV ls [] = t ∧ getF t s.here = some g ∧ WentOn f g (f.pc + 12) ∧ SameRegs s t f g ∧
      t.mem = s.mem ∧ .resultWriteback s.nextId ∈ t.agenda ∧ q ∈ t.pends ∧
      q = loadPend s f x ls (loadOrder (setF { s with nextId := s.nextId + 1 } s.here { f with span := { f.span with undo := u } }) s.here f
        (accessSize x.t) ls) := by
  obtain ⟨u, hu⟩ := sendPend_eq (d := x.r) (n := x.t.regs) (t := x.t) (vs := []) hr hf
  generalize hU : setF { s with nextId := s.nextId + 1 } s.here { f with span := { f.span with undo := u } } = U at hu
  generalize hord : loadOrder U s.here f (accessSize x.t) ls = order
  have hadd : addPend (loadPend s f x ls order, U) =
      setF (awaiting s (loadPend s f x ls order)) s.here { f with span := { f.span with undo := u } } := by
    rw [← hU]
    rfl
  have hgo : issueLoad s f x x.r.isV ls [] =
      next (setF (sentLoad s { f with span := { f.span with undo := u } } x.ord (loadPend s f x ls order)) s.here
        { f with span := { f.span with undo := u } }) s.here := by
    have hp : issueLoad s f x x.r.isV ls [] = next (if (x.ord != .plain) = true then markAcq (addPend (loadPend s f x ls order, U)) s.here
        else addPend (loadPend s f x ls order, U)) s.here := by
      unfold issueLoad
      rw [hu]
      simp only [hd, Option.isSome_none, Bool.false_eq_true, if_false, Bool.not_true]
      rw [hord]
      rfl
    rw [hp, hadd]
    unfold sentLoad loadPends
    split
    · rw [markAcq_eq (getF_setF_self _ _ _)]
      rfl
    · rfl
  generalize hW : sentLoad s { f with span := { f.span with undo := u } } x.ord (loadPend s f x ls order) = W at hgo
  have hhere : W.here = s.here := by rw [← hW]; rfl
  have hqW : ctxFlag W (cidOf W { f with span := { f.span with undo := u } }) 117 = false := by rw [← hW]; exact hq
  obtain ⟨g, h1, h2, h3, hv, hsc, hfp, he⟩ := next_setF (g := { f with span := { f.span with undo := u } }) hqW
  rw [hhere] at h1 h2 hv he
  have hs := h2.1
  generalize next (setF W s.here { f with span := { f.span with undo := u } }) s.here = t at hgo h1 hs hv he
  have hmem : t.mem = W.mem := by rw [hs]
  have hag : t.agenda = W.agenda := by rw [hs]
  have hpe : t.pends = W.pends := by rw [hs]
  rw [← hW] at hv he hmem hag hpe
  refine ⟨u, t, g, loadPend s f x ls order, hgo, h1, h3, ⟨hv, hsc, hfp, he⟩, hmem, ?_, ?_, by rw [hU, hord]⟩
  · rw [hag]
    exact List.mem_append_right _ (List.mem_singleton.2 rfl)
  · rw [hpe]
    exact mem_loadPends (List.mem_append_right _ (List.mem_singleton.2 rfl)) rfl

/-- The machine as a load that is issued finds it: the TLB filled, and loads of the fibre going to the home after an sc order. -/
def checked (s : State) (f : Fibre) (o : Order) (C : Tab Core) : State := setF { s with cores := C } s.here (fencedBy o f)

theorem loadG_goes {r : LaneRes} (hf : getF s s.here = some f) (hrs : tabRises s.fibres = true)
    (hsc : x.ord = .sc → hasPend s s.here = false) (hd : f.dual = none)
    (hn : memLanes s f x.h x.r.isV x.base x.off (accessSize x.t) ≠ [])
    (hr : laneChecks s s.here f (cidOf s f) (accessSize x.t) { globalAsk s f (Ask.load (accessSize x.t)) with elemTy := some x.t } x.cpol
      (memLanes s f x.h x.r.isV x.base x.off (accessSize x.t)) = r) (hm : r.miss = []) (hb : r.bad = [])
    (hl : sameLine s f r.ok = false) :
    ∃ C, loadG s f x = issueLoad (checked s f x.ord C) (fencedBy x.ord f) x x.r.isV r.ok [] := by
  obtain ⟨C, hC⟩ := fillTlb_cores (s := s) (p := s.here) (f := f) (cidOf s f) r.ok
  refine ⟨C, ?_⟩
  have hstall : (decide (x.ord = .sc) && hasPend s s.here) = false := by
    by_cases ho : x.ord = .sc
    · simp only [hsc ho, Bool.and_false]
    · simp only [ho, decide_false, Bool.false_and]
  have hn' : (memLanes s f x.h x.r.isV x.base x.off (accessSize x.t)).isEmpty = false := by simpa using hn
  have hset : setSc { s with cores := C } x.ord = checked s f x.ord C := setSc_eq x.ord hrs hf
  have hg : getF (checked s f x.ord C) s.here = some (fencedBy x.ord f) := getF_setF_self _ _ _
  unfold setSc at hset
  unfold loadG
  simp only [hstall, hn', hr, hm, hb, hl, hC, hd, hset, hg, List.isEmpty_nil, Bool.not_true, Bool.false_and, Bool.or_self,
    Bool.false_eq_true, if_false]

theorem refsOf_checked (C : Tab Core) (o : Order) (d : Opnd) (n : Nat) :
    refsOf (checked s f o C) (fencedBy o f) s.here d n = refsOf s f s.here d n := by
  unfold checked fencedBy
  split <;> rfl

theorem loadOrder_checked (C : Tab Core) (o : Order) (n : Nat) (ls : List OpLane) (u : List UndoEnt) (hf : getF s s.here = some f) :
    loadOrder (setF { checked s f o C with nextId := s.nextId + 1 } s.here
      { fencedBy o f with span := { (fencedBy o f).span with undo := u } }) s.here (fencedBy o f) n ls = loadOrder s s.here f n ls := by
  have hs : setF { checked s f o C with nextId := s.nextId + 1 } s.here { fencedBy o f with span := { (fencedBy o f).span with undo := u } } =
      setF { s with cores := C, nextId := s.nextId + 1 } s.here { fencedBy o f with span := { (fencedBy o f).span with undo := u } } :=
    setF_setF { s with cores := C, nextId := s.nextId + 1 } s.here _ _
  rw [hs, loadOrder_setF (s := { s with cores := C, nextId := s.nextId + 1 }) n ls hf (sameHold_fencedBy o u) (fencedBy_sameHold o)]
  have hr : isReg { s with cores := C, nextId := s.nextId + 1 } = isReg s := rfl
  unfold loadOrder
  rw [hr]
  rfl

end

end Sys2Proof.Machine

namespace Sys2Proof
open Machine

/-- A load's result goes out with its lanes in the order of R440, each with the held stores that it sees. -/
theorem loadIssuesRule : Claim.LoadIssuesRule := by
  unfold Claim.LoadIssuesRule
  intro s f x ha hns hsc hd n ls r hn hm hb hl
  have hf := acts_getF ha
  obtain ⟨hrs, -, -⟩ := acts_tidy ha
  obtain ⟨C, hC⟩ := loadG_goes hf hrs hsc hd hn rfl hm hb hl
  have hexec : exec (.ldG x) s = .next (loadG s f x) := (run_acts _ ha).trans (congrArg Host.Outcome.next (if_neg hns))
  obtain ⟨hpc, hgrp, hscal, hfp, -⟩ := fencedBy_keeps x.ord f
  have hq : ctxFlag (checked s f x.ord C) (cidOf (checked s f x.ord C) (fencedBy x.ord f)) 117 = false := by
    have hcid : cidOf (checked s f x.ord C) (fencedBy x.ord f) = cidOf s f := cidOf_grp (s := s) hgrp
    rw [hcid]
    exact (acts_quiet ha).1
  obtain ⟨-, -, -, -, -, hdual, -⟩ := fencedBy_sameHold (f := f) x.ord
  obtain ⟨u, t, g, q, ht, hg, hwent, ⟨hv, hs, hx, he⟩, hmem, hag, hqm, hq'⟩ := issueLoad_goes (x := x) r.ok
    (rises_tput (pkey s.here) (fencedBy x.ord f) hrs) (getF_setF_self { s with cores := C } s.here (fencedBy x.ord f)) hq (hdual.trans hd)
  rw [hpc] at hwent
  refine ⟨t, g, hexec.trans (congrArg Host.Outcome.next (hC.trans ht)), hg, hwent, ⟨hv, hs.trans hscal, hx.trans hfp, he⟩, hmem, hag, q,
    hqm, ?_⟩
  rw [hq']
  exact ⟨rfl, rfl, refsOf_checked C x.ord x.r x.t.regs, hpc, rfl, rfl, rfl, loadOrder_checked C x.ord n r.ok u hf⟩

end Sys2Proof
end

section
/-! PROOFS. Loads of global memory, as RESULT_WRITEBACK performs them (R186, R222, R227, R229, R439). -/
namespace Sys2Proof.Machine

section
variable {s : State} {f : Fibre} {p : Place} {q : Pend} {l : OpLane} {r : Perform}

/-! ### One lane -/

theorem performLane_reg (hs : q.scratch = false) (hl : isReg r.s l = true) : performLane f q r l = { r with lanes := r.lanes ++ [l] } := by
  unfold performLane
  simp only [hs, hl, Bool.false_eq_true, if_false, if_true]

theorem performLane_hit {cp : Copy} (hs : q.scratch = false) (hl : isReg r.s l = false) (ha : r.asked.contains (lineNo l.pa) = false)
    (hp : (q.pilot && !r.lanes.isEmpty) = false) (hh : atHome r.s f l = false) (hc : hitCopy r.s q.core l = some cp) :
    performLane f q r l = { r with s := seeTide r.s q.core cp.wt, vals := r.vals ++ [(l.lane, laneBytes l q.size cp.data)] } := by
  unfold performLane
  simp only [hs, hl, ha, hp, hh, hc, Bool.or_self, Bool.false_eq_true, if_false]

theorem performLane_miss (hs : q.scratch = false) (hl : isReg r.s l = false) (ha : r.asked.contains (lineNo l.pa) = false)
    (hp : (q.pilot && !r.lanes.isEmpty) = false) (hm : atHome r.s f l = true ∨ hitCopy r.s q.core l = none) :
    performLane f q r l = { r with s := askLine f q.core q.id r.s l, lanes := r.lanes ++ [l], asked := r.asked ++ [lineNo l.pa] } := by
  have hnone : (if atHome r.s f l = true then none else hitCopy r.s q.core l) = none := by
    rcases hm with h | h
    · exact if_pos h
    · rw [h, ite_self]
  unfold performLane
  simp only [hs, hl, ha, hp, hnone, Bool.or_self, Bool.false_eq_true, if_false]

/-- The result once its lanes have been looked at. -/
def afterLanes (q : Pend) (r : Perform) : Pend := { q with lanes := r.lanes, asked := r.asked, vals := q.vals ++ r.vals }

/-- A load of one lane, asked for no line before, that is no spinning fibre's. -/
theorem performLoad_lane (ha : q.acc = false) (hs : q.scratch = false) (hl : q.lanes = [l]) (hk : q.asked = []) (hsp : spinDue s p f = false)
    (hr : performLane f q { s, vals := [], lanes := [], asked := q.asked } l = r) :
    performLoad s p f q = performLoad.readRegs (afterLanes q r) (countSpin r.s p [l] r.lanes.isEmpty) := by
  have hcond : (q.scratch || !q.asked.isEmpty) = false := by
    rw [hs, hk]
    rfl
  have hfold : [l].foldl (performLane f q) { s, vals := [], lanes := [], asked := q.asked } = r := by
    rw [List.foldl_cons, hr, List.foldl_nil]
  have hacc : ¬ q.acc = true := by
    rw [ha]
    exact Bool.false_ne_true
  unfold performLoad
  rw [if_neg hacc]
  simp only [hsp, Bool.and_false, Bool.false_eq_true, if_false, hcond, hl, hfold]
  rfl

/-! ### Registers, which come last (R439) -/

theorem readRegs_done (hs : q.scratch = false) (hl : q.lanes = []) : performLoad.readRegs q s = (q, s) := by
  have hcond : (q.scratch || !q.lanes.all (isReg s)) = false := by
    rw [hs, hl]
    rfl
  unfold performLoad.readRegs
  rw [hcond, if_neg Bool.false_ne_true]
  split
  · rw [← hl]
  · rw [hl, List.foldl_nil]

theorem readRegs_waits (hl : q.lanes = [l]) (hn : isReg s l = false) : performLoad.readRegs q s = (q, s) := by
  have hcond : (q.scratch || !q.lanes.all (isReg s)) = true := by
    rw [hl, List.all_cons, hn, Bool.false_and, Bool.not_false, Bool.or_true]
  unfold performLoad.readRegs
  rw [hcond, if_pos rfl]

theorem readRegs_reads (hs : q.scratch = false) (hl : q.lanes = [l]) (hn : isReg s l = true) (hb : q.bad = []) :
    performLoad.readRegs q s = ({ q with lanes := [], vals := q.vals ++ [(l.lane, (regRead s (localAddr l.pa) q.size).1)] },
      (regRead s (localAddr l.pa) q.size).2) := by
  have hcond : (q.scratch || !q.lanes.all (isReg s)) = false := by
    rw [hs, hl, List.all_cons, hn]
    rfl
  have hbad : (!q.bad.isEmpty) = false := by
    rw [hb]
    rfl
  unfold performLoad.readRegs
  rw [hcond, if_neg Bool.false_ne_true, hbad, if_neg Bool.false_ne_true, hl, List.foldl_cons, List.foldl_nil]

/-! ### A lane that is no hit -/

/-- The run of consecutive hits ends: nothing but the fibre changes. -/
theorem countSpin_false (ls : List OpLane) : ∃ F, countSpin s p ls false = { s with fibres := F } := by
  unfold countSpin
  split
  · simp only [Bool.false_and, Bool.false_eq_true, if_false]
    unfold endSpin modF
    split
    · exact ⟨_, rfl⟩
    · exact ⟨_, rfl⟩
  · exact ⟨_, rfl⟩

theorem isReg_countSpin (ls : List OpLane) (m : OpLane) : isReg (countSpin s p ls false) m = isReg s m := by
  obtain ⟨F, hF⟩ := countSpin_false (s := s) (p := p) ls
  rw [hF]
  rfl

/-- The request for the line of a lane, of which the core has no partial. -/
theorem askLine_sends (core id : Nat) (hp : tfind (getC s core).parts (lineNo l.pa) = none) :
    ∃ A L r, askLine f core id s l = { s with nextId := s.nextId + 1, reqs := s.reqs ++ [r], agenda := A, links := L } ∧
      r.id = s.nextId ∧ r.core = core ∧ r.pa = lineNo l.pa * 128 ∧ r.cont = .pend id ∧
      r.op = if atHome s f l then .load 128 else .lease ((getCopy s core (lineNo l.pa)).map Copy.wt) (leaseOf s (cidOf s f)) := by
  have hsend : sendLine s core (lineNo l.pa) = s := by
    unfold sendLine
    simp only [hp]
  unfold askLine
  simp only [hsend]
  split
  · obtain ⟨A, L, h⟩ := sendReq_eq s core (cidOf s f) (lineNo l.pa * 128) (.load 128) (.pend id) (0, 0, 0, 0, 0) 0 none
    exact ⟨A, L, _, h, rfl, rfl, rfl, rfl, rfl⟩
  · obtain ⟨A, L, h⟩ := sendReq_eq s core (cidOf s f) (lineNo l.pa * 128)
      (.lease ((getCopy s core (lineNo l.pa)).map Copy.wt) (leaseOf s (cidOf s f))) (.pend id) (0, 0, 0, 0, 0) 0 none
    exact ⟨A, L, _, h, rfl, rfl, rfl, rfl, rfl⟩

/-- A load that still waits for a line after its lanes have been looked at. -/
theorem execResultWriteback_waits {u : State} {q' : Pend} (hq : s.pends.find? (fun x => x.id == q.id) = some q)
    (hp : pendOwner s q = some p) (hf : getF s p = some f) (ha : q.acc = false) (hl : performLoad s p f q = (q', u)) (hn : q'.lanes ≠ []) :
    execResultWriteback q.id s = .next { u with pends := swapFirst (fun x : Pend => x.id == q.id) q' u.pends } := by
  have hn' : q'.lanes.isEmpty = false := by simpa using hn
  unfold execResultWriteback
  simp only [hq, hp, hf, hl, hn', ha, Bool.false_eq_true, if_false]

end

end Sys2Proof.Machine

namespace Sys2Proof
open Machine

/-- A load of one lane is performed: a register is read, a usable copy gives its bytes, any other line is asked for. -/
theorem loadPerformsRule : Claim.LoadPerformsRule := by
  unfold Claim.LoadPerformsRule
  intro s p f q l hq ho hf hs ha hl hk hsp line v
  have hasked : ({ s, vals := [], lanes := [], asked := q.asked } : Perform).asked.contains (lineNo l.pa) = false := by
    rw [hk]
    rfl
  have hpilot : (q.pilot && !({ s, vals := [], lanes := [], asked := q.asked } : Perform).lanes.isEmpty) = false := Bool.and_false _
  refine ⟨fun hreg hb => ?_, fun cp hreg hh hc => ?_, fun hreg hm hp => ?_⟩
  · rw [performLoad_lane ha hs hl hk hsp (performLane_reg hs hreg)]
    refine (readRegs_reads (q := afterLanes q { s, vals := [], lanes := [] ++ [l], asked := q.asked }) hs rfl
      ((isReg_countSpin _ _).trans hreg) hb).trans ?_
    unfold afterLanes
    rw [List.append_nil]
  · have hd := readRegs_done (s := countSpin (seeTide s q.core cp.wt) p [l] true) (q := afterLanes q
      { s := seeTide s q.core cp.wt, vals := [] ++ [(l.lane, laneBytes l q.size cp.data)], lanes := [], asked := q.asked }) hs rfl
    have hload := (performLoad_lane ha hs hl hk hsp (performLane_hit hs hreg hasked hpilot hh hc)).trans hd
    rw [hload]
    exact ⟨rfl, rfl⟩
  · obtain ⟨A, L, r, hask, hid, hcore, hpa, hcont, hop⟩ := askLine_sends (f := f) q.core q.id hp
    have hlane := performLane_miss (r := { s, vals := [], lanes := [], asked := q.asked }) hs hreg hasked hpilot hm
    obtain ⟨F, hF⟩ := countSpin_false (s := askLine f q.core q.id s l) (p := p) [l]
    have hafter : afterLanes q { s := askLine f q.core q.id s l, vals := [], lanes := [] ++ [l], asked := q.asked ++ [lineNo l.pa] } =
        { q with asked := [lineNo l.pa] } := by
      unfold afterLanes
      rw [hk, List.nil_append, List.nil_append, List.append_nil, ← hl]
    have hload : performLoad s p f q = ({ q with asked := [lineNo l.pa] }, { askLine f q.core q.id s l with fibres := F }) := by
      rw [performLoad_lane ha hs hl hk hsp hlane, hafter]
      have hreg' : isReg (countSpin (askLine f q.core q.id s l) p [l] false) l = false := by
        rw [isReg_countSpin, hask]
        exact hreg
      exact (readRegs_waits (q := { q with asked := [lineNo l.pa] }) hl hreg').trans (congrArg (Prod.mk _) hF)
    refine ⟨_, r, execResultWriteback_waits hq ho hf ha hload (by rw [hl]; exact List.cons_ne_nil _ _), ?_⟩
    rw [hask]
    exact ⟨rfl, rfl, rfl, hid, hcore, hpa, hcont, hop, rfl⟩

/-- Settles O18: a load goes out with its lanes, and is performed lane by lane when its RESULT_WRITEBACK comes. -/
theorem globalLoad : Obligations.GlobalLoad := ⟨loadIssuesRule, loadPerformsRule⟩

end Sys2Proof
end
